-- ==== Sys2Proof/Word.lean ====
section
/-! DEFINITION. The word types of the machine and their plainest arithmetic. -/

namespace Sys2Proof

/-- A byte of memory. -/
abbrev Byte := BitVec 8

/-- A halfword: the unit of instruction fetch (R34). -/
abbrev Half := BitVec 16

/-- A 32-bit word: a lane register, a memory word. -/
abbrev Word := BitVec 32

/-- A 64-bit doubleword: a control-thread register, an address. -/
abbrev DWord := BitVec 64

/-- The two instruction streams (R34, R49). -/
inductive Stream where
  /-- The vector stream, issued by formed warps of lane threads. -/
  | vec
  /-- The control stream, issued by a core's control thread. -/
  | ctl
  deriving DecidableEq, Repr, Inhabited

/-- The low word of a doubleword. -/
def DWord.lo (x : DWord) : Word := x.setWidth 32

/-- The high word of a doubleword. -/
def DWord.hi (x : DWord) : Word := (x >>> 32).setWidth 32

/-- A doubleword from its low and its high word. -/
def dword (lo hi : Word) : DWord := hi ++ lo

end Sys2Proof
end

