-- ==== Sys2Proof/Forms.lean ====
section
/-! DEFINITION. The operand records of the instruction formats (R37, R40) and the argument records of the
events whose request carries data. Every field is the raw bit field of the encoding. -/

namespace Sys2Proof

/-- Operands of 16-bit form (R37): source code b, destination and first source d. -/
structure HForm where
  b : BitVec 5
  d : BitVec 6
  deriving DecidableEq, Repr, Inhabited

/-- Operands of format R (R40): sB, sA, nw, d, guard g. For SEL, g is the selecting predicate (R43). -/
structure RForm where
  b : BitVec 7
  a : BitVec 7
  n : BitVec 1
  d : BitVec 6
  g : BitVec 3
  deriving DecidableEq, Repr, Inhabited

/-- Operands of format R with d split into condition c and destination predicate p (R58, R245). -/
structure CmpForm where
  b : BitVec 7
  a : BitVec 7
  n : BitVec 1
  c : BitVec 3
  p : BitVec 3
  g : BitVec 3
  deriving DecidableEq, Repr, Inhabited

/-- Operands of format X with one source (R62, R249): sA, nw, d, guard g. -/
structure UForm where
  a : BitVec 7
  n : BitVec 1
  d : BitVec 6
  g : BitVec 3
  deriving DecidableEq, Repr, Inhabited

/-- Operands of plog with two sources (R65): complement c, second source s, first source f, nw w, destination p, guard g. -/
structure PlogForm where
  c : BitVec 1
  s : BitVec 3
  f : BitVec 3
  w : BitVec 1
  p : BitVec 3
  g : BitVec 3
  deriving DecidableEq, Repr, Inhabited

/-- Operands of plog with one source (R65). -/
structure PlogUForm where
  c : BitVec 1
  f : BitVec 3
  w : BitVec 1
  p : BitVec 3
  g : BitVec 3
  deriving DecidableEq, Repr, Inhabited

/-- Operands of cvt (R253): rounding mode r, sA, nw, d, guard g. -/
structure CvtForm where
  r : BitVec 3
  a : BitVec 7
  n : BitVec 1
  d : BitVec 6
  g : BitVec 3
  deriving DecidableEq, Repr, Inhabited

/-- Operands of dsdec (R254): descriptor t, byte or nibble b, sA, nw, d, guard g. -/
structure DsdecForm where
  t : BitVec 4
  b : BitVec 2
  a : BitVec 7
  n : BitVec 1
  d : BitVec 6
  g : BitVec 3
  deriving DecidableEq, Repr, Inhabited

/-- Operands of dsenc (R254). -/
structure DsencForm where
  t : BitVec 4
  a : BitVec 7
  n : BitVec 1
  d : BitVec 6
  g : BitVec 3
  deriving DecidableEq, Repr, Inhabited

/-- Operands of format M load (R40, R89): residency predicate p, base pair n, order o, scope s, destination d. -/
structure LdForm where
  p : BitVec 3
  n : BitVec 5
  o : BitVec 3
  s : BitVec 3
  d : BitVec 6
  deriving DecidableEq, Repr, Inhabited

/-- Operands of format M store (R40, R92): data code t, base pair n, order o, scope s. -/
structure StForm where
  t : BitVec 7
  n : BitVec 5
  o : BitVec 3
  s : BitVec 3
  deriving DecidableEq, Repr, Inhabited

/-- Operands of format A atom (R99): sB, base pair n, operation o, upd u, ordered r, destination d. -/
structure AtomForm where
  b : BitVec 7
  n : BitVec 5
  o : BitVec 4
  u : BitVec 1
  r : BitVec 1
  d : BitVec 6
  deriving DecidableEq, Repr, Inhabited

/-- Operands of format A red (R100): sB, base pair n, operation o, upd u, ordered r, width w. -/
structure RedForm where
  b : BitVec 7
  n : BitVec 5
  o : BitVec 4
  u : BitVec 1
  r : BitVec 1
  w : BitVec 1
  deriving DecidableEq, Repr, Inhabited

/-- Operands of format C (R112): descriptors d and s, index i, to-queue q, kind k. -/
structure CopyForm where
  d : BitVec 7
  s : BitVec 7
  i : BitVec 4
  q : BitVec 1
  k : BitVec 5
  deriving DecidableEq, Repr, Inhabited

/-- Operands of cwait (R118): .e flag e, predicate k, barrier c, nw w, d, guard g. -/
structure CwaitForm where
  e : BitVec 1
  k : BitVec 3
  c : BitVec 4
  w : BitVec 1
  d : BitVec 6
  g : BitVec 3
  deriving DecidableEq, Repr, Inhabited

/-- Operands of ctest (R118). -/
structure CtestForm where
  k : BitVec 3
  c : BitVec 4
  w : BitVec 1
  d : BitVec 6
  g : BitVec 3
  deriving DecidableEq, Repr, Inhabited

/-- Operands of bput (R132): key k, first record register r, bag slot h, status predicate s, size class z. -/
structure BputForm where
  k : BitVec 7
  r : BitVec 7
  h : BitVec 4
  s : BitVec 3
  z : BitVec 3
  deriving DecidableEq, Repr, Inhabited

/-- Operands of mmx (R266): descriptors a and b, barrier c, tile t, stream s, mode o. -/
structure MmxForm where
  a : BitVec 7
  b : BitVec 7
  c : BitVec 4
  t : BitVec 2
  s : BitVec 2
  o : BitVec 2
  deriving DecidableEq, Repr, Inhabited

/-- Operands of mzero.bias and mst (R269): descriptor a, barrier c, tile t, stream s. -/
structure MtileForm where
  a : BitVec 7
  c : BitVec 4
  t : BitVec 2
  s : BitVec 2
  deriving DecidableEq, Repr, Inhabited

/-- Operands of mld (R269): descriptor a, barrier c, tile t, stream s, rounding r. -/
structure MldForm where
  a : BitVec 7
  c : BitVec 4
  t : BitVec 2
  s : BitVec 2
  r : BitVec 2
  deriving DecidableEq, Repr, Inhabited

/-- Operands of format W (R184): operand p, base pair n, compare c, scope s, status predicate t, timeout class m. -/
structure WaituForm where
  p : BitVec 7
  n : BitVec 5
  c : BitVec 3
  s : BitVec 3
  t : BitVec 3
  m : BitVec 3
  deriving DecidableEq, Repr, Inhabited

/-- Operands of perform (R195): effect slot e, sA, nw w, d, guard g. -/
structure PerformForm where
  e : BitVec 3
  a : BitVec 7
  w : BitVec 1
  d : BitVec 6
  g : BitVec 3
  deriving DecidableEq, Repr, Inhabited

/-- Operands of hpush (R195): multi m, e[6:0], e[7] as E, handler index h, guard g. -/
structure HpushForm where
  m : BitVec 1
  e : BitVec 7
  e7 : BitVec 1
  h : BitVec 6
  g : BitVec 3
  deriving DecidableEq, Repr, Inhabited

/-- Operands of coll (R219): descriptors d and s, barrier i, kind k, op o. -/
structure CollForm where
  d : BitVec 7
  s : BitVec 7
  i : BitVec 4
  k : BitVec 3
  o : BitVec 2
  deriving DecidableEq, Repr, Inhabited

/-- Where a home write comes from: a request in flight, or a dirty word leaving a die's L2 (write-back, recall or
eviction, R78, R82). -/
inductive HomeWriteSrc where
  /-- The n-th request in flight. -/
  | message (n : Nat)
  /-- The dirty word with this word number (physical address / 4) of this die's L2. -/
  | dirtyWord (die word : Nat)
  deriving DecidableEq, Repr, Inhabited

/-- The kinds of access another package makes over a Pelbunis link (R365). -/
inductive PeerKind where
  /-- A load of this many bytes. -/
  | load
  /-- A store. -/
  | store
  /-- An atomic with the operation code of R101; with `.upd`, which updates cached copies at the home (R105). -/
  | atomic (op : BitVec 4) (upd : Bool)
  /-- A `red`: an atomic that returns nothing, and needs w alone (R311). -/
  | red (op : BitVec 4) (upd : Bool)
  /-- A wait-until with the compare code of R184. -/
  | wait (cmp : BitVec 3)
  /-- The cancel of a wait-until at its deadline (R189, R191). -/
  | cancel (cmp : BitVec 3)
  deriving DecidableEq, Repr, Inhabited

/-- A Pelbunis access (R365): the other package (the initiator of an inbound access, the target of one that leaves), context, generation, virtual
address, size and data (for an atomic its operand, and above it the compare value of `.cas`; for a wait its operand). -/
structure PeerReq where
  pkg  : Nat
  ctx  : Nat
  gen  : BitVec 16
  va   : DWord
  kind : PeerKind
  size : Nat
  data : BitVec 128
  deriving DecidableEq, Repr, Inhabited

/-- A host memory-window access (R363): function, offset in the window, and the bytes written (none for a read). -/
structure HostAccess where
  fn    : Nat
  off   : Nat
  len   : Nat
  write : Option (List Byte)
  deriving DecidableEq, Repr, Inhabited

/-- An array whose check finds an error that it cannot correct, or that a scrub reads (R341, R345, R346). -/
inductive EccPlace where
  /-- An LLC line of a stack, by the line: its slice reads it. -/
  | llc (stack : Nat)
  /-- A line of a die's L2, by the line: these words of it are wrong in two bits. -/
  | l2 (die : Nat) (words : BitVec 32)
  /-- The L1 of a core, by the core. -/
  | l1
  /-- The TLB of a core, by the core. -/
  | tlb
  /-- The register file, scratchpad, tiles, frontiers or core state of a core, by the core. -/
  | core
  /-- An entry of a monitor table, a Staithe, a reservation table or an engine queue, by the context of its tag. -/
  | entry
  deriving DecidableEq, Repr, Inhabited

/-- What a package is told of a peer package's part in a context's collectives (R367): the context is halted there, is resumed, or a rank's watchdog
has expired there. -/
inductive PeerStatus where
  | halted
  | resumed
  | expired
  deriving DecidableEq, Repr, Inhabited

/-- What a peer package reports of a context (R367). -/
structure PeerReport where
  pkg    : Nat
  ctx    : Nat
  status : PeerStatus
  deriving DecidableEq, Repr, Inhabited

/-- An access of a function to its register page (R361): the offset, and the word written (none for a read). -/
structure PageAccess where
  off   : Nat
  write : Option Word
  deriving DecidableEq, Repr, Inhabited

/-- A request of the host on the management function. -/
inductive PfRequest where
  /-- A report of an X-die, with a nonce (R369). -/
  | attest (xdie nonce : Nat)
  /-- A lifetime counter, by its number (R356). -/
  | counter (key : Nat)
  deriving DecidableEq, Repr, Inhabited

/-- An error injection request (R341): physical word address, tick and bit pattern. -/
structure Injection where
  pa   : Nat
  tick : DWord
  bits : Word
  deriving DecidableEq, Repr, Inhabited

/-- What the host asks for when Fellos creates a context (R305, R165), with the collective group table that system software sets (R219) and
the header, area and capacities of its launch bag (R159). -/
structure ContextSpec where
  ctx   : Nat
  grid  : Nat
  remap : List Nat
  ways  : BitVec 16
  dbg   : BitVec 2
  launchBag : DWord
  area : DWord
  cap : BitVec 16
  limit : BitVec 16
  groups : List (List (Nat × Nat))
  deriving DecidableEq, Repr, Inhabited

/-- An inverted entry as Fellos writes it (R308): four words, for a window frame the four target words (R309), and an anchor with the GFN
it then holds, 0x3FF_FFFF for an empty chain (R310). -/
structure TableEntry where
  words  : Vector Word 4
  target : Vector Word 4
  anchor : Option (Nat × Nat)
  deriving DecidableEq, Repr, Inhabited


end Sys2Proof
end

