-- ==== Sys2Proof/Syntax.lean ====
section
/-! DEFINITION. The instruction and event syntax: one constructor per row of spec/opcode_table.json. An encoded
row carries the raw bit fields of its format; an event row carries the place at which the event happens. -/

namespace Sys2Proof

/-- Every step of the machine: the instructions of R38 and R49-R52 and the events of the device. -/
inductive Instr where
  /-- R38: 16-bit form that copies the sB register or latch into d. -/
  | mov16 (f : HForm)
  /-- R38: 16-bit form: d := d + sB modulo 2^32. -/
  | addI3216 (f : HForm)
  /-- R38: 16-bit form: d := d - sB modulo 2^32. -/
  | subI3216 (f : HForm)
  /-- R38: 16-bit form: d := low 32 bits of d × sB. -/
  | mulI3216 (f : HForm)
  /-- R38: 16-bit form: d := d and sB. -/
  | and16 (f : HForm)
  /-- R38: 16-bit form: d := d or sB. -/
  | or16 (f : HForm)
  /-- R38: 16-bit form: d := d xor sB. -/
  | xor16 (f : HForm)
  /-- R38: 16-bit form: d shifted left by sB mod 32. -/
  | shl16 (f : HForm)
  /-- R38: 16-bit form: logical right shift of d. -/
  | shrN3216 (f : HForm)
  /-- R38: 16-bit form: arithmetic right shift of d. -/
  | shrI3216 (f : HForm)
  /-- R38: 16-bit form: d := round_ne(d + sB). -/
  | addF3216 (f : HForm)
  /-- R38: 16-bit form: d := round_ne(d - sB). -/
  | subF3216 (f : HForm)
  /-- R38: 16-bit form: d := round_ne(d × sB). -/
  | mulF3216 (f : HForm)
  /-- R38: 16-bit form of the FP32 minimum. -/
  | minF3216 (f : HForm)
  /-- R38: 16-bit form of the FP32 maximum. -/
  | maxF3216 (f : HForm)
  /-- R38: 16-bit form: d := d + a signed 5-bit immediate. -/
  | addi16 (i : BitVec 5) (d : BitVec 6)
  /-- R56: Adds two 32-bit operands modulo 2^32. -/
  | addI32 (f : RForm)
  /-- R56: Subtracts sB from sA modulo 2^32. -/
  | subI32 (f : RForm)
  /-- R56: Low 32 bits of the product. -/
  | mulI32 (f : RForm)
  /-- R56: High 32 bits of the signed 64-bit product. -/
  | mulhiI32 (f : RForm)
  /-- R56: High 32 bits of the unsigned 64-bit product. -/
  | mulhiN32 (f : RForm)
  /-- R56: d := d + sA × sB modulo 2^32, with d read first. -/
  | madI32 (f : RForm)
  /-- R56: Signed minimum. -/
  | minI32 (f : RForm)
  /-- R56: Signed maximum. -/
  | maxI32 (f : RForm)
  /-- R56: Unsigned minimum. -/
  | minN32 (f : RForm)
  /-- R56: Unsigned maximum. -/
  | maxN32 (f : RForm)
  /-- R56: Bitwise and. -/
  | and (f : RForm)
  /-- R56: Bitwise or. -/
  | or (f : RForm)
  /-- R56: Bitwise exclusive or. -/
  | xor (f : RForm)
  /-- R56: sA and not sB. -/
  | andn (f : RForm)
  /-- R56: Left shift by sB and 31 with zero fill. -/
  | shl (f : RForm)
  /-- R56: Logical right shift by sB and 31. -/
  | shrN32 (f : RForm)
  /-- R56: Arithmetic right shift by sB and 31. -/
  | shrI32 (f : RForm)
  /-- R56: Rotate left by sB and 31. -/
  | rotl (f : RForm)
  /-- R57: Adds two 64-bit register pairs modulo 2^64. -/
  | add64 (f : RForm)
  /-- R57: Subtracts two 64-bit register pairs modulo 2^64. -/
  | sub64 (f : RForm)
  /-- R57: 64-bit multiply-add of pairs, with d read first. -/
  | mad64 (f : RForm)
  /-- R59: Selects sA or sB per thread by predicate g, for every thread of the formed warp. -/
  | sel (f : RForm)
  /-- R58: Signed integer compare writing a predicate and b0. -/
  | cmpI32 (f : CmpForm)
  /-- R58: Unsigned integer compare writing a predicate and b0. -/
  | cmpN32 (f : CmpForm)
  /-- R62: Copies sA into d. -/
  | mov (f : UForm)
  /-- R62: Bitwise complement. -/
  | not (f : UForm)
  /-- R62: Two's complement negation. -/
  | neg (f : UForm)
  /-- R62: Integer absolute value. -/
  | abs (f : UForm)
  /-- R62: Counts set bits. -/
  | popc (f : UForm)
  /-- R62: Counts leading zero bits. -/
  | clz (f : UForm)
  /-- R62: Counts trailing zero bits. -/
  | ctz (f : UForm)
  /-- R62: Reverses the bit order. -/
  | brev (f : UForm)
  /-- R62: Sign-extends the low byte. -/
  | sextW8 (f : UForm)
  /-- R62: Sign-extends the low halfword. -/
  | sextW16 (f : UForm)
  /-- R62: Zero-extends the low byte. -/
  | zextW8 (f : UForm)
  /-- R62: Zero-extends the low halfword. -/
  | zextW16 (f : UForm)
  /-- R62: Writes p0-p7 as a bit mask into d. -/
  | pget (nw : BitVec 1) (d : BitVec 6) (g : BitVec 3)
  /-- R62: Sets p1-p7 from bits of sA. -/
  | pset (a : BitVec 7) (g : BitVec 3)
  /-- R64: Reads bits [31:0] of the global tick. -/
  | rdtick (nw : BitVec 1) (d : BitVec 6) (g : BitVec 3)
  /-- R64: Reads bits [63:32] of the global tick. -/
  | rdtickHi (nw : BitVec 1) (d : BitVec 6) (g : BitVec 3)
  /-- R63: Reads the identity value chosen by the selector in aux. -/
  | rdid (which : BitVec 3) (nw : BitVec 1) (d : BitVec 6) (g : BitVec 3)
  /-- R60: Extracts a signed bit field. -/
  | bfeI32 (f : RForm)
  /-- R60: Extracts an unsigned bit field. -/
  | bfeN32 (f : RForm)
  /-- R60: Inserts a bit field into d. -/
  | bfi (f : RForm)
  /-- R65: Predicate and, optionally complemented. -/
  | pand (f : PlogForm)
  /-- R65: Predicate or, optionally complemented. -/
  | por (f : PlogForm)
  /-- R65: Predicate exclusive or, optionally complemented. -/
  | pxor (f : PlogForm)
  /-- R65: Predicate and-not, optionally complemented. -/
  | pandn (f : PlogForm)
  /-- R65: Predicate complement. -/
  | pnot (f : PlogUForm)
  /-- R65: Predicate copy. -/
  | pmov (f : PlogUForm)
  /-- R61: Adds a signed 11-bit immediate. -/
  | addi (i : BitVec 11) (a : BitVec 7) (d : BitVec 6)
  /-- R61: Ands with a sign-extended 11-bit immediate. -/
  | andi (i : BitVec 11) (a : BitVec 7) (d : BitVec 6)
  /-- R61: Loads a sign-extended 16-bit immediate. -/
  | ldi (i : BitVec 16) (d : BitVec 6)
  /-- R61: Replaces bits [31:16] of d with a 16-bit immediate. -/
  | ldiHi (i : BitVec 16) (d : BitVec 6)
  /-- R242: FP32 add rounded to nearest even. -/
  | addF32 (f : RForm)
  /-- R242: FP32 subtract rounded to nearest even. -/
  | subF32 (f : RForm)
  /-- R242: FP32 multiply rounded to nearest even. -/
  | mulF32 (f : RForm)
  /-- R243: Fused multiply-add into d, rounded once. -/
  | fmaF32 (f : RForm)
  /-- R242: FP32 minimum with -0 below +0. -/
  | minF32 (f : RForm)
  /-- R242: FP32 maximum with +0 above -0. -/
  | maxF32 (f : RForm)
  /-- R242: Correctly rounded FP32 division. -/
  | divF32 (f : RForm)
  /-- R245: FP32 compare writing a predicate and b0. -/
  | cmpF32 (f : CmpForm)
  /-- R249: Inverts the FP32 sign bit. -/
  | negF32 (f : UForm)
  /-- R249: Clears the FP32 sign bit. -/
  | absF32 (f : UForm)
  /-- R249: Rounds to an integral value, nearest even. -/
  | rintNeF32 (f : UForm)
  /-- R249: Rounds to an integral value toward zero. -/
  | rintZF32 (f : UForm)
  /-- R249: Rounds to an integral value toward +inf. -/
  | rintUpF32 (f : UForm)
  /-- R249: Rounds to an integral value toward -inf. -/
  | rintDnF32 (f : UForm)
  /-- R250: Reciprocal special function. -/
  | rcpF32 (f : UForm)
  /-- R250: Reciprocal square root special function. -/
  | rsqrtF32 (f : UForm)
  /-- R249: Correctly rounded square root. -/
  | sqrtF32 (f : UForm)
  /-- R250: Base-2 exponential special function. -/
  | exp2F32 (f : UForm)
  /-- R250: Base-2 logarithm special function. -/
  | log2F32 (f : UForm)
  /-- R250: Sine special function. -/
  | sinF32 (f : UForm)
  /-- R250: Cosine special function. -/
  | cosF32 (f : UForm)
  /-- R250: Special function of sin(pi a). -/
  | sinpiF32 (f : UForm)
  /-- R250: Special function of cos(pi a). -/
  | cospiF32 (f : UForm)
  /-- R251: Writes a one-hot class mask of the FP32 operand. -/
  | fclassF32 (f : UForm)
  /-- R253: Converts FP32 to FP16 in the named rounding mode. -/
  | cvtF16F32 (f : CvtForm)
  /-- R253: Converts FP32 to BF16 in the named rounding mode. -/
  | cvtBf16F32 (f : CvtForm)
  /-- R253: Converts FP16 to FP32 exactly. -/
  | cvtF32F16 (f : CvtForm)
  /-- R253: Converts BF16 to FP32 exactly. -/
  | cvtF32Bf16 (f : CvtForm)
  /-- R253: Converts FP32 to a clamped signed integer. -/
  | cvtI32F32 (f : CvtForm)
  /-- R253: Converts FP32 to a clamped unsigned integer. -/
  | cvtN32F32 (f : CvtForm)
  /-- R253: Converts a signed integer to FP32. -/
  | cvtF32I32 (f : CvtForm)
  /-- R253: Converts an unsigned integer to FP32. -/
  | cvtF32N32 (f : CvtForm)
  /-- R253: Converts FP32 to a clamped INT8, sign-extended. -/
  | cvtI8F32 (f : CvtForm)
  /-- R253: Converts the signed low byte to FP32. -/
  | cvtF32I8 (f : CvtForm)
  /-- R253: Clamps a signed integer to INT8. -/
  | cvtI8I32 (f : CvtForm)
  /-- R253: Converts FP16 to BF16. -/
  | cvtBf16F16 (f : CvtForm)
  /-- R253: Converts BF16 to FP16. -/
  | cvtF16Bf16 (f : CvtForm)
  /-- R246: Packed FP16 add. -/
  | addH2 (f : RForm)
  /-- R246: Packed FP16 multiply. -/
  | mulH2 (f : RForm)
  /-- R246: Packed FP16 fused multiply-add. -/
  | fmaH2 (f : RForm)
  /-- R246: Packed BF16 add. -/
  | addBh2 (f : RForm)
  /-- R246: Packed BF16 multiply. -/
  | mulBh2 (f : RForm)
  /-- R246: Packed BF16 fused multiply-add. -/
  | fmaBh2 (f : RForm)
  /-- R247: Two-element BF16 dot product to FP32, rounded once. -/
  | dot2Bh (f : RForm)
  /-- R247: Two-element FP16 dot product to FP32, rounded once. -/
  | dot2H (f : RForm)
  /-- R248: Multiplies an FP32 value by 2^n with one rounding. -/
  | scaleF32 (f : RForm)
  /-- R252: Writes sine to d and cosine to d+1. -/
  | sincosF32 (f : UForm)
  /-- R254: Decodes one DS8 byte under a block scale to FP32. -/
  | dsdecDs8 (f : DsdecForm)
  /-- R254: Decodes one DS4 nibble under a block scale to FP32. -/
  | dsdecDs4 (f : DsdecForm)
  /-- R254: Encodes an FP32 value as a DS8 code. -/
  | dsencDs8 (f : DsencForm)
  /-- R254: Encodes an FP32 value as a DS4 code. -/
  | dsencDs4 (f : DsencForm)
  /-- R68: Reads the source value of home lane n in the home warp. -/
  | lget (f : RForm)
  /-- R68: Reads the source value of home lane L xor n. -/
  | lgetX (f : RForm)
  /-- R68: Reads the source value of home lane L - n. -/
  | lgetSub (f : RForm)
  /-- R68: Reads the source value of home lane L + n. -/
  | lgetAdd (f : RForm)
  /-- R68: Swaps paired lane values, flipping the sign in the lower lane. -/
  | swp (f : RForm)
  /-- R69: True when any issue-set thread of the home warp has the predicate. -/
  | pollAny (q : BitVec 3) (nw : BitVec 1) (p : BitVec 3) (g : BitVec 3)
  /-- R69: True when every issue-set thread of the home warp has the predicate. -/
  | pollAll (q : BitVec 3) (nw : BitVec 1) (p : BitVec 3) (g : BitVec 3)
  /-- R69: Writes the lane mask of threads with the predicate true. -/
  | pollMask (q : BitVec 3) (nw : BitVec 1) (d : BitVec 6) (g : BitVec 3)
  /-- R69: True only in the issue-set thread of lowest home lane. -/
  | pollFirst (nw : BitVec 1) (p : BitVec 3) (g : BitVec 3)
  /-- R69: Writes the mask of lanes whose value equals the reader's. -/
  | pollSame (f : UForm)
  /-- R69: Writes the population count of the predicate mask. -/
  | pollCount (q : BitVec 3) (nw : BitVec 1) (d : BitVec 6) (g : BitVec 3)
  /-- R68: Broadcasts the source value of the lane the elected thread names. -/
  | bcast (f : RForm)
  /-- R91: Loads a byte, zero-extended. -/
  | ldW8 (f : LdForm)
  /-- R91: Loads a halfword, zero-extended. -/
  | ldW16 (f : LdForm)
  /-- R91: Loads a word, plain, fresh or acquire. -/
  | ldW32 (f : LdForm)
  /-- R91: Loads two words into d and d+1. -/
  | ldW64 (f : LdForm)
  /-- R91: Loads four words into d to d+3. -/
  | ldW128 (f : LdForm)
  /-- R91: Loads a byte, sign-extended. -/
  | ldX8 (f : LdForm)
  /-- R91: Loads a halfword, sign-extended. -/
  | ldX16 (f : LdForm)
  /-- R92: Appends a byte store to the home warp's store queue. -/
  | stW8 (f : StForm)
  /-- R92: Appends a halfword store to the store queue. -/
  | stW16 (f : StForm)
  /-- R92: Appends a word store, plain or release, to the store queue. -/
  | stW32 (f : StForm)
  /-- R92: Appends a doubleword store to the store queue. -/
  | stW64 (f : StForm)
  /-- R92: Appends a 16-byte store to the store queue. -/
  | stW128 (f : StForm)
  /-- R97: Loads scratchpad words into registers. -/
  | ldsp (a : BitVec 7) (width : BitVec 2) (d : BitVec 6)
  /-- R97: Stores register words into the scratchpad. -/
  | stsp (data : BitVec 7) (a : BitVec 7) (width : BitVec 2)
  /-- R102: Queues a 32-bit atomic executed at the word's home, returning the old value. -/
  | atomW32 (f : AtomForm)
  /-- R102: Queues a 64-bit atomic executed at the home, returning the old value. -/
  | atomW64 (f : AtomForm)
  /-- R100: Queues a reduction at the home with no returned value. -/
  | red (f : RedForm)
  /-- R104: Waits for earlier loads and stsp, releases and acquires at the scope. -/
  | fence (sc : BitVec 3) (g : BitVec 3)
  /-- R105: Promotes a victim core's queues and then acquires at the scope. -/
  | acqSteal (sc : BitVec 3) (a : BitVec 7) (g : BitVec 3)
  /-- R106: Requests residency of a page with a completion word. -/
  | pgreq (k : BitVec 7) (j : BitVec 6) (g : BitVec 3)
  /-- R107: Fills a line into the named cache level. -/
  | prefetch (lvl : BitVec 3) (k : BitVec 7) (g : BitVec 3)
  /-- R108: Queues a write-back of a span's dirty words to their homes. -/
  | wbspan (mode : BitVec 3) (k : BitVec 7) (d : BitVec 6) (g : BitVec 3)
  /-- R108: Writes back then invalidates a span in the core's L1 and die's L2. -/
  | invspan (k : BitVec 7) (d : BitVec 6) (g : BitVec 3)
  /-- R112: Posts a box copy command to the core's copy engine. -/
  | cp (f : CopyForm)
  /-- R112: Posts a gather copy of rows by an index list. -/
  | cpg (f : CopyForm)
  /-- R112: Posts a multicast copy to the scratchpads of masked cores. -/
  | cpm (d : BitVec 7) (sc : BitVec 7) (i : BitVec 4)
  /-- R119: Waits for a filled slot, pops it and acquires, returning its address. -/
  | qpop (q : BitVec 4) (nw : BitVec 1) (d : BitVec 6) (g : BitVec 3)
  /-- R120: Releases the oldest popped slot back to the free count. -/
  | qrel (q : BitVec 4) (g : BitVec 3)
  /-- R120: Returns the filled and free counts of a circular buffer. -/
  | qstat (q : BitVec 4) (nw : BitVec 1) (d : BitVec 6) (g : BitVec 3)
  /-- R121: Waits for a completion barrier's commands and acquires, returning status. -/
  | cwait (f : CwaitForm)
  /-- R121: Tests a completion barrier without waiting. -/
  | ctest (f : CtestForm)
  /-- R121: Clears a barrier's error phase and first fault code. -/
  | cclr (cb : BitVec 4) (g : BitVec 3)
  /-- R122: Lane write of 1 or 0 to a core flag, a core-scope release. -/
  | fset (z : BitVec 1) (fl : BitVec 5) (g : BitVec 3)
  /-- R122: Lane wait until a core flag holds a value, then acquire. -/
  | fwait (z : BitVec 1) (fl : BitVec 5) (g : BitVec 3)
  /-- R122: Takes one entry from the CT-to-lane queue and acquires. -/
  | qrv (nw : BitVec 1) (d : BitVec 6) (g : BitVec 3)
  /-- R122: Sends one 64-bit entry to the lane-to-CT queue as a release. -/
  | qsv (a : BitVec 7) (d : BitVec 6) (g : BitVec 3)
  /-- R133: Puts each thread's record into a bag and holds it for the reply. -/
  | bput (f : BputForm)
  /-- R136: Returns the bag's total record count. -/
  | bcount (h : BitVec 4) (nw : BitVec 1) (d : BitVec 6) (g : BitVec 3)
  /-- R136: Returns one share's record count. -/
  | bshare (h : BitVec 4) (nw : BitVec 1) (d : BitVec 6) (g : BitVec 3)
  /-- R137: Snapshots a share and writes a three-word cursor. -/
  | biter (h : BitVec 4) (nw : BitVec 1) (d : BitVec 6) (g : BitVec 3)
  /-- R138: Advances a cursor and returns the next record address. -/
  | bnext (k : BitVec 7) (nw : BitVec 1) (d : BitVec 6) (g : BitVec 3)
  /-- R141: Queues a drain that frees a live record's slot. -/
  | bdrain (k : BitVec 7) (nw : BitVec 1) (d : BitVec 6) (g : BitVec 3)
  /-- R142: Raises a bag's capacity to a target and waits for the reply. -/
  | bgrow (h : BitVec 4) (d : BitVec 6) (g : BitVec 3)
  /-- R268: Posts a matrix multiply-accumulate into an accumulator tile. -/
  | mmx (f : MmxForm)
  /-- R270: Posts a clear of an accumulator tile. -/
  | mzero (cb : BitVec 4) (tile : BitVec 2) (ms : BitVec 2)
  /-- R270: Posts a fill of a tile from a bias vector. -/
  | mzeroBias (f : MtileForm)
  /-- R270: Posts a narrowing store of tile elements to scratchpad or registers. -/
  | mld (f : MldForm)
  /-- R270: Posts a widening load of a box into a tile. -/
  | mst (f : MtileForm)
  /-- R271: Posts a Riddle scan compacting non-zero elements into lists and a count. -/
  | mscan (a : BitVec 7) (cb : BitVec 4) (ms : BitVec 2)
  /-- R174: PC-relative branch for guard-true threads; ends the run. -/
  | bra (off : BitVec 21) (g : BitVec 3)
  /-- R176: PC-relative call pushing a return frame. -/
  | call (off : BitVec 21) (g : BitVec 3)
  /-- R179: Jumps to a per-thread register target. -/
  | jmpi (k : BitVec 7) (g : BitVec 3)
  /-- R179: Calls a per-thread register target, pushing a frame. -/
  | calli (k : BitVec 7) (g : BitVec 3)
  /-- R176: Pops the frame and returns to its PC. -/
  | ret (g : BitVec 3)
  /-- R179: Issue-set threads leave the workgroup. -/
  | exit (g : BitVec 3)
  /-- R179: Ends the run and makes each thread a blocking point. -/
  | yield (g : BitVec 3)
  /-- R179: Does nothing. -/
  | nop (g : BitVec 3)
  /-- R179: Raises SWTRAP with a per-thread code. -/
  | trap (a : BitVec 7) (g : BitVec 3)
  /-- R179: Raises BRK. -/
  | brk (g : BitVec 3)
  /-- R182: Arrives at a barrier and returns the phase token. -/
  | meetPost (sc : BitVec 3) (i : BitVec 4) (nw : BitVec 1) (d : BitVec 6) (g : BitVec 3)
  /-- R182: Parks until the barrier's phase differs from the token. -/
  | meetAwait (sc : BitVec 3) (i : BitVec 4) (k : BitVec 6) (g : BitVec 3)
  /-- R182: Arrives at a barrier and waits for the phase to complete. -/
  | meetJoin (sc : BitVec 3) (i : BitVec 4) (g : BitVec 3)
  /-- R185: Queues a wait-until on a word at its home and parks the thread. -/
  | waitu (f : WaituForm)
  /-- R192: Registers the thread as a worker of a work bag. -/
  | wqenter (h : BitVec 4) (g : BitVec 3)
  /-- R193: Waits on a work-bag share until non-empty or quiescent. -/
  | wqwait (k : BitVec 3) (h : BitVec 4) (d : BitVec 6) (g : BitVec 3)
  /-- R192: Deregisters the thread from a work bag. -/
  | wqleave (h : BitVec 4) (g : BitVec 3)
  /-- R200: Performs a program effect, entering the handler of the found frame. -/
  | perform (f : PerformForm)
  /-- R198: Pushes a handler frame. -/
  | hpush (f : HpushForm)
  /-- R199: Pops the highest handler frame. -/
  | hpop (g : BitVec 3)
  /-- R203: Resumes a one-shot token with a value. -/
  | resume (a : BitVec 7) (k : BitVec 6) (g : BitVec 3)
  /-- R203: Resumes a continuation token, restoring saved registers. -/
  | resumeM (a : BitVec 7) (k : BitVec 6) (g : BitVec 3)
  /-- R204: Pops the token's frames and continues at the exit PC. -/
  | abandon (k : BitVec 6) (g : BitVec 3)
  /-- R275: Posts an attention decode command to the ADE of the key's stack. -/
  | ade (a : BitVec 7) (b : BitVec 7) (cb : BitVec 4) (mode : BitVec 2)
  /-- R282: Posts a program load to a Delf sequencer. -/
  | dload (cb : BitVec 4) (g : BitVec 3)
  /-- R283: Posts a program run over compute-frame row groups. -/
  | drun (cb : BitVec 4) (g : BitVec 3)
  /-- R219: Posts a collective operation to the collective engine. -/
  | coll (f : CollForm)
  /-- R210: CT appends an entry to the CT-to-lane queue as a release. -/
  | qsend (a : BitVec 7) (g : BitVec 3)
  /-- R210: CT takes the oldest lane-to-CT entry and acquires. -/
  | qrecv (d : BitVec 6) (g : BitVec 3)
  /-- R210: CT writes 1 to a core flag as a release. -/
  | ctFset (k : BitVec 5) (g : BitVec 3)
  /-- R210: CT writes 0 to a core flag as a release. -/
  | fclr (k : BitVec 5) (g : BitVec 3)
  /-- R210: CT blocks until a flag holds a value, then acquires. -/
  | ctFwait (k : BitVec 5) (z : BitVec 1) (g : BitVec 3)
  /-- R211: Resolves a guard slot true or false. -/
  | gset (a : BitVec 7) (k : BitVec 4) (g : BitVec 3)
  /-- R211: Makes a guard slot unresolved. -/
  | gclr (k : BitVec 4) (g : BitVec 3)
  /-- R211: Places the next CT engine command under a guard slot. -/
  | grd (k : BitVec 4) (g : BitVec 3)
  /-- R213: Reads and checks a launch packet and returns accept or reject code. -/
  | launch (a : BitVec 7) (d : BitVec 6) (g : BitVec 3)
  /-- R214: Writes a tensor descriptor from a 64-byte image in one step. -/
  | tdset (k : BitVec 7) (d : BitVec 6) (g : BitVec 3)
  /-- R214: Sets up a circular buffer once no command on it is pending. -/
  | qinit (q : BitVec 4) (d : BitVec 6) (g : BitVec 3)
  /-- R215: Sets a barrier's expected count. -/
  | meetinit (sc : BitVec 3) (i : BitVec 4) (d : BitVec 6) (g : BitVec 3)
  /-- R216: CT reads the whole 64-bit global tick. -/
  | ctRdtick (d : BitVec 6) (g : BitVec 3)
  /-- R216: CT reads an identity chosen by a selector. -/
  | ctRdid (which : BitVec 3) (d : BitVec 6) (g : BitVec 3)
  /-- R217: Creates a bag from a descriptor at the home Staithe. -/
  | bmake (a : BitVec 7) (d : BitVec 6) (g : BitVec 3)
  /-- R218: Seals a live bag. -/
  | bseal (a : BitVec 7) (d : BitVec 6) (g : BitVec 3)
  /-- R218: Frees a bag that no incomplete launch binds. -/
  | bfree (a : BitVec 7) (d : BitVec 6) (g : BitVec 3)
  /-- R335: Restores a trapped workgroup or prologue by retry, skip or kill. -/
  | tret (k : BitVec 3) (a : BitVec 7) (d : BitVec 6) (g : BitVec 3)
  /-- R336: Switches out the core's current logical core. -/
  | cxsave (d : BitVec 6) (g : BitVec 3)
  /-- R336: Makes a logical core current and restores it. -/
  | cxload (a : BitVec 7) (d : BitVec 6) (g : BitVec 3)
  /-- R337: Releases and bumps the context's generation across every slice. -/
  | genset (d : BitVec 6) (g : BitVec 3)
  /-- R338: Writes back and invalidates physical lines of an owned frame. -/
  | xinv (a : BitVec 7) (d : BitVec 6) (g : BitVec 3)
  /-- R339: Reads a system register. -/
  | rdsr (a : BitVec 7) (d : BitVec 6) (g : BitVec 3)
  /-- R339: Writes a system register under its permissions. -/
  | wrsr (h : BitVec 1) (a : BitVec 7) (nw : BitVec 6) (g : BitVec 3)
  /-- R340: Arms a package clock stop at a future tick. -/
  | tickstop (a : BitVec 7) (d : BitVec 6) (g : BitVec 3)
  /-- R294: Reads a workgroup or launch digest. -/
  | dgrd (k : BitVec 3) (a : BitVec 7) (d : BitVec 6) (g : BitVec 3)
  /-- R340: Stops issue on every core of the context for debugging. -/
  | halt (g : BitVec 3)
  /-- R53: An instruction word with an unassigned major, minor, aux or sub-operation (including 0xFFFF_FFFF) is issued and traps ILLEGAL or ALL_ONES. -/
  | unassignedEncoding (w : Word)
  /-- R22: The sequencer forms one warp from the chosen frontier entry into the lowest free issue context. -/
  | formWarp (core : Nat)
  /-- R21: A frontier entry's age count reaches 4,096 and it becomes aged, returning on chip if spilled. -/
  | entryAged (core ws n : Nat)
  /-- R81: The head entry of a home warp's store queue leaves, performing its store, release or request. -/
  | storeLeaveQueue (core hw : Nat)
  /-- R147: A home slice applies a write to a word and re-evaluates its monitor entries. -/
  | homeWrite (src : HomeWriteSrc)
  /-- R80: A fresh, acquire or physical load reads its words at the home slice. -/
  | homeRead (n : Nat)
  /-- R91: A load's data returns and is written to registers, latch and residency predicates. -/
  | loadReply (core n : Nat)
  /-- R83: A home slice recalls dirty copies, applies an atomic or red, and updates or invalidates copies. -/
  | atomicAtHome (n : Nat)
  /-- R102: An atomic's old value returns to its thread, or a red's acknowledgement arrives. -/
  | atomicReply (n : Nat)
  /-- R96: A home slice rejects a stale access and the core retranslates and resends it. -/
  | staleRejectRetry (n : Nat)
  /-- R96: A held store or atomic is sent again when a mapping for its page is installed. -/
  | heldEntryResend (core hw : Nat)
  /-- R353: A request receives an error reply, returning zero to loads or raising REMOTE_ERR. -/
  | errorReply (n : Nat)
  /-- R185: A wait arrives at its home, is evaluated and replies TRUE or registers a monitor entry. -/
  | waitArrive (n : Nat)
  /-- R188: Every 4,096 ticks fallback entries are evaluated against the write log. -/
  | fallbackSweep (stack slice : Nat)
  /-- R189: A waiter's deadline passes and a cancel is sent to the home. -/
  | waitDeadline (n : Nat)
  /-- R189: The home applies a cancel, freeing the record and replying TIMEOUT. -/
  | waitCancel (n : Nat)
  /-- R185: A TRUE or TIMEOUT reply reaches the thread, with acquire or WAIT_TIMEOUT. -/
  | waitReply (n : Nat)
  /-- R190: A TRUE for a re-pointed record reaches the scheduler, which marks threads woken. -/
  | evictedWake (n : Nat)
  /-- R105: A promotion reaches the victim core, which drains its queues and acknowledges. -/
  | stealPromotion (n : Nat)
  /-- R105: The victim's acknowledgement reaches the issuer, which performs its acquire. -/
  | stealAck (n : Nat)
  /-- R182: A batch of arrivals reaches a barrier, possibly completing its phase and waking waiters. -/
  | barrierArrival (n : Nat)
  /-- R133: The home Staithe applies a put, choosing share and slot or replying FULL or REFUSED. -/
  | staithePut (n : Nat)
  /-- R141: The Staithe frees a live record's slot and counts a claim. -/
  | staitheDrain (n : Nat)
  /-- R137: The Staithe takes a snapshot of a share for biter. -/
  | staitheSnapshot (n : Nat)
  /-- R138: The Staithe finds the next record for a cursor step. -/
  | staitheNext (n : Nat)
  /-- R136: The Staithe answers a bcount or bshare. -/
  | staitheCount (n : Nat)
  /-- R142: The Staithe raises capacity or refuses beyond the limit. -/
  | staitheGrow (n : Nat)
  /-- R217: The Staithe checks a bag descriptor and writes the header. -/
  | staitheMake (n : Nat)
  /-- R218: The Staithe sets a bag's sealed bit. -/
  | staitheSeal (n : Nat)
  /-- R218: The Staithe frees a bag. -/
  | staitheFree (n : Nat)
  /-- R192: The Lengthsman registers a worker. -/
  | lengthsmanEnter (n : Nat)
  /-- R193: The Lengthsman applies a wqwait, replying or parking the worker. -/
  | lengthsmanWait (n : Nat)
  /-- R192: The Lengthsman deregisters a worker and drops its claims. -/
  | lengthsmanLeave (n : Nat)
  /-- R133: A Staithe reply reaches a held thread, setting its predicate or raising BAG_FULL. -/
  | bagReply (n : Nat)
  /-- R111: The copy engine accepts a command, capturing descriptors and checking it. -/
  | copyAccept (core : Nat)
  /-- R113: The engine starts a command in acceptance order, taking a buffer slot if aimed at one. -/
  | copyStart (core : Nat)
  /-- R115: A copy completes, decrementing its barrier or filling its slot as a release. -/
  | copyComplete (core n : Nat)
  /-- R212: An engine acts on a guard slot's resolution after the CT's earlier stores complete. -/
  | guardResolve (core : Nat)
  /-- R261: The reservation table accepts a matrix command once earlier mld and mscan completed. -/
  | matrixAccept (core : Nat)
  /-- R169: An entry's effective priority rises one level every 1,024 ticks of waiting. -/
  | reservationAging (quad n : Nat)
  /-- R259: A mode 2 or 3 group forms when every masked core holds a matching entry. -/
  | groupForm (quad n : Nat)
  /-- R169: The reservation table grants the highest-priority grantable entry. -/
  | matrixGrant (quad : Nat)
  /-- R268: A matrix operation completes its barrier as a release. -/
  | matrixComplete (quad n : Nat)
  /-- R274: An ADE accepts and checks a command. -/
  | adeAccept (stack : Nat)
  /-- R272: An ADE starts its next command in arrival order. -/
  | adeStart (stack : Nat)
  /-- R275: An ADE command completes or faults. -/
  | adeComplete (stack : Nat)
  /-- R282: A sequencer reads and validates a program. -/
  | dloadApply (seq : Nat)
  /-- R284: A drun recalls and invalidates its lines and begins the compute region. -/
  | drunStart (seq : Nat)
  /-- R281: A sequencer completes one microinstruction on all lanes. -/
  | delfOperation (seq : Nat)
  /-- R283: A drun reaches stop and completes as a release. -/
  | drunComplete (seq : Nat)
  /-- R285: A channel enters self-refresh, parking a running sequencer. -/
  | channelSelfRefresh (seq : Nat)
  /-- R156: The collective engine releases and reads a participant's source. -/
  | collStart (n : Nat)
  /-- R220: A collective completes in rank order with bit-identical results. -/
  | collComplete (n : Nat)
  /-- R367: collwd expires while a rank is halted and the participant completes with 0x06. -/
  | collWatchdog (n : Nat)
  /-- R367: A package receives halt status for a context with incomplete collectives. -/
  | haltStatus (rep : PeerReport)
  /-- R164: An accepted launch is placed as a gang once every named slot is free. -/
  | placeLaunch (ctx : Nat)
  /-- R170: A launch completes and its completion word is written once. -/
  | launchComplete (ctx n : Nat)
  /-- R172: A workgroup's runaway counter reaches the quantum and traps fatally. -/
  | runaway (core ws : Nat)
  /-- R331: The slice elapses with another logical core runnable, making eviction pending. -/
  | switchRequest (core : Nat)
  /-- R332: A workgroup with every thread at a blocking point is saved. -/
  | evictWorkgroup (core ws : Nat)
  /-- R166: A switch-out completes and the next logical core is restored. -/
  | logicalCoreSwitch (core : Nat)
  /-- R324: The CT takes the oldest queued trap, start event or prologue. -/
  | ctTakeEvent (core : Nat)
  /-- R325: A host start request makes a logical core current and queues a start event. -/
  | startRequest (ctx lcore : Nat)
  /-- R348: Removal of a context begins after a fatal or charged event. -/
  | removeContext (ctx cause : Nat)
  /-- R348: The next removal step starts once the previous step's in-flight count is zero. -/
  | removalStep (ctx : Nat)
  /-- R349: A removal step exceeds 16,777,216 ticks and the stalled die is warm-reset. -/
  | removalStall (ctx : Nat)
  /-- R347: A way's corrected errors reach 64 within 2^30 ticks and it is quarantined. -/
  | wayQuarantine (stack slice way : Nat)
  /-- R351: Fellos starts a warm reset of one C-die. -/
  | warmReset (die : Nat)
  /-- R351: The next warm reset step starts once the previous one finishes. -/
  | resetStep (die : Nat)
  /-- R352: A switch-out during warm reset exceeds 4,194,304 ticks and the context is removed. -/
  | switchoutTimeout (die ctx : Nat)
  /-- R355: An unowned error or host stop stops every clock and writes the dump. -/
  | packageFatal (cause : Nat)
  /-- R376: The armed tick ends and every clock domain is gated. -/
  | tickstopFire
  /-- R356: Lifetime counters are written to non-volatile storage every 2^32 ticks. -/
  | counterUpdate
  /-- R345: After 16 consecutive replays a link retrains, or goes down if retraining fails. -/
  | linkRetrain (link : Nat)
  /-- R365: No reply within 2^24 ticks and the target sends an error reply. -/
  | linkWatchdog (n : Nat)
  /-- R365: An inbound Pelbunis access is translated, checked and performed at the target. -/
  | peerAccess (req : PeerReq)
  /-- R362: A host write to the put window becomes a bag put or is counted as malformed. -/
  | putWindowWrite (fn off : Nat) (data : Option (List Word))
  /-- R363: A host memory-window read or write is made at the home slice. -/
  | memoryWindowAccess (req : HostAccess)
  /-- R364: A store to an interrupt page raises an MSI-X vector. -/
  | interruptPageStore (n : Nat)
  /-- R360: A request to an unbound VF completes with Unsupported Request. -/
  | unboundVfRequest (fn : Nat)
  /-- R361: A write to the register page is discarded. -/
  | registerPageWrite (fn : Nat) (acc : PageAccess)
  /-- R341: A host request names a word, tick and bit pattern for injection. -/
  | errorInjectRequest (req : Injection)
  /-- R341: At the named tick Fellos inverts the pattern's bits in the holding copy. -/
  | errorInjectFire (n : Nat)
  /-- R368: The root of trust verifies firmware and Fellos starts the package. -/
  | boot
  /-- R369: A host SPDM request returns a signed measurement report. -/
  | attestation (req : PfRequest)
  /-- R305: Fellos creates a context on a host request. -/
  | createContext (spec : ContextSpec)
  /-- R315: Fellos reassigns a core, zeroing its state. -/
  | assignCore (core ctx : Nat)
  /-- R317: Fellos writes an inverted entry, purging the frame when ownership changes. -/
  | tableWrite (gfn : Nat) (entry : TableEntry)
  /-- R360: Fellos binds a VF to a context. -/
  | bindVf (fn ctx : Nat)
  /-- R367: The host's debug request resumes a halted context. -/
  | debugResume (ctx : Nat)
  /-- R371: Every 65,536 ticks module power is checked and issue throttled. -/
  | powerSample
  /-- R371: The droop sensor throttles the arrays within 64 ticks. -/
  | droop (die : Nat)
  /-- R370: A die enters Retain after 2^20 idle ticks. -/
  | retainEntry (die : Nat)
  /-- R373: Every smpper ticks a core writes a stall sample record. -/
  | stallSample (core : Nat)
  /-- R341: A slice scrub reads an LLC line, correcting or detecting errors in it and starting removal on an uncorrectable dirty word. -/
  | scrub (place : EccPlace) (n : Nat)
  /-- R345: A flit arrives with a failed CRC and is replayed, and the replay is counted. -/
  | failedFlit (link : Nat)
  /-- R82: A home or peer target acknowledges a write or write-back, letting a release, fence, wbspan or xinv complete. -/
  | writeAcknowledgement (core hw : Nat)
  /-- R166: System software writes a remap table entry, which takes effect at the next switch-out, or is held while a deterministic launch runs. -/
  | remapWrite (ctx lcore pcore : Nat)
  /-- R278: System software assigns a Delf sequencer to a context, clearing its program on reassignment. -/
  | sequencerAssign (seq ctx : Nat)
  /-- R285: A channel leaves self-refresh or power-down and its parked sequencer restores C, M, T and its position. -/
  | channelSelfRefreshExit (seq : Nat)
  /-- R371: The host sets the module power cap between 1,500 W and 4,500 W. -/
  | powerCapSet (watts : Nat)
  /-- R362: Fellos binds a put-window slot of a VF to a bag at the host's request. -/
  | putSlotBind (fn slot addr : Nat)
  deriving DecidableEq, Repr, Inhabited

end Sys2Proof
end

