-- ==== Sys2Proof/Decode.lean ====
section
/-! DEFINITION. The decoder and the encoder: one row of mask and pattern per encoded row of spec/opcode_table.json
(R37, R38, R40, R49-R52). The decoder rejects by name, with the fates of R53 steps 2-4, 6 and 7. Field values that
depend on the stream or on an operand code are checked when the instruction is issued (WellFormed.lean). -/

namespace Sys2Proof

/-- Why an instruction word names no instruction (R53). -/
inductive Reject where
  /-- Fewer bytes than the instruction is long. -/
  | truncated
  /-- The first halfword is 0x0000 (step 2). -/
  | zeroWord
  /-- The word is 0xFFFF_FFFF (step 3). -/
  | allOnes
  /-- The major is assigned to no instruction (step 4). -/
  | unassignedMajor
  /-- The minor, aux or sub-operation is assigned to no member of its group (step 6). -/
  | unassignedMinor
  /-- A reserved field is not at its required value (step 7). -/
  | reservedField
  deriving DecidableEq, Repr, Inhabited

/-- The field of an instruction word that starts at bit `lo` and has `len` bits (R40). -/
def fld (w : Word) (lo len : Nat) : BitVec len := w.extractLsb' lo len

/-- A field's value placed at bit `lo` of an instruction word. -/
def put (lo : Nat) {n : Nat} (x : BitVec n) : Word := x.setWidth 32 <<< lo

/-- The operands of HForm in a word (R37, R40). -/
def HForm.read (w : Word) : HForm :=
  { b := fld w 11 5, d := fld w 5 6 }

/-- The word bits of the operands of HForm. -/
def HForm.bits (f : HForm) : Word :=
  put 11 f.b ||| put 5 f.d

/-- The operands of RForm in a word (R37, R40). -/
def RForm.read (w : Word) : RForm :=
  { b := fld w 25 7, a := fld w 18 7, n := fld w 17 1, d := fld w 11 6, g := fld w 8 3 }

/-- The word bits of the operands of RForm. -/
def RForm.bits (f : RForm) : Word :=
  put 25 f.b ||| put 18 f.a ||| put 17 f.n ||| put 11 f.d ||| put 8 f.g

/-- The operands of CmpForm in a word (R37, R40). -/
def CmpForm.read (w : Word) : CmpForm :=
  { b := fld w 25 7, a := fld w 18 7, n := fld w 17 1, c := fld w 14 3, p := fld w 11 3, g := fld w 8 3 }

/-- The word bits of the operands of CmpForm. -/
def CmpForm.bits (f : CmpForm) : Word :=
  put 25 f.b ||| put 18 f.a ||| put 17 f.n ||| put 14 f.c ||| put 11 f.p ||| put 8 f.g

/-- The operands of UForm in a word (R37, R40). -/
def UForm.read (w : Word) : UForm :=
  { a := fld w 18 7, n := fld w 17 1, d := fld w 11 6, g := fld w 8 3 }

/-- The word bits of the operands of UForm. -/
def UForm.bits (f : UForm) : Word :=
  put 18 f.a ||| put 17 f.n ||| put 11 f.d ||| put 8 f.g

/-- The operands of PlogForm in a word (R37, R40). -/
def PlogForm.read (w : Word) : PlogForm :=
  { c := fld w 25 1, s := fld w 21 3, f := fld w 18 3, w := fld w 17 1, p := fld w 11 3, g := fld w 8 3 }

/-- The word bits of the operands of PlogForm. -/
def PlogForm.bits (f : PlogForm) : Word :=
  put 25 f.c ||| put 21 f.s ||| put 18 f.f ||| put 17 f.w ||| put 11 f.p ||| put 8 f.g

/-- The operands of PlogUForm in a word (R37, R40). -/
def PlogUForm.read (w : Word) : PlogUForm :=
  { c := fld w 25 1, f := fld w 18 3, w := fld w 17 1, p := fld w 11 3, g := fld w 8 3 }

/-- The word bits of the operands of PlogUForm. -/
def PlogUForm.bits (f : PlogUForm) : Word :=
  put 25 f.c ||| put 18 f.f ||| put 17 f.w ||| put 11 f.p ||| put 8 f.g

/-- The operands of CvtForm in a word (R37, R40). -/
def CvtForm.read (w : Word) : CvtForm :=
  { r := fld w 25 3, a := fld w 18 7, n := fld w 17 1, d := fld w 11 6, g := fld w 8 3 }

/-- The word bits of the operands of CvtForm. -/
def CvtForm.bits (f : CvtForm) : Word :=
  put 25 f.r ||| put 18 f.a ||| put 17 f.n ||| put 11 f.d ||| put 8 f.g

/-- The operands of DsdecForm in a word (R37, R40). -/
def DsdecForm.read (w : Word) : DsdecForm :=
  { t := fld w 28 4, b := fld w 25 2, a := fld w 18 7, n := fld w 17 1, d := fld w 11 6, g := fld w 8 3 }

/-- The word bits of the operands of DsdecForm. -/
def DsdecForm.bits (f : DsdecForm) : Word :=
  put 28 f.t ||| put 25 f.b ||| put 18 f.a ||| put 17 f.n ||| put 11 f.d ||| put 8 f.g

/-- The operands of DsencForm in a word (R37, R40). -/
def DsencForm.read (w : Word) : DsencForm :=
  { t := fld w 28 4, a := fld w 18 7, n := fld w 17 1, d := fld w 11 6, g := fld w 8 3 }

/-- The word bits of the operands of DsencForm. -/
def DsencForm.bits (f : DsencForm) : Word :=
  put 28 f.t ||| put 18 f.a ||| put 17 f.n ||| put 11 f.d ||| put 8 f.g

/-- The operands of LdForm in a word (R37, R40). -/
def LdForm.read (w : Word) : LdForm :=
  { p := fld w 29 3, n := fld w 20 5, o := fld w 17 3, s := fld w 14 3, d := fld w 8 6 }

/-- The word bits of the operands of LdForm. -/
def LdForm.bits (f : LdForm) : Word :=
  put 29 f.p ||| put 20 f.n ||| put 17 f.o ||| put 14 f.s ||| put 8 f.d

/-- The operands of StForm in a word (R37, R40). -/
def StForm.read (w : Word) : StForm :=
  { t := fld w 25 7, n := fld w 20 5, o := fld w 17 3, s := fld w 14 3 }

/-- The word bits of the operands of StForm. -/
def StForm.bits (f : StForm) : Word :=
  put 25 f.t ||| put 20 f.n ||| put 17 f.o ||| put 14 f.s

/-- The operands of AtomForm in a word (R37, R40). -/
def AtomForm.read (w : Word) : AtomForm :=
  { b := fld w 25 7, n := fld w 20 5, o := fld w 16 4, u := fld w 15 1, r := fld w 14 1, d := fld w 8 6 }

/-- The word bits of the operands of AtomForm. -/
def AtomForm.bits (f : AtomForm) : Word :=
  put 25 f.b ||| put 20 f.n ||| put 16 f.o ||| put 15 f.u ||| put 14 f.r ||| put 8 f.d

/-- The operands of RedForm in a word (R37, R40). -/
def RedForm.read (w : Word) : RedForm :=
  { b := fld w 25 7, n := fld w 20 5, o := fld w 16 4, u := fld w 15 1, r := fld w 14 1, w := fld w 8 1 }

/-- The word bits of the operands of RedForm. -/
def RedForm.bits (f : RedForm) : Word :=
  put 25 f.b ||| put 20 f.n ||| put 16 f.o ||| put 15 f.u ||| put 14 f.r ||| put 8 f.w

/-- The operands of CopyForm in a word (R37, R40). -/
def CopyForm.read (w : Word) : CopyForm :=
  { d := fld w 25 7, s := fld w 18 7, i := fld w 14 4, q := fld w 13 1, k := fld w 8 5 }

/-- The word bits of the operands of CopyForm. -/
def CopyForm.bits (f : CopyForm) : Word :=
  put 25 f.d ||| put 18 f.s ||| put 14 f.i ||| put 13 f.q ||| put 8 f.k

/-- The operands of CwaitForm in a word (R37, R40). -/
def CwaitForm.read (w : Word) : CwaitForm :=
  { e := fld w 25 1, k := fld w 22 3, c := fld w 18 4, w := fld w 17 1, d := fld w 11 6, g := fld w 8 3 }

/-- The word bits of the operands of CwaitForm. -/
def CwaitForm.bits (f : CwaitForm) : Word :=
  put 25 f.e ||| put 22 f.k ||| put 18 f.c ||| put 17 f.w ||| put 11 f.d ||| put 8 f.g

/-- The operands of CtestForm in a word (R37, R40). -/
def CtestForm.read (w : Word) : CtestForm :=
  { k := fld w 22 3, c := fld w 18 4, w := fld w 17 1, d := fld w 11 6, g := fld w 8 3 }

/-- The word bits of the operands of CtestForm. -/
def CtestForm.bits (f : CtestForm) : Word :=
  put 22 f.k ||| put 18 f.c ||| put 17 f.w ||| put 11 f.d ||| put 8 f.g

/-- The operands of BputForm in a word (R37, R40). -/
def BputForm.read (w : Word) : BputForm :=
  { k := fld w 25 7, r := fld w 18 7, h := fld w 14 4, s := fld w 11 3, z := fld w 8 3 }

/-- The word bits of the operands of BputForm. -/
def BputForm.bits (f : BputForm) : Word :=
  put 25 f.k ||| put 18 f.r ||| put 14 f.h ||| put 11 f.s ||| put 8 f.z

/-- The operands of MmxForm in a word (R37, R40). -/
def MmxForm.read (w : Word) : MmxForm :=
  { a := fld w 25 7, b := fld w 18 7, c := fld w 14 4, t := fld w 12 2, s := fld w 10 2, o := fld w 8 2 }

/-- The word bits of the operands of MmxForm. -/
def MmxForm.bits (f : MmxForm) : Word :=
  put 25 f.a ||| put 18 f.b ||| put 14 f.c ||| put 12 f.t ||| put 10 f.s ||| put 8 f.o

/-- The operands of MtileForm in a word (R37, R40). -/
def MtileForm.read (w : Word) : MtileForm :=
  { a := fld w 25 7, c := fld w 14 4, t := fld w 12 2, s := fld w 10 2 }

/-- The word bits of the operands of MtileForm. -/
def MtileForm.bits (f : MtileForm) : Word :=
  put 25 f.a ||| put 14 f.c ||| put 12 f.t ||| put 10 f.s

/-- The operands of MldForm in a word (R37, R40). -/
def MldForm.read (w : Word) : MldForm :=
  { a := fld w 25 7, c := fld w 14 4, t := fld w 12 2, s := fld w 10 2, r := fld w 8 2 }

/-- The word bits of the operands of MldForm. -/
def MldForm.bits (f : MldForm) : Word :=
  put 25 f.a ||| put 14 f.c ||| put 12 f.t ||| put 10 f.s ||| put 8 f.r

/-- The operands of WaituForm in a word (R37, R40). -/
def WaituForm.read (w : Word) : WaituForm :=
  { p := fld w 25 7, n := fld w 20 5, c := fld w 17 3, s := fld w 14 3, t := fld w 11 3, m := fld w 8 3 }

/-- The word bits of the operands of WaituForm. -/
def WaituForm.bits (f : WaituForm) : Word :=
  put 25 f.p ||| put 20 f.n ||| put 17 f.c ||| put 14 f.s ||| put 11 f.t ||| put 8 f.m

/-- The operands of PerformForm in a word (R37, R40). -/
def PerformForm.read (w : Word) : PerformForm :=
  { e := fld w 25 3, a := fld w 18 7, w := fld w 17 1, d := fld w 11 6, g := fld w 8 3 }

/-- The word bits of the operands of PerformForm. -/
def PerformForm.bits (f : PerformForm) : Word :=
  put 25 f.e ||| put 18 f.a ||| put 17 f.w ||| put 11 f.d ||| put 8 f.g

/-- The operands of HpushForm in a word (R37, R40). -/
def HpushForm.read (w : Word) : HpushForm :=
  { m := fld w 25 1, e := fld w 18 7, e7 := fld w 17 1, h := fld w 11 6, g := fld w 8 3 }

/-- The word bits of the operands of HpushForm. -/
def HpushForm.bits (f : HpushForm) : Word :=
  put 25 f.m ||| put 18 f.e ||| put 17 f.e7 ||| put 11 f.h ||| put 8 f.g

/-- The operands of CollForm in a word (R37, R40). -/
def CollForm.read (w : Word) : CollForm :=
  { d := fld w 25 7, s := fld w 18 7, i := fld w 14 4, k := fld w 10 3, o := fld w 8 2 }

/-- The word bits of the operands of CollForm. -/
def CollForm.bits (f : CollForm) : Word :=
  put 25 f.d ||| put 18 f.s ||| put 14 f.i ||| put 10 f.k ||| put 8 f.o

/-- One row of the opcode table: the bits under `mask` equal `pattern`, and `make` reads the other fields. -/
structure Row where
  mask    : Word
  pattern : Word
  make    : Word → Instr

/-- A word matches a row when its fixed bits are the row's. -/
def Row.hits (r : Row) (w : Word) : Bool := w &&& r.mask == r.pattern

/-- R37, R38: the 16-bit forms; the upper 16 bits of the word are not read. -/
def rows16 : List Row := [
  ⟨0x0000001F#32, 0x00000000#32, fun w => .mov16 (HForm.read w)⟩,
  ⟨0x0000001F#32, 0x00000002#32, fun w => .addI3216 (HForm.read w)⟩,
  ⟨0x0000001F#32, 0x00000004#32, fun w => .subI3216 (HForm.read w)⟩,
  ⟨0x0000001F#32, 0x00000006#32, fun w => .mulI3216 (HForm.read w)⟩,
  ⟨0x0000001F#32, 0x00000008#32, fun w => .and16 (HForm.read w)⟩,
  ⟨0x0000001F#32, 0x0000000A#32, fun w => .or16 (HForm.read w)⟩,
  ⟨0x0000001F#32, 0x0000000C#32, fun w => .xor16 (HForm.read w)⟩,
  ⟨0x0000001F#32, 0x0000000E#32, fun w => .shl16 (HForm.read w)⟩,
  ⟨0x0000001F#32, 0x00000010#32, fun w => .shrN3216 (HForm.read w)⟩,
  ⟨0x0000001F#32, 0x00000012#32, fun w => .shrI3216 (HForm.read w)⟩,
  ⟨0x0000001F#32, 0x00000014#32, fun w => .addF3216 (HForm.read w)⟩,
  ⟨0x0000001F#32, 0x00000016#32, fun w => .subF3216 (HForm.read w)⟩,
  ⟨0x0000001F#32, 0x00000018#32, fun w => .mulF3216 (HForm.read w)⟩,
  ⟨0x0000001F#32, 0x0000001A#32, fun w => .minF3216 (HForm.read w)⟩,
  ⟨0x0000001F#32, 0x0000001C#32, fun w => .maxF3216 (HForm.read w)⟩,
  ⟨0x0000001F#32, 0x0000001E#32, fun w => .addi16 (fld w 11 5) (fld w 5 6)⟩]

/-- R56-R65: the integer majors 0x00-0x1F. -/
def rowsInt : List Row := [
  ⟨0x000000FF#32, 0x00000001#32, fun w => .addI32 (RForm.read w)⟩,
  ⟨0x000000FF#32, 0x00000003#32, fun w => .subI32 (RForm.read w)⟩,
  ⟨0x000000FF#32, 0x00000005#32, fun w => .mulI32 (RForm.read w)⟩,
  ⟨0x000000FF#32, 0x00000007#32, fun w => .mulhiI32 (RForm.read w)⟩,
  ⟨0x000000FF#32, 0x00000009#32, fun w => .mulhiN32 (RForm.read w)⟩,
  ⟨0x000000FF#32, 0x0000000B#32, fun w => .madI32 (RForm.read w)⟩,
  ⟨0x000000FF#32, 0x0000000D#32, fun w => .minI32 (RForm.read w)⟩,
  ⟨0x000000FF#32, 0x0000000F#32, fun w => .maxI32 (RForm.read w)⟩,
  ⟨0x000000FF#32, 0x00000011#32, fun w => .minN32 (RForm.read w)⟩,
  ⟨0x000000FF#32, 0x00000013#32, fun w => .maxN32 (RForm.read w)⟩,
  ⟨0x000000FF#32, 0x00000015#32, fun w => .and (RForm.read w)⟩,
  ⟨0x000000FF#32, 0x00000017#32, fun w => .or (RForm.read w)⟩,
  ⟨0x000000FF#32, 0x00000019#32, fun w => .xor (RForm.read w)⟩,
  ⟨0x000000FF#32, 0x0000001B#32, fun w => .andn (RForm.read w)⟩,
  ⟨0x000000FF#32, 0x0000001D#32, fun w => .shl (RForm.read w)⟩,
  ⟨0x000000FF#32, 0x0000001F#32, fun w => .shrN32 (RForm.read w)⟩,
  ⟨0x000000FF#32, 0x00000021#32, fun w => .shrI32 (RForm.read w)⟩,
  ⟨0x000000FF#32, 0x00000023#32, fun w => .rotl (RForm.read w)⟩,
  ⟨0x000000FF#32, 0x00000025#32, fun w => .add64 (RForm.read w)⟩,
  ⟨0x000000FF#32, 0x00000027#32, fun w => .sub64 (RForm.read w)⟩,
  ⟨0x000000FF#32, 0x00000029#32, fun w => .mad64 (RForm.read w)⟩,
  ⟨0x000000FF#32, 0x0000002B#32, fun w => .sel (RForm.read w)⟩,
  ⟨0x000000FF#32, 0x0000002D#32, fun w => .cmpI32 (CmpForm.read w)⟩,
  ⟨0x000000FF#32, 0x0000002F#32, fun w => .cmpN32 (CmpForm.read w)⟩,
  ⟨0xFE0000FF#32, 0x00000031#32, fun w => .mov (UForm.read w)⟩,
  ⟨0xFE0000FF#32, 0x10000031#32, fun w => .not (UForm.read w)⟩,
  ⟨0xFE0000FF#32, 0x20000031#32, fun w => .neg (UForm.read w)⟩,
  ⟨0xFE0000FF#32, 0x30000031#32, fun w => .abs (UForm.read w)⟩,
  ⟨0xFE0000FF#32, 0x40000031#32, fun w => .popc (UForm.read w)⟩,
  ⟨0xFE0000FF#32, 0x50000031#32, fun w => .clz (UForm.read w)⟩,
  ⟨0xFE0000FF#32, 0x60000031#32, fun w => .ctz (UForm.read w)⟩,
  ⟨0xFE0000FF#32, 0x70000031#32, fun w => .brev (UForm.read w)⟩,
  ⟨0xFE0000FF#32, 0x80000031#32, fun w => .sextW8 (UForm.read w)⟩,
  ⟨0xFE0000FF#32, 0x90000031#32, fun w => .sextW16 (UForm.read w)⟩,
  ⟨0xFE0000FF#32, 0xA0000031#32, fun w => .zextW8 (UForm.read w)⟩,
  ⟨0xFE0000FF#32, 0xB0000031#32, fun w => .zextW16 (UForm.read w)⟩,
  ⟨0xFFFC00FF#32, 0xC1100031#32, fun w => .pget (fld w 17 1) (fld w 11 6) (fld w 8 3)⟩,
  ⟨0xFE03F8FF#32, 0xD0000031#32, fun w => .pset (fld w 18 7) (fld w 8 3)⟩,
  ⟨0xFFFC00FF#32, 0xE1100031#32, fun w => .rdtick (fld w 17 1) (fld w 11 6) (fld w 8 3)⟩,
  ⟨0xFFFC00FF#32, 0xE3100031#32, fun w => .rdtickHi (fld w 17 1) (fld w 11 6) (fld w 8 3)⟩,
  ⟨0xF1FC00FF#32, 0xF1100031#32, fun w => .rdid (fld w 25 3) (fld w 17 1) (fld w 11 6) (fld w 8 3)⟩,
  ⟨0x000000FF#32, 0x00000033#32, fun w => .bfeI32 (RForm.read w)⟩,
  ⟨0x000000FF#32, 0x00000035#32, fun w => .bfeN32 (RForm.read w)⟩,
  ⟨0x000000FF#32, 0x00000037#32, fun w => .bfi (RForm.read w)⟩,
  ⟨0xFD01C0FF#32, 0x00000039#32, fun w => .pand (PlogForm.read w)⟩,
  ⟨0xFD01C0FF#32, 0x10000039#32, fun w => .por (PlogForm.read w)⟩,
  ⟨0xFD01C0FF#32, 0x20000039#32, fun w => .pxor (PlogForm.read w)⟩,
  ⟨0xFD01C0FF#32, 0x30000039#32, fun w => .pandn (PlogForm.read w)⟩,
  ⟨0xFDE1C0FF#32, 0x40000039#32, fun w => .pnot (PlogUForm.read w)⟩,
  ⟨0xFDE1C0FF#32, 0x50000039#32, fun w => .pmov (PlogUForm.read w)⟩,
  ⟨0x000000FF#32, 0x0000003B#32, fun w => .addi (fld w 21 11) (fld w 14 7) (fld w 8 6)⟩,
  ⟨0x000000FF#32, 0x0000003D#32, fun w => .andi (fld w 21 11) (fld w 14 7) (fld w 8 6)⟩,
  ⟨0x0000C0FF#32, 0x0000003F#32, fun w => .ldi (fld w 16 16) (fld w 8 6)⟩,
  ⟨0x0000C0FF#32, 0x0000803F#32, fun w => .ldiHi (fld w 16 16) (fld w 8 6)⟩]

/-- R241-R254: the float majors 0x20-0x35. -/
def rowsFloat : List Row := [
  ⟨0x000000FF#32, 0x00000041#32, fun w => .addF32 (RForm.read w)⟩,
  ⟨0x000000FF#32, 0x00000043#32, fun w => .subF32 (RForm.read w)⟩,
  ⟨0x000000FF#32, 0x00000045#32, fun w => .mulF32 (RForm.read w)⟩,
  ⟨0x000000FF#32, 0x00000047#32, fun w => .fmaF32 (RForm.read w)⟩,
  ⟨0x000000FF#32, 0x00000049#32, fun w => .minF32 (RForm.read w)⟩,
  ⟨0x000000FF#32, 0x0000004B#32, fun w => .maxF32 (RForm.read w)⟩,
  ⟨0x000000FF#32, 0x0000004D#32, fun w => .divF32 (RForm.read w)⟩,
  ⟨0x000000FF#32, 0x0000004F#32, fun w => .cmpF32 (CmpForm.read w)⟩,
  ⟨0xFE0000FF#32, 0x00000051#32, fun w => .negF32 (UForm.read w)⟩,
  ⟨0xFE0000FF#32, 0x10000051#32, fun w => .absF32 (UForm.read w)⟩,
  ⟨0xFE0000FF#32, 0x20000051#32, fun w => .rintNeF32 (UForm.read w)⟩,
  ⟨0xFE0000FF#32, 0x30000051#32, fun w => .rintZF32 (UForm.read w)⟩,
  ⟨0xFE0000FF#32, 0x40000051#32, fun w => .rintUpF32 (UForm.read w)⟩,
  ⟨0xFE0000FF#32, 0x50000051#32, fun w => .rintDnF32 (UForm.read w)⟩,
  ⟨0xFE0000FF#32, 0x60000051#32, fun w => .rcpF32 (UForm.read w)⟩,
  ⟨0xFE0000FF#32, 0x70000051#32, fun w => .rsqrtF32 (UForm.read w)⟩,
  ⟨0xFE0000FF#32, 0x80000051#32, fun w => .sqrtF32 (UForm.read w)⟩,
  ⟨0xFE0000FF#32, 0x90000051#32, fun w => .exp2F32 (UForm.read w)⟩,
  ⟨0xFE0000FF#32, 0xA0000051#32, fun w => .log2F32 (UForm.read w)⟩,
  ⟨0xFE0000FF#32, 0xB0000051#32, fun w => .sinF32 (UForm.read w)⟩,
  ⟨0xFE0000FF#32, 0xC0000051#32, fun w => .cosF32 (UForm.read w)⟩,
  ⟨0xFE0000FF#32, 0xD0000051#32, fun w => .sinpiF32 (UForm.read w)⟩,
  ⟨0xFE0000FF#32, 0xE0000051#32, fun w => .cospiF32 (UForm.read w)⟩,
  ⟨0xFE0000FF#32, 0xF0000051#32, fun w => .fclassF32 (UForm.read w)⟩,
  ⟨0xF00000FF#32, 0x00000053#32, fun w => .cvtF16F32 (CvtForm.read w)⟩,
  ⟨0xF00000FF#32, 0x10000053#32, fun w => .cvtBf16F32 (CvtForm.read w)⟩,
  ⟨0xF00000FF#32, 0x20000053#32, fun w => .cvtF32F16 (CvtForm.read w)⟩,
  ⟨0xF00000FF#32, 0x30000053#32, fun w => .cvtF32Bf16 (CvtForm.read w)⟩,
  ⟨0xF00000FF#32, 0x40000053#32, fun w => .cvtI32F32 (CvtForm.read w)⟩,
  ⟨0xF00000FF#32, 0x50000053#32, fun w => .cvtN32F32 (CvtForm.read w)⟩,
  ⟨0xF00000FF#32, 0x60000053#32, fun w => .cvtF32I32 (CvtForm.read w)⟩,
  ⟨0xF00000FF#32, 0x70000053#32, fun w => .cvtF32N32 (CvtForm.read w)⟩,
  ⟨0xF00000FF#32, 0x80000053#32, fun w => .cvtI8F32 (CvtForm.read w)⟩,
  ⟨0xF00000FF#32, 0x90000053#32, fun w => .cvtF32I8 (CvtForm.read w)⟩,
  ⟨0xF00000FF#32, 0xA0000053#32, fun w => .cvtI8I32 (CvtForm.read w)⟩,
  ⟨0xF00000FF#32, 0xB0000053#32, fun w => .cvtBf16F16 (CvtForm.read w)⟩,
  ⟨0xF00000FF#32, 0xC0000053#32, fun w => .cvtF16Bf16 (CvtForm.read w)⟩,
  ⟨0x000000FF#32, 0x00000055#32, fun w => .addH2 (RForm.read w)⟩,
  ⟨0x000000FF#32, 0x00000057#32, fun w => .mulH2 (RForm.read w)⟩,
  ⟨0x000000FF#32, 0x00000059#32, fun w => .fmaH2 (RForm.read w)⟩,
  ⟨0x000000FF#32, 0x0000005B#32, fun w => .addBh2 (RForm.read w)⟩,
  ⟨0x000000FF#32, 0x0000005D#32, fun w => .mulBh2 (RForm.read w)⟩,
  ⟨0x000000FF#32, 0x0000005F#32, fun w => .fmaBh2 (RForm.read w)⟩,
  ⟨0x000000FF#32, 0x00000061#32, fun w => .dot2Bh (RForm.read w)⟩,
  ⟨0x000000FF#32, 0x00000063#32, fun w => .dot2H (RForm.read w)⟩,
  ⟨0x000000FF#32, 0x00000065#32, fun w => .scaleF32 (RForm.read w)⟩,
  ⟨0xFE0000FF#32, 0x88000067#32, fun w => .sincosF32 (UForm.read w)⟩,
  ⟨0x080000FF#32, 0x00000069#32, fun w => .dsdecDs8 (DsdecForm.read w)⟩,
  ⟨0x080000FF#32, 0x08000069#32, fun w => .dsdecDs4 (DsdecForm.read w)⟩,
  ⟨0x0E0000FF#32, 0x0000006B#32, fun w => .dsencDs8 (DsencForm.read w)⟩,
  ⟨0x0E0000FF#32, 0x0800006B#32, fun w => .dsencDs4 (DsencForm.read w)⟩]

/-- R66-R69: lane exchange, majors 0x40-0x46. -/
def rowsLane : List Row := [
  ⟨0x000000FF#32, 0x00000081#32, fun w => .lget (RForm.read w)⟩,
  ⟨0x000000FF#32, 0x00000083#32, fun w => .lgetX (RForm.read w)⟩,
  ⟨0x000000FF#32, 0x00000085#32, fun w => .lgetSub (RForm.read w)⟩,
  ⟨0x000000FF#32, 0x00000087#32, fun w => .lgetAdd (RForm.read w)⟩,
  ⟨0x000000FF#32, 0x00000089#32, fun w => .swp (RForm.read w)⟩,
  ⟨0xFFE1C0FF#32, 0x0000008B#32, fun w => .pollAny (fld w 18 3) (fld w 17 1) (fld w 11 3) (fld w 8 3)⟩,
  ⟨0xFFE1C0FF#32, 0x1000008B#32, fun w => .pollAll (fld w 18 3) (fld w 17 1) (fld w 11 3) (fld w 8 3)⟩,
  ⟨0xFFE000FF#32, 0x2000008B#32, fun w => .pollMask (fld w 18 3) (fld w 17 1) (fld w 11 6) (fld w 8 3)⟩,
  ⟨0xFFFDC0FF#32, 0x3000008B#32, fun w => .pollFirst (fld w 17 1) (fld w 11 3) (fld w 8 3)⟩,
  ⟨0xFE0000FF#32, 0x4000008B#32, fun w => .pollSame (UForm.read w)⟩,
  ⟨0xFFE000FF#32, 0x5000008B#32, fun w => .pollCount (fld w 18 3) (fld w 17 1) (fld w 11 6) (fld w 8 3)⟩,
  ⟨0x000000FF#32, 0x0000008D#32, fun w => .bcast (RForm.read w)⟩]

/-- R89-R108: memory, majors 0x48-0x59. -/
def rowsMem : List Row := [
  ⟨0x1E0000FF#32, 0x00000091#32, fun w => .ldW8 (LdForm.read w)⟩,
  ⟨0x1E0000FF#32, 0x00000093#32, fun w => .ldW16 (LdForm.read w)⟩,
  ⟨0x1E0000FF#32, 0x00000095#32, fun w => .ldW32 (LdForm.read w)⟩,
  ⟨0x1E0000FF#32, 0x00000097#32, fun w => .ldW64 (LdForm.read w)⟩,
  ⟨0x1E0000FF#32, 0x00000099#32, fun w => .ldW128 (LdForm.read w)⟩,
  ⟨0x1E0000FF#32, 0x0000009B#32, fun w => .ldX8 (LdForm.read w)⟩,
  ⟨0x1E0000FF#32, 0x0000009D#32, fun w => .ldX16 (LdForm.read w)⟩,
  ⟨0x00003FFF#32, 0x0000009F#32, fun w => .stW8 (StForm.read w)⟩,
  ⟨0x00003FFF#32, 0x000000A1#32, fun w => .stW16 (StForm.read w)⟩,
  ⟨0x00003FFF#32, 0x000000A3#32, fun w => .stW32 (StForm.read w)⟩,
  ⟨0x00003FFF#32, 0x000000A5#32, fun w => .stW64 (StForm.read w)⟩,
  ⟨0x00003FFF#32, 0x000000A7#32, fun w => .stW128 (StForm.read w)⟩,
  ⟨0xFE00C0FF#32, 0x000000A9#32, fun w => .ldsp (fld w 18 7) (fld w 16 2) (fld w 8 6)⟩,
  ⟨0x0000FFFF#32, 0x000000AB#32, fun w => .stsp (fld w 25 7) (fld w 18 7) (fld w 16 2)⟩,
  ⟨0x000000FF#32, 0x000000AD#32, fun w => .atomW32 (AtomForm.read w)⟩,
  ⟨0x000000FF#32, 0x000000AF#32, fun w => .atomW64 (AtomForm.read w)⟩,
  ⟨0x00003EFF#32, 0x000000B1#32, fun w => .red (RedForm.read w)⟩,
  ⟨0xF1FFF8FF#32, 0x011000B3#32, fun w => .fence (fld w 25 3) (fld w 8 3)⟩,
  ⟨0xF003F8FF#32, 0x100000B3#32, fun w => .acqSteal (fld w 25 3) (fld w 18 7) (fld w 8 3)⟩,
  ⟨0xFE0200FF#32, 0x200000B3#32, fun w => .pgreq (fld w 18 7) (fld w 11 6) (fld w 8 3)⟩,
  ⟨0xF003F8FF#32, 0x300000B3#32, fun w => .prefetch (fld w 25 3) (fld w 18 7) (fld w 8 3)⟩,
  ⟨0xF00200FF#32, 0x400000B3#32, fun w => .wbspan (fld w 25 3) (fld w 18 7) (fld w 11 6) (fld w 8 3)⟩,
  ⟨0xFE0200FF#32, 0x500000B3#32, fun w => .invspan (fld w 18 7) (fld w 11 6) (fld w 8 3)⟩]

/-- R109-R142: copies, queues and bags, majors 0x60-0x65. -/
def rowsQueue : List Row := [
  ⟨0x000000FF#32, 0x000000C1#32, fun w => .cp (CopyForm.read w)⟩,
  ⟨0x000000FF#32, 0x000000C3#32, fun w => .cpg (CopyForm.read w)⟩,
  ⟨0x00003FFF#32, 0x000000C5#32, fun w => .cpm (fld w 25 7) (fld w 18 7) (fld w 14 4)⟩,
  ⟨0xFFC000FF#32, 0x000000C7#32, fun w => .qpop (fld w 18 4) (fld w 17 1) (fld w 11 6) (fld w 8 3)⟩,
  ⟨0xFFC3F8FF#32, 0x100000C7#32, fun w => .qrel (fld w 18 4) (fld w 8 3)⟩,
  ⟨0xFFC000FF#32, 0x200000C7#32, fun w => .qstat (fld w 18 4) (fld w 17 1) (fld w 11 6) (fld w 8 3)⟩,
  ⟨0xFC0000FF#32, 0x300000C7#32, fun w => .cwait (CwaitForm.read w)⟩,
  ⟨0xFE0000FF#32, 0x400000C7#32, fun w => .ctest (CtestForm.read w)⟩,
  ⟨0xFFC3F8FF#32, 0x500000C7#32, fun w => .cclr (fld w 18 4) (fld w 8 3)⟩,
  ⟨0xFD83F8FF#32, 0x600000C7#32, fun w => .fset (fld w 25 1) (fld w 18 5) (fld w 8 3)⟩,
  ⟨0xFD83F8FF#32, 0x700000C7#32, fun w => .fwait (fld w 25 1) (fld w 18 5) (fld w 8 3)⟩,
  ⟨0xFFFC00FF#32, 0x811000C7#32, fun w => .qrv (fld w 17 1) (fld w 11 6) (fld w 8 3)⟩,
  ⟨0xFE0200FF#32, 0x900000C7#32, fun w => .qsv (fld w 18 7) (fld w 11 6) (fld w 8 3)⟩,
  ⟨0x000000FF#32, 0x000000C9#32, fun w => .bput (BputForm.read w)⟩,
  ⟨0xFFC000FF#32, 0x000000CB#32, fun w => .bcount (fld w 18 4) (fld w 17 1) (fld w 11 6) (fld w 8 3)⟩,
  ⟨0xFFC000FF#32, 0x100000CB#32, fun w => .bshare (fld w 18 4) (fld w 17 1) (fld w 11 6) (fld w 8 3)⟩,
  ⟨0xFFC000FF#32, 0x200000CB#32, fun w => .biter (fld w 18 4) (fld w 17 1) (fld w 11 6) (fld w 8 3)⟩,
  ⟨0xFE0000FF#32, 0x300000CB#32, fun w => .bnext (fld w 18 7) (fld w 17 1) (fld w 11 6) (fld w 8 3)⟩,
  ⟨0xFE0000FF#32, 0x400000CB#32, fun w => .bdrain (fld w 18 7) (fld w 17 1) (fld w 11 6) (fld w 8 3)⟩,
  ⟨0xFFC200FF#32, 0x500000CB#32, fun w => .bgrow (fld w 18 4) (fld w 11 6) (fld w 8 3)⟩]

/-- R266-R271: matrix, majors 0x68-0x6C. -/
def rowsMatrix : List Row := [
  ⟨0x000000FF#32, 0x000000D1#32, fun w => .mmx (MmxForm.read w)⟩,
  ⟨0xFFFC03FF#32, 0x000000D3#32, fun w => .mzero (fld w 14 4) (fld w 12 2) (fld w 10 2)⟩,
  ⟨0x01FC03FF#32, 0x000001D3#32, fun w => .mzeroBias (MtileForm.read w)⟩,
  ⟨0x01FC00FF#32, 0x000000D5#32, fun w => .mld (MldForm.read w)⟩,
  ⟨0x01FC03FF#32, 0x000000D7#32, fun w => .mst (MtileForm.read w)⟩,
  ⟨0x01FC33FF#32, 0x000000D9#32, fun w => .mscan (fld w 25 7) (fld w 14 4) (fld w 10 2)⟩]

/-- R174-R204: control flow, waits, effects, majors 0x70-0x76. -/
def rowsFlow : List Row := [
  ⟨0x000000FF#32, 0x000000E1#32, fun w => .bra (fld w 11 21) (fld w 8 3)⟩,
  ⟨0x000000FF#32, 0x000000E3#32, fun w => .call (fld w 11 21) (fld w 8 3)⟩,
  ⟨0xFE03F8FF#32, 0x000000E5#32, fun w => .jmpi (fld w 18 7) (fld w 8 3)⟩,
  ⟨0xFE03F8FF#32, 0x100000E5#32, fun w => .calli (fld w 18 7) (fld w 8 3)⟩,
  ⟨0xFFFFF8FF#32, 0x211000E5#32, fun w => .ret (fld w 8 3)⟩,
  ⟨0xFFFFF8FF#32, 0x311000E5#32, fun w => .exit (fld w 8 3)⟩,
  ⟨0xFFFFF8FF#32, 0x411000E5#32, fun w => .yield (fld w 8 3)⟩,
  ⟨0xFFFFF8FF#32, 0x511000E5#32, fun w => .nop (fld w 8 3)⟩,
  ⟨0xFE03F8FF#32, 0x600000E5#32, fun w => .trap (fld w 18 7) (fld w 8 3)⟩,
  ⟨0xFFFFF8FF#32, 0x711000E5#32, fun w => .brk (fld w 8 3)⟩,
  ⟨0xF1C000FF#32, 0x000000E7#32, fun w => .meetPost (fld w 25 3) (fld w 18 4) (fld w 17 1) (fld w 11 6) (fld w 8 3)⟩,
  ⟨0xF1C200FF#32, 0x100000E7#32, fun w => .meetAwait (fld w 25 3) (fld w 18 4) (fld w 11 6) (fld w 8 3)⟩,
  ⟨0xF1C3F8FF#32, 0x200000E7#32, fun w => .meetJoin (fld w 25 3) (fld w 18 4) (fld w 8 3)⟩,
  ⟨0x000000FF#32, 0x000000E9#32, fun w => .waitu (WaituForm.read w)⟩,
  ⟨0xFFC3F8FF#32, 0x000000EB#32, fun w => .wqenter (fld w 18 4) (fld w 8 3)⟩,
  ⟨0xFE0200FF#32, 0x100000EB#32, fun w => .wqwait (fld w 22 3) (fld w 18 4) (fld w 11 6) (fld w 8 3)⟩,
  ⟨0xFFC3F8FF#32, 0x200000EB#32, fun w => .wqleave (fld w 18 4) (fld w 8 3)⟩,
  ⟨0xF00000FF#32, 0x000000ED#32, fun w => .perform (PerformForm.read w)⟩,
  ⟨0xFC0000FF#32, 0x100000ED#32, fun w => .hpush (HpushForm.read w)⟩,
  ⟨0xFFFFF8FF#32, 0x211000ED#32, fun w => .hpop (fld w 8 3)⟩,
  ⟨0xFE0200FF#32, 0x300000ED#32, fun w => .resume (fld w 18 7) (fld w 11 6) (fld w 8 3)⟩,
  ⟨0xFE0200FF#32, 0x400000ED#32, fun w => .resumeM (fld w 18 7) (fld w 11 6) (fld w 8 3)⟩,
  ⟨0xFFFE00FF#32, 0x511000ED#32, fun w => .abandon (fld w 11 6) (fld w 8 3)⟩]

/-- R219, R273, R279: ADE, Delf and collective, majors 0x78-0x7A. -/
def rowsEngine : List Row := [
  ⟨0x00003CFF#32, 0x000000F1#32, fun w => .ade (fld w 25 7) (fld w 18 7) (fld w 14 4) (fld w 8 2)⟩,
  ⟨0xFFC3F8FF#32, 0x000000F3#32, fun w => .dload (fld w 18 4) (fld w 8 3)⟩,
  ⟨0xFFC3F8FF#32, 0x100000F3#32, fun w => .drun (fld w 18 4) (fld w 8 3)⟩,
  ⟨0x000020FF#32, 0x000000F5#32, fun w => .coll (CollForm.read w)⟩]

/-- R209: the ctl group, major 0x7C. -/
def rowsCtl : List Row := [
  ⟨0xFE03F8FF#32, 0x000000F9#32, fun w => .qsend (fld w 18 7) (fld w 8 3)⟩,
  ⟨0xFFFE00FF#32, 0x031000F9#32, fun w => .qrecv (fld w 11 6) (fld w 8 3)⟩,
  ⟨0xFF83F8FF#32, 0x040000F9#32, fun w => .ctFset (fld w 18 5) (fld w 8 3)⟩,
  ⟨0xFF83F8FF#32, 0x060000F9#32, fun w => .fclr (fld w 18 5) (fld w 8 3)⟩,
  ⟨0xFF83F0FF#32, 0x080000F9#32, fun w => .ctFwait (fld w 18 5) (fld w 11 1) (fld w 8 3)⟩,
  ⟨0xFE0380FF#32, 0x0A0000F9#32, fun w => .gset (fld w 18 7) (fld w 11 4) (fld w 8 3)⟩,
  ⟨0xFFFF80FF#32, 0x0D1000F9#32, fun w => .gclr (fld w 11 4) (fld w 8 3)⟩,
  ⟨0xFFFF80FF#32, 0x0F1000F9#32, fun w => .grd (fld w 11 4) (fld w 8 3)⟩,
  ⟨0xFE0200FF#32, 0x100000F9#32, fun w => .launch (fld w 18 7) (fld w 11 6) (fld w 8 3)⟩,
  ⟨0xFE0200FF#32, 0x120000F9#32, fun w => .tdset (fld w 18 7) (fld w 11 6) (fld w 8 3)⟩,
  ⟨0xFFC200FF#32, 0x140000F9#32, fun w => .qinit (fld w 18 4) (fld w 11 6) (fld w 8 3)⟩,
  ⟨0xFE0200FF#32, 0x160000F9#32, fun w => .meetinit (fld w 22 3) (fld w 18 4) (fld w 11 6) (fld w 8 3)⟩,
  ⟨0xFFFE00FF#32, 0x191000F9#32, fun w => .ctRdtick (fld w 11 6) (fld w 8 3)⟩,
  ⟨0xFFE200FF#32, 0x1A0000F9#32, fun w => .ctRdid (fld w 18 3) (fld w 11 6) (fld w 8 3)⟩,
  ⟨0xFE0200FF#32, 0x1C0000F9#32, fun w => .bmake (fld w 18 7) (fld w 11 6) (fld w 8 3)⟩,
  ⟨0xFE0200FF#32, 0x1E0000F9#32, fun w => .bseal (fld w 18 7) (fld w 11 6) (fld w 8 3)⟩,
  ⟨0xFE0200FF#32, 0x200000F9#32, fun w => .bfree (fld w 18 7) (fld w 11 6) (fld w 8 3)⟩]

/-- R334: the sys group, major 0x7D. -/
def rowsSys : List Row := [
  ⟨0xF00200FF#32, 0x000000FB#32, fun w => .tret (fld w 25 3) (fld w 18 7) (fld w 11 6) (fld w 8 3)⟩,
  ⟨0xFFFE00FF#32, 0x111000FB#32, fun w => .cxsave (fld w 11 6) (fld w 8 3)⟩,
  ⟨0xFE0200FF#32, 0x200000FB#32, fun w => .cxload (fld w 18 7) (fld w 11 6) (fld w 8 3)⟩,
  ⟨0xFFFE00FF#32, 0x311000FB#32, fun w => .genset (fld w 11 6) (fld w 8 3)⟩,
  ⟨0xFE0200FF#32, 0x400000FB#32, fun w => .xinv (fld w 18 7) (fld w 11 6) (fld w 8 3)⟩,
  ⟨0xFE0200FF#32, 0x500000FB#32, fun w => .rdsr (fld w 18 7) (fld w 11 6) (fld w 8 3)⟩,
  ⟨0xFC0200FF#32, 0x600000FB#32, fun w => .wrsr (fld w 25 1) (fld w 18 7) (fld w 11 6) (fld w 8 3)⟩,
  ⟨0xFE0200FF#32, 0x700000FB#32, fun w => .tickstop (fld w 18 7) (fld w 11 6) (fld w 8 3)⟩,
  ⟨0xF00200FF#32, 0x800000FB#32, fun w => .dgrd (fld w 25 3) (fld w 18 7) (fld w 11 6) (fld w 8 3)⟩,
  ⟨0xFFFFF8FF#32, 0x911000FB#32, fun w => .halt (fld w 8 3)⟩]

/-- Every 32-bit row of the opcode table. -/
def rows32 : List Row :=
  rowsInt ++ rowsFloat ++ rowsLane ++ rowsMem ++ rowsQueue ++ rowsMatrix ++ rowsFlow ++ rowsEngine ++ rowsCtl ++ rowsSys

/-- The majors whose rows carry a minor, aux or sub-operation (R50, R52); their unmatched words fail step 6 or 7. -/
def majorGroup (m : BitVec 7) : Bool :=
  [0x18, 0x1C, 0x28, 0x29, 0x34, 0x35, 0x45, 0x59, 0x63, 0x65, 0x72, 0x73, 0x75, 0x76, 0x79, 0x7C, 0x7D].contains
    m.toNat

/-- The majors of R49 that are assigned to no instruction. -/
def majorUnassigned (m : BitVec 7) : Bool :=
  let n := m.toNat
  (0x36 ≤ n && n ≤ 0x3F) || n == 0x47 || (0x5A ≤ n && n ≤ 0x5F) || n == 0x66 || n == 0x67 ||
    (0x6D ≤ n && n ≤ 0x6F) || n == 0x77 || n == 0x7B || n == 0x7E || n == 0x7F

/-- The members (minors, or ctl sub-operations as 7 bits) a group assigns (R50-R52). -/
def memberAssigned (w : Word) : Bool :=
  let minor := (fld w 28 4).toNat
  match (fld w 1 7).toNat with
  | 0x18 => true
  | 0x1C => minor ≤ 5
  | 0x28 => true
  | 0x29 => minor ≤ 12
  | 0x34 => true
  | 0x35 => true
  | 0x45 => minor ≤ 5
  | 0x59 => minor ≤ 5
  | 0x63 => minor ≤ 9
  | 0x65 => minor ≤ 5
  | 0x72 => minor ≤ 7
  | 0x73 => minor ≤ 2
  | 0x75 => minor ≤ 2
  | 0x76 => minor ≤ 5
  | 0x79 => minor ≤ 1
  | 0x7C => (fld w 25 7).toNat ≤ 0x10
  | 0x7D => minor ≤ 9
  | _ => true

/-- Decode a 32-bit word (bit 0 set): R53 steps 3, 4, 6 and 7. -/
def decode32 (w : Word) : Except Reject Instr :=
  if w = 0xFFFFFFFF#32 then .error .allOnes
  else
    match rows32.find? (·.hits w) with
    | some r => .ok (r.make w)
    | none =>
      if majorUnassigned (fld w 1 7) then .error .unassignedMajor
      else if memberAssigned w then .error .reservedField
      else .error .unassignedMinor

/-- Decode a 16-bit form (bit 0 clear): R37, R38 and step 2 of R53. -/
def decode16 (h : Half) : Except Reject Instr :=
  if h = 0#16 then .error .zeroWord
  else
    match rows16.find? (·.hits (h.setWidth 32)) with
    | some r => .ok (r.make (h.setWidth 32))
    | none => .error .reservedField

/-- A halfword from its two bytes, little-endian (R34). -/
def halfOf (b0 b1 : Byte) : Half := b1 ++ b0

/-- Decode the instruction at the head of a list of bytes and return the bytes after it (R34). Total: a list that
holds no instruction is rejected by name. -/
def decode : List Byte → Except Reject (Instr × List Byte)
  | b0 :: b1 :: rest =>
    if b0.getLsbD 0 then
      match rest with
      | b2 :: b3 :: rest' =>
        match decode32 (halfOf b2 b3 ++ halfOf b0 b1) with
        | .ok i => .ok (i, rest')
        | .error e => .error e
      | _ => .error .truncated
    else
      match decode16 (halfOf b0 b1) with
      | .ok i => .ok (i, rest)
      | .error e => .error e
  | _ => .error .truncated

/-- The four bytes of a word, lowest address first (R34). -/
def wordBytes (w : Word) : List Byte := [fld w 0 8, fld w 8 8, fld w 16 8, fld w 24 8]

/-- What the decoder reads from an instruction whose bits are `w`, bit 0 the least significant bit of the first
halfword; bits above `nbits` are 0. -/
def decodeTableWord (nbits w : Nat) : Option Instr :=
  match decode (wordBytes (BitVec.ofNat 32 (w % 2 ^ nbits))) with
  | .ok (i, _) => some i
  | .error _ => none

/-- An encoded instruction: 16 or 32 bits (R34). -/
inductive Code where
  /-- A 16-bit form. -/
  | half (h : Half)
  /-- A 32-bit instruction. -/
  | word (w : Word)
  deriving DecidableEq, Repr, Inhabited

/-- The bytes of an encoded instruction, little-endian (R34). -/
def Code.bytes : Code → List Byte
  | .half h => [h.extractLsb' 0 8, h.extractLsb' 8 8]
  | .word w => wordBytes w

/-- A 16-bit form: its fixed bits and its fields (R37). -/
def enc16 (pattern bits : Word) : Option Code := some (.half ((pattern ||| bits).setWidth 16))

/-- A 32-bit instruction: its fixed bits and its fields (R40). -/
def enc32 (pattern bits : Word) : Option Code := some (.word (pattern ||| bits))

/-- The encoding of an instruction; an event has none, and `mov v0, v0` of 16 bits would be the zero halfword, which is no instruction (R53
step 2). -/
def encode : Instr → Option Code
  | .mov16 f => if f.b = 0 ∧ f.d = 0 then none else enc16 0x00000000#32 f.bits
  | .addI3216 f => enc16 0x00000002#32 f.bits
  | .subI3216 f => enc16 0x00000004#32 f.bits
  | .mulI3216 f => enc16 0x00000006#32 f.bits
  | .and16 f => enc16 0x00000008#32 f.bits
  | .or16 f => enc16 0x0000000A#32 f.bits
  | .xor16 f => enc16 0x0000000C#32 f.bits
  | .shl16 f => enc16 0x0000000E#32 f.bits
  | .shrN3216 f => enc16 0x00000010#32 f.bits
  | .shrI3216 f => enc16 0x00000012#32 f.bits
  | .addF3216 f => enc16 0x00000014#32 f.bits
  | .subF3216 f => enc16 0x00000016#32 f.bits
  | .mulF3216 f => enc16 0x00000018#32 f.bits
  | .minF3216 f => enc16 0x0000001A#32 f.bits
  | .maxF3216 f => enc16 0x0000001C#32 f.bits
  | .addi16 i d => enc16 0x0000001E#32 (put 11 i ||| put 5 d)
  | .addI32 f => enc32 0x00000001#32 f.bits
  | .subI32 f => enc32 0x00000003#32 f.bits
  | .mulI32 f => enc32 0x00000005#32 f.bits
  | .mulhiI32 f => enc32 0x00000007#32 f.bits
  | .mulhiN32 f => enc32 0x00000009#32 f.bits
  | .madI32 f => enc32 0x0000000B#32 f.bits
  | .minI32 f => enc32 0x0000000D#32 f.bits
  | .maxI32 f => enc32 0x0000000F#32 f.bits
  | .minN32 f => enc32 0x00000011#32 f.bits
  | .maxN32 f => enc32 0x00000013#32 f.bits
  | .and f => enc32 0x00000015#32 f.bits
  | .or f => enc32 0x00000017#32 f.bits
  | .xor f => enc32 0x00000019#32 f.bits
  | .andn f => enc32 0x0000001B#32 f.bits
  | .shl f => enc32 0x0000001D#32 f.bits
  | .shrN32 f => enc32 0x0000001F#32 f.bits
  | .shrI32 f => enc32 0x00000021#32 f.bits
  | .rotl f => enc32 0x00000023#32 f.bits
  | .add64 f => enc32 0x00000025#32 f.bits
  | .sub64 f => enc32 0x00000027#32 f.bits
  | .mad64 f => enc32 0x00000029#32 f.bits
  | .sel f => enc32 0x0000002B#32 f.bits
  | .cmpI32 f => enc32 0x0000002D#32 f.bits
  | .cmpN32 f => enc32 0x0000002F#32 f.bits
  | .mov f => enc32 0x00000031#32 f.bits
  | .not f => enc32 0x10000031#32 f.bits
  | .neg f => enc32 0x20000031#32 f.bits
  | .abs f => enc32 0x30000031#32 f.bits
  | .popc f => enc32 0x40000031#32 f.bits
  | .clz f => enc32 0x50000031#32 f.bits
  | .ctz f => enc32 0x60000031#32 f.bits
  | .brev f => enc32 0x70000031#32 f.bits
  | .sextW8 f => enc32 0x80000031#32 f.bits
  | .sextW16 f => enc32 0x90000031#32 f.bits
  | .zextW8 f => enc32 0xA0000031#32 f.bits
  | .zextW16 f => enc32 0xB0000031#32 f.bits
  | .pget nw d g => enc32 0xC1100031#32 (put 17 nw ||| put 11 d ||| put 8 g)
  | .pset a g => enc32 0xD0000031#32 (put 18 a ||| put 8 g)
  | .rdtick nw d g => enc32 0xE1100031#32 (put 17 nw ||| put 11 d ||| put 8 g)
  | .rdtickHi nw d g => enc32 0xE3100031#32 (put 17 nw ||| put 11 d ||| put 8 g)
  | .rdid which nw d g => enc32 0xF1100031#32 (put 25 which ||| put 17 nw ||| put 11 d ||| put 8 g)
  | .bfeI32 f => enc32 0x00000033#32 f.bits
  | .bfeN32 f => enc32 0x00000035#32 f.bits
  | .bfi f => enc32 0x00000037#32 f.bits
  | .pand f => enc32 0x00000039#32 f.bits
  | .por f => enc32 0x10000039#32 f.bits
  | .pxor f => enc32 0x20000039#32 f.bits
  | .pandn f => enc32 0x30000039#32 f.bits
  | .pnot f => enc32 0x40000039#32 f.bits
  | .pmov f => enc32 0x50000039#32 f.bits
  | .addi i a d => enc32 0x0000003B#32 (put 21 i ||| put 14 a ||| put 8 d)
  | .andi i a d => enc32 0x0000003D#32 (put 21 i ||| put 14 a ||| put 8 d)
  | .ldi i d => enc32 0x0000003F#32 (put 16 i ||| put 8 d)
  | .ldiHi i d => enc32 0x0000803F#32 (put 16 i ||| put 8 d)
  | .addF32 f => enc32 0x00000041#32 f.bits
  | .subF32 f => enc32 0x00000043#32 f.bits
  | .mulF32 f => enc32 0x00000045#32 f.bits
  | .fmaF32 f => enc32 0x00000047#32 f.bits
  | .minF32 f => enc32 0x00000049#32 f.bits
  | .maxF32 f => enc32 0x0000004B#32 f.bits
  | .divF32 f => enc32 0x0000004D#32 f.bits
  | .cmpF32 f => enc32 0x0000004F#32 f.bits
  | .negF32 f => enc32 0x00000051#32 f.bits
  | .absF32 f => enc32 0x10000051#32 f.bits
  | .rintNeF32 f => enc32 0x20000051#32 f.bits
  | .rintZF32 f => enc32 0x30000051#32 f.bits
  | .rintUpF32 f => enc32 0x40000051#32 f.bits
  | .rintDnF32 f => enc32 0x50000051#32 f.bits
  | .rcpF32 f => enc32 0x60000051#32 f.bits
  | .rsqrtF32 f => enc32 0x70000051#32 f.bits
  | .sqrtF32 f => enc32 0x80000051#32 f.bits
  | .exp2F32 f => enc32 0x90000051#32 f.bits
  | .log2F32 f => enc32 0xA0000051#32 f.bits
  | .sinF32 f => enc32 0xB0000051#32 f.bits
  | .cosF32 f => enc32 0xC0000051#32 f.bits
  | .sinpiF32 f => enc32 0xD0000051#32 f.bits
  | .cospiF32 f => enc32 0xE0000051#32 f.bits
  | .fclassF32 f => enc32 0xF0000051#32 f.bits
  | .cvtF16F32 f => enc32 0x00000053#32 f.bits
  | .cvtBf16F32 f => enc32 0x10000053#32 f.bits
  | .cvtF32F16 f => enc32 0x20000053#32 f.bits
  | .cvtF32Bf16 f => enc32 0x30000053#32 f.bits
  | .cvtI32F32 f => enc32 0x40000053#32 f.bits
  | .cvtN32F32 f => enc32 0x50000053#32 f.bits
  | .cvtF32I32 f => enc32 0x60000053#32 f.bits
  | .cvtF32N32 f => enc32 0x70000053#32 f.bits
  | .cvtI8F32 f => enc32 0x80000053#32 f.bits
  | .cvtF32I8 f => enc32 0x90000053#32 f.bits
  | .cvtI8I32 f => enc32 0xA0000053#32 f.bits
  | .cvtBf16F16 f => enc32 0xB0000053#32 f.bits
  | .cvtF16Bf16 f => enc32 0xC0000053#32 f.bits
  | .addH2 f => enc32 0x00000055#32 f.bits
  | .mulH2 f => enc32 0x00000057#32 f.bits
  | .fmaH2 f => enc32 0x00000059#32 f.bits
  | .addBh2 f => enc32 0x0000005B#32 f.bits
  | .mulBh2 f => enc32 0x0000005D#32 f.bits
  | .fmaBh2 f => enc32 0x0000005F#32 f.bits
  | .dot2Bh f => enc32 0x00000061#32 f.bits
  | .dot2H f => enc32 0x00000063#32 f.bits
  | .scaleF32 f => enc32 0x00000065#32 f.bits
  | .sincosF32 f => enc32 0x88000067#32 f.bits
  | .dsdecDs8 f => enc32 0x00000069#32 f.bits
  | .dsdecDs4 f => enc32 0x08000069#32 f.bits
  | .dsencDs8 f => enc32 0x0000006B#32 f.bits
  | .dsencDs4 f => enc32 0x0800006B#32 f.bits
  | .lget f => enc32 0x00000081#32 f.bits
  | .lgetX f => enc32 0x00000083#32 f.bits
  | .lgetSub f => enc32 0x00000085#32 f.bits
  | .lgetAdd f => enc32 0x00000087#32 f.bits
  | .swp f => enc32 0x00000089#32 f.bits
  | .pollAny q nw p g => enc32 0x0000008B#32 (put 18 q ||| put 17 nw ||| put 11 p ||| put 8 g)
  | .pollAll q nw p g => enc32 0x1000008B#32 (put 18 q ||| put 17 nw ||| put 11 p ||| put 8 g)
  | .pollMask q nw d g => enc32 0x2000008B#32 (put 18 q ||| put 17 nw ||| put 11 d ||| put 8 g)
  | .pollFirst nw p g => enc32 0x3000008B#32 (put 17 nw ||| put 11 p ||| put 8 g)
  | .pollSame f => enc32 0x4000008B#32 f.bits
  | .pollCount q nw d g => enc32 0x5000008B#32 (put 18 q ||| put 17 nw ||| put 11 d ||| put 8 g)
  | .bcast f => enc32 0x0000008D#32 f.bits
  | .ldW8 f => enc32 0x00000091#32 f.bits
  | .ldW16 f => enc32 0x00000093#32 f.bits
  | .ldW32 f => enc32 0x00000095#32 f.bits
  | .ldW64 f => enc32 0x00000097#32 f.bits
  | .ldW128 f => enc32 0x00000099#32 f.bits
  | .ldX8 f => enc32 0x0000009B#32 f.bits
  | .ldX16 f => enc32 0x0000009D#32 f.bits
  | .stW8 f => enc32 0x0000009F#32 f.bits
  | .stW16 f => enc32 0x000000A1#32 f.bits
  | .stW32 f => enc32 0x000000A3#32 f.bits
  | .stW64 f => enc32 0x000000A5#32 f.bits
  | .stW128 f => enc32 0x000000A7#32 f.bits
  | .ldsp a width d => enc32 0x000000A9#32 (put 18 a ||| put 16 width ||| put 8 d)
  | .stsp data a width => enc32 0x000000AB#32 (put 25 data ||| put 18 a ||| put 16 width)
  | .atomW32 f => enc32 0x000000AD#32 f.bits
  | .atomW64 f => enc32 0x000000AF#32 f.bits
  | .red f => enc32 0x000000B1#32 f.bits
  | .fence sc g => enc32 0x011000B3#32 (put 25 sc ||| put 8 g)
  | .acqSteal sc a g => enc32 0x100000B3#32 (put 25 sc ||| put 18 a ||| put 8 g)
  | .pgreq k j g => enc32 0x200000B3#32 (put 18 k ||| put 11 j ||| put 8 g)
  | .prefetch lvl k g => enc32 0x300000B3#32 (put 25 lvl ||| put 18 k ||| put 8 g)
  | .wbspan mode k d g => enc32 0x400000B3#32 (put 25 mode ||| put 18 k ||| put 11 d ||| put 8 g)
  | .invspan k d g => enc32 0x500000B3#32 (put 18 k ||| put 11 d ||| put 8 g)
  | .cp f => enc32 0x000000C1#32 f.bits
  | .cpg f => enc32 0x000000C3#32 f.bits
  | .cpm d sc i => enc32 0x000000C5#32 (put 25 d ||| put 18 sc ||| put 14 i)
  | .qpop q nw d g => enc32 0x000000C7#32 (put 18 q ||| put 17 nw ||| put 11 d ||| put 8 g)
  | .qrel q g => enc32 0x100000C7#32 (put 18 q ||| put 8 g)
  | .qstat q nw d g => enc32 0x200000C7#32 (put 18 q ||| put 17 nw ||| put 11 d ||| put 8 g)
  | .cwait f => enc32 0x300000C7#32 f.bits
  | .ctest f => enc32 0x400000C7#32 f.bits
  | .cclr cb g => enc32 0x500000C7#32 (put 18 cb ||| put 8 g)
  | .fset z fl g => enc32 0x600000C7#32 (put 25 z ||| put 18 fl ||| put 8 g)
  | .fwait z fl g => enc32 0x700000C7#32 (put 25 z ||| put 18 fl ||| put 8 g)
  | .qrv nw d g => enc32 0x811000C7#32 (put 17 nw ||| put 11 d ||| put 8 g)
  | .qsv a d g => enc32 0x900000C7#32 (put 18 a ||| put 11 d ||| put 8 g)
  | .bput f => enc32 0x000000C9#32 f.bits
  | .bcount h nw d g => enc32 0x000000CB#32 (put 18 h ||| put 17 nw ||| put 11 d ||| put 8 g)
  | .bshare h nw d g => enc32 0x100000CB#32 (put 18 h ||| put 17 nw ||| put 11 d ||| put 8 g)
  | .biter h nw d g => enc32 0x200000CB#32 (put 18 h ||| put 17 nw ||| put 11 d ||| put 8 g)
  | .bnext k nw d g => enc32 0x300000CB#32 (put 18 k ||| put 17 nw ||| put 11 d ||| put 8 g)
  | .bdrain k nw d g => enc32 0x400000CB#32 (put 18 k ||| put 17 nw ||| put 11 d ||| put 8 g)
  | .bgrow h d g => enc32 0x500000CB#32 (put 18 h ||| put 11 d ||| put 8 g)
  | .mmx f => enc32 0x000000D1#32 f.bits
  | .mzero cb tile ms => enc32 0x000000D3#32 (put 14 cb ||| put 12 tile ||| put 10 ms)
  | .mzeroBias f => enc32 0x000001D3#32 f.bits
  | .mld f => enc32 0x000000D5#32 f.bits
  | .mst f => enc32 0x000000D7#32 f.bits
  | .mscan a cb ms => enc32 0x000000D9#32 (put 25 a ||| put 14 cb ||| put 10 ms)
  | .bra off g => enc32 0x000000E1#32 (put 11 off ||| put 8 g)
  | .call off g => enc32 0x000000E3#32 (put 11 off ||| put 8 g)
  | .jmpi k g => enc32 0x000000E5#32 (put 18 k ||| put 8 g)
  | .calli k g => enc32 0x100000E5#32 (put 18 k ||| put 8 g)
  | .ret g => enc32 0x211000E5#32 (put 8 g)
  | .exit g => enc32 0x311000E5#32 (put 8 g)
  | .yield g => enc32 0x411000E5#32 (put 8 g)
  | .nop g => enc32 0x511000E5#32 (put 8 g)
  | .trap a g => enc32 0x600000E5#32 (put 18 a ||| put 8 g)
  | .brk g => enc32 0x711000E5#32 (put 8 g)
  | .meetPost sc i nw d g => enc32 0x000000E7#32 (put 25 sc ||| put 18 i ||| put 17 nw ||| put 11 d ||| put 8 g)
  | .meetAwait sc i k g => enc32 0x100000E7#32 (put 25 sc ||| put 18 i ||| put 11 k ||| put 8 g)
  | .meetJoin sc i g => enc32 0x200000E7#32 (put 25 sc ||| put 18 i ||| put 8 g)
  | .waitu f => enc32 0x000000E9#32 f.bits
  | .wqenter h g => enc32 0x000000EB#32 (put 18 h ||| put 8 g)
  | .wqwait k h d g => enc32 0x100000EB#32 (put 22 k ||| put 18 h ||| put 11 d ||| put 8 g)
  | .wqleave h g => enc32 0x200000EB#32 (put 18 h ||| put 8 g)
  | .perform f => enc32 0x000000ED#32 f.bits
  | .hpush f => enc32 0x100000ED#32 f.bits
  | .hpop g => enc32 0x211000ED#32 (put 8 g)
  | .resume a k g => enc32 0x300000ED#32 (put 18 a ||| put 11 k ||| put 8 g)
  | .resumeM a k g => enc32 0x400000ED#32 (put 18 a ||| put 11 k ||| put 8 g)
  | .abandon k g => enc32 0x511000ED#32 (put 11 k ||| put 8 g)
  | .ade a b cb mode => enc32 0x000000F1#32 (put 25 a ||| put 18 b ||| put 14 cb ||| put 8 mode)
  | .dload cb g => enc32 0x000000F3#32 (put 18 cb ||| put 8 g)
  | .drun cb g => enc32 0x100000F3#32 (put 18 cb ||| put 8 g)
  | .coll f => enc32 0x000000F5#32 f.bits
  | .qsend a g => enc32 0x000000F9#32 (put 18 a ||| put 8 g)
  | .qrecv d g => enc32 0x031000F9#32 (put 11 d ||| put 8 g)
  | .ctFset k g => enc32 0x040000F9#32 (put 18 k ||| put 8 g)
  | .fclr k g => enc32 0x060000F9#32 (put 18 k ||| put 8 g)
  | .ctFwait k z g => enc32 0x080000F9#32 (put 18 k ||| put 11 z ||| put 8 g)
  | .gset a k g => enc32 0x0A0000F9#32 (put 18 a ||| put 11 k ||| put 8 g)
  | .gclr k g => enc32 0x0D1000F9#32 (put 11 k ||| put 8 g)
  | .grd k g => enc32 0x0F1000F9#32 (put 11 k ||| put 8 g)
  | .launch a d g => enc32 0x100000F9#32 (put 18 a ||| put 11 d ||| put 8 g)
  | .tdset k d g => enc32 0x120000F9#32 (put 18 k ||| put 11 d ||| put 8 g)
  | .qinit q d g => enc32 0x140000F9#32 (put 18 q ||| put 11 d ||| put 8 g)
  | .meetinit sc i d g => enc32 0x160000F9#32 (put 22 sc ||| put 18 i ||| put 11 d ||| put 8 g)
  | .ctRdtick d g => enc32 0x191000F9#32 (put 11 d ||| put 8 g)
  | .ctRdid which d g => enc32 0x1A0000F9#32 (put 18 which ||| put 11 d ||| put 8 g)
  | .bmake a d g => enc32 0x1C0000F9#32 (put 18 a ||| put 11 d ||| put 8 g)
  | .bseal a d g => enc32 0x1E0000F9#32 (put 18 a ||| put 11 d ||| put 8 g)
  | .bfree a d g => enc32 0x200000F9#32 (put 18 a ||| put 11 d ||| put 8 g)
  | .tret k a d g => enc32 0x000000FB#32 (put 25 k ||| put 18 a ||| put 11 d ||| put 8 g)
  | .cxsave d g => enc32 0x111000FB#32 (put 11 d ||| put 8 g)
  | .cxload a d g => enc32 0x200000FB#32 (put 18 a ||| put 11 d ||| put 8 g)
  | .genset d g => enc32 0x311000FB#32 (put 11 d ||| put 8 g)
  | .xinv a d g => enc32 0x400000FB#32 (put 18 a ||| put 11 d ||| put 8 g)
  | .rdsr a d g => enc32 0x500000FB#32 (put 18 a ||| put 11 d ||| put 8 g)
  | .wrsr h a nw g => enc32 0x600000FB#32 (put 25 h ||| put 18 a ||| put 11 nw ||| put 8 g)
  | .tickstop a d g => enc32 0x700000FB#32 (put 18 a ||| put 11 d ||| put 8 g)
  | .dgrd k a d g => enc32 0x800000FB#32 (put 25 k ||| put 18 a ||| put 11 d ||| put 8 g)
  | .halt g => enc32 0x911000FB#32 (put 8 g)
  | .formWarp _ => none
  | .entryAged _ _ _ => none
  | .storeLeaveQueue _ _ => none
  | .homeWrite _ => none
  | .homeRead _ => none
  | .loadReply _ _ => none
  | .atomicAtHome _ => none
  | .atomicReply _ => none
  | .staleRejectRetry _ => none
  | .heldEntryResend _ _ => none
  | .errorReply _ => none
  | .waitArrive _ => none
  | .fallbackSweep _ _ => none
  | .waitDeadline _ => none
  | .waitCancel _ => none
  | .waitReply _ => none
  | .evictedWake _ => none
  | .stealPromotion _ => none
  | .stealAck _ => none
  | .barrierArrival _ => none
  | .staithePut _ => none
  | .staitheDrain _ => none
  | .staitheSnapshot _ => none
  | .staitheNext _ => none
  | .staitheCount _ => none
  | .staitheGrow _ => none
  | .staitheMake _ => none
  | .staitheSeal _ => none
  | .staitheFree _ => none
  | .lengthsmanEnter _ => none
  | .lengthsmanWait _ => none
  | .lengthsmanLeave _ => none
  | .bagReply _ => none
  | .copyAccept _ => none
  | .copyStart _ => none
  | .copyComplete _ _ => none
  | .guardResolve _ => none
  | .matrixAccept _ => none
  | .reservationAging _ _ => none
  | .groupForm _ _ => none
  | .matrixGrant _ => none
  | .matrixComplete _ _ => none
  | .adeAccept _ => none
  | .adeStart _ => none
  | .adeComplete _ => none
  | .dloadApply _ => none
  | .drunStart _ => none
  | .delfOperation _ => none
  | .drunComplete _ => none
  | .channelSelfRefresh _ => none
  | .collStart _ => none
  | .collComplete _ => none
  | .collWatchdog _ => none
  | .haltStatus _ => none
  | .placeLaunch _ => none
  | .launchComplete _ _ => none
  | .runaway _ _ => none
  | .switchRequest _ => none
  | .evictWorkgroup _ _ => none
  | .logicalCoreSwitch _ => none
  | .ctTakeEvent _ => none
  | .startRequest _ _ => none
  | .removeContext _ _ => none
  | .removalStep _ => none
  | .removalStall _ => none
  | .wayQuarantine _ _ _ => none
  | .warmReset _ => none
  | .resetStep _ => none
  | .switchoutTimeout _ _ => none
  | .packageFatal _ => none
  | .tickstopFire => none
  | .counterUpdate => none
  | .linkRetrain _ => none
  | .linkWatchdog _ => none
  | .peerAccess _ => none
  | .putWindowWrite _ _ _ => none
  | .memoryWindowAccess _ => none
  | .interruptPageStore _ => none
  | .unboundVfRequest _ => none
  | .registerPageWrite _ _ => none
  | .errorInjectRequest _ => none
  | .errorInjectFire _ => none
  | .boot => none
  | .attestation _ => none
  | .createContext _ => none
  | .assignCore _ _ => none
  | .tableWrite _ _ => none
  | .bindVf _ _ => none
  | .debugResume _ => none
  | .powerSample => none
  | .droop _ => none
  | .retainEntry _ => none
  | .stallSample _ => none
  | .unassignedEncoding _ => none
  | .scrub _ _ => none
  | .failedFlit _ => none
  | .writeAcknowledgement _ _ => none
  | .remapWrite _ _ _ => none
  | .sequencerAssign _ _ => none
  | .channelSelfRefreshExit _ => none
  | .powerCapSet _ => none
  | .putSlotBind _ _ _ => none

end Sys2Proof
end

