-- ==== Sys2Proof/Machine/Sparse.lean ====
section
/-! DEFINITION. Sparse maps with natural-number keys in one canonical form: keys strictly rising, no entry equal to
what an unlisted key reads as. Memory and every bank of state is one of these. -/

namespace Sys2Proof.Machine

/-- A sparse map: keys strictly rising, no entry equal to the default. -/
abbrev SMap (α : Type) := List (Nat × α)

/-- The value at a key; `dflt` where the key is not listed. -/
def SMap.get {α : Type} (dflt : α) (k : Nat) : SMap α → α
  | [] => dflt
  | (k', v) :: m => if k' = k then v else SMap.get dflt k m

/-- The map without a key. -/
def SMap.erase {α : Type} (k : Nat) : SMap α → SMap α
  | [] => []
  | (k', v) :: m => if k' = k then SMap.erase k m else (k', v) :: SMap.erase k m

/-- Insert or replace a key in key order. -/
def SMap.insert {α : Type} (k : Nat) (v : α) : SMap α → SMap α
  | [] => [(k, v)]
  | (k', v') :: m =>
    if k < k' then (k, v) :: (k', v') :: m
    else if k = k' then (k, v) :: m
    else (k', v') :: SMap.insert k v m

/-- Write a key, keeping the canonical form: writing the default removes the entry. -/
def SMap.set {α : Type} [DecidableEq α] (dflt : α) (k : Nat) (v : α) (m : SMap α) : SMap α :=
  if v = dflt then SMap.erase k m else SMap.insert k v m

/-- Every key of the map is above a bound and keys rise strictly. -/
def SMap.risingFrom {α : Type} (lo : Nat) : SMap α → Bool
  | [] => true
  | (k, _) :: m => decide (lo ≤ k) && SMap.risingFrom (k + 1) m

/-- The canonical form: keys strictly rising and no entry equal to the default. -/
def SMap.wf {α : Type} [DecidableEq α] (dflt : α) (m : SMap α) : Bool :=
  SMap.risingFrom 0 m && m.all (fun kv => decide (kv.2 ≠ dflt))

/-- Memory: one byte per physical address that does not read as the unlisted byte. -/
abbrev Memory := List Host.Cell

/-- What an unlisted byte of memory reads as. DESIGN CHOICE (assumption 2): the spec gives no power-on contents. -/
def Memory.unlisted : Byte := 0

/-- The byte at a physical address. -/
def Memory.read (m : Memory) (a : Nat) : Byte := SMap.get Memory.unlisted a m

/-- Write a byte at a physical address. -/
def Memory.write (m : Memory) (a : Nat) (b : Byte) : Memory := SMap.set Memory.unlisted a b m

/-- The canonical form of memory. -/
def Memory.wf (m : Memory) : Bool := SMap.wf Memory.unlisted m

end Sys2Proof.Machine
end

