-- ==== Sys2Proof/Machine/State.lean ====
section
/-! DEFINITION. The state of the package as plain data: everything the spec gives the machine (INVENTORY.md, State),
the fault and refusal reasons, and the state after reset. Banks of like things are sparse maps (Sparse.lean) whose
unlisted entries read as the reset value of one such thing. -/

namespace Sys2Proof.Machine

/-! ### Why a step can stop -/

/-- The reasons a step stops with a fault. -/
inductive Fault where
  /-- Raised by `step` when every clock of the package is gated (R340, R355, R376): no further step exists until a
  cold reset. Safe: the spec says that nothing runs. -/
  | clocksStopped
  deriving DecidableEq, Repr, Inhabited

/-- The reasons a step is refused. -/
inductive Refusal where
  /-- Raised by an arm of `exec` whose instruction has no meaning yet. Safe: no state is reached. -/
  | notModelled (mnemonic : String)
  deriving DecidableEq, Repr, Inhabited

/-! ### Parties, waits and parking -/

/-- Who issued a request or owns a queue entry: a lane thread (its core and logical core, home-warp slot, workgroup slot
and `%tid`) or the control thread of a core and logical core. -/
inductive Who where
  /-- A lane thread. -/
  | lane (core lcore hw ws tid : Nat)
  /-- A core's control thread. -/
  | ct (core lcore : Nat)
  /-- The device itself, or the host through a function. -/
  | device
  deriving DecidableEq, Repr, Inhabited

/-- Who moves at a step (model's own, assumption 4). -/
inductive Turn where
  /-- An issue context of a core issues its next instruction. -/
  | vec (core ctx : Nat)
  /-- The control thread of a core issues its next instruction. -/
  | ct (core : Nat)
  /-- An event of the device happens. -/
  | event (e : Instr)
  deriving DecidableEq, Repr, Inhabited

/-- What a thread is parked or held on (R171, R328). -/
inductive Park where
  /-- Runnable. -/
  | none
  /-- `meet.await`, `meet.join` (R182): scope, id, and the token awaited against. -/
  | barrier (scope id : Nat) (token : Bool)
  /-- A `meet.join` whose arrival has not reached the barrier yet: scope, id, and the number of its batch. -/
  | joining (scope id batch : Nat)
  /-- `qpop` on an empty buffer (R119). -/
  | qpop (q : Nat)
  /-- `qrv` on an empty queue (R122); for the control thread, `qrecv`. -/
  | qrv
  /-- `qsv` on a full queue (R122); for the control thread, `qsend`. -/
  | qsv
  /-- `fwait` (R122, R210): the flag and the value awaited. -/
  | flag (k : Nat) (v : Bool)
  /-- `cwait` (R121): the barrier and the commands it still waits on. -/
  | cwait (c : Nat) (cmds : List Nat)
  /-- `waitu` (R185): the number of its wait. -/
  | waitu (wait : Nat)
  /-- `wqwait` (R193): the bag slot and the predicate. -/
  | wqwait (slot pred : Nat)
  /-- `bput` or `bgrow` held for the Staithe's reply (R133, R142): the status predicate. -/
  | staithe (pred : Nat)
  /-- A load or atomic at pod scope or to a peer window (R171). -/
  | remote
  /-- `yield` while an eviction is pending (R171). -/
  | yield
  /-- `qinit` of the control thread, for the commands aimed at its buffer (R209, R214). -/
  | qinit
  /-- `cxsave`, `cxload` of the control thread (R336). -/
  | switch
  deriving DecidableEq, Repr, Inhabited

/-- The operand words of an instruction captured at its first issue (R47, R201), for re-execution by `resume`. -/
structure Capture where
  pc    : DWord
  words : List Word
  deriving DecidableEq, Repr, Inhabited

/-! ### Handlers and threads -/

/-- A frame of the handler stack (R197). The last two fields are the model's own: the capture length of the hardware
effect its record holds (none for a `perform`), and whether that is a REMOTE_ERR of an entry still held (R396). -/
structure Frame where
  eff      : BitVec 8
  serial   : BitVec 16
  multi    : Bool
  armed    : Bool
  name     : BitVec 6
  cdepth   : BitVec 8
  pdepth   : BitVec 8
  ptop     : BitVec 6
  hide     : BitVec 6
  handling : Bool
  sp0      : DWord
  record   : DWord
  want     : Option Nat := none
  remote   : Bool := false
  deriving DecidableEq, Repr, Inhabited

/-- An effect a thread must perform before its next instruction (R396): id, argument, and whether it belongs to the
instruction at the PC, whose captured words its record then holds. -/
structure Owed where
  id  : Nat
  arg : Word
  at_ : Bool
  deriving DecidableEq, Repr, Inhabited

/-- A lane thread (R27, R328). Its registers are in the core's register file (R31). -/
structure Thread where
  live     : Bool := false
  pc       : DWord := 0
  depth    : BitVec 8 := 0
  preds    : BitVec 8 := 1
  sp       : DWord := 0
  frames   : List Frame := []
  onChip   : Nat := 0
  serialC  : BitVec 16 := 0
  sseq     : BitVec 32 := 0
  psig     : DWord := 0
  regmask  : BitVec 16 := 0
  park     : Park := .none
  reached  : Bool := false
  woken    : Bool := false
  acquire  : Option Nat := none
  loadHold : Nat := 0
  capture  : Option Capture := none
  effect   : Option Owed := none
  poison   : Option DWord := none
  watched  : Bool := false
  recSeq   : BitVec 32 := 0
  /-- Held at a lane-exchange key after the last step (R67). -/
  held     : Bool := false
  deriving DecidableEq, Repr, Inhabited

/-- A frontier entry (R18, R21): key, threads by `%tid`, and the tick its age counts from. -/
structure FEntry where
  prio    : BitVec 8
  pc      : DWord
  depth   : BitVec 8
  mask    : BitVec 256
  since   : DWord
  aged    : Bool
  spilled : Bool
  deriving DecidableEq, Repr, Inhabited

/-- A latch of one lane: void, or the value of the last result delivered in this run (R45). -/
abbrev Latch := Option Word

/-- A result of a formed warp that may still be in its pipe (R46, R48; model's own, assumption 12): its instruction's PC, word and place among
the pending results, its lanes, the latch and the register it is written to, the operands as captured at issue by lane (R330), what the register
held before by lane, and the lanes whose latch a newer result has reached. -/
structure Flight where
  pc    : DWord
  word  : Word
  ord   : Nat
  lanes : BitVec 32
  latch : Nat
  dest  : Option Nat
  opA   : SMap Word
  opB   : SMap Word
  opC   : SMap Word
  old   : SMap Word
  late  : BitVec 32 := 0
  deriving DecidableEq, Repr, Inhabited

/-- An issue context holding a formed warp (R22): its workgroup slot, the thread at each home lane, run count,
latches by b * 32 + lane, the tick it last issued, and the results that may still be in its pipes. -/
structure Warp where
  ws      : Nat
  lanes   : SMap (Option Nat)
  run     : Nat
  latches : SMap Latch
  last    : DWord
  flights : List Flight := []
  deriving DecidableEq, Repr, Inhabited

/-- A replay entry of a trap frame (R330). -/
structure Replay where
  pc    : DWord
  word  : Word
  lanes : BitVec 32
  opA   : SMap Word
  opB   : SMap Word
  opC   : SMap Word
  deriving DecidableEq, Repr, Inhabited

/-- A trap frame (R330), as it is laid out in the workgroup's record in the save area. -/
structure TrapFrame where
  code  : Nat
  len32 : Bool
  tmask : BitVec 32
  pc    : DWord
  word  : Word
  run   : Nat
  thr   : SMap Nat
  info0 : SMap Word
  info1 : SMap Word
  latch : SMap Word
  ltag  : SMap Nat
  reps  : List Replay
  deriving DecidableEq, Repr, Inhabited

/-- The life of a resident workgroup (R329). -/
inductive WgState where
  | resident
  | evictedRunnable
  | evictedWaiting
  | trapped
  deriving DecidableEq, Repr, Inhabited

/-- A workgroup placed in a workgroup slot (R15, R162, R329). `formed` is the tick of its last formation (R167), `forms` the count of its
formations (R293), `runaway` the tick its runaway counter counts from, and `rest` says that the counter stands at 0 since every live thread is at
a blocking point or has reached one (R172). -/
structure Workgroup where
  ctx      : Nat
  launch   : Nat
  stage    : Nat
  index    : Nat
  warps    : Nat
  hw       : Nat
  nregs    : Nat
  prio     : Nat
  state    : WgState := .resident
  started  : Bool := false
  threads  : SMap Thread := []
  frontier : List FEntry := []
  formed   : DWord := 0
  forms    : DWord := 0
  runaway  : DWord := 0
  rest     : Bool := false
  digest   : DWord := 0
  evict    : Bool := false
  deriving DecidableEq, Repr, Inhabited

/-! ### Engine commands -/

/-- What an engine command does. -/
inductive CmdOp where
  | cp (tr : Bool)
  | cpg (wide : Bool)
  | cpm
  | mmx (mode : BitVec 2)
  | mzero
  | mzeroBias
  | mld (rnd : BitVec 2)
  | mst
  | mscan
  | ade (bf16 : Bool)
  | dload
  | drun
  | coll (kind : BitVec 3) (op : BitVec 2)
  deriving DecidableEq, Repr, Inhabited

/-- A tensor descriptor: its 64-byte image, word 0 lowest, and whether it is marked invalid (R233, R235). -/
structure Descriptor where
  words   : SMap Word := []
  invalid : Bool := true
  deriving DecidableEq, Repr, Inhabited

/-- Where a command stands in its engine. -/
inductive CmdPhase where
  /-- Posted, in the engine's queue, not yet accepted. -/
  | posted
  /-- Accepted: descriptors and argument block captured. -/
  | accepted
  /-- Started or granted. -/
  | started
  deriving DecidableEq, Repr, Inhabited

/-- An engine command (R109, R261, R272, R279, R219). `fault` is the code its checks at acceptance gave (0 for none),
`dyn` the extents of its captured descriptors, four for each, and `step` how much of its work is done. -/
structure Command where
  id      : Nat
  op      : CmdOp
  who     : Who
  core    : Nat
  ctx     : Nat
  gen     : BitVec 16
  launch  : Nat
  tidA    : Nat
  tidB    : Nat
  bar     : Nat
  toQueue : Bool
  tile    : Nat
  ms      : Nat
  slots   : List Word
  guard   : Option Nat
  phase   : CmdPhase
  /-- The cores that its context owned at acceptance: the only ones whose windows it may reach (R33). -/
  mine    : BitVec 512 := 0
  descs   : List Descriptor
  dyn     : List Nat
  slot    : Option Nat
  prio    : Nat
  since   : DWord
  formed  : Bool
  step    : Nat
  fault   : Nat := 0
  deriving DecidableEq, Repr, Inhabited

/-! ### Store queues and requests -/

/-- The staged release of a queue entry (R82, R93): the word numbers its die's L2 must still write back. -/
inductive EntryPhase where
  /-- Waiting for the head of the queue. -/
  | queued
  /-- At the head, releasing: dirty words still to reach their homes. -/
  | releasing (words : List Nat)
  /-- Sent to its home or engine; waiting for the acknowledgement. -/
  | sent
  /-- Held after an error reply with this code, or (code 0) on a page found absent by a stale retry (R96, R396). -/
  | held (code : Nat)
  deriving DecidableEq, Repr, Inhabited

/-- Requests that travel to a home slice, a Staithe, a core or a barrier. -/
inductive Req where
  /-- A store or partial write at the home. -/
  | store (size : Nat) (data : BitVec 128)
  /-- A load that reads at the home: the number of the pending load. -/
  | load (core load size : Nat)
  /-- An atomic or `red`. -/
  | atomic (op : BitVec 4) (w64 upd : Bool) (v c : DWord)
  /-- A wait (R185). -/
  | wait (n : Nat)
  /-- The cancel of a wait (R189). -/
  | cancel (n : Nat)
  /-- A put (R133): key and record words. -/
  | put (key : Word) (words : List Word)
  /-- A drain (R141). -/
  | drain
  /-- A snapshot for `biter` (R137): the slot and the share. -/
  | snapshot (slot : Nat) (share : Word)
  /-- A `bnext` step (R138): the cursor words. -/
  | next (c0 c1 c2 : Word)
  /-- `bcount` (no share) or `bshare` (R136). -/
  | count (share : Option Word)
  /-- `bgrow` (R142). -/
  | grow (target : Word)
  /-- `bmake` (R217): the eight descriptor words read at its home. -/
  | make (words : List Word)
  /-- `bseal` (R218). -/
  | seal
  /-- `bfree` (R218). -/
  | free
  /-- `wqenter` (R192). -/
  | enter
  /-- `wqwait` (R193): the share. -/
  | await (share : Word)
  /-- `wqleave` (R192). -/
  | leave
  /-- The promotion of `acq.steal` (R105): victim core, scope, and, once it has reached the victim, the entries still to
  drain by queue. -/
  | steal (victim scope : Nat) (left : Option (List (Nat × Nat)))
  /-- A batch of barrier arrivals (R182): scope, id, arrivals, and how many of their releases are still to come. -/
  | arrive (scope id n left : Nat)
  deriving DecidableEq, Repr, Inhabited

/-- The kinds of store-queue entry (R25, R148). -/
inductive EntryKind where
  /-- A store: width in bytes, data, release scope (0 for plain), and whether it is the device's own frame, spill or
  record write, or a physical store. -/
  | store (size : Nat) (data : BitVec 128) (scope : Nat) (own phys : Bool)
  /-- An atomic or `red` (R99-R102): operation, 64-bit, upd, ordered, operands, destination register (none for `red`). -/
  | atomic (op : BitVec 4) (w64 upd ordered : Bool) (v c : DWord) (dest : Option Nat)
  /-- A put (R133): number of its instruction, header, key, record words. -/
  | put (id : Nat) (header : DWord) (key : Word) (words : List Word)
  /-- A drain (R141): the number of its pending result. -/
  | drain (id : Nat)
  /-- A wait (R185): the number of the wait. -/
  | wait (n : Nat)
  /-- A span operation (R108): length in bytes, `.mem`, and whether it then invalidates (`invspan`). -/
  | span (len : Nat) (mem inv : Bool)
  /-- The release of a fence (R104). -/
  | fence (scope : Nat)
  /-- A barrier arrival (R182, R183): the number of its batch, and the scope of its release. -/
  | arrive (batch scope : Nat)
  /-- A page request (R106): the address of the completion word. -/
  | pgreq (word : DWord)
  /-- An engine command (R109). -/
  | command (cmd : Command)
  /-- `bmake`, `bseal`, `bfree` of the control thread (R217, R218): which, and the number of its pending result. -/
  | bagOp (op id : Nat)
  /-- A request of a bag or worker instruction that a reply found in error: it stands at the head, held, to be sent again (R396). The request
  and the number of its pending result. -/
  | query (req : Req) (id : Nat)
  deriving DecidableEq, Repr, Inhabited

/-- A store-queue entry: kind, issuer, PC, virtual and physical address, generation of the translation (R96), and the number of its
instruction where the threads of one warp apply in lane order (R102; 0 for none). -/
structure Entry where
  kind  : EntryKind
  who   : Who
  pc    : DWord
  va    : DWord
  pa    : Nat
  gen   : BitVec 16
  phase : EntryPhase := .queued
  id    : Nat := 0
  /-- A 16-byte write of a record that goes on in the next one: a record takes one of the 32 entries (R25). -/
  more  : Bool := false
  /-- The run of the control thread that made it (R324; model's own). -/
  run   : Nat := 0
  deriving DecidableEq, Repr, Inhabited

/-- What a request is answered with. -/
inductive Reply where
  /-- Done; a value, where the request has one. -/
  | value (x : DWord)
  /-- The data of a load at the home, up to 16 bytes. -/
  | data (x : BitVec 128)
  /-- A wait's TRUE or TIMEOUT (R185). -/
  | waited (ok : Bool)
  /-- A put's PLACED, REFUSED or FULL(capacity) (R133). -/
  | placed
  | refused
  | full (capacity : Nat)
  /-- A cursor (R137) or the record address and cursor of a step (R138). -/
  | cursor (x : DWord) (c0 c1 c2 : Word)
  /-- `bgrow` beyond the limit (R142). -/
  | reserve (limit : Nat)
  /-- An error reply (R353). -/
  | error (code : Nat)
  /-- Word i of the access was poisoned (R345). -/
  | poisoned (i : Nat)
  deriving DecidableEq, Repr, Inhabited

/-- A request in flight, with its reply once it is answered: the queue it came from (48 for the control thread), and
the pending result its reply fills, if it has one. -/
structure Msg where
  who    : Who
  ctx    : Nat
  gen    : BitVec 16
  va     : DWord
  pa     : Nat
  req    : Req
  hw     : Nat
  load   : Option Nat := none
  reply  : Option Reply := none
  since  : DWord := 0
  /-- It has left the package towards the host or a peer (R74; model's own). -/
  sent   : Bool := false
  deriving DecidableEq, Repr, Inhabited

/-- What a pending result waits for. -/
inductive PendKind where
  /-- A plain load (R78). -/
  | plain
  /-- A load that reads at the home, or beyond the package (R80, R93, R95, R74). -/
  | home
  /-- The old value of an atomic (R102). -/
  | atomic
  /-- The token of `meet.post` or `meet.join` (R182). -/
  | token
  /-- The reply of a Staithe or the Lengthsman (R133-R142, R193, R217, R218). -/
  | bag
  deriving DecidableEq, Repr, Inhabited

/-- A result that has not been delivered (R48, R91, R102): the instruction's number, PC and word, the address, the
width in bytes, sign extension, destination register (none where nothing is written), first predicate, acquire scope (0
for none), generation, the data once it is known (none inside: a page found absent or an error, R91), and the issue
context whose latch it still delivers to, or the run of a control thread that it belongs to. -/
structure Load where
  id     : Nat
  kind   : PendKind
  who    : Who
  pc     : DWord
  word   : Word
  va     : DWord
  pa     : Nat
  size   : Nat
  signed : Bool
  dest   : Option Nat
  pred   : Nat
  scope  : Nat
  gen    : BitVec 16
  data   : Option (Option (BitVec 128))
  /-- The word of the access that was poisoned (R345). -/
  poison : Option Nat := none
  warp   : Option Nat
  /-- A newer result has reached the latch, or this one reaches none (R45, R138). -/
  late   : Bool := false
  /-- The thread is parked at the access for its reply (R171). -/
  remote : Bool := false
  /-- The place and bytes of the record that a `bnext` returns (R140). -/
  record : Option (Nat × Nat) := none
  deriving DecidableEq, Repr, Inhabited

/-- A registered or travelling wait (R185-R191). -/
structure Wait where
  id       : Nat
  who      : Who
  ctx      : Nat
  gen      : BitVec 16
  va       : DWord
  pa       : Nat
  cmp      : BitVec 3
  x        : Word
  scope    : Nat
  st       : Nat
  pc       : DWord
  deadline : Option DWord
  canceled : Bool := false
  evicted  : Bool := false
  deriving DecidableEq, Repr, Inhabited

/-- A waiter record of a monitor entry (R186): the core and workgroup slot (none once re-pointed to a saved record,
R190), the waits it stands for, and their deadline. -/
structure Waiter where
  place    : Option (Nat × Nat)
  waits    : List Nat
  deadline : Option DWord
  deriving DecidableEq, Repr, Inhabited

/-- A monitor entry (R186): word number, compare, operand, context, generation, whether a write has been applied since
its registration, its waiters, and, on the fallback path, the place of its registration in the home order of its word: how many of the logged
writes went before it (R188). -/
structure MonEntry where
  word    : Nat
  cmp     : BitVec 3
  x       : Word
  ctx     : Nat
  gen     : BitVec 16
  changed : Bool
  waiters : List Waiter
  seen    : Nat := 0
  deriving DecidableEq, Repr, Inhabited

/-! ### Caches -/

/-- A line of an L2 (R75, R76): valid, dirty, pinned and poisoned words (R346), their values by word index. -/
structure L2Line where
  valid  : BitVec 32 := 0
  dirty  : BitVec 32 := 0
  pinned : BitVec 32 := 0
  poison : BitVec 32 := 0
  data   : SMap Word := []
  deriving DecidableEq, Repr, Inhabited

/-- A line of an L1 (R75): context, generation, virtual line, physical line, valid words and their values. -/
structure L1Line where
  ctx   : Nat
  gen   : BitVec 16
  vline : Nat
  pline : Nat
  valid : BitVec 32
  data  : SMap Word
  deriving DecidableEq, Repr, Inhabited

/-- A line of an LLC slice (R75, R316): owner tag, way, valid, dirty and poisoned words, and the words' injected
codeword errors (R341). Its presence vector (R77) is read off the L2s (`State.presence`). -/
structure LlcLine where
  valid    : BitVec 32 := 0
  dirty    : BitVec 32 := 0
  poison   : BitVec 32 := 0
  owner    : Nat := 0
  way      : Nat := 0
  flips    : SMap Word := []
  data     : SMap Word := []
  deriving DecidableEq, Repr, Inhabited

/-- A TLB entry (R313): context, generation, virtual page, large, frame of the page, permissions x w r. -/
structure TlbEntry where
  ctx   : Nat
  gen   : BitVec 16
  vpage : Nat
  large : Bool
  frame : Nat
  perm  : BitVec 3
  deriving DecidableEq, Repr, Inhabited

/-! ### Cores -/

/-- A barrier (R181, R32). -/
structure Barrier where
  expected : Nat := 0
  arrived  : Nat := 0
  phase    : Bool := false
  deriving DecidableEq, Repr, Inhabited

/-- A completion barrier (R32, R115). `faultAt` is the tick of the last tick with a faulting completion, and the first code of that tick
(model's own). -/
structure CBarrier where
  outstanding : Nat := 0
  error       : Bool := false
  code        : Nat := 0
  faultAt     : Option (DWord × Nat) := none
  deriving DecidableEq, Repr, Inhabited

/-- A circular buffer (R32, R117): the counters, the indexes, the slots popped and not released, the slots whose command completed ahead of an
earlier one, and the fault codes recorded by slot. -/
structure CBuf where
  base   : Nat := 0
  size   : Nat := 0
  count  : Nat := 0
  filled : Nat := 0
  free   : Nat := 0
  fill   : Nat := 0
  pop    : Nat := 0
  rel    : Nat := 0
  popped : Nat := 0
  done   : List Nat := []
  codes  : SMap Nat := []
  deriving DecidableEq, Repr, Inhabited

/-- What a control thread runs (R207, R324, R325). -/
inductive CtRun where
  | idle
  /-- A prologue: launch and stage. -/
  | prologue (launch stage : Nat)
  /-- The resident routine. -/
  | resident
  /-- The supervisor routine, for the trap source it was entered with. -/
  | supervisor
  deriving DecidableEq, Repr, Inhabited

/-- The registers of a control thread that entry saves and return restores (R324). `serial` numbers the run, `waited`
says that the wait of the instruction at the PC is over, and `watched` that watchpoints are passed there once (R375; model's own). `effect` and
`poison` are an effect and a poison trap that it must take before its next instruction (R345, R396), and `begun` says that it has issued its
first instruction (R164). Of a run that has trapped, `remote` says that the trap is a REMOTE_ERR of an entry still held (R396), and `frame` is
its trap frame (R327; both model's own). -/
structure CtRegs where
  run    : CtRun := .idle
  serial : Nat := 0
  s      : SMap DWord := []
  pc     : DWord := 0
  super  : Bool := false
  rstack : List DWord := []
  park   : Park := .none
  waited : Bool := false
  watched : Bool := false
  grd    : Option Nat := none
  effect : Option (Nat × Word) := none
  poison : Option DWord := none
  begun  : Bool := false
  remote : Bool := false
  frame  : List Word := []
  deriving DecidableEq, Repr, Inhabited

/-- An event queued for a control thread (R323-R325): a trap (source, code), the DIGEST of a launch with its completion word's address and
record buffer (R291), a start event, or a prologue. -/
inductive CtEvent where
  | trap (source : Nat) (code : BitVec 8)
  | digest (done buffer : DWord)
  | start
  | prologue (launch stage : Nat)
  deriving DecidableEq, Repr, Inhabited

/-- A core's control thread (R26, R180, R324, R327). -/
structure Ct where
  cur     : CtRegs := {}
  saved   : List CtRegs := []
  pending : List CtEvent := []
  trapped : List CtRegs := []
  loadHold : Nat := 0
  runs    : Nat := 0
  ldigest : DWord := 0
  deriving DecidableEq, Repr, Inhabited

/-- A guard slot (R32, R211): none while unresolved. -/
abbrev Guard := Option Bool

/-- The core state of a logical core while it is switched out (R327, R332), whose layout the spec leaves to the device;
scratchpad, registers, tiles, thread and workgroup records lie in the save area in memory. -/
structure SavedCore where
  wgs     : SMap (Option Workgroup) := []
  cbufs   : SMap CBuf := []
  cbars   : SMap CBarrier := []
  bars    : SMap Barrier := []
  flags   : BitVec 32 := 1
  guards  : SMap Guard := []
  guardWait : SMap Nat := []
  toLane  : List DWord := []
  toCt    : List DWord := []
  ct      : Ct := {}
  queues  : SMap (List Entry) := []
  held    : List Command := []
  sys     : SMap DWord := []
  deriving DecidableEq, Repr, Inhabited

/-- A halfword of code a core has fetched: context, generation, virtual halfword number, and the values fetched, newest
first (R36). -/
structure CodeHalf where
  ctx  : Nat
  gen  : BitVec 16
  half : Nat
  vals : List Half
  deriving DecidableEq, Repr, Inhabited

/-- A core (R28). `sampled` is the tick of its last stall sample (R373). `since` is the tick the slice timer started, `swBegan` the tick of the first eviction step of a switch under way (R331,
R332). `guardWait` counts, by guard slot, the entries of the control thread's queue that its engines await before they act
on the slot (R212). `flagAt` holds, by flag, the tick in which the control thread last wrote it (R210; model's own). Register v(k) at lane L of home-warp slot w is `regs` at (w * 64 + k) * 32 + L (R31); element (i, j)
of tile a(m) is `tiles` at m * 16384 + i * 128 + j, and `tileOld` holds there the word that a window write has replaced under a granted
operation, whose next pass still takes the old one (R33; model's own); `queues` holds the home warps' store queues by slot and the
control thread's at 48. -/
structure Core where
  owner    : Option Nat := none
  lcore    : Option Nat := none
  since    : DWord := 0
  swBegan  : Option DWord := none
  swtime   : DWord := 0
  switch   : Bool := false
  warps    : SMap (Option Warp) := []
  wgs      : SMap (Option Workgroup) := []
  regs     : SMap Word := []
  scratch  : Memory := []
  tiles    : SMap Word := []
  tileOld  : SMap (Option Word) := []
  cbufs    : SMap CBuf := []
  cbars    : SMap CBarrier := []
  bars     : SMap Barrier := []
  flags    : BitVec 32 := 1
  flagAt   : SMap (Option DWord) := []
  guards   : SMap Guard := []
  guardWait : SMap Nat := []
  toLane   : List DWord := []
  toCt     : List DWord := []
  ct       : Ct := {}
  queues   : SMap (List Entry) := []
  loads    : List Load := []
  copyQ    : List Command := []
  matQ     : List Command := []
  holdQ    : List Command := []
  l1       : List L1Line := []
  tlb      : List TlbEntry := []
  code     : List CodeHalf := []
  sys      : SMap DWord := []
  saved    : SMap (Option SavedCore) := []
  sampled  : DWord := 0
  deriving DecidableEq, Repr, Inhabited

/-! ### Quads, dies, stacks -/

/-- A quad (R29, R256): its barriers, its reservation table and whether each array is busy with a command. -/
structure Quad where
  bars  : SMap Barrier := []
  table : List Command := []
  deriving DecidableEq, Repr, Inhabited

/-- A compute die (R29, R351, R370). -/
structure Die where
  bars    : SMap Barrier := []
  l2      : SMap L2Line := []
  tlb     : List TlbEntry := []
  reset   : Nat := 0
  began   : DWord := 0
  offline : Bool := false
  power   : Nat := 0
  idle    : DWord := 0
  deriving DecidableEq, Repr, Inhabited

/-- A memory stack's logic: monitor tables by slice, spilled and fallback entries, the spill filters' counters (65,536 for each slice), the
fallback write log, the ADE queue (R186-R188, R272), and whether it is in self-refresh for a reset. -/
structure Stack where
  monitor  : SMap (List MonEntry) := []
  spilled  : List MonEntry := []
  filter   : SMap Nat := []
  fallback : List MonEntry := []
  fbLines  : List Nat := []
  wlog     : List (Nat × Word) := []
  ade      : List Command := []
  refresh  : Bool := false
  deriving DecidableEq, Repr, Inhabited

/-- A Delf sequencer (R278): its program and tag, the special planes C, M and T, the command queue, the place in
the program of the running command, and the physical bases of its groups by number while it runs (R284). -/
structure Sequencer where
  ctx    : Option Nat := none
  prog   : List Word := []
  tag    : Word := 0
  c      : SMap Byte := []
  m      : SMap Byte := []
  t      : SMap Byte := []
  queue  : List Command := []
  pc     : Nat := 0
  iter   : Nat := 0
  region : SMap Nat := []
  parked : Bool := false
  saved  : Option (SMap Byte × SMap Byte × SMap Byte × Nat × Nat) := none
  deriving DecidableEq, Repr, Inhabited

/-! ### Bags -/

/-- A share of a bag as its Staithe holds it (R127, R128): live slots with their put serials, the share's serial, and
the open-row table, most recently used first. -/
structure Share where
  slots  : SMap (Option Word) := []
  serial : Word := 0
  rows   : List (Word × Nat) := []
  deriving DecidableEq, Repr, Inhabited

/-- A worker of a work bag (R192, R193): its thread, whether it is registered, its charged items, and the share it is
parked on. -/
structure Worker where
  who    : Who
  member : Bool
  claims : Nat
  parked : Option Nat
  deriving DecidableEq, Repr, Inhabited

/-- A live bag (R124, R125) with its Staithe's tags and its Lengthsman (R143). -/
structure Bag where
  ctx       : Nat
  header    : DWord
  headerPa  : Nat
  area      : DWord
  logb      : Nat
  thresh    : Nat
  size      : Nat
  work      : Bool
  cap       : Nat
  limit     : Nat
  sealed    : Bool := false
  quiescent : Bool := false
  freed     : Bool := false
  total     : Nat := 0
  counts    : SMap Nat := []
  shares    : SMap Share := []
  sharePas  : List Nat := []
  workers   : List Worker := []
  claimed   : Nat := 0
  deriving DecidableEq, Repr, Inhabited

/-! ### Launches and contexts -/

/-- A launch packet and the tables it names, as read when `launch` is applied (R159-R162, R175, R196). -/
structure StageInfo where
  entry    : DWord
  prologue : DWord
  first    : Nat
  n        : Nat
  link     : Nat
  lidx     : Nat
  effects  : List Byte
  handlers : List (Word × Word × DWord)
  prios    : List Word
  deriving DecidableEq, Repr, Inhabited

/-- The life of a launch (R164, R170). -/
inductive LaunchState where
  | accepted
  | placed
  | done
  deriving DecidableEq, Repr, Inhabited

/-- An accepted launch. -/
structure Launch where
  index    : Nat
  state    : LaunchState
  nregs    : Nat
  prio     : Nat
  warps    : Nat
  bank     : Option Nat
  count    : Nat
  args     : DWord
  stages   : List StageInfo
  place    : List (Nat × Nat × Nat)
  bags     : List DWord
  stack    : DWord
  stackb   : Nat
  done     : DWord
  issuer   : Nat
  finished : Nat
  placedN  : Nat
  digests  : SMap DWord
  prologues : List (Nat × Nat × Bool)
  begun    : List (Nat × Nat)
  detMode  : Nat
  serial   : Bool
  recBase  : DWord
  recSize  : Nat
  recN     : Nat
  path     : Nat
  trace    : Bool
  patharea : DWord
  trarea   : DWord
  /-- The recorded reads of its prologues, by logical core (R289). -/
  ctReads  : SMap Nat := []
  deriving DecidableEq, Repr, Inhabited

/-- A context (R29, R305, R306, R326). `sys` holds its system registers by number; `lost` holds the lines whose uncorrectable errors were charged to
it, with their LLC ways, which leave service when its removal completes (R346);
`peersHalted` holds the packages that have reported it halted, with the ticks of the reports (R367). -/
structure Context where
  alive    : Bool := false
  removed  : Bool := false
  removal  : Nat := 0
  cause    : Nat := 0
  began    : DWord := 0
  lost     : List (Nat × Option Nat) := []
  halted   : Bool := false
  haltedAt : DWord := 0
  peersHalted : List (Nat × DWord) := []
  gen      : BitVec 16 := 0
  grid     : Nat := 0
  remap    : SMap Nat := []
  remapQ   : List (Nat × Nat) := []
  sys      : SMap DWord := []
  descs    : SMap Descriptor := []
  pkgBars  : SMap Barrier := []
  podBars  : SMap Barrier := []
  accepted : Nat := 0
  launches : List Launch := []
  launchBag : DWord := 0
  groups   : SMap (List (Nat × Nat)) := []
  deriving DecidableEq, Repr, Inhabited

/-- A collective in progress (R219, R220, R367): context, group, each rank's command until it completes, each rank's source elements
once they are read, and whether a watchdog has ended a rank's part. -/
structure Coll where
  ctx    : Nat
  group  : Nat
  parts  : List (Nat × Command)
  data   : SMap (List Word)
  ended  : Bool := false
  deriving DecidableEq, Repr, Inhabited

/-! ### The package -/

/-- A virtual function (R360-R362): binding, endpoint, memory-window base, put slots and counters. -/
structure Vf where
  ctx     : Option Nat := none
  base    : DWord := 0
  winBits : Nat := 16
  slots   : SMap (Option DWord) := []
  putok   : Word := 0
  putfull : Word := 0
  putref  : Word := 0
  putbad  : Word := 0
  deriving DecidableEq, Repr, Inhabited

/-- What leaves the package towards the host and the pod (R309, R364, R365, R369): posted writes, interrupts, reports. -/
inductive Outbound where
  /-- A write to host memory with the requester ID of a function of an endpoint: bus address and data bytes. -/
  | hostWrite (ep fn addr : Nat) (data : List Byte)
  /-- An MSI-X vector of a function of an endpoint. -/
  | interrupt (ep fn vector : Nat)
  /-- A function's request completes with Unsupported Request, or else with Completer Abort (R360, R363). -/
  | abort (fn : Nat) (unsupported : Bool)
  /-- Data returned to a function's read. -/
  | readData (fn : Nat) (data : List Byte)
  /-- A store to the interrupt page of a function of an endpoint, on its way to the X-die (R364): offset, size and data. -/
  | pageStore (ep fn off size data : Nat)
  /-- A read of host memory with the requester ID of a function of an endpoint: bus address and size (R309). -/
  | hostRead (ep fn addr size : Nat)
  /-- A request to a peer window, on its way over a Pelbunis link (R74, R309, R365). -/
  | peerRequest (req : PeerReq)
  /-- A reply to a peer package. -/
  | peerReply (pkg : Nat) (code : Nat) (data : BitVec 128)
  /-- The status of a context's part in its collectives, to a peer package (R367). -/
  | haltStatus (pkg ctx : Nat) (status : PeerStatus)
  /-- A signed report of an X-die (R369): the measurement of each image, the fuse counter, the host's nonce, and the two signatures. -/
  | attestation (xdie : Nat) (images : List (BitVec 384)) (fuse nonce : Nat) (rsa slh : Word)
  /-- A lifetime counter read by the host through the management function (R356). -/
  | counter (key : Nat) (value : Word)
  /-- A report to the host from Fellos: kind and place. -/
  | report (kind place : Nat)
  deriving DecidableEq, Repr, Inhabited

/-- An error log record (R322, R356): tick, kind of event, place or code, context, and the PC of a trap that is not delivered. -/
structure LogRec where
  tick : DWord
  kind : Nat
  place : Nat
  ctx  : Nat
  pc   : DWord := 0
  deriving DecidableEq, Repr, Inhabited

/-- The dump of a package-fatal stop (R355). -/
structure Dump where
  stop  : DWord
  cause : Nat
  dies  : BitVec 16
  deriving DecidableEq, Repr, Inhabited

/-- A firmware image as the root of trust of an X-die finds it (R368, R369): its version, its SHA-384 measurement, and whether its two signatures
verify. -/
structure Image where
  version : Nat := 0
  measure : BitVec 384 := 0
  rsa     : Bool := false
  slh     : Bool := false
  deriving DecidableEq, Repr, Inhabited

/-- An X-die's root of trust (R368): the anti-rollback counter in its fuses, the primary and the standby image as it found them at the last boot,
which of them runs, and whether it stays in recovery mode. -/
structure XDie where
  fuse     : Nat := 0
  images   : List Image := []
  running  : Option Nat := none
  recovery : Bool := false
  deriving DecidableEq, Repr, Inhabited

/-- A sample: PC of the waiting instruction, PC to blame, reason, register code, workgroup slot. -/
structure Sample where
  wpc    : DWord
  bpc    : DWord
  reason : Nat
  reg    : Nat
  ws     : Nat
  deriving DecidableEq, Repr, Inhabited

/-- A word of code that a write has replaced (R36; model's own): context and generation that it was code of, its address, and what it was. -/
structure PastWord where
  ctx : Nat
  gen : BitVec 16
  pa  : Nat
  old : Word
  deriving DecidableEq, Repr, Inhabited

/-- The whole package. `fatal` is an error that no context owns, which stops the clocks at the next step (R355), and `probe` holds the samples that a
step finds for its stall sample (R373; model's own). `flashed` is the tick at which the lifetime counters last went to non-volatile storage (R356), `past` holds what code was
under its context's current generation (R36; model's own), and `sampled` is the tick at which Fellos last sampled the module power (R371); `issuedAt`, `ctAt` and `formedAt` hold, by
core, the tick in which its vector sequencer and its control thread last issued and its last warp formed (R22, R207; model's own). -/
structure State where
  turn     : Option Turn
  issuer   : Option Turn
  steps    : Nat
  tick     : DWord
  issuedAt : SMap (Option DWord)
  ctAt     : SMap (Option DWord)
  formedAt : SMap (Option DWord)
  booted   : Bool
  stopped  : Bool
  armed    : Option DWord
  dump     : Option Dump
  fatal    : Option Nat
  probe    : List Sample
  pkg      : BitVec 9
  mem      : Memory
  past     : List PastWord
  dramBad  : List Nat
  dramFlip : SMap Word
  llc      : SMap LlcLine
  cores    : SMap Core
  quads    : SMap Quad
  dies     : SMap Die
  hbm      : SMap Stack
  seqs     : SMap Sequencer
  ctxs     : SMap Context
  bags     : List Bag
  net      : List Msg
  waits    : List Wait
  nextId   : Nat
  colls    : List Coll
  fellos   : SMap DWord
  quarant  : List (Nat × Nat × Nat)
  corrected : SMap (List DWord)
  retired  : List Nat
  counters : SMap Word
  flash    : SMap Word
  flashed  : DWord
  errlog   : List LogRec
  inject   : List Injection
  vfs      : SMap Vf
  out      : List Outbound
  links    : SMap Nat
  xdies    : SMap XDie
  powerCap : Nat
  throttle : Nat
  sampled  : DWord
  deriving DecidableEq, Repr

/-- The package right after a cold reset, before Fellos starts it: no context exists, every frame is unowned, every
core unowned and zeroed (R315), every barrier at expected count 0, arrived count 0 and phase 0 (R351), the tick 0, the
power cap 4,500 W (R371). Values the spec gives no reset for are named in assumption 1. -/
def State.reset : State where
  turn     := none
  issuer   := none
  steps    := 0
  tick     := 0
  issuedAt := []
  ctAt     := []
  formedAt := []
  booted   := false
  stopped  := false
  armed    := none
  dump     := none
  fatal    := none
  probe    := []
  pkg      := 0
  mem      := []
  past     := []
  dramBad  := []
  dramFlip := []
  llc      := []
  cores    := []
  quads    := []
  dies     := []
  hbm      := []
  seqs     := []
  ctxs     := []
  bags     := []
  net      := []
  waits    := []
  nextId   := 0
  colls    := []
  fellos   := []
  quarant  := []
  corrected := []
  retired  := []
  counters := []
  flash    := []
  flashed  := 0
  errlog   := []
  inject   := []
  vfs      := []
  out      := []
  links    := []
  xdies    := []
  powerCap := 4500
  throttle := 0
  sampled  := 0

end Sys2Proof.Machine
end

