-- ==== Sys2Proof/Config.lean ====
section
/-! DEFINITION. The free values: what the spec leaves to the device and the model leaves to no one. Each is a constant
with no body applied to the number of steps taken (assumption 4), so nothing can be proved of its value. -/

namespace Sys2Proof

/-- Who moves at a step when nothing is fixed: any order of the device's parties is allowed (R10, R22, assumption 4). -/
opaque Config.turn : Nat → Machine.Turn

/-- Ticks that pass during a step (R2, R46, assumption 5). -/
opaque Config.elapse : Nat → DWord

/-- A choice the spec gives the device, numbered, at a step (R10, assumption 6). -/
opaque Config.choice : Nat → Nat → Nat

/-- Whether a clean copy has left the L1 (level 1) or L2 (level 2) by a step (R78: no time bound, assumption 6). -/
opaque Config.evicted : Nat → Nat → Bool

/-- A word whose value the spec leaves open (assumption 7): the step, and which word of the step. -/
opaque Config.freeWord : Nat → Nat → Word

/-- The DRAM channel that holds the lines of a compute frame, by global frame number, modulo 32 (R277 gives it one and names none). -/
opaque Config.frameChannel : Nat → Nat

end Sys2Proof
end

