-- ==== Sys2Proof/Machine/Bits.lean ====
section
/-! DEFINITION. Bit counts, byte order and address arithmetic shared by the machine. -/

namespace Sys2Proof.Machine

/-- The number of set bits (R62). -/
def popc {w : Nat} (x : BitVec w) : Nat := (List.range w).countP (fun i => x.getLsbD i)

/-- The number of leading zero bits; w for 0 (R62). -/
def clz {w : Nat} (x : BitVec w) : Nat := ((List.range w).takeWhile (fun i => !x.getLsbD (w - 1 - i))).length

/-- The number of trailing zero bits; w for 0 (R62). -/
def ctz {w : Nat} (x : BitVec w) : Nat := ((List.range w).takeWhile (fun i => !x.getLsbD i)).length

/-- The bits in the opposite order (R62). -/
def brev {w : Nat} (x : BitVec w) : BitVec w := x.reverse

/-- Rotation left (R56, R290). -/
def rotl {w : Nat} (x : BitVec w) (n : Nat) : BitVec w := x.rotateLeft n

/-- The low n bits, sign-extended to w bits (R55). -/
def sextLow {w : Nat} (x : BitVec w) (n : Nat) : BitVec w := (x.setWidth n).signExtend w

/-- The low n bits, zero-extended to w bits (R55). -/
def zextLow {w : Nat} (x : BitVec w) (n : Nat) : BitVec w := (x.setWidth n).setWidth w

/-- Bits [hi:lo] of a number. -/
def bitsOf (x hi lo : Nat) : Nat := (x >>> lo) % 2 ^ (hi + 1 - lo)

/-- A signed field of n bits as an integer. -/
def signedOf (n x : Nat) : Int := (BitVec.ofNat n x).toInt

/-- The bytes of a number, lowest first (R34: little-endian). -/
def leBytes : Nat → Nat → List Byte
  | 0, _ => []
  | n + 1, x => BitVec.ofNat 8 x :: leBytes n (x / 256)

/-- The number whose bytes are listed, lowest first. -/
def ofBytes : List Byte → Nat
  | [] => 0
  | b :: bs => b.toNat + 256 * ofBytes bs

/-- The words of a list of bytes, lowest first. -/
def wordsOf (n x : Nat) : List Word := (List.range n).map (fun i => BitVec.ofNat 32 (x >>> (32 * i)))

/-- The number whose words are listed, lowest first. -/
def ofWords : List Word → Nat
  | [] => 0
  | w :: ws => w.toNat + 4294967296 * ofWords ws

/-- A PC is 48 bits wide, and names the address of which it is the low 48 bits (R27, R71). -/
def pc48 (a : DWord) : DWord := (a.setWidth 48).signExtend 64

/-- Bits [63:47] are all equal (R71). -/
def canonical (a : DWord) : Bool := a.toNat >>> 47 == 0 || a.toNat >>> 47 == 131071

/-- A number rounded up to a multiple of 16. -/
def roundup16 (n : Nat) : Nat := (n + 15) / 16 * 16

/-- The number of the 64 KiB page of a canonical address: va[47:16] (R311). -/
def vpageOf (a : DWord) : Nat := bitsOf a.toNat 47 16

/-- The argument of PAGE_ABSENT (R206): address bits [47:16]. -/
def pageArg (a : DWord) : Word := BitVec.ofNat 32 (vpageOf a)

/-- A list of natural numbers from lo, n long. -/
def span (lo n : Nat) : List Nat := (List.range n).map (fun i => lo + i)

/-- A bit mask of the numbers listed. -/
def maskOf {w : Nat} (l : List Nat) : BitVec w := l.foldl (fun m i => m ||| BitVec.twoPow w i) 0#w

/-- The numbers whose bits are set. -/
def setBits {w : Nat} (m : BitVec w) : List Nat := (List.range w).filter (fun i => m.getLsbD i)

/-- Ceiling division. -/
def ceilDiv (a b : Nat) : Nat := (a + b - 1) / b

end Sys2Proof.Machine
end

