-- ==== Sys2Proof/Machine/Access.lean ====
section
/-! DEFINITION. Accessors of the nested state, the physical map (R72, R73), the inverted tables (R307-R311) and address
translation with its TLBs (R313). -/

namespace Sys2Proof.Machine

/-! ### Accessors -/

/-- A core. -/
def State.core (s : State) (c : Nat) : Core := SMap.get {} c s.cores

/-- Put a core. -/
def State.setCore (s : State) (c : Nat) (x : Core) : State := { s with cores := SMap.set {} c x s.cores }

/-- Change a core. -/
def State.modCore (s : State) (c : Nat) (f : Core → Core) : State := s.setCore c (f (s.core c))

/-- A quad, numbered package-wide. -/
def State.quad (s : State) (q : Nat) : Quad := SMap.get {} q s.quads

/-- Change a quad. -/
def State.modQuad (s : State) (q : Nat) (f : Quad → Quad) : State := { s with quads := SMap.set {} q (f (s.quad q)) s.quads }

/-- A die. -/
def State.die (s : State) (d : Nat) : Die := SMap.get {} d s.dies

/-- Change a die. -/
def State.modDie (s : State) (d : Nat) (f : Die → Die) : State := { s with dies := SMap.set {} d (f (s.die d)) s.dies }

/-- A memory stack's logic. -/
def State.stack (s : State) (k : Nat) : Stack := SMap.get {} k s.hbm

/-- Change a memory stack's logic. -/
def State.modStack (s : State) (k : Nat) (f : Stack → Stack) : State := { s with hbm := SMap.set {} k (f (s.stack k)) s.hbm }

/-- A Delf sequencer. -/
def State.seq (s : State) (k : Nat) : Sequencer := SMap.get {} k s.seqs

/-- Change a Delf sequencer. -/
def State.modSeq (s : State) (k : Nat) (f : Sequencer → Sequencer) : State :=
  { s with seqs := SMap.set {} k (f (s.seq k)) s.seqs }

/-- A context. -/
def State.ctx (s : State) (x : Nat) : Context := SMap.get {} x s.ctxs

/-- Change a context. -/
def State.modCtx (s : State) (x : Nat) (f : Context → Context) : State := { s with ctxs := SMap.set {} x (f (s.ctx x)) s.ctxs }

/-- A workgroup of a core. -/
def Core.wg (x : Core) (ws : Nat) : Option Workgroup := SMap.get none ws x.wgs

/-- Put a workgroup. -/
def Core.setWg (x : Core) (ws : Nat) (g : Option Workgroup) : Core := { x with wgs := SMap.set none ws g x.wgs }

/-- The formed warp of an issue context. -/
def Core.warp (x : Core) (k : Nat) : Option Warp := SMap.get none k x.warps

/-- Put a formed warp. -/
def Core.setWarp (x : Core) (k : Nat) (w : Option Warp) : Core := { x with warps := SMap.set none k w x.warps }

/-- A store queue: a home-warp slot's, or the control thread's at 48 (R25, R94). -/
def Core.queue (x : Core) (hw : Nat) : List Entry := SMap.get [] hw x.queues

/-- Put a store queue. -/
def Core.setQueue (x : Core) (hw : Nat) (q : List Entry) : Core := { x with queues := SMap.set [] hw q x.queues }

/-- The control thread's queue. -/
def ctQueue : Nat := 48

/-- A register's place in the register file (R31). -/
def regKey (hw k lane : Nat) : Nat := (hw * 64 + k) * 32 + lane

/-- A vector register (R31). -/
def Core.reg (x : Core) (hw k lane : Nat) : Word := SMap.get 0 (regKey hw k lane) x.regs

/-- Write a vector register. -/
def Core.setReg (x : Core) (hw k lane : Nat) (v : Word) : Core := { x with regs := SMap.set 0 (regKey hw k lane) v x.regs }

/-- An element of a tile (R31). -/
def tileKey (m i j : Nat) : Nat := m * 16384 + i * 128 + j

/-- A thread of a workgroup. -/
def Workgroup.thread (g : Workgroup) (tid : Nat) : Thread := SMap.get {} tid g.threads

/-- Change a thread. -/
def Workgroup.modThread (g : Workgroup) (tid : Nat) (f : Thread → Thread) : Workgroup :=
  { g with threads := SMap.set {} tid (f (g.thread tid)) g.threads }

/-- A thread of a workgroup slot of a core; an absent one is not live. -/
def State.thread (s : State) (c ws tid : Nat) : Thread :=
  match (s.core c).wg ws with
  | some g => g.thread tid
  | none => {}

/-- Change a workgroup. -/
def State.modWg (s : State) (c ws : Nat) (f : Workgroup → Workgroup) : State :=
  s.modCore c fun x => match x.wg ws with
    | some g => x.setWg ws (some (f g))
    | none => x

/-- Change a thread of a workgroup slot of a core. -/
def State.modThread (s : State) (c ws tid : Nat) (f : Thread → Thread) : State := s.modWg c ws (·.modThread tid f)

/-- A control-thread register. -/
def CtRegs.reg (r : CtRegs) (k : Nat) : DWord := SMap.get 0 k r.s

/-- Write a control-thread register. -/
def CtRegs.setReg (r : CtRegs) (k : Nat) (v : DWord) : CtRegs := { r with s := SMap.set 0 k v r.s }

/-- Change a core's running control-thread registers. -/
def State.modCt (s : State) (c : Nat) (f : CtRegs → CtRegs) : State :=
  s.modCore c fun x => { x with ct := { x.ct with cur := f x.ct.cur } }

/-- A register of a context (R306, R326, R366, R372), by number; what it reads as before any write is `Context.sysDefault`. -/
def Context.sysDefault (n : Nat) : DWord :=
  match n with
  | 0x11 => 0xFFFF
  | 0x15 => 16
  | 0x16 => 1400000
  | 0x1A => 70000
  | _ => 0

/-- A context's system register. -/
def Context.reg (x : Context) (n : Nat) : DWord := SMap.get (Context.sysDefault n) n x.sys

/-- Write a context's system register. -/
def Context.setReg (x : Context) (n : Nat) (v : DWord) : Context := { x with sys := SMap.set (Context.sysDefault n) n v x.sys }

/-- A package register of Fellos (R306), numbers 0-4; anchbits reads at least 16. -/
def State.fellosReg (s : State) (n : Nat) : DWord := SMap.get (if n = 2 then 16 else 0) n s.fellos

/-- A core's register per logical core (R372, numbers 0x20, 0x22, 0x24-0x2B). -/
def Core.sysReg (x : Core) (n : Nat) : DWord := SMap.get 0 n x.sys

/-- Append a fresh number. -/
def State.fresh (s : State) : Nat × State := (s.nextId, { s with nextId := s.nextId + 1 })

/-- The die of a package core (R14). -/
def dieOf (c : Nat) : Nat := c / 32

/-- The quad of a package core, numbered package-wide (R14). -/
def quadOf (c : Nat) : Nat := c / 4

/-- The context of a core (R315); a core no context owns runs nothing. -/
def State.coreCtx (s : State) (c : Nat) : Nat := ((s.core c).owner).getD 0

/-! ### The physical map (R72, R73, R307) -/

/-- What a physical address names. -/
inductive Place where
  | hbm (stack : Nat)
  | tier (x : Nat)
  | window (w : Nat)
  | onchip (off : Nat)
  | outside
  deriving DecidableEq, Repr, Inhabited

/-- Bytes of one stack. -/
def stackBytes : Nat := 0xC00000000

/-- Bytes of one X-die's second tier. -/
def tierBytes : Nat := 0x8000000000

/-- Base of the second tier. -/
def tierBase : Nat := 0x1000000000000

/-- Base of the window frames. -/
def windowBase : Nat := 0x2000000000000

/-- Base of the on-chip windows. -/
def onchipBase : Nat := 0xF000000000000

/-- The place of a physical address (R72). -/
def placeOf (pa : Nat) : Place :=
  if pa < 16 * stackBytes then .hbm (pa / stackBytes)
  else if tierBase ≤ pa && pa < tierBase + 2 * tierBytes then .tier ((pa - tierBase) / tierBytes)
  else if windowBase ≤ pa && pa < windowBase + 0x1000000000 then .window ((pa - windowBase) / 65536)
  else if onchipBase ≤ pa && pa < onchipBase + 16 * 0x4000000 then .onchip (pa - onchipBase)
  else .outside

/-- The number that ends a chain (R307). -/
def noFrame : Nat := 0x3FFFFFF

/-- The global frame number of a physical address (R307, R309). -/
def gfnOf (pa : Nat) : Nat :=
  match placeOf pa with
  | .hbm _ => pa / 65536
  | .tier _ => 0x1000000 + (pa - tierBase) / 65536
  | .window w => 0x2000000 + w
  | _ => noFrame

/-- The physical base of a frame (R307, R309). -/
def frameBase (g : Nat) : Option Nat :=
  if g < 16 * 786432 then some (g * 65536)
  else if 0x1000000 ≤ g && g < 0x2000000 then some (tierBase + (g - 0x1000000) * 65536)
  else if 0x2000000 ≤ g && g < 0x2100000 then some (windowBase + (g - 0x2000000) * 65536)
  else none

/-- The home stack of a frame of memory (R73); window frames have none. -/
def homeStack (pa : Nat) : Nat :=
  match placeOf pa with
  | .hbm k => k
  | .tier _ => ((pa - tierBase) % tierBytes / 65536) % 16
  | _ => 0

/-- The home slice of a line (R73). -/
def homeSlice (pa : Nat) : Nat := pa / 128 % 512 % 8

/-- An address in a host window traps in atomics and waits (R74); one in any window frame is not cached. -/
def isWindowPa (pa : Nat) : Bool :=
  match placeOf pa with
  | .window _ => true
  | _ => false

/-! ### Bytes and words of memory -/

/-- A number of bytes of memory, lowest address in the low bits. -/
def Memory.readN (m : Memory) (a n : Nat) : Nat := ofBytes ((List.range n).map (fun i => m.read (a + i)))

/-- Write bytes from an address on. -/
def Memory.writeBytes (m : Memory) (a : Nat) : List Byte → Memory
  | [] => m
  | b :: bs => Memory.writeBytes (m.write a b) (a + 1) bs

/-- The word at an address. -/
def Memory.word (m : Memory) (a : Nat) : Word := BitVec.ofNat 32 (m.readN a 4)

/-- Write a word. -/
def Memory.setWord (m : Memory) (a : Nat) (w : Word) : Memory := m.writeBytes a (leBytes 4 w.toNat)

/-- Memory without the bytes of a range. -/
def Memory.dropRange (m : Memory) (a n : Nat) : Memory := m.filter (fun kv => decide (kv.1 < a ∨ a + n ≤ kv.1))

/-! ### Inverted entries (R307-R309) -/

/-- An inverted entry (R308). -/
structure IEntry where
  vpage   : Nat
  ctx     : Nat
  gen     : BitVec 16
  next    : Nat
  owned   : Bool
  retired : Bool
  compute : Bool
  valid   : Bool
  large   : Bool
  perm    : BitVec 3
  deriving DecidableEq, Repr, Inhabited

/-- The physical address of a frame's inverted entry (R307, R309). -/
def State.entryAddr (s : State) (g : Nat) : Nat :=
  if g < 0x1000000 then g / 786432 * stackBytes + (s.fellosReg 0).toNat + 16 * (g % 786432)
  else if g < 0x2000000 then
    let f := g - 0x1000000
    tierBase + f / 8388608 * tierBytes + (s.fellosReg 3).toNat + 16 * (f % 8388608)
  else
    let w := g - 0x2000000
    tierBase + w % 2 * tierBytes + (s.fellosReg 4).toNat + 32 * (w / 2)

/-- The inverted entry in four words; a zero field that is not 0 makes it not owned (R308). -/
def IEntry.ofWords (w0 w1 w2 w3 : Word) : IEntry :=
  let zeros := w1 &&& 0xF == 0 && w2 &&& 0x3F == 0 && w3 &&& 0xFFFFF0F0 == 0
  { vpage := w0.toNat, ctx := bitsOf w1.toNat 31 20, gen := (w1 >>> 4).setWidth 16, next := bitsOf w2.toNat 31 6,
    owned := zeros && w3.getLsbD 11, retired := w3.getLsbD 10, compute := w3.getLsbD 9, valid := w3.getLsbD 8,
    large := w3.getLsbD 3, perm := w3.setWidth 3 }

/-- The inverted entry of a frame, read whole (R312). A number that names no frame has an entry that is not owned. -/
def State.ientry (s : State) (g : Nat) : IEntry :=
  match frameBase g with
  | none => IEntry.ofWords 0 0 (BitVec.ofNat 32 (noFrame * 64)) 0
  | some _ =>
    let a := s.entryAddr g
    IEntry.ofWords (s.mem.word a) (s.mem.word (a + 4)) (s.mem.word (a + 8)) (s.mem.word (a + 12))

/-- The kind of a window frame's target (R309): 0 host memory, 1 peer, 2 interrupt page, 3 invalid. -/
def State.windowKind (s : State) (pa : Nat) : Nat :=
  bitsOf (s.mem.word (s.entryAddr (gfnOf pa) + 0x18)).toNat 31 30

/-- A context owns the frame of a physical address, in service (R314); a window frame of kind 3 is no one's (R309). -/
def State.ownsFrame (s : State) (x pa : Nat) : Bool :=
  let e := s.ientry (gfnOf pa)
  e.owned && !e.retired && e.ctx == x && !(isWindowPa pa && s.windowKind pa == 3)

/-- The context whose frame holds a physical address, if one owns it. -/
def State.frameOwner (s : State) (pa : Nat) : Option Nat :=
  let e := s.ientry (gfnOf pa)
  if e.owned && !e.retired then some e.ctx else none

/-- The bits of an anchor's number (R306). -/
def State.anchorBits (s : State) : Nat := max 16 (min 24 (s.fellosReg 2).toNat)

/-- A frame holds a part of the inverted tables, of the anchor array, or of the memory reserved for a dump, which no context owns (R307, R309, R310,
R355). -/
def State.isTableFrame (s : State) (base : Nat) : Bool :=
  let meets := fun (a n : Nat) => decide (a < base + 65536 ∧ base < a + n)
  let reg := fun (n : Nat) => (s.fellosReg n).toNat
  (List.range 16).any (fun k => meets (k * stackBytes + reg 0) (16 * 786432) || meets (k * stackBytes + reg 1) (4 * (2 ^ s.anchorBits / 16))) ||
  (List.range 2).any (fun k => meets (tierBase + k * tierBytes + reg 3) (16 * 8388608) || meets (tierBase + k * tierBytes + reg 4) (32 * 524288)) ||
  meets (tierBase + reg 5) (2 ^ 30)

/-! ### The walk (R310, R311) -/

/-- The hash that chooses an anchor (R310). -/
def anchorHash (abits x : Nat) (va : DWord) : Nat :=
  let a := (Nat.xor (x * 0x9E3779B1) (bitsOf va.toNat 47 22 * 0x85EBCA6B)) % 2 ^ 32
  a >>> (32 - abits)

/-- The first frame of a chain (R310). -/
def State.anchor (s : State) (i : Nat) : Nat :=
  (s.mem.word (i % 16 * stackBytes + (s.fellosReg 1).toNat + 4 * (i / 16))).toNat % 2 ^ 26

/-- A translation: physical byte address and permissions x w r. -/
structure Xlat where
  pa   : Nat
  perm : BitVec 3
  page : Nat
  large : Bool
  deriving DecidableEq, Repr, Inhabited

/-- A generation is current or older, not ahead (R311). -/
def genReached (now e : BitVec 16) : Bool := (now - e).toNat < 32768

/-- The walk along a chain, at most 64 steps (R311). -/
def State.walkFrom (s : State) (x : Nat) (gen : BitVec 16) (va : DWord) : Nat → Nat → Option Xlat
  | 0, _ => none
  | n + 1, g =>
    if g = noFrame then none else
    let e := s.ientry g
    let a := va.toNat
    let fits := e.owned && e.valid && !e.retired && e.ctx == x && genReached gen e.gen
    let base := (frameBase g).getD 0
    if fits && e.large && bitsOf e.vpage 31 6 == bitsOf a 47 22 then
      some { pa := base + a % 2 ^ 22, perm := e.perm, page := bitsOf a 47 22 * 64, large := true }
    else if fits && !e.large && e.vpage == bitsOf a 47 16 then
      some { pa := base + a % 65536, perm := e.perm, page := e.vpage, large := false }
    else State.walkFrom s x gen va n e.next

/-- The frames whose entries a walk reads along a chain, up to the one that it ends at. -/
def State.chainFrom (s : State) (x : Nat) (gen : BitVec 16) (va : DWord) : Nat → Nat → List Nat
  | 0, _ => []
  | n + 1, g => if g = noFrame then [] else g :: (if (s.walkFrom x gen va 1 g).isSome then [] else State.chainFrom s x gen va n (s.ientry g).next)

/-- The words of the tables that the walk of a virtual address reads. -/
def State.walkWords (s : State) (x : Nat) (va : DWord) : List Nat :=
  let i := anchorHash s.anchorBits x va
  (i % 16 * stackBytes + (s.fellosReg 1).toNat + 4 * (i / 16)) :: (s.chainFrom x (s.ctx x).gen va 64 (s.anchor i)).map s.entryAddr

/-- The walk of a virtual address under the current generation (R311). -/
def State.walk (s : State) (x : Nat) (va : DWord) : Option Xlat :=
  s.walkFrom x (s.ctx x).gen va 64 (s.anchor (anchorHash s.anchorBits x va))

/-- A TLB entry gives a translation of the address for this context and generation (R313). -/
def TlbEntry.hit (t : TlbEntry) (x : Nat) (gen : BitVec 16) (va : DWord) : Option Xlat :=
  let a := va.toNat
  if t.ctx = x && t.gen == gen && t.vpage == (if t.large then bitsOf a 47 22 * 64 else bitsOf a 47 16) then
    some { pa := t.frame + (if t.large then a % 2 ^ 22 else a % 65536), perm := t.perm, page := t.vpage, large := t.large }
  else none

/-- The first hit of a TLB. -/
def tlbFind (l : List TlbEntry) (x : Nat) (gen : BitVec 16) (va : DWord) : Option Xlat := l.findSome? (·.hit x gen va)

/-- Translate for a core: its TLB, its die's TLB, then the walk (R311, R313). -/
def State.xlate (s : State) (c x : Nat) (va : DWord) : Option Xlat :=
  let gen := (s.ctx x).gen
  (tlbFind (s.core c).tlb x gen va).or ((tlbFind (s.die (dieOf c)).tlb x gen va).or (s.walk x va))

/-- Record a translation in the core's and the die's TLB (R313: 2,048 and 32,768 entries). -/
def State.fillTlb (s : State) (c x : Nat) (va : DWord) : State :=
  let gen := (s.ctx x).gen
  match tlbFind (s.core c).tlb x gen va, s.xlate c x va with
  | none, some t =>
    let e : TlbEntry := { ctx := x, gen := gen, vpage := t.page, large := t.large,
                          frame := t.pa - (if t.large then va.toNat % 2 ^ 22 else va.toNat % 65536), perm := t.perm }
    let s := s.modCore c fun y => { y with tlb := (e :: y.tlb).take 2048 }
    match tlbFind (s.die (dieOf c)).tlb x gen va with
    | none => s.modDie (dieOf c) fun d => { d with tlb := (e :: d.tlb).take 32768 }
    | some _ => s
  | _, _ => s

/-- The permissions an access needs (R311), as masks of x w r. -/
def permR : BitVec 3 := 1

/-- See `permR`. -/
def permW : BitVec 3 := 2

/-- See `permR`. -/
def permX : BitVec 3 := 4

/-- See `permR`. -/
def permRW : BitVec 3 := 3

/-- A translation grants the permissions needed. -/
def Xlat.grants (t : Xlat) (need : BitVec 3) : Bool := t.perm &&& need == need

end Sys2Proof.Machine
end

