-- ==== Sys2Proof/Machine/Hier.lean ====
section
/-! DEFINITION. The memory hierarchy (R75-R83): home words in the LLC or in memory, the L2s and L1s above them, the
monitor entries evaluated at each write of a word (R186-R188), and the release and acquire actions of R82. -/

namespace Sys2Proof.Machine

/-- The line number of a physical address. -/
def lineOf (pa : Nat) : Nat := pa / 128

/-- The word index within its line. -/
def widx (pa : Nat) : Nat := pa % 128 / 4

/-- The word-aligned address. -/
def wordAddr (pa : Nat) : Nat := pa / 4 * 4

/-- The addresses of the words an access of a size at an aligned address touches. -/
def wordsAt (pa size : Nat) : List Nat := (List.range ((size + 3) / 4)).map (fun i => wordAddr pa + 4 * i)

/-- The word at a window frame, as the world outside answers (assumption 7); an interrupt page reads as zero (R364). -/
def State.outsideWord (s : State) (pa : Nat) : Word := if isWindowPa pa && s.windowKind pa == 2 then 0 else Config.freeWord s.steps (64 + wordAddr pa)

/-! ### Home words -/

/-- The LLC line of an address; a line not held has no valid words. -/
def State.llcLine (s : State) (pa : Nat) : LlcLine := SMap.get {} (lineOf pa) s.llc

/-- The value of a word at its home slice: the LLC's, else memory's (R80). -/
def State.homeWord (s : State) (pa : Nat) : Word :=
  let l := s.llcLine pa
  if l.valid.getLsbD (widx pa) then SMap.get 0 (widx pa) l.data else s.mem.word (wordAddr pa)

/-- The word addresses of the 64-byte codeword of memory that holds an address (R341). -/
def codeWords (pa : Nat) : List Nat := (List.range 16).map (fun i => pa / 64 * 64 + 4 * i)

/-- A codeword of memory has more wrong symbols than its code corrects (R341, R345). -/
def State.codeBad (s : State) (pa : Nat) : Bool := decide (2 ≤ ((codeWords pa).map (fun a => popc (SMap.get 0 a s.dramFlip))).sum)

/-- A word of memory reads as poisoned. -/
def State.memBad (s : State) (pa : Nat) : Bool := s.dramBad.contains (wordAddr pa) || s.codeBad pa

/-- A dirty word of an LLC line is lost: poisoned, or wrong in two bits (R341, R345). A clean word is read again from memory. -/
def LlcLine.lost (l : LlcLine) (i : Nat) : Bool := l.poison.getLsbD i || (l.dirty.getLsbD i && decide (2 ≤ popc (SMap.get 0 i l.flips)))

/-- The word is poisoned at its home (R345). -/
def State.poisoned (s : State) (pa : Nat) : Bool :=
  let l := s.llcLine pa
  if l.valid.getLsbD (widx pa) then l.lost (widx pa) else s.memBad pa

/-- The lifetime counters by number (R356): removals, warm resets, uncorrectable errors by stack and by die, corrected errors by way and row, replays
and retrains by link, thermal excursions, droops and temperatures by die. -/
inductive Counter where
  | removals
  | warmResets (die : Nat)
  | uncorrectable (die : Nat)
  | badStack (stack : Nat)
  | corrected (way : Nat)
  | correctedRow (row : Nat)
  | replays (link : Nat)
  | retrains (link : Nat)
  | thermal (die : Nat)
  | power
  | droops (die : Nat)
  | temperature (die bin : Nat)
  deriving DecidableEq, Repr, Inhabited

/-- A counter's place among the counters. -/
def Counter.key : Counter → Nat
  | .removals => 0
  | .power => 1
  | .warmResets d => 256 + d % 16
  | .uncorrectable d => 512 + d % 16
  | .badStack k => 640 + k % 16
  | .thermal d => 768 + d % 16
  | .droops d => 896 + d % 16
  | .replays l => 1024 + l % 1024
  | .retrains l => 2048 + l % 1024
  | .temperature d b => 3072 + d % 16 * 16 + b % 16
  | .corrected w => 4096 + w % 2048
  | .correctedRow r => 8192 + r

/-- Count an event. -/
def State.tally (s : State) (k : Counter) : State :=
  { s with counters := SMap.set 0 k.key (SMap.get 0 k.key s.counters + 1) s.counters }

/-- Append to the error log, which keeps its last 65,536 events (R356). -/
def State.log (s : State) (kind place x : Nat) (pc : DWord := 0) : State :=
  { s with errlog := ((({ tick := s.tick, kind := kind, place := place, ctx := x, pc := pc } : LogRec) :: s.errlog).take 65536) }

/-- The DRAM channel of an HBM line: line index k of its frame lies in channel (k div 8) mod 32 (R73), but for a compute frame, whose lines lie in
one (R277). -/
def State.homeChannel (s : State) (pa : Nat) : Nat :=
  if (s.ientry (gfnOf pa)).compute then Config.frameChannel (gfnOf pa) % 32 else pa / 128 % 512 / 8 % 32

/-- The row of an address: a frame has 2,048 bytes, a row, in each channel (R73, R128). A compute frame has 32 rows in its channel (R277). -/
def State.rowOf (s : State) (pa : Nat) : Nat :=
  if (s.ientry (gfnOf pa)).compute then pa / 65536 * 32 + pa % 65536 / 2048 else pa / 65536 * 32 + s.homeChannel pa

/-- A codeword of memory is read: wrong in two symbols, its words are marked poisoned, and one of the translation tables, which no context owns, is
package fatal; a single one is corrected (R341, R345, R355). -/
def State.readCode (s : State) (pa : Nat) : State :=
  if (codeWords pa).all (fun a => SMap.get 0 a s.dramFlip == 0) then s
  else
    let s' := (s.tally (if s.codeBad pa then .badStack (homeStack pa) else .correctedRow (s.rowOf pa))).log (if s.codeBad pa then 5 else 6) (pa / 64 * 64)
      ((s.frameOwner pa).getD 0)
    { s' with fatal := if s.codeBad pa && s.isTableFrame (pa / 65536 * 65536) then some 1 else s.fatal,
              dramBad := if s.codeBad pa then s.dramBad ++ (codeWords pa).filter (fun a => !s.dramBad.contains a) else s.dramBad,
              dramFlip := s.dramFlip.filter (fun kv => kv.1 / 64 ≠ pa / 64) }

/-- A translation is recorded; where no TLB has it, the walk has read its words of the tables (R311, R313, R355). -/
def State.learn (s : State) (c x : Nat) (va : DWord) : State :=
  let gen := (s.ctx x).gen
  if s.dramFlip.isEmpty || ((tlbFind (s.core c).tlb x gen va).or (tlbFind (s.die (dieOf c)).tlb x gen va)).isSome then s.fillTlb c x va
  else ((s.walkWords x va).foldl State.readCode s).fillTlb c x va

/-- A word of memory is written whole, which ends its poison (R345). -/
def State.memWrite (s : State) (pa : Nat) (w : Word) : State :=
  let s := s.readCode pa
  { s with mem := s.mem.setWord (wordAddr pa) w, dramBad := s.dramBad.filter (· ≠ wordAddr pa) }

/-- The ways of a slice a context may allocate in (R316, R347). -/
def State.llcWays (s : State) (x pa : Nat) : List Nat :=
  (setBits (((s.ctx x).reg 0x11).setWidth 16)).filter
    (fun w => !s.quarant.contains (homeStack pa, homeSlice pa, w))

/-! ### Errors found on reads (R341, R345-R347, R356) -/

/-- The lifetime counters are written to non-volatile storage (R356). -/
def State.flushCounters (s : State) : State := { s with flash := s.counters, flashed := s.tick }

/-- The removal of a context begins (R348); a second event of the same context is logged only (R350). -/
def State.beginRemoval (s : State) (x cause : Nat) : State :=
  if (s.ctx x).removal ≠ 0 then s.log (0x200 + cause) 0 x
  else (((s.modCtx x fun y => { y with removal := 1, cause := cause, began := s.tick }).log (0x100 + cause) 0 x).tally .removals).flushCounters

/-- The number of a way among all ways. -/
def wayKey (stack slice way : Nat) : Nat := (stack * 8 + slice) * 16 + way

/-- The cause of a removal for an error charged to a context: the code of ENGINE_FATAL (R345, R346). -/
def causeEngineFatal : Nat := 0x10

/-- An uncorrectable error in dirty data of a line is charged to a context, which is removed; the line's frame and its LLC way leave service when
the removal completes (R346). -/
def State.chargeLine (s : State) (x line : Nat) (way : Option Nat) : State :=
  (s.modCtx x fun y => { y with lost := y.lost ++ [(line, way)] }).beginRemoval x causeEngineFatal

/-- A word of an LLC line is wrong in two bits, and clean (R345). -/
def LlcLine.cleanBad (l : LlcLine) (i : Nat) : Bool := l.valid.getLsbD i && !l.dirty.getLsbD i && decide (2 ≤ popc (SMap.get 0 i l.flips))

/-- A slice reads one word of a line it holds: a one-bit error is corrected and counted; a two-bit error in a clean word drops the word, and
in a dirty one poisons it and removes the owner (R345, R346). Each is logged (R356). -/
def State.checkWord (s : State) (line i : Nat) : State :=
  let l := SMap.get {} line s.llc
  let n := popc (SMap.get 0 i l.flips)
  let b : BitVec 32 := BitVec.twoPow 32 i
  let pa := line * 128
  let k := wayKey (homeStack pa) (homeSlice pa) l.way
  let put := fun (s : State) (l : LlcLine) => { s with llc := SMap.set {} line l s.llc }
  let bad := fun (s : State) => (s.tally (.badStack (homeStack pa))).log 5 (pa + 4 * i) l.owner
  if n = 0 || !l.valid.getLsbD i then s
  else if n = 1 then
    let s := ((put s { l with flips := SMap.set 0 i 0 l.flips }).tally (.corrected k)).log 6 (pa + 4 * i) l.owner
    { s with corrected := SMap.insert k (s.tick :: SMap.get [] k s.corrected) s.corrected }
  else if l.dirty.getLsbD i then
    (bad (put s { l with flips := SMap.set 0 i 0 l.flips, poison := l.poison ||| b })).chargeLine l.owner line (some l.way)
  else
    let l := { l with flips := SMap.set 0 i 0 l.flips, valid := l.valid &&& ~~~b, poison := l.poison &&& ~~~b, data := SMap.erase i l.data }
    bad (if l.valid = 0 then { s with llc := SMap.erase line s.llc } else put s l)

/-- An LLC line is read and written to memory, and no longer held (R316, R317, R338, R347, R351): a poisoned dirty line stays, for the removal of
its owner to discard (R346). A word that is poisoned in memory stays so. -/
def State.cleanLine (s : State) (line : Nat) : State :=
  let s := (setBits (SMap.get {} line s.llc).valid).foldl (fun s i => s.checkWord line i) s
  let l := SMap.get {} line s.llc
  if l.dirty &&& l.poison != 0 then s
  else
    let s := (setBits l.valid).foldl (fun s i =>
      let a := line * 128 + 4 * i
      let w := SMap.get 0 i l.data
      if l.dirty.getLsbD i then s.memWrite a w else { s with mem := s.mem.setWord a w }) s
    { s with llc := SMap.erase line s.llc }

/-- The lines that a way of a slice holds. -/
def State.wayLines (s : State) (stack slice way : Nat) : List Nat :=
  (s.llc.filter (fun kv => homeStack (kv.1 * 128) = stack && homeSlice (kv.1 * 128) = slice && kv.2.way = way)).map (·.1)

/-- A way is quarantined (R347): its lines leave it, the dirty ones written back first; a slice with four already is reported degraded. -/
def State.quarantine (s : State) (stack slice way : Nat) : State :=
  if s.quarant.contains (stack, slice, way) then s
  else if 4 ≤ (s.quarant.filter (fun q => q.1 = stack && q.2.1 = slice)).length then { s with out := s.out ++ [.report 2 (stack * 8 + slice)] }
  else
    let s := { (s.log 7 (wayKey stack slice way) 0) with quarant := s.quarant ++ [(stack, slice, way)] }
    (s.wayLines stack slice way).foldl State.cleanLine s

/-- The way of a line is quarantined where one of its clean words is wrong in two bits (R347), once an action that reads the line is done. -/
def State.quarantineIf (s : State) (line : Nat) (bad : Bool) (act : State → State) : State :=
  let way := (SMap.get {} line s.llc).way
  let s := act s
  if bad then s.quarantine (homeStack (line * 128)) (homeSlice (line * 128)) way else s

/-- The LLC line of an address leaves its slice, which reads it (R341, R347). -/
def State.cleanLlc (s : State) (line : Nat) : State :=
  s.quarantineIf line ((List.range 32).any (SMap.get {} line s.llc).cleanBad) (·.cleanLine line)

/-- A slice reads one word of a line it holds (R341, R345, R347). -/
def State.scrubWord (s : State) (line i : Nat) : State := s.quarantineIf line ((SMap.get {} line s.llc).cleanBad i) (·.checkWord line i)

/-- The home reads the codeword that holds a word: a correctable error is corrected and counted, an uncorrectable one charged (R345, R346). -/
def State.eccRead (s : State) (pa : Nat) : State :=
  if (s.llcLine pa).valid.getLsbD (widx pa) then s.scrubWord (lineOf pa) (widx pa) else s.readCode pa

/-! ### Home words in the LLC (R75, R316) -/

/-- Sets of an LLC slice: 24 MiB in 16 ways of 128-byte lines (R75). -/
def llcSets : Nat := 12288

/-- The lines a slice holds in the set of a line, that line aside (R75; which lines share a set the spec leaves open, assumption 18). -/
def State.llcSet (s : State) (line : Nat) : List (Nat × LlcLine) :=
  s.llc.filter (fun kv => kv.1 ≠ line && kv.1 % 8 = line % 8 && kv.1 / 8 % llcSets = line / 8 % llcSets &&
    homeStack (kv.1 * 128) = homeStack (line * 128))

/-- A line is held, or one is allocated in an allowed way (R316): one that holds no line of the set where there is one, else one whose line
leaves, written back first; none where no way remains. Which way is the device's choice (assumption 6). -/
def State.llcRoom (s : State) (pa : Nat) : Option (State × LlcLine) :=
  let l := s.llcLine pa
  if l.valid != 0 then some (s, l)
  else match s.frameOwner pa with
    | none => none
    | some x => match s.llcWays x pa with
      | [] => none
      | w :: ws =>
        let set := s.llcSet (lineOf pa)
        let pick := fun (u : List Nat) => u.getD (Config.choice s.steps 0 % u.length) w
        match (w :: ws).filter (fun k => !set.any (fun kv => kv.2.way = k)) with
        | [] =>
          let k := pick (w :: ws)
          let t := ((set.filter (fun kv => kv.2.way = k)).map (·.1)).foldl State.cleanLlc s
          if (t.llcSet (lineOf pa)).any (fun kv => kv.2.way = k) || !(t.llcWays x pa).contains k then none else some (t, { owner := x, way := k })
        | u => some (s, { owner := x, way := pick u })

/-- The home slice holds a word, clean, after reading it (R316). -/
def State.fillLlc (s : State) (pa : Nat) : State :=
  if (s.llcLine pa).valid.getLsbD (widx pa) then s
  else match s.llcRoom pa with
    | none => s
    | some (s, l) =>
      let i := widx pa
      let bad := s.memBad pa
      { s with llc := SMap.set {} (lineOf pa) { l with valid := l.valid ||| BitVec.twoPow 32 i,
                                                       poison := if bad then l.poison ||| BitVec.twoPow 32 i else l.poison,
                                                       data := SMap.set 0 i (s.mem.word (wordAddr pa)) l.data } s.llc }

/-- The generation under which code may still be fetched as it was before a write: that of the context whose page grants x (R36). -/
def State.notePast (s : State) (pa : Nat) (w : Word) : State :=
  let e := s.ientry (gfnOf pa)
  let gen := (s.ctx e.ctx).gen
  let old := s.homeWord pa
  if isWindowPa pa || !e.owned || e.perm &&& permX == 0 || old == w then s
  else
    let p : PastWord := { ctx := e.ctx, gen := gen, pa := wordAddr pa, old := old }
    if s.past.contains p then s else { s with past := p :: s.past.filter (fun q => q.ctx ≠ e.ctx || q.gen == gen) }

/-- Put a word at its home: in the LLC, dirty, or in memory where no way remains (R75, R316). A whole-word write ends
the word's poison (R345). -/
def State.putHome (s : State) (pa : Nat) (w : Word) : State :=
  match s.llcRoom pa with
  | none => s.memWrite pa w
  | some (s, l) =>
    let i := widx pa
    let b : BitVec 32 := BitVec.twoPow 32 i
    { s with llc := SMap.set {} (lineOf pa) { l with valid := l.valid ||| b, dirty := l.dirty ||| b, poison := l.poison &&& ~~~b,
                                                     flips := SMap.set 0 i 0 l.flips, data := SMap.set 0 i w l.data } s.llc }

/-! ### Monitor entries (R184-R188) -/

/-- The condition of a wait (R184): the word, the operand, and whether a write was applied after registration. -/
def waitCond (cmp : BitVec 3) (w x : Word) (written : Bool) : Bool :=
  match cmp.toNat with
  | 0 => w == x
  | 1 => w != x
  | 2 => w.slt x
  | 3 => !w.slt x
  | 4 => w.ult x
  | 5 => !w.ult x
  | 6 => written
  | _ => w &&& x == x

/-- Send a wait's reply towards its thread (R185, R186). -/
def State.replyWait (s : State) (ok : Bool) (n : Nat) : State :=
  match s.waits.find? (·.id = n) with
  | none => s
  | some w => { s with net := s.net ++ [{ who := w.who, ctx := w.ctx, gen := w.gen, va := w.va, pa := w.pa, req := .wait n,
                                          hw := 0, reply := some (.waited ok), since := s.tick }] }

/-- Send a reply to every wait of an entry. -/
def State.replyEntry (s : State) (e : MonEntry) : State :=
  (e.waiters.flatMap (·.waits)).foldl (fun s n => s.replyWait true n) s

/-- Evaluate a list of entries against a write of a word: those that stay, and those satisfied (R186). -/
def evalEntries (word : Nat) (v : Word) (l : List MonEntry) : List MonEntry × List MonEntry :=
  let go := fun (e : MonEntry) => e.word == word && waitCond e.cmp v e.x true
  ((l.filter (fun e => !go e)).map (fun e => if e.word = word then { e with changed := true } else e), l.filter go)

/-- The counter of the spill filter for a word: that of a hash of its line, which the spec leaves to the device, in its slice (R187). -/
def filterOf (word : Nat) : Nat := homeSlice (4 * word) * 65536 + word / 32 % 65536

/-- The spill filter of a list of spilled entries (R187). -/
def spillFilter (l : List MonEntry) : SMap Nat := l.foldl (fun m e => SMap.set 0 (filterOf e.word) (SMap.get 0 (filterOf e.word) m + 1) m) []

/-- The spilled entries of a stack, with the counters that mark their lines. -/
def Stack.setSpilled (t : Stack) (l : List MonEntry) : Stack := { t with spilled := l, filter := spillFilter l }

/-- The fallback region of a stack, 16 MiB, takes no more: 64 bytes an entry and 8 bytes a logged write (R188, assumption 50). -/
def Stack.fallbackFull (t : Stack) : Bool := decide (2 ^ 24 < 64 * t.fallback.length + 8 * t.wlog.length + 64)

/-- A write to a line marked as fallback waits at its slice while the region is full (R188). -/
def State.writeWaits (s : State) (pa : Nat) : Bool :=
  let t := s.stack (homeStack pa)
  t.fbLines.contains (lineOf pa) && t.fallbackFull

/-- Evaluate every entry of a word at a write (R186), the spilled ones too where the line hits a counter that is not zero (R187), and log a
write of a line on the fallback path (R188). -/
def State.monitor (s : State) (pa : Nat) (v : Word) : State :=
  let k := homeStack pa
  let st := s.stack k
  let word := pa / 4
  let (keep, done) := evalEntries word v (SMap.get [] (homeSlice pa) st.monitor)
  let (skeep, sdone) := if SMap.get 0 (filterOf word) st.filter = 0 then (st.spilled, []) else evalEntries word v st.spilled
  if done.isEmpty && sdone.isEmpty && !(keep ++ skeep).any (·.word = word) && !st.fbLines.contains (lineOf pa) then s
  else
    let s := s.modStack k fun st => { st.setSpilled skeep with
      monitor := SMap.set [] (homeSlice pa) keep st.monitor,
      wlog := if st.fbLines.contains (lineOf pa) then st.wlog ++ [(word, v)] else st.wlog }
    (done ++ sdone).foldl State.replyEntry s

/-- The home applies a write of a whole word (R147): the value, then the monitor entries of the word. -/
def State.applyHome (s : State) (pa : Nat) (w : Word) : State := ((s.notePast pa w).putHome pa w).monitor (wordAddr pa) w

/-! ### L2 and L1 -/

/-- The L2 line of a die. -/
def Die.line (d : Die) (pa : Nat) : L2Line := SMap.get {} (lineOf pa) d.l2

/-- The word a die's L2 holds. -/
def Die.word (d : Die) (pa : Nat) : Option Word :=
  let l := d.line pa
  if l.valid.getLsbD (widx pa) then some (SMap.get 0 (widx pa) l.data) else none

/-- The die's L2 holds the word dirty. -/
def Die.dirtyAt (d : Die) (pa : Nat) : Bool := (d.line pa).dirty.getLsbD (widx pa)

/-- The word is poisoned in the die's L2, which it then never leaves (R346). -/
def Die.lostAt (d : Die) (pa : Nat) : Bool := (d.line pa).poison.getLsbD (widx pa)

/-- Put a line of a die's L2. -/
def Die.setLine (d : Die) (line : Nat) (l : L2Line) : Die := { d with l2 := SMap.set {} line l d.l2 }

/-- Put a word into a die's L2, dirty or clean. -/
def Die.putWord (d : Die) (pa : Nat) (w : Word) (dirty pin : Bool) : Die :=
  let l := d.line pa
  let b : BitVec 32 := BitVec.twoPow 32 (widx pa)
  d.setLine (lineOf pa) { l with valid := l.valid ||| b, dirty := if dirty then l.dirty ||| b else l.dirty,
                                 pinned := if pin then l.pinned ||| b else l.pinned, data := SMap.set 0 (widx pa) w l.data }

/-- Clear words of an L2 line by mask. -/
def L2Line.clear (l : L2Line) (m : BitVec 32) : L2Line :=
  { valid := l.valid &&& ~~~m, dirty := l.dirty &&& ~~~m, pinned := l.pinned &&& ~~~m, poison := l.poison &&& ~~~m,
    data := l.data.filter (fun kv => !m.getLsbD kv.1) }

/-- The die's L2 no longer holds a word. -/
def Die.dropWord (d : Die) (pa : Nat) : Die := d.setLine (lineOf pa) ((d.line pa).clear (BitVec.twoPow 32 (widx pa)))

/-- A word of a die's L2 becomes clean. -/
def Die.cleanWord (d : Die) (pa : Nat) : Die :=
  let l := d.line pa
  let b : BitVec 32 := ~~~BitVec.twoPow 32 (widx pa)
  d.setLine (lineOf pa) { l with dirty := l.dirty &&& b, pinned := l.pinned &&& b }

/-- The presence vector of a line (R77). -/
def State.presence (s : State) (pa : Nat) : BitVec 16 :=
  maskOf ((List.range 16).filter (fun d => ((s.die d).line pa).valid != 0))

/-- Clear a word of every L1 line of its physical line; a line without words is not held. -/
def l1Drop (pa : Nat) (l : List L1Line) : List L1Line :=
  (l.map (fun e => if e.pline = lineOf pa then { e with valid := e.valid &&& ~~~BitVec.twoPow 32 (widx pa),
                                                        data := SMap.erase (widx pa) e.data } else e)).filter (·.valid != 0)

/-- Every cached copy of a word is invalidated, in the L2s and the L1s below them (R77, R81). It reaches every L1, also one whose die's L2 has
given up the line meanwhile, which the spec does not say (DESIGN CHOICE, assumption 51). -/
def State.dropCopies (s : State) (pa : Nat) : State :=
  let s := (s.dies.map (·.1)).foldl (fun s d => if ((s.die d).word pa).isSome then s.modDie d (·.dropWord pa) else s) s
  (s.cores.map (·.1)).foldl (fun s c =>
    if (s.core c).l1.any (fun e => e.pline = lineOf pa && e.valid.getLsbD (widx pa)) then
      s.modCore c fun x => { x with l1 := l1Drop pa x.l1 } else s) s

/-- Every cached copy of a word takes a new value (R83, upd = 1). -/
def State.updateCopies (s : State) (pa : Nat) (w : Word) : State :=
  let s := (s.dies.map (·.1)).foldl (fun s d =>
    if ((s.die d).word pa).isSome then s.modDie d (fun x => (x.putWord pa w false false)) else s) s
  (s.cores.map (·.1)).foldl (fun s c =>
    if (s.core c).l1.any (fun e => e.pline = lineOf pa && e.valid.getLsbD (widx pa)) then
      s.modCore c fun x => { x with l1 := x.l1.map (fun e =>
        if e.pline = lineOf pa && e.valid.getLsbD (widx pa) then { e with data := SMap.set 0 (widx pa) w e.data } else e) }
    else s) s

/-- Die d and its stack take no request: from step 2 of its warm reset until it is re-admitted, or offline (R351, R354). -/
def State.dieDown (s : State) (d : Nat) : Bool := (s.die d).offline || decide (2 ≤ (s.die d).reset)

/-- Requests homed at a physical address receive error reply 0x05 (R353). -/
def State.homeDown (s : State) (pa : Nat) : Bool := !isWindowPa pa && s.dieDown (homeStack pa)

/-- A word left a die's L2 for its home: the releases that captured it wait for it no longer (R82). -/
def dropReleased (word : Nat) (q : List Entry) : List Entry :=
  q.map (fun e => match e.phase with
    | .releasing ws => { e with phase := .releasing (ws.filter (· ≠ word)) }
    | _ => e)

/-- Tell the queues of a die that a dirty word reached its home. -/
def State.wordReleased (s : State) (d word : Nat) : State :=
  (((s.cores.map (·.1)).filter (fun c => dieOf c = d))).foldl (fun s c =>
    s.modCore c fun y => { y with queues := y.queues.map (fun kv => (kv.1, dropReleased word kv.2)) }) s

/-- A dirty word of a die's L2 reaches its home and stays there clean (R82, R83): the home applies it, and releases that wait for it go
on. A poisoned one stays (R346). -/
def State.writeBack (s : State) (d pa : Nat) : State :=
  match (s.die d).word pa with
  | some w => if (s.die d).dirtyAt pa && !(s.die d).lostAt pa then ((s.modDie d (·.cleanWord pa)).applyHome pa w).wordReleased d (pa / 4) else s
  | none => s

/-- Ways of a set of an L2, and sets: the set of a line is PA[20:7] (R75). -/
def l2Ways : Nat := 16
/-- See `l2Ways`. -/
def l2Sets : Nat := 16384

/-- A line leaves a die's L2: its dirty words reach their homes first (R75). -/
def State.evictL2 (s : State) (d line : Nat) : State :=
  ((setBits (SMap.get {} line (s.die d).l2).dirty).foldl (fun s i => s.writeBack d (line * 128 + 4 * i)) s).modDie d (·.setLine line {})

/-- Room for the line of an address in a die's L2: where its set is full another line leaves, pinned ones and those with dirty words
whose home takes none aside (R75, R353). Which line is the device's choice (assumption 6). -/
def State.l2Room (s : State) (d pa : Nat) : State :=
  if ((s.die d).line pa).valid != 0 then s
  else
    let set := (s.die d).l2.filter (fun kv => kv.1 ≠ lineOf pa && kv.1 % l2Sets = lineOf pa % l2Sets)
    if set.length < l2Ways then s
    else match set.filter (fun kv => kv.2.pinned = 0 && kv.2.poison = 0 && (kv.2.dirty = 0 || !s.homeDown (kv.1 * 128))) with
      | [] => s
      | k :: ks => s.evictL2 d (((k :: ks).getD (Config.choice s.steps 4 % (ks.length + 1)) k).1)

/-- A word enters a die's L2, dirty or clean. -/
def State.putL2 (s : State) (d pa : Nat) (w : Word) (dirty pin : Bool) : State := (s.l2Room d pa).modDie d (·.putWord pa w dirty pin)

/-- The dies whose L2 holds a word dirty. Where several do, the order of the recall is the device's (assumption 6). -/
def State.dirtyDies (s : State) (pa : Nat) : List Nat :=
  let l := (s.dies.map (·.1)).filter (fun d => (s.die d).dirtyAt pa)
  match l with
  | [] => []
  | [d] => [d]
  | l => l.rotateLeft (Config.choice s.steps 1 % l.length)

/-- The home recalls a word's dirty copies (R83). -/
def State.recall (s : State) (pa : Nat) : State := (s.dirtyDies pa).foldl (fun s d => s.writeBack d pa) s

/-- The home reads a word, once its dirty copies are recalled (R83, R345). -/
def State.eccCheck (s : State) (pa : Nat) : State := if (s.dirtyDies pa).isEmpty then s.eccRead pa else s

/-- A whole-word write at the home that invalidates every cached copy (R81): stores at package scope and beyond,
physical stores, engine, Staithe, collective and device writes. The home recalls dirty copies first, which R81 leaves open (DESIGN CHOICE,
assumption 51). -/
def State.storeHome (s : State) (pa : Nat) (w : Word) : State := ((s.recall pa).dropCopies pa).applyHome pa w

/-- A word with some bytes replaced: mask of byte lanes, bytes in place. -/
def mergeBytes (old new : Word) (be : BitVec 4) : Word :=
  let m : Word := maskOf ((setBits be).flatMap (fun i => span (8 * i) 8))
  (old &&& ~~~m) ||| (new &&& m)

/-- A write with byte enables at the home (R76). -/
def State.storeHomeBytes (s : State) (pa : Nat) (w : Word) (be : BitVec 4) : State :=
  let s := s.recall pa
  s.storeHome pa (mergeBytes (s.homeWord pa) w be)

/-- A list of words written at the home from an address on. -/
def State.storeHomeWords (s : State) (pa : Nat) : List Word → State
  | [] => s
  | w :: ws => State.storeHomeWords (s.storeHome pa w) (pa + 4) ws

/-- The bytes of a store within its first word: the word with the bytes in place, and the byte enables. -/
def partialWord (pa size : Nat) (data : Nat) : Word × BitVec 4 :=
  let off := pa % 4
  (BitVec.ofNat 32 (data % 2 ^ (8 * size) * 2 ^ (8 * off)), maskOf (span off size))

/-- A store of 1 to 16 bytes at the home (R76, R81). -/
def State.storeHomeData (s : State) (pa size data : Nat) : State :=
  if size < 4 then let p := partialWord pa size data; s.storeHomeBytes pa p.1 p.2
  else s.storeHomeWords pa (wordsOf (size / 4) data)

/-- The value of the words at the home, up to 16 bytes. -/
def State.homeData (s : State) (pa size : Nat) : Nat :=
  if size < 4 then ((s.homeWord pa).toNat >>> (8 * (pa % 4))) % 2 ^ (8 * size)
  else ofWords ((wordsAt pa size).map s.homeWord)

/-! ### Stores into L1 and L2 (R76, R81) -/

/-- A store updates the valid words of its own core's L1. -/
def State.storeL1 (s : State) (c pa size data : Nat) : State :=
  let upd := fun (l : List L1Line) (a : Nat) =>
    let v := if size < 4 then partialWord pa size data
             else (BitVec.ofNat 32 (data >>> (8 * (a - pa))), (15 : BitVec 4))
    l.map (fun e => if e.pline = lineOf a && e.valid.getLsbD (widx a) then
      { e with data := SMap.set 0 (widx a) (mergeBytes (SMap.get 0 (widx a) e.data) v.1 v.2) e.data } else e)
  let l := (s.core c).l1
  let l' := (wordsAt pa size).foldl upd l
  if l' = l then s else s.modCore c fun x => { x with l1 := l' }

/-- A store of whole words enters the die's L2; a byte or halfword merges into its word where that is valid (R76). -/
def State.storeL2 (s : State) (d pa size data : Nat) (pin : Bool) : State :=
  if size < 4 then
    match (s.die d).word pa with
    | some w => let p := partialWord pa size data; s.modDie d (fun x => x.putWord pa (mergeBytes w p.1 p.2) true pin)
    | none => s
  else
    ((wordsAt pa size).zip (wordsOf (size / 4) data)).foldl (fun s p => s.putL2 d p.1 p.2 true pin) s

/-- A store can complete in the die's L2 without its home (R76, R353). -/
def Die.storeHits (d : Die) (pa size : Nat) : Bool :=
  if size < 4 then (d.word pa).isSome else (wordsAt pa size).all (fun a => (d.line a).valid != 0)

/-- Lines of one set of a die's L2 that it may pin (R353). -/
def pinnedWays : Nat := 8

/-- A store may pin its line in the die's L2 (R353): it is pinned already, or its set, PA[20:7] (R75), has pinned fewer than 8 ways. -/
def Die.pinRoom (d : Die) (pa : Nat) : Bool :=
  (d.line pa).pinned != 0 ||
  decide ((d.l2.filter (fun kv => kv.1 % l2Sets = lineOf pa % l2Sets && kv.2.pinned != 0)).length < pinnedWays)

/-! ### Loads along the path (R78-R80) -/

/-- The L1 line of a virtual line under a context and generation. -/
def Core.l1Line (y : Core) (x : Nat) (gen : BitVec 16) (va : DWord) : Option L1Line :=
  y.l1.find? (fun e => e.ctx = x && e.gen == gen && e.vline = va.toNat % 2 ^ 48 / 128)

/-- The words of an access, all valid in a line: their values. -/
def lineWords (valid : BitVec 32) (data : SMap Word) (a size : Nat) : Option (List Word) :=
  let is := (wordsAt a size).map widx
  if is.all (fun i => valid.getLsbD i) then some (is.map (fun i => SMap.get 0 i data)) else none

/-- Lines of a core's L1: 128 KiB (R75). -/
def l1Lines : Nat := 1024

/-- Fill words into a core's L1; an L1 holds a physical line under one virtual address (R77). A full L1 gives up the line it filled first
(assumption 18). -/
def State.fillL1 (s : State) (c x : Nat) (gen : BitVec 16) (va : DWord) (pa : Nat) (ws : List (Nat × Word)) : State :=
  s.modCore c fun y =>
    let vl := va.toNat % 2 ^ 48 / 128
    let old := (y.l1.find? (fun e => e.ctx = x && e.gen == gen && e.vline = vl && e.pline = lineOf pa)).getD
      { ctx := x, gen := gen, vline := vl, pline := lineOf pa, valid := 0, data := [] }
    let line := ws.foldl (fun (e : L1Line) p => { e with valid := e.valid ||| BitVec.twoPow 32 p.1, data := SMap.set 0 p.1 p.2 e.data }) old
    { y with l1 := (line :: y.l1.filter (fun e => e.pline ≠ lineOf pa && !(e.ctx = x && e.gen == gen && e.vline = vl))).take l1Lines }

/-- The value of a word as the issuing die sees it at the home: its own dirty copy where it holds one (R80). -/
def State.freshWord (s : State) (d pa : Nat) : Word :=
  if (s.die d).dirtyAt pa then ((s.die d).word pa).getD 0 else s.homeWord pa

/-- A line of an active Delf compute region (R284): it fills no L2 or L1, and writes to it are applied at the home. -/
def State.activeLine (s : State) (pa : Nat) : Bool :=
  s.seqs.any (fun kv => kv.2.region.any (fun g => decide (g.2 ≤ pa ∧ pa < g.2 + 32768)))

/-- What a read that may reach the home finds. -/
inductive Found where
  /-- The words, and the state with its fills. -/
  | words (ws : List Word) (s : State)
  /-- Word i is poisoned, and the state once it is found (R345). -/
  | poisoned (i : Nat) (s : State)
  /-- The home answers with an error reply (R353). -/
  | down
  deriving Repr, Inhabited

/-- Read words at the home and fill the LLC, the die's L2 and the core's L1 with them; a dirty word stays (R79, R80). -/
def State.readHomeFill (s : State) (c x : Nat) (gen : BitVec 16) (va : DWord) (pa size : Nat) : Found :=
  let d := dieOf c
  let as := wordsAt pa size
  let far := as.filter (fun a => !(s.die d).dirtyAt a)
  if s.homeDown pa && !far.isEmpty then .down
  else
  let s := far.foldl State.eccRead s
  match as.findIdx? (fun a => if (s.die d).dirtyAt a then (s.die d).lostAt a else s.poisoned a) with
  | some i => .poisoned i s
  | none =>
  if s.activeLine pa then .words (as.map (s.freshWord d)) s
  else
    let s := as.foldl (fun s a => s.fillLlc a) s
    let ws := as.map (s.freshWord d)
    let s := (as.zip ws).foldl (fun s p => if (s.die d).dirtyAt p.1 then s else s.putL2 d p.1 p.2 false false) s
    .words ws (s.fillL1 c x gen va pa ((as.zip ws).map (fun p => (widx p.1, p.2))))

/-- Clean copies of a line may have left L1 and L2 by now (R78, assumption 6). -/
def State.maybeEvict (s : State) (c x : Nat) (gen : BitVec 16) (va : DWord) (pa : Nat) : State :=
  let s := if ((s.core c).l1Line x gen va).isSome && Config.evicted s.steps 1 then
      s.modCore c fun y => { y with l1 := y.l1.filter (fun e => !(e.ctx = x && e.gen == gen && e.vline = va.toNat % 2 ^ 48 / 128)) }
    else s
  let l := (s.die (dieOf c)).line pa
  if (l.valid &&& ~~~l.dirty) != 0 && Config.evicted s.steps 2 then
    s.modDie (dieOf c) fun d => d.setLine (lineOf pa) (l.clear (l.valid &&& ~~~l.dirty))
  else s

/-- A plain load's words from the first level on its path that holds them all valid (R78), bypassing L1 where asked
(R93), with the fills on the way back. -/
def State.pathRead (s : State) (c x : Nat) (gen : BitVec 16) (va : DWord) (pa size : Nat) (useL1 : Bool) : Found :=
  let s := s.maybeEvict c x gen va pa
  let hit := if useL1 then ((s.core c).l1Line x gen va).bind (fun e => lineWords e.valid e.data pa size) else none
  match hit with
  | some ws => .words ws s
  | none =>
    let l := (s.die (dieOf c)).line pa
    match (wordsAt pa size).findIdx? (s.die (dieOf c)).lostAt with
    | some i => .poisoned i s
    | none =>
    match lineWords l.valid l.data pa size with
    | some ws => .words ws (s.fillL1 c x gen va pa (((wordsAt pa size).zip ws).map (fun p => (widx p.1, p.2))))
    | none => s.readHomeFill c x gen va pa size

/-! ### Releases and acquires (R82) -/

/-- The dirty words of a context in a die's L2, by word number. -/
def State.dirtyWords (s : State) (x d : Nat) : List Nat :=
  (s.die d).l2.flatMap (fun kv =>
    if kv.2.dirty != 0 && s.frameOwner (kv.1 * 128) = some x then (setBits kv.2.dirty).map (fun i => kv.1 * 32 + i) else [])

/-- The acquire at quad or die scope: the core's L1 words of the context are invalidated. -/
def State.acquireL1 (s : State) (c x : Nat) : State :=
  if (s.core c).l1.any (·.ctx = x) then s.modCore c fun y => { y with l1 := y.l1.filter (·.ctx ≠ x) } else s

/-- The acquire at package scope also invalidates the clean words of the context in the die's L2. -/
def State.acquireL2 (s : State) (c x : Nat) : State :=
  let d := dieOf c
  (((s.die d).l2.filter (fun kv => (kv.2.valid &&& ~~~kv.2.dirty) != 0 && s.frameOwner (kv.1 * 128) = some x)).map (·.1)).foldl
    (fun s line => s.modDie d fun y =>
      let l := SMap.get {} line y.l2
      y.setLine line (l.clear (l.valid &&& ~~~l.dirty))) s

/-- The acquire actions of a scope (R82). -/
def State.acquire (s : State) (c x scope : Nat) : State :=
  if scope ≤ 1 then s
  else if scope ≤ 3 then s.acquireL1 c x
  else (s.acquireL1 c x).acquireL2 c x

/-- A release at package scope made in one step (R82): every dirty word of the context in a die's L2 reaches its home. False where a
home takes no request, whose words stay pinned (R353). -/
def State.releaseNow (s : State) (x d : Nat) : State × Bool :=
  (s.dirtyWords x d).foldl (fun acc w =>
    if acc.1.homeDown (4 * w) then (acc.1, false) else (acc.1.writeBack d (4 * w), acc.2)) (s, true)

/-- The physical base of a logical core's save area: entry l of savetab (R326), read at its home. A table in a frame that the context does
not own is not read (R6): it gives 1, where no save area may lie. -/
def State.saveArea (s : State) (x l : Nat) : Nat :=
  let a := ((s.ctx x).reg 0x18).toNat + 8 * l
  if s.ownsFrame x a && s.ownsFrame x (a + 4) then (s.homeWord a).toNat + 2 ^ 32 * (s.homeWord (a + 4)).toNat else 1

end Sys2Proof.Machine
end

