-- ==== Sys2Proof/Machine/Float.lean ====
section
/-! DEFINITION. Floating-point arithmetic as exact integer arithmetic with one rounding at the end: the formats of
R225, the rounding modes of R226, the sums of R239, the special functions of R250 and the DS8 and DS4 codes of
R228-R232. A pattern is the natural number of its bits. -/

namespace Sys2Proof.Machine

/-! ### Formats and values -/

/-- A floating-point format by the widths of its exponent and mantissa fields (R225). -/
structure Fmt where
  eb : Nat
  mb : Nat
  deriving DecidableEq, Repr, Inhabited

/-- FP32. -/
def Fmt.f32 : Fmt := ⟨8, 23⟩

/-- FP16. -/
def Fmt.f16 : Fmt := ⟨5, 10⟩

/-- BF16. -/
def Fmt.bf16 : Fmt := ⟨8, 7⟩

/-- The exponent bias. -/
def Fmt.bias (f : Fmt) : Nat := 2 ^ (f.eb - 1) - 1

/-- The exponent of the unit of the smallest subnormal. -/
def Fmt.low (f : Fmt) : Int := 1 - (f.bias : Int) - (f.mb : Int)

/-- The magnitude bits of infinity. -/
def Fmt.infBits (f : Fmt) : Nat := (2 ^ f.eb - 1) <<< f.mb

/-- The sign bit's weight. -/
def Fmt.signBit (f : Fmt) : Nat := 1 <<< (f.eb + f.mb)

/-- The canonical NaN (R225). -/
def Fmt.canonNaN (f : Fmt) : Nat := f.infBits + 1 <<< (f.mb - 1)

/-- A value: NaN, a signed infinity, or (-1)^neg * m * 2^e, with a zero m a signed zero. -/
inductive FVal where
  | nan
  | inf (neg : Bool)
  | fin (neg : Bool) (m : Nat) (e : Int)
  deriving DecidableEq, Repr, Inhabited

/-- The value of a pattern (R225, R226: subnormals at their value). -/
def Fmt.unpack (f : Fmt) (p : Nat) : FVal :=
  let neg := p.testBit (f.eb + f.mb)
  let e := (p >>> f.mb) % 2 ^ f.eb
  let m := p % 2 ^ f.mb
  if e = 2 ^ f.eb - 1 then (if m = 0 then .inf neg else .nan)
  else if e = 0 then .fin neg m f.low
  else .fin neg (2 ^ f.mb + m) (f.low + (e : Int) - 1)

/-- Rounding modes (R226), and the truncation of the special functions (R250), whose overflow gives infinity. -/
inductive Rnd where
  | ne
  | z
  | up
  | dn
  | satne
  | special
  deriving DecidableEq, Repr, Inhabited

/-- The mode an aux value names (R226); aux 5-7 are never reached, since they trap ILLEGAL. -/
def Rnd.ofAux (r : BitVec 3) : Rnd :=
  match r.toNat with
  | 0 => .ne
  | 1 => .z
  | 2 => .up
  | 3 => .dn
  | _ => .satne

/-- Whether a magnitude is increased by one unit: the half bit, whether anything lies below it, and the unit's parity. -/
def Rnd.away (r : Rnd) (neg half rest odd : Bool) : Bool :=
  match r with
  | .ne | .satne => half && (rest || odd)
  | .z | .special => false
  | .up => !neg && (half || rest)
  | .dn => neg && (half || rest)

/-- Whether overflow gives infinity (and not the largest finite value). -/
def Rnd.overflowsToInf (r : Rnd) (neg : Bool) : Bool :=
  match r with
  | .ne | .special => true
  | .z | .satne => false
  | .up => !neg
  | .dn => neg

/-- The number of bits of a natural number. -/
def bitLen (n : Nat) : Nat := if n = 0 then 0 else n.log2 + 1

/-- A sign put on magnitude bits. -/
def Fmt.signed (f : Fmt) (neg : Bool) (bits : Nat) : Nat := if neg then f.signBit + bits else bits

/-- Round (-1)^neg * (m + t) * 2^e, with t in (0, 1) exactly when sticky, to a pattern. With sticky, m must have more
bits than the mantissa. -/
def Fmt.round (f : Fmt) (r : Rnd) (neg : Bool) (m : Nat) (e : Int) (sticky : Bool) : Nat :=
  if m = 0 && !sticky then f.signed neg 0 else
  let q : Int := max (e + (bitLen m : Int) - ((f.mb : Int) + 1)) f.low
  let sh := (q - e).toNat
  let big := if e ≥ q then m <<< (e - q).toNat else m >>> sh
  let half := decide (e < q) && m.testBit (sh - 1)
  let rest := sticky || (decide (e < q) && m % 2 ^ (sh - 1) != 0)
  let up := r.away neg half rest (big % 2 == 1)
  let bits := ((q - f.low).toNat <<< f.mb) + big + (if up then 1 else 0)
  if f.infBits ≤ bits then f.signed neg (if r.overflowsToInf neg then f.infBits else f.infBits - 1)
  else f.signed neg bits

/-- A value as a pattern, rounded in a mode (R226, R253). -/
def Fmt.pack (f : Fmt) (r : Rnd) : FVal → Nat
  | .nan => f.canonNaN
  | .inf neg => f.signed neg (if r = .satne then f.infBits - 1 else f.infBits)
  | .fin neg m e => f.round r neg m e false

/-- The value with the other sign. -/
def FVal.neg : FVal → FVal
  | .nan => .nan
  | .inf s => .inf (!s)
  | .fin s m e => .fin (!s) m e

/-- The exact product (R239, R244). -/
def FVal.mul : FVal → FVal → FVal
  | .nan, _ => .nan
  | _, .nan => .nan
  | .inf s, .inf t => .inf (s != t)
  | .inf s, .fin t m _ => if m = 0 then .nan else .inf (s != t)
  | .fin s m _, .inf t => if m = 0 then .nan else .inf (s != t)
  | .fin s m e, .fin t n k => .fin (s != t) (m * n) (e + k)

/-- A value is a NaN. -/
def FVal.isNaN : FVal → Bool
  | .nan => true
  | _ => false

/-- A value is the infinity of a sign. -/
def FVal.isInf (neg : Bool) : FVal → Bool
  | .inf s => s == neg
  | _ => false

/-- A value is negative zero. -/
def FVal.isNegZero : FVal → Bool
  | .fin s m _ => s && m == 0
  | _ => false

/-- A finite value in units of 2^e, for an e no greater than its own exponent. -/
def FVal.scaled (e : Int) : FVal → Int
  | .fin s m k => let x : Int := ((m <<< (k - e).toNat : Nat) : Int); if s then -x else x
  | _ => 0

/-- The exponent of a finite value. -/
def FVal.exp : FVal → Int
  | .fin _ _ e => e
  | _ => 0

/-- The least exponent of a list of values. -/
def leastExp : List FVal → Int
  | [] => 0
  | [x] => x.exp
  | x :: xs => min x.exp (leastExp xs)

/-- The exact sum (R239, R226 for the sign of zero). -/
def FVal.sum (ts : List FVal) : FVal :=
  if ts.any FVal.isNaN || (ts.any (FVal.isInf false) && ts.any (FVal.isInf true)) then .nan
  else if ts.any (FVal.isInf false) then .inf false
  else if ts.any (FVal.isInf true) then .inf true
  else
    let e := leastExp ts
    let x : Int := ts.foldl (fun acc t => acc + t.scaled e) 0
    if x = 0 then .fin (ts.all FVal.isNegZero) 0 e else .fin (decide (x < 0)) x.natAbs e

/-- A sum rounded once to nearest (R239). -/
def Fmt.sumNe (f : Fmt) (ts : List FVal) : Nat := f.pack .ne (FVal.sum ts)

/-! ### Arithmetic on patterns (R242-R248) -/

/-- round_ne(a + b). -/
def Fmt.add (f : Fmt) (a b : Nat) : Nat := f.sumNe [f.unpack a, f.unpack b]

/-- round_ne(a - b). -/
def Fmt.sub (f : Fmt) (a b : Nat) : Nat := f.sumNe [f.unpack a, (f.unpack b).neg]

/-- round_ne(a * b). -/
def Fmt.mul (f : Fmt) (a b : Nat) : Nat := f.pack .ne ((f.unpack a).mul (f.unpack b))

/-- round_ne(a * b + c), rounded once (R243). -/
def Fmt.fma (f : Fmt) (a b c : Nat) : Nat := f.sumNe [(f.unpack a).mul (f.unpack b), f.unpack c]

/-- The exact two-term dot product rounded once to FP32 (R247). -/
def Fmt.dot2 (f : Fmt) (a0 a1 b0 b1 : Nat) : Nat :=
  Fmt.f32.sumNe [(f.unpack a0).mul (f.unpack b0), (f.unpack a1).mul (f.unpack b1)]

/-- The quotient of two finite non-zero magnitudes, rounded in a mode. -/
def Fmt.quot (f : Fmt) (r : Rnd) (neg : Bool) (m : Nat) (e : Int) (n : Nat) (k : Int) : Nat :=
  let sh := bitLen n + f.mb + 4
  f.round r neg ((m <<< sh) / n) (e - k - sh) ((m <<< sh) % n != 0)

/-- round_ne(a / b), correctly rounded (R242, R244). -/
def Fmt.div (f : Fmt) (a b : Nat) : Nat :=
  match f.unpack a, f.unpack b with
  | .nan, _ => f.canonNaN
  | _, .nan => f.canonNaN
  | .inf _, .inf _ => f.canonNaN
  | .inf s, .fin t _ _ => f.signed (s != t) f.infBits
  | .fin s _ _, .inf t => f.signed (s != t) 0
  | .fin s m e, .fin t n k =>
    if n = 0 then (if m = 0 then f.canonNaN else f.signed (s != t) f.infBits)
    else if m = 0 then f.signed (s != t) 0
    else f.quot .ne (s != t) m e n k

/-- The place of a pattern that is no NaN in the order of values, with -0 below +0 (R242). -/
def Fmt.rank (f : Fmt) (p : Nat) : Int :=
  let mag : Int := ((p % f.signBit : Nat) : Int)
  if p.testBit (f.eb + f.mb) then -mag - 1 else mag

/-- The lesser (R242). -/
def Fmt.min (f : Fmt) (a b : Nat) : Nat :=
  if (f.unpack a).isNaN || (f.unpack b).isNaN then f.canonNaN else if f.rank a ≤ f.rank b then a else b

/-- The greater (R242). -/
def Fmt.max (f : Fmt) (a b : Nat) : Nat :=
  if (f.unpack a).isNaN || (f.unpack b).isNaN then f.canonNaN else if f.rank a ≤ f.rank b then b else a

/-- a * 2^m for n clamped to -512..511 (R248). -/
def Fmt.scale (f : Fmt) (a : Nat) (n : Int) : Nat :=
  match f.unpack a with
  | .fin s m e => f.round .ne s m (e + Max.max (-512) (Min.min 511 n)) false
  | v => f.pack .ne v

/-- The sign bit inverted; canonical NaN for a NaN (R249). -/
def Fmt.neg (f : Fmt) (a : Nat) : Nat :=
  if (f.unpack a).isNaN then f.canonNaN else Nat.xor a f.signBit

/-- The sign bit cleared; canonical NaN for a NaN (R249). -/
def Fmt.abs (f : Fmt) (a : Nat) : Nat := if (f.unpack a).isNaN then f.canonNaN else a % f.signBit

/-- A magnitude m * 2^e rounded to an integer in a mode. -/
def roundInt (r : Rnd) (neg : Bool) (m : Nat) (e : Int) : Nat :=
  if 0 ≤ e then m <<< e.toNat
  else
    let sh := (-e).toNat
    let big := m >>> sh
    big + (if r.away neg (m.testBit (sh - 1)) (m % 2 ^ (sh - 1) != 0) (big % 2 == 1) then 1 else 0)

/-- Rounded to an integral value; a zero result takes the sign of a (R249). -/
def Fmt.rint (f : Fmt) (r : Rnd) (a : Nat) : Nat :=
  match f.unpack a with
  | .fin s m e => if 0 ≤ e then a else f.round .ne s (roundInt r s m e) 0 false
  | v => f.pack .ne v

/-- Rounded to an integer in a mode and clamped; a NaN gives 0 (R226, R253). -/
def FVal.toInt (r : Rnd) (lo hi : Int) : FVal → Int
  | .nan => 0
  | .inf s => if s then lo else hi
  | .fin s m e =>
    let x : Int := ((roundInt r s m e : Nat) : Int)
    Max.max lo (Min.min hi (if s then -x else x))

/-- An integer as an exact value. -/
def FVal.ofInt (x : Int) : FVal := .fin (decide (x < 0)) x.natAbs 0

/-- The class mask (R251), for FP32. -/
def fclassBits (a : Nat) : Nat :=
  let neg := a.testBit 31
  let e := (a >>> 23) % 256
  let m := a % 2 ^ 23
  if e = 255 then (if m = 0 then (if neg then 1 else 128) else if a.testBit 22 then 512 else 256)
  else if e = 0 then (if m = 0 then (if neg then 8 else 16) else if neg then 4 else 32)
  else if neg then 2 else 64

/-- The condition of `cmp.f32` (R245): codes 0-7. -/
def floatCond (cc : Nat) (a b : Nat) : Bool :=
  let va := Fmt.f32.unpack a
  let vb := Fmt.f32.unpack b
  let un := va.isNaN || vb.isNaN
  let zero := a % 2 ^ 31 == 0 && b % 2 ^ 31 == 0
  let eq := zero || a == b
  let lt := !zero && decide (Fmt.f32.rank a < Fmt.f32.rank b)
  match cc with
  | 0 => !un && eq
  | 1 => un || !eq
  | 2 => !un && lt
  | 3 => !un && (lt || eq)
  | 4 => !un && !(lt || eq)
  | 5 => !un && !lt
  | 6 => un
  | _ => !un

/-! ### Square roots (R249, R250) -/

/-- The integer square root of n, found bit by bit from a number of bits. -/
def isqrtFrom (n : Nat) : Nat → Nat → Nat
  | 0, r => r
  | i + 1, r => let r' := r + 2 ^ i; if r' * r' ≤ n then isqrtFrom n i r' else isqrtFrom n i r

/-- The integer square root. -/
def isqrt (n : Nat) : Nat := isqrtFrom n (bitLen n / 2 + 1) 0

/-- A non-zero magnitude as m * 4^h. -/
def evenExp (m : Nat) (e : Int) : Nat × Int := if e % 2 = 0 then (m, e / 2) else (m * 2, (e - 1) / 2)

/-- `sqrt.f32`: correctly rounded (R249). -/
def sqrtBits (a : Nat) : Nat :=
  match Fmt.f32.unpack a with
  | .nan => Fmt.f32.canonNaN
  | .inf s => if s then Fmt.f32.canonNaN else a
  | .fin s m e =>
    if m = 0 then a
    else if s then Fmt.f32.canonNaN
    else
      let (n, h) := evenExp m e
      let x := n <<< 64
      let r := isqrt x
      Fmt.f32.round .ne false r (h - 32) (r * r != x)

/-- `rcp.f32` (R250). -/
def rcpBits (a : Nat) : Nat :=
  match Fmt.f32.unpack a with
  | .nan => Fmt.f32.canonNaN
  | .inf s => Fmt.f32.signed s 0
  | .fin s m e => if m = 0 then Fmt.f32.signed s Fmt.f32.infBits else Fmt.f32.quot .special s 1 0 m e

/-- `rsqrt.f32` (R250). -/
def rsqrtBits (a : Nat) : Nat :=
  match Fmt.f32.unpack a with
  | .nan => Fmt.f32.canonNaN
  | .inf s => if s then Fmt.f32.canonNaN else 0
  | .fin s m e =>
    if m = 0 then Fmt.f32.signed s Fmt.f32.infBits
    else if s then Fmt.f32.canonNaN
    else
      let (n, h) := evenExp m e
      Fmt.f32.round .special false (isqrt (2 ^ 128 / n)) (-h - 64) true

/-! ### Exponential, logarithm and circular functions (R250), exact before the one truncation -/

/-- pi * 2^448, truncated. -/
def piFix : Nat :=
  0x3243f6a8885a308d313198a2e03707344a4093822299f31d0082efa98ec4e6c89452821e638d01377be5466cf34e90c6cc0ac29b7c97c50dd

/-- ln 2 * 2^256, truncated. -/
def ln2Fix : Nat := 0xb17217f7d1cf79abc9e3b39803f2f6af40f343267298b62d8a0d175b8baafa2b

/-- The Taylor sum of exp x, x in units of 2^-p: the n-th term t, up to a number of terms. -/
def expSum (p x : Nat) : Nat → Nat → Nat → Nat → Nat
  | 0, _, _, acc => acc
  | i + 1, n, t, acc => expSum p x i (n + 1) (((t * x) >>> p) / n) (acc + t)

/-- `exp2.f32` (R250). Below 2^-26 in magnitude the result lies between 1 and its neighbour. -/
def exp2Bits (a : Nat) : Nat :=
  match Fmt.f32.unpack a with
  | .nan => Fmt.f32.canonNaN
  | .inf s => if s then 0 else Fmt.f32.infBits
  | .fin s m e =>
    if m = 0 then 0x3F800000
    else if (bitLen m : Int) + e ≤ -26 then (if s then 0x3F7FFFFF else 0x3F800000)
    else if 9 ≤ (bitLen m : Int) + e then (if s then 0 else Fmt.f32.infBits)
    else
      let x : Int := ((m <<< (e + 160).toNat : Nat) : Int)
      let y : Int := if s then -x else x
      let k := y / (2 ^ 160 : Int)
      let fr := (y % (2 ^ 160 : Int)).toNat
      let arg := ((fr <<< 32) * (ln2Fix >>> 64)) >>> 192
      if fr = 0 then Fmt.f32.round .special false 1 k false
      else Fmt.f32.round .special false (expSum 192 arg 60 1 (1 <<< 192) 0) (k - 192) true

/-- The sum of z^(2i+1) / (2i+1), z in units of 2^-p; z2 is z squared. -/
def atanhSum (p z2 : Nat) : Nat → Nat → Nat → Nat → Nat
  | 0, _, _, acc => acc
  | i + 1, n, t, acc => atanhSum p z2 i (n + 2) ((t * z2) >>> p) (acc + t / n)

/-- `log2.f32` (R250). -/
def log2Bits (a : Nat) : Nat :=
  match Fmt.f32.unpack a with
  | .nan => Fmt.f32.canonNaN
  | .inf s => if s then Fmt.f32.canonNaN else Fmt.f32.infBits
  | .fin s m e =>
    if m = 0 then Fmt.f32.signed true Fmt.f32.infBits
    else if s then Fmt.f32.canonNaN
    else
      let l := bitLen m - 1
      let k : Int := e + l
      let one := 2 ^ l
      if m = one then Fmt.f32.pack .special (FVal.ofInt k)
      else
        let z := ((m - one) <<< 224) / (m + one)
        let ln := 2 * atanhSum 224 ((z * z) >>> 224) 80 1 z 0
        let lg : Int := (((ln <<< 224) / (ln2Fix >>> 32) : Nat) : Int)
        let y := k * (2 ^ 224 : Int) + lg
        if 0 ≤ y then Fmt.f32.round .special false y.toNat (-224) true
        else Fmt.f32.round .special true ((-y).toNat - 1) (-224) true

/-- The alternating Taylor sum from a first term t at index n: x2 is the squared argument, units of 2^-p. -/
def circSum (p x2 : Nat) : Nat → Nat → Nat → Bool → Int → Int
  | 0, _, _, _, acc => acc
  | i + 1, n, t, minus, acc =>
    circSum p x2 i (n + 2) (((t * x2) >>> p) / ((n + 1) * (n + 2))) (!minus)
      (if minus then acc - ((t : Nat) : Int) else acc + ((t : Nat) : Int))

/-- sin x and cos x for x in [0, pi/2), in units of 2^-448. -/
def sinFix (x : Nat) : Nat := (circSum 448 ((x * x) >>> 448) 50 1 x false 0).toNat

/-- See `sinFix`. -/
def cosFix (x : Nat) : Nat := (circSum 448 ((x * x) >>> 448) 50 0 (1 <<< 448) false 0).toNat

/-- sin or cos of quadrant * pi/2 + x, x in (0, pi/2) in units of 2^-448, with a sign in front. -/
def circBits (cosine neg : Bool) (quadrant x : Nat) : Nat :=
  let q := (quadrant + (if cosine then 1 else 0)) % 4
  let mag := if q % 2 = 0 then sinFix x else cosFix x
  Fmt.f32.round .special ((!cosine && neg) != decide (2 ≤ q)) mag (-448) true

/-- `sin.f32` and `cos.f32` (R250): the argument reduced by pi/2 with its 448 fraction bits; below 2^-40 in magnitude
the result lies between x (or 1) and the next value toward zero. -/
def radianBits (cosine : Bool) (a : Nat) : Nat :=
  match Fmt.f32.unpack a with
  | .nan => Fmt.f32.canonNaN
  | .inf _ => Fmt.f32.canonNaN
  | .fin s m e =>
    if m = 0 then (if cosine then 0x3F800000 else a)
    else if (bitLen m : Int) + e ≤ -40 then (if cosine then 0x3F7FFFFF else a - 1)
    else
      let x := m <<< (e + 449).toNat
      circBits cosine s (x / piFix % 4) ((x % piFix) >>> 1)

/-- `sinpi.f32` and `cospi.f32` (R250): the argument reduced exactly modulo 2. -/
def piBits (cosine : Bool) (a : Nat) : Nat :=
  match Fmt.f32.unpack a with
  | .nan => Fmt.f32.canonNaN
  | .inf _ => Fmt.f32.canonNaN
  | .fin s m e =>
    let h := m <<< (e + 150).toNat
    let quadrant := (h >>> 149) % 4
    let g := h % 2 ^ 149
    if g = 0 then
      let q := (quadrant + (if cosine then 1 else 0)) % 4
      if q % 2 = 0 then (if cosine then 0 else Fmt.f32.signed s 0)
      else Fmt.f32.signed ((!cosine && s) != decide (2 ≤ q)) 0x3F800000
    else circBits cosine s quadrant ((g * piFix) >>> 150)

/-! ### DS8 and DS4 (R228-R232) -/

/-- shift[c] of a descriptor's code table, word 0x04 of its image (R233). -/
def dsShift (codes : Word) (c : Nat) : Nat := (codes.toNat >>> (4 * c)) % 16

/-- A term of a code under a block scale: 0 where c = 7 (R228). -/
def dsTerm (codes : Word) (scale : Nat) (s : Bool) (c : Nat) : FVal :=
  if c = 7 then .fin false 0 (-149) else .fin s 1 ((scale : Int) - 127 - (dsShift codes c : Int))

/-- The exact value of a DS8 byte under a block scale below 0xFF (R228). -/
def ds8Value (codes : Word) (scale b : Nat) : FVal :=
  FVal.sum [dsTerm codes scale (b.testBit 7) (b / 16 % 8), dsTerm codes scale (b.testBit 3) (b % 8)]

/-- The exact value of a DS4 nibble under a block scale below 0xFF (R229). -/
def ds4Value (codes : Word) (scale b : Nat) : FVal := dsTerm codes scale (b.testBit 3) (b % 8)

/-- The value of a DS code (a nibble where four) under a block scale; NaN under 0xFF (R230). -/
def dsValue (four : Bool) (codes : Word) (scale b : Nat) : FVal :=
  if scale = 255 then .nan else if four then ds4Value codes scale b else ds8Value codes scale b

/-- The distance of a value from x and its magnitude, as integers of one unit. -/
def dsKey (x v : FVal) : Nat × Nat :=
  let e := min x.exp v.exp
  let low : Int := Min.min e (-512)
  ((v.scaled low - x.scaled low).natAbs, (v.scaled low).natAbs)

/-- The best code among those below n: nearest to x, then of smaller magnitude, then lower (R232). -/
def dsBest (value : Nat → FVal) (x : FVal) : Nat → Nat × Nat × Nat
  | 0 => (0, dsKey x (value 0))
  | n + 1 =>
    let best := dsBest value x n
    let k := dsKey x (value (n + 1))
    if k.1 < best.2.1 || (k.1 == best.2.1 && decide (k.2 < best.2.2)) then (n + 1, k) else best

/-- The encoding of an FP32 pattern into DS8 or DS4 under a block scale (R232, R254). An infinity is farther out than
every code's value. -/
def dsEncode (four : Bool) (codes : Word) (scale a : Nat) : Nat :=
  let top := if four then 15 else 255
  let value := fun b => if four then ds4Value codes (scale % 255) b else ds8Value codes (scale % 255) b
  let none0 := (dsBest value (.fin false 0 0) top).1
  if scale = 255 then none0
  else
    match Fmt.f32.unpack a with
    | .nan => none0
    | .inf s => (dsBest value (.fin s 1 400) top).1
    | v => (dsBest value v top).1

end Sys2Proof.Machine
end

