-- ==== Sys2Proof/Machine/Flags.lean ====
section
/-! DEFINITION. Conditions, predicates and core flags: the compares (R58, R208, R245), the predicates of a lane thread
(R27) and the flags of a core (R26). -/

namespace Sys2Proof.Machine

/-- A condition of `cmp.i32` and `cmp.n32` (R58), signed or unsigned, at any width (R208). -/
def intCond {w : Nat} (signed : Bool) (cc : Nat) (a b : BitVec w) : Bool :=
  let lt := if signed then a.slt b else a.ult b
  match cc with
  | 0 => a == b
  | 1 => a != b
  | 2 => lt
  | 3 => lt || a == b
  | 4 => !(lt || a == b)
  | _ => !lt

/-- A predicate of a thread; p0 reads true (R27). -/
def Thread.pred (t : Thread) (k : Nat) : Bool := k == 0 || t.preds.getLsbD k

/-- Write a predicate; a write to p0 is discarded (R27). -/
def Thread.setPred (t : Thread) (k : Nat) (v : Bool) : Thread :=
  if k = 0 then t
  else { t with preds := if v then t.preds ||| BitVec.twoPow 8 k else t.preds &&& ~~~BitVec.twoPow 8 k }

/-- A flag of a core; f0 reads 1 (R26). -/
def Core.flag (x : Core) (k : Nat) : Bool := k == 0 || x.flags.getLsbD k

/-- Write a flag; a write to f0 is discarded (R26, R210). -/
def Core.setFlag (x : Core) (k : Nat) (v : Bool) : Core :=
  if k = 0 then x
  else { x with flags := if v then x.flags ||| BitVec.twoPow 32 k else x.flags &&& ~~~BitVec.twoPow 32 k }

/-- The predicates of a thread as a byte, with p0 reading true (R62, R328). -/
def Thread.predBits (t : Thread) : BitVec 8 := t.preds ||| 1

/-- The guard slots of a core (R26). -/
def Core.guardSlot (x : Core) (k : Nat) : Guard := SMap.get none k x.guards

/-- One as a bit: the value a predicate result delivers to b0 (R45). -/
def boolWord (b : Bool) : Word := if b then 1 else 0

end Sys2Proof.Machine
end

