-- ==== Sys2Proof/Machine/Operands.lean ====
section
/-! DEFINITION. Operands: the threads of a formed warp, the source codes of R41 in both streams with their immediate
types, register pairs (R43, R57), and what an instruction names (R53 steps 8 and 9, R48). -/

namespace Sys2Proof.Machine

/-- A thread in a formed warp: home lane, workgroup index and home-warp slot (R15, R16). -/
structure Lane where
  lane : Nat
  tid  : Nat
  hw   : Nat
  deriving DecidableEq, Repr, Inhabited

/-- What a formed warp's instruction reads: the core, issue context, workgroup slot and context numbers, the core as it
stood at issue, the workgroup and warp, the argument-block address, the PC, and the threads in increasing home lane. -/
structure Env where
  c     : Nat
  k     : Nat
  ws    : Nat
  x     : Nat
  cr    : Core
  g     : Workgroup
  w     : Warp
  args  : DWord
  pc    : DWord
  lanes : List Lane
  deriving DecidableEq, Repr, Inhabited

/-- What a control thread's instruction reads. -/
structure CEnv where
  c    : Nat
  x    : Nat
  cr   : Core
  r    : CtRegs
  args : DWord
  deriving DecidableEq, Repr, Inhabited

/-- The type a small immediate and code 72 take (R41). -/
inductive ImmTy where
  | int
  | f32
  | f16
  | bf16
  deriving DecidableEq, Repr, Inhabited

/-- An integer as an operand of a type: itself, the exact FP32 value, or the FP16 or BF16 value in both halves (R41). -/
def ImmTy.value (ty : ImmTy) (n : Int) : Word :=
  match ty with
  | .int => BitVec.ofInt 32 n
  | .f32 => BitVec.ofNat 32 (Fmt.f32.pack .ne (FVal.ofInt n))
  | .f16 => BitVec.ofNat 32 (Fmt.f16.pack .ne (FVal.ofInt n) * 65537)
  | .bf16 => BitVec.ofNat 32 (Fmt.bf16.pack .ne (FVal.ofInt n) * 65537)

/-- A launch of a context by its index. -/
def State.launch (s : State) (x n : Nat) : Option Launch := (s.ctx x).launches.find? (·.index = n)

/-- The threads of a formed warp in increasing home lane. -/
def Warp.threads (w : Warp) (hw : Nat) : List Lane :=
  (List.range 32).filterMap (fun l => (SMap.get none l w.lanes).map (fun t => { lane := l, tid := t, hw := hw + t / 32 }))

/-- A lane as the issuer of a request. -/
def Env.who (e : Env) (l : Lane) : Who := .lane e.c (e.cr.lcore.getD 0) l.hw e.ws l.tid

/-- The number of a logical core in the requests of a core: 512 where a supervisor routine runs with no current one (R336). -/
def Core.lcId (y : Core) : Nat := y.lcore.getD 512

/-- A control thread as the issuer of a request. -/
def CEnv.who (e : CEnv) : Who := .ct e.c e.cr.lcId

/-- The thread record of a lane. -/
def Env.thread (e : Env) (l : Lane) : Thread := e.g.thread l.tid

/-- Register v(k) of a lane (R31). -/
def Env.reg (e : Env) (l : Lane) (k : Nat) : Word := e.cr.reg l.hw k l.lane

/-- A latch of a lane; none when void (R45). -/
def Env.latch (e : Env) (l : Lane) (b : Nat) : Latch := SMap.get none (b * 32 + l.lane) e.w.latches

/-- Source code c of the vector stream read for a lane under a type (R41). A void latch has already trapped. -/
def Env.operand (e : Env) (ty : ImmTy) (l : Lane) (code : BitVec 7) : Word :=
  let c := code.toNat
  if c ≤ 63 then e.reg l c
  else if c ≤ 67 then (e.latch l (c - 64)).getD 0
  else if c = 68 then 0
  else if c = 69 then BitVec.ofNat 32 l.lane
  else if c = 70 then BitVec.ofNat 32 l.tid
  else if c = 71 then BitVec.ofNat 32 e.g.index
  else if c = 72 then ty.value 1
  else if c = 73 then BitVec.ofNat 32 (e.cr.lcore.getD 0)
  else if c = 74 then e.args.lo
  else if c = 75 then e.args.hi
  else ty.value ((c : Int) - 96)

/-- The register pair v(k):v(k+1), low word first (R43). DESIGN CHOICE (assumption 52): a destination that is also a source and is not
written (nw = 1) may lie past the allocation, and then reads the physical register there. -/
def Env.regPair (e : Env) (l : Lane) (k : Nat) : DWord := dword (e.reg l k) (e.reg l (k + 1))

/-- Source code c read as a 64-bit pair (R57). -/
def Env.pair (e : Env) (l : Lane) (code : BitVec 7) : DWord :=
  let c := code.toNat
  if c ≤ 63 then e.regPair l c
  else if c = 74 then e.args
  else if c < 80 then (e.operand .int l code).setWidth 64
  else BitVec.ofInt 64 ((c : Int) - 96)

/-- A base pair v(2n):v(2n+1) (R41). -/
def Env.base (e : Env) (l : Lane) (n : BitVec 5) : DWord := e.regPair l (2 * n.toNat)

/-- The guard of a lane: predicate p(g) (R40). -/
def Env.guard (e : Env) (g : BitVec 3) (l : Lane) : Bool := (e.thread l).pred g.toNat

/-- Source code c of the control stream (R41). -/
def CEnv.operand (e : CEnv) (code : BitVec 7) : DWord :=
  let c := code.toNat
  if c ≤ 31 then e.r.reg c
  else if c = 68 then 0
  else if c = 72 then 1
  else if c = 73 then BitVec.ofNat 64 (e.cr.lcore.getD 0)
  else if c = 74 then e.args.lo.setWidth 64
  else if c = 75 then e.args.hi.setWidth 64
  else BitVec.ofInt 64 ((c : Int) - 96)

/-- A base pair of the control stream: the low 32 bits of s(2n), and of s(2n+1) as its high word (R41, R94). -/
def CEnv.base (e : CEnv) (n : BitVec 5) : DWord := dword (e.r.reg (2 * n.toNat)).lo (e.r.reg (2 * n.toNat + 1)).lo

/-- The guard flag of a control-stream instruction (R40). -/
def CEnv.guard (e : CEnv) (g : BitVec 3) : Bool := e.cr.flag g.toNat

/-! ### What an instruction names -/

/-- What an instruction names: its guard, the registers whose allocation is checked (R16), registers only read or
written (R44), the latches it reads (R45), those its own part says which thread reads, whether it reads or writes other predicates or flags,
and whether it delivers to b3. -/
structure Uses where
  g     : BitVec 3 := 0
  regs  : List Nat := []
  also  : List Nat := []
  lat   : List Nat := []
  later : List Nat := []
  preds : Bool := false
  b3    : Bool := false
  deriving DecidableEq, Repr, Inhabited

/-- The registers a source code names. -/
def codeRegs (code : BitVec 7) : List Nat := if code.toNat ≤ 63 then [code.toNat] else []

/-- The registers a source code read as a pair names (R57). -/
def pairRegs (code : BitVec 7) : List Nat := if code.toNat ≤ 63 then [code.toNat, code.toNat + 1] else []

/-- The registers a wide store's data code names (R90). -/
def wideRegs (code : BitVec 7) (n : Nat) : List Nat := if code.toNat ≤ 63 then span code.toNat n else []

/-- The latch a source code reads. -/
def codeLat (code : BitVec 7) : List Nat := if 64 ≤ code.toNat && code.toNat ≤ 67 then [code.toNat - 64] else []

/-- The registers of a base pair. -/
def baseRegs (n : BitVec 5) : List Nat := [2 * n.toNat, 2 * n.toNat + 1]

/-- A destination that nw does not suppress (R44). -/
def destRegs (nw : BitVec 1) (d : BitVec 6) : List Nat := if nw = 0 then [d.toNat] else []

/-- A destination pair that nw does not suppress. -/
def destPair (nw : BitVec 1) (d : BitVec 6) : List Nat := if nw = 0 then [d.toNat, d.toNat + 1] else []

end Sys2Proof.Machine

namespace Sys2Proof

open Sys2Proof.Machine

/-- Uses of the 16-bit form: codes 28-31 are latches (R37). -/
def HForm.uses (f : HForm) : Uses :=
  let b := f.b.toNat
  { regs := f.d.toNat :: (if b ≤ 27 then [b] else []), lat := if b ≤ 27 then [] else [b - 28] }

/-- The 16-bit form's source as a code of R41 (R37, R39). -/
def HForm.src (f : HForm) : BitVec 7 := if f.b.toNat ≤ 27 then f.b.setWidth 7 else BitVec.ofNat 7 (f.b.toNat + 36)

/-- Uses of format R. -/
def RForm.uses (f : RForm) : Uses :=
  { g := f.g, regs := codeRegs f.a ++ codeRegs f.b ++ destRegs f.n f.d, lat := codeLat f.a ++ codeLat f.b }

/-- Uses of format R whose d is also a source (R43): d is read whatever nw says, and its allocation is not checked
where nw = 1 (R44). -/
def RForm.uses3 (f : RForm) : Uses := { f.uses with also := [f.d.toNat] }

/-- Uses of the 64-bit pair instructions (R57). -/
def RForm.usesPair (f : RForm) (threeSource : Bool) : Uses :=
  { g := f.g, regs := pairRegs f.a ++ pairRegs f.b ++ destPair f.n f.d,
    also := if threeSource then [f.d.toNat, f.d.toNat + 1] else [], lat := codeLat f.a ++ codeLat f.b }

/-- Uses of the compares. -/
def CmpForm.uses (f : CmpForm) : Uses :=
  { g := f.g, regs := codeRegs f.a ++ codeRegs f.b, lat := codeLat f.a ++ codeLat f.b, preds := true }

/-- Uses of format X with one source. -/
def UForm.uses (f : UForm) : Uses := { g := f.g, regs := codeRegs f.a ++ destRegs f.n f.d, lat := codeLat f.a }

/-- Uses of cvt. -/
def CvtForm.uses (f : CvtForm) : Uses := { g := f.g, regs := codeRegs f.a ++ destRegs f.n f.d, lat := codeLat f.a }

/-! ### Results in the pipes (R46, R330) -/

/-- The form of a lane instruction whose result may be in its pipe when its warp traps: its sources, its destination, whether the old d is a
source, the type of its sources, its latch, and its length. -/
structure LaneForm where
  a     : BitVec 7
  b     : BitVec 7 := 68
  d     : BitVec 6
  n     : BitVec 1 := 0
  three : Bool := false
  ty    : ImmTy := .int
  latch : Nat := 0
  deriving DecidableEq, Repr, Inhabited

/-- The form of a 16-bit instruction; its first source is d. -/
def HForm.lane (f : HForm) (ty : ImmTy) (b : Nat) : LaneForm := { a := f.d.setWidth 7, b := f.src, d := f.d, ty := ty, latch := b }

/-- The form of an instruction of format R. -/
def RForm.lane (f : RForm) (ty : ImmTy) (b : Nat) (three : Bool := false) : LaneForm :=
  { a := f.a, b := f.b, d := f.d, n := f.n, three := three, ty := ty, latch := b }

/-- The form of a one-source instruction. -/
def UForm.lane (f : UForm) (ty : ImmTy) (b : Nat) : LaneForm := { a := f.a, d := f.d, n := f.n, ty := ty, latch := b }

/-- The form of a conversion. -/
def CvtForm.lane (f : CvtForm) (ty : ImmTy) : LaneForm := { a := f.a, d := f.d, n := f.n, ty := ty, latch := 2 }

/-- The lane instructions whose results have a pipe's latency and whose operands a replay entry holds (R46, R330): one 32-bit register result
from at most three 32-bit operands (assumption 12). -/
def laneForm : Instr → Option LaneForm
  | .mov16 f | .addI3216 f | .subI3216 f | .mulI3216 f | .and16 f | .or16 f | .xor16 f | .shl16 f | .shrN3216 f | .shrI3216 f => some (f.lane .int 0)
  | .addF3216 f | .subF3216 f | .mulF3216 f | .minF3216 f | .maxF3216 f => some (f.lane .f32 1)
  | .addI32 f | .subI32 f | .mulI32 f | .mulhiI32 f | .mulhiN32 f | .minI32 f | .maxI32 f | .minN32 f | .maxN32 f | .and f | .or f
  | .andn f | .xor f | .shl f | .shrN32 f | .shrI32 f | .rotl f | .bfeI32 f | .bfeN32 f => some (f.lane .int 0)
  | .madI32 f | .bfi f => some (f.lane .int 0 true)
  | .mov f | .not f | .neg f | .abs f | .popc f | .clz f | .ctz f | .brev f | .sextW8 f | .sextW16 f | .zextW8 f | .zextW16 f => some (f.lane .int 0)
  | .addF32 f | .subF32 f | .mulF32 f | .minF32 f | .maxF32 f => some (f.lane .f32 1)
  | .divF32 f => some (f.lane .f32 2)
  | .fmaF32 f => some (f.lane .f32 1 true)
  | .addH2 f | .mulH2 f | .dot2H f => some (f.lane .f16 1)
  | .fmaH2 f => some (f.lane .f16 1 true)
  | .addBh2 f | .mulBh2 f | .dot2Bh f => some (f.lane .bf16 1)
  | .fmaBh2 f => some (f.lane .bf16 1 true)
  | .negF32 f | .absF32 f | .rintNeF32 f | .rintZF32 f | .rintUpF32 f | .rintDnF32 f | .rcpF32 f | .rsqrtF32 f | .sqrtF32 f
  | .exp2F32 f | .log2F32 f | .sinF32 f | .cosF32 f | .sinpiF32 f | .cospiF32 f | .fclassF32 f => some (f.lane .f32 2)
  | .cvtF16F32 f | .cvtBf16F32 f | .cvtI32F32 f | .cvtN32F32 f | .cvtI8F32 f => some (f.lane .f32)
  | .cvtF32F16 f | .cvtBf16F16 f => some (f.lane .f16)
  | .cvtF32Bf16 f | .cvtF16Bf16 f => some (f.lane .bf16)
  | .cvtF32I32 f | .cvtF32N32 f | .cvtF32I8 f | .cvtI8I32 f => some (f.lane .int)
  | _ => none

end Sys2Proof
end

