-- ==== Sys2Proof/Machine/Save.lean ====
section
/-! DEFINITION. The save area in memory (R326-R330): blocks of words written and read at their home, thread records,
workgroup records and trap frames. -/

namespace Sys2Proof.Machine

/-! ### Blocks of memory -/

/-- The LLC lines of a range of memory, written back and no longer held. -/
def State.flushRange (s : State) (a n : Nat) : State :=
  ((s.llc.map (·.1)).filter (fun l => decide (a < l * 128 + 128 ∧ l * 128 < a + n))).foldl State.cleanLlc s

/-- A block of memory of n bytes set to the words listed by index, and zero elsewhere. -/
def State.blit (s : State) (a n : Nat) (ws : SMap Word) : State :=
  let s := s.flushRange a n
  { s with mem := ws.foldl (fun m kv => m.setWord (a + 4 * kv.1) kv.2) (s.mem.dropRange a n),
           dramBad := s.dramBad.filter (fun x => decide (x < a ∨ a + n ≤ x)),
           dramFlip := s.dramFlip.filter (fun kv => decide (kv.1 < a ∨ a + n ≤ kv.1)) }

/-- A block of memory of n bytes set to bytes listed by offset, and zero elsewhere. -/
def State.blitBytes (s : State) (a n : Nat) (bs : Memory) : State :=
  let s := s.flushRange a n
  { s with mem := bs.foldl (fun m kv => m.write (a + kv.1) kv.2) (s.mem.dropRange a n),
           dramBad := s.dramBad.filter (fun x => decide (x < a ∨ a + n ≤ x)),
           dramFlip := s.dramFlip.filter (fun kv => decide (kv.1 < a ∨ a + n ≤ kv.1)) }

/-- Words written at their home one after another. -/
def State.pokeWords (s : State) (a : Nat) : List Word → State
  | [] => s
  | w :: ws => State.pokeWords (s.applyHome a w) (a + 4) ws

/-- The words of a block that are not zero, by index. -/
def Memory.wordsIn (m : Memory) (a n : Nat) : SMap Word :=
  (m.filter (fun kv => decide (a ≤ kv.1 ∧ kv.1 < a + n))).foldl
    (fun acc kv => let i := (kv.1 - a) / 4; SMap.set 0 i (m.word (a + 4 * i)) acc) []

/-- The bytes of a block that are not zero, by offset. -/
def Memory.bytesIn (m : Memory) (a n : Nat) : Memory :=
  (m.filter (fun kv => decide (a ≤ kv.1 ∧ kv.1 < a + n))).map (fun kv => (kv.1 - a, kv.2))

/-- A doubleword at its home. -/
def State.homeDword (s : State) (a : Nat) : DWord := dword (s.homeWord a) (s.homeWord (a + 4))

/-! ### Offsets of the save area (R327) -/

/-- Bytes of the register file of one home warp. -/
def warpRegBytes : Nat := 64 * 32 * 4

/-- Bytes of a save area. -/
def saveBytes : Nat := 26 * 65536

/-- Bytes of a save area that its layout uses (R327): the size of a core image in a dump (R355). -/
def imageBytes : Nat := 0x19C000

/-- The register file's offset. -/
def saveRegs : Nat := 0x080000

/-- The tiles' offset. -/
def saveTiles : Nat := 0x0E0000

/-- The offset of the core state before the CT trap frame, and its bytes (R327). -/
def saveCore : Nat := 0x120000
/-- See `saveCore`. -/
def saveCoreBytes : Nat := 0x3000

/-- The CT trap frame's offset. -/
def saveCtFrame : Nat := 0x123000

/-- A thread record's offset. -/
def saveThread (hw lane : Nat) : Nat := 0x124000 + 192 * (32 * hw + lane)

/-- A workgroup record's offset. -/
def saveWg (ws : Nat) : Nat := 0x16C000 + 0x8000 * ws

/-- A trap frame's offset within its workgroup record (R329). -/
def saveFrame : Nat := 0x5100

/-- The save area is 26 owned, unmapped frames, contiguous in one stack, on a 64 KiB boundary (R326). One on a stack that is down cannot be
reached, and its context is removed as for any other failure of it (R7, R352). -/
def State.saveAreaOk (s : State) (x base : Nat) : Bool :=
  base % 65536 == 0 &&
  (match placeOf base, placeOf (base + saveBytes - 1) with
   | .hbm a, .hbm b => a == b && !s.dieDown a
   | _, _ => false) &&
  (List.range 26).all (fun i => let e := s.ientry (gfnOf (base + 65536 * i)); e.owned && !e.retired && e.ctx == x && !e.valid)

/-- No word of a range is poisoned (R345). -/
def State.unpoisoned (s : State) (a n : Nat) : Bool :=
  s.dramBad.all (fun x => decide (x < a ∨ a + n ≤ x)) &&
  s.dramFlip.all (fun kv => decide (kv.1 < a ∨ a + n ≤ kv.1) || !s.codeBad kv.1) &&
  s.llc.all (fun kv => decide (kv.1 * 128 + 128 ≤ a ∨ a + n ≤ kv.1 * 128) || (List.range 32).all (fun i => !kv.2.lost i))

/-! ### Thread records (R328) -/

/-- The image of a handler frame (R197), eight words. -/
def Frame.image (f : Frame) : List Word :=
  let b := fun (x : Bool) => if x then 1 else 0
  [BitVec.ofNat 32 (f.eff.toNat * 2 ^ 24 + f.serial.toNat * 256 + b f.multi * 128 + b f.armed * 64 + f.name.toNat),
   BitVec.ofNat 32 (f.cdepth.toNat * 2 ^ 24 + f.pdepth.toNat * 2 ^ 16 + f.ptop.toNat * 1024 + f.hide.toNat * 16 + b f.handling * 8),
   f.sp0.lo, f.sp0.hi, f.record.lo, f.record.hi, 0, 0]

/-- The frame that an image holds; `k` is the frame as it was when the image was written, whose last two fields no image has. -/
def Frame.ofImage (k : Frame) (ws : List Word) : Frame :=
  let w := fun i => ws.getD i 0
  let w0 := (w 0).toNat
  let w1 := (w 1).toNat
  { eff := BitVec.ofNat 8 (w0 >>> 24), serial := BitVec.ofNat 16 (w0 >>> 8), multi := w0.testBit 7, armed := w0.testBit 6,
    name := BitVec.ofNat 6 w0, cdepth := BitVec.ofNat 8 (w1 >>> 24), pdepth := BitVec.ofNat 8 (w1 >>> 16),
    ptop := BitVec.ofNat 6 (w1 >>> 10), hide := BitVec.ofNat 6 (w1 >>> 4), handling := w1.testBit 3,
    sp0 := dword (w 2) (w 3), record := dword (w 4) (w 5), want := k.want, remote := k.remote }

/-- The words of memory at their home. -/
def State.homeWords (s : State) (a n : Nat) : List Word := (List.range n).map (fun i => s.homeWord (a + 4 * i))

/-- The wake code of a thread (R328). -/
def Thread.wakeCode (t : Thread) (trapped exchange : Bool) : Nat :=
  if trapped then 11 else
  match t.park with
  | .none => if exchange then 9 else 0
  | .barrier _ _ _ => 1
  | .joining _ _ _ => 1
  | .qpop _ => 2
  | .qrv => 2
  | .qsv => 2
  | .flag _ _ => 3
  | .cwait _ _ => 4
  | .waitu _ => 5
  | .wqwait _ _ => 6
  | .staithe _ => 7
  | .remote => 8
  | .yield => 10
  | .qinit => 2
  | .switch => 0

/-- The wait data of a thread that waits for no word (R328): barrier, queue, flag, barrier set or bag slot. -/
def Park.data : Park → Nat
  | .barrier sc i _ => sc * 16 + i
  | .joining sc i _ => sc * 16 + i
  | .qpop q => q
  | .flag k _ => k
  | .cwait c _ => c
  | .wqwait h _ => h
  | _ => 0

/-- Where the record of a wait lies (R186, R328): its home slice, counted over the package, above the place of its entry in the slice's monitor
table, counted from 1; zero while no table holds it. DESIGN CHOICE (assumption 3): the spec gives no layout of the two. -/
def State.waitHome (s : State) (n : Nat) : DWord :=
  match s.hbm.findSome? (fun kv => kv.2.monitor.findSome? (fun p =>
      (p.2.findIdx? (fun e => e.waiters.any (·.waits.contains n))).map (fun j => (kv.1 * 8 + p.1, j + 1)))) with
  | some (a, j) => BitVec.ofNat 64 (a * 2 ^ 32 + j)
  | none => 0

/-- The wait data of a thread's record (R328). -/
def State.wakeData (s : State) (t : Thread) : DWord :=
  match t.park with
  | .waitu n => s.waitHome n
  | p => BitVec.ofNat 64 p.data

/-- The park that a record's wake code and wait data give a thread that parked as it did before (R327, R328). -/
def Park.restored (old : Park) (same : Bool) (code data : Nat) : Park :=
  if same then old else
  match code, old with
  | 1, .barrier _ _ v => .barrier (data / 16 % 8) (data % 16) v
  | 1, _ => .barrier (data / 16 % 8) (data % 16) false
  | 2, .qrv => .qrv
  | 2, .qsv => .qsv
  | 2, _ => .qpop (data % 16)
  | 3, .flag _ v => .flag (data % 32) v
  | 3, _ => .flag (data % 32) true
  | 4, .cwait _ l => .cwait (data % 16) l
  | 4, _ => .cwait (data % 16) []
  | 5, .waitu n => .waitu n
  | 6, .wqwait _ p => .wqwait (data % 16) p
  | 6, _ => .wqwait (data % 16) 0
  | 7, .staithe p => .staithe p
  | 8, .remote => .remote
  | 10, _ => .yield
  | _, _ => .none

/-- A thread record of 48 words (R328), with the wait data and the deadline of a wait. -/
def Thread.record (t : Thread) (trapped exchange : Bool) (wdata deadline : DWord) : List Word :=
  let b := fun (x : Bool) => if x then 1 else 0
  let chip := (t.frames.take t.onChip).flatMap Frame.image
  [t.pc.lo, t.pc.hi, t.sp.lo, t.sp.hi, t.sseq,
   BitVec.ofNat 32 (t.depth.toNat * 2 ^ 24 + t.predBits.toNat * 2 ^ 16 + t.onChip * 2 ^ 13 + t.frames.length * 64 + b t.live),
   t.psig.lo, t.psig.hi, t.regmask.setWidth 32,
   BitVec.ofNat 32 (t.acquire.getD 0 * 1024 + b t.acquire.isSome * 512 + b t.woken * 256 + t.wakeCode trapped exchange),
   wdata.lo, wdata.hi, deadline.lo, deadline.hi, 0, 0] ++ chip ++ List.replicate (32 - chip.length) 0

/-- A thread restored from its record: a wake code or wait data that was changed there takes effect (R327, R328). What the record does not
hold (a captured operand list, the value a flag or a phase is awaited at) the device keeps with the workgroup (R332; assumption 3). -/
def State.threadAt (s : State) (a : Nat) (t : Thread) : Thread :=
  let w := (s.homeWord (a + 0x14)).toNat
  let v := (s.homeWord (a + 0x24)).toNat
  let on := min (w / 2 ^ 13 % 8) 4
  let same := v % 256 == t.wakeCode false false && (match t.park with
    | .waitu _ => true
    | p => s.homeDword (a + 0x28) == BitVec.ofNat 64 p.data)
  { t with pc := pc48 (s.homeDword a), sp := s.homeDword (a + 8), sseq := s.homeWord (a + 0x10), depth := BitVec.ofNat 8 (w >>> 24),
           preds := BitVec.ofNat 8 (w >>> 16) ||| 1, psig := s.homeDword (a + 0x18), regmask := (s.homeWord (a + 0x20)).setWidth 16,
           live := w.testBit 0, woken := v.testBit 8, acquire := if v.testBit 9 then some (v / 1024 % 8) else none,
           onChip := on, frames := (List.range on).map (fun i => (t.frames.getD i default).ofImage (s.homeWords (a + 0x40 + 32 * i) 8)) ++ t.frames.drop on,
           park := if v.testBit 8 then .none else t.park.restored same (v % 256) (s.homeDword (a + 0x28)).toNat }

/-! ### Trap frames (R330) -/

/-- The words of a list of bytes packed four to a word, by byte index. -/
def packBytes (n : Nat) (f : Nat → Nat) : List Word :=
  (List.range (n / 4)).map (fun i => BitVec.ofNat 32 (f (4 * i) + f (4 * i + 1) * 2 ^ 8 + f (4 * i + 2) * 2 ^ 16 + f (4 * i + 3) * 2 ^ 24))

/-- The words of a map by index. -/
def mapWords (n : Nat) (m : SMap Word) : List Word := (List.range n).map (fun i => SMap.get 0 i m)

/-- A replay entry, 100 words. -/
def Replay.words (r : Replay) : List Word :=
  [r.pc.lo, r.pc.hi, r.word, r.lanes] ++ mapWords 32 r.opA ++ mapWords 32 r.opB ++ mapWords 32 r.opC

/-- A trap frame, laid out (R330). -/
def TrapFrame.words (f : TrapFrame) : List Word :=
  [BitVec.ofNat 32 ((if f.len32 then 2 ^ 16 else 0) + f.reps.length * 256 + f.code), f.tmask, f.pc.lo, f.pc.hi, f.word,
   BitVec.ofNat 32 f.run, 0, 0] ++ packBytes 32 (fun i => SMap.get 255 i f.thr) ++ mapWords 32 f.info0 ++ mapWords 32 f.info1 ++
  mapWords 128 f.latch ++ packBytes 128 (fun i => SMap.get 255 i f.ltag) ++ List.replicate 16 0 ++ f.reps.flatMap Replay.words

/-- A map of n words from an address. -/
def State.mapAt (s : State) (a n : Nat) : SMap Word :=
  (List.range n).foldl (fun m i => SMap.set 0 i (s.homeWord (a + 4 * i)) m) []

/-- A map of n bytes from an address, with 0xFF as what is not listed. -/
def State.bytesAt (s : State) (a n : Nat) : SMap Nat :=
  (List.range n).foldl (fun m i => SMap.set 255 i ((s.homeWord (a + i / 4 * 4)).toNat / 2 ^ (8 * (i % 4)) % 256) m) []

/-- A replay entry read back. -/
def State.replayAt (s : State) (a : Nat) : Replay :=
  { pc := s.homeDword a, word := s.homeWord (a + 8), lanes := s.homeWord (a + 12), opA := s.mapAt (a + 0x10) 32,
    opB := s.mapAt (a + 0x90) 32, opC := s.mapAt (a + 0x110) 32 }

/-- A trap frame read back (R330). -/
def State.trapFrameAt (s : State) (a : Nat) : TrapFrame :=
  let w := (s.homeWord a).toNat
  { code := w % 256, len32 := w.testBit 16, tmask := s.homeWord (a + 4), pc := s.homeDword (a + 8), word := s.homeWord (a + 16),
    run := (s.homeWord (a + 20)).toNat, thr := s.bytesAt (a + 0x20) 32, info0 := s.mapAt (a + 0x40) 32,
    info1 := s.mapAt (a + 0xC0) 32, latch := s.mapAt (a + 0x140) 128, ltag := s.bytesAt (a + 0x340) 128,
    reps := (List.range (min 16 (w / 256 % 256))).map (fun i => s.replayAt (a + 0x400 + 400 * i)) }

/-! ### Workgroups -/

/-- The deadline of a thread's wait; 0 for none. -/
def State.deadlineOf (s : State) (t : Thread) : DWord :=
  match t.park with
  | .waitu n => ((s.waits.find? (·.id = n)).bind (·.deadline)).getD 0
  | _ => 0

/-- The state code of a workgroup record (R329). -/
def WgState.code : WgState → Nat
  | .resident => 1
  | .evictedRunnable => 2
  | .evictedWaiting => 3
  | .trapped => 4

/-- The registers of a workgroup's home warps by index from its first slot. -/
def Core.wgRegs (x : Core) (g : Workgroup) : SMap Word :=
  (x.regs.filter (fun kv => decide (g.hw * 2048 ≤ kv.1 ∧ kv.1 < (g.hw + g.warps) * 2048))).map (fun kv => (kv.1 - g.hw * 2048, kv.2))

/-- The register file without a workgroup's home warps, and with words put there. -/
def Core.putWgRegs (x : Core) (g : Workgroup) (ws : SMap Word) : Core :=
  let other := x.regs.filter (fun kv => decide (kv.1 < g.hw * 2048 ∨ (g.hw + g.warps) * 2048 ≤ kv.1))
  { x with regs := ws.foldl (fun m kv => SMap.set 0 (g.hw * 2048 + kv.1) kv.2 m) other }

/-- What a workgroup's entries count their age in (R21): ticks, or the formations of a serialised launch (R293). -/
def State.ageClock (s : State) (g : Workgroup) : DWord :=
  if ((s.launch g.ctx g.launch).map (·.serial)).getD false then g.forms else s.tick

/-- A frontier entry as it lies in a workgroup record: 48 bytes of which the spec gives no layout (R329; DESIGN CHOICE, assumption 3): PC;
depth, priority, whether it is aged and whether it is spilled; the low word of the time its age counts from; its threads. -/
def FEntry.image (e : FEntry) : List Word :=
  let b := fun (x : Bool) => if x then 1 else 0
  [e.pc.lo, e.pc.hi, BitVec.ofNat 32 (e.depth.toNat * 2 ^ 24 + e.prio.toNat * 2 ^ 16 + b e.aged * 2 + b e.spilled), e.since.lo] ++
    (List.range 8).map (fun i => (e.mask >>> (32 * i)).setWidth 32)

/-- The frontier entry at an address, its age counted by a clock. -/
def State.fentryAt (s : State) (clock : DWord) (a : Nat) : FEntry :=
  let w := (s.homeWord (a + 8)).toNat
  { pc := s.homeDword a, depth := BitVec.ofNat 8 (w >>> 24), prio := BitVec.ofNat 8 (w >>> 16), aged := w.testBit 1, spilled := w.testBit 0,
    since := clock - (clock.lo - s.homeWord (a + 12)).setWidth 64, mask := BitVec.ofNat 256 (ofWords (s.homeWords (a + 16) 8)) }

/-- The code of a store-queue entry's kind in its image, and its width. -/
def EntryKind.imageCode : EntryKind → Nat × Nat
  | .store n _ _ _ _ => (1, n)
  | .atomic _ w64 _ _ _ _ _ => (2, if w64 then 8 else 4)
  | .put _ _ _ ws => (3, 4 * ws.length)
  | .drain _ => (4, 0)
  | .wait _ => (5, 4)
  | .span n _ _ => (6, n)
  | .fence _ => (7, 0)
  | .arrive _ _ => (8, 0)
  | .pgreq _ => (9, 0)
  | .command _ => (10, 0)
  | .bagOp _ _ => (11, 0)
  | .query _ _ => (12, 0)

/-- The operand words of a store-queue entry in its image. -/
def EntryKind.imageData : EntryKind → List Word
  | .store _ data _ _ _ => wordsOf 4 data.toNat
  | .atomic _ _ _ _ v k _ => [v.lo, v.hi, k.lo, k.hi]
  | .put _ _ key ws => key :: (List.range 3).map (fun i => ws.getD i 0)
  | _ => [0, 0, 0, 0]

/-- A store-queue entry as it lies in a workgroup record: 32 bytes of which the spec gives no layout (R329; DESIGN CHOICE, assumption 3):
address; kind, the code it is held with plus 1, and width; the low word of the PC; operand words. -/
def Entry.image (q : Entry) : List Word :=
  let k := q.kind.imageCode
  let held := match q.phase with
    | .held c => c + 1
    | _ => 0
  [q.va.lo, q.va.hi, BitVec.ofNat 32 (k.2 * 2 ^ 16 + held * 2 ^ 8 + k.1), q.pc.lo] ++ q.kind.imageData

/-- An entry restored from its image: the address and the data of a store or an atomic may have been changed there, and an entry whose image
names no kind is gone (R327). One at another address is translated anew (R96). -/
def Entry.restored (q : Entry) (ws : List Word) : Option Entry :=
  let w := fun i => ws.getD i 0
  let va := dword (w 0) (w 1)
  let q := if va = q.va then q else { q with va := va, gen := q.gen - 1 }
  if (w 2).toNat % 256 = 0 then none
  else some (match q.kind with
    | .store n _ sc own phys => { q with kind := .store n (BitVec.ofNat 128 (ofWords [w 4, w 5, w 6, w 7])) sc own phys }
    | .atomic op w64 upd ord _ _ dest => { q with kind := .atomic op w64 upd ord (dword (w 4) (w 5)) (dword (w 6) (w 7)) dest }
    | _ => q)

/-- Words listed from an index on, added to a map. -/
def putWords (i : Nat) (ws : List Word) (m : SMap Word) : SMap Word := (ws.zipIdx).foldl (fun m p => SMap.set 0 (i + p.2) p.1 m) m

/-- The words of a workgroup record before its trap frame (R329): the head, the frontier, the store queues of its home warps. -/
def Core.recordWords (y : Core) (g : Workgroup) : SMap Word :=
  let head := putWords 0 [BitVec.ofNat 32 (g.state.code + g.warps * 16 + g.hw * 256), BitVec.ofNat 32 g.launch, BitVec.ofNat 32 g.stage, 0,
    g.digest.lo, g.digest.hi, BitVec.ofNat 32 g.frontier.length] []
  let front := (g.frontier.zipIdx).foldl (fun m p => putWords (0x40 + 12 * p.2) p.1.image m) head
  (List.range g.warps).foldl (fun m h => (((y.queue (g.hw + h)).take 32).zipIdx).foldl
    (fun m p => putWords (0xC40 + 256 * h + 8 * p.2) p.1.image m) m) front

/-- The record of a workgroup slot that no workgroup holds (R329); nothing where the save area breaks R326. -/
def State.clearRecord (s : State) (c ws : Nat) : State :=
  let x := s.coreCtx c
  let base := s.saveArea x (((s.core c).lcore).getD 0)
  if s.saveAreaOk x base then s.pokeWords (base + saveWg ws) [0] else s

/-- The head of the record of a workgroup that is placed (R329); nothing where the save area breaks R326. -/
def State.markRecord (s : State) (c ws : Nat) (g : Workgroup) : State :=
  let x := s.coreCtx c
  let base := s.saveArea x (((s.core c).lcore).getD 0)
  if s.saveAreaOk x base then
    s.pokeWords (base + saveWg ws) [BitVec.ofNat 32 (WgState.resident.code + g.warps * 16 + g.hw * 256), BitVec.ofNat 32 g.launch, BitVec.ofNat 32 g.stage]
  else s

/-- Write a workgroup's registers, threads and record into the save area at a base (R327-R329). `trapped` lists the
threads that trapped. -/
def State.saveWorkgroup (s : State) (base c ws : Nat) (g : Workgroup) (trapped held : List Nat) : State :=
  let s := s.blit (base + saveRegs + g.hw * warpRegBytes) (g.warps * warpRegBytes) ((s.core c).wgRegs g)
  let s := (List.range (32 * g.warps)).foldl (fun s t =>
    let th := g.thread t
    s.pokeWords (base + saveThread (g.hw + t / 32) (t % 32)) (th.record (trapped.contains t) (held.contains t) (s.wakeData th) (s.deadlineOf th))) s
  (s.blit (base + saveWg ws) saveFrame ((s.core c).recordWords g)).blit (base + saveWg ws + 0x6E00) 0x1200 []

/-- The store queues of a workgroup's home warps restored from their images; what no image holds stays as it was (assumption 3). -/
def State.loadQueues (s : State) (base c ws : Nat) (g : Workgroup) : State :=
  (List.range g.warps).foldl (fun s h =>
    let q := (s.core c).queue (g.hw + h)
    let at_ := fun j => s.homeWords (base + saveWg ws + 0x3100 + 1024 * h + 32 * j) 8
    s.modCore c (·.setQueue (g.hw + h) (((q.take 32).zipIdx).filterMap (fun p => p.1.restored (at_ p.2)) ++ q.drop 32))) s

/-- The deadlines that the records of a workgroup's threads give their waits (R328). -/
def State.loadDeadlines (s : State) (base : Nat) (g : Workgroup) : State :=
  g.threads.foldl (fun s t => match t.2.park with
    | .waitu n =>
      let d := s.homeDword (base + saveThread (g.hw + t.1 / 32) (t.1 % 32) + 0x30)
      { s with waits := s.waits.map (fun w => if w.id = n then { w with deadline := if d = 0 then none else some d } else w) }
    | _ => s) s

/-- A workgroup, its registers and its store queues read back from the save area; its record then says that it is resident (R329, R332). -/
def State.loadWorkgroup (s : State) (base c ws : Nat) (g : Workgroup) : Workgroup × State :=
  let a := base + saveRegs + g.hw * warpRegBytes
  let r := base + saveWg ws
  let s := s.flushRange a (g.warps * warpRegBytes)
  let s := (s.modCore c (fun x => x.putWgRegs g (s.mem.wordsIn a (g.warps * warpRegBytes)))).loadQueues base c ws g
  let g := (List.range (32 * g.warps)).foldl (fun (g : Workgroup) t =>
    g.modThread t (s.threadAt (base + saveThread (g.hw + t / 32) (t % 32)))) g
  let front := (List.range (min 256 (s.homeWord (r + 0x18)).toNat)).map (fun i => s.fentryAt (s.ageClock g) (r + 0x100 + 48 * i))
  let g := { g with digest := s.homeDword (r + 0x10), frontier := front }
  (g, (s.loadDeadlines base g).pokeWords r [BitVec.ofNat 32 (WgState.resident.code + g.warps * 16 + g.hw * 256)])

/-! ### Re-pointing waits (R190) -/

/-- The waiter records of some waits are re-pointed: to a core and workgroup slot, or to the saved record (R190). -/
def State.repoint (s : State) (ids : List Nat) (place : Option (Nat × Nat)) : State :=
  let f := fun (e : MonEntry) =>
    { e with waiters := e.waiters.map (fun w => if w.waits.any (fun n => ids.contains n) then { w with place := place } else w) }
  let g := fun (k : Stack) =>
    { k with monitor := k.monitor.map (fun p => (p.1, p.2.map f)), spilled := k.spilled.map f, fallback := k.fallback.map f }
  if ids.isEmpty then s else { s with hbm := s.hbm.map (fun kv => (kv.1, g kv.2)) }

/-- The numbers of the waits that a workgroup's threads are parked on. -/
def Workgroup.waitIds (g : Workgroup) : List Nat := g.threads.filterMap (fun t => match t.2.park with
  | .waitu n => some n
  | _ => none)

end Sys2Proof.Machine
end

