-- ==== Sys2Proof/WellFormed.lean ====
section
/-! DEFINITION. The field rules that an instruction must meet in a stream: steps 4, 6 and 7 of R53, with R39-R44 and
the rules each instruction's own chapter states for its fields. An instruction that breaks one traps ILLEGAL. -/

namespace Sys2Proof

/-- The instruction is valid in the vector stream only (R49, R62, R118). -/
def onlyVec (st : Stream) : Bool := st == .vec

/-- The instruction is valid in the control stream only (R49). -/
def onlyCtl (st : Stream) : Bool := st == .ctl

/-- A 7-bit source code is one that R41 gives the stream. -/
def codeOk (st : Stream) (c : BitVec 7) : Bool :=
  let n := c.toNat
  match st with
  | .vec => n ≤ 75 || 80 ≤ n
  | .ctl => n ≤ 31 || n == 68 || (72 ≤ n && n ≤ 75) || 80 ≤ n

/-- Code 75 traps ILLEGAL in a 64-bit pair position of the vector stream (R57). -/
def pairCodeOk (st : Stream) (c : BitVec 7) : Bool := st == .ctl || c.toNat != 75

/-- A register field names `s0`-`s31` in the control stream (R39, R94, R209). -/
def regOk (st : Stream) (d : BitVec 6) : Bool := st == .vec || d.toNat ≤ 31

/-- A source that must be a control register (R209, R334). -/
def regCodeOk (c : BitVec 7) : Bool := c.toNat ≤ 31

/-- nw must be 0 in the control stream (R44). -/
def nwOk (st : Stream) (nw : BitVec 1) : Bool := st == .vec || nw == 0

/-- A base pair n names `s(2n):s(2n+1)` in the control stream, so n is below 16 (R41). -/
def baseOk (st : Stream) (n : BitVec 5) : Bool := st == .vec || n.toNat ≤ 15

/-- A register code that names a pair in the vector stream and one register in the control stream (R103, R178, R180). -/
def pairRegOk (st : Stream) (k : BitVec 7) : Bool :=
  match st with
  | .vec => k.toNat ≤ 62
  | .ctl => k.toNat ≤ 31

/-- The scope code lies between two codes of R13. -/
def scopeIn (sc : BitVec 3) (lo hi : Nat) : Bool := lo ≤ sc.toNat && sc.toNat ≤ hi

/-- How many barriers each scope has (R13): 16 per core, 8 per quad and die, 4 per context at package and pod. -/
def barrierCount (sc : Nat) : Nat :=
  match sc with
  | 1 => 16
  | 2 => 8
  | 3 => 8
  | 4 => 4
  | 5 => 4
  | _ => 0

/-- A barrier id lies below its scope's count (R181, R215). -/
def meetOk (sc : BitVec 3) (i : BitVec 4) : Bool := scopeIn sc 1 5 && i.toNat < barrierCount sc.toNat

/-- The sA operand of a lane exchange (R68): a register, codes 68-73 or a small immediate. -/
def laneCodeOk (c : BitVec 7) : Bool :=
  let n := c.toNat
  n ≤ 63 || (68 ≤ n && n ≤ 73) || 80 ≤ n

/-- Store data of 64 or 128 bits (R90, R94): a register code or code 68. -/
def dataCodeOk (st : Stream) (t : BitVec 7) (quadWord : Bool) : Bool :=
  let n := t.toNat
  match st with
  | .vec => n ≤ 63 || n == 68
  | .ctl => n ≤ (if quadWord then 30 else 31) || n == 68

/-- d = 31 is no destination of a 128-bit load in the control stream (R94). -/
def wideOk (st : Stream) (d : BitVec 6) : Bool := st == .vec || d.toNat ≤ 30

/-- A bag cursor occupies three registers (R135). -/
def cursorOk (st : Stream) (k : BitVec 7) : Bool :=
  match st with
  | .vec => k.toNat ≤ 61
  | .ctl => k.toNat ≤ 29

/-- The destination of `bnext` does not overlap its cursor (R135); with nw = 1 the device ignores d (R44). -/
def bnextDestOk (st : Stream) (k : BitVec 7) (nw : BitVec 1) (d : BitVec 6) : Bool :=
  let c := k.toNat
  let n := d.toNat
  match st with
  | .vec => nw == 1 || (n ≤ 62 && (n + 1 < c || c + 2 < n))
  | .ctl => n ≤ 31 && (n < c || c + 2 < n)

/-- The effect id of `hpush` (R195): 1-6, 32-254, or 255 for a catch-all frame. -/
def hpushOk (e : BitVec 8) : Bool := (1 ≤ e.toNat && e.toNat ≤ 6) || 32 ≤ e.toNat

/-- R39: the 16-bit form in each stream. -/
def HForm.ok (st : Stream) (f : HForm) : Bool := st == .vec || (f.d.toNat ≤ 31 && f.b.toNat ≤ 27)

/-- R40, R41, R44 for format R. -/
def RForm.ok (st : Stream) (f : RForm) : Bool := codeOk st f.a && codeOk st f.b && regOk st f.d && nwOk st f.n

/-- R40, R41, R44 for the compares. -/
def CmpForm.ok (st : Stream) (f : CmpForm) : Bool := codeOk st f.a && codeOk st f.b && nwOk st f.n

/-- R40, R41, R44 for format X with one source. -/
def UForm.ok (st : Stream) (f : UForm) : Bool := codeOk st f.a && regOk st f.d && nwOk st f.n

/-- R42, R94, R95 for loads. -/
def LdForm.ok (st : Stream) (f : LdForm) : Bool :=
  let o := f.o.toNat
  let sc := f.s.toNat
  regOk st f.d && baseOk st f.n &&
    ((o ≤ 1 && (sc == 0 || (sc == 6 && st == .ctl && f.p == 0))) || (o == 2 && 1 ≤ sc && sc ≤ 5))

/-- R42, R95 for stores. -/
def StForm.ok (st : Stream) (f : StForm) : Bool :=
  let o := f.o.toNat
  let sc := f.s.toNat
  baseOk st f.n && ((o == 0 && (sc == 0 || (sc == 6 && st == .ctl))) || (o == 3 && 1 ≤ sc && sc ≤ 5))

/-- R100, R101 for `red` and `red.w64`. -/
def RedForm.ok (st : Stream) (f : RedForm) : Bool :=
  let o := f.o.toNat
  baseOk st f.n && codeOk st f.b &&
    (if f.w == 0 then o ≤ 7 || (10 ≤ o && o ≤ 13) else (o ≤ 7 || o == 10 || o == 11) && pairCodeOk st f.b)

/-- The field rules of an instruction in a stream (R53, steps 4, 6 and 7). An event has no fields to check, and
an unassigned encoding is never well formed. DESIGN CHOICE (assumption 57): `qrv` with d = 63 is ill formed also where nw is 1, by the table
of R118. -/
def Instr.wf (st : Stream) : Instr → Bool
  | .mov16 f => HForm.ok st f
  | .addI3216 f => HForm.ok st f
  | .subI3216 f => HForm.ok st f
  | .mulI3216 f => HForm.ok st f
  | .and16 f => HForm.ok st f
  | .or16 f => HForm.ok st f
  | .xor16 f => HForm.ok st f
  | .shl16 f => HForm.ok st f
  | .shrN3216 f => HForm.ok st f
  | .shrI3216 f => HForm.ok st f
  | .addF3216 _ => onlyVec st
  | .subF3216 _ => onlyVec st
  | .mulF3216 _ => onlyVec st
  | .minF3216 _ => onlyVec st
  | .maxF3216 _ => onlyVec st
  | .addi16 _ d => regOk st d
  | .addI32 f => RForm.ok st f
  | .subI32 f => RForm.ok st f
  | .mulI32 f => RForm.ok st f
  | .mulhiI32 f => RForm.ok st f
  | .mulhiN32 f => RForm.ok st f
  | .madI32 f => RForm.ok st f
  | .minI32 f => RForm.ok st f
  | .maxI32 f => RForm.ok st f
  | .minN32 f => RForm.ok st f
  | .maxN32 f => RForm.ok st f
  | .and f => RForm.ok st f
  | .or f => RForm.ok st f
  | .xor f => RForm.ok st f
  | .andn f => RForm.ok st f
  | .shl f => RForm.ok st f
  | .shrN32 f => RForm.ok st f
  | .shrI32 f => RForm.ok st f
  | .rotl f => RForm.ok st f
  | .add64 f => RForm.ok st f && pairCodeOk st f.a && pairCodeOk st f.b
  | .sub64 f => RForm.ok st f && pairCodeOk st f.a && pairCodeOk st f.b
  | .mad64 f => RForm.ok st f && pairCodeOk st f.a && pairCodeOk st f.b
  | .sel f => RForm.ok st f
  | .cmpI32 f => CmpForm.ok st f && f.c.toNat ≤ 5
  | .cmpN32 f => CmpForm.ok st f && f.c.toNat ≤ 5
  | .mov f => UForm.ok st f
  | .not f => UForm.ok st f
  | .neg f => UForm.ok st f
  | .abs f => UForm.ok st f
  | .popc f => UForm.ok st f
  | .clz f => UForm.ok st f
  | .ctz f => UForm.ok st f
  | .brev f => UForm.ok st f
  | .sextW8 f => UForm.ok st f
  | .sextW16 f => UForm.ok st f
  | .zextW8 f => UForm.ok st f
  | .zextW16 f => UForm.ok st f
  | .pget nw d _ => nwOk st nw && regOk st d
  | .pset a _ => codeOk st a
  | .rdtick _ _ _ => onlyVec st
  | .rdtickHi _ _ _ => onlyVec st
  | .rdid which _ _ _ => onlyVec st && which.toNat ≤ 5
  | .bfeI32 f => RForm.ok st f
  | .bfeN32 f => RForm.ok st f
  | .bfi f => RForm.ok st f
  | .pand f => nwOk st f.w
  | .por f => nwOk st f.w
  | .pxor f => nwOk st f.w
  | .pandn f => nwOk st f.w
  | .pnot f => nwOk st f.w
  | .pmov f => nwOk st f.w
  | .addi _ a d => codeOk st a && regOk st d
  | .andi _ a d => codeOk st a && regOk st d
  | .ldi _ d => regOk st d
  | .ldiHi _ d => regOk st d
  | .addF32 f => onlyVec st && RForm.ok st f
  | .subF32 f => onlyVec st && RForm.ok st f
  | .mulF32 f => onlyVec st && RForm.ok st f
  | .fmaF32 f => onlyVec st && RForm.ok st f
  | .minF32 f => onlyVec st && RForm.ok st f
  | .maxF32 f => onlyVec st && RForm.ok st f
  | .divF32 f => onlyVec st && RForm.ok st f
  | .cmpF32 f => onlyVec st && CmpForm.ok st f
  | .negF32 f => onlyVec st && UForm.ok st f
  | .absF32 f => onlyVec st && UForm.ok st f
  | .rintNeF32 f => onlyVec st && UForm.ok st f
  | .rintZF32 f => onlyVec st && UForm.ok st f
  | .rintUpF32 f => onlyVec st && UForm.ok st f
  | .rintDnF32 f => onlyVec st && UForm.ok st f
  | .rcpF32 f => onlyVec st && UForm.ok st f
  | .rsqrtF32 f => onlyVec st && UForm.ok st f
  | .sqrtF32 f => onlyVec st && UForm.ok st f
  | .exp2F32 f => onlyVec st && UForm.ok st f
  | .log2F32 f => onlyVec st && UForm.ok st f
  | .sinF32 f => onlyVec st && UForm.ok st f
  | .cosF32 f => onlyVec st && UForm.ok st f
  | .sinpiF32 f => onlyVec st && UForm.ok st f
  | .cospiF32 f => onlyVec st && UForm.ok st f
  | .fclassF32 f => onlyVec st && UForm.ok st f
  | .cvtF16F32 f => onlyVec st && codeOk st f.a && f.r.toNat ≤ 4
  | .cvtBf16F32 f => onlyVec st && codeOk st f.a && f.r.toNat ≤ 4
  | .cvtF32F16 f => onlyVec st && codeOk st f.a && f.r.toNat ≤ 4
  | .cvtF32Bf16 f => onlyVec st && codeOk st f.a && f.r.toNat ≤ 4
  | .cvtI32F32 f => onlyVec st && codeOk st f.a && f.r.toNat ≤ 4
  | .cvtN32F32 f => onlyVec st && codeOk st f.a && f.r.toNat ≤ 4
  | .cvtF32I32 f => onlyVec st && codeOk st f.a && f.r.toNat ≤ 4
  | .cvtF32N32 f => onlyVec st && codeOk st f.a && f.r.toNat ≤ 4
  | .cvtI8F32 f => onlyVec st && codeOk st f.a && f.r.toNat ≤ 4
  | .cvtF32I8 f => onlyVec st && codeOk st f.a && f.r.toNat ≤ 4
  | .cvtI8I32 f => onlyVec st && codeOk st f.a && f.r.toNat ≤ 4
  | .cvtBf16F16 f => onlyVec st && codeOk st f.a && f.r.toNat ≤ 4
  | .cvtF16Bf16 f => onlyVec st && codeOk st f.a && f.r.toNat ≤ 4
  | .addH2 f => onlyVec st && RForm.ok st f
  | .mulH2 f => onlyVec st && RForm.ok st f
  | .fmaH2 f => onlyVec st && RForm.ok st f
  | .addBh2 f => onlyVec st && RForm.ok st f
  | .mulBh2 f => onlyVec st && RForm.ok st f
  | .fmaBh2 f => onlyVec st && RForm.ok st f
  | .dot2Bh f => onlyVec st && RForm.ok st f
  | .dot2H f => onlyVec st && RForm.ok st f
  | .scaleF32 f => onlyVec st && RForm.ok st f
  | .sincosF32 f => onlyVec st && UForm.ok st f
  | .dsdecDs8 f => onlyVec st && codeOk st f.a
  | .dsdecDs4 f => onlyVec st && codeOk st f.a
  | .dsencDs8 f => onlyVec st && codeOk st f.a
  | .dsencDs4 f => onlyVec st && codeOk st f.a
  | .lget f => onlyVec st && laneCodeOk f.a && codeOk st f.b
  | .lgetX f => onlyVec st && laneCodeOk f.a && codeOk st f.b
  | .lgetSub f => onlyVec st && laneCodeOk f.a && codeOk st f.b
  | .lgetAdd f => onlyVec st && laneCodeOk f.a && codeOk st f.b
  | .swp f => onlyVec st && laneCodeOk f.a && codeOk st f.b
  | .pollAny _ _ _ _ => onlyVec st
  | .pollAll _ _ _ _ => onlyVec st
  | .pollMask _ _ _ _ => onlyVec st
  | .pollFirst _ _ _ => onlyVec st
  | .pollSame f => onlyVec st && laneCodeOk f.a
  | .pollCount _ _ _ _ => onlyVec st
  | .bcast f => onlyVec st && laneCodeOk f.a && codeOk st f.b
  | .ldW8 f => LdForm.ok st f
  | .ldW16 f => LdForm.ok st f
  | .ldW32 f => LdForm.ok st f
  | .ldW64 f => LdForm.ok st f
  | .ldW128 f => LdForm.ok st f && wideOk st f.d
  | .ldX8 f => LdForm.ok st f
  | .ldX16 f => LdForm.ok st f
  | .stW8 f => StForm.ok st f && codeOk st f.t
  | .stW16 f => StForm.ok st f && codeOk st f.t
  | .stW32 f => StForm.ok st f && codeOk st f.t
  | .stW64 f => StForm.ok st f && dataCodeOk st f.t false
  | .stW128 f => StForm.ok st f && dataCodeOk st f.t true
  | .ldsp a width d => codeOk st a && width.toNat ≤ 2 && regOk st d && (width.toNat != 2 || wideOk st d)
  | .stsp data a width => codeOk st a && width.toNat ≤ 2 && (if width.toNat = 0 then codeOk st data else dataCodeOk st data (width.toNat == 2))
  | .atomW32 f => baseOk st f.n && regOk st f.d && codeOk st f.b && f.o.toNat ≤ 13
  | .atomW64 f => baseOk st f.n && regOk st f.d && codeOk st f.b && pairCodeOk st f.b && f.o.toNat ≤ 11
  | .red f => RedForm.ok st f
  | .fence sc _ => scopeIn sc 1 5
  | .acqSteal sc a _ => scopeIn sc 2 4 && codeOk st a
  | .pgreq k j _ => pairRegOk st k && pairRegOk st (j.setWidth 7)
  | .prefetch lvl k _ => pairRegOk st k && lvl.toNat ≤ 2
  | .wbspan mode k d _ => pairRegOk st k && regOk st d && mode.toNat ≤ 1
  | .invspan k d _ => pairRegOk st k && regOk st d
  | .cp f => f.k.toNat ≤ 1
  | .cpg f => f.k.toNat ≤ 1
  | .cpm _ _ _ => true
  | .qpop _ nw d _ => nwOk st nw && regOk st d
  | .qrel _ _ => true
  | .qstat _ nw d _ => nwOk st nw && regOk st d
  | .cwait f => nwOk st f.w && regOk st f.d
  | .ctest f => nwOk st f.w && regOk st f.d
  | .cclr _ _ => true
  | .fset _ _ _ => onlyVec st
  | .fwait _ _ _ => onlyVec st
  | .qrv _ d _ => onlyVec st && d.toNat ≤ 62
  | .qsv a _ _ => onlyVec st && codeOk st a
  | .bput f => onlyVec st && f.r.toNat ≤ 63 && codeOk st f.k && f.z.toNat ≤ 4
  | .bcount _ nw d _ => nwOk st nw && regOk st d
  | .bshare _ nw d _ => nwOk st nw && regOk st d
  | .biter _ nw d _ => nwOk st nw && cursorOk st (d.setWidth 7)
  | .bnext k nw d _ => nwOk st nw && cursorOk st k && bnextDestOk st k nw d
  | .bdrain k nw d _ => nwOk st nw && pairRegOk st k && regOk st d
  | .bgrow _ d _ => regOk st d
  | .mmx _ => true
  | .mzero _ _ _ => true
  | .mzeroBias _ => true
  | .mld f => f.r.toNat ≤ 2
  | .mst _ => true
  | .mscan _ _ _ => true
  | .bra _ _ => true
  | .call _ _ => true
  | .jmpi k _ => pairRegOk st k
  | .calli k _ => pairRegOk st k
  | .ret _ => true
  | .exit _ => true
  | .yield _ => true
  | .nop _ => true
  | .trap a _ => codeOk st a
  | .brk _ => true
  | .meetPost sc i nw d _ => nwOk st nw && meetOk sc i && regOk st d
  | .meetAwait sc i k _ => meetOk sc i && regOk st k
  | .meetJoin sc i _ => meetOk sc i
  | .waitu f => baseOk st f.n && scopeIn f.s 1 5 && codeOk st f.p
  | .wqenter _ _ => onlyVec st
  | .wqwait _ _ _ _ => onlyVec st
  | .wqleave _ _ => onlyVec st
  | .perform f => onlyVec st && codeOk st f.a
  | .hpush f => onlyVec st && hpushOk (f.e7 ++ f.e)
  | .hpop _ => onlyVec st
  | .resume a _ _ => onlyVec st && codeOk st a
  | .resumeM a _ _ => onlyVec st && codeOk st a
  | .abandon _ _ => onlyVec st
  | .ade _ _ _ mode => mode.toNat ≤ 1
  | .dload _ _ => true
  | .drun _ _ => true
  | .coll f => f.k.toNat ≤ 3 && f.o.toNat ≤ 2 && (f.k.toNat < 2 || f.o == 0)
  | .qsend a _ => onlyCtl st && codeOk st a
  | .qrecv d _ => onlyCtl st && regOk st d
  | .ctFset _ _ => onlyCtl st
  | .fclr _ _ => onlyCtl st
  | .ctFwait _ _ _ => onlyCtl st
  | .gset a _ _ => onlyCtl st && codeOk st a
  | .gclr _ _ => onlyCtl st
  | .grd _ _ => onlyCtl st
  | .launch a d _ => onlyCtl st && regCodeOk a && regOk st d
  | .tdset _ d _ => onlyCtl st && regOk st d
  | .qinit _ d _ => onlyCtl st && regOk st d
  | .meetinit sc i d _ => onlyCtl st && meetOk sc i && regOk st d
  | .ctRdtick d _ => onlyCtl st && regOk st d
  | .ctRdid which d _ => onlyCtl st && which.toNat != 3 && regOk st d
  | .bmake a d _ => onlyCtl st && regCodeOk a && regOk st d
  | .bseal a d _ => onlyCtl st && regCodeOk a && regOk st d
  | .bfree a d _ => onlyCtl st && regCodeOk a && regOk st d
  | .tret k a d _ => onlyCtl st && k.toNat ≤ 2 && codeOk st a && regOk st d
  | .cxsave d _ => onlyCtl st && regOk st d
  | .cxload a d _ => onlyCtl st && codeOk st a && regOk st d
  | .genset d _ => onlyCtl st && regOk st d
  | .xinv a d _ => onlyCtl st && regCodeOk a && regOk st d
  | .rdsr _ d _ => onlyCtl st && regOk st d
  | .wrsr _ a _ _ => onlyCtl st && codeOk st a
  | .tickstop a d _ => onlyCtl st && regCodeOk a && regOk st d
  | .dgrd k a d _ => onlyCtl st && regOk st d && (if k.toNat = 0 then codeOk st a else k.toNat == 1 && a.toNat == 68)
  | .halt _ => onlyCtl st
  | .formWarp _ => true
  | .entryAged _ _ _ => true
  | .storeLeaveQueue _ _ => true
  | .homeWrite _ => true
  | .homeRead _ => true
  | .loadReply _ _ => true
  | .atomicAtHome _ => true
  | .atomicReply _ => true
  | .staleRejectRetry _ => true
  | .heldEntryResend _ _ => true
  | .errorReply _ => true
  | .waitArrive _ => true
  | .fallbackSweep _ _ => true
  | .waitDeadline _ => true
  | .waitCancel _ => true
  | .waitReply _ => true
  | .evictedWake _ => true
  | .stealPromotion _ => true
  | .stealAck _ => true
  | .barrierArrival _ => true
  | .staithePut _ => true
  | .staitheDrain _ => true
  | .staitheSnapshot _ => true
  | .staitheNext _ => true
  | .staitheCount _ => true
  | .staitheGrow _ => true
  | .staitheMake _ => true
  | .staitheSeal _ => true
  | .staitheFree _ => true
  | .lengthsmanEnter _ => true
  | .lengthsmanWait _ => true
  | .lengthsmanLeave _ => true
  | .bagReply _ => true
  | .copyAccept _ => true
  | .copyStart _ => true
  | .copyComplete _ _ => true
  | .guardResolve _ => true
  | .matrixAccept _ => true
  | .reservationAging _ _ => true
  | .groupForm _ _ => true
  | .matrixGrant _ => true
  | .matrixComplete _ _ => true
  | .adeAccept _ => true
  | .adeStart _ => true
  | .adeComplete _ => true
  | .dloadApply _ => true
  | .drunStart _ => true
  | .delfOperation _ => true
  | .drunComplete _ => true
  | .channelSelfRefresh _ => true
  | .collStart _ => true
  | .collComplete _ => true
  | .collWatchdog _ => true
  | .haltStatus _ => true
  | .placeLaunch _ => true
  | .launchComplete _ _ => true
  | .runaway _ _ => true
  | .switchRequest _ => true
  | .evictWorkgroup _ _ => true
  | .logicalCoreSwitch _ => true
  | .ctTakeEvent _ => true
  | .startRequest _ _ => true
  | .removeContext _ _ => true
  | .removalStep _ => true
  | .removalStall _ => true
  | .wayQuarantine _ _ _ => true
  | .warmReset _ => true
  | .resetStep _ => true
  | .switchoutTimeout _ _ => true
  | .packageFatal _ => true
  | .tickstopFire => true
  | .counterUpdate => true
  | .linkRetrain _ => true
  | .linkWatchdog _ => true
  | .peerAccess _ => true
  | .putWindowWrite _ _ _ => true
  | .memoryWindowAccess _ => true
  | .interruptPageStore _ => true
  | .unboundVfRequest _ => true
  | .registerPageWrite _ _ => true
  | .errorInjectRequest _ => true
  | .errorInjectFire _ => true
  | .boot => true
  | .attestation _ => true
  | .createContext _ => true
  | .assignCore _ _ => true
  | .tableWrite _ _ => true
  | .bindVf _ _ => true
  | .debugResume _ => true
  | .powerSample => true
  | .droop _ => true
  | .retainEntry _ => true
  | .stallSample _ => true
  | .unassignedEncoding _ => false
  | .scrub _ _ => true
  | .failedFlit _ => true
  | .writeAcknowledgement _ _ => true
  | .remapWrite _ _ _ => true
  | .sequencerAssign _ _ => true
  | .channelSelfRefreshExit _ => true
  | .powerCapSet _ => true
  | .putSlotBind _ _ _ => true

end Sys2Proof
end

