-- ==== Sys2Proof/Machine/Ops.lean ====
section
/-! DEFINITION. The operations the meanings share: the frontier (R18-R24), taking a trap and returning from it (R323,
R324, R335), performing an effect (R197-R202), store queues (R25), and the issue of an instruction in either stream with
the checks of R53. -/

namespace Sys2Proof.Machine

/-! ### Codes -/

/-- Trap codes (R321). -/
def trapILLEGAL : Nat := 0x01
/-- See `trapILLEGAL`. -/
def trapZEROWORD : Nat := 0x02
/-- See `trapILLEGAL`. -/
def trapALLONES : Nat := 0x03
/-- See `trapILLEGAL`. -/
def trapREGRANGE : Nat := 0x04
/-- See `trapILLEGAL`. -/
def trapLATCHVOID : Nat := 0x05
/-- See `trapILLEGAL`. -/
def trapALIGN : Nat := 0x06
/-- See `trapILLEGAL`. -/
def trapPRIV : Nat := 0x07
/-- See `trapILLEGAL`. -/
def trapWATCH : Nat := 0x08
/-- See `trapILLEGAL`. -/
def trapTOKENSTALE : Nat := 0x09
/-- See `trapILLEGAL`. -/
def trapUNHANDLED : Nat := 0x0A
/-- See `trapILLEGAL`. -/
def trapSWTRAP : Nat := 0x0B
/-- See `trapILLEGAL`. -/
def trapBRK : Nat := 0x0C
/-- See `trapILLEGAL`. -/
def trapRUNAWAY : Nat := 0x0D
/-- See `trapILLEGAL`. -/
def trapDIGEST : Nat := 0x0E
/-- See `trapILLEGAL`. -/
def trapADDR : Nat := 0x0F
/-- See `trapILLEGAL`. -/
def trapENGINEFATAL : Nat := 0x10
/-- See `trapILLEGAL`. -/
def trapPOISON : Nat := 0x11

/-- Hardware effect ids (R206). -/
def effBAGFULL : Nat := 1
/-- See `effBAGFULL`. -/
def effPAGEABSENT : Nat := 2
/-- See `effBAGFULL`. -/
def effWAITTIMEOUT : Nat := 3
/-- See `effBAGFULL`. -/
def effREMOTEERR : Nat := 4
/-- See `effBAGFULL`. -/
def effBAGRESERVE : Nat := 5
/-- See `effBAGFULL`. -/
def effENGINEERR : Nat := 6

/-- The word and the 32-bit flag of an instruction: the encoder's, or the word itself where it names none (R330). -/
def wordOf (i : Instr) : Word × Bool :=
  match i with
  | .unassignedEncoding w => (w, w.getLsbD 0)
  | i => match encode i with
    | some (.half h) => (h.setWidth 32, false)
    | some (.word w) => (w, true)
    | none => (0, true)

/-- The length of an instruction in bytes (R34). -/
def instrLen (i : Instr) : Nat := if (wordOf i).2 then 4 else 2

/-! ### Launches and block priority (R175) -/

/-- The stage a workgroup runs. -/
def State.stageOf (s : State) (g : Workgroup) : Option StageInfo := (s.launch g.ctx g.launch).bind (fun l => l.stages[g.stage]?)

/-- The block priority of a PC in a stage's priority range table (R175). -/
def StageInfo.prio (st : StageInfo) (pc : DWord) : Nat :=
  if pc.toNat < st.entry.toNat then 0 else
  let off := (pc - st.entry).toNat / 2
  st.prios.foldl (fun acc w => if w != 0xFFFFFFFF && decide (w.toNat / 256 ≤ off) then w.toNat % 256 else acc) 0

/-- The block priority of a PC for a workgroup. -/
def State.blockPrio (s : State) (g : Workgroup) (pc : DWord) : BitVec 8 :=
  match s.stageOf g with
  | some st => BitVec.ofNat 8 (st.prio pc)
  | none => 0

/-! ### The frontier (R18-R24) -/

/-- The order of frontier entries: higher priority, then greater depth, then lower PC (R18). -/
def FEntry.before (a b : FEntry) : Bool :=
  b.prio.ult a.prio || (a.prio == b.prio && (b.depth.ult a.depth || (a.depth == b.depth && a.pc.ult b.pc)))

/-- Two entries have one key. -/
def FEntry.sameKey (a b : FEntry) : Bool := a.prio == b.prio && a.depth == b.depth && a.pc == b.pc

/-- Put an entry in its place, joining the one with its key (R18). -/
def enterList (e : FEntry) : List FEntry → List FEntry
  | [] => [e]
  | f :: fs =>
    if e.sameKey f then { f with mask := f.mask ||| e.mask } :: fs
    else if e.before f then e :: f :: fs
    else f :: enterList e fs

/-- Mark the first entry that a test picks. -/
def markFirst (p : FEntry → Bool) (f : FEntry → FEntry) : List FEntry → List FEntry
  | [] => []
  | e :: es => if p e then f e :: es else e :: markFirst p f es

/-- Keep at most 32 entries on chip: the lowest moves to the spill; a freed place takes the highest spilled entry
(R20). DESIGN CHOICE (assumption 3): a spilled entry is marked in the workgroup's record, and no byte of the save area holds it. -/
def settle (tick : DWord) (l : List FEntry) : List FEntry :=
  if 32 < (l.filter (fun e => !e.spilled)).length then
    (markFirst (fun e => !e.spilled) (fun e => { e with spilled := true, since := tick, aged := false }) l.reverse).reverse
  else if (l.filter (fun e => !e.spilled)).length < 32 then
    markFirst (·.spilled) (fun e => { e with spilled := false }) l
  else l

/-- A thread enters its workgroup's frontier with its PC, depth and block priority (R18, R24). -/
def State.enter (s : State) (g : Workgroup) (tid : Nat) : Workgroup :=
  let t := g.thread tid
  let e : FEntry := { prio := s.blockPrio g t.pc, pc := t.pc, depth := t.depth, mask := BitVec.twoPow 256 tid, since := s.ageClock g,
                      aged := false, spilled := false }
  { g with frontier := settle (s.ageClock g) (enterList e g.frontier) }

/-- A thread of a core enters its frontier. -/
def State.toFrontier (s : State) (c ws tid : Nat) : State := s.modWg c ws fun g => s.enter g tid

/-- The saved record of a thread of a workgroup that is not resident says that it is woken (R190, R328). -/
def State.markWoken (s : State) (c : Nat) (g : Workgroup) (tid : Nat) : State :=
  let base := s.saveArea g.ctx (((s.core c).lcore).getD 0)
  let a := base + saveThread (g.hw + tid / 32) (tid % 32) + 0x24
  if g.started && s.saveAreaOk g.ctx base then s.pokeWords a [s.homeWord a ||| 0x100] else s

/-- A woken thread leaves its blocking point and returns to the frontier (R171). In a workgroup that is not resident it
is marked woken, also in its record, and the workgroup becomes runnable (R190). -/
def State.wake (s : State) (c ws tid : Nat) : State :=
  match (s.core c).wg ws with
  | none => s
  | some g =>
    if g.state = .resident then (s.modThread c ws tid fun t => { t with park := .none, woken := false }).toFrontier c ws tid
    else (s.modWg c ws fun g => { (g.modThread tid fun t => { t with park := .none, woken := true }) with
      state := if g.state = .evictedWaiting then .evictedRunnable else g.state }).markWoken c g tid

/-- A thread parks at a blocking point (R171). -/
def State.parkThread (s : State) (c ws tid : Nat) (p : Park) : State :=
  s.modThread c ws tid fun t => { t with park := p, reached := true }

/-- A formed warp dissolves: its threads that are live and not parked return to the frontier, its latches are void, and
results still due no longer reach a latch (R24). -/
def State.dissolve (s : State) (c k : Nat) : State :=
  match (s.core c).warp k with
  | none => s
  | some w =>
    match (s.core c).wg w.ws with
    | none => s.modCore c (·.setWarp k none)
    | some g =>
      let back := (w.threads 0).filter (fun l => (g.thread l.tid).live && (g.thread l.tid).park == .none)
      let g := back.foldl (fun g l => s.enter g l.tid) g
      s.modCore c fun x => { (x.setWarp k none).setWg w.ws (some g) with
        loads := x.loads.map (fun p => if p.warp = some k then { p with warp := none } else p) }

/-- The lanes of a load of a formed warp. -/
def Load.lane (p : Load) : Nat :=
  match p.who with
  | .lane _ _ _ _ tid => tid % 32
  | _ => 0

/-- The threads of a formed warp but those of some lanes leave it, as at a dissolution (R24). -/
def State.shed (s : State) (c k : Nat) (keep : List Nat) : State :=
  match (s.core c).warp k with
  | none => s
  | some w =>
    match (s.core c).wg w.ws with
    | none => s.modCore c (·.setWarp k none)
    | some g =>
      let back := (w.threads 0).filter (fun l => !keep.contains l.lane && (g.thread l.tid).live && (g.thread l.tid).park == .none)
      let g := back.foldl (fun g l => s.enter g l.tid) g
      let w' := { w with lanes := w.lanes.filter (fun kv => keep.contains kv.1),
                         flights := w.flights.map (fun f => { f with lanes := f.lanes &&& maskOf keep }) }
      s.modCore c fun x => { (x.setWarp k (some w')).setWg w.ws (some g) with
        loads := x.loads.map (fun p => if p.warp = some k && !keep.contains p.lane then { p with warp := none } else p) }

/-- Set each thread's record of a list of lanes. -/
def State.eachThread (s : State) (c ws : Nat) (ls : List Lane) (f : Lane → Thread → Thread) : State :=
  s.modWg c ws fun g => ls.foldl (fun g l => g.modThread l.tid (f l)) g

/-- An instruction has issued: the warp's run count and tick advance; the run ends after its 64th instruction, or where
the instruction ends it (R23). -/
def State.endIssue (s : State) (e : Env) (ends : Bool) : State :=
  let n := e.w.run + 1
  let s := s.modCore e.c fun x => match x.warp e.k with
    | some w => x.setWarp e.k (some { w with run := n, last := s.tick })
    | none => x
  if ends || decide (64 ≤ n) then s.dissolve e.c e.k else s

/-- Every thread of the warp goes on after the instruction (R34). -/
def State.advance (s : State) (e : Env) (len : Nat) (ends : Bool) : State :=
  (s.eachThread e.c e.ws e.lanes fun _ t => { t with pc := pc48 (e.pc + BitVec.ofNat 64 len), watched := false, capture := none }).endIssue e ends

/-! ### Records in the context's areas (R320, R366, R373, R379) -/

/-- The target of a window frame (R309): its address bits, and the word with kind, package, function and endpoint. -/
def State.windowTarget (s : State) (pa : Nat) : Nat × Nat :=
  let e := s.entryAddr (gfnOf pa)
  (((s.mem.word (e + 0x10)).toNat + 2 ^ 32 * (s.mem.word (e + 0x14)).toNat) / 65536 * 65536 + pa % 65536, (s.mem.word (e + 0x18)).toNat)

/-- A request to a peer window leaves over a Pelbunis link, under the context's current generation (R74, R309, R365). -/
def State.toPeer (s : State) (x pa : Nat) (kind : PeerKind) (size : Nat) (data : BitVec 128) : State :=
  let t := s.windowTarget pa
  { s with out := s.out ++ [.peerRequest { pkg := bitsOf t.2 29 21, ctx := x, gen := (s.ctx x).gen, va := BitVec.ofNat 64 t.1, kind := kind,
                                           size := size, data := data }] }

/-- A read of a window frame leaves for the host's bus address with the function's requester ID, or for the peer package (R309). -/
def State.readWindow (s : State) (x pa size : Nat) : State :=
  let t := s.windowTarget pa
  match s.windowKind pa with
  | 0 => { s with out := s.out ++ [.hostRead (bitsOf t.2 11 11) (bitsOf t.2 20 12) t.1 size] }
  | 1 => s.toPeer x pa .load size 0
  | _ => s

/-- A store to a window frame goes to the host, over a link, or raises an interrupt (R74, R309, R364). -/
def State.toWindow (s : State) (x pa size data : Nat) : State :=
  let e := s.entryAddr (gfnOf pa)
  let w := (s.mem.word (e + 0x18)).toNat
  let page := ((s.mem.word (e + 0x10)).toNat + 2 ^ 32 * (s.mem.word (e + 0x14)).toNat) / 65536 * 65536
  match s.windowKind pa with
  | 0 => { s with out := s.out ++ [.hostWrite (bitsOf w 11 11) (bitsOf w 20 12) (page + pa % 65536) (leBytes size data)] }
  | 1 => s.toPeer x pa .store size (BitVec.ofNat 128 data)
  | 2 =>
    { s with out := s.out ++ [.pageStore (bitsOf w 11 11) (bitsOf w 20 12) (pa % 65536) size data] }
  | _ => s

/-- An address lies in the header page of a live bag (R126). -/
def State.isHeader (s : State) (pa : Nat) : Bool := s.bags.any (fun b => !b.freed && decide (b.headerPa ≤ pa ∧ pa < b.headerPa + 65536))

/-- The home of the page that holds a virtual address of a context takes no request (R353). -/
def State.vaDown (s : State) (x : Nat) (va : DWord) : Bool :=
  match s.walk x va with
  | some t => s.homeDown t.pa
  | none => false

/-- A word written at a place by the device, at its home or to a window: dropped at the header page of a bag (R126), and at a home that takes no
request (R7, R353). -/
def State.putAt (s : State) (x pa : Nat) (w : Word) : State :=
  if s.isHeader pa || s.homeDown pa then s
  else if isWindowPa pa then (if s.ownsFrame x pa then s.toWindow x pa 4 w.toNat else s)
  else s.storeHome pa w

/-- A word at a virtual address of a context, as the device writes it: dropped where no writable page holds it (R163, R170). -/
def State.devStore (s : State) (x : Nat) (va : DWord) (w : Word) : State :=
  match s.walk x va with
  | some t => if t.grants permW then s.putAt x t.pa w else s
  | none => s

/-- Words at successive virtual addresses. -/
def State.devStores (s : State) (x : Nat) (va : DWord) : List Word → State
  | [] => s
  | w :: ws => State.devStores (s.devStore x va w) x (va + 4) ws

/-- The word at a virtual address of a context at its home, where a page holds it and the home answers. -/
def State.devLoad (s : State) (x : Nat) (va : DWord) : Option Word :=
  match s.walk x va with
  | some t => if t.grants permR && !isWindowPa t.pa && !s.homeDown t.pa then some (s.homeWord t.pa) else none
  | none => none

/-- A word of an area that a context gives the device, which asks that the page be resident and the context's, and for no permission (R320, R366,
R373, R379). -/
def State.areaStore (s : State) (x : Nat) (va : DWord) (w : Word) : State :=
  match s.walk x va with
  | some t => s.putAt x t.pa w
  | none => s

/-- Words of an area. -/
def State.areaStores (s : State) (x : Nat) (va : DWord) : List Word → State
  | [] => s
  | w :: ws => State.areaStores (s.areaStore x va w) x (va + 4) ws

/-- The word of an area at its home. -/
def State.areaLoad (s : State) (x : Nat) (va : DWord) : Option Word :=
  match s.walk x va with
  | some t => if isWindowPa t.pa || s.homeDown t.pa then none else some (s.homeWord t.pa)
  | none => none

/-- Append a 32-byte record to an area of 2,046 records with prod at 0xFFC0 and cons at 0xFFC4 (R366). While the area is
full, prod counts and the record is not written. -/
def State.areaAppend (s : State) (x : Nat) (base : DWord) (rec : List Word) : State :=
  match s.areaLoad x (base + 0xFFC0), s.areaLoad x (base + 0xFFC4) with
  | some prod, some cons =>
    let s := if (prod - cons).toNat < 2046 then s.areaStores x (base + BitVec.ofNat 64 (32 * (prod.toNat % 2046))) rec else s
    s.areaStore x (base + 0xFFC0) (prod + 1)
  | _, _ => s

/-- An event in a context's event area, and MSI-X vector 0 of the functions bound to it (R366). -/
def State.event (s : State) (x kind code pkg : Nat) (va : DWord) : State :=
  let s := s.areaAppend x ((s.ctx x).reg 0x1E)
    [s.tick.lo, s.tick.hi, BitVec.ofNat 32 kind, BitVec.ofNat 32 code, BitVec.ofNat 32 pkg, pageArg va, 0, 0]
  { s with out := s.out ++ (s.vfs.filter (fun kv => kv.2.ctx = some x)).map (fun kv => .interrupt (kv.1 / 256) (kv.1 % 256) 0) }

/-! ### Taking a trap (R323, R324) and returning from one (R335) -/

/-- A result of a formed warp that is withdrawn: its place among them, its replay entry, the latch it is to reach, and for which lanes (R323). -/
structure Pending where
  at_   : Nat
  rep   : Replay
  latch : Nat
  lanes : BitVec 32

/-- Put a pending result in its place in issue order. -/
def putPending (p : Pending) : List Pending → List Pending
  | [] => [p]
  | q :: qs => if p.at_ < q.at_ then p :: q :: qs else q :: putPending p qs

/-- A result in its pipe as a pending one. -/
def Flight.pending (f : Flight) : Pending :=
  { at_ := 2 * f.ord, rep := { pc := f.pc, word := f.word, lanes := f.lanes, opA := f.opA, opB := f.opB, opC := f.opC }, latch := f.latch,
    lanes := f.lanes &&& ~~~f.late }

/-- The pending loads of an issue context and results in its warp's pipes, in issue order (R323, R330). A load that a newer result of b3 has
overtaken reaches no latch (R45). -/
def pendingOf (k : Nat) (loads : List Load) (fl : List Flight) : List Pending :=
  let mine := loads.filter (fun p => p.warp = some k && (p.kind == .plain || p.kind == .home))
  let ls := (mine.map (·.id)).eraseDups.map (fun n =>
    let ps := mine.filter (·.id = n)
    ({ at_ := 2 * n + 1, latch := 3, lanes := maskOf ((ps.filter (!·.late)).map Load.lane),
       rep := { pc := (ps.head?.map (·.pc)).getD 0, word := (ps.head?.map (·.word)).getD 0, lanes := maskOf (ps.map Load.lane),
                opA := ps.foldl (fun m p => SMap.set 0 p.lane p.va.lo m) [], opB := ps.foldl (fun m p => SMap.set 0 p.lane p.va.hi m) [],
                opC := [] } } : Pending))
  fl.foldl (fun l f => putPending f.pending l) ls

/-- The latch values and tags of a warp (R323 step 3, R330): 0xFF void, 0xFE a value, else the replay entry it waits on. -/
def latchTags (w : Warp) (reps : List Pending) : SMap Word × SMap Nat :=
  let tagged := (List.range 128).foldl (fun (acc : SMap Word × SMap Nat) i =>
    match SMap.get none i w.latches with
    | some v => (SMap.set 0 i v acc.1, SMap.set 255 i 0xFE acc.2)
    | none => acc) ([], [])
  (reps.zipIdx).foldl (fun acc rn =>
    (setBits rn.1.lanes).foldl (fun acc l => (SMap.set 0 (rn.1.latch * 32 + l) 0 acc.1, SMap.set 255 (rn.1.latch * 32 + l) rn.2 acc.2)) acc) tagged

/-- The results of a formed warp that its trap finds still in their pipes: which ones is the device's choice (R46, assumption 12), and with
the pending loads they are at most 16 (R323). -/
def State.inPipe (s : State) (c k : Nat) : List Flight :=
  let fl := (((s.core c).warp k).map (·.flights)).getD []
  let loads := (((s.core c).loads.filter (fun p => p.warp = some k && (p.kind == .plain || p.kind == .home))).map (·.id)).eraseDups.length
  (((fl.drop (fl.length - (16 - loads))).filter (·.lanes != 0)).zipIdx.filter (fun p => (Config.choice s.steps 90).testBit p.2)).map (·.1)

/-- Results in their pipes have not been written: their registers hold what they held before (R323 step 2). -/
def State.unwrite (s : State) (c ws : Nat) (w : Warp) (fl : List Flight) : State :=
  match (s.core c).wg ws with
  | none => s
  | some g => fl.foldl (fun s f => match f.dest with
    | none => s
    | some d => ((w.threads g.hw).filter (fun l => f.lanes.getLsbD l.lane)).foldl (fun s l =>
        s.modCore c (·.setReg l.hw d l.lane (SMap.get 0 l.lane f.old))) s) s

/-- Loads of an issue context are withdrawn; an acquire they owed is owed no longer (R323 step 2). -/
def State.withdraw (s : State) (c k ws : Nat) : State :=
  let gone := (s.core c).loads.filter (fun p => p.warp = some k && (p.kind == .plain || p.kind == .home))
  let s := gone.foldl (fun s p => match p.who with
    | .lane _ _ _ _ tid => if p.scope = 0 then s else s.modThread c ws tid fun t => { t with loadHold := t.loadHold - 1 }
    | _ => s) s
  let s := { s with net := s.net.filter (fun m => !gone.any (fun p => m.who == p.who && m.load == some p.id)) }
  s.modCore c fun x => { x with loads := x.loads.filter (fun p => !(p.warp = some k && (p.kind == .plain || p.kind == .home))) }

/-- TAKING A TRAP of a formed warp (R323): the results still in flight are withdrawn into the replay queue, the latches
are saved with their tags, the other formed warps of the workgroup dissolve, the records of its waits are re-pointed (R190), the workgroup is
saved whole into its save area with the trap frame, its state becomes trapped, and the trap is queued for the supervisor routine. A fatal trap, or a
save area that breaks R326, removes the context instead (R321, R326). -/
def State.takeTrap (s : State) (c ws : Nat) (w : Warp) (k : Option Nat) (code : Nat) (pc : DWord) (i : Instr)
    (hit : List Lane) (info : Lane → Word × Word) : State :=
  let x := s.coreCtx c
  let base := s.saveArea x (((s.core c).lcore).getD 0)
  if code = trapRUNAWAY || code = trapENGINEFATAL then s.beginRemoval x code
  else if !s.saveAreaOk x base then s.beginRemoval x trapENGINEFATAL
  else
    let fl := (match k with
      | some k => s.inPipe c k
      | none => [])
    let pend := (match k with
      | some k => pendingOf k (s.core c).loads fl
      | none => [])
    let reps := pend.map (·.rep)
    let (lv, lt) := latchTags w pend
    let s := (match k with
      | some k => (((s.unwrite c ws w fl).withdraw c k ws)).modCore c (·.setWarp k none)
      | none => s)
    let s := (List.range 8).foldl (fun s j =>
      match (s.core c).warp j with
      | some v => if v.ws = ws then s.dissolve c j else s
      | none => s) s
    let fr : TrapFrame := {
      code := code, len32 := (wordOf i).2, tmask := maskOf (hit.map (·.lane)), pc := pc, word := (wordOf i).1, run := w.run,
      thr := w.lanes.foldl (fun m kv => match kv.2 with | some t => SMap.set 255 kv.1 t m | none => m) [],
      info0 := hit.foldl (fun m l => SMap.set 0 l.lane (info l).1 m) [],
      info1 := hit.foldl (fun m l => SMap.set 0 l.lane (info l).2 m) [],
      latch := lv, ltag := lt, reps := reps }
    let s := s.modWg c ws fun g => { g with state := .trapped }
    match (s.core c).wg ws with
    | none => s
    | some g =>
      let s := ((s.releaseNow x (dieOf c)).1).repoint g.waitIds none
      let s := s.saveWorkgroup base c ws g (hit.map (·.tid)) []
      let s := s.pokeWords (base + saveWg ws + saveFrame) fr.words
      s.modCore c fun y => { y with ct := { y.ct with pending := y.ct.pending ++ [.trap ws (BitVec.ofNat 8 code)] } }

/-- The store queues of a workgroup's home warps have drained: each is empty, or its head is held (R332 step 1). -/
def Core.queuesIdle (y : Core) (g : Workgroup) : Bool :=
  (span g.hw g.warps).all (fun h => match y.queue h with
    | [] => true
    | q :: _ => (match q.phase with
      | .held _ => true
      | _ => false))

/-- A trap waits: results of the workgroup's threads that are never withdrawn are still in flight (old values of atomics, tokens,
replies of Staithes; R323 step 2), or its store queues have not drained for the save (R332 step 1). -/
def Core.owesResults (y : Core) (ws : Nat) (ls : List Lane) : Bool :=
  y.loads.any (fun p => (p.kind == .atomic || p.kind == .token || p.kind == .bag) && (match p.who with
    | .lane _ _ _ w tid => w == ws && ls.any (·.tid == tid)
    | _ => false)) ||
  (match y.wg ws with
   | some g => !y.queuesIdle g
   | none => false)

/-- A trap of threads of a core waits. -/
def State.owesResults (s : State) (c ws : Nat) (ls : List Lane) : Bool := (s.core c).owesResults ws ls

/-- A trap raised by a formed warp at its instruction, once the results it may not withdraw have returned. -/
def State.trapWarp (s : State) (e : Env) (i : Instr) (code : Nat) (hit : List Lane) (info : Lane → Word × Word := fun _ => (0, 0)) : State :=
  if s.owesResults e.c e.ws e.lanes then s else s.takeTrap e.c e.ws e.w (some e.k) code e.pc i hit info

/-- An entry is held (R96). -/
def Entry.isHeld (q : Entry) : Bool :=
  match q.phase with
  | .held _ => true
  | _ => false

/-- TAKING A TRAP of the control thread (R324): in user mode the prologue stops with its state kept, the CT trap frame is
written to the save area (R327), and the trap is queued; in supervisor mode the context is removed (R322). -/
def State.trapCt (s : State) (c code : Nat) (info0 info1 : DWord := 0) : State :=
  let x := s.coreCtx c
  let r := (s.core c).ct.cur
  let base := s.saveArea x (((s.core c).lcore).getD 0)
  if r.super then (s.log 3 code x r.pc).beginRemoval x code
  else if !s.saveAreaOk x base then s.beginRemoval x trapENGINEFATAL
  else
    let fr := [BitVec.ofNat 32 code, 0, r.pc.lo, r.pc.hi, info0.lo, info0.hi, info1.lo, info1.hi]
    let s := s.pokeWords (base + saveCtFrame) fr
    s.modCore c fun y => { y with ct := { y.ct with
      cur := {}, trapped := { r with watched := decide (code = trapWATCH), frame := fr } :: y.ct.trapped,
      pending := y.ct.pending ++ [.trap 6 (BitVec.ofNat 8 code)] } }

/-- The head of a thread's queue is held for it. -/
def State.heldHead (s : State) (c hw : Nat) (who : Who) : Option Entry :=
  match (s.core c).queue hw with
  | q :: _ => if q.isHeld && q.who == who then some q else none
  | [] => none

/-- A control thread takes the poison trap or the effect that it owes before its next instruction (R345, R396); none where it owes none. -/
def State.owedCt (s : State) (c : Nat) : Option State :=
  let r := (s.core c).ct.cur
  match r.poison, r.effect with
  | some a, _ => some ((s.modCt c fun r => { r with poison := none }).trapCt c trapPOISON a)
  | none, some (id, arg) =>
    let held := match (s.core c).queue ctQueue with
      | q :: _ => (match q.phase with
        | .held code => code != 0
        | _ => false)
      | [] => false
    some ((s.modCt c fun r => { r with effect := none, remote := id == effREMOTEERR && held }).trapCt c trapUNHANDLED (BitVec.ofNat 64 id) (arg.setWidth 64))
  | none, none => none

/-- The frontier of a workgroup read back: entries keep the threads that still stand at their key, and every other live thread that
may run enters afresh; `out` lists threads that form a warp (R18, R335). -/
def State.rebuildFrontier (s : State) (g : Workgroup) (out : List Nat) : Workgroup :=
  let free := fun (t : Nat × Thread) => t.2.live && t.2.park == .none && !out.contains t.1
  let here := fun (e : FEntry) (i : Nat) => free (i, g.thread i) && (g.thread i).pc == e.pc && (g.thread i).depth == e.depth
  let kept := (g.frontier.map (fun e => { e with mask := maskOf ((setBits e.mask).filter (here e)) })).filter (·.mask != 0)
  ((g.threads.filter (fun t => free t && !kept.any (·.mask.getLsbD t.1))).map (·.1)).foldl (fun g i => s.enter g i) { g with frontier := kept }

/-- A held head of a queue is to be sent again (R332). -/
def resendHead (q : List Entry) : List Entry :=
  match q with
  | e :: es => (match e.phase with
    | .held _ => { e with phase := .queued }
    | _ => e) :: es
  | [] => []

/-- What a restore does before any restored thread issues (R332): each held head of the workgroup's queues is sent once, pending
acquires and an acquire at package scope are made. -/
def State.restoreActions (s : State) (c ws : Nat) : State :=
  match (s.core c).wg ws with
  | none => s
  | some g =>
    let s := (span g.hw g.warps).foldl (fun s h => if (s.core c).queue h = [] then s
      else s.modCore c fun y => y.setQueue h (resendHead (y.queue h))) s
    let s := g.threads.foldl (fun s t => match t.2.acquire with
      | some sc => (s.acquire c g.ctx sc).modThread c ws t.1 fun t => { t with acquire := none }
      | none => s) s
    s.acquire c g.ctx 4

/-- Re-injecting a replay entry for the lanes it names: its instruction runs again for issue context k with its captured operands; none while a
load must wait. The test says which lanes' latch the entry is to reach. -/
abbrev Inject := State → Nat → Nat → Nat → List Lane → (Nat → Nat → Bool) → Replay → Option State

/-- The latch values of a trap frame (R330). -/
def TrapFrame.latches (f : TrapFrame) : SMap Latch :=
  (List.range 128).foldl (fun m i => if SMap.get 255 i f.ltag = 0xFE then SMap.set none i (some (SMap.get 0 i f.latch)) m else m) []

/-- A placed or restored workgroup counts from now on: its last formation and its runaway counter (R167, R172). -/
def Workgroup.freshCounters (g : Workgroup) (tick : DWord) : Workgroup :=
  { g with formed := tick, runaway := tick, rest := false, threads := g.threads.map (fun t => (t.1, { t.2 with reached := false })) }

/-- A workgroup read back from its trap record, with the trapped threads at the saved PC (retry) or after it (skip). -/
def Workgroup.afterTrap (g : Workgroup) (fr : TrapFrame) (mode : Nat) : Workgroup :=
  let step : Nat := if mode = 0 then 0 else 2 + (if fr.len32 then 2 else 0)
  fr.thr.foldl (fun g kv => g.modThread kv.2 fun t =>
    let t := { t with watched := decide (fr.code = trapWATCH) && mode == 0 }
    if fr.tmask.getLsbD kv.1 then { t with pc := pc48 (fr.pc + BitVec.ofNat 64 step) } else t) { g with state := .resident }

/-- RETURNING FROM A TRAP of a workgroup (R335, `tret`): the workgroup is restored from its record, the formed warp is
re-formed with its threads, run count and latches, the replay entries are re-injected, and the trapped threads go to the
saved PC: at it (retry), after it (skip), or exit (kill). None while no issue context is free or a replayed load must wait. A save area
that breaks R326 removes the context. -/
def State.returnTrap (s : State) (c ws mode : Nat) (inject : Inject) (exit : State → Nat → Nat → Nat → State) : Option State :=
  let base := s.saveArea (s.coreCtx c) (((s.core c).lcore).getD 0)
  if !s.saveAreaOk (s.coreCtx c) base then some (s.beginRemoval (s.coreCtx c) trapENGINEFATAL) else
  match (s.core c).wg ws, (List.range 8).find? (fun k => ((s.core c).warp k).isNone) with
  | some g, some k =>
    let fr := s.trapFrameAt (base + saveWg ws + saveFrame)
    let (g, s) := s.loadWorkgroup base c ws g
    let g := { (g.afterTrap fr mode).freshCounters s.tick with evict := (s.core c).switch }
    let g := s.rebuildFrontier g (fr.thr.map (·.2))
    let s := ((s.modCore c (·.setWg ws (some g))).repoint g.waitIds (some (c, ws))).restoreActions c ws
    let w : Warp := { ws := ws, lanes := fr.thr.map (fun kv => (kv.1, some kv.2)), run := fr.run, latches := fr.latches, last := s.tick }
    let s := s.modCore c (·.setWarp k (some w))
    let ls := w.threads g.hw
    (fr.reps.zipIdx.foldl (fun acc r => acc.bind fun s =>
        inject s c ws k (ls.filter (fun l => r.1.lanes.getLsbD l.lane)) (fun b l => SMap.get 255 (b * 32 + l) fr.ltag == r.2) r.1) (some s)).map fun s =>
      let s := if mode = 2 then (ls.filter (fun l => fr.tmask.getLsbD l.lane)).foldl (fun s l => exit s c ws l.tid) s else s
      if mode = 2 || decide (1 < ((ls.map (fun l => (g.thread l.tid).pc)).eraseDups).length) then s.dissolve c k else s
  | _, _ => none

/-! ### Store queues (R25) -/

/-- The entries in use: the writes of one record are one entry. -/
def Core.inUse (x : Core) (hw : Nat) : Nat := ((x.queue hw).filter (fun q => !q.more)).length

/-- Room for n more entries. -/
def Core.room (x : Core) (hw n : Nat) : Bool := decide (x.inUse hw + n ≤ 32)

/-- Append an entry to a store queue. -/
def State.append (s : State) (c hw : Nat) (e : Entry) : State := s.modCore c fun x => x.setQueue hw (x.queue hw ++ [e])

/-- Append an entry to the control thread's store queue, with the run that makes it. -/
def State.appendCt (s : State) (c : Nat) (e : Entry) : State := s.append c ctQueue { e with run := (s.core c).ct.cur.serial }

/-- The bytes an entry holds: physical address and length; 0 for entries that hold none (R25). -/
def EntryKind.bytes : EntryKind → Nat
  | .store n _ _ _ _ => n
  | .atomic _ w64 _ _ _ _ _ => if w64 then 8 else 4
  | _ => 0

/-- The words that an entry holds back while it is held (R396): also those of a span, of the 128-byte line of a drained record, and of the
completion word of a page request. -/
def Entry.extent (q : Entry) : Nat :=
  if q.isHeld then
    match q.kind with
    | .span n _ _ => n
    | .drain _ => 128
    | .pgreq _ => 8
    | k => k.bytes
  else q.kind.bytes

/-- An entry overlaps an access. -/
def Entry.overlaps (q : Entry) (pa size : Nat) : Bool :=
  decide (q.extent ≠ 0) && decide (q.pa < pa + size) && decide (pa < q.pa + q.extent)

/-! ### Retranslation (R96) -/

/-- What a retranslation finds. -/
inductive Again where
  | at_ (pa : Nat)
  | absent
  | noPerm
  deriving DecidableEq, Repr, Inhabited

/-- A translation grants a permission, and for a window frame its entry too, which the X-die checks (R309, R311). -/
def State.grantsAt (s : State) (t : Xlat) (need : BitVec 3) : Bool :=
  t.grants need && (!isWindowPa t.pa || (s.ientry (gfnOf t.pa)).perm &&& need == need)

/-- An address retranslated under the current generation, for a permission. -/
def State.again (s : State) (c x : Nat) (va : DWord) (need : BitVec 3) : Again :=
  match s.xlate c x va with
  | none => .absent
  | some t => if !s.ownsFrame x t.pa then .absent else if s.grantsAt t need then .at_ t.pa else .noPerm

/-- The permission an entry needs at its page; none for one that names no page or a physical address (R91, R92, R99, R185). -/
def EntryKind.need : EntryKind → Option (BitVec 3)
  | .store _ _ _ _ phys => if phys then none else some permW
  | .atomic _ _ _ _ _ _ dest => some (if dest.isSome then permRW else permW)
  | .wait _ => some permRW
  | .span _ _ _ => some 0
  | _ => none

/-- An entry retranslated under the current generation: the entry with its new address, or the code it is held with (R96). -/
def State.refreshEntry (s : State) (c : Nat) (q : Entry) : Except Nat Entry :=
  let x := s.coreCtx c
  let gen := (s.ctx x).gen
  match q.kind.need with
  | none => .ok { q with gen := gen }
  | some need =>
    if q.gen = gen then .ok q
    else match s.again c x q.va need with
      | .at_ pa => .ok { q with pa := pa, gen := gen }
      | .absent => .error 0
      | .noPerm => .error 2

/-- A store queue with the addresses its entries have under the current generation, which a later load of its threads meets (R96, R148). -/
def State.nowQueue (s : State) (c hw : Nat) : List Entry :=
  ((s.core c).queue hw).map (fun q => match s.refreshEntry c q with
    | .ok r => { q with pa := r.pa }
    | .error _ => q)

/-- What a store queue says of a load (R25). -/
inductive Forward where
  /-- No entry overlaps. -/
  | clear
  /-- The youngest overlapping store covers the load. -/
  | value (x : Nat)
  /-- The load waits until every overlapping entry has left. -/
  | wait
  deriving DecidableEq, Repr, Inhabited

/-- Forwarding of a store queue to a load (R25). -/
def forward (q : List Entry) (pa size : Nat) : Forward :=
  let ov := q.filter (·.overlaps pa size)
  match ov.getLast? with
  | none => .clear
  | some y =>
    if ov.any (fun e => e.isHeld || (match e.kind with | .store _ _ _ _ _ => false | _ => true)) then .wait
    else match y.kind with
      | .store n data _ _ _ =>
        if y.pa ≤ pa && decide (pa + size ≤ y.pa + n) then .value ((data.toNat >>> (8 * (pa - y.pa))) % 2 ^ (8 * size)) else .wait
      | _ => .wait

/-- A load that reaches its home warp's path: plain, or one that reads at the home. -/
def Load.isLoad (p : Load) : Bool := p.kind == .plain || p.kind == .home

/-- Some threads of a core have a load that has not read yet; their later loads and, but for a crossing (R153), their later stores wait
(R148). -/
def Core.homeUnread (y : Core) (who : Who → Bool) : Bool := y.loads.any (fun p => p.isLoad && p.data.isNone && who p.who)

/-- A lane thread of a home warp. -/
def Who.inWarp (hw : Nat) : Who → Bool
  | .lane _ _ h _ _ => h == hw
  | _ => false

/-- A control thread. -/
def Who.isCt : Who → Bool
  | .ct _ _ => true
  | _ => false

/-- The parties whose entries a store queue holds. -/
def queueWho (hw : Nat) : Who → Bool := if hw = ctQueue then Who.isCt else Who.inWarp hw

/-- The address of word i of an access (R345). -/
def wordOfAccess (va : DWord) (i : Nat) : DWord := BitVec.ofNat 64 (va.toNat / 4 * 4 + 4 * i)

/-- What a plain read of a virtual address gives: absent page, missing permission, a wait, an error reply, a poisoned
word (which of its words, and the state once it is found), or the value and the state with its fills. -/
inductive Look where
  | absent
  | noPerm
  | wait
  | down
  | poisoned (i : Nat) (s : State)
  | value (x : Nat) (s : State)
  deriving Repr, Inhabited

/-- The value of an access from its words: a byte or halfword from within its word. -/
def wordsValue (pa size : Nat) (ws : List Word) : Nat :=
  if size < 4 then (ofWords ws >>> (8 * (pa % 4))) % 2 ^ (8 * size) else ofWords ws

/-- A plain load through a store queue and the path of R78, bypassing L1 where asked (R93). What a window
answers comes from outside (assumption 7). -/
def State.look (s : State) (c hw : Nat) (va : DWord) (size : Nat) (useL1 : Bool := true) : Look :=
  let x := s.coreCtx c
  match s.xlate c x va with
  | none => .absent
  | some t =>
    if !t.grants permR then .noPerm
    else if !s.ownsFrame x t.pa then .absent
    else if (s.core c).homeUnread (queueWho hw) then .wait
    else match forward (s.nowQueue c hw) t.pa size with
      | .wait => .wait
      | .value v => .value v (s.learn c x va)
      | .clear =>
        if isWindowPa t.pa then
          .value (wordsValue t.pa size ((wordsAt t.pa size).map s.outsideWord)) ((s.learn c x va).readWindow x t.pa size)
        else
        match (s.learn c x va).pathRead c x (s.ctx x).gen va t.pa size useL1 with
        | .words ws s => .value (wordsValue t.pa size ws) s
        | .poisoned i s => .poisoned i s
        | .down => .down

/-! ### Records (R201, R395) -/

/-- What reading a record gives. -/
inductive RecRead where
  | wait
  | trap (code : Nat) (va : DWord)
  | words (ws : List Word) (s : State)
  deriving Repr

/-- Words of a record, read as plain loads read (R395). -/
def State.readRec (s : State) (c hw : Nat) (va : DWord) : Nat → RecRead
  | 0 => .words [] s
  | n + 1 =>
    if !canonical va then .trap trapADDR va else
    let rest := fun (w : Word) (s : State) => match State.readRec s c hw (va + 4) n with
      | .words ws s => RecRead.words (w :: ws) s
      | r => r
    match s.look c hw va 4 with
    | .wait => .wait
    | .absent => .trap trapADDR va
    | .noPerm => .trap trapADDR va
    | .poisoned _ _ => .trap trapPOISON va
    | .down => rest 0 s
    | .value v s => rest (BitVec.ofNat 32 v) s

/-! ### Frames in the stack (R197, R199)

The four highest frames are on chip. The image of the frame at index j from the top, for j of 4 and more, lies 32 bytes below the stack
pointer that the frame four above it was pushed at. -/

/-- What reading the images of deeper frames gives. -/
inductive FrameRead where
  | wait
  | trap (code : Nat) (va : DWord)
  | frames (fs : List Frame) (s : State)
  deriving Repr

/-- Frames read from their images, from index n from the top on, until a test stops: `win` are the four frames above. -/
def State.deepFrames (s : State) (c hw : Nat) (stop : Nat → Frame → Bool) (n : Nat) (win : List Frame) : List Frame → FrameRead
  | [] => .frames [] s
  | k :: ks =>
    match s.readRec c hw ((win.head?.map (·.sp0)).getD 0 - 32) 8 with
    | .wait => .wait
    | .trap code va => .trap code va
    | .words ws s =>
      let f := k.ofImage ws
      if stop n f then .frames (f :: ks) s
      else match s.deepFrames c hw stop (n + 1) (win.tail ++ [f]) ks with
        | .frames fs s => .frames (f :: fs) s
        | r => r

/-- A handler stack with the frames in the stack read from their images, as far down as the first frame that a test picks. -/
def State.framesUntil (s : State) (c hw : Nat) (fs : List Frame) (stop : Nat → Frame → Bool) : FrameRead :=
  if fs.length ≤ 4 || (fs.take 4).zipIdx.any (fun p => stop p.2 p.1) then .frames fs s
  else match s.deepFrames c hw stop 4 (fs.take 4) (fs.drop 4) with
    | .frames l s => .frames (fs.take 4 ++ l) s
    | r => r

/-- A handler stack as it stands down to index k. -/
def State.framesTo (s : State) (c hw : Nat) (fs : List Frame) (k : Nat) : FrameRead := s.framesUntil c hw fs (fun j _ => decide (k ≤ j))

/-- The images that are written anew when a handler stack changes, with their addresses. -/
def deepWrites (old new : List Frame) : List (DWord × List Word) :=
  (new.zipIdx.filter (fun p => decide (4 ≤ p.2) && old[p.2]? != some p.1)).map
    (fun p => ((new.getD (p.2 - 4) default).sp0 - 32, p.1.image))

/-! ### Performing an effect (R197-R202) -/

/-- A frame is visible and handles an effect (R197). -/
def Frame.handles (f : Frame) (id : Nat) : Bool := f.hide == 0 && (f.eff.toNat == id || f.eff.toNat == 255)

/-- What performing gives. -/
inductive Perf where
  /-- The thread entered its handler. -/
  | entered (s : State)
  /-- The thread traps with a code. -/
  | trap (code : Nat)
  /-- No room in the home warp's store queue yet. -/
  | full
  deriving Repr, Inhabited

/-- A table entry of the stage (R196): handler offset, exit offset, live mask. -/
def State.handler (s : State) (g : Workgroup) (name : Nat) : Word × Word × DWord :=
  ((s.stageOf g).bind (fun st => st.handlers[name]?)).getD (0xFFFFFFFF, 0, 0)

/-- The PC at a signed halfword offset from the stage's entry (R196). -/
def State.stagePc (s : State) (g : Workgroup) (off : Word) : DWord :=
  pc48 (((s.stageOf g).map (·.entry)).getD 0 + (off.signExtend 64) * 2)

/-- A taken transfer adds its target to the path signature and appends a trace record where the launch traces (R377,
R379). -/
def State.transfer (s : State) (c ws tid : Nat) (src target : DWord) : State :=
  let s := s.modThread c ws tid fun t => { t with psig := rotl t.psig 1 ^^^ target }
  match (s.core c).wg ws with
  | none => s
  | some g =>
    match s.launch g.ctx g.launch with
    | some l =>
      if l.trace then s.areaAppend g.ctx l.trarea
        [s.tick.lo, s.tick.hi, src.lo, src.hi, target.lo, target.hi, BitVec.ofNat 32 (g.index * 256 + tid), 0]
      else s
    | none => s

/-- 16-byte chunks of a record with their offsets. -/
def chunks (ws : List Word) : List (Nat × BitVec 128) :=
  (List.range ((ws.length + 3) / 4)).map (fun i => (16 * i, BitVec.ofNat 128 (ofWords ((ws.drop (4 * i)).take 4))))

/-- The device's own writes of a record at a virtual address, through a home warp's store queue (R205): none where a page
is absent or not writable, or holds a bag's header (R126). `joined` says that what is written next belongs to the same entry. -/
def State.ownWrites (s : State) (c hw : Nat) (who : Who) (pc va : DWord) (ws : List Word) (joined : Bool := false) : Option State :=
  let x := s.coreCtx c
  (chunks ws).foldl (fun acc ch => acc.bind fun s =>
    let a := va + BitVec.ofNat 64 ch.1
    match s.xlate c x a with
    | some t => if t.grants permW && !s.isHeader t.pa then
        some (s.append c hw { kind := .store 16 ch.2 0 true false, who := who, pc := pc, va := a, pa := t.pa, gen := (s.ctx x).gen,
                              more := joined || decide (ch.1 + 16 < 4 * ws.length) })
      else none
    | none => none) (some s)

/-- Frame images that the device writes; `joined` as in `ownWrites`. -/
def State.ownImages (s : State) (c hw : Nat) (who : Who) (pc : DWord) (joined : Bool) : List (DWord × List Word) → Option State
  | [] => some s
  | [p] => s.ownWrites c hw who pc p.1 p.2 joined
  | p :: ps => (s.ownWrites c hw who pc p.1 p.2 true).bind fun s => State.ownImages s c hw who pc joined ps

/-- What an effect's record holds besides the resume PC: a `perform`'s d word, or the captured words of an instruction
that raised a hardware effect, and whether the effect is a REMOTE_ERR of an entry the thread has moved on from (R201, R396). -/
inductive Raised where
  | perform (d : BitVec 6) (nw : BitVec 1)
  | hardware (words : List Word) (moved : Bool := false)
  deriving DecidableEq, Repr, Inhabited

/-- A result in flight writes one of a thread's registers (R48). One that a held entry still owes is not waited for, since only the handler
can let it come (R396; DESIGN CHOICE, assumption 59). -/
def Core.owes (y : Core) (who : Who) (ks : List Nat) : Bool :=
  let held := fun (p : Load) => p.kind != .plain && p.kind != .home && (match p.who with
    | .lane _ _ hw _ _ => (match y.queue hw with
      | q :: _ => q.isHeld && q.who == p.who
      | [] => false)
    | _ => false)
  y.loads.any (fun p => p.who == who && !held p && (match p.dest with
    | some d => ks.any (fun k => decide (d ≤ k ∧ k < d + max 1 ((p.size + 3) / 4)))
    | none => false))

/-- A thread performs an effect (R200): search, record, token, handler. It waits for results in flight to the registers that this writes or
a continuation record saves (R48). -/
def State.perform (s : State) (c ws : Nat) (l : Lane) (id : Nat) (arg : Word) (pc : DWord) (r : Raised) : Perf :=
  match (s.core c).wg ws with
  | none => .full
  | some g =>
    let t := g.thread l.tid
    if g.nregs < 64 then .trap trapREGRANGE else
    match s.framesUntil c l.hw t.frames (fun _ f => f.handles id) with
    | .wait => .full
    | .trap code _ => .trap code
    | .frames fs s =>
    match fs.findIdx? (·.handles id) with
    | none => .trap trapUNHANDLED
    | some n =>
      let f := fs.getD n default
      let hw := (match r with | .hardware _ _ => true | .perform _ _ => false)
      let oneShot := !f.multi || hw
      let dw : Word := (match r with
        | .perform d nw => BitVec.ofNat 32 (d.toNat + 64 * nw.toNat)
        | .hardware _ _ => Config.freeWord s.steps (2 ^ 60 + l.hw * 32 + l.lane) &&& 0x7F)
      let body : List Word := (match r with
        | .perform _ _ => []
        | .hardware ws _ => ws)
      let eff := [pc.lo, pc.hi, dw, BitVec.ofNat 32 (4 * body.length)] ++ body
      let live := (s.handler g f.name.toNat).2.2
      let cont := [pc.lo, pc.hi, t.sp.lo, t.sp.hi, dw, t.predBits.setWidth 32] ++
        (setBits live).map (fun k => (s.core c).reg l.hw k l.lane)
      let size := roundup16 (4 * eff.length)
      let addr := if oneShot then t.sp - BitVec.ofNat 64 size else f.record
      let words := if oneShot then eff else cont
      let depth := t.frames.length - 1 - n
      let serial := f.serial + 1
      let f' := { f with serial := serial, armed := true, handling := true, pdepth := t.depth,
                         ptop := BitVec.ofNat 6 (t.frames.length - 1), record := addr,
                         want := if hw then some (4 * body.length) else none,
                         remote := match r with | .hardware _ m => m | .perform _ _ => false }
      let frames := (fs.set n f').zipIdx.map (fun p => if p.2 ≤ n then { p.1 with hide := p.1.hide + 1 } else p.1)
      let who : Who := .lane c ((s.core c).lcore.getD 0) l.hw ws l.tid
      if !(s.core c).room l.hw 1 || (s.core c).owes who ([61, 62, 63] ++ (if oneShot then [] else setBits live)) then .full else
      match (s.ownImages c l.hw who pc true (deepWrites fs frames)).bind (fun s => s.ownWrites c l.hw who pc addr words) with
      | none => .trap trapADDR
      | some s =>
        let token : Word := BitVec.ofNat 32 (depth * 2 ^ 24 + serial.toNat * 256 + (if oneShot then 0 else 128))
        let target := s.stagePc g (s.handler g f.name.toNat).1
        let s := s.modCore c fun y => ((y.setReg l.hw 61 l.lane (BitVec.ofNat 32 id)).setReg l.hw 62 l.lane arg).setReg l.hw 63 l.lane token
        let s := s.modThread c ws l.tid fun t =>
          { t with frames := frames, sp := if oneShot then addr else t.sp, depth := f.cdepth, pc := target, park := .none,
                   capture := none, effect := none, watched := false }
        .entered (s.transfer c ws l.tid (match r with | .perform _ _ => pc48 (pc - 4) | .hardware _ _ => pc) target)

/-- A thread performs an effect outside a formed warp, at a reply: it enters its handler's frontier entry, or traps alone
(R200); none while its queue has no room. -/
def State.performAlone (s : State) (c ws : Nat) (l : Lane) (id : Nat) (arg : Word) (pc : DWord) (i : Instr) (r : Raised) : Option State :=
  match s.perform c ws l id arg pc r with
  | .full => none
  | .entered s => some (s.toFrontier c ws l.tid)
  | .trap code =>
    if s.owesResults c ws [l] then none else
    let w : Warp := { ws := ws, lanes := [(l.lane, some l.tid)], run := 0, latches := [], last := s.tick }
    let s := s.modThread c ws l.tid fun t => { t with park := .none, effect := none }
    some (s.takeTrap c ws w none code (s.thread c ws l.tid).pc i [l] (fun _ => (BitVec.ofNat 32 id, arg)))

/-- A thread that is to trap for an effect it finds no handler for stands at its instruction again: it owes the effect, with the words
captured for it, or performs anew (R200). -/
def State.owe (s : State) (e : Env) (l : Lane) (id : Nat) (arg : Word) (r : Raised) : State :=
  s.modThread e.c e.ws l.tid fun t => match r with
    | .perform _ _ => { t with pc := e.pc }
    | .hardware ws moved => { t with pc := e.pc, effect := some { id := id, arg := arg, at_ := !moved },
                                     capture := if moved then t.capture else some { pc := e.pc, words := ws } }

/-- Several threads of a formed warp perform at one instruction (R200, R205): each searches its own stack. The warp has
already gone on. Those that trap stay in it, with its latches and results in flight, at the instruction; they trap together once what the trap
must wait for has gone: none while something was in flight as the instruction issued, and after the entries of the others have left
the store queues. One with another code traps after them. -/
def State.performAll (s : State) (e : Env) (i : Instr) (ls : List (Lane × Nat × Word × Raised)) (pc : DWord) : Option State :=
  let go := ls.foldl (fun (acc : Option (State × List ((Lane × Nat × Word × Raised) × Nat))) p => acc.bind fun (s, ts) =>
    match s.perform e.c e.ws p.1 p.2.1 p.2.2.1 pc p.2.2.2 with
    | .entered s => some (s, ts)
    | .trap code => some (s, ts ++ [(p, code)])
    | .full => none) (some (s, []))
  go.bind fun (s, ts) =>
    match ts with
    | [] => some (s.dissolve e.c e.k)
    | (q, code) :: _ =>
      if e.cr.owesResults e.ws [q.1] then none
      else
        let s := (ts.foldl (fun s u => s.owe e u.1.1 u.1.2.1 u.1.2.2.1 u.1.2.2.2) s).shed e.c e.k (ts.map (·.1.1.lane))
        if s.owesResults e.c e.ws [q.1] then some s
        else
          let hit := ts.filter (fun u => u.2 = code)
          let s := s.eachThread e.c e.ws (hit.map (·.1.1)) fun _ t => { t with effect := none, capture := none }
          let s := s.shed e.c e.k (hit.map (·.1.1.lane))
          some <| s.takeTrap e.c e.ws (((s.core e.c).warp e.k).getD e.w) (some e.k) code e.pc i (hit.map (·.1.1)) (fun l => match hit.find? (fun u => u.1.1 == l) with
            | some u => (BitVec.ofNat 32 u.1.2.1, u.1.2.2.1)
            | none => (0, 0))

/-! ### Issue (R53) -/

/-- The environment of an issue context that holds a formed warp of a resident workgroup. -/
def State.env (s : State) (c k : Nat) : Option Env :=
  match (s.core c).warp k with
  | none => none
  | some w =>
    match (s.core c).wg w.ws with
    | none => none
    | some g =>
      let ls := w.threads g.hw
      match ls with
      | [] => none
      | l :: _ => some { c := c, k := k, ws := w.ws, x := g.ctx, cr := s.core c, g := g, w := w,
                         args := ((s.launch g.ctx g.launch).map (·.args)).getD 0, pc := (g.thread l.tid).pc, lanes := ls }

/-- The launch a control thread's prologue runs. -/
def CtRun.launch? : CtRun → Option Nat
  | .prologue n _ => some n
  | _ => none

/-- The environment of a control thread. DESIGN CHOICE (assumption 24): where it runs no launch, its argument address (codes 74 and 75, R11)
reads as 0. -/
def State.cenv (s : State) (c : Nat) : CEnv :=
  let x := s.coreCtx c
  let r := (s.core c).ct.cur
  { c := c, x := x, cr := s.core c, r := r, args := ((r.run.launch?.bind (s.launch x)).map (·.args)).getD 0 }

/-- The core's context may issue: it owns the core, is alive, and is neither halted nor being removed, and the die is not
down (R340, R348, R351). -/
def State.mayIssue (s : State) (c : Nat) : Bool :=
  match (s.core c).owner with
  | none => false
  | some x => (s.ctx x).alive && !(s.ctx x).halted && (s.ctx x).removal == 0 && !s.dieDown (dieOf c)

/-- A pending result writes a register the instruction names, or a predicate it uses, or the latch it reads or would be
overtaken on (R45, R48). -/
def Load.blocks (p : Load) (u : Uses) : Bool :=
  let n := max 1 ((p.size + 3) / 4)
  (match p.dest with
   | some d => (u.regs ++ u.also).any (fun k => d ≤ k && decide (k < d + n))
   | none => false) ||
  (p.pred != 0 && (u.preds || u.g != 0)) || (p.warp.isSome && !p.late && (u.b3 || u.lat.contains 3))

/-- An instruction waits for a result in flight (R48). -/
def Env.waits (e : Env) (u : Uses) : Bool :=
  e.cr.loads.any (fun p => match p.who with
    | .lane _ _ hw ws tid => ws == e.ws && e.lanes.any (fun l => l.tid == tid && l.hw == hw) && p.blocks u
    | _ => false)

/-- The results in the pipes of a warp that an instruction need not wait for: it names neither their register nor their latch (R45, R48). -/
def Uses.passes (u : Uses) (f : Flight) : Bool :=
  !((u.regs ++ u.also).any (fun k => f.dest == some k)) && !(u.lat ++ u.later).contains f.latch

/-- An instruction issues once the results it names have been written (R48). -/
def State.settleFlights (s : State) (c k : Nat) (u : Uses) : State :=
  s.modCore c fun y => match y.warp k with
    | some w => y.setWarp k (some { w with flights := w.flights.filter u.passes })
    | none => y

/-- The operand of a lane as a replay entry captures it. -/
def Env.opMap (ls : List Lane) (f : Lane → Word) : SMap Word := ls.foldl (fun m l => SMap.set 0 l.lane (f l) m) []

/-- The result of an instruction as it enters its pipe (R46). -/
def Env.flight (e : Env) (i : Instr) (f : LaneForm) (set : List Lane) (ord : Nat) : Flight :=
  let d := f.d.toNat
  { pc := e.pc, word := (wordOf i).1, ord := ord, lanes := maskOf (set.map (·.lane)), latch := f.latch, dest := if f.n = 0 then some d else none,
    opA := Env.opMap set (fun l => e.operand f.ty l f.a), opB := Env.opMap set (fun l => e.operand f.ty l f.b),
    opC := if f.three then Env.opMap set (fun l => e.reg l d) else [], old := Env.opMap set (fun l => e.reg l d) }

/-- The lanes whose latch holds another value than it did. -/
def Warp.changed (w v : Warp) (b : Nat) : BitVec 32 :=
  maskOf ((List.range 32).filter (fun l => SMap.get none (b * 32 + l) w.latches != SMap.get none (b * 32 + l) v.latches))

/-- An instruction of a formed warp has issued: its result may be in its pipe, and a latch that it reaches waits for no older one
(R45, R46). -/
def State.noteFlight (s : State) (e : Env) (i : Instr) (set : List Lane) : State :=
  s.modCore e.c fun y => match y.warp e.k with
    | none => y
    | some w =>
      let new := (match laneForm i with
        | some f => if w.run = e.w.run || set.isEmpty then [] else [e.flight i f set s.nextId]
        | none => [])
      let older := w.flights.map (fun f => { f with late := f.late ||| e.w.changed w f.latch |||
        (if new.any (·.latch = f.latch) then maskOf (set.map (·.lane)) else 0) })
      y.setWarp e.k (some { w with flights := older ++ new })

/-- Distinct instructions of an issue context whose results are in flight (R323: at most 16). -/
def Core.inFlight (x : Core) (k : Nat) : Nat :=
  ((x.loads.filter (fun p => p.warp = some k && (p.kind == .plain || p.kind == .home))).map (·.id)).eraseDups.length

/-- The threads of the warp that execute the instruction (R45). -/
def Env.issueSet (e : Env) (g : BitVec 3) : List Lane := e.lanes.filter (e.guard g)

/-- A thread re-executes the instruction at the warp's PC with its captured operands (R47). -/
def Env.captured (e : Env) (l : Lane) : Option (List Word) :=
  match (e.thread l).capture with
  | some c => if c.pc = e.pc then some c.words else none
  | none => none

/-- Threads with an effect or a poison trap to take before their next instruction (R345, R396). -/
def Env.owing (e : Env) : List Lane := e.lanes.filter (fun l => (e.thread l).effect.isSome || (e.thread l).poison.isSome)

/-- The threads that owe an effect or trap take it, and the warp dissolves without issuing (R396, R345): a poison trap first, else all
that owe an effect perform together. -/
def State.takeOwed (s : State) (e : Env) (i : Instr) (l : Lane) : State :=
  match (e.thread l).poison with
  | some a =>
    if s.owesResults e.c e.ws e.lanes then s
    else (s.modThread e.c e.ws l.tid fun t => { t with poison := none }).trapWarp e i trapPOISON [l] (fun _ => (a.lo, a.hi))
  | none =>
    (s.performAll e i (e.owing.filterMap (fun m => (e.thread m).effect.map (fun o =>
      (m, o.id, o.arg, .hardware (if o.at_ then (e.captured m).getD [] else []) (!o.at_))))) e.pc).getD s

/-- The issue of an instruction by a formed warp, in the order of R53: an effect or trap still owed, the field rules
(steps 4, 6, 7: ILLEGAL), the allocation (step 8: REG_RANGE), the interlock of R48, void latches (step 9: LATCH_VOID), then
the instruction's own part for its issue set; its result then is in its pipe. -/
def issueVec (i : Instr) (u : Uses) (s : State) (c k : Nat) (body : Env → List Lane → State → State) : State :=
  match s.env c k with
  | none => s
  | some e =>
    if !s.mayIssue c || e.g.state ≠ .resident then s
    else match e.owing with
    | l :: _ => s.takeOwed e i l
    | [] =>
      if !Instr.wf .vec i then s.trapWarp e i trapILLEGAL e.lanes
      else if u.regs.any (fun r => decide (e.g.nregs ≤ r)) then s.trapWarp e i trapREGRANGE e.lanes
      else if e.waits u then s
      else
        let set := e.issueSet u.g
        match set.filter (fun l => (e.captured l).isNone && u.lat.any (fun b => (e.latch l b).isNone)) with
        | [] => (body e set (s.settleFlights c k u)).noteFlight e i set
        | void => s.trapWarp e i trapLATCHVOID void

/-- An instruction that a guard slot may precede (R211). -/
def isEngineCommand : Instr → Bool
  | .cp _ | .cpg _ | .cpm _ _ _ | .mmx _ | .mzero _ _ _ | .mzeroBias _ | .mld _ | .mst _ | .mscan _ _ _ | .ade _ _ _ _
  | .dload _ _ | .drun _ _ | .coll _ => true
  | _ => false

/-- An instruction of the sys major, valid in supervisor mode only (R49). -/
def isSys : Instr → Bool
  | .tret _ _ _ _ | .cxsave _ _ | .cxload _ _ _ | .genset _ _ | .xinv _ _ _ | .rdsr _ _ _ | .wrsr _ _ _ _
  | .tickstop _ _ _ | .dgrd _ _ _ _ | .halt _ => true
  | _ => false

/-- A control thread's run in the `warp` field of a pending result, beyond the issue contexts. -/
def CtRegs.tag (r : CtRegs) : Nat := 8 + r.serial

/-- A control-thread result in flight that an instruction names (R48). -/
def CEnv.waits (e : CEnv) (u : Uses) : Bool :=
  e.cr.loads.any (fun p => match p.who with
    | .ct _ _ => p.warp == some e.r.tag && ((match p.dest with
        | some d => (u.regs ++ u.also).any (fun k => d ≤ k && decide (k < d + max 1 ((p.size + 7) / 8)))
        | none => false) || (p.pred != 0 && (u.preds || u.g != 0)))
    | _ => false)

/-- The control thread goes on after an instruction. -/
def State.advanceCt (s : State) (e : CEnv) (len : Nat) : State :=
  s.modCore e.c fun x => { x with ct := { x.ct with
    cur := { x.ct.cur with pc := pc48 (e.r.pc + BitVec.ofNat 64 len), grd := none, waited := false, watched := false, begun := true } } }

/-- The issue of an instruction by a control thread, in the order of R53; a pending guard must meet an engine command
(R211). A false guard flag only advances the PC. -/
def issueCt (i : Instr) (u : Uses) (s : State) (c : Nat) (body : CEnv → State → State) : State :=
  let e := s.cenv c
  if !s.mayIssue c || e.r.run = .idle || e.r.park ≠ .none then s
  else match s.owedCt c with
  | some t => t
  | none =>
    if isSys i && !e.r.super then s.trapCt c trapPRIV
    else if !Instr.wf .ctl i then s.trapCt c trapILLEGAL
    else if e.r.grd.isSome && !isEngineCommand i then s.trapCt c trapILLEGAL
    else if e.waits u then s
    else if e.guard u.g then body e s
    else s.advanceCt e (instrLen i)

/-- The issue of an instruction by whoever moves. With no issuer nothing happens. -/
def issue (i : Instr) (u : Uses) (s : State) (vec : Env → List Lane → State → State) (ctl : CEnv → State → State) : State :=
  match s.issuer with
  | some (.vec c k) => issueVec i u s c k vec
  | some (.ct c) => issueCt i u s c ctl
  | _ => s

/-- An instruction whose own part says which threads read which latches: it still waits for a result that is to reach one (R59, R68). -/
def Uses.readLate (u : Uses) : Uses := { u with lat := [], later := u.lat, b3 := u.b3 || u.lat.contains 3 }

/-- A source code names a latch that is void for a lane (R45). -/
def Env.void (e : Env) (l : Lane) (code : BitVec 7) : Bool := (codeLat code).any (fun b => (e.latch l b).isNone)

/-- The threads that read a void latch trap LATCH_VOID (R53 step 9); where there are none, the instruction's part is done. -/
def State.unlessVoid (s : State) (e : Env) (i : Instr) (void : List Lane) (body : State → State) : State :=
  match void with
  | [] => body s
  | void => s.trapWarp e i trapLATCHVOID void

/-! ### Waking (R171) -/

/-- The wait of a thread's instruction is over: the thread leaves it, and the instruction re-executes without waiting
again. -/
def State.wakeDone (s : State) (c ws tid : Nat) : State :=
  (s.modThread c ws tid fun t => { t with capture := some { pc := t.pc, words := [] } }).wake c ws tid

/-- Wake every thread of a core, and its control thread, whose park a test picks. `mark` says that the wait is over, and
not only to be tried again. -/
def State.wakeWhere (s : State) (c : Nat) (p : Park → Bool) (mark : Bool) : State :=
  let s := ((s.core c).wgs.flatMap (fun kv => match kv.2 with
    | some g => (g.threads.filter (fun t => t.2.live && p t.2.park)).map (fun t => (kv.1, t.1))
    | none => [])).foldl (fun s w => if mark then s.wakeDone c w.1 w.2 else s.wake c w.1 w.2) s
  if p (s.core c).ct.cur.park then s.modCt c fun r => { r with park := .none, waited := r.waited || mark } else s

/-- A park for a flag to hold a value (R122, R210). -/
def Park.awaitsFlag (k : Nat) (v : Bool) (p : Park) : Bool :=
  match p with
  | .flag j w => j == k && decide (k ≠ 0) && w == v
  | _ => false

/-- A flag is written, and the threads that wait for its value are woken (R122, R210). -/
def State.writeFlag (s : State) (c k : Nat) (v : Bool) : State := (s.modCore c (·.setFlag k v)).wakeWhere c (Park.awaitsFlag k v) true

/-! ### Delivering results (R45, R55) -/

/-- The results of an instruction: registers by lane, and latch b of each lane. -/
def State.deliver (s : State) (e : Env) (b : Nat) (rs : List (Lane × List (Nat × Word) × Word)) : State :=
  s.modCore e.c fun x =>
    let regs := rs.foldl (fun m r => r.2.1.foldl (fun m kv => SMap.set 0 (regKey r.1.hw kv.1 r.1.lane) kv.2 m) m) x.regs
    let x := { x with regs := regs }
    match x.warp e.k with
    | some w => x.setWarp e.k (some { w with latches := rs.foldl (fun m r => SMap.set none (b * 32 + r.1.lane) (some r.2.2) m) w.latches })
    | none => x

/-- write(t, d, x) for one destination register (R55). -/
def oneReg (nw : BitVec 1) (d : BitVec 6) (v : Word) : List (Nat × Word) := if nw = 0 then [(d.toNat, v)] else []

/-- A register result for each lane of the issue set, and the warp goes on. -/
def State.result (s : State) (e : Env) (set : List Lane) (b len : Nat) (f : Lane → List (Nat × Word) × Word) : State :=
  (s.deliver e b (set.map (fun l => (l, f l)))).advance e len false

/-- A predicate result for each lane of the issue set (R45, R58). -/
def State.predResult (s : State) (e : Env) (set : List Lane) (p : Nat) (f : Lane → Bool) : State :=
  let s := s.deliver e 0 (set.map (fun l => (l, [], boolWord (f l))))
  (s.eachThread e.c e.ws set fun l t => t.setPred p (f l)).advance e 4 false

/-- A control-thread register result. -/
def State.resultCt (s : State) (e : CEnv) (len d : Nat) (v : DWord) : State :=
  (s.modCt e.c (·.setReg d v)).advanceCt e len

/-- A control-thread flag result (R208). -/
def State.flagResult (s : State) (e : CEnv) (p : Nat) (v : Bool) : State := (s.writeFlag e.c p v).advanceCt e 4

end Sys2Proof.Machine
end

