-- ==== Sys2Proof/Machine/LaneInt.lean ====
section
/-! DEFINITION. The common lane instructions (R56-R65), their 16-bit forms (R38) and their control-stream effects (R39,
R208), with the recorded reads of a deterministic launch (R289). -/

namespace Sys2Proof.Machine

/-! ### Operations at either width (R56, R60, R62, R208) -/

/-- sA shifted left by sB mod the width. -/
def shlOp {w : Nat} (a b : BitVec w) : BitVec w := a <<< (b.toNat % w)

/-- Logical right shift. -/
def shrOp {w : Nat} (a b : BitVec w) : BitVec w := a >>> (b.toNat % w)

/-- Arithmetic right shift. -/
def sarOp {w : Nat} (a b : BitVec w) : BitVec w := a.sshiftRight (b.toNat % w)

/-- Rotation left. -/
def rotlOp {w : Nat} (a b : BitVec w) : BitVec w := rotl a (b.toNat % w)

/-- The high half of the exact signed product. -/
def mulhiS {w : Nat} (a b : BitVec w) : BitVec w := ((a.signExtend (2 * w) * b.signExtend (2 * w)) >>> w).setWidth w

/-- The high half of the exact unsigned product. -/
def mulhiU {w : Nat} (a b : BitVec w) : BitVec w := ((a.setWidth (2 * w) * b.setWidth (2 * w)) >>> w).setWidth w

/-- Signed minimum. -/
def minS {w : Nat} (a b : BitVec w) : BitVec w := if a.slt b then a else b

/-- Signed maximum. -/
def maxS {w : Nat} (a b : BitVec w) : BitVec w := if a.slt b then b else a

/-- Unsigned minimum. -/
def minU {w : Nat} (a b : BitVec w) : BitVec w := if a.ult b then a else b

/-- Unsigned maximum. -/
def maxU {w : Nat} (a b : BitVec w) : BitVec w := if a.ult b then b else a

/-- The place of a bit field: its position and its width, truncated at the top bit (R60, R208). -/
def fieldOf {w : Nat} (b : BitVec w) : Nat × Nat :=
  let pos := b.toNat % w
  (pos, min (min (bitsOf b.toNat (if w = 64 then 14 else 13) 8) w) (w - pos))

/-- `bfe.n32`. -/
def bfeU {w : Nat} (a b : BitVec w) : BitVec w := let p := fieldOf b; zextLow (a >>> p.1) p.2

/-- `bfe.i32`. -/
def bfeS {w : Nat} (a b : BitVec w) : BitVec w := let p := fieldOf b; sextLow (a >>> p.1) p.2

/-- `bfi`, with the old d. -/
def bfiOp {w : Nat} (d a b : BitVec w) : BitVec w :=
  let p := fieldOf b
  let m : BitVec w := BitVec.ofNat w ((2 ^ p.2 - 1) * 2 ^ p.1)
  (d &&& ~~~m) ||| ((a <<< p.1) &&& m)

/-- Absolute value; the most negative number gives itself. -/
def absOp {w : Nat} (a : BitVec w) : BitVec w := if a.msb then -a else a

/-! ### Shapes of instructions -/

/-- A two-source instruction of format R in both streams. -/
def aluR (i : Instr) (f : RForm) (op : {w : Nat} → BitVec w → BitVec w → BitVec w) (s : State) : Host.Outcome State Fault Refusal :=
  .next (issue i f.uses s
    (fun e set s => s.result e set 0 4 fun l =>
      let v := op (e.operand .int l f.a) (e.operand .int l f.b); (oneReg f.n f.d v, v))
    (fun e s => s.resultCt e 4 f.d.toNat (op (e.operand f.a) (e.operand f.b))))

/-- A three-source instruction of format R: d is read before it is written (R43). -/
def aluR3 (i : Instr) (f : RForm) (op : {w : Nat} → BitVec w → BitVec w → BitVec w → BitVec w) (s : State) :
    Host.Outcome State Fault Refusal :=
  .next (issue i f.uses3 s
    (fun e set s => s.result e set 0 4 fun l =>
      let v := op (e.reg l f.d.toNat) (e.operand .int l f.a) (e.operand .int l f.b); (oneReg f.n f.d v, v))
    (fun e s => s.resultCt e 4 f.d.toNat (op (e.r.reg f.d.toNat) (e.operand f.a) (e.operand f.b))))

/-- A 64-bit pair instruction (R57): pairs in the vector stream, single registers in the control stream (R208). -/
def aluPair (i : Instr) (f : RForm) (three : Bool) (op : DWord → DWord → DWord → DWord) (s : State) :
    Host.Outcome State Fault Refusal :=
  .next (issue i (f.usesPair three) s
    (fun e set s => s.result e set 0 4 fun l =>
      let v := op (e.regPair l f.d.toNat) (e.pair l f.a) (e.pair l f.b)
      (oneReg f.n f.d v.lo ++ oneReg f.n (f.d + 1) v.hi, v.lo))
    (fun e s => s.resultCt e 4 f.d.toNat (op (e.r.reg f.d.toNat) (e.operand f.a) (e.operand f.b))))

/-- A one-source instruction of format X in both streams. -/
def aluU (i : Instr) (f : UForm) (op : {w : Nat} → BitVec w → BitVec w) (s : State) : Host.Outcome State Fault Refusal :=
  .next (issue i f.uses s
    (fun e set s => s.result e set 0 4 fun l => let v := op (e.operand .int l f.a); (oneReg f.n f.d v, v))
    (fun e s => s.resultCt e 4 f.d.toNat (op (e.operand f.a))))

/-- A 16-bit form (R38, R39): sA is the d register. -/
def aluH (i : Instr) (f : HForm) (op : {w : Nat} → BitVec w → BitVec w → BitVec w) (s : State) : Host.Outcome State Fault Refusal :=
  .next (issue i f.uses s
    (fun e set s => s.result e set 0 2 fun l => let v := op (e.reg l f.d.toNat) (e.operand .int l f.src); ([(f.d.toNat, v)], v))
    (fun e s => s.resultCt e 2 f.d.toNat (op (e.r.reg f.d.toNat) (e.operand f.src))))

/-- An integer compare (R58, R208). -/
def cmpOp (i : Instr) (f : CmpForm) (signed : Bool) (s : State) : Host.Outcome State Fault Refusal :=
  .next (issue i f.uses s
    (fun e set s => s.predResult e set (if f.n = 0 then f.p.toNat else 0) fun l =>
      intCond signed f.c.toNat (e.operand .int l f.a) (e.operand .int l f.b))
    (fun e s => s.flagResult e f.p.toNat (intCond signed f.c.toNat (e.operand f.a) (e.operand f.b))))

/-! ### The 16-bit forms (R38) -/

/-- `mov`, 16-bit. -/
def execMov16 (f : HForm) (s : State) : Host.Outcome State Fault Refusal := aluH (.mov16 f) f (fun _ b => b) s

/-- `add.i32`, 16-bit. -/
def execAddI3216 (f : HForm) (s : State) : Host.Outcome State Fault Refusal := aluH (.addI3216 f) f (fun a b => a + b) s

/-- `sub.i32`, 16-bit. -/
def execSubI3216 (f : HForm) (s : State) : Host.Outcome State Fault Refusal := aluH (.subI3216 f) f (fun a b => a - b) s

/-- `mul.i32`, 16-bit. -/
def execMulI3216 (f : HForm) (s : State) : Host.Outcome State Fault Refusal := aluH (.mulI3216 f) f (fun a b => a * b) s

/-- `and`, 16-bit. -/
def execAnd16 (f : HForm) (s : State) : Host.Outcome State Fault Refusal := aluH (.and16 f) f (fun a b => a &&& b) s

/-- `or`, 16-bit. -/
def execOr16 (f : HForm) (s : State) : Host.Outcome State Fault Refusal := aluH (.or16 f) f (fun a b => a ||| b) s

/-- `xor`, 16-bit. -/
def execXor16 (f : HForm) (s : State) : Host.Outcome State Fault Refusal := aluH (.xor16 f) f (fun a b => a ^^^ b) s

/-- `shl`, 16-bit. -/
def execShl16 (f : HForm) (s : State) : Host.Outcome State Fault Refusal := aluH (.shl16 f) f shlOp s

/-- `shr.n32`, 16-bit. -/
def execShrN3216 (f : HForm) (s : State) : Host.Outcome State Fault Refusal := aluH (.shrN3216 f) f shrOp s

/-- `shr.i32`, 16-bit. -/
def execShrI3216 (f : HForm) (s : State) : Host.Outcome State Fault Refusal := aluH (.shrI3216 f) f sarOp s

/-- `addi`, 16-bit: a signed 5-bit immediate. -/
def execAddi16 (i : BitVec 5) (d : BitVec 6) (s : State) : Host.Outcome State Fault Refusal :=
  .next (issue (.addi16 i d) { regs := [d.toNat] } s
    (fun e set s => s.result e set 0 2 fun l => let v := e.reg l d.toNat + i.signExtend 32; ([(d.toNat, v)], v))
    (fun e s => s.resultCt e 2 d.toNat (e.r.reg d.toNat + i.signExtend 64)))

/-! ### Integer arithmetic and logic (R56) -/

/-- `add.i32`. -/
def execAddI32 (f : RForm) (s : State) : Host.Outcome State Fault Refusal := aluR (.addI32 f) f (fun a b => a + b) s

/-- `sub.i32`. -/
def execSubI32 (f : RForm) (s : State) : Host.Outcome State Fault Refusal := aluR (.subI32 f) f (fun a b => a - b) s

/-- `mul.i32`. -/
def execMulI32 (f : RForm) (s : State) : Host.Outcome State Fault Refusal := aluR (.mulI32 f) f (fun a b => a * b) s

/-- `mulhi.i32`. -/
def execMulhiI32 (f : RForm) (s : State) : Host.Outcome State Fault Refusal := aluR (.mulhiI32 f) f mulhiS s

/-- `mulhi.n32`. -/
def execMulhiN32 (f : RForm) (s : State) : Host.Outcome State Fault Refusal := aluR (.mulhiN32 f) f mulhiU s

/-- `mad.i32`: d + sA × sB with the old d. -/
def execMadI32 (f : RForm) (s : State) : Host.Outcome State Fault Refusal := aluR3 (.madI32 f) f (fun d a b => d + a * b) s

/-- `min.i32`. -/
def execMinI32 (f : RForm) (s : State) : Host.Outcome State Fault Refusal := aluR (.minI32 f) f minS s

/-- `max.i32`. -/
def execMaxI32 (f : RForm) (s : State) : Host.Outcome State Fault Refusal := aluR (.maxI32 f) f maxS s

/-- `min.n32`. -/
def execMinN32 (f : RForm) (s : State) : Host.Outcome State Fault Refusal := aluR (.minN32 f) f minU s

/-- `max.n32`. -/
def execMaxN32 (f : RForm) (s : State) : Host.Outcome State Fault Refusal := aluR (.maxN32 f) f maxU s

/-- `and`. -/
def execAnd (f : RForm) (s : State) : Host.Outcome State Fault Refusal := aluR (.and f) f (fun a b => a &&& b) s

/-- `or`. -/
def execOr (f : RForm) (s : State) : Host.Outcome State Fault Refusal := aluR (.or f) f (fun a b => a ||| b) s

/-- `xor`. -/
def execXor (f : RForm) (s : State) : Host.Outcome State Fault Refusal := aluR (.xor f) f (fun a b => a ^^^ b) s

/-- `andn`. -/
def execAndn (f : RForm) (s : State) : Host.Outcome State Fault Refusal := aluR (.andn f) f (fun a b => a &&& ~~~b) s

/-- `shl`. -/
def execShl (f : RForm) (s : State) : Host.Outcome State Fault Refusal := aluR (.shl f) f shlOp s

/-- `shr.n32`. -/
def execShrN32 (f : RForm) (s : State) : Host.Outcome State Fault Refusal := aluR (.shrN32 f) f shrOp s

/-- `shr.i32`. -/
def execShrI32 (f : RForm) (s : State) : Host.Outcome State Fault Refusal := aluR (.shrI32 f) f sarOp s

/-- `rotl`. -/
def execRotl (f : RForm) (s : State) : Host.Outcome State Fault Refusal := aluR (.rotl f) f rotlOp s

/-! ### 64-bit pairs (R57) -/

/-- `add64`. -/
def execAdd64 (f : RForm) (s : State) : Host.Outcome State Fault Refusal := aluPair (.add64 f) f false (fun _ a b => a + b) s

/-- `sub64`. -/
def execSub64 (f : RForm) (s : State) : Host.Outcome State Fault Refusal := aluPair (.sub64 f) f false (fun _ a b => a - b) s

/-- `mad64`. -/
def execMad64 (f : RForm) (s : State) : Host.Outcome State Fault Refusal := aluPair (.mad64 f) f true (fun d a b => d + a * b) s

/-! ### Compare and select (R58, R59) -/

/-- `sel`: every thread of the formed warp executes; g selects, and only the operand selected is read. -/
def execSel (f : RForm) (s : State) : Host.Outcome State Fault Refusal :=
  let code := fun (e : Env) (l : Lane) => if e.guard f.g l then f.a else f.b
  .next (issue (.sel f) { f.uses.readLate with g := 0, preds := true } s
    (fun e set s => s.unlessVoid e (.sel f) (set.filter (fun l => e.void l (code e l))) fun s =>
      s.result e set 0 4 fun l => let v := e.operand .int l (code e l); (oneReg f.n f.d v, v))
    (fun e s => s.resultCt e 4 f.d.toNat (if e.guard f.g then e.operand f.a else e.operand f.b)))

/-- `cmp.i32`. -/
def execCmpI32 (f : CmpForm) (s : State) : Host.Outcome State Fault Refusal := cmpOp (.cmpI32 f) f true s

/-- `cmp.n32`. -/
def execCmpN32 (f : CmpForm) (s : State) : Host.Outcome State Fault Refusal := cmpOp (.cmpN32 f) f false s

/-! ### The iun group (R62) -/

/-- `mov`. -/
def execMov (f : UForm) (s : State) : Host.Outcome State Fault Refusal := aluU (.mov f) f (fun a => a) s

/-- `not`. -/
def execNot (f : UForm) (s : State) : Host.Outcome State Fault Refusal := aluU (.not f) f (fun a => ~~~a) s

/-- `neg`. -/
def execNeg (f : UForm) (s : State) : Host.Outcome State Fault Refusal := aluU (.neg f) f (fun a => -a) s

/-- `abs`. -/
def execAbs (f : UForm) (s : State) : Host.Outcome State Fault Refusal := aluU (.abs f) f absOp s

/-- `popc`. -/
def execPopc (f : UForm) (s : State) : Host.Outcome State Fault Refusal := aluU (.popc f) f (fun {w} a => BitVec.ofNat w (popc a)) s

/-- `clz`. -/
def execClz (f : UForm) (s : State) : Host.Outcome State Fault Refusal := aluU (.clz f) f (fun {w} a => BitVec.ofNat w (clz a)) s

/-- `ctz`. -/
def execCtz (f : UForm) (s : State) : Host.Outcome State Fault Refusal := aluU (.ctz f) f (fun {w} a => BitVec.ofNat w (ctz a)) s

/-- `brev`. -/
def execBrev (f : UForm) (s : State) : Host.Outcome State Fault Refusal := aluU (.brev f) f brev s

/-- `sext.w8`. -/
def execSextW8 (f : UForm) (s : State) : Host.Outcome State Fault Refusal := aluU (.sextW8 f) f (fun a => sextLow a 8) s

/-- `sext.w16`. -/
def execSextW16 (f : UForm) (s : State) : Host.Outcome State Fault Refusal := aluU (.sextW16 f) f (fun a => sextLow a 16) s

/-- `zext.w8`. -/
def execZextW8 (f : UForm) (s : State) : Host.Outcome State Fault Refusal := aluU (.zextW8 f) f (fun a => zextLow a 8) s

/-- `zext.w16`. -/
def execZextW16 (f : UForm) (s : State) : Host.Outcome State Fault Refusal := aluU (.zextW16 f) f (fun a => zextLow a 16) s

/-- `pget`: the predicates as a mask, or the flags f0-f7 in the control stream. -/
def execPget (nw : BitVec 1) (d : BitVec 6) (g : BitVec 3) (s : State) : Host.Outcome State Fault Refusal :=
  .next (issue (.pget nw d g) { g := g, regs := destRegs nw d, preds := true } s
    (fun e set s => s.result e set 0 4 fun l => let v := (e.thread l).predBits.setWidth 32; (oneReg nw d v, v))
    (fun e s => s.resultCt e 4 d.toNat (((e.cr.flags.setWidth 8) ||| 1).setWidth 64)))

/-- `pset`: p1-p7 from bits 1 to 7 of sA, or the flags f1-f7 in the control stream. -/
def execPset (a : BitVec 7) (g : BitVec 3) (s : State) : Host.Outcome State Fault Refusal :=
  .next (issue (.pset a g) { g := g, regs := codeRegs a, lat := codeLat a, preds := true } s
    (fun e set s =>
      let s := s.deliver e 0 (set.map fun l => (l, [], e.operand .int l a))
      (s.eachThread e.c e.ws set fun l t => { t with preds := (e.operand .int l a).setWidth 8 ||| 1 }).advance e 4 false)
    (fun e s =>
      ((List.range' 1 7).foldl (fun s k => s.writeFlag e.c k ((e.operand a).getLsbD k)) s).advanceCt e 4))

/-! ### Recorded reads (R64, R289) -/

/-- The address of entry i of a launch's record buffer (R288). -/
def Launch.recEntry (l : Launch) (i : Nat) : DWord := l.recBase + BitVec.ofNat 64 (64 + 16 * l.count + 16 * i)

/-- Change a launch of a context. -/
def State.modLaunch (s : State) (x n : Nat) (f : Launch → Launch) : State :=
  s.modCtx x fun y => { y with launches := y.launches.map (fun (l : Launch) => if l.index = n then f l else l) }

/-- A read of a deterministic launch: the value read, and the record buffer after it (R289). `key` is the entry's word at
0x0C, `seq` the thread's count. A launch that is not deterministic reads the true value. -/
def State.recordedRead (s : State) (x n : Nat) (key seq : Word) (v : DWord) : DWord × State :=
  match s.launch x n with
  | none => (v, s)
  | some l =>
    let used := (s.devLoad x l.recBase).getD 0
    let flags := (s.devLoad x (l.recBase + 4)).getD 0
    if l.detMode = 1 then
      if 64 + 16 * l.count + 16 * (used.toNat + 1) ≤ l.recSize then
        (v, (s.devStores x (l.recEntry used.toNat) [v.lo, v.hi, seq, key]).devStore x l.recBase (used + 1))
      else (v, s.devStore x (l.recBase + 4) (flags ||| 1))
    else if l.detMode = 2 then
      let hit := (List.range l.recN).find? (fun i =>
        s.devLoad x (l.recEntry i + 8) == some seq && s.devLoad x (l.recEntry i + 12) == some key)
      match hit with
      | some i =>
        (dword ((s.devLoad x (l.recEntry i)).getD 0) ((s.devLoad x (l.recEntry i + 4)).getD 0), s.devStore x l.recBase (used + 1))
      | none => (v, s.devStore x (l.recBase + 4) (flags ||| 2))
    else (v, s)

/-- The recorded reads of the threads of an issue set, in increasing home lane, and their values. -/
def State.recordedLanes (s : State) (e : Env) (set : List Lane) (v : Lane → DWord) : List (Lane × DWord) × State :=
  set.foldl (fun acc l =>
    let t := acc.2.thread e.c e.ws l.tid
    let r := acc.2.recordedRead e.x e.g.launch (BitVec.ofNat 32 (e.g.index * 2 ^ 17 + l.tid * 256)) t.recSeq (v l)
    (acc.1 ++ [(l, r.1)], r.2.modThread e.c e.ws l.tid fun t => { t with recSeq := t.recSeq + 1 })) ([], s)

/-- A recorded read of the vector stream delivered. -/
def recordedResult (e : Env) (set : List Lane) (nw : BitVec 1) (d : BitVec 6) (pick : DWord → Word) (v : Lane → DWord) (s : State) : State :=
  let r := s.recordedLanes e set v
  (r.2.deliver e 0 (r.1.map fun p => (p.1, oneReg nw d (pick p.2), pick p.2))).advance e 4 false

/-- `rdtick`: bits [31:0] of the global tick. -/
def execRdtick (nw : BitVec 1) (d : BitVec 6) (g : BitVec 3) (s : State) : Host.Outcome State Fault Refusal :=
  .next (issue (.rdtick nw d g) { g := g, regs := destRegs nw d } s
    (fun e set s => recordedResult e set nw d DWord.lo (fun _ => s.tick.lo.setWidth 64) s) (fun _ s => s))

/-- `rdtick.hi`: bits [63:32] of the global tick. -/
def execRdtickHi (nw : BitVec 1) (d : BitVec 6) (g : BitVec 3) (s : State) : Host.Outcome State Fault Refusal :=
  .next (issue (.rdtickHi nw d g) { g := g, regs := destRegs nw d } s
    (fun e set s => recordedResult e set nw d DWord.lo (fun _ => s.tick.hi.setWidth 64) s) (fun _ s => s))

/-- An identity of `rdid` (R63), for a home-warp slot and the count of launches. -/
def State.identity (s : State) (c x hw launch which : Nat) : Word :=
  match which with
  | 0 => BitVec.ofNat 32 x
  | 1 => BitVec.ofNat 32 (dieOf c)
  | 2 => BitVec.ofNat 32 c
  | 3 => BitVec.ofNat 32 hw
  | 4 => s.pkg.setWidth 32
  | _ => BitVec.ofNat 32 launch

/-- `rdid`. -/
def execRdid (which : BitVec 3) (nw : BitVec 1) (d : BitVec 6) (g : BitVec 3) (s : State) : Host.Outcome State Fault Refusal :=
  .next (issue (.rdid which nw d g) { g := g, regs := destRegs nw d } s
    (fun e set s => recordedResult e set nw d DWord.lo (fun l => (s.identity e.c e.x l.hw e.g.launch which.toNat).setWidth 64) s)
    (fun _ s => s))

/-! ### Bit fields (R60) -/

/-- `bfe.i32`. -/
def execBfeI32 (f : RForm) (s : State) : Host.Outcome State Fault Refusal := aluR (.bfeI32 f) f bfeS s

/-- `bfe.n32`. -/
def execBfeN32 (f : RForm) (s : State) : Host.Outcome State Fault Refusal := aluR (.bfeN32 f) f bfeU s

/-- `bfi`. -/
def execBfi (f : RForm) (s : State) : Host.Outcome State Fault Refusal := aluR3 (.bfi f) f bfiOp s

/-! ### The plog group (R65) -/

/-- A predicate operation of two sources, complemented where c is 1. -/
def plogOp (i : Instr) (f : PlogForm) (op : Bool → Bool → Bool) (s : State) : Host.Outcome State Fault Refusal :=
  .next (issue i { g := f.g, preds := true } s
    (fun e set s => s.predResult e set (if f.w = 0 then f.p.toNat else 0) fun l =>
      (op (e.guard f.f l) (e.guard f.s l)).xor (f.c == 1))
    (fun e s => s.flagResult e f.p.toNat ((op (e.guard f.f) (e.guard f.s)).xor (f.c == 1))))

/-- A predicate operation of one source. -/
def plogU (i : Instr) (f : PlogUForm) (op : Bool → Bool) (s : State) : Host.Outcome State Fault Refusal :=
  .next (issue i { g := f.g, preds := true } s
    (fun e set s => s.predResult e set (if f.w = 0 then f.p.toNat else 0) fun l => (op (e.guard f.f l)).xor (f.c == 1))
    (fun e s => s.flagResult e f.p.toNat ((op (e.guard f.f)).xor (f.c == 1))))

/-- `pand`. -/
def execPand (f : PlogForm) (s : State) : Host.Outcome State Fault Refusal := plogOp (.pand f) f (fun a b => a && b) s

/-- `por`. -/
def execPor (f : PlogForm) (s : State) : Host.Outcome State Fault Refusal := plogOp (.por f) f (fun a b => a || b) s

/-- `pxor`. -/
def execPxor (f : PlogForm) (s : State) : Host.Outcome State Fault Refusal := plogOp (.pxor f) f Bool.xor s

/-- `pandn`. -/
def execPandn (f : PlogForm) (s : State) : Host.Outcome State Fault Refusal := plogOp (.pandn f) f (fun a b => a && !b) s

/-- `pnot`. -/
def execPnot (f : PlogUForm) (s : State) : Host.Outcome State Fault Refusal := plogU (.pnot f) f (fun a => !a) s

/-- `pmov`. -/
def execPmov (f : PlogUForm) (s : State) : Host.Outcome State Fault Refusal := plogU (.pmov f) f (fun a => a) s

/-! ### Immediates (R61) -/

/-- `addi`. -/
def execAddi (i : BitVec 11) (a : BitVec 7) (d : BitVec 6) (s : State) : Host.Outcome State Fault Refusal :=
  .next (issue (.addi i a d) { regs := codeRegs a ++ [d.toNat], lat := codeLat a } s
    (fun e set s => s.result e set 0 4 fun l => let v := e.operand .int l a + i.signExtend 32; ([(d.toNat, v)], v))
    (fun e s => s.resultCt e 4 d.toNat (e.operand a + i.signExtend 64)))

/-- `andi`. -/
def execAndi (i : BitVec 11) (a : BitVec 7) (d : BitVec 6) (s : State) : Host.Outcome State Fault Refusal :=
  .next (issue (.andi i a d) { regs := codeRegs a ++ [d.toNat], lat := codeLat a } s
    (fun e set s => s.result e set 0 4 fun l => let v := e.operand .int l a &&& i.signExtend 32; ([(d.toNat, v)], v))
    (fun e s => s.resultCt e 4 d.toNat (e.operand a &&& i.signExtend 64)))

/-- `ldi`. -/
def execLdi (i : BitVec 16) (d : BitVec 6) (s : State) : Host.Outcome State Fault Refusal :=
  .next (issue (.ldi i d) { regs := [d.toNat] } s
    (fun e set s => s.result e set 0 4 fun _ => ([(d.toNat, i.signExtend 32)], i.signExtend 32))
    (fun e s => s.resultCt e 4 d.toNat (i.signExtend 64)))

/-- Bits [31:16] replaced. -/
def setHigh {w : Nat} (d : BitVec w) (i : BitVec 16) : BitVec w :=
  (d &&& ~~~BitVec.ofNat w 0xFFFF0000) ||| BitVec.ofNat w (i.toNat * 65536)

/-- `ldi.hi`. -/
def execLdiHi (i : BitVec 16) (d : BitVec 6) (s : State) : Host.Outcome State Fault Refusal :=
  .next (issue (.ldiHi i d) { regs := [d.toNat] } s
    (fun e set s => s.result e set 0 4 fun l => let v := setHigh (e.reg l d.toNat) i; ([(d.toNat, v)], v))
    (fun e s => s.resultCt e 4 d.toNat (setHigh (e.r.reg d.toNat) i)))

end Sys2Proof.Machine
end

