-- ==== Sys2Proof/Machine/Check.lean ====
section
/-! DEFINITION. What memory instructions share: the operand words a hardware effect captures (R47, R201), the address
checks (R91, R311) and watchpoints (R374, R375), and the on-chip windows (R30-R33). -/

namespace Sys2Proof.Machine

/-! ### Captured operands (R47, R201) -/

/-- A source that an effect's record captures where it names registers: a source code read as n words, or n registers
from v(k). -/
inductive Part where
  | code (c : BitVec 7) (n : Nat)
  | regs (k n : Nat)
  deriving DecidableEq, Repr, Inhabited

/-- The number of words a record holds for a source: none for a source that names no register or latch. -/
def Part.held : Part → Nat
  | .code c n => if c.toNat ≤ 63 then n else if c.toNat ≤ 67 then 1 else 0
  | .regs _ n => n

/-- A source read afresh. -/
def Part.read (e : Env) (l : Lane) : Part → List Word
  | .code c n =>
    if c.toNat ≤ 63 then (span c.toNat n).map (e.reg l)
    else if n = 1 then [e.operand .int l c]
    else if n = 2 then [(e.pair l c).lo, (e.pair l c).hi]
    else List.replicate n 0
  | .regs k n => (span k n).map (e.reg l)

/-- The sources of an instruction from the words captured for it, in the order of R201. -/
def partsFrom (e : Env) (l : Lane) : List Part → List Word → List (List Word)
  | [], _ => []
  | p :: ps, ws =>
    (if p.held = 0 then p.read e l
     else ws.take p.held ++ (match p with
       | .code _ n => List.replicate (n - p.held) 0
       | .regs _ _ => [])) :: partsFrom e l ps (ws.drop p.held)

/-- The sources of an instruction for a lane: the captured words where it re-executes (R47), else read afresh. -/
def Env.sources (e : Env) (l : Lane) (ps : List Part) : List (List Word) :=
  match e.captured l with
  | some ws => partsFrom e l ps ws
  | none => ps.map (·.read e l)

/-- The words an effect's record captures. -/
def Env.captureOf (e : Env) (l : Lane) (ps : List Part) : List Word :=
  ((ps.zip (e.sources l ps)).map (fun p => p.2.take p.1.held)).flatten

/-- A source as a number. -/
def Env.sourceNat (e : Env) (l : Lane) (ps : List Part) (n : Nat) : Nat := ofWords ((e.sources l ps).getD n [])

/-! ### Address checks -/

/-- A window frame of the host: memory or an interrupt page (R74, R309). -/
def State.isHostWindow (s : State) (pa : Nat) : Bool := isWindowPa pa && s.windowKind pa != 1

/-- The trap of an access's own checks, if one applies: non-canonical, misaligned, mapped without the permission, in a
host window where that is not allowed, or a write to a bag's header page (R91, R99, R126, R311). -/
def State.accessTrap (s : State) (c x : Nat) (va : DWord) (align : Nat) (need : BitVec 3) (noHost : Bool) : Option Nat :=
  if !canonical va then some trapADDR
  else if va.toNat % align ≠ 0 then some trapALIGN
  else match s.xlate c x va with
    | some t => if !t.grants need || (noHost && s.isHostWindow t.pa) || (need.getLsbD 1 && s.isHeader t.pa) then some trapADDR else none
    | none => none

/-- The trap of a wait's own checks: it needs read and write permission, but a bag's header may be waited on (R126, R185, R311). -/
def State.waitTrap (s : State) (c x : Nat) (va : DWord) : Option Nat :=
  if !canonical va then some trapADDR
  else if va.toNat % 4 ≠ 0 then some trapALIGN
  else match s.xlate c x va with
    | some t => if !t.grants permRW || s.isHostWindow t.pa then some trapADDR else none
    | none => none

/-- The comparators that match an access: bit i for comparator i (R374). -/
def Core.watchMask (y : Core) (va : DWord) (size : Nat) (rd wr : Bool) : Nat :=
  let ctl := (y.sysReg 0x22).toNat
  let a := va.toNat % 2 ^ 48
  ((List.range 4).filter (fun i =>
    let kind := ctl / 2 ^ (4 * i) % 4
    ((kind.testBit 0 && rd) || (kind.testBit 1 && wr)) &&
      decide (0 < size ∧ a ≤ (y.sysReg (0x28 + i)).toNat % 2 ^ 48 ∧ (y.sysReg (0x24 + i)).toNat % 2 ^ 48 < a + size ∧
              (y.sysReg (0x24 + i)).toNat % 2 ^ 48 ≤ (y.sysReg (0x28 + i)).toNat % 2 ^ 48))).foldl (fun m i => m + 2 ^ i) 0

/-- An access of an instruction: virtual address and size. -/
abbrev Span := DWord × Nat

/-- The checks of step 10 over an issue set: the state after the trap, if one is taken (R91, R375). `trap` gives the
failure of a lane; ADDR goes before ALIGN, and tmask names every failing lane. -/
def State.checkVec (s : State) (e : Env) (i : Instr) (set : List Lane) (trap : Lane → Option Nat) (acc : Lane → List Span)
    (rd wr : Bool) : Option State :=
  let bad := set.filter (fun l => (trap l).isSome)
  if !bad.isEmpty then
    some (s.trapWarp e i (if bad.any (fun l => trap l == some trapADDR) then trapADDR else (bad.head?.bind trap).getD trapALIGN) bad)
  else
    let mask := fun (l : Lane) => if (e.thread l).watched then 0
      else (acc l).foldl (fun m a => Nat.lor m (e.cr.watchMask a.1 a.2 rd wr)) 0
    let seen := set.filter (fun l => mask l ≠ 0)
    if seen.isEmpty then none else some (s.trapWarp e i trapWATCH seen (fun l => (BitVec.ofNat 32 (mask l), 0)))

/-- The checks of step 10 for a control thread. -/
def State.checkCt (s : State) (e : CEnv) (trap : Option Nat) (acc : List Span) (rd wr : Bool) : Option State :=
  match trap with
  | some code => some (s.trapCt e.c code)
  | none =>
    let mask := if e.r.watched then 0 else acc.foldl (fun m a => Nat.lor m (e.cr.watchMask a.1 a.2 rd wr)) 0
    if mask = 0 then none else some (s.trapCt e.c trapWATCH (BitVec.ofNat 64 mask))

/-- A page of an access is resident for a context: mapped, and its frame the context's (R84, R314). -/
def State.residentAt (s : State) (c x : Nat) (va : DWord) : Option Nat :=
  match s.xlate c x va with
  | some t => if s.ownsFrame x t.pa then some t.pa else none
  | none => none

/-- Every thread of the warp goes on, before some of them perform an effect. -/
def State.goOn (s : State) (e : Env) (len : Nat) : State :=
  s.eachThread e.c e.ws e.lanes fun _ t => { t with pc := pc48 (e.pc + BitVec.ofNat 64 len), watched := false, capture := none }

/-- An access is a blocking point for its thread (R171): at pod scope, or to a peer window. -/
def State.remoteAt (s : State) (c x : Nat) (va : DWord) (scope : Nat) : Bool :=
  decide (scope = 5) || (match s.residentAt c x va with
    | some pa => isWindowPa pa && s.windowKind pa == 1
    | none => false)

/-- Threads stay parked for the reply to the access they have made (R171). -/
def State.parkRemote (s : State) (e : Env) (remote : List Lane) : State :=
  s.eachThread e.c e.ws remote fun _ t => { t with park := .remote, reached := true }

/-- The warp goes on after an instruction at which some of its threads stay parked for a reply (R23, R171); `ends` says that it ends the run
whether or not one does. -/
def State.advanceRemote (s : State) (e : Env) (ends : Bool) (remote : List Lane) : State :=
  ((s.goOn e 4).parkRemote e remote).endIssue e (ends || !remote.isEmpty)

/-- The warp goes on, the threads of `remote` parked for their replies, and the threads listed perform a hardware effect with their argument
and captured words; none while a queue has no room (R92, R171, R200). -/
def State.advanceRaising (s : State) (e : Env) (i : Instr) (ls : List (Lane × Nat × Word × List Word)) (remote : List Lane := []) :
    Option State :=
  match ls with
  | [] => some (s.advanceRemote e false remote)
  | ls => ((s.goOn e 4).parkRemote e remote).performAll e i (ls.map (fun p => (p.1, p.2.1, p.2.2.1, .hardware p.2.2.2))) e.pc

/-! ### On-chip windows (R30-R33) -/

/-- The core and the offset in its slot of an on-chip window address (R30). -/
def windowSlot (off : Nat) : Nat × Nat := (off / 0x4000000 * 32 + off % 0x4000000 / 0x200000, off % 0x200000)

/-- Words of the queue and barrier state (R32). -/
def Core.stateWord (y : Core) (o : Nat) : Word :=
  if o < 0x100 then
    let q := SMap.get {} (o / 16) y.cbufs
    match o % 16 / 4 with
    | 0 => BitVec.ofNat 32 q.base
    | 1 => BitVec.ofNat 32 q.size
    | 2 => BitVec.ofNat 32 q.count
    | _ => BitVec.ofNat 32 (q.filled * 65536 + q.free)
  else if o < 0x180 then
    let b := SMap.get {} ((o - 0x100) / 8) y.cbars
    if o % 8 < 4 then BitVec.ofNat 32 b.outstanding else BitVec.ofNat 32 ((if b.error then 2 ^ 31 else 0) + b.code)
  else if o < 0x200 then 0
  else if o < 0x280 then
    let b := SMap.get {} ((o - 0x200) / 8) y.bars
    if o % 8 < 4 then BitVec.ofNat 32 b.expected else BitVec.ofNat 32 ((if b.phase then 2 ^ 31 else 0) + b.arrived)
  else if 0x300 ≤ o && o < 0x304 then y.flags ||| 1
  else if 0x304 ≤ o && o < 0x308 then
    BitVec.ofNat 32 ((List.range 16).foldl (fun m k => m + 4 ^ k * (match y.guardSlot k with
      | none => 0
      | some false => 1
      | some true => 2)) 0)
  else 0

/-- The word at an offset of a core's window slot; reserved offsets read zero (R30). -/
def Core.windowWord (y : Core) (o : Nat) : Word :=
  if o < 0x80000 then y.scratch.word (o / 4 * 4)
  else if o < 0xE0000 then SMap.get 0 ((o - 0x80000) / 4) y.regs
  else if 0x100000 ≤ o && o < 0x140000 then SMap.get 0 ((o - 0x100000) / 4) y.tiles
  else if 0x180000 ≤ o && o < 0x180400 then y.stateWord ((o - 0x180000) / 4 * 4)
  else 0

/-- A word written at an offset; none where nothing may be written (R30). -/
def Core.setWindowWord (y : Core) (o : Nat) (w : Word) : Option Core :=
  if o < 0x80000 then some { y with scratch := y.scratch.setWord (o / 4 * 4) w }
  else if o < 0xE0000 then some { y with regs := SMap.set 0 ((o - 0x80000) / 4) w y.regs }
  else if 0x100000 ≤ o && o < 0x140000 then some { y with tiles := SMap.set 0 ((o - 0x100000) / 4) w y.tiles }
  else none

/-- A granted operation that has not retired writes a tile of a core (R257, R258). -/
def State.passesOn (s : State) (c tile : Nat) : Bool :=
  (s.quad (quadOf c)).table.any (fun m => m.phase == .started && m.tile = tile && (match m.op with
    | .mmx mode => m.core = c || (mode == 1 && Nat.xor m.core 1 = c)
    | _ => false))

/-- A core keeps the tile word under a window write for the pass of an operation that is granted already (R33). -/
def Core.keepTile (y : Core) (o : Nat) : Core :=
  let k := (o - 0x100000) / 4
  if (SMap.get none k y.tileOld).isSome then y else { y with tileOld := SMap.set none k (some (SMap.get 0 k y.tiles)) y.tileOld }

/-- A window write of a word of a core; none where nothing may be written. A pass of a granted operation that comes after it is applied to
the word as it was before, and overwrites it (R30, R33). -/
def State.setWindow (s : State) (c o : Nat) (w : Word) : Option State :=
  let y := s.core c
  ((if 0x100000 ≤ o && s.passesOn c ((o - 0x100000) / 65536) then y.keepTile o else y).setWindowWord o w).map (s.setCore c)

/-- The window core of a physical address, where a context owns it (R33). -/
def State.windowCore (s : State) (x pa : Nat) : Option (Nat × Nat) :=
  match placeOf pa with
  | .onchip off => let p := windowSlot off; if (s.core p.1).owner = some x then some p else none
  | _ => none

end Sys2Proof.Machine
end

