-- ==== Sys2Proof/Machine/Memory.lean ====
section
/-! DEFINITION. Loads, stores, scratchpad accesses, atomics and reductions (R89-R102). -/

namespace Sys2Proof.Machine

/-! ### Loads (R91, R93) -/

/-- A result in flight is added. -/
def State.addLoad (s : State) (c : Nat) (p : Load) : State := s.modCore c fun y => { y with loads := y.loads ++ [p] }

/-- A load reads at the home (R74, R93): `.fresh`, an acquire at package scope or beyond, or one to a window. -/
def readsHome (ord scope pa : Nat) : Bool := decide (ord = 1) || (decide (ord = 2) && decide (4 ≤ scope)) || isWindowPa pa

/-- What a load meets as it issues: an absent page, a queued entry it must wait for, a queued store that covers it, or nothing, so that it sets
out to read (R25, R91). -/
inductive LoadPlan where
  | absent
  | wait
  | covered (pa value : Nat)
  | out (pa : Nat)
  deriving DecidableEq, Repr

/-- What a load of a context meets through a store queue of its core. -/
def State.planLoad (s : State) (c hw : Nat) (va : DWord) (size : Nat) : LoadPlan :=
  let x := s.coreCtx c
  match s.xlate c x va with
  | none => .absent
  | some t =>
    if !s.ownsFrame x t.pa then .absent
    else match forward (s.nowQueue c hw) t.pa size with
      | .wait => .wait
      | .value v => .covered t.pa v
      | .clear => .out t.pa

/-- The pending result of a load that has met something: the value of the store that covers it (R25), nothing yet of one that sets out, which
reads at a later step; an absent page answers at once (R91). -/
def LoadPlan.load (m : LoadPlan) (p : Load) (ord scope : Nat) : Load :=
  match m with
  | .covered pa v => { p with pa := pa, data := some (some (BitVec.ofNat 128 v)) }
  | .out pa => { p with kind := if readsHome ord scope pa then .home else .plain, pa := pa }
  | _ => { p with data := some none }

/-- The requests that a load which has met something sends out. -/
def LoadPlan.asks (m : LoadPlan) (p : Load) (c x hw : Nat) (tick : DWord) : List Msg :=
  match m with
  | .out pa => [{ who := p.who, ctx := x, gen := p.gen, va := p.va, pa := pa, req := .load c p.id p.size, hw := hw, load := some p.id, since := tick }]
  | _ => []

/-- A load of one thread begins. -/
def State.beginLoad (s : State) (c hw : Nat) (p : Load) (ord scope : Nat) (m : LoadPlan) : State :=
  let x := s.coreCtx c
  let s := (match m with
    | .absent => s
    | .wait => s
    | _ => s.learn c x p.va).addLoad c (m.load p ord scope)
  { s with net := s.net ++ m.asks p c x hw s.tick }

/-- The pending result that a load of a lane leaves, before it has met anything. -/
def loadOfLane (s : State) (e : Env) (f : LdForm) (word : Word) (size : Nat) (signed : Bool) (id : Nat) (l : Lane) : Load :=
  let scope := if f.o = 2 then f.s.toNat else 0
  { id := id, kind := .plain, who := e.who l, pc := e.pc, word := word, va := e.base l f.n, pa := 0,
    size := size, signed := signed, dest := some f.d.toNat, pred := f.p.toNat, scope := scope, gen := (s.ctx e.x).gen,
    data := none, warp := some e.k, remote := s.remoteAt e.c e.x (e.base l f.n) scope }

/-- The loads of an issue set of a formed warp; none while one of them waits. -/
def State.loadsVec (s : State) (e : Env) (f : LdForm) (word : Word) (size : Nat) (signed : Bool) (set : List Lane) : Option State :=
  let scope := if f.o = 2 then f.s.toNat else 0
  let plan := fun (l : Lane) => s.planLoad e.c l.hw (e.base l f.n) size
  let new := loadOfLane s e f word size signed s.nextId
  if set.any (fun l => plan l == .wait) then none
  else some <| set.foldl (fun s l =>
    let s := s.beginLoad e.c l.hw (new l) f.o.toNat f.s.toNat (plan l)
    if scope = 0 then s else s.modThread e.c e.ws l.tid fun t => { t with loadHold := t.loadHold + 1 }) s.fresh.2

/-- The physical address of a `.phys` access from its base pair; none where bits [63:52] are not 0 (R95). -/
def physAddr (a : DWord) : Option Nat := if a.toNat < 2 ^ 52 then some a.toNat else none

/-- The trap of a physical access (R95): PRIV in user mode, ADDR outside the frames and windows of the context, ALIGN. DESIGN CHOICE (assumption 67):
one that is misaligned in a place the context does not own traps ALIGN. -/
def State.physTrap (s : State) (e : CEnv) (a : DWord) (size : Nat) : Option Nat :=
  if !e.r.super then some trapPRIV
  else match physAddr a with
    | none => some trapADDR
    | some pa =>
      if pa % size ≠ 0 then some trapALIGN
      else match placeOf pa with
        | .hbm _ => if s.ownsFrame e.x pa then none else some trapADDR
        | .tier _ => if s.ownsFrame e.x pa then none else some trapADDR
        | .onchip _ => if (s.windowCore e.x pa).isSome then none else some trapADDR
        | _ => some trapADDR

/-- A word read by a physical access: of a window, or at the home as a fresh load reads it (R95, R80). -/
def State.physWord (s : State) (c x pa : Nat) : Word :=
  match placeOf pa with
  | .onchip _ => ((s.windowCore x pa).map (fun p => (s.core p.1).windowWord p.2)).getD 0
  | _ => s.freshWord (dieOf c) pa

/-- A physical load, read when it issues (R95, assumption 11). -/
def State.physLoad (s : State) (c x : Nat) (p : Load) : State :=
  let pa := p.va.toNat
  let as := wordsAt pa p.size
  let onchip := !(s.windowCore x pa).isNone
  let down := ((s.windowCore x pa).map (fun p => s.dieDown (dieOf p.1))).getD false
  let far := as.filter (fun a => !(s.die (dieOf c)).dirtyAt a)
  if down || (!onchip && !far.isEmpty && s.homeDown pa) then s.addLoad c { p with pa := pa, data := some none }
  else
    let s := if onchip then s else far.foldl State.eccCheck s
    match (if onchip then none else as.findIdx? (fun a => if (s.die (dieOf c)).dirtyAt a then (s.die (dieOf c)).lostAt a else s.poisoned a)) with
    | some i => s.addLoad c { p with pa := pa, data := some none, poison := some i }
    | none => s.addLoad c { p with pa := pa, data := some (some (BitVec.ofNat 128 (wordsValue pa p.size (as.map (s.physWord c x))))) }

/-- The control thread stays parked after an access for its reply (R171, R180). -/
def State.parkRemoteCt (s : State) (c : Nat) (remote : Bool) : State := if remote then s.modCt c fun r => { r with park := .remote } else s

/-- A load of the control thread: behind every earlier entry of its queue (R94, R207). -/
def State.loadCt (s : State) (e : CEnv) (f : LdForm) (word : Word) (size : Nat) (signed : Bool) : State :=
  let a := e.base f.n
  let phys := f.s == 6#3
  let scope := if f.o = 2 then f.s.toNat else 0
  match s.checkCt e (if phys then s.physTrap e a size else s.accessTrap e.c e.x a size permR false) (if phys then [] else [(a, size)]) true false with
  | some s => s
  | none =>
    if !(e.cr.queue ctQueue).isEmpty || decide (0 < e.cr.ct.loadHold) || e.cr.homeUnread Who.isCt then s
    else
      let p := s.fresh
      let ld : Load := { id := p.1, kind := .plain, who := e.who, pc := e.r.pc, word := word, va := a, pa := 0, size := size,
                         signed := signed, dest := some f.d.toNat, pred := f.p.toNat, scope := scope, gen := (s.ctx e.x).gen, data := none,
                         warp := some e.r.tag, remote := !phys && s.remoteAt e.c e.x a scope }
      if phys then (p.2.physLoad e.c e.x ld).advanceCt e 4
      else
        let plan := s.planLoad e.c ctQueue a size
        if plan = .wait then s
        else
          let s := p.2.beginLoad e.c ctQueue ld f.o.toNat f.s.toNat plan
          let s := if scope = 0 then s else s.modCore e.c fun y => { y with ct := { y.ct with loadHold := y.ct.loadHold + 1 } }
          (s.advanceCt e 4).parkRemoteCt e.c ld.remote

/-- A load in both streams (R91). -/
def loadOp (i : Instr) (f : LdForm) (size : Nat) (signed : Bool) (s : State) : Host.Outcome State Fault Refusal :=
  let word := (wordOf i).1
  .next (issue i { regs := baseRegs f.n ++ span f.d.toNat (max 1 (size / 4)), preds := f.p != 0 } s
    (fun e set s =>
      match s.checkVec e i set (fun l => s.accessTrap e.c e.x (e.base l f.n) size permR false) (fun l => [(e.base l f.n, size)]) true false with
      | some s => s
      | none =>
        if set.any (fun l => decide (0 < (e.thread l).loadHold) || e.cr.homeUnread (Who.inWarp l.hw)) || decide (16 ≤ e.cr.inFlight e.k) then s
        else match s.loadsVec e f word size signed set with
          | none => s
          | some t => t.advanceRemote e (f.o == 2 && f.s == 5) (set.filter (fun l =>
              s.remoteAt e.c e.x (e.base l f.n) (if f.o = 2 then f.s.toNat else 0))))
    (fun e s => s.loadCt e f word size signed))

/-- `ld.w8`. -/
def execLdW8 (f : LdForm) (s : State) : Host.Outcome State Fault Refusal := loadOp (.ldW8 f) f 1 false s

/-- `ld.w16`. -/
def execLdW16 (f : LdForm) (s : State) : Host.Outcome State Fault Refusal := loadOp (.ldW16 f) f 2 false s

/-- `ld.w32`. -/
def execLdW32 (f : LdForm) (s : State) : Host.Outcome State Fault Refusal := loadOp (.ldW32 f) f 4 false s

/-- `ld.w64`. -/
def execLdW64 (f : LdForm) (s : State) : Host.Outcome State Fault Refusal := loadOp (.ldW64 f) f 8 false s

/-- `ld.w128`. -/
def execLdW128 (f : LdForm) (s : State) : Host.Outcome State Fault Refusal := loadOp (.ldW128 f) f 16 false s

/-- `ld.x8`. -/
def execLdX8 (f : LdForm) (s : State) : Host.Outcome State Fault Refusal := loadOp (.ldX8 f) f 1 true s

/-- `ld.x16`. -/
def execLdX16 (f : LdForm) (s : State) : Host.Outcome State Fault Refusal := loadOp (.ldX16 f) f 2 true s

/-! ### Stores (R92, R94) -/

/-- The sources of a store: data, then base pair. -/
def stParts (f : StForm) (size : Nat) : List Part := [.code f.t (max 1 (size / 4)), .regs (2 * f.n.toNat) 2]

/-- The address of a store for a lane. -/
def stAddr (f : StForm) (size : Nat) (e : Env) (l : Lane) : DWord := BitVec.ofNat 64 (e.sourceNat l (stParts f size) 1)

/-- The data of a store for a lane. -/
def stData (f : StForm) (size : Nat) (e : Env) (l : Lane) : BitVec 128 :=
  BitVec.ofNat 128 (e.sourceNat l (stParts f size) 0 % 2 ^ (8 * size))

/-- The entry of a store of a lane thread. -/
def stEntry (f : StForm) (size : Nat) (s : State) (e : Env) (l : Lane) (pa : Nat) : Entry :=
  { kind := .store size (stData f size e l) (if f.o = 3 then f.s.toNat else 0) false false, who := e.who l, pc := e.pc,
    va := stAddr f size e l, pa := pa, gen := (s.ctx e.x).gen }

/-- Entries of an issue set appended in increasing home lane to their home warps' queues; none while one has no room
(R25). `pa` is the physical address of a lane's access, where its page is resident. -/
def State.appendLanes (s : State) (e : Env) (set : List Lane) (pa : Lane → Option Nat) (mk : State → Lane → Nat → Entry) (va : Lane → DWord) :
    Option State :=
  set.foldl (fun acc l => acc.bind fun s =>
    match pa l with
    | none => some s
    | some a => if (s.core e.c).room l.hw 1 then some ((s.append e.c l.hw (mk s l a)).learn e.c e.x (va l)) else none) (some s)

/-- The threads of an issue set whose page is absent perform PAGE_ABSENT (R92, R206). -/
def absentOf (e : Env) (set : List Lane) (pa : Lane → Option Nat) (va : Lane → DWord) (ps : List Part) : List (Lane × Nat × Word × List Word) :=
  (set.filter (fun l => (pa l).isNone)).map (fun l => (l, effPAGEABSENT, pageArg (va l), e.captureOf l ps))

/-- The control thread's effect: UNHANDLED_EFFECT at its instruction (R200). -/
def State.effectCt (s : State) (c id : Nat) (arg : Word) : State := s.trapCt c trapUNHANDLED (BitVec.ofNat 64 id) (arg.setWidth 64)

/-- The data of a store of the control thread (R94). -/
def stDataCt (f : StForm) (size : Nat) (e : CEnv) : BitVec 128 :=
  if size = 16 then
    if f.t.toNat ≤ 31 then BitVec.ofNat 128 ((e.operand f.t).toNat + 2 ^ 64 * (e.r.reg (f.t.toNat + 1)).toNat) else 0
  else BitVec.ofNat 128 ((e.operand f.t).toNat % 2 ^ (8 * size))

/-- A store of the control thread. -/
def State.storeCt (s : State) (e : CEnv) (f : StForm) (size : Nat) : State :=
  let a := e.base f.n
  let phys := f.s == 6#3
  match s.checkCt e (if phys then (s.physTrap e a size).or (if s.isHeader a.toNat then some trapADDR else none)
      else s.accessTrap e.c e.x a size permW false) (if phys then [] else [(a, size)]) false true with
  | some s => s
  | none =>
    match (if phys then physAddr a else s.residentAt e.c e.x a) with
    | none => s.effectCt e.c effPAGEABSENT (pageArg a)
    | some pa =>
      if !e.cr.room ctQueue 1 then s
      else
        let q : Entry := { kind := .store size (stDataCt f size e) (if f.o = 3 then f.s.toNat else 0) false phys, who := e.who, pc := e.r.pc,
                           va := a, pa := pa, gen := (s.ctx e.x).gen }
        let s := s.appendCt e.c q
        (if phys then s else s.learn e.c e.x a).advanceCt e 4

/-- A store in both streams (R92). -/
def storeOp (i : Instr) (f : StForm) (size : Nat) (s : State) : Host.Outcome State Fault Refusal :=
  .next (issue i { regs := wideRegs f.t (max 1 (size / 4)) ++ baseRegs f.n, lat := codeLat f.t } s
    (fun e set s =>
      let va := stAddr f size e
      match s.checkVec e i set (fun l => s.accessTrap e.c e.x (va l) size permW false) (fun l => [(va l, size)]) false true with
      | some s => s
      | none =>
        let pa := fun l => s.residentAt e.c e.x (va l)
        match (s.appendLanes e set pa (fun s l a => stEntry f size s e l a) va).bind
            (fun s => s.advanceRaising e i (absentOf e set pa va (stParts f size))) with
        | none => s
        | some s => s)
    (fun e s => s.storeCt e f size))

/-- `st.w8`. -/
def execStW8 (f : StForm) (s : State) : Host.Outcome State Fault Refusal := storeOp (.stW8 f) f 1 s

/-- `st.w16`. -/
def execStW16 (f : StForm) (s : State) : Host.Outcome State Fault Refusal := storeOp (.stW16 f) f 2 s

/-- `st.w32`. -/
def execStW32 (f : StForm) (s : State) : Host.Outcome State Fault Refusal := storeOp (.stW32 f) f 4 s

/-- `st.w64`. -/
def execStW64 (f : StForm) (s : State) : Host.Outcome State Fault Refusal := storeOp (.stW64 f) f 8 s

/-- `st.w128`. -/
def execStW128 (f : StForm) (s : State) : Host.Outcome State Fault Refusal := storeOp (.stW128 f) f 16 s

/-! ### Scratchpad (R97, R98) -/

/-- Bytes of a width code. -/
def widthBytes (w : BitVec 2) : Nat := 4 * 2 ^ w.toNat

/-- The trap of a scratchpad address (R97). -/
def spTrap (a bytes : Nat) : Option Nat := if 0x80000 ≤ a then some trapADDR else if a % bytes ≠ 0 then some trapALIGN else none

/-- `ldsp`: words of the scratchpad into registers, the first to b3. -/
def execLdsp (a : BitVec 7) (width : BitVec 2) (d : BitVec 6) (s : State) : Host.Outcome State Fault Refusal :=
  let n := 2 ^ width.toNat
  .next (issue (.ldsp a width d) { regs := codeRegs a ++ span d.toNat n, lat := codeLat a, b3 := true } s
    (fun e set s =>
      let at_ := fun l => (e.operand .int l a).toNat
      match s.checkVec e (.ldsp a width d) set (fun l => spTrap (at_ l) (4 * n)) (fun _ => []) false false with
      | some s => s
      | none => s.result e set 3 4 fun l =>
          ((List.range n).map (fun j => (d.toNat + j, e.cr.scratch.word (at_ l + 4 * j))), e.cr.scratch.word (at_ l)))
    (fun e s =>
      let x := (e.operand a).lo.toNat
      match spTrap x (4 * n) with
      | some code => s.trapCt e.c code
      | none =>
        let dw := fun j => dword (e.cr.scratch.word (x + 8 * j)) (e.cr.scratch.word (x + 8 * j + 4))
        let v0 := if n = 1 then (e.cr.scratch.word x).setWidth 64 else dw 0
        let s := s.modCt e.c (·.setReg d.toNat v0)
        (if n = 4 then s.modCt e.c (·.setReg (d.toNat + 1) (dw 1)) else s).advanceCt e 4))

/-- The words a lane stores to the scratchpad. -/
def stspWords (e : Env) (l : Lane) (t : BitVec 7) (n : Nat) : List Word := Part.read e l (.code t n)

/-- The digest terms of a thread's store (R290): the virtual byte address, the size and the data, cut into words. -/
def digestTerm (a : Nat) (v : Word) (be : BitVec 4) (tid : Nat) (q : Word) : DWord :=
  let k : DWord := BitVec.ofNat 64 (a / 4 % 2 ^ 47 * 0x9E3779B97F4A7C15 + v.toNat * 0xC2B2AE3D27D4EB4F + tid * 2 ^ 40 + be.toNat * 2 ^ 36 + q.toNat)
  let k := (k ^^^ (k >>> 29)) * 0xBF58476D1CE4E5B9
  k ^^^ (k >>> 32)

/-- A store of a thread adds its terms to its workgroup's digest, and the thread's store sequence advances (R27, R290). -/
def State.addDigest (s : State) (c ws tid a size data : Nat) : State :=
  s.modWg c ws fun g =>
    let q := (g.thread tid).sseq
    let terms := if size < 4 then
        let p := partialWord a size data; [digestTerm a p.1 p.2 tid q]
      else ((wordsOf (size / 4) data).zipIdx).map (fun p => digestTerm (a + 4 * p.2) p.1 15 tid q)
    { (g.modThread tid fun t => { t with sseq := t.sseq + 1 }) with digest := terms.foldl (· + ·) g.digest }

/-- `stsp`: words into the scratchpad, applied when it issues. -/
def execStsp (data : BitVec 7) (a : BitVec 7) (width : BitVec 2) (s : State) : Host.Outcome State Fault Refusal :=
  let n := 2 ^ width.toNat
  .next (issue (.stsp data a width) { regs := wideRegs data n ++ codeRegs a, lat := codeLat data ++ codeLat a } s
    (fun e set s =>
      let at_ := fun l => (e.operand .int l a).toNat
      match s.checkVec e (.stsp data a width) set (fun l => spTrap (at_ l) (4 * n)) (fun _ => []) false false with
      | some s => s
      | none =>
        (set.foldl (fun s l =>
          let ws := stspWords e l data n
          (s.modCore e.c fun y => { y with scratch := y.scratch.writeBytes (at_ l) (leBytes (4 * n) (ofWords ws)) }).addDigest e.c e.ws l.tid
            (2 ^ 48 + at_ l) (4 * n) (ofWords ws)) s).advance e 4 false)
    (fun e s =>
      let x := (e.operand a).lo.toNat
      match spTrap x (4 * n) with
      | some code => s.trapCt e.c code
      | none =>
        let v := if n = 1 then (e.operand data).lo.toNat
          else (e.operand data).toNat + (if n = 4 && data.toNat ≤ 31 then 2 ^ 64 * (e.r.reg (data.toNat + 1)).toNat else 0)
        (s.modCore e.c fun y => { y with scratch := y.scratch.writeBytes x (leBytes (4 * n) v) }).advanceCt e 4))

/-! ### Atomics and reductions (R99-R102) -/

/-- The immediate type of an atomic operation's operand (R41, R101). -/
def atomTy (op : BitVec 4) : ImmTy := if op = 12 then .f32 else if op = 13 then .bf16 else .int

/-- The control thread's operand of an atomic: an immediate takes the operation's type (R41). -/
def CEnv.atomOperand (e : CEnv) (op : BitVec 4) (code : BitVec 7) : DWord :=
  if op.toNat < 12 then e.operand code
  else if code.toNat = 72 then ((atomTy op).value 1).setWidth 64
  else if 80 ≤ code.toNat then ((atomTy op).value ((code.toNat : Int) - 96)).setWidth 64
  else e.operand code

/-- The sources of an atomic: operand, base pair, and the old d of `.cas`. -/
def atomParts (b : BitVec 7) (n : BitVec 5) (op : BitVec 4) (w64 : Bool) (d : Nat) : List Part :=
  [.code b (if w64 then 2 else 1), .regs (2 * n.toNat) 2] ++ (if op = 9 then [.regs d (if w64 then 2 else 1)] else [])

/-- The operand v of an atomic for a lane. -/
def Env.atomV (e : Env) (l : Lane) (ps : List Part) (b : BitVec 7) (op : BitVec 4) : DWord :=
  if 12 ≤ op.toNat && (72 ≤ b.toNat) then (e.operand (atomTy op) l b).setWidth 64 else BitVec.ofNat 64 (e.sourceNat l ps 0)

/-- An atomic or reduction in both streams: its destination register, none for `red`. -/
def atomOp (i : Instr) (b : BitVec 7) (n : BitVec 5) (op : BitVec 4) (upd ordered w64 : Bool) (dest : Option Nat) (u : Uses) (s : State) :
    Host.Outcome State Fault Refusal :=
  let size := if w64 then 8 else 4
  let ps := atomParts b n op w64 (dest.getD 0)
  let word := (wordOf i).1
  let scope := if ordered && dest.isSome then 4 else 0
  .next (issue i u s
    (fun e set s =>
      let va := fun l => BitVec.ofNat 64 (e.sourceNat l ps 1)
      match s.checkVec e i set (fun l => s.accessTrap e.c e.x (va l) size (if dest.isSome then permRW else permW) true) (fun l => [(va l, size)]) true true with
      | some s => s
      | none =>
        let pa := fun l => s.residentAt e.c e.x (va l)
        let remote := fun l => s.remoteAt e.c e.x (va l) 0
        let id := s.fresh
        let mk := fun (s : State) (l : Lane) (a : Nat) => ({
          kind := .atomic op w64 upd ordered (e.atomV l ps b op) (BitVec.ofNat 64 (e.sourceNat l ps 2)) dest,
          who := e.who l, pc := e.pc, va := va l, pa := a, gen := (s.ctx e.x).gen, id := id.1 } : Entry)
        let add := fun (s : State) (l : Lane) =>
          match dest, pa l with
          | some d, some a =>
            let s := s.addLoad e.c { id := id.1, kind := .atomic, who := e.who l, pc := e.pc, word := word, va := va l, pa := a,
                                     size := size, signed := false, dest := some d, pred := 0, scope := scope, gen := (s.ctx e.x).gen,
                                     data := none, warp := some e.k, remote := remote l }
            if scope = 0 then s else s.modThread e.c e.ws l.tid fun t => { t with loadHold := t.loadHold + 1 }
          | _, _ => s
        match ((id.2.appendLanes e set pa mk va).map (fun s => set.foldl add s)).bind
            (fun t => t.advanceRaising e i (absentOf e set pa va ps) (set.filter (fun l => dest.isSome && remote l))) with
        | none => s
        | some s => s)
    (fun e s =>
      let a := e.base n
      match s.checkCt e (s.accessTrap e.c e.x a size (if dest.isSome then permRW else permW) true) [(a, size)] true true with
      | some s => s
      | none =>
        match s.residentAt e.c e.x a with
        | none => s.effectCt e.c effPAGEABSENT (pageArg a)
        | some pa =>
          if !e.cr.room ctQueue 1 then s
          else
            let id := s.fresh
            let remote := dest.isSome && s.remoteAt e.c e.x a 0
            let cut := fun (v : DWord) => if w64 then v else v.lo.setWidth 64
            let q : Entry := { kind := .atomic op w64 upd ordered (cut (e.atomOperand op b)) (cut (e.r.reg (dest.getD 0))) dest, who := e.who,
                               pc := e.r.pc, va := a, pa := pa, gen := (s.ctx e.x).gen }
            let s := (id.2.appendCt e.c q).learn e.c e.x a
            let s := match dest with
              | some d =>
                let s := s.addLoad e.c { id := id.1, kind := .atomic, who := e.who, pc := e.r.pc, word := word, va := a, pa := pa, size := size,
                                         signed := false, dest := some d, pred := 0, scope := scope, gen := (s.ctx e.x).gen, data := none,
                                         warp := some e.r.tag, remote := remote }
                if scope = 0 then s else s.modCore e.c fun y => { y with ct := { y.ct with loadHold := y.ct.loadHold + 1 } }
              | none => s
            (s.advanceCt e 4).parkRemoteCt e.c remote))

/-- `atom.w32`. -/
def execAtomW32 (f : AtomForm) (s : State) : Host.Outcome State Fault Refusal :=
  atomOp (.atomW32 f) f.b f.n f.o (f.u == 1) (f.r == 1) false (some f.d.toNat)
    { regs := codeRegs f.b ++ baseRegs f.n ++ [f.d.toNat], lat := codeLat f.b } s

/-- `atom.w64`. -/
def execAtomW64 (f : AtomForm) (s : State) : Host.Outcome State Fault Refusal :=
  atomOp (.atomW64 f) f.b f.n f.o (f.u == 1) (f.r == 1) true (some f.d.toNat)
    { regs := pairRegs f.b ++ baseRegs f.n ++ [f.d.toNat, f.d.toNat + 1], lat := codeLat f.b } s

/-- `red` and `red.w64`. -/
def execRed (f : RedForm) (s : State) : Host.Outcome State Fault Refusal :=
  atomOp (.red f) f.b f.n f.o (f.u == 1) (f.r == 1) (f.w == 1) none
    { regs := (if f.w = 1 then pairRegs f.b else codeRegs f.b) ++ baseRegs f.n, lat := codeLat f.b } s

end Sys2Proof.Machine
end

