-- ==== Sys2Proof/Machine/Mctl.lean ====
section
/-! DEFINITION. The mctl group (R103-R108): fences, steals, page requests, prefetches and span operations. -/

namespace Sys2Proof.Machine

/-- The home warps of an issue set have room for one entry of each of its threads (R25). -/
def Core.roomFor (y : Core) (set : List Lane) : Bool := set.all (fun l => y.room l.hw (set.filter (fun m => m.hw = l.hw)).length)

/-- A thread's later loads wait for one more acquire (R397). -/
def State.holdLoads (s : State) (who : Who) : State :=
  match who with
  | .lane c _ _ ws tid => s.modThread c ws tid fun t => { t with loadHold := t.loadHold + 1 }
  | .ct c _ => s.modCore c fun y => { y with ct := { y.ct with loadHold := y.ct.loadHold + 1 } }
  | .device => s

/-- An entry that names no memory of its own. -/
def plainEntry (k : EntryKind) (who : Who) (pc va : DWord) (pa : Nat) (gen : BitVec 16) : Entry :=
  { kind := k, who := who, pc := pc, va := va, pa := pa, gen := gen }

/-- The fence of a thread enters its queue, and its later loads wait (R104, R397). -/
def State.startFence (s : State) (c x q scope : Nat) (who : Who) (pc : DWord) : State :=
  (s.append c q (plainEntry (.fence scope) who pc 0 0 (s.ctx x).gen)).holdLoads who

/-- `fence`. -/
def execFence (sc : BitVec 3) (g : BitVec 3) (s : State) : Host.Outcome State Fault Refusal :=
  .next (issue (.fence sc g) { g := g } s
    (fun e set s =>
      if !e.cr.roomFor set then s
      else (set.foldl (fun s l => s.startFence e.c e.x l.hw sc.toNat (e.who l) e.pc) s).advance e 4 false)
    (fun e s =>
      if !e.cr.room ctQueue 1 then s else (s.startFence e.c e.x ctQueue sc.toNat e.who e.r.pc).advanceCt e 4))

/-- The physical core at which the remap table places a logical core (R166). DESIGN CHOICE (assumption 72): one without an entry is placed at the core of
its own number. -/
def State.placedAt (s : State) (x l : Nat) : Nat := SMap.get l l (s.ctx x).remap

/-- A logical core is current on the physical core that the remap table names. -/
def State.isResident (s : State) (x l : Nat) : Bool :=
  (s.core (s.placedAt x l)).owner = some x && (s.core (s.placedAt x l)).lcore = some l

/-- The scope at which a promotion acts: package where the victim lies outside the issuer's instance (R105). -/
def stealScope (sc c p : Nat) : Nat :=
  if (sc = 2 && quadOf c ≠ quadOf p) || (sc = 3 && dieOf c ≠ dieOf p) then 4 else sc

/-- The promotion of one thread (R105). -/
def State.startSteal (s : State) (c x q sc victim : Nat) (who : Who) (pc : DWord) (own : Option Nat) : State :=
  if own = some victim then s.startFence c x q sc who pc
  else
    let p := s.placedAt x victim
    let scope := stealScope sc c p
    if !s.isResident x victim then s.acquire c x scope
    else
      let m : Msg := { who := who, ctx := x, gen := (s.ctx x).gen, va := pc, pa := 0, req := .steal p scope none, hw := q, since := s.tick }
      State.holdLoads { s with net := s.net ++ [m] } who

/-- `acq.steal`. -/
def execAcqSteal (sc : BitVec 3) (a : BitVec 7) (g : BitVec 3) (s : State) : Host.Outcome State Fault Refusal :=
  .next (issue (.acqSteal sc a g) { g := g, regs := codeRegs a, lat := codeLat a } s
    (fun e set s =>
      let v := fun l => (e.operand .int l a).toNat
      match s.checkVec e (.acqSteal sc a g) set (fun l => if (s.ctx e.x).grid ≤ v l then some trapADDR else none) (fun _ => []) false false with
      | some s => s
      | none =>
        if !e.cr.roomFor (set.filter (fun l => e.cr.lcore == some (v l))) then s
        else (set.foldl (fun s l => s.startSteal e.c e.x l.hw sc.toNat (v l) (e.who l) e.pc e.cr.lcore) s).advance e 4 false)
    (fun e s =>
      let v := (e.operand a).toNat
      if (s.ctx e.x).grid ≤ v then s.trapCt e.c trapADDR
      else if !e.cr.room ctQueue 1 then s
      else (s.startSteal e.c e.x ctQueue sc.toNat v e.who e.r.pc e.cr.lcore).advanceCt e 4))

/-- The trap of a page request's addresses (R106): the page's, then the completion word's, whose page must allow writing (DESIGN CHOICE,
assumption 54: R311 names no permission for it). -/
def State.pgreqTrap (s : State) (c x : Nat) (a d : DWord) : Option Nat :=
  if !canonical a then some trapADDR else s.accessTrap c x d 4 permW false

/-- `pgreq`. -/
def execPgreq (k : BitVec 7) (j : BitVec 6) (g : BitVec 3) (s : State) : Host.Outcome State Fault Refusal :=
  let ps : List Part := [.regs k.toNat 2, .regs j.toNat 2]
  .next (issue (.pgreq k j g) { g := g, regs := span k.toNat 2 ++ span j.toNat 2 } s
    (fun e set s =>
      let a := fun l => BitVec.ofNat 64 (e.sourceNat l ps 0)
      let d := fun l => BitVec.ofNat 64 (e.sourceNat l ps 1)
      match s.checkVec e (.pgreq k j g) set (fun l => s.pgreqTrap e.c e.x (a l) (d l)) (fun l => [(d l, 4)]) true false with
      | some s => s
      | none =>
        let pa := fun l => s.residentAt e.c e.x (d l)
        let mk := fun (s : State) (l : Lane) (w : Nat) => plainEntry (.pgreq (d l)) (e.who l) e.pc (a l) w (s.ctx e.x).gen
        match (s.appendLanes e set pa mk d).bind (fun s => s.advanceRaising e (.pgreq k j g) (absentOf e set pa d ps)) with
        | none => s
        | some s => s)
    (fun e s =>
      let a := e.r.reg k.toNat
      let d := e.r.reg j.toNat
      match s.checkCt e (s.pgreqTrap e.c e.x a d) [(d, 4)] true false with
      | some s => s
      | none =>
        match s.residentAt e.c e.x d with
        | none => s.effectCt e.c effPAGEABSENT (pageArg d)
        | some w =>
          if !e.cr.room ctQueue 1 then s
          else (s.appendCt e.c (plainEntry (.pgreq d) e.who e.r.pc a w (s.ctx e.x).gen)).advanceCt e 4))

/-- A prefetch of one address (R107): into L1, L2 or the LLC. Anything that stops it does nothing. -/
def State.prefetchAt (s : State) (c x level : Nat) (a : DWord) : State :=
  if !canonical a then s else
  let a : DWord := a &&& ~~~127
  match s.xlate c x a with
  | none => s
  | some t =>
    if !t.grants permR || !s.ownsFrame x t.pa || isWindowPa t.pa || s.homeDown t.pa || s.activeLine t.pa then s
    else
      let pa := t.pa / 128 * 128
      let s := s.learn c x a
      if level = 2 then (wordsAt pa 128).foldl State.fillLlc s
      else match s.readHomeFill c x (s.ctx x).gen a pa 128 with
        | .words _ s' => if level = 0 then s' else s'.modCore c fun y => { y with l1 := (s.core c).l1 }
        | .poisoned _ s' => s'
        | .down => s

/-- `prefetch`. -/
def execPrefetch (lvl : BitVec 3) (k : BitVec 7) (g : BitVec 3) (s : State) : Host.Outcome State Fault Refusal :=
  .next (issue (.prefetch lvl k g) { g := g, regs := span k.toNat 2 } s
    (fun e set s => (set.foldl (fun s l => s.prefetchAt e.c e.x lvl.toNat (e.regPair l k.toNat)) s).advance e 4 false)
    (fun e s => (s.prefetchAt e.c e.x lvl.toNat (e.r.reg k.toNat)).advanceCt e 4))

/-- The trap of a span (R108). One that is misaligned and crosses a page traps ALIGN, the order in which R108 lists them (DESIGN CHOICE,
assumption 55). -/
def spanTrap (a : DWord) (len : Nat) : Option Nat :=
  if !canonical a then some trapADDR
  else if a.toNat % 4 ≠ 0 || len % 4 ≠ 0 then some trapALIGN
  else if 65536 < a.toNat % 65536 + len then some trapADDR
  else none

/-- A span operation in both streams: it enters the queue; an `invspan` also holds the thread's later loads. A span of
length 0, or on an absent page, does nothing (R108). -/
def spanOp (i : Instr) (k : BitVec 7) (d : BitVec 6) (g : BitVec 3) (mem inv : Bool) (s : State) : Host.Outcome State Fault Refusal :=
  .next (issue i { g := g, regs := span k.toNat 2 ++ [d.toNat] } s
    (fun e set s =>
      let a := fun l => e.regPair l k.toNat
      let n := fun l => (e.reg l d.toNat).toNat
      match s.checkVec e i set (fun l => spanTrap (a l) (n l)) (fun l => [(a l, n l)]) false true with
      | some s => s
      | none =>
        let live := set.filter (fun l => decide (n l ≠ 0) && (s.residentAt e.c e.x (a l)).isSome)
        if !e.cr.roomFor live then s
        else (live.foldl (fun s l =>
          let s := s.append e.c l.hw (plainEntry (.span (n l) mem inv) (e.who l) e.pc (a l) ((s.residentAt e.c e.x (a l)).getD 0) (s.ctx e.x).gen)
          if inv then s.holdLoads (e.who l) else s) s).advance e 4 false)
    (fun e s =>
      let a := e.r.reg k.toNat
      let n := (e.r.reg d.toNat).toNat
      match s.checkCt e (spanTrap a n) [(a, n)] false true with
      | some s => s
      | none =>
        match s.residentAt e.c e.x a with
        | none => s.advanceCt e 4
        | some pa =>
          if n = 0 then s.advanceCt e 4
          else if !e.cr.room ctQueue 1 then s
          else
            let s := s.appendCt e.c (plainEntry (.span n mem inv) e.who e.r.pc a pa (s.ctx e.x).gen)
            (if inv then s.holdLoads e.who else s).advanceCt e 4))

/-- `wbspan`. -/
def execWbspan (mode : BitVec 3) (k : BitVec 7) (d : BitVec 6) (g : BitVec 3) (s : State) : Host.Outcome State Fault Refusal :=
  spanOp (.wbspan mode k d g) k d g (mode == 1#3) false s

/-- `invspan`. -/
def execInvspan (k : BitVec 7) (d : BitVec 6) (g : BitVec 3) (s : State) : Host.Outcome State Fault Refusal :=
  spanOp (.invspan k d g) k d g false true s

end Sys2Proof.Machine
end

