-- ==== Sys2Proof/Machine/Park.lean ====
section
/-! DEFINITION. Blocking points (R171): parking the threads of an instruction, waking them, and the posting of engine
commands (R109). -/

namespace Sys2Proof.Machine

/-- The threads of an issue set park at the instruction, those of `keep` stay there to issue it again, and the others go on; the run ends
(R23, R171). -/
def State.parkSet (s : State) (e : Env) (set : List Lane) (len : Nat) (p : Lane → Park) (keep : List Lane := []) : State :=
  let s := s.eachThread e.c e.ws e.lanes fun l t =>
    if set.contains l then { t with park := p l, reached := true } else if keep.contains l then t else { t with pc := pc48 (e.pc + BitVec.ofNat 64 len), watched := false, capture := none }
  s.endIssue e true

/-- Some threads have reached a blocking point, where they need not wait (R172, R359). -/
def State.reach (s : State) (e : Env) (set : List Lane) : State := s.eachThread e.c e.ws set fun _ t => { t with reached := true }

/-- The control thread parks at its instruction (R180, R209). -/
def State.parkCt (s : State) (c : Nat) (p : Park) : State := s.modCt c fun r => { r with park := p, begun := true }

/-- A command that a `cwait` of a core waits on has completed, or has left its queue: threads that wait on no other are
woken (R121), and a `qinit` that waits for commands tries again (R214). `keep` names barriers whose waiters still wait for it. -/
def State.commandGone (s : State) (c id : Nat) (keep : Nat → Bool := fun _ => false) : State :=
  let drop := fun (p : Park) => match p with
    | .cwait b l => if keep b then p else Park.cwait b (l.filter (· ≠ id))
    | p => p
  let s := s.modCore c fun y => { y with
    wgs := y.wgs.map (fun kv => (kv.1, kv.2.map (fun g => { g with threads := g.threads.map (fun t => (t.1, { t.2 with park := drop t.2.park })) }))),
    ct := { y.ct with cur := { y.ct.cur with park := drop y.ct.cur.park } } }
  (s.wakeWhere c (fun p => match p with
    | .cwait _ [] => true
    | _ => false) true).wakeWhere c (· == .qinit) false

/-- An entry leaves its store queue, from its place in it: promotions that wait for it count one less (R105), and so do the guard
slots whose engines wait for the control thread's earlier entries (R212). -/
def State.dropAt (s : State) (c hw n : Nat) : State :=
  let less1 := fun (k : Nat) => if n < k then k - 1 else k
  let s := s.modCore c fun y =>
    let y := y.setQueue hw ((y.queue hw).eraseIdx n)
    if hw = ctQueue then { y with guardWait := (y.guardWait.map (fun kv => (kv.1, less1 kv.2))).filter (fun kv => kv.2 ≠ 0) } else y
  let less := fun (l : List (Nat × Nat)) => (l.map (fun p => if p.1 = hw then (p.1, less1 p.2) else p)).filter (fun p => p.2 ≠ 0)
  let step := fun (m : Msg) => match m.req with
    | .steal v sc (some l) => if v = c then { m with req := .steal v sc (some (less l)) } else m
    | _ => m
  { s with net := s.net.map step }

/-- The head of a store queue leaves it. -/
def State.dropHead (s : State) (c hw : Nat) : State := s.dropAt c hw 0

/-! ### Engine commands (R109) -/

/-- What a command's instruction gives it. -/
structure Post where
  op      : CmdOp
  tidA    : Nat := 0
  tidB    : Nat := 0
  bar     : Nat := 0
  toQueue : Bool := false
  tile    : Nat := 0
  ms      : Nat := 0
  deriving DecidableEq, Repr, Inhabited

/-- A posted command. -/
def Post.command (p : Post) (id : Nat) (who : Who) (c x : Nat) (gen : BitVec 16) (launch : Nat) (slots : List Word) (guard : Option Nat)
    (prio : Nat) (tick : DWord) : Command :=
  { id := id, op := p.op, who := who, core := c, ctx := x, gen := gen, launch := launch, tidA := p.tidA, tidB := p.tidB, bar := p.bar,
    toQueue := p.toQueue, tile := p.tile, ms := p.ms, slots := slots, guard := guard, phase := .posted, descs := [], dyn := [], slot := none,
    prio := prio, since := tick, formed := false, step := 0 }

/-- The argument slots v56-v63 of a lane (R110). -/
def Core.argSlots (y : Core) (hw lane : Nat) : List Word := (span 56 8).map (fun k => y.reg hw k lane)

/-- The argument slots s24-s31 of the control thread: low words. -/
def CtRegs.argSlots (r : CtRegs) : List Word := (span 24 8).map (fun k => (r.reg k).lo)

/-- The registers of the argument slots (R110): v56-v63, or s24-s31 of a control thread. -/
def argRegs (t : Option Turn) : List Nat :=
  match t with
  | some (.ct _) => span 24 8
  | _ => span 56 8

/-- An engine command: posted once per formed warp by its elected thread, or by the control thread, through the poster's
store queue (R109). DESIGN CHOICE (assumption 56): its eight slots are taken when it issues, not when the engine accepts it (R110). -/
def postOp (i : Instr) (g : BitVec 3) (p : Post) (s : State) : Host.Outcome State Fault Refusal :=
  .next (issue i { g := g, regs := argRegs s.issuer } s
    (fun e set s =>
      match set with
      | [] => s.advance e 4 false
      | l :: _ =>
        if !e.cr.room l.hw 1 then s
        else
          let id := s.fresh
          let cmd := p.command id.1 (e.who l) e.c e.x (s.ctx e.x).gen e.g.launch (e.cr.argSlots l.hw l.lane) none e.g.prio s.tick
          let q : Entry := { kind := .command cmd, who := e.who l, pc := e.pc, va := 0, pa := 0, gen := (s.ctx e.x).gen }
          (id.2.append e.c l.hw q).advance e 4 false)
    (fun e s =>
      if !e.cr.room ctQueue 1 then s
      else
        let id := s.fresh
        let n := e.r.run.launch?.getD 0
        let prio := ((s.launch e.x n).map (·.prio)).getD 0
        let cmd := p.command id.1 e.who e.c e.x (s.ctx e.x).gen n e.r.argSlots e.r.grd prio s.tick
        let q : Entry := { kind := .command cmd, who := e.who, pc := e.r.pc, va := 0, pa := 0, gen := (s.ctx e.x).gen }
        (id.2.appendCt e.c q).advanceCt e 4))

/-- The commands of a store queue. -/
def queueCommands (q : List Entry) : List Command := q.filterMap (fun e => match e.kind with
  | .command cmd => some cmd
  | _ => none)

/-- The commands of a core that its engines hold: posted and not completed. -/
def State.engineCommands (s : State) (c : Nat) : List Command :=
  let mine := fun (l : List Command) => l.filter (fun d => d.core = c)
  let far := fun (l : List Command) => l.filter (fun d => d.core = c && (s.core c).owner == some d.ctx)
  mine (s.core c).copyQ ++ mine (s.core c).matQ ++ mine (s.core c).holdQ ++ mine (s.quad (quadOf c)).table ++
    s.hbm.flatMap (fun kv => far kv.2.ade) ++ s.seqs.flatMap (fun kv => far kv.2.queue) ++ s.colls.flatMap (fun k => far (k.parts.map (·.2)))

/-! ### Copy commands (R112) -/

/-- `cp` and `cp.tr`. -/
def execCp (f : CopyForm) (s : State) : Host.Outcome State Fault Refusal :=
  postOp (.cp f) 0 { op := .cp (f.k == 1#5), tidA := f.d.toNat, tidB := f.s.toNat, bar := f.i.toNat, toQueue := f.q == 1#1 } s

/-- `cpg.i16` and `cpg.i32`. -/
def execCpg (f : CopyForm) (s : State) : Host.Outcome State Fault Refusal :=
  postOp (.cpg f) 0 { op := .cpg (f.k == 1#5), tidA := f.d.toNat, tidB := f.s.toNat, bar := f.i.toNat, toQueue := f.q == 1#1 } s

/-- `cpm`. -/
def execCpm (d : BitVec 7) (sc : BitVec 7) (i : BitVec 4) (s : State) : Host.Outcome State Fault Refusal :=
  postOp (.cpm d sc i) 0 { op := .cpm, tidA := d.toNat, tidB := sc.toNat, bar := i.toNat } s

end Sys2Proof.Machine
end

