-- ==== Sys2Proof/Machine/Deliver.lean ====
section
/-! DEFINITION. Reaching a thread from outside its formed warp: the requests in flight, results delivered to registers
wherever the thread's workgroup is kept, and the end of a thread's wait (R171, R190, R333). -/

namespace Sys2Proof.Machine

/-! ### Requests in flight -/

/-- Send a request or a reply. -/
def State.send (s : State) (m : Msg) : State := { s with net := s.net ++ [m] }

/-- The n-th request without the others. -/
def State.dropMsg (s : State) (n : Nat) : State := { s with net := s.net.eraseIdx n }

/-- Change the n-th request. -/
def State.setMsg (s : State) (n : Nat) (m : Msg) : State := { s with net := s.net.set n m }

/-- Answer the n-th request. -/
def State.answer (s : State) (n : Nat) (m : Msg) (r : Reply) : State := s.setMsg n { m with reply := some r, since := s.tick }

/-- The logical core of an issuer. -/
def Who.lcore : Who → Nat
  | .lane _ lc _ _ _ => lc
  | .ct _ lc => lc
  | .device => 0

/-- The physical core of an issuer. -/
def Who.core : Who → Nat
  | .lane c _ _ _ _ => c
  | .ct c _ => c
  | .device => 0

/-- The queue of an issuer. -/
def Who.hw : Who → Nat
  | .lane _ _ hw _ _ => hw
  | _ => ctQueue

/-- The home lane of an issuer. -/
def Who.home : Who → Nat
  | .lane _ _ _ _ tid => tid % 32
  | _ => 0

/-! ### Lane threads, wherever they are kept -/

/-- A workgroup slot of a logical core, current on a core or switched out of it. -/
def State.findWg (s : State) (c lc ws : Nat) : Option Workgroup :=
  if (s.core c).lcore = some lc then (s.core c).wg ws
  else (SMap.get none lc (s.core c).saved).bind (fun v => SMap.get none ws v.wgs)

/-- Put a workgroup where it is kept. -/
def State.putWg (s : State) (c lc ws : Nat) (g : Workgroup) : State :=
  if (s.core c).lcore = some lc then s.modCore c (·.setWg ws (some g))
  else s.modCore c fun y => match SMap.get none lc y.saved with
    | some v => { y with saved := SMap.set none lc (some { v with wgs := SMap.set none ws (some g) v.wgs }) y.saved }
    | none => y

/-- The address of a thread's record in its logical core's save area (R328). -/
def State.recordAt (s : State) (x lc hw tid : Nat) : Nat := s.saveArea x lc + saveThread hw (tid % 32)

/-- Change a thread. One whose workgroup is not resident lies in the save area, where its record is changed (R190,
R333); a save area that breaks R326 removes the context. -/
def State.changeThread (s : State) (who : Who) (f : Thread → Thread) : State :=
  match who with
  | .lane c lc hw ws tid =>
    match s.findWg c lc ws with
    | none => s
    | some g =>
      if g.state = .resident && (s.core c).lcore == some lc then s.putWg c lc ws (g.modThread tid f)
      else if !s.saveAreaOk g.ctx (s.saveArea g.ctx lc) then s.beginRemoval g.ctx trapENGINEFATAL
      else
        let a := s.recordAt g.ctx lc hw tid
        let code := (s.homeWord (a + 0x24)).toNat % 256
        let t := f (s.threadAt a (g.thread tid))
        (s.putWg c lc ws (g.modThread tid fun _ => t)).pokeWords a (t.record (code == 11 && t.park != .none) (code == 9) (s.wakeData t) (s.homeDword (a + 0x30)))
  | _ => s

/-- A thread as it stands, wherever it is kept. -/
def State.seeThread (s : State) (who : Who) : Thread :=
  match who with
  | .lane c lc hw ws tid =>
    match s.findWg c lc ws with
    | none => {}
    | some g =>
      if g.state = .resident && (s.core c).lcore == some lc then g.thread tid
      else s.threadAt (s.recordAt g.ctx lc hw tid) (g.thread tid)
  | _ => {}

/-- A thread's workgroup is resident on its core. -/
def State.isHere (s : State) (who : Who) : Bool :=
  match who with
  | .lane c lc _ ws _ => (s.core c).lcore == some lc && (match (s.core c).wg ws with
    | some g => g.state == .resident
    | none => false)
  | .ct c lc => (s.core c).lcore == some lc
  | .device => false

/-- Write a register of a lane thread, in the register file or in the saved register image (R333). -/
def State.writeReg (s : State) (who : Who) (k : Nat) (v : Word) : State :=
  match who with
  | .lane c lc hw ws tid =>
    match s.findWg c lc ws with
    | none => s
    | some g =>
      if s.isHere who then s.modCore c (·.setReg hw k (tid % 32) v)
      else if !s.saveAreaOk g.ctx (s.saveArea g.ctx lc) then s.beginRemoval g.ctx trapENGINEFATAL
      else s.pokeWords (s.saveArea g.ctx lc + saveRegs + 4 * regKey hw k (tid % 32)) [v]
  | _ => s

/-- A register of a lane thread, from the register file or the saved register image. -/
def State.readReg (s : State) (who : Who) (k : Nat) : Word :=
  match who with
  | .lane c lc hw ws tid =>
    match s.findWg c lc ws with
    | none => 0
    | some g => if s.isHere who then (s.core c).reg hw k (tid % 32) else s.homeWord (s.saveArea g.ctx lc + saveRegs + 4 * regKey hw k (tid % 32))
  | _ => 0

/-- Write registers from one on. -/
def State.writeRegs (s : State) (who : Who) (k : Nat) : List Word → State
  | [] => s
  | v :: vs => State.writeRegs (s.writeReg who k v) who (k + 1) vs

/-- The end of a thread's wait: it changes, leaves its blocking point, and returns to the frontier; in a workgroup that
is not resident it is marked woken, and the workgroup becomes runnable (R171, R190). -/
def State.endWait (s : State) (who : Who) (f : Thread → Thread) : State :=
  match who with
  | .lane c lc _ ws tid =>
    if s.isHere who then (s.modThread c ws tid fun t => { (f t) with park := .none, woken := false }).toFrontier c ws tid
    else
      let s := s.changeThread who fun t => { (f t) with park := .none, woken := true }
      match s.findWg c lc ws with
      | some g => s.putWg c lc ws { g with state := if g.state = .evictedWaiting then .evictedRunnable else g.state }
      | none => s
  | _ => s

/-- The words that a load writes: sign-extended where it says so; zeros where none came (R91). -/
def Load.words (p : Load) : List Word :=
  match p.data with
  | some (some v) =>
    let w := wordsOf (max 1 ((p.size + 3) / 4)) (v.toNat % 2 ^ (8 * p.size))
    if p.signed && decide (p.size < 4) then [sextLow (w.getD 0 0) (8 * p.size)] else w
  | _ => List.replicate (max 1 ((p.size + 3) / 4)) 0

/-- The data of a load is known, and which of its words was poisoned. -/
def State.loadData (s : State) (c id : Nat) (who : Who) (v : Option (BitVec 128)) (poison : Option Nat := none) : State :=
  s.modCore c fun y => { y with loads := y.loads.map (fun p =>
    if p.id = id && p.who == who && p.data.isNone then { p with data := some v, poison := poison } else p) }

/-- The thread goes on after the instruction it was held at. -/
def Thread.past (t : Thread) (len : Nat) : Thread := { t with pc := pc48 (t.pc + BitVec.ofNat 64 len), watched := false, capture := none, effect := none }

/-- A thread held at an instruction performs an effect there on its reply, with the words captured for it (R200, R133);
away from its core it performs once restored. None while a store queue has no room. -/
def State.raiseHeld (s : State) (who : Who) (id : Nat) (arg : Word) (i : Instr) : Option State :=
  match who with
  | .lane c _ hw ws tid =>
    if s.isHere who then
      let t := s.thread c ws tid
      let s := s.modThread c ws tid fun t => { t with park := .none }
      s.performAlone c ws { lane := tid % 32, tid := tid, hw := hw } id arg t.pc i (.hardware ((t.capture.map (·.words)).getD []))
    else some (s.endWait who fun t => { t with effect := some { id := id, arg := arg, at_ := true } })
  | _ => some s

/-! ### Control threads -/

/-- The control thread of a logical core that a test picks: it stands on the core where that logical core is current, or where its saved
state has none that the test picks, since a supervisor routine runs on between `cxsave` and `cxload` (R336). -/
def State.ctHere (s : State) (c lc : Nat) (own : Ct → Bool) : Bool :=
  (s.core c).lcore == some lc || (match SMap.get none lc (s.core c).saved with
    | some v => !own v.ct
    | none => true)

/-- A control thread stands at a blocking point. -/
def Ct.isParked (t : Ct) : Bool := t.cur.park != .none

/-- The control thread of a logical core that a test picks, current or switched out. -/
def State.findCt (s : State) (c lc : Nat) (own : Ct → Bool := Ct.isParked) : Ct :=
  if s.ctHere c lc own then (s.core c).ct else ((SMap.get none lc (s.core c).saved).map (·.ct)).getD {}

/-- Change the control thread of a logical core, where `findCt` finds it. -/
def State.modCtOf (s : State) (c lc : Nat) (f : Ct → Ct) (own : Ct → Bool := Ct.isParked) : State :=
  if s.ctHere c lc own then s.modCore c fun y => { y with ct := f y.ct }
  else s.modCore c fun y => match SMap.get none lc y.saved with
    | some v => { y with saved := SMap.set none lc (some { v with ct := f v.ct }) y.saved }
    | none => y

/-- The runs of a control thread: what runs, is interrupted, or has trapped (R324). -/
def Ct.allRuns (t : Ct) : List CtRegs := t.cur :: (t.saved ++ t.trapped)

/-- A control thread has a run. -/
def Ct.hasRun (tag : Nat) (t : Ct) : Bool := t.allRuns.any (fun r => r.tag == tag)

/-- Change the registers of one run of a control thread, running or interrupted (R324). -/
def Ct.modRun (t : Ct) (tag : Nat) (f : CtRegs → CtRegs) : Ct :=
  let g := fun (r : CtRegs) => if r.tag = tag then f r else r
  { t with cur := g t.cur, saved := t.saved.map g, trapped := t.trapped.map g }

/-- A control thread has an effect to take before the next instruction of one of its runs, which leaves its wait (R396). -/
def Ct.raise (t : Ct) (tag : Nat) (id : Nat) (arg : Word) : Ct := t.modRun tag fun r => { r with effect := some (id, arg), park := .none }

/-- The parties of a switched-out logical core whose park a test picks leave their blocking points: the threads are woken in the save area, and
the instruction that the control thread is parked at is over (R190, R327). -/
def State.wakeSaved (s : State) (c lc : Nat) (p : Park → Bool) : State :=
  match SMap.get none lc (s.core c).saved with
  | none => s
  | some v =>
    let ls := v.wgs.flatMap (fun kv => match kv.2 with
      | some g => (g.threads.filter (fun t => t.2.live && p t.2.park)).map (fun t => Who.lane c lc (g.hw + t.1 / 32) kv.1 t.1)
      | none => [])
    let s := ls.foldl (fun s w => s.endWait w fun t => { t with capture := some { pc := t.pc, words := [] } }) s
    if p v.ct.cur.park then s.modCtOf c lc (fun t => { t with cur := { t.cur with park := .none, waited := true } }) else s

/-- Lower a thread's count of acquires its later loads wait for (R397). -/
def State.lowerHold (s : State) (who : Who) : State :=
  match who with
  | .ct c lc => s.modCtOf c lc (fun t => { t with loadHold := t.loadHold - 1 }) (fun t => decide (0 < t.loadHold))
  | .lane _ _ _ _ _ => s.changeThread who fun t => { t with loadHold := t.loadHold - 1 }
  | .device => s

end Sys2Proof.Machine
end

