-- ==== Sys2Proof/Machine/Bags.lean ====
section
/-! DEFINITION. Bags (R124-R145): the header, placement, what a Staithe and its Lengthsman do with each request, and the
instructions `bput`, the bq group and the wq group. -/

namespace Sys2Proof.Machine

/-! ### Shape (R124-R127) -/

/-- Shares of a bag. -/
def Bag.shareCount (b : Bag) : Nat := 2 ^ b.logb

/-- Record bytes of a size class (R124). -/
def recBytes (size : Nat) : Nat := 8 * 2 ^ size

/-- Bytes of a share's range (R127). -/
def Bag.stride (b : Bag) : Nat := ceilDiv (b.limit * recBytes b.size) 65536 * 65536

/-- Live records of a share. -/
def Bag.countOf (b : Bag) (k : Nat) : Nat := SMap.get 0 k b.counts

/-- A share's tags and open rows. -/
def Bag.share (b : Bag) (k : Nat) : Share := SMap.get {} k b.shares

/-- The virtual address of a slot (R127). -/
def Bag.slotAddr (b : Bag) (k j : Nat) : DWord := b.area + BitVec.ofNat 64 (k * b.stride + j * recBytes b.size)

/-- The physical address of a slot: the page it lies in, and its place there. -/
def Bag.slotPa (b : Bag) (k j : Nat) : Nat :=
  let off := k * b.stride + j * recBytes b.size
  b.sharePas.getD (off / 65536) 0 + off % 65536

/-- Registered workers. -/
def Bag.members (b : Bag) : Nat := (b.workers.filter (·.member)).length

/-- Registered workers that are parked. -/
def Bag.waiting (b : Bag) : Nat := (b.workers.filter (fun w => w.member && w.parked.isSome)).length

/-- A word of the header (R125); words not listed read as zero. -/
def Bag.headerWord (b : Bag) (o : Nat) : Word :=
  if o = 0 then BitVec.ofNat 32 b.total
  else if o = 4 then BitVec.ofNat 32 ((if b.quiescent then 4 else 0) + (if b.work then 2 else 0) + (if b.sealed then 1 else 0))
  else if o = 8 then BitVec.ofNat 32 (b.cap * 65536 + b.limit)
  else if o = 0xC then BitVec.ofNat 32 (b.logb * 2 ^ 28 + b.thresh * 2 ^ 24 + b.size * 2 ^ 21)
  else if o = 0x10 then BitVec.ofNat 32 b.members
  else if o = 0x14 then BitVec.ofNat 32 b.waiting
  else if o = 0x18 then BitVec.ofNat 32 b.claimed
  else if 0x40 ≤ o && o < 0x40 + 4 * b.shareCount then BitVec.ofNat 32 (b.countOf ((o - 0x40) / 4))
  else 0

/-- The offsets of header words that an update may change. -/
def Bag.touched (b b' : Bag) : List Nat :=
  [0, 4, 8, 0x10, 0x14, 0x18] ++ ((b.counts.map (·.1) ++ b'.counts.map (·.1)).eraseDups.map (fun k => 0x40 + 4 * k))

/-- A live bag of a context by its header address. -/
def State.bagAt (s : State) (x : Nat) (h : DWord) : Option Bag := s.bags.find? (fun b => b.ctx = x && b.header == h && !b.freed)

/-- An address of the stack below a core's die, whose Staithe answers a request that names no bag. -/
def ownHome (c : Nat) : Nat := dieOf c * stackBytes

/-- The physical address of a header that a slot binds, freed or not; for no header, and one on an absent page, an address below the asking core. -/
def State.bagHome (s : State) (c x : Nat) (h : DWord) : Nat :=
  if h = 0 then ownHome c
  else match s.bags.find? (fun b => b.ctx = x && b.header == h) with
    | some b => b.headerPa
    | none => ((s.walk x h).map (·.pa)).getD (ownHome c)

/-- Replace a bag in the list. -/
def replaceBag (b : Bag) (l : List Bag) : List Bag :=
  l.map (fun c => if c.ctx = b.ctx && c.header == b.header && !c.freed then b else c)

/-- An update by a Staithe: the bag changes, and each header word that changed is written at the header's home (R126). -/
def State.updateBag (s : State) (b b' : Bag) : State :=
  let s := { s with bags := replaceBag b' s.bags }
  (b.touched b').foldl (fun s o => if b.headerWord o = b'.headerWord o then s else s.storeHome (b.headerPa + o) (b'.headerWord o)) s

/-! ### Placement (R128, R129) -/

/-- The share that a key selects first (R128). -/
def Bag.firstShare (b : Bag) (key : Word) : Nat := if b.logb = 0 then 0 else ((key * 0x9E3779B1) >>> (32 - b.logb)).toNat

/-- The least count over the shares. -/
def Bag.minLoad (b : Bag) : Nat := (List.range b.shareCount).foldl (fun m k => min m (b.countOf k)) (b.countOf 0)

/-- A share has room. -/
def Bag.room (b : Bag) (k : Nat) : Bool := decide (b.countOf k < b.cap)

/-- The least-loaded share with room, ties to the lowest index. -/
def Bag.leastLoaded (b : Bag) : Option Nat :=
  (List.range b.shareCount).foldl (fun acc k => if b.room k then (match acc with
    | none => some k
    | some m => if b.countOf k < b.countOf m then some k else some m) else acc) none

/-- The share of a put; none where the reply is FULL (R128, R129). -/
def Bag.chooseShare (b : Bag) (key : Word) : Option Nat :=
  if b.work then let k := key.toNat % b.shareCount; if b.room k then some k else none
  else
    let c := b.firstShare key
    if b.room c && decide (b.countOf c ≤ b.minLoad + b.thresh) then some c else b.leastLoaded

/-- The lowest free slot of a range of a share. -/
def Share.freeIn (h : Share) (lo hi : Nat) : Option Nat := (span lo (hi - lo)).find? (fun j => (SMap.get none j h.slots).isNone)

/-- The slot of a put in its share and the open-row table after it (R128). -/
def Bag.chooseSlot (b : Bag) (h : Share) (key : Word) : Option (Nat × List (Word × Nat)) :=
  let r := 2048 / recBytes b.size
  let open_ := (h.rows.filter (fun e => e.1 == key)).filterMap (fun e => h.freeIn (e.2 * r) (min ((e.2 + 1) * r) b.cap))
  match open_ with
  | j :: js =>
    let j := js.foldl min j
    some (j, (key, j / r) :: h.rows.filter (fun e => e != (key, j / r)))
  | [] => (h.freeIn 0 b.cap).map (fun j => (j, ((key, j / r) :: h.rows).take 8))

/-- Serials further than 2^30 behind are brought up to there (R138). -/
def Share.refresh (h : Share) : Share :=
  { h with slots := h.slots.map (fun kv => (kv.1, kv.2.map (fun q => if 2 ^ 30 < (h.serial - q).toNat then h.serial - 2 ^ 30 else q))) }

/-! ### The Lengthsman (R143, R192, R193) -/

/-- A thread is a registered worker of the bag. -/
def Bag.isMember (b : Bag) (who : Who) : Bool := b.workers.any (fun w => w.who == who && w.member)

/-- Change a worker's record, made if the thread has none. -/
def Bag.modWorker (b : Bag) (who : Who) (f : Worker → Worker) : Bag :=
  if b.workers.any (·.who == who) then { b with workers := b.workers.map (fun w => if w.who == who then f w else w) }
  else { b with workers := b.workers ++ [f { who := who, member := false, claims := 0, parked := none }] }

/-- A worker's charged items leave the claimed count. -/
def Bag.dropClaims (b : Bag) (who : Who) : Bag :=
  let n := ((b.workers.find? (·.who == who)).map (·.claims)).getD 0
  { (b.modWorker who fun w => { w with claims := 0 }) with claimed := b.claimed - n }

/-- Quiescence is declared, if all its conditions hold (R143). -/
def Bag.settle (b : Bag) : Bag :=
  if b.work && !b.quiescent && b.sealed && b.total == 0 && b.claimed == 0 && b.waiting == b.members && decide (1 ≤ b.members) then
    { b with quiescent := true }
  else b

/-- Workers that an update releases, with their replies: all of them FALSE at quiescence, those of a share TRUE. -/
def Bag.released (b : Bag) (share : Option Nat) : List (Who × Bool) :=
  (b.workers.filter (fun w => w.parked.isSome && (b.quiescent || (share.isSome && w.parked == share)))).map (fun w => (w.who, !b.quiescent))

/-- The released workers are parked no longer. -/
def Bag.unpark (b : Bag) (ls : List (Who × Bool)) : Bag :=
  { b with workers := b.workers.map (fun w => if ls.any (·.1 == w.who) then { w with parked := none } else w) }

/-- Replies to workers travel to their threads. -/
def State.replyWorkers (s : State) (b : Bag) (ls : List (Who × Bool)) : State :=
  ls.foldl (fun s p => s.send { who := p.1, ctx := b.ctx, gen := (s.ctx b.ctx).gen, va := b.header, pa := b.headerPa, req := .await 0,
                                hw := p.1.hw, reply := some (.value (if p.2 then 1 else 0)), since := s.tick }) s

/-- The end of a request: quiescence is tried, released workers are answered, and the header is updated. `share` is the
one whose count has risen from 0. -/
def State.closeRequest (s : State) (b b' : Bag) (share : Option Nat) : State :=
  let b' := b'.settle
  let ls := b'.released share
  (s.updateBag b (b'.unpark ls)).replyWorkers b ls

/-! ### What a Staithe does with a request -/

/-- A put at the home Staithe (R133). -/
def State.applyPut (s : State) (b : Bag) (who : Who) (key : Word) (words : List Word) : State × Reply :=
  if (b.sealed && !b.work) || b.quiescent || (b.work && b.sealed && !b.isMember who) then (s, .refused)
  else match b.chooseShare key with
    | none => (s, .full b.cap)
    | some k =>
      let h := b.share k
      match b.chooseSlot h key with
      | none => (s, .full b.cap)
      | some (j, rows) =>
        let s := s.storeHomeWords (b.slotPa k j) words
        let h' := ({ slots := SMap.set none j (some h.serial) h.slots, serial := h.serial + 1, rows := rows } : Share).refresh
        let b' := { b with shares := SMap.set {} k h' b.shares, counts := SMap.set 0 k (b.countOf k + 1) b.counts, total := b.total + 1 }
        (s.closeRequest b b' (if b.countOf k = 0 then some k else none), .placed)

/-- The slot of a record address in a bag: share and slot, where it is the first byte of a live one (R141). -/
def Bag.slotOf (b : Bag) (a : DWord) : Option (Nat × Nat) :=
  let off := (a - b.area).toNat
  let k := off / b.stride
  let o := off % b.stride
  let j := o / recBytes b.size
  if k < b.shareCount && o % recBytes b.size == 0 && (SMap.get none j (b.share k).slots).isSome then some (k, j) else none

/-- The live bag and slot of a record address. -/
def State.recordSlot (s : State) (x : Nat) (a : DWord) : Option (Bag × Nat × Nat) :=
  s.bags.findSome? (fun b => if b.ctx = x && !b.freed then (b.slotOf a).map (fun p => (b, p)) else none)

/-- A drain at the home Staithe (R141). -/
def State.applyDrain (s : State) (x : Nat) (who : Who) (a : DWord) : State × Bool :=
  match s.recordSlot x a with
  | none => (s, false)
  | some (b, k, j) =>
    let h := b.share k
    let b' := { b with shares := SMap.set {} k { h with slots := SMap.set none j none h.slots } b.shares,
                       counts := SMap.set 0 k (b.countOf k - 1) b.counts, total := b.total - 1 }
    let b' := if b.work then { (b'.modWorker who fun w => { w with claims := w.claims + 1 }) with claimed := b.claimed + 1 } else b'
    (s.closeRequest b b' none, true)

/-- The cursor words of a snapshot (R137). A share index the bag has not gives a cursor that is done at once; its other
fields are left open (assumption 7). -/
def State.snapshotOf (s : State) (b : Option Bag) (slot : Nat) (share : Word) : Word × Word × Word :=
  match b with
  | none => (BitVec.ofNat 32 (slot * 2 ^ 28) ||| (Config.freeWord s.steps 0 &&& 0xFFF),
             let n := Config.freeWord s.steps 1 &&& 0xFFFF; n ||| (n <<< 16), Config.freeWord s.steps 2)
  | some b =>
    if share.toNat < b.shareCount then
      (BitVec.ofNat 32 (slot * 2 ^ 28 + share.toNat), BitVec.ofNat 32 b.cap, (b.share share.toNat).serial)
    else
      let k := (Config.freeWord s.steps 0).toNat % b.shareCount
      (BitVec.ofNat 32 (slot * 2 ^ 28 + k), BitVec.ofNat 32 (b.cap * 65537), (b.share k).serial)

/-- A step of a cursor (R138): the pair's value and the cursor after it. -/
def nextOf (b : Option Bag) (c0 c1 c2 : Word) : DWord × Word × Word × Word :=
  let lim := c1.toNat % 65536
  let next := c1.toNat / 65536
  let ended : Word := BitVec.ofNat 32 (lim * 65537)
  match b with
  | none => (1, c0, ended, c2)
  | some b =>
    let k := c0.toNat % 4096
    let h := b.share k
    if bitsOf c0.toNat 27 12 ≠ 0 || b.shareCount ≤ k || lim < next || 2 ^ 30 ≤ (h.serial - c2).toNat then (1, c0, ended, c2)
    else match (span next (lim - next)).find? (fun j => match SMap.get none j h.slots with
        | some q => decide (1 ≤ (c2 - q).toNat ∧ (c2 - q).toNat < 2 ^ 31)
        | none => false) with
      | none => (0, c0, ended, c2)
      | some j => (b.slotAddr k j, c0, BitVec.ofNat 32 ((j + 1) * 65536 + lim), c2)

/-- A count (R136). -/
def countReply (b : Option Bag) (share : Option Word) : Word :=
  match b, share with
  | none, none => 0
  | none, some _ => 0xFFFFFFFF
  | some b, none => BitVec.ofNat 32 b.total
  | some b, some k => if k.toNat < b.shareCount then BitVec.ofNat 32 (b.countOf k.toNat) else 0xFFFFFFFF

/-- Growth (R142): none inside where the target is beyond the limit. -/
def State.applyGrow (s : State) (b : Bag) (target : Nat) : State × Reply :=
  if target ≤ b.cap then (s, .value 0)
  else if target ≤ b.limit then (s.updateBag b { b with cap := target }, .value 0)
  else (s, .reserve b.limit)

/-- A worker waits on a share (R193). -/
def State.applyAwait (s : State) (b : Bag) (who : Who) (share : Nat) : State :=
  let b1 := b.dropClaims who
  let b2 := (b1.modWorker who fun w => { w with parked := some share }).settle
  let all := b2.released none
  if b2.quiescent then (s.updateBag b (b2.unpark (all ++ [(who, false)]))).replyWorkers b all
  else if 0 < b.countOf share then (s.updateBag b (b1.settle)).replyWorkers b [(who, true)]
  else s.updateBag b b2

/-- A thread registers as a worker (R192). -/
def State.applyEnter (s : State) (b : Bag) (who : Who) : State :=
  s.closeRequest b (b.modWorker who fun w => { w with member := true }) none

/-- A worker deregisters (R192). -/
def State.applyLeave (s : State) (b : Bag) (who : Who) : State :=
  let b' := b.dropClaims who
  s.closeRequest b { b' with workers := b'.workers.filter (fun w => !(w.who == who)) } none

/-! ### Making, sealing and freeing (R217, R218) -/

/-- The pages of a range of virtual addresses, each where it is mapped for the context. -/
def State.pagesAt (s : State) (x : Nat) (a : DWord) (bytes : Nat) : List (Option Nat) :=
  (List.range (bytes / 65536)).map (fun i =>
    let v := a + BitVec.ofNat 64 (65536 * i)
    if canonical v then (s.walk x v).bind (fun t => if s.ownsFrame x t.pa then some (t.pa / 65536 * 65536) else none) else none)

/-- The bank group of a frame: its stack and group; none off the HBM stacks (R127). -/
def bankGroup (pa : Nat) : Option (Nat × Nat) :=
  match placeOf pa with
  | .hbm k => some (k, pa % stackBytes / 65536 / 49152)
  | _ => none

/-- Two ranges of virtual addresses meet. -/
def rangesMeet (a n b m : Nat) : Bool := decide (a < b + m ∧ b < a + n)

/-- Slots of tags that a live bag takes on a stack. -/
def Bag.tagsOn (b : Bag) (k : Nat) : Nat :=
  ((List.range b.shareCount).filter (fun i => (bankGroup (b.sharePas.getD (i * b.stride / 65536) 0)).map (·.1) = some k)).length * b.limit

/-- The bag that a descriptor of eight words describes. -/
def bagOfWords (x : Nat) (ws : List Word) : Bag :=
  let w := fun i => (ws.getD i 0).toNat
  { ctx := x, header := dword (ws.getD 0 0) (ws.getD 1 0), headerPa := 0, area := dword (ws.getD 2 0) (ws.getD 3 0), logb := w 4 / 2 ^ 28,
    thresh := w 4 / 2 ^ 24 % 16, size := w 4 / 2 ^ 21 % 8, work := (w 4).testBit 20, cap := w 5 / 65536, limit := w 5 % 65536 }

/-- The check of a bag descriptor and the bag with its pages: the result code of R217, and the bag where it is 0. -/
def State.checkBag (s : State) (x : Nat) (ws : List Word) : Nat × Bag :=
  let b := bagOfWords x ws
  let w := fun i => (ws.getD i 0).toNat
  if 12 < b.logb || 4 < b.size || b.limit = 0 || b.limit < b.cap || w 4 % 2 ^ 20 ≠ 0 || w 6 ≠ 0 || w 7 ≠ 0 then (1, b)
  else if b.header.toNat % 65536 ≠ 0 || b.area.toNat % 65536 ≠ 0 || b.area = 0 || decide (2 ^ 64 < b.area.toNat + b.shareCount * b.stride) then (2, b)
  else
    let bytes := b.shareCount * b.stride
    let hp := s.pagesAt x b.header 65536
    let sp := s.pagesAt x b.area bytes
    if (hp ++ sp).any (·.isNone) then (3, b)
    else
      let b := { b with headerPa := (hp.head?.bind id).getD 0, sharePas := sp.map (·.getD 0) }
      let mine := [(b.header.toNat, 65536), (b.area.toNat, bytes)]
      if s.bags.any (fun o => o.ctx = x && !o.freed && mine.any (fun p =>
          rangesMeet p.1 p.2 o.header.toNat 65536 || rangesMeet p.1 p.2 o.area.toNat (o.shareCount * o.stride))) then (4, b)
      else if (List.range b.shareCount).any (fun k =>
          let ps := (b.sharePas.drop (k * b.stride / 65536)).take (b.stride / 65536)
          let g := bankGroup (ps.headD 0)
          g.isNone || ps.any (fun p => bankGroup p != g)) then (5, b)
      else if (List.range 16).any (fun k => 0 < b.tagsOn k && 4194304 < b.tagsOn k + ((s.bags.filter (fun o => !o.freed)).map (·.tagsOn k)).sum)
        then (6, b)
      else (0, b)

/-- The home Staithe makes a bag: the header page is written, in one update, and the tags and open rows are clear
(R217). -/
def State.applyMake (s : State) (x : Nat) (ws : List Word) : State × Nat :=
  match s.checkBag x ws with
  | (0, b) =>
    let s := { s with bags := s.bags.filter (fun (o : Bag) => !(o.ctx = x && o.header == b.header)) ++ [b] }
    (s.storeHomeWords b.headerPa ((List.range 16384).map (fun i => b.headerWord (4 * i))), 0)
  | (n, _) => (s, n)

/-- The Staithe seals a bag (R218). -/
def State.applySeal (s : State) (x : Nat) (h : DWord) : State × Nat :=
  match s.bagAt x h with
  | some b => (s.closeRequest b { b with sealed := true } none, 0)
  | none => (s, 1)

/-- The Staithe frees a bag (R218). -/
def State.applyFree (s : State) (x : Nat) (h : DWord) : State × Nat :=
  if (s.ctx x).launches.any (fun l => l.state != .done && l.bags.contains h && h != 0) then (s, 2)
  else match s.bagAt x h with
    | some b => (({ s with bags := replaceBag { b with freed := true } s.bags } : State).storeHome (b.headerPa + 4) 0, 0)
    | none => (s, 1)

/-! ### Instructions -/

/-- The header a launch binds to a slot; 0 where it binds none. -/
def State.slotHeader (s : State) (x launch slot : Nat) : DWord := ((s.launch x launch).bind (·.bags[slot]?)).getD 0

/-- The header a control thread's slot names: its prologue's launch binds it, and in a routine that runs no launch slot h0 names the
context's launch bag (R159). Which slot that is, is the model's choice (assumption 24). -/
def State.slotHeaderCt (s : State) (e : CEnv) (slot : Nat) : DWord :=
  match e.r.run.launch? with
  | some n => s.slotHeader e.x n slot
  | none => if slot = 0 then (s.ctx e.x).launchBag else 0

/-- A request on its way to the home Staithe of a header. -/
def bagRequest (s : State) (who : Who) (x : Nat) (h : DWord) (req : Req) (id : Option Nat) : Msg :=
  { who := who, ctx := x, gen := (s.ctx x).gen, va := h, pa := s.bagHome who.core x h, req := req, hw := who.hw, load := id, since := s.tick }

/-- The sources of `bput`. -/
def putParts (f : BputForm) : List Part := [.code f.k 1, .regs f.r.toNat (2 * 2 ^ f.z.toNat)]

/-- The trap of a put (R132, R311): ILLEGAL for a slot that binds nothing or a bag of another size class; ADDR where a page of the bag's
shares, any of which a put may write, is mapped without permission to write. -/
def State.putTrap (s : State) (x size : Nat) (h : DWord) : Option Nat :=
  if h == 0 then some trapILLEGAL
  else match s.bagAt x h with
    | none => none
    | some b =>
      if b.size != size then some trapILLEGAL
      else if (List.range (b.shareCount * b.stride / 65536)).any (fun i => match s.walk x (b.area + BitVec.ofNat 64 (65536 * i)) with
        | some t => !t.grants permW
        | none => false) then some trapADDR
      else none

/-- `bput`. -/
def execBput (f : BputForm) (s : State) : Host.Outcome State Fault Refusal :=
  let ps := putParts f
  .next (issue (.bput f) { regs := codeRegs f.k ++ span f.r.toNat (2 * 2 ^ f.z.toNat), lat := codeLat f.k } s
    (fun e set s =>
      let h := s.slotHeader e.x e.g.launch f.h.toNat
      match s.checkVec e (.bput f) set (fun _ => s.putTrap e.x f.z.toNat h) (fun _ => [(h, 4)]) true true with
      | some s => s
      | none =>
        if !e.cr.roomFor set then s
        else
          let id := s.fresh
          let s := set.foldl (fun s l =>
            let ws := e.sources l ps
            s.append e.c l.hw (plainEntry (.put id.1 h ((ws.getD 0 []).getD 0 0) (ws.getD 1 [])) (e.who l) e.pc h (s.bagHome e.c e.x h) (s.ctx e.x).gen)) id.2
          (s.parkSet e set 4 (fun _ => .staithe f.s.toNat)).eachThread e.c e.ws set fun l t =>
            { t with capture := some { pc := e.pc, words := e.captureOf l ps } })
    (fun _ s => s))

/-- A request of the bq group in both streams: each thread sends its own, and its result is delivered later to `dests`:
first register and bytes of each part (R135). `hold` makes the thread's later loads wait for the reply (R140). -/
def bagQuery (i : Instr) (u : Uses) (slotOk : Env → Lane → State → Bool) (slotOkCt : CEnv → State → Bool)
    (req : Env → Lane → State → DWord × Req) (reqCt : CEnv → State → DWord × Req) (dests destsCt : List (Option Nat × Nat)) (hold : Bool)
    (s : State) : Host.Outcome State Fault Refusal :=
  let pend := fun (s : State) (id : Nat) (who : Who) (pc va : DWord) (w : Option Nat) (d : Option Nat × Nat) =>
    ({ id := id, kind := .bag, who := who, pc := pc, word := (wordOf i).1, va := va, pa := 0, size := d.2, signed := false, dest := d.1,
       pred := 0, scope := if hold && d.2 == 8 then 4 else 0, gen := (s.ctx (s.coreCtx who.core)).gen, data := none, warp := w,
       late := dests.length == 2 && d.2 == 12 } : Load)
  .next (issue i u s
    (fun e set s =>
      match s.checkVec e i set (fun l => if slotOk e l s then none else some trapILLEGAL) (fun _ => []) false false with
      | some s => s
      | none =>
        let id := s.fresh
        let s := set.foldl (fun s l =>
          let r := req e l s
          let s := (dests.foldl (fun s d => s.addLoad e.c (pend s id.1 (e.who l) e.pc r.1 (some e.k) d)) s).send
            (bagRequest s (e.who l) e.x r.1 r.2 (some id.1))
          if hold then s.holdLoads (e.who l) else s) id.2
        s.advance e 4 false)
    (fun e s =>
      if !slotOkCt e s then s.trapCt e.c trapILLEGAL
      else
        let id := s.fresh
        let r := reqCt e id.2
        let s := (destsCt.foldl (fun s d => s.addLoad e.c (pend s id.1 e.who e.r.pc r.1 (some e.r.tag) d)) id.2).send
          (bagRequest id.2 e.who e.x r.1 r.2 (some id.1))
        (if hold then s.holdLoads e.who else s).advanceCt e 4))

/-- The launch binds the slot. -/
def slotBound (h : BitVec 4) (e : Env) (_ : Lane) (s : State) : Bool := s.slotHeader e.x e.g.launch h.toNat != 0

/-- The slot is bound for the control thread. -/
def slotBoundCt (h : BitVec 4) (e : CEnv) (s : State) : Bool := s.slotHeaderCt e h.toNat != 0

/-- The destination of a result that nw does not suppress. -/
def destOf (nw : BitVec 1) (d : BitVec 6) : Option Nat := if nw = 0 then some d.toNat else none

/-- `bcount`. -/
def execBcount (h : BitVec 4) (nw : BitVec 1) (d : BitVec 6) (g : BitVec 3) (s : State) : Host.Outcome State Fault Refusal :=
  bagQuery (.bcount h nw d g) { g := g, regs := destRegs nw d, b3 := true } (slotBound h) (slotBoundCt h)
    (fun e _ s => (s.slotHeader e.x e.g.launch h.toNat, .count none)) (fun e s => (s.slotHeaderCt e h.toNat, .count none))
    [(destOf nw d, 4)] [(destOf nw d, 8)] false s

/-- `bshare`. In the control stream the share index is the low word of s(d) (DESIGN CHOICE, assumption 70); in the vector stream d, a source too, is
not range-checked where nw = 1 (DESIGN CHOICE, assumption 52). -/
def execBshare (h : BitVec 4) (nw : BitVec 1) (d : BitVec 6) (g : BitVec 3) (s : State) : Host.Outcome State Fault Refusal :=
  bagQuery (.bshare h nw d g) { g := g, regs := destRegs nw d, also := [d.toNat], b3 := true } (slotBound h) (slotBoundCt h)
    (fun e l s => (s.slotHeader e.x e.g.launch h.toNat, .count (some (e.reg l d.toNat))))
    (fun e s => (s.slotHeaderCt e h.toNat, .count (some (e.r.reg d.toNat).lo)))
    [(destOf nw d, 4)] [(destOf nw d, 8)] false s

/-- `biter`, whose share index is read as that of `bshare` (assumptions 52 and 70). -/
def execBiter (h : BitVec 4) (nw : BitVec 1) (d : BitVec 6) (g : BitVec 3) (s : State) : Host.Outcome State Fault Refusal :=
  bagQuery (.biter h nw d g) { g := g, regs := if nw = 0 then span d.toNat 3 else [], also := [d.toNat], b3 := true } (slotBound h) (slotBoundCt h)
    (fun e l s => (s.slotHeader e.x e.g.launch h.toNat, .snapshot h.toNat (e.reg l d.toNat)))
    (fun e s => (s.slotHeaderCt e h.toNat, .snapshot h.toNat (e.r.reg d.toNat).lo))
    [(destOf nw d, 12)] [(destOf nw d, 24)] false s

/-- `bnext`: the slot is the cursor's, and a cursor with an unbound slot is malformed (R138). -/
def execBnext (k : BitVec 7) (nw : BitVec 1) (d : BitVec 6) (g : BitVec 3) (s : State) : Host.Outcome State Fault Refusal :=
  bagQuery (.bnext k nw d g) { g := g, regs := span k.toNat 3 ++ destPair nw d, b3 := true } (fun _ _ _ => true) (fun _ _ => true)
    (fun e l s => (s.slotHeader e.x e.g.launch (bitsOf (e.reg l k.toNat).toNat 31 28),
      .next (e.reg l k.toNat) (e.reg l (k.toNat + 1)) (e.reg l (k.toNat + 2))))
    (fun e s => (s.slotHeaderCt e (bitsOf (e.r.reg k.toNat).lo.toNat 31 28),
      .next (e.r.reg k.toNat).lo (e.r.reg (k.toNat + 1)).lo (e.r.reg (k.toNat + 2)).lo))
    [(destOf nw d, 8), (some k.toNat, 12)] [(destOf nw d, 8), (some k.toNat, 24)] true s

/-- The record bytes at an address of a context's live bags, for watchpoints. -/
def State.recordSize (s : State) (x : Nat) (a : DWord) : Nat := ((s.recordSlot x a).map (fun p => recBytes p.1.size)).getD 4

/-- `bdrain`. -/
def execBdrain (k : BitVec 7) (nw : BitVec 1) (d : BitVec 6) (g : BitVec 3) (s : State) : Host.Outcome State Fault Refusal :=
  let ps : List Part := [.regs k.toNat 2]
  let pend := fun (s : State) (id : Nat) (who : Who) (pc va : DWord) (w : Option Nat) (size : Nat) =>
    ({ id := id, kind := .bag, who := who, pc := pc, word := (wordOf (.bdrain k nw d g)).1, va := va, pa := 0, size := size, signed := false,
       dest := destOf nw d, pred := 0, scope := 0, gen := (s.ctx (s.coreCtx who.core)).gen, data := none, warp := w } : Load)
  .next (issue (.bdrain k nw d g) { g := g, regs := span k.toNat 2 ++ destRegs nw d, b3 := true } s
    (fun e set s =>
      let va := fun l => BitVec.ofNat 64 (e.sourceNat l ps 0)
      match s.checkVec e (.bdrain k nw d g) set (fun _ => none) (fun l => [(va l, s.recordSize e.x (va l))]) true true with
      | some s => s
      | none =>
        if !e.cr.roomFor set then s
        else
          let id := s.fresh
          (set.foldl (fun s l =>
            (s.append e.c l.hw (plainEntry (.drain id.1) (e.who l) e.pc (va l) ((s.residentAt e.c e.x (va l)).getD 0) (s.ctx e.x).gen)).addLoad e.c
              (pend s id.1 (e.who l) e.pc (va l) (some e.k) 4)) id.2).advance e 4 false)
    (fun e s =>
      let a := e.r.reg k.toNat
      match s.checkCt e none [(a, s.recordSize e.x a)] true true with
      | some s => s
      | none =>
        if !e.cr.room ctQueue 1 then s
        else
          let id := s.fresh
          ((id.2.appendCt e.c (plainEntry (.drain id.1) e.who e.r.pc a ((s.residentAt e.c e.x a).getD 0) (s.ctx e.x).gen)).addLoad e.c
            (pend s id.1 e.who e.r.pc a (some e.r.tag) 8)).advanceCt e 4))

/-- `bgrow`: the thread is held for the reply. In the control stream the target is the low word of s(d) (DESIGN CHOICE, assumption 70). -/
def execBgrow (h : BitVec 4) (d : BitVec 6) (g : BitVec 3) (s : State) : Host.Outcome State Fault Refusal :=
  .next (issue (.bgrow h d g) { g := g, regs := [d.toNat] } s
    (fun e set s =>
      match s.checkVec e (.bgrow h d g) set (fun l => if slotBound h e l s then none else some trapILLEGAL) (fun _ => []) false false with
      | some s => s
      | none =>
        let id := s.fresh
        let hd := s.slotHeader e.x e.g.launch h.toNat
        let ps : List Part := [.regs d.toNat 1]
        let s := set.foldl (fun s l =>
          s.send (bagRequest s (e.who l) e.x hd (.grow (BitVec.ofNat 32 (e.sourceNat l ps 0))) (some id.1))) id.2
        (s.parkSet e set 4 (fun _ => .staithe 0)).eachThread e.c e.ws set fun l t => { t with capture := some { pc := e.pc, words := e.captureOf l ps } })
    (fun e s =>
      if !slotBoundCt h e s then s.trapCt e.c trapILLEGAL
      else if e.r.waited then s.advanceCt e 4
      else (s.send (bagRequest s e.who e.x (s.slotHeaderCt e h.toNat) (.grow (e.r.reg d.toNat).lo) none)).parkCt e.c (.staithe 0)))

/-! ### The wq group (R192, R193) -/

/-- A slot binds a live work bag of the launch. -/
def workBag (h : BitVec 4) (e : Env) (s : State) : Bool :=
  let hd := s.slotHeader e.x e.g.launch h.toNat
  hd != 0 && (match s.bagAt e.x hd with
    | some b => b.work
    | none => false)

/-- `wqenter`: the registration bit is set, and the request goes to the Lengthsman. DESIGN CHOICE (assumption 66): `wqenter` and `wqleave` do not end
the run, as R192 and R193 say it of `wqwait` alone, where the section's opening says it of the group. -/
def execWqenter (h : BitVec 4) (g : BitVec 3) (s : State) : Host.Outcome State Fault Refusal :=
  .next (issue (.wqenter h g) { g := g } s
    (fun e set s =>
      match s.checkVec e (.wqenter h g) set (fun _ => if workBag h e s then none else some trapILLEGAL) (fun _ => []) false false with
      | some s => s
      | none =>
        let hd := s.slotHeader e.x e.g.launch h.toNat
        let new := set.filter (fun l => !(e.thread l).regmask.getLsbD h.toNat)
        let id := s.fresh
        let s := new.foldl (fun s l => s.send (bagRequest s (e.who l) e.x hd .enter (some id.1))) id.2
        (s.eachThread e.c e.ws new fun _ t => { t with regmask := t.regmask ||| BitVec.twoPow 16 h.toNat }).advance e 4 false)
    (fun _ s => s))

/-- A thread deregisters from a bag slot (R192). -/
def State.leaveSlot (s : State) (x launch : Nat) (who : Who) (slot id : Nat) : State :=
  let hd := s.slotHeader x launch slot
  (s.send (bagRequest s who x hd .leave (some id))).changeThread who fun t => { t with regmask := t.regmask &&& ~~~BitVec.twoPow 16 slot }

/-- `wqleave`. -/
def execWqleave (h : BitVec 4) (g : BitVec 3) (s : State) : Host.Outcome State Fault Refusal :=
  .next (issue (.wqleave h g) { g := g } s
    (fun e set s =>
      match s.checkVec e (.wqleave h g) set (fun _ => if workBag h e s then none else some trapILLEGAL) (fun _ => []) false false with
      | some s => s
      | none =>
        let id := s.fresh
        ((set.filter (fun l => (e.thread l).regmask.getLsbD h.toNat)).foldl (fun s l =>
          s.leaveSlot e.x e.g.launch (e.who l) h.toNat id.1) id.2).advance e 4 false)
    (fun _ s => s))

/-- `wqwait`: the thread is parked for the Lengthsman's reply. -/
def execWqwait (k : BitVec 3) (h : BitVec 4) (d : BitVec 6) (g : BitVec 3) (s : State) : Host.Outcome State Fault Refusal :=
  .next (issue (.wqwait k h d g) { g := g, regs := [d.toNat], preds := k != 0 } s
    (fun e set s =>
      let hd := s.slotHeader e.x e.g.launch h.toNat
      let shares := ((s.bagAt e.x hd).map (·.shareCount)).getD 0
      match s.checkVec e (.wqwait k h d g) set (fun l =>
          if workBag h e s && (e.thread l).regmask.getLsbD h.toNat && decide ((e.reg l d.toNat).toNat < shares) then none else some trapILLEGAL)
          (fun _ => []) false false with
      | some s => s
      | none =>
        let id := s.fresh
        (set.foldl (fun s l => s.send (bagRequest s (e.who l) e.x hd (.await (e.reg l d.toNat)) (some id.1))) id.2).parkSet e set 4
          (fun _ => .wqwait h.toNat k.toNat))
    (fun _ s => s))

end Sys2Proof.Machine
end

