-- ==== Sys2Proof/Machine/Flow.lean ====
section
/-! DEFINITION. Control flow (R174-R180): branches, calls and returns, the cfl group, in both streams. -/

namespace Sys2Proof.Machine

/-! ### Transfers of lane threads -/

/-- Some threads of a formed warp transfer to their targets, every other goes on, and the run ends (R174, R377). -/
def State.jumpSet (s : State) (e : Env) (set : List Lane) (target : Lane → DWord) : State :=
  let s := s.goOn e 4
  let s := set.foldl (fun s l => (s.modThread e.c e.ws l.tid fun t => { t with pc := target l }).transfer e.c e.ws l.tid e.pc (target l)) s
  s.endIssue e true

/-- The trap of a target PC: bit 0 is tested first (R176, R179, R395). -/
def targetTrap (a : DWord) : Option Nat :=
  if a.getLsbD 0 then some trapALIGN else if !canonical a then some trapADDR else none

/-- The target of a PC-relative transfer. -/
def relTarget (pc : DWord) (off : BitVec 21) : DWord := pc48 (pc + (off.signExtend 64) * 2)

/-- Where a call stores its frame. -/
def frameAddr (e : Env) (l : Lane) : DWord := (e.thread l).sp - 16

/-- The queue entry of a call's frame: the return PC in its low doubleword (R176). -/
def frameEntry (s : State) (e : Env) (l : Lane) (pa : Nat) : Entry :=
  { kind := .store 16 ((pc48 (e.pc + 4)).setWidth 128) 0 true false, who := e.who l, pc := e.pc, va := frameAddr e l, pa := pa, gen := (s.ctx e.x).gen }

/-- A call of each thread of the issue set (R176, R179): the targets are tested first, then the frame is pushed (DEDUCED,
assumption 49). `parts` are the
sources a hardware effect captures. -/
def State.callSet (s : State) (e : Env) (i : Instr) (set : List Lane) (parts : List Part) (target : Lane → DWord) (trap : Lane → Option Nat) : State :=
  match s.checkVec e i set trap (fun _ => []) false false with
  | some s => s
  | none =>
  match set.filter (fun l => (e.thread l).depth == 255) with
  | d :: ds => s.trapWarp e i trapILLEGAL (d :: ds)
  | [] =>
    match s.checkVec e i set (fun l => s.accessTrap e.c e.x (frameAddr e l) 16 permW false) (fun l => [(frameAddr e l, 16)]) true true with
    | some s => s
    | none =>
      let pa := fun l => s.residentAt e.c e.x (frameAddr e l)
      let ok := set.filter (fun l => (pa l).isSome)
      match s.appendLanes e set pa (fun s l a => frameEntry s e l a) (frameAddr e) with
      | none => s
      | some s1 =>
        let s1 := s1.goOn e 4
        let s1 := ok.foldl (fun s l =>
          (s.modThread e.c e.ws l.tid fun t => { t with sp := frameAddr e l, depth := t.depth + 1, pc := target l }).transfer e.c e.ws l.tid e.pc (target l)) s1
        match absentOf e set pa (frameAddr e) parts with
        | [] => s1.endIssue e true
        | ls => (s1.performAll e i (ls.map (fun p => (p.1, p.2.1, p.2.2.1, .hardware p.2.2.2))) e.pc).getD s

/-- What each thread of a returning set reads from its frame, and the state after the reads; none while one waits. -/
def State.readFrames (s : State) (e : Env) (set : List Lane) : Option (State × List (Lane × Look)) :=
  set.foldl (fun acc l => acc.bind fun (s, ls) =>
    match s.look e.c l.hw (e.thread l).sp 8 with
    | .wait => none
    | .value v s => some (s, ls ++ [(l, .value v s)])
    | .poisoned i s => some (s, ls ++ [(l, .poisoned i s)])
    | r => some (s, ls ++ [(l, r)])) (some (s, []))

/-- The return PC a read frame gives: zero after an error reply (R91). -/
def Look.pc : Look → DWord
  | .value v _ => BitVec.ofNat 64 v
  | _ => 0

/-- A frame whose page is absent. -/
def Look.isAbsent : Look → Bool
  | .absent => true
  | _ => false

/-- The word of a frame that is poisoned, if one is. -/
def Look.poison : Look → Option Nat
  | .poisoned i _ => some i
  | _ => none

/-- A return of each thread of the issue set (R176). -/
def State.returnSet (s : State) (e : Env) (i : Instr) (set : List Lane) : State :=
  match set.filter (fun l => (e.thread l).depth == 0) with
  | d :: ds => s.trapWarp e i trapILLEGAL (d :: ds)
  | [] =>
    let a := fun l => (e.thread l).sp
    match s.checkVec e i set (fun l => s.accessTrap e.c e.x (a l) 8 permR false) (fun l => [(a l, 8)]) true true with
    | some s => s
    | none =>
      match s.readFrames e set with
      | none => s
      | some (s1, ls) =>
        match ls.filter (fun p => p.2.poison.isSome) with
        | p :: ps => s1.trapWarp e i trapPOISON ((p :: ps).map (·.1)) (fun l =>
            let w := wordOfAccess (a l) (((ls.find? (·.1 == l)).bind (·.2.poison)).getD 0)
            (w.lo, w.hi))
        | [] =>
          let back := ls.filter (fun p => !p.2.isAbsent)
          match s.checkVec e i (back.map (·.1)) (fun l => (back.find? (·.1 == l)).bind (fun p => targetTrap p.2.pc)) (fun _ => []) false false with
          | some s => s
          | none =>
            let s1 := s1.goOn e 4
            let s1 := back.foldl (fun s p =>
              (s.modThread e.c e.ws p.1.tid fun t => { t with sp := t.sp + 16, depth := t.depth - 1, pc := p.2.pc }).transfer e.c e.ws p.1.tid e.pc p.2.pc) s1
            match (ls.filter (fun p => p.2.isAbsent)).map (·.1) with
            | [] => s1.endIssue e true
            | gone => (s1.performAll e i (gone.map (fun l => (l, effPAGEABSENT, pageArg (a l), .hardware []))) e.pc).getD s

/-! ### Leaving a workgroup (R24, R170, R378) -/

/-- The word of an area in a context's memory, zero where no page holds it. -/
def State.areaWord (s : State) (x : Nat) (va : DWord) : Word := (s.devLoad x va).getD 0

/-- A thread's path signature is recorded or compared at its exit (R378). -/
def State.recordPath (s : State) (l : Launch) (g : Workgroup) (tid : Nat) : State :=
  let n := 32 * g.warps * g.index + tid
  let a := l.patharea + BitVec.ofNat 64 (0x40 + 8 * n)
  let sig := (g.thread tid).psig
  if l.path = 1 then s.devStores g.ctx a [sig.lo, sig.hi]
  else if l.path = 2 then
    let v := dword (s.areaWord g.ctx a) (s.areaWord g.ctx (a + 4)) ^^^ sig
    let s := s.devStores g.ctx a [v.lo, v.hi]
    if v = 0 then s else s.devStore g.ctx l.patharea (s.areaWord g.ctx l.patharea + 1)
  else s

/-- A workgroup whose last thread has exited and whose store queues have drained finishes: results whose data is known reach their
registers, its slots are free, and its launch counts it (R24, R102, R170). -/
def State.tryFinish (s : State) (c ws : Nat) : State :=
  match (s.core c).wg ws with
  | none => s
  | some g =>
    let y := s.core c
    if g.threads.any (fun t => t.2.live) || (span g.hw g.warps).any (fun w => !(y.queue w).isEmpty) then s
    else
      let mine := fun (p : Load) => match p.who with
        | .lane _ _ _ w _ => w == ws
        | _ => false
      let s := (y.loads.filter mine).foldl (fun s p => match p.dest with
        | some d => if p.data.isSome then s.writeRegs p.who d p.words else s
        | none => s) s
      let s := (s.modCore c fun y => { (y.setWg ws none) with loads := y.loads.filter (fun p => !mine p) }).clearRecord c ws
      s.modCtx g.ctx fun x => { x with launches := x.launches.map (fun l =>
        if l.index = g.launch then { l with finished := l.finished + 1, digests := SMap.set 0 g.index g.digest l.digests } else l) }

/-- A thread leaves its workgroup: it deregisters from its work bags, its path signature is recorded, and it lives no
longer (R179, R24). -/
def State.exitThread (s : State) (c ws tid : Nat) : State :=
  match (s.core c).wg ws with
  | none => s
  | some g =>
    let t := g.thread tid
    let who : Who := .lane c ((s.core c).lcore.getD 0) (g.hw + tid / 32) ws tid
    let id := s.fresh
    let s := if t.regmask = 0 then s else (setBits t.regmask).foldl (fun s h => s.leaveSlot g.ctx g.launch who h id.1) id.2
    let s := match s.launch g.ctx g.launch with
      | some l => s.recordPath l g tid
      | none => s
    s.modThread c ws tid fun t => { t with live := false, park := .none, loadHold := 0, effect := none, poison := none, capture := none }

/-! ### The instructions: lane side and control side -/

/-- The control thread goes to a target. -/
def State.jumpCt (s : State) (e : CEnv) (target : DWord) : State :=
  s.modCore e.c fun y => { y with ct := { y.ct with cur := { y.ct.cur with pc := target, grd := none, waited := false, watched := false, begun := true } } }

/-- The control thread calls a target that has been tested (R180); a full return stack traps after that test (DEDUCED, assumption 49). -/
def State.callCt (s : State) (e : CEnv) (target : DWord) : State :=
  if 16 ≤ e.r.rstack.length then s.trapCt e.c trapILLEGAL
  else (s.modCt e.c fun r => { r with rstack := pc48 (e.r.pc + 4) :: r.rstack }).jumpCt e target

/-- `bra`. -/
def execBra (off : BitVec 21) (g : BitVec 3) (s : State) : Host.Outcome State Fault Refusal :=
  .next (issue (.bra off g) { g := g } s
    (fun e set s => s.jumpSet e set (fun _ => relTarget e.pc off))
    (fun e s => s.jumpCt e (relTarget e.r.pc off)))

/-- `call`. -/
def execCall (off : BitVec 21) (g : BitVec 3) (s : State) : Host.Outcome State Fault Refusal :=
  .next (issue (.call off g) { g := g } s
    (fun e set s => s.callSet e (.call off g) set [] (fun _ => relTarget e.pc off) (fun _ => none))
    (fun e s => s.callCt e (relTarget e.r.pc off)))

/-- `jmpi`. -/
def execJmpi (k : BitVec 7) (g : BitVec 3) (s : State) : Host.Outcome State Fault Refusal :=
  .next (issue (.jmpi k g) { g := g, regs := span k.toNat 2 } s
    (fun e set s =>
      match s.checkVec e (.jmpi k g) set (fun l => targetTrap (e.regPair l k.toNat)) (fun _ => []) false false with
      | some s => s
      | none => s.jumpSet e set (fun l => e.regPair l k.toNat))
    (fun e s =>
      match targetTrap (e.r.reg k.toNat) with
      | some code => s.trapCt e.c code
      | none => s.jumpCt e (e.r.reg k.toNat)))

/-- `calli`. -/
def execCalli (k : BitVec 7) (g : BitVec 3) (s : State) : Host.Outcome State Fault Refusal :=
  .next (issue (.calli k g) { g := g, regs := span k.toNat 2 } s
    (fun e set s =>
      let parts : List Part := [.regs k.toNat 2]
      let target := fun (l : Lane) => BitVec.ofNat 64 (e.sourceNat l parts 0)
      s.callSet e (.calli k g) set parts target (fun l => targetTrap (target l)))
    (fun e s =>
      match targetTrap (e.r.reg k.toNat) with
      | some code => s.trapCt e.c code
      | none => s.callCt e (e.r.reg k.toNat)))

/-- `ret`. -/
def execRet (g : BitVec 3) (s : State) : Host.Outcome State Fault Refusal :=
  .next (issue (.ret g) { g := g } s
    (fun e set s => s.returnSet e (.ret g) set)
    (fun e s => match e.r.rstack with
      | [] => s.trapCt e.c trapILLEGAL
      | a :: rest => (s.modCt e.c fun r => { r with rstack := rest }).jumpCt e a))

/-- A queued event that the end of a control thread's routine gives way to: a trap or a start event (R324). -/
def CtEvent.first : CtEvent → Bool
  | .prologue _ _ => false
  | _ => true

/-- A prologue has executed `exit` (R170). -/
def State.prologueDone (s : State) (x n stage lc : Nat) : State :=
  s.modCtx x fun y => { y with launches := y.launches.map (fun l => if l.index = n then
    { l with prologues := l.prologues.map (fun p => if p.1 = lc && p.2.1 = stage then (p.1, p.2.1, true) else p) } else l) }

/-- A control thread's routine ends: with a trap or start event queued it waits for that, else the interrupted routine
goes on, else it is idle (R324). -/
def State.endRoutine (s : State) (c : Nat) : State :=
  s.modCore c fun y =>
    let t := y.ct
    if t.pending.any CtEvent.first then { y with ct := { t with cur := {} } }
    else match t.saved with
      | r :: rest => { y with ct := { t with cur := r, saved := rest } }
      | [] => { y with ct := { t with cur := {} } }

/-- The exit of a control thread (R180, R324). -/
def State.exitCt (s : State) (e : CEnv) : State :=
  let s := (match e.r.run with
    | .prologue n stage => s.prologueDone e.x n stage (e.cr.lcore.getD 0)
    | _ => s)
  s.endRoutine e.c

/-- `exit`. -/
def execExit (g : BitVec 3) (s : State) : Host.Outcome State Fault Refusal :=
  .next (issue (.exit g) { g := g } s
    (fun e set s =>
      ((set.foldl (fun s l => s.exitThread e.c e.ws l.tid) (s.goOn e 4)).endIssue e true).tryFinish e.c e.ws)
    (fun e s => s.exitCt e))

/-- `yield`: a blocking point, held while an eviction of the workgroup is pending (R171). -/
def execYield (g : BitVec 3) (s : State) : Host.Outcome State Fault Refusal :=
  .next (issue (.yield g) { g := g } s
    (fun e set s =>
      ((s.goOn e 4).eachThread e.c e.ws set fun _ t => { t with reached := true, park := if e.g.evict then .yield else .none }).endIssue e true)
    (fun e s => if e.cr.switch && !e.r.waited then s.parkCt e.c .yield else s.advanceCt e 4))

/-- `nop`. -/
def execNop (g : BitVec 3) (s : State) : Host.Outcome State Fault Refusal :=
  .next (issue (.nop g) { g := g } s (fun e _ s => s.advance e 4 false) (fun e s => s.advanceCt e 4))

/-- A software trap of the threads of the issue set: the saved PC is the next instruction's (R179). -/
def State.softTrap (s : State) (e : Env) (i : Instr) (code : Nat) (set : List Lane) (info : Lane → Word) : State :=
  match set with
  | [] => s.advance e 4 false
  | _ =>
    if s.owesResults e.c e.ws e.lanes then s
    else (s.goOn e 4).takeTrap e.c e.ws e.w (some e.k) code (pc48 (e.pc + 4)) i set (fun l => (info l, 0))

/-- A software trap of the control thread. -/
def State.softTrapCt (s : State) (e : CEnv) (code : Nat) (info : DWord) : State :=
  (s.modCt e.c fun r => { r with pc := pc48 (e.r.pc + 4) }).trapCt e.c code info

/-- `trap`. -/
def execTrap (a : BitVec 7) (g : BitVec 3) (s : State) : Host.Outcome State Fault Refusal :=
  .next (issue (.trap a g) { g := g, regs := codeRegs a, lat := codeLat a } s
    (fun e set s => s.softTrap e (.trap a g) trapSWTRAP set (fun l => e.operand .int l a))
    (fun e s => s.softTrapCt e trapSWTRAP (e.operand a)))

/-- `brk`. -/
def execBrk (g : BitVec 3) (s : State) : Host.Outcome State Fault Refusal :=
  .next (issue (.brk g) { g := g } s
    (fun e set s => s.softTrap e (.brk g) trapBRK set (fun _ => 0))
    (fun e s => s.softTrapCt e trapBRK 0))

end Sys2Proof.Machine
end

