-- ==== Sys2Proof/Machine/Wait.lean ====
section
/-! DEFINITION. Barriers (R181-R183) and wait-until (R184-R191). -/

namespace Sys2Proof.Machine

/-! ### Barriers -/

/-- The core-scope barriers of a logical core, current on a core or switched out of it (R28, R327). -/
def State.coreBars (s : State) (c lc : Nat) : SMap Barrier :=
  if (s.core c).lcore = some lc then (s.core c).bars
  else ((SMap.get none lc (s.core c).saved).map (·.bars)).getD (s.core c).bars

/-- The barrier of a scope and id in the instance that contains a core and a logical core; at package and pod scope the context's own
(R181). -/
def State.barrier (s : State) (c lc x scope id : Nat) : Barrier :=
  match scope with
  | 1 => SMap.get {} id (s.coreBars c lc)
  | 2 => SMap.get {} id (s.quad (quadOf c)).bars
  | 3 => SMap.get {} id (s.die (dieOf c)).bars
  | 4 => SMap.get {} id (s.ctx x).pkgBars
  | _ => SMap.get {} id (s.ctx x).podBars

/-- Put a barrier. -/
def State.setBarrier (s : State) (c lc x scope id : Nat) (b : Barrier) : State :=
  match scope with
  | 1 => s.modCore c fun y =>
    if y.lcore = some lc then { y with bars := SMap.set {} id b y.bars }
    else match SMap.get none lc y.saved with
      | some v => { y with saved := SMap.set none lc (some { v with bars := SMap.set {} id b v.bars }) y.saved }
      | none => { y with bars := SMap.set {} id b y.bars }
  | 2 => s.modQuad (quadOf c) fun y => { y with bars := SMap.set {} id b y.bars }
  | 3 => s.modDie (dieOf c) fun y => { y with bars := SMap.set {} id b y.bars }
  | 4 => s.modCtx x fun y => { y with pkgBars := SMap.set {} id b y.pkgBars }
  | _ => s.modCtx x fun y => { y with podBars := SMap.set {} id b y.podBars }

/-- The phases a barrier completes when arrivals stand against its expected count (R182): the barrier, and how many. -/
def Barrier.complete (b : Barrier) : Barrier × Nat :=
  if b.expected = 0 then (b, 0)
  else
    let n := b.arrived / b.expected
    ({ b with arrived := b.arrived % b.expected, phase := xor b.phase (n % 2 == 1) }, n)

/-- The threads of a list of workgroups that a test of their park picks. -/
def parkedIn (c lc : Nat) (wgs : SMap (Option Workgroup)) (p : Park → Bool) : List Who :=
  wgs.flatMap (fun kv => match kv.2 with
    | some g => (g.threads.filter (fun t => t.2.live && p t.2.park)).map (fun t => .lane c lc (g.hw + t.1 / 32) kv.1 t.1)
    | none => [])

/-- Every lane thread of a context whose park a test picks, on the cores that a test picks: current, evicted or switched
out. -/
def State.parked (s : State) (x : Nat) (core : Nat → Bool) (p : Park → Bool) : List Who :=
  (s.cores.filter (fun kv => core kv.1 && kv.2.owner = some x)).flatMap (fun kv =>
    parkedIn kv.1 (kv.2.lcore.getD 0) kv.2.wgs p ++
    kv.2.saved.flatMap (fun v => match v.2 with
      | some w => parkedIn kv.1 v.1 w.wgs p
      | none => []))

/-- The control threads of a context that are parked as a test picks, current or switched out. -/
def State.parkedCts (s : State) (x : Nat) (core : Nat → Bool) (p : Park → Bool) : List (Nat × Nat) :=
  (s.cores.filter (fun kv => core kv.1 && kv.2.owner = some x)).flatMap (fun kv =>
    (if p kv.2.ct.cur.park then [(kv.1, kv.2.lcId)] else []) ++
    kv.2.saved.flatMap (fun v => match v.2 with
      | some w => if p w.ct.cur.park then [(kv.1, v.1)] else []
      | none => []))

/-- A core lies in the instance of a scope that contains another. -/
def sameInstance (scope c d : Nat) : Bool :=
  match scope with
  | 1 => c == d
  | 2 => quadOf c == quadOf d
  | 3 => dieOf c == dieOf d
  | _ => true

/-- A lane thread's wait is over and acquires at a scope: at once where it is on its core, else when it is restored
(R183, R185, R190). -/
def State.wakeAcquiring (s : State) (who : Who) (scope : Nat) (f : Thread → Thread) : State :=
  if s.isHere who then (s.acquire who.core (s.coreCtx who.core) scope).endWait who f
  else s.endWait who fun t => { (f t) with acquire := if 1 < scope then some (max scope (t.acquire.getD 0)) else t.acquire }

/-- A control thread's wait is over: its instruction completes when it issues again. -/
def State.wakeCt (s : State) (c lc : Nat) : State :=
  s.modCtOf c lc fun t => { t with cur := { t.cur with park := .none, waited := true } }

/-- The waiters of a barrier whose token its phase has left are woken, past their instruction, with an acquire (R182,
R183). A core's barriers are its logical core's (R28). -/
def State.wakeBarrier (s : State) (c lc x scope id : Nat) (p : Bool → Bool) : State :=
  let hit := fun (k : Park) => match k with
    | .barrier sc i tok => sc == scope && i == id && p tok
    | _ => false
  let own := fun (l : Nat) => scope != 1 || l == lc
  let s := ((s.parked x (sameInstance scope c) hit).filter (fun w => own w.lcore)).foldl (fun s w => s.wakeAcquiring w scope (·.past 4)) s
  ((s.parkedCts x (sameInstance scope c) hit).filter (fun q => own q.2)).foldl (fun s q => (s.acquire q.1 x scope).wakeCt q.1 q.2) s

/-- The joiners of a batch now await a token. -/
def State.joinersAwait (s : State) (x : Nat) (scope id batch : Nat) (tok : Bool) : State :=
  let hit := fun (k : Park) => match k with
    | .joining _ _ b => b == batch
    | _ => false
  let s := (s.parked x (fun _ => true) hit).foldl (fun s w => s.changeThread w fun t =>
    { t with park := .barrier scope id tok, capture := some { pc := t.pc, words := [] } }) s
  (s.parkedCts x (fun _ => true) hit).foldl (fun s q =>
    s.modCtOf q.1 q.2 fun t => { t with cur := { t.cur with park := .barrier scope id tok } }) s

/-- A batch of arrivals reaches a barrier (R182): tokens, arrivals, completed phases, and the waiters woken. Where a batch
completes an even number of phases its own joiners may see their token again, as the device chooses. -/
def State.arriveAt (s : State) (c lc x scope id n batch : Nat) : State :=
  let b := s.barrier c lc x scope id
  let tok := b.phase
  let (b', k) := ({ b with arrived := b.arrived + n } : Barrier).complete
  let s := s.setBarrier c lc x scope id b'
  let s := s.modCore c fun y => { y with loads := y.loads.map (fun p =>
    if p.kind == .token && p.id = batch then { p with data := some (some (if tok then 1 else 0)) } else p) }
  let s := if k = 0 then s else s.wakeBarrier c lc x scope id (fun t => t == tok || decide (1 < k))
  let s := s.joinersAwait x scope id batch tok
  if k % 2 = 1 || (0 < k && Config.choice s.steps 20 % 2 = 1) then s.wakeBarrier c lc x scope id (fun t => t == tok) else s

/-- The ids a scope has barriers for (R13) bound the id; another traps ILLEGAL by its field rule. The request of a batch
of arrivals. -/
def arriveMsg (s : State) (who : Who) (x scope id n batch : Nat) : Msg :=
  { who := who, ctx := x, gen := (s.ctx x).gen, va := 0, pa := 0, req := .arrive scope id n n, hw := who.hw, load := some batch, since := s.tick }

/-- The arrivals of an issue set enter their queues, as one batch (R182). -/
def State.startArrivals (s : State) (e : Env) (scope id batch : Nat) (set : List Lane) : State :=
  match set with
  | [] => s
  | l :: _ =>
    let s := s.send (arriveMsg s (e.who l) e.x scope id set.length batch)
    set.foldl (fun s l => s.append e.c l.hw (plainEntry (.arrive batch scope) (e.who l) e.pc 0 0 (s.ctx e.x).gen)) s

/-- The arrival of a control thread. -/
def State.startArrivalCt (s : State) (e : CEnv) (scope id batch : Nat) : State :=
  (s.send (arriveMsg s e.who e.x scope id 1 batch)).appendCt e.c (plainEntry (.arrive batch scope) e.who e.r.pc 0 0 (s.ctx e.x).gen)

/-- The pending token of a `meet.post`. -/
def tokenLoad (s : State) (who : Who) (x : Nat) (i : Instr) (batch : Nat) (pc : DWord) (size : Nat) (dest warp : Option Nat) : Load :=
  { id := batch, kind := .token, who := who, pc := pc, word := (wordOf i).1, va := 0, pa := 0, size := size, signed := false, dest := dest,
    pred := 0, scope := 0, gen := (s.ctx x).gen, data := none, warp := warp }

/-- `meet.post`. -/
def execMeetPost (sc : BitVec 3) (i : BitVec 4) (nw : BitVec 1) (d : BitVec 6) (g : BitVec 3) (s : State) : Host.Outcome State Fault Refusal :=
  let ins : Instr := .meetPost sc i nw d g
  .next (issue ins { g := g, regs := destRegs nw d, b3 := true } s
    (fun e set s =>
      if !e.cr.roomFor set then s
      else
        let b := s.fresh
        let s := b.2.startArrivals e sc.toNat i.toNat b.1 set
        (set.foldl (fun s l => s.addLoad e.c (tokenLoad s (e.who l) e.x ins b.1 e.pc 4 (destOf nw d) (some e.k))) s).advance e 4 false)
    (fun e s =>
      if !e.cr.room ctQueue 1 then s
      else
        let b := s.fresh
        let s := b.2.startArrivalCt e sc.toNat i.toNat b.1
        (s.addLoad e.c (tokenLoad s e.who e.x ins b.1 e.r.pc 8 (destOf nw d) (some e.r.tag))).advanceCt e 4))

/-- `meet.await`. -/
def execMeetAwait (sc : BitVec 3) (i : BitVec 4) (k : BitVec 6) (g : BitVec 3) (s : State) : Host.Outcome State Fault Refusal :=
  .next (issue (.meetAwait sc i k g) { g := g, regs := [k.toNat] } s
    (fun e set s =>
      let phase := (s.barrier e.c e.cr.lcId e.x sc.toNat i.toNat).phase
      let s := s.reach e set
      let tok := fun l => (e.reg l k.toNat).getLsbD 0
      let (wait, go) := set.partition (fun l => phase == tok l)
      let s := if go.isEmpty then s else s.acquire e.c e.x sc.toNat
      if wait.isEmpty then s.advance e 4 true else s.parkSet e wait 4 (fun l => .barrier sc.toNat i.toNat (tok l)))
    (fun e s =>
      let tok := (e.r.reg k.toNat).getLsbD 0
      if e.r.waited || (s.barrier e.c e.cr.lcId e.x sc.toNat i.toNat).phase != tok then (s.acquire e.c e.x sc.toNat).advanceCt e 4
      else s.parkCt e.c (.barrier sc.toNat i.toNat tok)))

/-- `meet.join`. -/
def execMeetJoin (sc : BitVec 3) (i : BitVec 4) (g : BitVec 3) (s : State) : Host.Outcome State Fault Refusal :=
  .next (issue (.meetJoin sc i g) { g := g } s
    (fun e set s =>
      if !e.cr.roomFor set then s
      else if set.isEmpty then s.advance e 4 true
      else
        let b := s.fresh
        (b.2.startArrivals e sc.toNat i.toNat b.1 set).parkSet e set 4 (fun _ => .joining sc.toNat i.toNat b.1))
    (fun e s =>
      if e.r.waited then s.advanceCt e 4
      else if !e.cr.room ctQueue 1 then s
      else
        let b := s.fresh
        (b.2.startArrivalCt e sc.toNat i.toNat b.1).parkCt e.c (.joining sc.toNat i.toNat b.1)))

/-! ### Wait-until -/

/-- Ticks of a timeout class (R184). -/
def timeoutTicks (k : BitVec 3) : Nat := 2048 * 8 ^ (k.toNat - 1)

/-- The deadline of a wait issued now. -/
def deadlineOf (tick : DWord) (k : BitVec 3) : Option DWord := if k = 0 then none else some (tick + BitVec.ofNat 64 (timeoutTicks k))

/-- The sources of `waitu`. -/
def waituParts (f : WaituForm) : List Part := [.code f.p 1, .regs (2 * f.n.toNat) 2]

/-- A wait as it enters its store queue. -/
def newWait (f : WaituForm) (id : Nat) (s : State) (who : Who) (x : Nat) (pc va : DWord) (pa : Nat) (v : Word) : Wait :=
  { id := id, who := who, ctx := x, gen := (s.ctx x).gen, va := va, pa := pa, cmp := f.c, x := v, scope := f.s.toNat, st := f.t.toNat, pc := pc,
    deadline := deadlineOf s.tick f.m }

/-- A wait is registered with its issuer and enters a store queue. -/
def State.startWait (s : State) (c q : Nat) (w : Wait) : State :=
  ({ s with waits := s.waits ++ [w] } : State).append c q (plainEntry (.wait w.id) w.who w.pc w.va w.pa w.gen)

/-- `waitu`. -/
def execWaitu (f : WaituForm) (s : State) : Host.Outcome State Fault Refusal :=
  let ps := waituParts f
  .next (issue (.waitu f) { regs := codeRegs f.p ++ baseRegs f.n, lat := codeLat f.p, preds := f.t != 0 } s
    (fun e set s =>
      let va := fun l => BitVec.ofNat 64 (e.sourceNat l ps 1)
      match s.checkVec e (.waitu f) set (fun l => s.waitTrap e.c e.x (va l)) (fun l => [(va l, 4)]) true true with
      | some s => s
      | none =>
        let pa := fun l => s.residentAt e.c e.x (va l)
        let ok := set.filter (fun l => (pa l).isSome)
        if !e.cr.roomFor ok then s
        else
          let s1 := ok.foldl (fun s l =>
            let id := s.fresh
            let s := id.2.startWait e.c l.hw (newWait f id.1 s (e.who l) e.x e.pc (va l) ((pa l).getD 0) (BitVec.ofNat 32 (e.sourceNat l ps 0)))
            s.modThread e.c e.ws l.tid fun t => { t with park := .waitu id.1, reached := true,
                                                         capture := some { pc := e.pc, words := e.captureOf l ps } }) s
          match absentOf e set pa va ps with
          | [] => s1.endIssue e true
          | ls => (s1.performAll e (.waitu f) (ls.map (fun p => (p.1, p.2.1, p.2.2.1, .hardware p.2.2.2))) e.pc).getD s)
    (fun e s =>
      let a := e.base f.n
      if e.r.waited then s.advanceCt e 4
      else match s.checkCt e (s.waitTrap e.c e.x a) [(a, 4)] true true with
      | some s => s
      | none =>
        match s.residentAt e.c e.x a with
        | none => s.effectCt e.c effPAGEABSENT (pageArg a)
        | some pa =>
          if !e.cr.room ctQueue 1 then s
          else
            let id := s.fresh
            (id.2.startWait e.c ctQueue (newWait f id.1 s e.who e.x e.r.pc a pa (e.operand f.p).lo)).parkCt e.c (.waitu id.1)))

end Sys2Proof.Machine
end

