-- ==== Sys2Proof/Machine/Effects.lean ====
section
/-! DEFINITION. The eff group (R195-R205, R395): performing, pushing and popping handler frames, resuming and abandoning. -/

namespace Sys2Proof.Machine

/-! ### Held entries (R396) -/

/-- A held entry is sent again. -/
def State.resendHeld (s : State) (c hw : Nat) (who : Who) : State :=
  match s.heldHead c hw who with
  | some q => s.modCore c fun y => y.setQueue hw ({ q with phase := .queued } :: (y.queue hw).tail)
  | none => s

/-- The first pending result of a thread of a kind, without data, completes with zero. -/
def zeroLoad (k : PendKind) (who : Who) (id : Option Nat) : List Load → List Load
  | [] => []
  | p :: ps =>
    if p.kind == k && p.who == who && p.data.isNone && (id.isNone || id == some p.id) then { p with data := some (some 0) } :: ps
    else p :: zeroLoad k who id ps

/-- An arrival that is not made leaves its batch (R396). -/
def State.dropArrival (s : State) (batch : Nat) : State :=
  { s with net := s.net.map (fun m => match m.req with
    | .arrive sc id n left => if m.load = some batch then { m with req := .arrive sc id (n - 1) (left - 1) } else m
    | _ => m) }

/-- The head entry leaves, with the writes that make up the rest of its record. -/
def State.dropEntry (s : State) (c hw : Nat) : List Entry → State
  | [] => s
  | q :: qs => if q.more then (s.dropHead c hw).dropEntry c hw qs else s.dropHead c hw

/-- A held entry is discarded: a register write it owed completes with zero, and later loads wait for it no longer
(R396). -/
def State.discardHeld (s : State) (c hw : Nat) (who : Who) : State :=
  match s.heldHead c hw who with
  | none => s
  | some q =>
    let s := s.dropEntry c hw ((s.core c).queue hw)
    let zero := fun (s : State) (k : PendKind) (id : Option Nat) => s.modCore c fun y => { y with loads := zeroLoad k who id y.loads }
    match q.kind with
    | .atomic _ _ _ _ _ _ (some _) => zero s .atomic none
    | .drain id => zero s .bag (some id)
    | .query _ id => zero s .bag (some id)
    | .bagOp _ id => zero s .bag (some id)
    | .arrive batch _ => (zero s .token (some batch)).dropArrival batch
    | .fence _ => s.lowerHold who
    | .span _ _ true => s.lowerHold who
    | _ => s

/-! ### Frames (R197-R199) -/

/-- The frames on chip: the four highest (R197). -/
def onChipOf (fs : List Frame) : Nat := min 4 fs.length

/-- A thread with another handler stack. -/
def Thread.setFrames (t : Thread) (fs : List Frame) : Thread := { t with frames := fs, onChip := onChipOf fs }

/-- `perform`. -/
def execPerform (f : PerformForm) (s : State) : Host.Outcome State Fault Refusal :=
  let i : Instr := .perform f
  .next (issue i { g := f.g, regs := codeRegs f.a ++ destRegs f.w f.d, lat := codeLat f.a } s
    (fun e set s =>
      let id := (((s.stageOf e.g).bind (fun st => st.effects[f.e.toNat]?)).getD 0).toNat
      if set.isEmpty then s.advance e 4 true
      else if e.g.nregs < 64 then s.trapWarp e i trapREGRANGE set
      else if id < 32 || id = 255 then s.trapWarp e i trapILLEGAL set
      else ((s.goOn e 4).performAll e i (set.map (fun l => (l, id, e.operand .int l f.a, .perform f.d f.w))) (pc48 (e.pc + 4))).getD s)
    (fun _ s => s))

/-- The live registers of a handler entry (R196). -/
def State.liveRegs (s : State) (g : Workgroup) (name : Nat) : List Nat := setBits (s.handler g name).2.2

/-- The bytes of a continuation record with n live registers (R198). -/
def contBytes (n : Nat) : Nat := roundup16 (24 + 4 * n)

/-- Where a push puts its spill image, and the stack pointer it leaves (R198). -/
def pushAddrs (t : Thread) (multi : Bool) (live : Nat) : DWord × DWord :=
  let a := if t.onChip = 4 then t.sp - 32 else t.sp
  (a, if multi then a - BitVec.ofNat 64 (contBytes live) else a)

/-- Every page of a range of the stack is present and writable, and holds no bag's header (R126, R198). -/
def State.stackPages (s : State) (c x : Nat) (a : DWord) (n : Nat) : Bool :=
  n = 0 || ([a, a + BitVec.ofNat 64 (n - 1)]).all (fun v => canonical v && (match s.xlate c x v with
    | some t => t.grants permW && s.ownsFrame x t.pa && !s.isHeader t.pa
    | none => false))

/-- The trap of a push for a thread (R198). -/
def State.pushTrap (s : State) (e : Env) (f : HpushForm) (l : Lane) : Option Nat :=
  let t := e.thread l
  let multi := f.m == 1#1
  let live := s.liveRegs e.g f.h.toNat
  if t.frames.length = 64 || (s.handler e.g f.h.toNat).1 == 0xFFFFFFFF then some trapILLEGAL
  else if multi && live.any (fun k => decide (e.g.nregs ≤ k)) then some trapREGRANGE
  else
    let a := pushAddrs t multi live.length
    if !s.stackPages e.c e.x a.2 ((t.sp - a.2).toNat) then some trapADDR else none

/-- A thread pushes a frame; none while its queue has no room for the spill image. -/
def State.push (s : State) (e : Env) (f : HpushForm) (l : Lane) : Option State :=
  let t := e.thread l
  let multi := f.m == 1#1
  let a := pushAddrs t multi (s.liveRegs e.g f.h.toNat).length
  let fr : Frame := { eff := f.e7 ++ f.e, serial := t.serialC, multi := multi, armed := false, name := f.h, cdepth := t.depth, pdepth := 0,
                      ptop := 0, hide := 0, handling := false, sp0 := t.sp, record := if multi then a.2 else 0 }
  let done := fun (s : State) => s.modThread e.c e.ws l.tid fun t =>
    { (t.setFrames (fr :: t.frames)) with serialC := t.serialC + 1, sp := a.2 }
  if t.onChip = 4 then
    if !(s.core e.c).room l.hw 1 then none
    else (s.ownWrites e.c l.hw (e.who l) e.pc a.1 ((t.frames.getD 3 default).image)).map done
  else some (done s)

/-- `hpush`. -/
def execHpush (f : HpushForm) (s : State) : Host.Outcome State Fault Refusal :=
  .next (issue (.hpush f) { g := f.g } s
    (fun e set s =>
      match s.checkVec e (.hpush f) set (s.pushTrap e f)
          (fun l => if (e.thread l).onChip = 4 then [((e.thread l).sp - 32, 32)] else []) true true with
      | some s => s
      | none => ((set.foldl (fun acc l => acc.bind fun s => s.push e f l) (some s)).map (fun s => s.advance e 4 false)).getD s)
    (fun _ s => s))

/-- The frame may not be popped (R199). -/
def Frame.fixed (f : Frame) : Bool := f.hide != 0 || f.handling

/-- What an instruction on its frames comes to for a thread. -/
inductive Framed where
  | wait
  | trap (code : Nat) (va : DWord)
  | go (s : State)

/-- What a thread does with its handler stack, read down to an index. -/
def FrameRead.then_ (r : FrameRead) (f : List Frame → State → Framed) : Framed :=
  match r with
  | .wait => .wait
  | .trap code va => .trap code va
  | .frames fs s => f fs s

/-- The images that popping the highest m frames of a handler stack brings on chip, as accesses (R199, R374). -/
def reloads (fs : List Frame) (m : Nat) : List Span :=
  ((fs.take m).zipIdx.filter (fun p => decide (p.2 + 4 < fs.length))).map (fun p => (p.1.sp0 - 32, 32))

/-- A thread pops the highest m frames of its handler stack, unless a watchpoint matches an image that it reloads (R374, R375). -/
def Env.unwatched (e : Env) (l : Lane) (fs : List Frame) (m : Nat) (k : Framed) : Framed :=
  let mask := if (e.thread l).watched then 0 else (reloads fs m).foldl (fun m a => Nat.lor m (e.cr.watchMask a.1 a.2 true true)) 0
  if mask = 0 then k else .trap trapWATCH (BitVec.ofNat 64 mask)

/-- An instruction on the frames of an issue set: any trap first, of those the watchpoints' last (R375), then every thread's part, once none has
to wait. -/
def State.frameSet (s : State) (e : Env) (i : Instr) (set : List Lane) (ends : Bool) (one : State → Lane → Framed) : State :=
  let bad := set.filterMap (fun l => match one s l with
    | .trap code va => some (l, code, va)
    | _ => none)
  match bad.filter (fun p => p.2.1 ≠ trapWATCH) ++ bad.filter (fun p => p.2.1 = trapWATCH) with
  | (_, code, _) :: _ =>
    let hit := bad.filter (fun p => p.2.1 = code)
    s.trapWarp e i code (hit.map (·.1)) (fun l => match hit.find? (·.1 == l) with
      | some p => (p.2.2.lo, p.2.2.hi)
      | none => (0, 0))
  | [] =>
    ((set.foldl (fun acc l => acc.bind fun s => match one s l with
      | .go s => some s
      | _ => none) (some (s.goOn e 4))).map (fun s => s.endIssue e ends)).getD s

/-- `hpop` of one thread: the deepest frame that is not on chip is read back from the stack (R199). -/
def State.popOne (s : State) (e : Env) (l : Lane) : Framed :=
  match (e.thread l).frames with
  | [] => .trap trapILLEGAL 0
  | f :: _ =>
    if f.fixed then .trap trapILLEGAL 0
    else (s.framesTo e.c l.hw (e.thread l).frames 4).then_ fun fs s =>
      e.unwatched l fs 1 (.go (s.modThread e.c e.ws l.tid fun t => { (t.setFrames fs.tail) with sp := f.sp0 }))

/-- `hpop`. -/
def execHpop (g : BitVec 3) (s : State) : Host.Outcome State Fault Refusal :=
  .next (issue (.hpop g) { g := g } s
    (fun e set s => s.frameSet e (.hpop g) set false (fun s l => s.popOne e l))
    (fun _ s => s))

/-! ### Tokens (R202) -/

/-- The index from the top of the frame whose depth a token names; none where no frame has that depth (R202). -/
def tokenIndex (fs : List Frame) (w : Word) : Option Nat :=
  if w.toNat / 2 ^ 24 < fs.length then some (fs.length - 1 - w.toNat / 2 ^ 24) else none

/-- A token is live: it names the frame, whose serial it holds, and its kind is one asked for (R202). -/
def Frame.takesToken (f : Frame) (w : Word) (multi : Option Bool) : Bool :=
  w.toNat % 128 == 0 && (multi.isNone || multi == some (w.getLsbD 7)) && f.armed && f.serial == (w >>> 8).setWidth 16

/-- What a thread does with the frame that a live token names: its index from the top, and the handler stack read as far down as a number of
frames below that index. -/
def State.withToken (s : State) (e : Env) (l : Lane) (w : Word) (multi : Option Bool) (below : Nat) (f : Nat → List Frame → State → Framed) :
    Framed :=
  match tokenIndex (e.thread l).frames w with
  | none => .trap trapTOKENSTALE 0
  | some n => (s.framesTo e.c l.hw (e.thread l).frames (n + below)).then_ fun fs s =>
    if (fs.getD n default).takesToken w multi then f n fs s else .trap trapTOKENSTALE 0

/-! ### Resuming (R203, R395) -/

/-- The frames that stay when those above a depth are popped, and the stack pointer that leaves; none where one of them
may not be popped (R199, R203). -/
def popTo (top : Nat) (sp : DWord) : List Frame → Option (List Frame × DWord)
  | [] => some ([], sp)
  | f :: fs => if fs.length ≤ top then some (f :: fs, sp) else if f.fixed then none else popTo top f.sp0 fs

/-- The frames after a frame stops handling: those up to ptop are hidden once less (R203). `n` is its index from the
top. -/
def unhide (fs : List Frame) (n : Nat) : List Frame :=
  match fs[n]? with
  | none => fs
  | some f =>
    let low := fs.length - 1 - n
    fs.zipIdx.map (fun p =>
      let d := fs.length - 1 - p.2
      let g := if f.handling && decide (low ≤ d ∧ d ≤ f.ptop.toNat) then { p.1 with hide := p.1.hide - 1 } else p.1
      if p.2 = n then { g with handling := false } else g)

/-- A d word's destination with the value, unless suppressed. -/
def resumed (dw v : Word) : List (Nat × Word) := if dw.getLsbD 6 then [] else [(dw.toNat % 64, v)]

/-- The handler stack after the frames above F.ptop are popped and F stops handling, F's index from the top in it, and the stack pointer the
pops leave; the frames that come on chip are read back (R199, R203). `n` is F's index from the top before. -/
def State.unwound (s : State) (e : Env) (l : Lane) (n : Nat) (fs : List Frame) (k : Nat → List Frame → List Frame → DWord → State → Framed) : Framed :=
  let f := fs.getD n default
  let low := fs.length - 1 - n
  (s.framesTo e.c l.hw fs (max n (fs.length - 1 - f.ptop.toNat + 3))).then_ fun fs s =>
    match popTo f.ptop.toNat (e.thread l).sp fs with
    | none => .trap trapILLEGAL 0
    | some (left, sp) =>
      let m := left.length - 1 - low
      e.unwatched l fs (fs.length - left.length) (k m left (unhide left m) sp s)

/-- A thread resumes: images of frames that change below the four highest are written, then its registers and its thread change (R203), once the
results in flight to those registers have come (R48). What `again` says to re-execute the instruction of a hardware effect is no transfer
(R377). -/
def State.resumeTo (s : State) (e : Env) (l : Lane) (old new : List Frame) (regs : List (Nat × Word)) (pc : DWord) (again : Bool)
    (f : Thread → Thread) : Framed :=
  let ims := deepWrites old new
  if (!ims.isEmpty && !(s.core e.c).room l.hw 1) || (s.core e.c).owes (e.who l) (regs.map (·.1)) then .wait
  else match s.ownImages e.c l.hw (e.who l) e.pc false ims with
    | none => .trap trapADDR 0
    | some s =>
      let s := (s.modThread e.c e.ws l.tid fun t => f { (t.setFrames new) with pc := pc }).modCore e.c fun y =>
        regs.foldl (fun y p => y.setReg l.hw p.1 l.lane p.2) y
      .go (if again then s else s.transfer e.c e.ws l.tid e.pc pc)

/-- `resume` of one thread (R203, R395). -/
def State.resumeOne (s : State) (e : Env) (l : Lane) (tok v : Word) : Framed :=
  s.withToken e l tok (some false) 0 fun n fs s =>
  let f := fs.getD n default
  s.unwound e l n fs fun m left new sp s =>
    if sp != f.record then .trap trapILLEGAL 0
    else
      let len := f.want.getD 0
      match s.readRec e.c l.hw f.record (4 + len / 4) with
      | .wait => .wait
      | .trap code va => .trap code va
      | .words ws s =>
        let pc := dword (ws.getD 0 0) (ws.getD 1 0)
        let wr := resumed (ws.getD 2 0) v
        if f.want.isSome && (ws.getD 3 0).toNat != len then .trap trapILLEGAL 0
        else if wr.any (fun p => decide (e.g.nregs ≤ p.1)) then .trap trapREGRANGE 0
        else match targetTrap pc with
          | some code => .trap code 0
          | none =>
            let cap := ws.drop 4
            let r := s.resumeTo e l left (new.modify m (fun f => { f with armed := false, remote := false })) (if f.want.isSome then [] else wr) pc (f.want.isSome && !f.remote)
              fun t => { t with sp := f.record + BitVec.ofNat 64 (roundup16 (16 + len)), depth := f.pdepth,
                                capture := if cap.isEmpty then none else some { pc := pc, words := cap } }
            match r with
            | .go s => .go (if f.remote then s.resendHeld e.c l.hw (e.who l) else s)
            | r => r

/-- `resume.m` of one thread (R203, R395). -/
def State.resumeMany (s : State) (e : Env) (l : Lane) (tok v : Word) : Framed :=
  s.withToken e l tok (some true) 0 fun n fs s =>
  let f := fs.getD n default
  s.unwound e l n fs fun _ left new _ s =>
    let live := s.liveRegs e.g f.name.toNat
    match s.readRec e.c l.hw f.record (6 + live.length) with
    | .wait => .wait
    | .trap code va => .trap code va
    | .words ws s =>
      let pc := dword (ws.getD 0 0) (ws.getD 1 0)
      let sp := dword (ws.getD 2 0) (ws.getD 3 0)
      let wr := live.zip (ws.drop 6) ++ resumed (ws.getD 4 0) v
      if wr.any (fun p => decide (e.g.nregs ≤ p.1)) then .trap trapREGRANGE 0
      else match (targetTrap pc).or (if !canonical sp then some trapADDR else if sp.toNat % 16 ≠ 0 then some trapALIGN else none) with
        | some code => .trap code 0
        | none =>
          s.resumeTo e l left new wr pc false fun t => { t with sp := sp, depth := f.pdepth, preds := (ws.getD 5 0).setWidth 8 ||| 1 }

/-- The resumption of an issue set. -/
def State.resumeSet (s : State) (e : Env) (i : Instr) (set : List Lane) (one : State → Lane → Framed) : State :=
  if set.isEmpty then s.advance e 4 true else s.frameSet e i set true one

/-- `resume`. -/
def execResume (a : BitVec 7) (k : BitVec 6) (g : BitVec 3) (s : State) : Host.Outcome State Fault Refusal :=
  .next (issue (.resume a k g) { g := g, regs := codeRegs a ++ [k.toNat], lat := codeLat a } s
    (fun e set s => s.resumeSet e (.resume a k g) set (fun s l => s.resumeOne e l (e.reg l k.toNat) (e.operand .int l a)))
    (fun _ s => s))

/-- `resume.m`. -/
def execResumeM (a : BitVec 7) (k : BitVec 6) (g : BitVec 3) (s : State) : Host.Outcome State Fault Refusal :=
  .next (issue (.resumeM a k g) { g := g, regs := codeRegs a ++ [k.toNat], lat := codeLat a } s
    (fun e set s => s.resumeSet e (.resumeM a k g) set (fun s l => s.resumeMany e l (e.reg l k.toNat) (e.operand .int l a)))
    (fun _ s => s))

/-- A thread abandons to the exit of the frame that its token names: the frames from it up are popped, and those that come on chip are read
back (R204). -/
def State.abandonOne (s : State) (e : Env) (l : Lane) (tok : Word) : Framed :=
  s.withToken e l tok none 4 fun n fs s =>
    let f := fs.getD n default
    let pc := s.stagePc e.g (s.handler e.g f.name.toNat).2.1
    let held := (fs.take (n + 1)).any (fun f => f.remote && f.armed)
    let s := s.modThread e.c e.ws l.tid fun t => { (t.setFrames (fs.drop (n + 1))) with sp := f.sp0, depth := f.cdepth, pc := pc }
    let s := s.transfer e.c e.ws l.tid e.pc pc
    e.unwatched l fs (n + 1) (.go (if held then s.discardHeld e.c l.hw (e.who l) else s))

/-- `abandon`. -/
def execAbandon (k : BitVec 6) (g : BitVec 3) (s : State) : Host.Outcome State Fault Refusal :=
  .next (issue (.abandon k g) { g := g, regs := [k.toNat] } s
    (fun e set s => s.frameSet e (.abandon k g) set true (fun s l => s.abandonOne e l (e.reg l k.toNat)))
    (fun _ s => s))

end Sys2Proof.Machine
end

