-- ==== Sys2Proof/Machine/Qctl.lean ====
section
/-! DEFINITION. The qctl group (R118-R122): circular buffers, completion barriers, flags and queues. -/

namespace Sys2Proof.Machine

/-- A core-scope release: the home warps of an issue set have drained their store queues into L1 (R82). -/
def Core.drained (y : Core) (set : List Lane) : Bool := set.all (fun l => (y.queue l.hw).isEmpty)

/-- A circular buffer of a core. -/
def Core.cbuf (y : Core) (n : Nat) : CBuf := SMap.get {} n y.cbufs

/-- Put a circular buffer. -/
def Core.setCbuf (y : Core) (n : Nat) (b : CBuf) : Core := { y with cbufs := SMap.set {} n b y.cbufs }

/-- A completion barrier of a core. -/
def Core.cbar (y : Core) (n : Nat) : CBarrier := SMap.get {} n y.cbars

/-- Put a completion barrier. -/
def Core.setCbar (y : Core) (n : Nat) (b : CBarrier) : Core := { y with cbars := SMap.set {} n b y.cbars }

/-- The address of the slot at the pop index, with its fault code (R119). -/
def CBuf.popAddr (b : CBuf) : Word :=
  let a := b.base + b.pop * b.size
  let f := SMap.get 0 b.pop b.codes
  BitVec.ofNat 32 (if f = 0 then a else Nat.lor (Nat.lor a 0x80000000) (f * 2 ^ 24))

/-- The buffer after a pop. -/
def CBuf.popped1 (b : CBuf) : CBuf := { b with pop := (b.pop + 1) % b.count, filled := b.filled - 1, popped := b.popped + 1 }

/-- The buffer after a release, where a slot has been popped and not released (R120). -/
def CBuf.release (b : CBuf) : CBuf :=
  if b.popped = 0 then b else { b with rel := (b.rel + 1) % b.count, free := b.free + 1, popped := b.popped - 1 }

/-- A register result of a blocking instruction: the run ends, so no latch keeps it (R23). -/
def State.resultEnd (s : State) (e : Env) (set : List Lane) (f : Lane → List (Nat × Word)) : State :=
  (s.deliver e 3 (set.map (fun l => (l, f l, 0)))).advance e 4 true

/-- `qpop`. -/
def execQpop (q : BitVec 4) (nw : BitVec 1) (d : BitVec 6) (g : BitVec 3) (s : State) : Host.Outcome State Fault Refusal :=
  .next (issue (.qpop q nw d g) { g := g, regs := destRegs nw d } s
    (fun e set s =>
      let b := e.cr.cbuf q.toNat
      if set.isEmpty then s.advance e 4 true
      else if b.filled = 0 then s.parkSet e set 4 (fun _ => .qpop q.toNat)
      else (s.modCore e.c (·.setCbuf q.toNat b.popped1)).resultEnd e set (fun _ => oneReg nw d b.popAddr))
    (fun e s =>
      let b := e.cr.cbuf q.toNat
      if b.filled = 0 then s.parkCt e.c (.qpop q.toNat)
      else (s.modCore e.c (·.setCbuf q.toNat b.popped1)).resultCt e 4 d.toNat (b.popAddr.setWidth 64)))

/-- `qrel`: a release at core scope. -/
def execQrel (q : BitVec 4) (g : BitVec 3) (s : State) : Host.Outcome State Fault Refusal :=
  .next (issue (.qrel q g) { g := g } s
    (fun e set s =>
      if set.isEmpty then s.advance e 4 false
      else if !e.cr.drained set then s
      else (s.modCore e.c fun y => y.setCbuf q.toNat (y.cbuf q.toNat).release).advance e 4 false)
    (fun e s =>
      if !(e.cr.queue ctQueue).isEmpty then s
      else (s.modCore e.c fun y => y.setCbuf q.toNat (y.cbuf q.toNat).release).advanceCt e 4))

/-- The counters of a circular buffer as R32's word 3. -/
def CBuf.stat (b : CBuf) : Word := BitVec.ofNat 32 (b.filled * 65536 + b.free)

/-- `qstat`. -/
def execQstat (q : BitVec 4) (nw : BitVec 1) (d : BitVec 6) (g : BitVec 3) (s : State) : Host.Outcome State Fault Refusal :=
  .next (issue (.qstat q nw d g) { g := g, regs := destRegs nw d, b3 := true } s
    (fun e set s => s.result e set 3 4 fun _ => (oneReg nw d (e.cr.cbuf q.toNat).stat, (e.cr.cbuf q.toNat).stat))
    (fun e s => s.resultCt e 4 d.toNat ((e.cr.cbuf q.toNat).stat.setWidth 64)))

/-- The status word of a completion barrier (R121). -/
def CBarrier.status (b : CBarrier) : Word := if b.error then BitVec.ofNat 32 (0x80000000 + b.code) else 0

/-- The commands that a wait on a barrier takes in (R121): those aimed at it that the core's engines hold or that stand
in the waiter's own queue, and, for `cwait`, every command of that queue. -/
def State.awaited (s : State) (c bar : Nat) (own : List Entry) : List Nat :=
  ((s.engineCommands c ++ queueCommands own).filter (fun d => d.bar = bar && !d.toQueue)).map (·.id)

/-- Commands that stand in a waiter's queue. -/
def ownCommands (own : List Entry) : List Nat := (queueCommands own).map (·.id)

/-- The status of a barrier to the threads of an issue set, with its predicate (R121). -/
def State.statusResult (s : State) (e : Env) (set : List Lane) (nw : BitVec 1) (d : BitVec 6) (k : Nat) (v : Word) (ends : Bool) : State :=
  let s := s.deliver e 3 (set.map (fun l => (l, oneReg nw d v, v)))
  (s.eachThread e.c e.ws set fun _ t => t.setPred k (v == 0)).advance e 4 ends

/-- `cwait`: each thread waits once for the commands of its own issue. DESIGN CHOICE (assumption 69): threads of one warp that come from several home
warps wait for the commands in the queues of all of these. -/
def execCwait (f : CwaitForm) (s : State) : Host.Outcome State Fault Refusal :=
  .next (issue (.cwait f) { g := f.g, regs := destRegs f.w f.d, preds := f.k != 0 } s
    (fun e set s =>
      if set.isEmpty then s.advance e 4 true
      else
        let s := s.reach e set
        let b := e.cr.cbar f.c.toNat
        let fresh := set.filter (fun l => (e.captured l).isNone)
        let own := fresh.flatMap (fun m => e.cr.queue m.hw)
        let left := if fresh.isEmpty then [] else (s.awaited e.c f.c.toNat own ++ ownCommands own).eraseDups
        if !left.isEmpty then s.parkSet e fresh 4 (fun _ => .cwait f.c.toNat left) set
        else
          let s1 := s.acquireL1 e.c e.x
          if b.error && f.e == 1#1 then
            ((s1.goOn e 4).performAll e (.cwait f) (set.map (fun m => (m, effENGINEERR, BitVec.ofNat 32 b.code, .hardware []))) e.pc).getD s
          else s1.statusResult e set f.w f.d f.k.toNat b.status true)
    (fun e s =>
      let b := e.cr.cbar f.c.toNat
      let own := e.cr.queue ctQueue
      let left := if e.r.waited then [] else (s.awaited e.c f.c.toNat own ++ ownCommands own).eraseDups
      if !left.isEmpty then s.parkCt e.c (.cwait f.c.toNat left)
      else if b.error && f.e == 1#1 then (s.acquireL1 e.c e.x).effectCt e.c effENGINEERR (BitVec.ofNat 32 b.code)
      else
        let s := (s.acquireL1 e.c e.x).writeFlag e.c f.k.toNat (b.status == 0)
        s.resultCt e 4 f.d.toNat (b.status.setWidth 64)))

/-- The status word of `ctest`: bit 30 where a command remains (R121). -/
def testStatus (b : CBarrier) (left : Bool) : Word := b.status ||| (if left then 0x40000000 else 0)

/-- `ctest`. -/
def execCtest (f : CtestForm) (s : State) : Host.Outcome State Fault Refusal :=
  .next (issue (.ctest f) { g := f.g, regs := destRegs f.w f.d, preds := f.k != 0, b3 := true } s
    (fun e set s =>
      let left := !(s.awaited e.c f.c.toNat (set.flatMap (fun m => e.cr.queue m.hw))).isEmpty
      let s := if left || set.isEmpty then s else s.acquireL1 e.c e.x
      s.statusResult e set f.w f.d f.k.toNat (testStatus (e.cr.cbar f.c.toNat) left) false)
    (fun e s =>
      let left := !(s.awaited e.c f.c.toNat (e.cr.queue ctQueue)).isEmpty
      let v := testStatus (e.cr.cbar f.c.toNat) left
      let s := (if left then s else s.acquireL1 e.c e.x).writeFlag e.c f.k.toNat (v == 0)
      s.resultCt e 4 f.d.toNat (v.setWidth 64)))

/-- A barrier with its error phase and first code cleared; a faulting completion of the same tick counts as applied after the clear
(R115). -/
def CBarrier.clear (b : CBarrier) (tick : DWord) : CBarrier :=
  match b.faultAt with
  | some (t, code) => if t = tick then { b with error := true, code := code } else { b with error := false, code := 0 }
  | none => { b with error := false, code := 0 }

/-- `cclr`. -/
def execCclr (cb : BitVec 4) (g : BitVec 3) (s : State) : Host.Outcome State Fault Refusal :=
  .next (issue (.cclr cb g) { g := g } s
    (fun e set s =>
      (if set.isEmpty then s else s.modCore e.c fun y => y.setCbar cb.toNat ((y.cbar cb.toNat).clear s.tick)).advance e 4 false)
    (fun e s => (s.modCore e.c fun y => y.setCbar cb.toNat ((y.cbar cb.toNat).clear s.tick)).advanceCt e 4))

/-- A lane writes a flag; where the control thread has written it in the same tick, the flag ends with the control thread's value (R210). -/
def State.laneFlag (s : State) (c k : Nat) (v : Bool) : State :=
  if SMap.get none k (s.core c).flagAt = some s.tick then s else s.writeFlag c k v

/-- The control thread writes a flag (R210). -/
def State.ctFlag (s : State) (c k : Nat) (v : Bool) : State :=
  (s.modCore c fun y => { y with flagAt := SMap.set none k (some s.tick) y.flagAt }).writeFlag c k v

/-- `fset` and `fset.z` of the lanes: a release at core scope. -/
def execFset (z : BitVec 1) (fl : BitVec 5) (g : BitVec 3) (s : State) : Host.Outcome State Fault Refusal :=
  .next (issue (.fset z fl g) { g := g } s
    (fun e set s =>
      if set.isEmpty then s.advance e 4 false
      else if !e.cr.drained set then s
      else (s.laneFlag e.c fl.toNat (z == 0#1)).advance e 4 false)
    (fun _ s => s))

/-- `fwait` and `fwait.z` of the lanes. -/
def execFwait (z : BitVec 1) (fl : BitVec 5) (g : BitVec 3) (s : State) : Host.Outcome State Fault Refusal :=
  .next (issue (.fwait z fl g) { g := g } s
    (fun e set s =>
      let v := z == 0#1
      let s := s.reach e set
      let wait := set.filter (fun l => (e.captured l).isNone && e.cr.flag fl.toNat != v)
      if wait.isEmpty then s.advance e 4 true else s.parkSet e wait 4 (fun _ => .flag fl.toNat v))
    (fun _ s => s))

/-- `qrv`: an entry of the CT-to-lane queue to every thread of the issue set. -/
def execQrv (nw : BitVec 1) (d : BitVec 6) (g : BitVec 3) (s : State) : Host.Outcome State Fault Refusal :=
  .next (issue (.qrv nw d g) { g := g, regs := destPair nw d } s
    (fun e set s =>
      if set.isEmpty then s.advance e 4 true
      else match e.cr.toLane with
        | [] => s.parkSet e set 4 (fun _ => .qrv)
        | v :: rest =>
          let s := (s.modCore e.c fun y => { y with toLane := rest }).resultEnd e set (fun _ => oneReg nw d v.lo ++ oneReg nw (d + 1) v.hi)
          if (s.core e.c).ct.cur.park = .qsv then s.modCt e.c fun r => { r with park := .none } else s)
    (fun _ s => s))

/-- `qsv`: the elected thread's entry to the lane-to-CT queue; a release at core scope. -/
def execQsv (a : BitVec 7) (d : BitVec 6) (g : BitVec 3) (s : State) : Host.Outcome State Fault Refusal :=
  .next (issue (.qsv a d g) { g := g, regs := codeRegs a ++ [d.toNat], lat := codeLat a } s
    (fun e set s =>
      match set with
      | [] => s.advance e 4 true
      | l :: _ =>
        let ws := e.sources l [.code a 1, .regs d.toNat 1]
        if !e.cr.drained set then s
        else if 16 ≤ e.cr.toCt.length then
          (s.parkSet e set 4 (fun _ => .qsv)).eachThread e.c e.ws set fun m t =>
            { t with capture := some { pc := e.pc, words := e.captureOf m [.code a 1, .regs d.toNat 1] } }
        else
          let v := dword ((ws.getD 0 []).getD 0 0) ((ws.getD 1 []).getD 0 0)
          let s := (s.modCore e.c fun y => { y with toCt := y.toCt ++ [v] }).advance e 4 true
          if (s.core e.c).ct.cur.park = .qrv then s.modCt e.c fun r => { r with park := .none } else s)
    (fun _ s => s))

end Sys2Proof.Machine
end

