-- ==== Sys2Proof/Machine/Tensor.lean ====
section
/-! DEFINITION. Tensor descriptors (R224, R233-R236), the places of their elements, and how engines read and write those places
(R33, R74, R81, R86, R126, R260, R314, R353). -/

namespace Sys2Proof.Machine

/-! ### The image (R233, R234) -/

/-- Word i of a descriptor's image. -/
def Descriptor.word (d : Descriptor) (i : Nat) : Word := SMap.get 0 i d.words

/-- A field of the control word. -/
def Descriptor.ctl (d : Descriptor) (hi lo : Nat) : Nat := bitsOf (d.word 0).toNat hi lo

/-- The element format (R224). -/
def Descriptor.fmt (d : Descriptor) : Nat := d.ctl 31 28

/-- The number of dimensions. -/
def Descriptor.rank (d : Descriptor) : Nat := d.ctl 27 26 + 1

/-- The kind of base: 0 virtual, 1 scratchpad, 2 on-chip window, 3 register-resident. -/
def Descriptor.bkind (d : Descriptor) : Nat := d.ctl 25 24

/-- Extent k is dynamic. -/
def Descriptor.isDyn (d : Descriptor) (k : Nat) : Bool := (d.ctl 23 20).testBit k

/-- The dynamic extents lie in the scratchpad. -/
def Descriptor.dynsp (d : Descriptor) : Bool := d.ctl 19 19 == 1

/-- The block length along K; 0 for none. -/
def Descriptor.blk (d : Descriptor) : Nat := if d.ctl 18 16 = 0 then 0 else 8 * 2 ^ d.ctl 18 16

/-- The K dimension. -/
def Descriptor.kdim (d : Descriptor) : Nat := d.ctl 15 15

/-- The code table, word 0x04. -/
def Descriptor.codes (d : Descriptor) : Word := d.word 1

/-- The base. -/
def Descriptor.base (d : Descriptor) : DWord := dword (d.word 2) (d.word 3)

/-- The address of the block scales. -/
def Descriptor.scalebase (d : Descriptor) : DWord := dword (d.word 4) (d.word 5)

/-- The extent field of a dimension. -/
def Descriptor.extField (d : Descriptor) (k : Nat) : Nat := (d.word (6 + k)).toNat

/-- The stride of dimension 1, 2 or 3 in bytes. -/
def Descriptor.stride (d : Descriptor) (k : Nat) : Nat := (d.word (9 + k)).toNat

/-- The bytes between rows of scales. -/
def Descriptor.sstride (d : Descriptor) : Nat := (d.word 13).toNat

/-- The address of the dynamic extent words. -/
def Descriptor.dynaddr (d : Descriptor) : DWord := dword (d.word 14) (d.word 15)

/-- Bits of an element of a format (R224). -/
def fmtBits (fmt : Nat) : Nat :=
  match fmt with
  | 0 => 32
  | 1 => 16
  | 2 => 16
  | 4 => 32
  | 6 => 4
  | _ => 8

/-- Bytes of an element; 1 for DS4, whose elements are nibbles. -/
def Descriptor.bytes (d : Descriptor) : Nat := max 1 (fmtBits d.fmt / 8)

/-- DS4. -/
def Descriptor.four (d : Descriptor) : Bool := d.fmt == 6

/-- DS8 or DS4. -/
def Descriptor.isDs (d : Descriptor) : Bool := d.fmt == 5 || d.fmt == 6

/-- An address lies outside what its kind of space allows (R235). -/
def spaceBad (kind : Nat) (a : DWord) : Bool :=
  match kind with
  | 0 => !canonical a
  | 1 => decide (0x80000 ≤ a.toNat)
  | 2 => (match placeOf a.toNat with
    | .onchip _ => false
    | _ => true)
  | _ => false

/-- An image is invalid (R235). The base is a multiple of the element size in every kind (DEDUCED, assumption 43); of a register-resident one,
a register number, bits [63:6] are 0 (R234). -/
def Descriptor.bad (d : Descriptor) : Bool :=
  let n := d.bytes
  d.ctl 14 0 != 0 || (d.word 1).toNat / 2 ^ 28 != 0 || decide (7 < d.fmt) || decide (4 < d.ctl 18 16) ||
  (d.isDs == (d.blk == 0)) || (d.isDs && decide (2 < d.rank)) ||
  (List.range 4).any (fun k => if k < d.rank then !d.isDyn k && d.extField k == 0 else d.extField k != 1) ||
  (span 1 3).any (fun k => (decide (d.rank ≤ k) && d.stride k != 0) || d.stride k % n != 0) ||
  d.base.toNat % n != 0 || (if d.bkind = 3 then d.base.toNat / 64 != 0 else spaceBad d.bkind d.base) ||
  d.scalebase.toNat % n != 0 ||
  (d.isDs && (spaceBad (if d.bkind = 3 then 1 else d.bkind) d.scalebase || decide (d.sstride < ceilDiv (d.extField d.kdim) d.blk))) ||
  (d.ctl 23 20 != 0 && d.dynaddr.toNat % 4 != 0)

/-- The descriptor written from an image of 16 words (R214, R235). -/
def Descriptor.ofWords (ws : List Word) : Descriptor :=
  let d : Descriptor := { words := (ws.take 16).zipIdx.foldl (fun m p => SMap.set 0 p.2 p.1 m) [], invalid := false }
  { d with invalid := d.bad }

/-- A descriptor of a context. -/
def State.desc (s : State) (x k : Nat) : Descriptor := SMap.get {} k (s.ctx x).descs

/-- Write a descriptor of a context, in one step (R214). -/
def State.setDesc (s : State) (x k : Nat) (d : Descriptor) : State := s.modCtx x fun y => { y with descs := SMap.set {} k d y.descs }

/-- The descriptor with another base, as a command aimed at a circular buffer takes it (R117). -/
def Descriptor.withBase (d : Descriptor) (a : Nat) : Descriptor :=
  { d with words := SMap.set 0 2 (BitVec.ofNat 32 a) (SMap.set 0 3 (BitVec.ofNat 32 (a / 2 ^ 32)) d.words) }

/-! ### Places of elements -/

/-- An element's coordinates, dimension 0 first. -/
structure Coord where
  c0 : Nat
  c1 : Nat := 0
  c2 : Nat := 0
  c3 : Nat := 0
  deriving DecidableEq, Repr, Inhabited

/-- The byte offset of an element from the base (R234). -/
def Descriptor.offset (d : Descriptor) (c : Coord) : Nat :=
  (if d.four then c.c0 / 2 else c.c0 * d.bytes) + c.c1 * d.stride 1 + c.c2 * d.stride 2 + c.c3 * d.stride 3

/-- A place an engine reads or writes: a virtual address, a byte of a core's scratchpad, a window address, or a byte of the
posting workgroup's registers in the order of R260. -/
inductive Loc where
  | virt (a : Nat)
  | sp (core a : Nat)
  | win (a : Nat)
  | reg (o : Nat)
  deriving DecidableEq, Repr, Inhabited

/-- A place in a kind of space. -/
def Loc.of (kind core a : Nat) : Loc :=
  match kind with
  | 0 => .virt a
  | 1 => .sp core a
  | 2 => .win a
  | _ => .reg a

/-- The byte address of a place. -/
def Loc.addr : Loc → Nat
  | .virt a => a
  | .sp _ a => a
  | .win a => a
  | .reg o => o

/-- The place of an element for a command of a core (R234, R260). -/
def Descriptor.loc (d : Descriptor) (core : Nat) (c : Coord) : Loc :=
  if d.bkind = 3 then .reg (d.base.toNat * 128 + d.offset c) else Loc.of d.bkind core (d.base.toNat + d.offset c)

/-- The place of an element's block scale (R230). -/
def Descriptor.scaleLoc (d : Descriptor) (core : Nat) (c : Coord) : Loc :=
  let o := if d.kdim = 0 then c.c1 * d.sstride + c.c0 / d.blk else c.c0 * d.sstride + c.c1 / d.blk
  Loc.of (if d.bkind = 3 then 1 else d.bkind) core (d.scalebase.toNat + o)

/-! ### Reading and writing -/

/-- The workgroup of the thread that posted a command; none for a control thread (R260). -/
def State.posterWg (s : State) (d : Command) : Option Workgroup :=
  match d.who with
  | .lane c lc _ ws _ => (s.findWg c lc ws).bind (fun g => if g.ctx = d.ctx && g.launch == d.launch then some g else none)
  | _ => none

/-- The register at a byte of the posting workgroup's registers: its thread and number (R260). -/
def State.regPlace (s : State) (d : Command) (o : Nat) : Option (Who × Nat) :=
  match d.who, s.posterWg d with
  | .lane c lc _ ws _, some g =>
    let h := o / 8192
    let k := o % 8192 / 128
    if h < g.warps && decide (k < g.nregs) then some (.lane c lc (g.hw + h) ws (32 * h + o % 128 / 4), k) else none
  | _, _ => none

/-- The cores that a context owns. -/
def State.ownedCores (s : State) (x : Nat) : BitVec 512 := maskOf ((s.cores.filter (fun kv => kv.2.owner == some x)).map (·.1))

/-- A command may reach the windows of a core: its context owned it at acceptance, and has not lost it since (R33). -/
def State.mayReach (s : State) (d : Command) (c : Nat) : Bool := d.mine.getLsbD c && (s.core c).owner == some d.ctx

/-- The translation of an engine's virtual access: the physical address, or the fault code (R84, R314, R72, R116). -/
def State.engineXlate (s : State) (d : Command) (va : Nat) (need : BitVec 3) : Except Nat Nat :=
  let a : DWord := BitVec.ofNat 64 va
  if 2 ^ 64 ≤ va || !canonical a then .error 5 else
  match s.xlate d.core d.ctx a with
  | none => .error (if d.gen = (s.ctx d.ctx).gen then 1 else 4)
  | some t =>
    if !s.grantsAt t need || !s.ownsFrame d.ctx t.pa || (isWindowPa t.pa && s.windowKind t.pa == 3) then .error 2
    else match placeOf t.pa with
      | .outside => .error 6
      | .onchip _ => .error 6
      | _ => .ok t.pa

/-- The word that holds a place, as an engine reads it, or the fault code: a virtual word at its home, past the own die's dirty copy
(R113), or through the die's L2 (R87); a window word where the context owns the core (R33). -/
def State.readLoc (s : State) (d : Command) (viaL2 : Bool) (l : Loc) : Except Nat Word :=
  match l with
  | .virt a =>
    match s.engineXlate d (a / 4 * 4) permR with
    | .error f => .error f
    | .ok pa =>
      if isWindowPa pa then .ok (s.outsideWord pa)
      else
        let die := s.die (dieOf d.core)
        if die.dirtyAt pa || (viaL2 && (die.word pa).isSome) then .ok ((die.word pa).getD 0)
        else if s.homeDown pa then .error 6
        else if s.poisoned pa then .error 3
        else .ok (s.homeWord pa)
  | .sp c a => if 0x80000 ≤ a then .error 5 else .ok ((s.core c).scratch.word (a / 4 * 4))
  | .win a =>
    match placeOf a with
    | .onchip off =>
      let p := windowSlot off
      if s.dieDown (dieOf p.1) then .error 6
      else if !s.mayReach d p.1 then .error 2
      else .ok ((s.core p.1).windowWord p.2)
    | _ => .error 6
  | .reg o =>
    match s.regPlace d o with
    | some (who, k) => .ok (s.readReg who k)
    | none => .error 5

/-- What an engine's read of a place does at its home beside giving the word: the codeword is read there (R345), and a read through a window frame
leaves for its target (R309). -/
def State.touchLoc (s : State) (d : Command) (viaL2 : Bool) (l : Loc) : State :=
  match l with
  | .virt a =>
    match s.engineXlate d (a / 4 * 4) permR with
    | .error _ => s
    | .ok pa =>
      if isWindowPa pa then s.readWindow d.ctx pa 4
      else
        let die := s.die (dieOf d.core)
        if die.dirtyAt pa || (viaL2 && (die.word pa).isSome) || s.homeDown pa then s else s.eccRead pa
  | _ => s

/-- What an engine's reads of places for commands do, in order, up to the first that gives a fault. -/
def State.touchLocs (s : State) (viaL2 : Bool) : List (Command × Loc) → State
  | [] => s
  | (m, l) :: r =>
    let t := s.touchLoc m viaL2 l
    match t.readLoc m viaL2 l with
    | .ok _ => State.touchLocs t viaL2 r
    | .error _ => t

/-- A write of some bytes of a word at its home by an engine (R81). The waits on the word see it once its command's run of elements is written,
since no wait sees a word part old and part new (R113, R152). -/
def State.storeQuiet (s : State) (pa : Nat) (w : Word) (be : BitVec 4) : State :=
  let s := (s.recall pa).dropCopies pa
  let v := mergeBytes (s.homeWord pa) w be
  (s.notePast pa v).putHome pa v

/-- The byte-enabled word written at a place by an engine, or the fault code. Engine writes to memory go to the home (R81); one to a
bag's header page is refused (R126); a window offset that may not be written is refused (R30). A poisoned word, which takes only a whole-word
write, is refused unless the command writes `whole` of it (R345). -/
def State.writeLoc (s : State) (d : Command) (whole : Bool) (w : Word) (be : BitVec 4) (l : Loc) : Except Nat State :=
  match l with
  | .virt a =>
    match s.engineXlate d (a / 4 * 4) permW with
    | .error f => .error f
    | .ok pa =>
      if isWindowPa pa then
        let lo := ((List.range 4).filter (fun i => be.getLsbD i)).headD 0
        .ok (s.toWindow d.ctx (pa + lo) (popc be) ((w.toNat >>> (8 * lo)) % 2 ^ (8 * popc be)))
      else if s.isHeader pa then .error 2
      else if s.homeDown pa then .error 6
      else if be = 15 then .ok (s.storeHome pa w)
      else if !whole && s.poisoned pa then .error 3
      else .ok (s.storeQuiet pa w be)
  | .sp c a =>
    if 0x80000 ≤ a then .error 5
    else .ok (s.modCore c fun y => { y with scratch := y.scratch.setWord (a / 4 * 4) (mergeBytes (y.scratch.word (a / 4 * 4)) w be) })
  | .win a =>
    match placeOf a with
    | .onchip off =>
      let p := windowSlot off
      if s.dieDown (dieOf p.1) then .error 6
      else if !s.mayReach d p.1 then .error 2
      else match s.setWindow p.1 p.2 (mergeBytes ((s.core p.1).windowWord p.2) w be) with
        | some s => .ok s
        | none => .error 2
    | _ => .error 6
  | .reg o =>
    match s.regPlace d o with
    | some (who, k) => .ok (s.writeReg who k (mergeBytes (s.readReg who k) w be))
    | none => .error 5

/-- The bits of an element in the word that holds it: a nibble of a byte for DS4 (R229). -/
def Descriptor.cut (d : Descriptor) (l : Loc) (c0 : Nat) (w : Word) : Nat :=
  let b := w.toNat >>> (8 * (l.addr % 4))
  if d.four then (b >>> (4 * (c0 % 2))) % 16 else b % 2 ^ fmtBits d.fmt

/-- The bits of an element read by an engine. -/
def State.readElem (s : State) (m : Command) (viaL2 : Bool) (d : Descriptor) (c : Coord) : Except Nat Nat :=
  let l := d.loc m.core c
  match s.readLoc m viaL2 l with
  | .ok w => .ok (d.cut l c.c0 w)
  | .error f => .error f

/-- The byte at a place. -/
def State.readByte (s : State) (m : Command) (l : Loc) : Except Nat Nat :=
  match s.readLoc m false l with
  | .ok w => .ok ((w.toNat >>> (8 * (l.addr % 4))) % 256)
  | .error f => .error f

/-- The elements of the word that holds an element all lie in a box along dimension 0, from an origin over an extent. -/
def Descriptor.covers (d : Descriptor) (l : Loc) (box : Nat × Nat) (c0 : Nat) : Bool :=
  let n := if d.four then 8 else 4 / d.bytes
  let at_ := if d.four then 2 * (l.addr % 4) + c0 % 2 else l.addr % 4 / d.bytes
  decide (box.1 + at_ ≤ c0 ∧ c0 + n ≤ box.1 + box.2 + at_)

/-- Write the bits of an element of a box along dimension 0: a DS4 nibble into its byte as it stands. -/
def State.writeAt (s : State) (m : Command) (d : Descriptor) (l : Loc) (box : Nat × Nat) (c0 bits : Nat) : Except Nat State :=
  let off := l.addr % 4
  let whole := d.covers l box c0
  let put := fun (s : State) (v n : Nat) =>
    s.writeLoc m whole (BitVec.ofNat 32 (v * 2 ^ (8 * off))) (maskOf (span off n)) l
  if d.four then
    let nib := fun (b : Nat) => if c0 % 2 = 0 then b / 16 * 16 + bits % 16 else bits % 16 * 16 + b % 16
    match s.readByte m l with
    | .ok b => put s (nib b) 1
    | .error f => if f = 3 && whole then put s (nib 0) 1 else .error f
  else put s (bits % 2 ^ fmtBits d.fmt) d.bytes

/-- Write the bits of an element at its place. -/
def State.writeElem (s : State) (m : Command) (d : Descriptor) (box : Nat × Nat) (c : Coord) (bits : Nat) : Except Nat State :=
  s.writeAt m d (d.loc m.core c) box c.c0 bits

/-- The waits on the words that hold elements narrower than a word, once a run of them is written (R152, R155). -/
def State.wakeWritten (s : State) (m : Command) (d : Descriptor) (cs : List Coord) : State :=
  if d.bkind ≠ 0 || d.bytes = 4 then s
  else ((cs.map (fun c => (d.loc m.core c).addr / 4 * 4)).eraseDups).foldl (fun s a => match s.engineXlate m a permW with
    | .ok pa => if isWindowPa pa then s else s.monitor pa (s.homeWord pa)
    | .error _ => s) s

/-! ### Capture at acceptance (R111, R236) -/

/-- A word of the dynamic extents: an own virtual word as the command reads its source, or a scratchpad word; absent pages give 0x01. -/
def State.dynWord (s : State) (m : Command) (d : Descriptor) (k : Nat) : Except Nat Nat :=
  let a := d.dynaddr.toNat + 4 * k
  if !d.dynsp && (2 ^ 64 ≤ a || !canonical (BitVec.ofNat 64 a)) then .error 1
  else match s.readLoc m false (if d.dynsp then .sp m.core a else .virt a) with
    | .ok w => .ok w.toNat
    | .error f => .error f

/-- The extents of a descriptor captured now: each dynamic one read, at most its field (R236). -/
def State.extents (s : State) (m : Command) (d : Descriptor) : Except Nat (List Nat) :=
  (List.range 4).foldl (fun acc k =>
    match acc with
    | .error f => .error f
    | .ok l =>
      if !d.isDyn k then .ok (l ++ [d.extField k])
      else match s.dynWord m d k with
        | .error f => .error f
        | .ok v => if d.extField k < v then .error 5 else .ok (l ++ [v])) (.ok [])

/-- The reads of the dynamic extents of a list of descriptors. -/
def State.touchDyn (s : State) (m : Command) (tids : List Nat) : State :=
  let ds := (tids.map (s.desc m.ctx)).takeWhile (fun d => !d.invalid)
  s.touchLocs false (ds.flatMap (fun d => if d.dynsp then [] else
    ((List.range 4).filter d.isDyn).map (fun k => (m, Loc.virt (d.dynaddr.toNat + 4 * k)))))

/-- The capture of a list of descriptors: the entries and their extents, four for each, or the fault code (R111, R235, R236). -/
def State.capture (s : State) (m : Command) (tids : List Nat) : Except Nat (List Descriptor × List Nat) :=
  tids.foldl (fun acc k =>
    match acc with
    | .error f => .error f
    | .ok (ds, es) =>
      let d := s.desc m.ctx k
      if d.invalid then .error 5
      else match s.extents m d with
        | .error f => .error f
        | .ok l => .ok (ds ++ [d], es ++ l)) (.ok ([], []))

/-- A captured descriptor of a command. -/
def Command.desc (m : Command) (n : Nat) : Descriptor := m.descs.getD n {}

/-- An extent of a captured descriptor. -/
def Command.ext (m : Command) (n k : Nat) : Nat := m.dyn.getD (4 * n + k) 1

/-- An argument slot of a command. -/
def Command.slotNat (m : Command) (i : Nat) : Nat := (m.slots.getD i 0).toNat

/-- The last element of a box from coordinates o with extents e, where it has one. -/
def lastOf (o e : Coord) : Option Coord :=
  if e.c0 = 0 || e.c1 = 0 || e.c2 = 0 || e.c3 = 0 then none
  else some { c0 := o.c0 + e.c0 - 1, c1 := o.c1 + e.c1 - 1, c2 := o.c2 + e.c2 - 1, c3 := o.c3 + e.c3 - 1 }

/-- The n-th element of a box, dimension 0 fastest. -/
def nthOf (o e : Coord) (n : Nat) : Coord :=
  { c0 := o.c0 + n % e.c0, c1 := o.c1 + n / e.c0 % e.c1, c2 := o.c2 + n / (e.c0 * e.c1) % e.c2, c3 := o.c3 + n / (e.c0 * e.c1 * e.c2) }

/-- The number of elements of a box. -/
def Coord.volume (e : Coord) : Nat := e.c0 * e.c1 * e.c2 * e.c3

/-- Every element of a box lies in its space: strides are not negative, so the last element is the farthest (R111, R236). -/
def Descriptor.boxOk (d : Descriptor) (o e : Coord) : Bool :=
  match lastOf o e with
  | none => true
  | some c =>
    let a := d.base.toNat + d.offset c
    match d.bkind with
    | 0 => decide (a < 2 ^ 64) && canonical (BitVec.ofNat 64 a) && (canonical (BitVec.ofNat 64 (d.base.toNat + d.offset o))) &&
        (decide (a < 2 ^ 47) || decide (2 ^ 63 ≤ d.base.toNat))
    | 1 => decide (a + d.bytes ≤ 0x80000)
    | _ => true

/-- A DS4 box along dimension 0 starts at an even coordinate and has an even extent (R229). -/
def Descriptor.evenBox (d : Descriptor) (origin extent : Nat) : Bool := !d.four || (origin % 2 == 0 && extent % 2 == 0)

/-- The cores whose windows a box touches, with its block scales. -/
def Descriptor.windowCores (d : Descriptor) (o e : Coord) : List Nat :=
  if d.bkind ≠ 2 then []
  else ((List.range e.volume).flatMap (fun n => ((d.loc 0 (nthOf o e n)) :: (if d.isDs then [d.scaleLoc 0 (nthOf o e n)] else [])).filterMap (fun l =>
    match placeOf l.addr with
    | .onchip off => some (windowSlot off).1
    | _ => none))).eraseDups

/-- Every register a box names exists in the posting workgroup (R260). -/
def State.regsOk (s : State) (m : Command) (d : Descriptor) (o e : Coord) : Bool :=
  d.bkind ≠ 3 || (s.posterWg m).isSome && (List.range e.volume).all (fun n => (s.regPlace m (d.loc m.core (nthOf o e n)).addr).isSome)

/-! ### Completion (R115, R117, R121) -/

/-- A circular buffer after one more of its slots' commands has completed: the filled count rises over every slot, from the fill
end's oldest, that is complete (R117). `slot` and `code` are the completing command's. -/
def CBuf.complete (b : CBuf) (slot code : Nat) : CBuf :=
  let b := { b with done := slot :: b.done, codes := SMap.set 0 slot code b.codes }
  let pending := b.count - b.free - b.popped - b.filled
  let first := (b.fill + b.count - pending) % b.count
  let n := ((List.range pending).takeWhile (fun i => b.done.contains ((first + i) % b.count))).length
  { b with filled := b.filled + n, done := b.done.filter (fun t => !((List.range n).any (fun i => (first + i) % b.count == t))) }

/-- The faulting completions of a barrier's last tick that had one, with a further one: the first code of a tick stands (R115). -/
def CBarrier.faulted (b : CBarrier) (tick : DWord) (code : Nat) : Option (DWord × Nat) :=
  match b.faultAt with
  | some (t, k) => some (if t = tick then (t, k) else (tick, code))
  | none => some (tick, code)

/-- A command completes with a fault code, 0 for none: its barrier counts down and records the first code, or its slot fills; threads
that wait for it are woken (R115, R117, R121). -/
def State.completeCommand (s : State) (m : Command) (code : Nat) : State :=
  let s := s.modCore m.core fun y =>
    if m.toQueue then
      match m.slot with
      | some n => y.setCbuf m.bar ((y.cbuf m.bar).complete n code)
      | none => y
    else
      let b := y.cbar m.bar
      y.setCbar m.bar { b with outstanding := b.outstanding - 1, error := b.error || code != 0,
                               code := if code ≠ 0 && !b.error then code else b.code,
                               faultAt := if code = 0 then b.faultAt else b.faulted s.tick code }
  let s := s.commandGone m.core m.id
  if m.toQueue && decide (0 < ((s.core m.core).cbuf m.bar).filled) then
    s.wakeWhere m.core (fun p => p == .qpop m.bar) false
  else s

/-- A command is accepted: its barrier counts it (R115). -/
def State.countAccepted (s : State) (m : Command) : State :=
  if m.toQueue then s
  else s.modCore m.core fun y => y.setCbar m.bar { y.cbar m.bar with outstanding := (y.cbar m.bar).outstanding + 1 }

/-- The barrier of a command has room for one more (R115). -/
def State.mayAccept (s : State) (m : Command) : Bool := m.toQueue || decide (((s.core m.core).cbar m.bar).outstanding < 65535)

end Sys2Proof.Machine
end

