-- ==== Sys2Proof/Machine/Posts.lean ====
section
/-! DEFINITION. The instructions that post a command to the quad matrix engine (R266, R269-R271), to an attention decode engine or a
Delf sequencer (R273, R279), or to the collective engine (R219). Each enters the poster's store queue (R109); what the engine
then does stands with its events. -/

namespace Sys2Proof.Machine

/-- `mmx`. -/
def execMmx (f : MmxForm) (s : State) : Host.Outcome State Fault Refusal :=
  postOp (.mmx f) 0 { op := .mmx f.o, tidA := f.a.toNat, tidB := f.b.toNat, bar := f.c.toNat, tile := f.t.toNat, ms := f.s.toNat } s

/-- `mzero`. -/
def execMzero (cb : BitVec 4) (tile : BitVec 2) (ms : BitVec 2) (s : State) : Host.Outcome State Fault Refusal :=
  postOp (.mzero cb tile ms) 0 { op := .mzero, bar := cb.toNat, tile := tile.toNat, ms := ms.toNat } s

/-- `mzero.bias`. -/
def execMzeroBias (f : MtileForm) (s : State) : Host.Outcome State Fault Refusal :=
  postOp (.mzeroBias f) 0 { op := .mzeroBias, tidA := f.a.toNat, bar := f.c.toNat, tile := f.t.toNat, ms := f.s.toNat } s

/-- `mld`. -/
def execMld (f : MldForm) (s : State) : Host.Outcome State Fault Refusal :=
  postOp (.mld f) 0 { op := .mld f.r, tidA := f.a.toNat, bar := f.c.toNat, tile := f.t.toNat, ms := f.s.toNat } s

/-- `mst`. -/
def execMst (f : MtileForm) (s : State) : Host.Outcome State Fault Refusal :=
  postOp (.mst f) 0 { op := .mst, tidA := f.a.toNat, bar := f.c.toNat, tile := f.t.toNat, ms := f.s.toNat } s

/-- `mscan`. -/
def execMscan (a : BitVec 7) (cb : BitVec 4) (ms : BitVec 2) (s : State) : Host.Outcome State Fault Refusal :=
  postOp (.mscan a cb ms) 0 { op := .mscan, tidA := a.toNat, bar := cb.toNat, ms := ms.toNat } s

/-- `ade`. -/
def execAde (a : BitVec 7) (b : BitVec 7) (cb : BitVec 4) (mode : BitVec 2) (s : State) : Host.Outcome State Fault Refusal :=
  postOp (.ade a b cb mode) 0 { op := .ade (mode == 1#2), tidA := a.toNat, tidB := b.toNat, bar := cb.toNat } s

/-- `dload`. -/
def execDload (cb : BitVec 4) (g : BitVec 3) (s : State) : Host.Outcome State Fault Refusal :=
  postOp (.dload cb g) g { op := .dload, bar := cb.toNat } s

/-- `drun`. -/
def execDrun (cb : BitVec 4) (g : BitVec 3) (s : State) : Host.Outcome State Fault Refusal :=
  postOp (.drun cb g) g { op := .drun, bar := cb.toNat } s

/-- `coll`. -/
def execColl (f : CollForm) (s : State) : Host.Outcome State Fault Refusal :=
  postOp (.coll f) 0 { op := .coll f.k f.o, tidA := f.d.toNat, tidB := f.s.toNat, bar := f.i.toNat } s

end Sys2Proof.Machine
end

