-- ==== Sys2Proof/Machine/Control.lean ====
section
/-! DEFINITION. The ctl group (R209-R218), valid in the control stream only: queues, flags, guard slots, descriptors, circular
buffers, barriers, identities and bags. `launch` stands in Launch.lean. -/

namespace Sys2Proof.Machine

/-- The issue of an instruction that only the control stream has. -/
def ctlOnly (i : Instr) (u : Uses) (s : State) (body : CEnv → State → State) : Host.Outcome State Fault Refusal :=
  .next (issue i u s (fun _ _ s => s) body)

/-- The control thread's store queue has drained: its release at core scope, and the wait of the instructions that pass through it
(R82, R207). -/
def CEnv.drained (e : CEnv) : Bool := (e.cr.queue ctQueue).isEmpty

/-! ### Queues and flags (R210) -/

/-- `qsend`: a release at core scope. -/
def execQsend (a : BitVec 7) (g : BitVec 3) (s : State) : Host.Outcome State Fault Refusal :=
  ctlOnly (.qsend a g) { g := g, regs := codeRegs a } s fun e s =>
    if !e.drained then s
    else if 16 ≤ e.cr.toLane.length then s.parkCt e.c .qsv
    else ((s.modCore e.c fun y => { y with toLane := y.toLane ++ [e.operand a] }).wakeWhere e.c (· == .qrv) false).advanceCt e 4

/-- `qrecv`. -/
def execQrecv (d : BitVec 6) (g : BitVec 3) (s : State) : Host.Outcome State Fault Refusal :=
  ctlOnly (.qrecv d g) { g := g, regs := [d.toNat] } s fun e s =>
    match e.cr.toCt with
    | [] => s.parkCt e.c .qrv
    | v :: rest => ((s.modCore e.c fun y => { y with toCt := rest }).wakeWhere e.c (· == .qsv) false).resultCt e 4 d.toNat v

/-- `fset` of the control thread: a release at core scope. -/
def execCtFset (k : BitVec 5) (g : BitVec 3) (s : State) : Host.Outcome State Fault Refusal :=
  ctlOnly (.ctFset k g) { g := g } s fun e s =>
    if !e.drained then s else (s.ctFlag e.c k.toNat true).advanceCt e 4

/-- `fclr`: a release at core scope. -/
def execFclr (k : BitVec 5) (g : BitVec 3) (s : State) : Host.Outcome State Fault Refusal :=
  ctlOnly (.fclr k g) { g := g } s fun e s =>
    if !e.drained then s else (s.ctFlag e.c k.toNat false).advanceCt e 4

/-- `fwait` and `fwait.z` of the control thread; it waits for flags in flight to it (R48). -/
def execCtFwait (k : BitVec 5) (z : BitVec 1) (g : BitVec 3) (s : State) : Host.Outcome State Fault Refusal :=
  ctlOnly (.ctFwait k z g) { g := g, preds := true } s fun e s =>
    let v := z == 0#1
    if e.r.waited || e.cr.flag k.toNat == v then s.advanceCt e 4 else s.parkCt e.c (.flag k.toNat v)

/-! ### Guard slots (R211, R212) -/

/-- How many entries of a queue must leave before its last store, atomic or reduction has (R212). -/
def storesWait : List Entry → Nat
  | [] => 0
  | q :: qs =>
    let n := storesWait qs
    if n ≠ 0 then n + 1 else if q.kind.bytes ≠ 0 then 1 else 0

/-- Write a guard slot, and the entries of the control thread's queue that its engines await: up to its last store. -/
def Core.setGuard (y : Core) (k : Nat) (v : Guard) : Core :=
  { y with guards := SMap.set none k v y.guards, guardWait := SMap.set 0 k (if v.isSome then storesWait (y.queue ctQueue) else 0) y.guardWait }

/-- `gset`. -/
def execGset (a : BitVec 7) (k : BitVec 4) (g : BitVec 3) (s : State) : Host.Outcome State Fault Refusal :=
  ctlOnly (.gset a k g) { g := g, regs := codeRegs a } s fun e s =>
    (s.modCore e.c (·.setGuard k.toNat (some (e.operand a != 0)))).advanceCt e 4

/-- `gclr`. -/
def execGclr (k : BitVec 4) (g : BitVec 3) (s : State) : Host.Outcome State Fault Refusal :=
  ctlOnly (.gclr k g) { g := g } s fun e s => (s.modCore e.c (·.setGuard k.toNat none)).advanceCt e 4

/-- `grd`: the next instruction is placed under the guard. -/
def execGrd (k : BitVec 4) (g : BitVec 3) (s : State) : Host.Outcome State Fault Refusal :=
  ctlOnly (.grd k g) { g := g } s fun e s => (s.advanceCt e 4).modCt e.c fun r => { r with grd := some k.toNat }

/-! ### Descriptors, buffers and barriers (R214, R215) -/

/-- A word at its home, or as the outside answers. -/
def State.anyWord (s : State) (pa : Nat) : Word := if isWindowPa pa then s.outsideWord pa else s.homeWord pa

/-- The words of an image at an address of a context's memory, at their homes. -/
def State.imageWords (s : State) (pa n : Nat) : List Word := (List.range n).map (fun i => s.anyWord (pa + 4 * i))

/-- `tdset`. -/
def execTdset (k : BitVec 7) (d : BitVec 6) (g : BitVec 3) (s : State) : Host.Outcome State Fault Refusal :=
  ctlOnly (.tdset k d g) { g := g, regs := [d.toNat] } s fun e s =>
    let a := e.r.reg d.toNat
    if !canonical a then s.trapCt e.c trapADDR
    else if a.toNat % 64 ≠ 0 then s.trapCt e.c trapALIGN
    else if !e.drained then s
    else match s.xlate e.c e.x a with
      | none => s.effectCt e.c effPAGEABSENT (pageArg a)
      | some t =>
        if !t.grants permR then s.trapCt e.c trapADDR
        else if !s.ownsFrame e.x t.pa then s.effectCt e.c effPAGEABSENT (pageArg a)
        else (s.setDesc e.x k.toNat (Descriptor.ofWords (s.imageWords t.pa 16))).advanceCt e 4

/-- Commands of a core aimed at a circular buffer that its engine has accepted and not completed (R214). -/
def Core.aimedAt (y : Core) (q : Nat) : Bool := y.copyQ.any (fun m => m.toQueue && m.bar == q && m.phase != .posted)

/-- The trap of a `qinit` setup word (R214). -/
def qinitTrap (w : DWord) : Option Nat :=
  let size := bitsOf w.toNat 63 48
  let count := bitsOf w.toNat 47 32
  let base := bitsOf w.toNat 18 0
  if bitsOf w.toNat 31 19 ≠ 0 || size = 0 || count = 0 then some trapILLEGAL
  else if base % 16 ≠ 0 then some trapALIGN
  else if 0x80000 < base + 16 * size * count then some trapADDR
  else none

/-- The circular buffer that a setup word sets up. -/
def CBuf.ofSetup (w : DWord) : CBuf :=
  let count := bitsOf w.toNat 47 32
  { base := bitsOf w.toNat 18 0, size := 16 * bitsOf w.toNat 63 48, count := count, free := count }

/-- `qinit`: it parks while commands are aimed at the buffer (R209, R214). -/
def execQinit (q : BitVec 4) (d : BitVec 6) (g : BitVec 3) (s : State) : Host.Outcome State Fault Refusal :=
  ctlOnly (.qinit q d g) { g := g, regs := [d.toNat] } s fun e s =>
    let w := e.r.reg d.toNat
    match qinitTrap w with
    | some code => s.trapCt e.c code
    | none => if e.cr.aimedAt q.toNat then s.parkCt e.c .qinit else (s.modCore e.c (·.setCbuf q.toNat (CBuf.ofSetup w))).advanceCt e 4

/-- The expected count of a barrier is set, and the phases it completes are (R215, R182). -/
def State.setExpected (s : State) (c lc x scope id n : Nat) : State :=
  let b := s.barrier c lc x scope id
  let (b', k) := ({ b with expected := n } : Barrier).complete
  let s := s.setBarrier c lc x scope id b'
  if k = 0 then s else s.wakeBarrier c lc x scope id (fun t => t == b.phase || decide (1 < k))

/-- `meetinit`. -/
def execMeetinit (sc : BitVec 3) (i : BitVec 4) (d : BitVec 6) (g : BitVec 3) (s : State) : Host.Outcome State Fault Refusal :=
  ctlOnly (.meetinit sc i d g) { g := g, regs := [d.toNat] } s fun e s =>
    let n := (e.r.reg d.toNat).toNat
    if 65535 < n then s.trapCt e.c trapILLEGAL else (s.setExpected e.c e.cr.lcId e.x sc.toNat i.toNat n).advanceCt e 4

/-! ### Ticks and identities (R216) -/

/-- The reads that a launch's prologues on a logical core have recorded: all its stages' prologues there count as one thread, whose entries
have one key (R289; assumption 37). -/
def State.ctReads (s : State) (x n l : Nat) : Nat := ((s.launch x n).map (fun y => SMap.get 0 l y.ctReads)).getD 0

/-- A recorded read of a control thread: only a prologue's belong to a launch (R289). -/
def State.recordedCt (s : State) (e : CEnv) (d : Nat) (v : DWord) : State :=
  match e.r.run.launch? with
  | none => s.resultCt e 4 d v
  | some n =>
    let lc := e.cr.lcore.getD 0
    let q := s.ctReads e.x n lc
    let r := s.recordedRead e.x n (BitVec.ofNat 32 (lc * 2 ^ 17 + 65536)) (BitVec.ofNat 32 q) v
    (r.2.modLaunch e.x n fun y => { y with ctReads := SMap.set 0 lc (q + 1) y.ctReads }).resultCt e 4 d r.1

/-- `rdtick` of the control thread. -/
def execCtRdtick (d : BitVec 6) (g : BitVec 3) (s : State) : Host.Outcome State Fault Refusal :=
  ctlOnly (.ctRdtick d g) { g := g, regs := [d.toNat] } s fun e s => s.recordedCt e d.toNat s.tick

/-- An identity of the control thread's `rdid` (R216). -/
def State.identityCt (s : State) (e : CEnv) (which : Nat) : DWord :=
  match which with
  | 6 => BitVec.ofNat 64 (e.cr.lcore.getD 0)
  | 7 => if e.r.super then 1 else 0
  | 5 => BitVec.ofNat 64 ((e.r.run.launch?).getD (s.ctx e.x).accepted % 2 ^ 32)
  | w => (s.identity e.c e.x 0 0 w).setWidth 64

/-- `rdid` of the control thread. -/
def execCtRdid (which : BitVec 3) (d : BitVec 6) (g : BitVec 3) (s : State) : Host.Outcome State Fault Refusal :=
  ctlOnly (.ctRdid which d g) { g := g, regs := [d.toNat] } s fun e s => s.recordedCt e d.toNat (s.identityCt e which.toNat)

/-! ### Bags (R217, R218) -/

/-- A bag request of the control thread enters its queue, its result to be delivered later. -/
def State.bagOpCt (s : State) (e : CEnv) (i : Instr) (op d : Nat) (a : DWord) : State :=
  if !e.cr.room ctQueue 1 then s
  else
    let id := s.fresh
    let q := plainEntry (.bagOp op id.1) e.who e.r.pc a ((s.residentAt e.c e.x a).getD 0) (s.ctx e.x).gen
    ((id.2.appendCt e.c q).addLoad e.c
      { id := id.1, kind := .bag, who := e.who, pc := e.r.pc, word := (wordOf i).1, va := a, pa := 0, size := 8, signed := false,
        dest := some d, pred := 0, scope := 0, gen := (s.ctx e.x).gen, data := none, warp := some e.r.tag }).advanceCt e 4

/-- `bmake`. -/
def execBmake (a : BitVec 7) (d : BitVec 6) (g : BitVec 3) (s : State) : Host.Outcome State Fault Refusal :=
  ctlOnly (.bmake a d g) { g := g, regs := [a.toNat, d.toNat] } s fun e s =>
    let p := e.r.reg a.toNat
    if !canonical p then s.trapCt e.c trapADDR
    else if p.toNat % 32 ≠ 0 then s.trapCt e.c trapALIGN
    else s.bagOpCt e (.bmake a d g) 0 d.toNat p

/-- `bseal`. -/
def execBseal (a : BitVec 7) (d : BitVec 6) (g : BitVec 3) (s : State) : Host.Outcome State Fault Refusal :=
  ctlOnly (.bseal a d g) { g := g, regs := [a.toNat, d.toNat] } s fun e s => s.bagOpCt e (.bseal a d g) 1 d.toNat (e.r.reg a.toNat)

/-- `bfree`. -/
def execBfree (a : BitVec 7) (d : BitVec 6) (g : BitVec 3) (s : State) : Host.Outcome State Fault Refusal :=
  ctlOnly (.bfree a d g) { g := g, regs := [a.toNat, d.toNat] } s fun e s => s.bagOpCt e (.bfree a d g) 2 d.toNat (e.r.reg a.toNat)

end Sys2Proof.Machine
end

