-- ==== Sys2Proof/Machine/Launch.lean ====
section
/-! DEFINITION. `launch` (R159-R163, R213): reading a packet and its tables, the legality check, and the acceptance of a launch. -/

namespace Sys2Proof.Machine

/-- A byte of a table in a context's memory, where a page holds it that grants a read, or (for the tables below an entry PC) an
execute. -/
def State.tableByte (s : State) (x : Nat) (va : DWord) (orX : Bool) : Option Nat :=
  if !canonical va then none
  else match s.walk x va with
    | some t =>
      if (t.grants permR || (orX && t.grants permX)) && s.ownsFrame x t.pa then some ((s.anyWord t.pa).toNat / 2 ^ (8 * (t.pa % 4)) % 256)
      else none
    | none => none

/-- n bytes of a table. -/
def State.tableBytes (s : State) (x : Nat) (va : DWord) (orX : Bool) : Nat → Option (List Nat)
  | 0 => some []
  | n + 1 =>
    match s.tableByte x va orX with
    | none => none
    | some b => (State.tableBytes s x (va + 1) orX n).map (b :: ·)

/-- The words of a list of byte values, lowest first. -/
def packWords : List Nat → List Word
  | a :: b :: c :: d :: rest => BitVec.ofNat 32 (a + 256 * b + 65536 * c + 16777216 * d) :: packWords rest
  | _ => []

/-- n words of a table. -/
def State.tableWords (s : State) (x : Nat) (va : DWord) (orX : Bool) (n : Nat) : Option (List Word) :=
  (s.tableBytes x va orX (4 * n)).map packWords

/-- A launch packet (R160), as its words. -/
structure Packet where
  ws : List Word
  deriving DecidableEq, Repr, Inhabited

/-- Word i of a packet as a number. -/
def Packet.w (p : Packet) (i : Nat) : Nat := (p.ws.getD i 0).toNat

/-- Doubleword at word i. -/
def Packet.dw (p : Packet) (i : Nat) : DWord := dword (p.ws.getD i 0) (p.ws.getD (i + 1) 0)

/-- The stage count. -/
def Packet.stages (p : Packet) : Nat := bitsOf (p.w 0) 27 26 + 1

/-- Home warps of a workgroup. -/
def Packet.warps (p : Packet) : Nat := bitsOf (p.w 0) 18 16 + 1

/-- The workgroup count. -/
def Packet.count (p : Packet) : Nat := p.w 1

/-- Bank-share mode. -/
def Packet.mode (p : Packet) : Nat := bitsOf (p.w 0) 15 14

/-- The bag slot iterated. -/
def Packet.bslot (p : Packet) : Nat := bitsOf (p.w 0) 13 10

/-- The tensor-descriptor mask, as the numbers it names. -/
def Packet.tds (p : Packet) : List Nat :=
  (List.range 128).filter (fun k => (p.w (12 + k / 32)).testBit (k % 32))

/-- An entry of the stage table (R161) in eight words. -/
structure StageEntry where
  entry    : DWord
  prologue : DWord
  first    : Nat
  n        : Nat
  link     : Nat
  lidx     : Nat
  zero     : Bool
  deriving DecidableEq, Repr, Inhabited

/-- A stage entry read from its words. -/
def StageEntry.ofWords (ws : List Word) : StageEntry :=
  let w := fun i => (ws.getD i 0)
  { entry := dword (w 0) (w 1), prologue := dword (w 2) (w 3), first := (w 4).toNat, n := (w 5).toNat, link := bitsOf (w 6).toNat 31 30,
    lidx := bitsOf (w 6).toNat 29 26, zero := bitsOf (w 6).toNat 25 0 == 0 && w 7 == 0 }

/-- A placement word (R162): logical core, home-warp slot, workgroup slot, and that its zero field is 0. -/
def placeWord (w : Word) : (Nat × Nat × Nat) × Bool :=
  ((bitsOf w.toNat 31 20, bitsOf w.toNat 19 14, bitsOf w.toNat 13 11), bitsOf w.toNat 10 0 == 0)

/-- What a packet names, each table none where it cannot be read. -/
structure Tables where
  stages : Option (List StageEntry)
  map    : Option (List ((Nat × Nat × Nat) × Bool))
  bags   : Option (List DWord)
  images : Option (List Descriptor)
  below  : Option (List (List Byte × List (Word × Word × DWord) × List Word))
  deriving Repr, Inhabited

/-- Consecutive pieces of a list, n long, k of them. -/
def pieces {α : Type} (n : Nat) : Nat → List α → List (List α)
  | 0, _ => []
  | k + 1, l => l.take n :: pieces n k (l.drop n)

/-- All of a list, if each is there. -/
def allSome {α : Type} : List (Option α) → Option (List α)
  | [] => some []
  | none :: _ => none
  | some a :: l => (allSome l).map (a :: ·)

/-- The effect, handler and priority range tables below an entry PC (R175, R196). -/
def State.tablesBelow (s : State) (x : Nat) (entry : DWord) : Option (List Byte × List (Word × Word × DWord) × List Word) :=
  match s.tableBytes x (entry - 0x808) true 8, s.tableWords x (entry - 0x800) true 256, s.tableWords x (entry - 0x400) true 256 with
  | some eff, some hs, some prios =>
    some (eff.map (BitVec.ofNat 8), (pieces 4 64 hs).map (fun l => (l.getD 0 0, l.getD 1 0, dword (l.getD 2 0) (l.getD 3 0))), prios)
  | _, _, _ => none

/-- The tables a packet names, as they stand at their homes; a table at a misaligned address is not read (R163: code 0x03 goes before
0x04). -/
def State.readTables (s : State) (x : Nat) (p : Packet) : Tables :=
  let n := min p.count 24576
  let stages := if (p.dw 4).toNat % 32 ≠ 0 then none
    else (s.tableWords x (p.dw 4) false (8 * p.stages)).map (fun ws => (pieces 8 p.stages ws).map StageEntry.ofWords)
  { stages := stages
    map := if (p.dw 6).toNat % 4 ≠ 0 then none else (s.tableWords x (p.dw 6) false n).map (·.map placeWord)
    bags := (s.tableWords x (p.dw 8) false 32).map (fun ws => (pieces 2 16 ws).map (fun l => dword (l.getD 0 0) (l.getD 1 0)))
    images := if (p.dw 10).toNat % 64 ≠ 0 then none
      else (s.tableWords x (p.dw 10) false (16 * p.tds.length)).map (fun ws => (pieces 16 p.tds.length ws).map Descriptor.ofWords)
    below := stages.bind (fun l => allSome (l.map (fun e => s.tablesBelow x e.entry))) }

/-- Code 0x01: a field outside its values. -/
def Packet.badFormat (p : Packet) (t : Tables) : Bool :=
  bitsOf (p.w 0) 31 28 != 1 || decide (11 < bitsOf (p.w 0) 22 19) || decide (1 < p.mode) || bitsOf (p.w 0) 9 0 != 0 ||
  (p.mode == 0 && p.bslot != 0) || p.w 19 != 0 || (span 22 10).any (fun i => p.w i != 0) ||
  (t.stages.getD []).any (fun e => e.link == 3 || !e.zero) || (t.map.getD []).any (fun m => !m.2)

/-- The stages cover the workgroups from 0 to W - 1 in order, each at least one (R161). DESIGN CHOICE (assumption 58): a stage of none fails
with the code of a bad cover, 0x02. -/
def covers (w : Nat) : Nat → List StageEntry → Bool
  | at_, [] => at_ == w
  | at_, e :: es => e.first == at_ && decide (1 ≤ e.n) && covers w (at_ + e.n) es

/-- Code 0x02. -/
def Packet.badCount (p : Packet) (t : Tables) : Bool :=
  p.count == 0 || decide (24576 < p.count) || (match t.stages with
    | some l => !covers p.count 0 l
    | none => false)

/-- Code 0x03. -/
def Packet.misaligned (p : Packet) : Bool :=
  (p.dw 2).toNat % 16 != 0 || (p.dw 4).toNat % 32 != 0 || (p.dw 6).toNat % 4 != 0 || (p.dw 10).toNat % 64 != 0 ||
  (p.dw 16).toNat % 16 != 0 || p.w 18 % 16 != 0 || (p.dw 20).toNat % 4 != 0

/-- The completion word's page grants the permissions asked for. -/
def State.doneOk (s : State) (x : Nat) (done : DWord) (need : BitVec 3) : Bool :=
  canonical done && (match s.walk x done with
    | some t => t.grants need && s.ownsFrame x t.pa
    | none => false)

/-- Two workgroups of one logical core share a workgroup slot or a home-warp slot (R163). -/
def overlapping (w : Nat) (m : List (Nat × Nat × Nat)) : Bool :=
  (m.foldl (fun (acc : SMap (Nat × Nat) × Bool) p =>
    let old := SMap.get (0, 0) p.1 acc.1
    let wsBit := 2 ^ p.2.2
    let hwBits := (2 ^ w - 1) * 2 ^ p.2.1
    (SMap.set (0, 0) p.1 (Nat.lor old.1 wsBit, Nat.lor old.2 hwBits) acc.1,
     acc.2 || Nat.land old.1 wsBit != 0 || Nat.land old.2 hwBits != 0)) ([], false)).2

/-- A physical core that a context owns is named by a logical core's remap entry (R163). -/
def State.remapOwned (s : State) (x l : Nat) : Bool := decide (s.placedAt x l < 512) && (s.core (s.placedAt x l)).owner == some x

/-- Code 0x09. -/
def State.badBinding (s : State) (x : Nat) (stages : List StageEntry) (bags : List DWord) (images : List Descriptor) : Bool :=
  bags.any (fun h => h != 0 && (s.bagAt x h).isNone) || stages.any (fun e => e.link == 2 && bags.getD e.lidx 0 == 0) ||
  (match stages.getLast? with
   | some e => e.link != 0
   | none => false) || images.any (·.invalid)

/-- Code 0x0A (R144). -/
def State.badBankShare (s : State) (x : Nat) (p : Packet) (bags : List DWord) : Bool :=
  p.mode == 1 && (match s.bagAt x (bags.getD p.bslot 0) with
    | some b => bags.getD p.bslot 0 == 0 || p.count != b.shareCount
    | none => true)

/-- The determinism register's fields (R286): mode, serial, record buffer bytes and base. -/
def Context.detMode (c : Context) : Nat := (c.reg 0x40).toNat % 4

/-- A range of a context's memory is resident and may be read and written. -/
def State.areaResident (s : State) (x : Nat) (a : DWord) (n : Nat) : Bool :=
  (List.range (n / 65536 + 2)).all (fun i =>
    let v := if 65536 * i < n then a + BitVec.ofNat 64 (65536 * i) else a + BitVec.ofNat 64 (n - 1)
    s.doneOk x v permRW)

/-- Code 0x0B: the record buffer of a deterministic launch, or the path area, cannot hold what the launch needs (R286, R378). -/
def State.badBuffer (s : State) (x : Nat) (p : Packet) : Bool :=
  let c := s.ctx x
  (c.detMode != 0 && decide (bitsOf (c.reg 0x40).toNat 63 32 < 64 + 16 * p.count)) ||
  ((c.reg 0x2C).toNat % 4 != 0 && !s.areaResident x (c.reg 0x2D) (64 + 8 * p.count * 32 * p.warps))

/-- The code of a packet: 0 to accept, else the first of R163 that applies. -/
def State.checkLaunch (s : State) (x : Nat) (p : Packet) (t : Tables) : Nat :=
  let m := (t.map.getD []).map (·.1)
  let bags := t.bags.getD []
  let stages := t.stages.getD []
  if p.badFormat t then 1
  else if p.badCount t then 2
  else if p.misaligned then 3
  else if t.stages.isNone || t.map.isNone || t.bags.isNone || t.images.isNone || t.below.isNone || !s.doneOk x (p.dw 20) permRW then 4
  else if m.any (fun q => decide ((s.ctx x).grid ≤ q.1)) then 5
  else if m.any (fun q => decide (48 < q.2.1 + p.warps) || decide (5 < q.2.2)) then 6
  else if overlapping p.warps m then 7
  else if m.any (fun q => !s.remapOwned x q.1) then 8
  else if s.badBinding x stages bags (t.images.getD []) then 9
  else if s.badBankShare x p bags then 10
  else if s.badBuffer x p then 11
  else 0

/-- The prologues of a launch: each stage's on each logical core that holds a workgroup of it (R164). -/
def prologuesOf (stages : List StageEntry) (m : List (Nat × Nat × Nat)) : List (Nat × Nat × Bool) :=
  stages.zipIdx.flatMap (fun p =>
    if p.1.prologue = 0 then []
    else (((m.drop p.1.first).take p.1.n).map (·.1)).eraseDups.map (fun l => (l, p.2, false)))

/-- The launch that an accepted packet makes: with the determinism and path registers captured (R286, R378). -/
def State.launchOf (s : State) (x issuer : Nat) (p : Packet) (t : Tables) : Launch :=
  let c := s.ctx x
  let m := (t.map.getD []).map (·.1)
  let stages := t.stages.getD []
  let below := t.below.getD []
  { index := c.accepted + 1, state := .accepted, nregs := 8 * (bitsOf (p.w 0) 25 23 + 1), prio := bitsOf (p.w 0) 22 19, warps := p.warps,
    bank := if p.mode = 1 then some p.bslot else none, count := p.count, args := p.dw 2,
    stages := (stages.zip below).map (fun q => { entry := q.1.entry, prologue := q.1.prologue, first := q.1.first, n := q.1.n, link := q.1.link,
                                                 lidx := q.1.lidx, effects := q.2.1, handlers := q.2.2.1, prios := q.2.2.2 }),
    place := m, bags := t.bags.getD [], stack := p.dw 16, stackb := p.w 18, done := p.dw 20, issuer := issuer, finished := 0, placedN := 0,
    digests := [], prologues := prologuesOf stages m, begun := [], detMode := c.detMode, serial := (c.reg 0x40).getLsbD 2,
    recBase := c.reg 0x41, recSize := bitsOf (c.reg 0x40).toNat 63 32, recN := ((s.devLoad x (c.reg 0x41)).getD 0).toNat,
    path := (c.reg 0x2C).toNat % 4, trace := (c.reg 0x2C).getLsbD 2, patharea := c.reg 0x2D, trarea := c.reg 0x2E }

/-- A launch is accepted: its descriptors are written, each in one step, and record mode zeroes the buffer's header (R160, R288). -/
def State.acceptLaunch (s : State) (x issuer : Nat) (p : Packet) (t : Tables) : State :=
  let l := s.launchOf x issuer p t
  let s := (p.tds.zip (t.images.getD [])).foldl (fun s q => s.setDesc x q.1 q.2) s
  let s := if l.detMode = 1 then s.devStores x l.recBase (List.replicate 16 0) else s
  s.modCtx x fun c => { c with accepted := c.accepted + 1, launches := c.launches ++ [l] }

/-- The completion word of a rejected launch, written where it may be (R163). -/
def State.rejectWord (s : State) (x : Nat) (done : DWord) (code : Nat) : State :=
  if done.toNat % 4 = 0 && s.doneOk x done permW then s.devStore x done (BitVec.ofNat 32 (0x100 + code)) else s

/-- A packet is applied: the result code, and the state after it (R163, R213). -/
def State.applyLaunch (s : State) (x issuer : Nat) (p : DWord) : Nat × State :=
  match s.tableWords x p false 32 with
  | none => (4, s)
  | some ws =>
    let pk : Packet := { ws := ws }
    let t := s.readTables x pk
    match s.checkLaunch x pk t with
    | 0 => (0, s.acceptLaunch x issuer pk t)
    | code => (code, s.rejectWord x (pk.dw 20) code)

/-- `launch`. -/
def execLaunch (a : BitVec 7) (d : BitVec 6) (g : BitVec 3) (s : State) : Host.Outcome State Fault Refusal :=
  ctlOnly (.launch a d g) { g := g, regs := [a.toNat, d.toNat] } s fun e s =>
    let p := e.r.reg a.toNat
    if !e.r.super then s.trapCt e.c trapPRIV
    else if !canonical p then s.trapCt e.c trapADDR
    else if p.toNat % 128 ≠ 0 then s.trapCt e.c trapALIGN
    else if !e.drained then s
    else
      let (s, ok) := s.releaseNow e.x (dieOf e.c)
      if !ok then s.effectCt e.c effREMOTEERR 5
      else
        let r := s.applyLaunch e.x (e.cr.lcore.getD 0) p
        r.2.resultCt e 4 d.toNat (BitVec.ofNat 64 r.1)

/-! ### Remap entries (R166, R287) -/

/-- Remap writes of a context are held: its determinism mode is on, or a deterministic launch is incomplete (R287). -/
def State.remapHeld (s : State) (x : Nat) : Bool := (s.ctx x).detMode != 0 || (s.ctx x).launches.any (fun l => l.detMode != 0)

/-- A logical core of a context is current on some core. -/
def State.isCurrent (s : State) (x l : Nat) : Bool := s.cores.any (fun kv => kv.2.owner = some x && kv.2.lcore = some l)

/-- Remap writes that may take effect do (R166). -/
def State.settleRemap (s : State) (x : Nat) : State :=
  if s.remapHeld x then s
  else s.modCtx x fun y =>
    let go := y.remapQ.filter (fun p => !s.isCurrent x p.1)
    { y with remap := go.foldl (fun m p => SMap.insert p.1 p.2 m) y.remap, remapQ := y.remapQ.filter (fun p => s.isCurrent x p.1) }

end Sys2Proof.Machine
end

