-- ==== Sys2Proof/Machine/CoreImage.lean ====
section
/-! DEFINITION. The core state of a logical core in its save area (R327): queues, barriers, flags, guard slots, word queues, held commands, and
the control thread's registers, return stacks and store queue. DESIGN CHOICE (assumption 3): the spec gives the place and the size of this block
and no layout. Here it holds the words of the window's queue and barrier state (R32) at 0, the word queues at 0x400, the control thread's runs at
0x800, its store queue at 0x1400 and the slots of held commands at 0x1800. What the block has no room for the device keeps beside it. -/

namespace Sys2Proof.Machine

/-! ### The image -/

/-- The words of one run of a control thread: registers, PC, depth of the return stack, and the return stack. -/
def CtRegs.image (r : CtRegs) : List Word :=
  (List.range 32).flatMap (fun k => [(r.reg k).lo, (r.reg k).hi]) ++ [r.pc.lo, r.pc.hi, BitVec.ofNat 32 r.rstack.length, 0] ++
    (List.range 16).flatMap (fun i => let a := r.rstack.getD i 0; [a.lo, a.hi])

/-- The words of one run. -/
def ctRunWords : Nat := 100

/-- A word queue: its entries, after their number. -/
def wordQueueImage (q : List DWord) : List Word := BitVec.ofNat 32 q.length :: q.flatMap (fun v => [v.lo, v.hi])

/-- The state that a core shows in its window. -/
def SavedCore.shown (v : SavedCore) : Core :=
  { cbufs := v.cbufs, cbars := v.cbars, bars := v.bars, flags := v.flags, guards := v.guards }

/-- The image of a logical core's core state, as the words that are not zero by index. -/
def SavedCore.image (v : SavedCore) : SMap Word :=
  let m := putWords 0 ((List.range 256).map (fun i => v.shown.stateWord (4 * i))) []
  let m := putWords 0x180 (wordQueueImage (v.toCt.take 63)) (putWords 0x100 (wordQueueImage (v.toLane.take 63)) m)
  let m := ((v.ct.allRuns.take 7).zipIdx).foldl (fun m p => putWords (0x200 + ctRunWords * p.2) p.1.image m) m
  let m := (((SMap.get [] ctQueue v.queues).take 32).zipIdx).foldl (fun m p => putWords (0x500 + 8 * p.2) p.1.image m) m
  ((v.held.take 192).zipIdx).foldl (fun m p => putWords (0x600 + 8 * p.2) p.1.slots m) m

/-! ### The restore -/

/-- A circular buffer whose words stand in the state area. -/
def CBuf.ofState (b : CBuf) (w : Nat → Word) : CBuf :=
  { b with base := (w 0).toNat, size := (w 1).toNat, count := (w 2).toNat, filled := (w 3).toNat / 65536, free := (w 3).toNat % 65536 }

/-- A completion barrier whose words stand in the state area. -/
def CBarrier.ofState (b : CBarrier) (w : Nat → Word) : CBarrier :=
  { b with outstanding := (w 0).toNat, error := (w 1).getLsbD 31, code := (w 1).toNat % 2 ^ 31 }

/-- A barrier whose words stand in the state area. -/
def Barrier.ofState (w : Nat → Word) : Barrier :=
  { expected := (w 0).toNat, phase := (w 1).getLsbD 31, arrived := (w 1).toNat % 2 ^ 31 }

/-- A guard slot from its two bits. -/
def Guard.ofBits (n : Nat) : Guard := if n = 1 then some false else if n = 2 then some true else none

/-- A word queue from its image: as many entries as it says. -/
def wordQueueAt (old : List DWord) (w : Nat → Word) : List DWord :=
  (List.range (min 63 (w 0).toNat)).map (fun i => dword (w (2 * i + 1)) (w (2 * i + 2))) ++ old.drop 63

/-- A run of a control thread from its image. -/
def CtRegs.restored (r : CtRegs) (w : Nat → Word) : CtRegs :=
  { r with s := (List.range 32).foldl (fun m k => SMap.set 0 k (dword (w (2 * k)) (w (2 * k + 1))) m) [],
           pc := pc48 (dword (w 64) (w 65)),
           rstack := (List.range (min 16 (w 66).toNat)).map (fun i => dword (w (68 + 2 * i)) (w (69 + 2 * i))) }

/-- The core state of a logical core restored from its image, whose words `w` gives (R327, R332). -/
def SavedCore.restored (v : SavedCore) (w : Nat → Word) : SavedCore :=
  let at_ := fun (i : Nat) (j : Nat) => w (i + j)
  let run := fun (i : Nat) (r : CtRegs) => if i < 7 then r.restored (at_ (0x200 + ctRunWords * i)) else r
  let n := v.ct.saved.length + 1
  { v with
    cbufs := (List.range 16).foldl (fun m q => SMap.set {} q ((SMap.get {} q v.cbufs).ofState (at_ (4 * q))) m) [],
    cbars := (List.range 16).foldl (fun m b => SMap.set {} b ((SMap.get {} b v.cbars).ofState (at_ (0x40 + 2 * b))) m) [],
    bars := (List.range 16).foldl (fun m b => SMap.set {} b (Barrier.ofState (at_ (0x80 + 2 * b))) m) [],
    flags := w 0xC0,
    guards := (List.range 16).foldl (fun m k => SMap.set none k (Guard.ofBits ((w 0xC1).toNat / 4 ^ k % 4)) m) [],
    toLane := wordQueueAt v.toLane (at_ 0x100), toCt := wordQueueAt v.toCt (at_ 0x180),
    ct := { v.ct with cur := run 0 v.ct.cur, saved := v.ct.saved.zipIdx.map (fun p => run (p.2 + 1) p.1),
                      trapped := v.ct.trapped.zipIdx.map (fun p => run (p.2 + n) p.1) },
    queues := SMap.set [] ctQueue
      ((((SMap.get [] ctQueue v.queues).take 32).zipIdx).filterMap (fun p => p.1.restored ((List.range 8).map (at_ (0x500 + 8 * p.2)))) ++
        (SMap.get [] ctQueue v.queues).drop 32) v.queues,
    held := v.held.zipIdx.map (fun p => if p.2 < 192 then { p.1 with slots := (List.range 8).map (at_ (0x600 + 8 * p.2)) } else p.1) }

end Sys2Proof.Machine
end

