-- ==== Sys2Proof/Machine/Fetch.lean ====
section
/-! DEFINITION. Instruction fetch (R34-R36, R345): the bytes at a program counter, and what a fetch that fails does. -/

namespace Sys2Proof.Machine

/-- What the fetch of a halfword gives. -/
inductive HalfRead where
  /-- No valid translation with x, or no frame of the context behind it (R35, R314). -/
  | absent
  /-- The word at an address is poisoned, and the state once it is found (R345). -/
  | poisoned (va : DWord) (s : State)
  /-- The halfword, and the state with its translation and its value remembered. -/
  | half (h : Half) (s : State)
  deriving Repr, Inhabited

/-- The values of a halfword of code a core has fetched under the current generation, newest first (R36). -/
def Core.oldHalves (y : Core) (x : Nat) (gen : BitVec 16) (n : Nat) : List Half :=
  ((y.code.find? (fun e => e.ctx = x && e.gen == gen && e.half = n)).map (·.vals)).getD []

/-- The values of a halfword of code that the cores of the package have fetched for a context under its current generation (R36). -/
def State.oldHalves (s : State) (x : Nat) (gen : BitVec 16) (n : Nat) : List Half :=
  (s.cores.flatMap (fun kv => kv.2.oldHalves x gen n)).eraseDups

/-- The values that a halfword of code had before writes of its word under its context's generation (R36). -/
def State.pastHalves (s : State) (x : Nat) (gen : BitVec 16) (pa : Nat) : List Half :=
  (s.past.filter (fun p => p.ctx = x && p.gen == gen && p.pa = wordAddr pa)).map (fun p => (p.old.ushiftRight (8 * (pa % 4))).setWidth 16)

/-- Remember the value fetched. -/
def Core.noteHalf (y : Core) (x : Nat) (gen : BitVec 16) (n : Nat) (h : Half) : Core :=
  let old := y.oldHalves x gen n
  if old.contains h then y
  else { y with code := { ctx := x, gen := gen, half := n, vals := h :: old } ::
                          y.code.filter (fun e => !(e.ctx = x && e.gen == gen && e.half = n)) }

/-- The fetch of one halfword: its value at the home, or one that a core fetched before or that a write has replaced under this generation, as the
device chooses (R36, assumption 8). A host window's value comes from outside (assumption 7). `which` numbers the halfword within the
instruction. -/
def State.fetchHalf (s : State) (c x : Nat) (va : DWord) (which : Nat) : HalfRead :=
  if !canonical va then .absent else
  match s.xlate c x va with
  | none => .absent
  | some t =>
    if !t.grants permX || !s.ownsFrame x t.pa then .absent
    else if isWindowPa t.pa then
      if s.windowKind t.pa = 3 then .absent else .half ((Config.freeWord s.steps which).setWidth 16) (s.learn c x va)
    else if s.homeDown t.pa then .absent
    else
    let s := if (s.dirtyDies t.pa).isEmpty then s.eccRead t.pa else s
    if s.poisoned t.pa then .poisoned (BitVec.ofNat 64 (va.toNat / 4 * 4)) s
    else
      let now : Half := (s.homeWord t.pa >>> (8 * (t.pa % 4))).setWidth 16
      let gen := (s.ctx x).gen
      let n := va.toNat / 2
      let h := match (s.oldHalves x gen n ++ s.pastHalves x gen t.pa).eraseDups with
        | [] => now
        | o :: os => (now :: o :: os).getD (Config.choice s.steps (2 + which) % (os.length + 2)) now
      .half h ((s.learn c x va).modCore c (·.noteHalf x gen n h))

/-- What the fetch of an instruction gives. -/
inductive Fetched where
  | absent
  | poisoned (va : DWord) (s : State)
  | code (bytes : List Byte) (s : State)
  deriving Repr, Inhabited

/-- The bytes of a halfword, lowest first (R34). -/
def halfBytes (h : Half) : List Byte := [h.setWidth 8, (h >>> 8).setWidth 8]

/-- The fetch of an instruction: one halfword, or two where bit 0 of the first is 1 (R34). -/
def State.fetch (s : State) (c x : Nat) (pc : DWord) : Fetched :=
  match s.fetchHalf c x pc 0 with
  | .absent => .absent
  | .poisoned a s => .poisoned a s
  | .half h s =>
    if !h.getLsbD 0 then .code (halfBytes h) s
    else match s.fetchHalf c x (pc48 (pc + 2)) 1 with
      | .absent => .absent
      | .poisoned a s => .poisoned a s
      | .half h' s => .code (halfBytes h ++ halfBytes h') s

/-- The word at the head of the fetched bytes, for the step that rejects it. -/
def fetchedWord (bytes : List Byte) : Word := BitVec.ofNat 32 (ofBytes bytes)

/-- A fetch that fails, in the vector stream: an effect or trap still owed comes first, then the trap at the PC (R35,
R345, R53 step 1); a poison trap names the poisoned word's address. -/
def State.fetchTrapVec (s : State) (c k code : Nat) (info : DWord := 0) : State :=
  match s.env c k with
  | none => s
  | some e => match e.owing with
    | l :: _ => s.takeOwed e (.unassignedEncoding 0) l
    | [] => s.trapWarp e (.unassignedEncoding 0) code e.lanes (fun _ => (info.lo, info.hi))

/-- A fetch that fails, in the control stream. -/
def State.fetchTrapCt (s : State) (c code : Nat) (info : DWord := 0) : State :=
  (s.owedCt c).getD (s.trapCt c code info)

/-- Where an issue context that may issue fetches its next instruction: context and PC. -/
def State.vecPc (s : State) (c k : Nat) : Option (Nat × DWord) :=
  match s.env c k with
  | none => none
  | some e => if s.mayIssue c && e.g.state = .resident then some (e.x, e.pc) else none

/-- Where a control thread that may issue fetches its next instruction. -/
def State.ctPc (s : State) (c : Nat) : Option (Nat × DWord) :=
  let r := (s.core c).ct.cur
  if s.mayIssue c && r.run != .idle && r.park == .none then some (s.coreCtx c, r.pc) else none

/-- A word that names no instruction is issued (R53 steps 2 to 6): ZERO_WORD, ALL_ONES, PRIV for a word of the sys major
that a control thread issues in user mode, else ILLEGAL. -/
def rejectCode (w : Word) (userCt : Bool) : Nat :=
  if w.setWidth 16 == 0#16 then trapZEROWORD
  else if w == 0xFFFFFFFF then trapALLONES
  else if userCt && w.getLsbD 0 && fld w 1 7 == 0x7D#7 then trapPRIV
  else trapILLEGAL

/-- `unassignedEncoding`: the word traps at its issue, whatever its guard (R53). -/
def execUnassignedEncoding (w : Word) (s : State) : Host.Outcome State Fault Refusal :=
  match s.issuer with
  | some (.vec c k) =>
    match s.env c k with
    | none => .next s
    | some e =>
      if !s.mayIssue c || e.g.state ≠ .resident then .next s
      else match e.owing with
        | l :: _ => .next (s.takeOwed e (.unassignedEncoding w) l)
        | [] => .next (s.trapWarp e (.unassignedEncoding w) (rejectCode w false) e.lanes)
  | some (.ct c) =>
    if (s.ctPc c).isNone then .next s else .next (s.fetchTrapCt c (rejectCode w (!(s.core c).ct.cur.super)))
  | _ => .next s

/-- Who moves: the control of the clocks after an error that no context owns (R355), or once the armed tick has ended (R376); else the turn given, else any party (assumption 4). -/
def State.mover (s : State) : Turn :=
  match s.fatal, s.armed with
  | some _, _ => if s.stopped then s.turn.getD (Config.turn s.steps) else .event .tickstopFire
  | none, some t => if t.toNat < s.tick.toNat then .event .tickstopFire else s.turn.getD (Config.turn s.steps)
  | none, none => s.turn.getD (Config.turn s.steps)

/-- The state in which a step's part is done: the turn is given to the mover. -/
def State.begin (s : State) : State := { s with turn := none, issuer := some s.mover }

/-- A die on which an instruction issues is in Run, and idle ticks count anew (R370). -/
def State.markBusy (s : State) (c : Nat) : State :=
  s.modDie (dieOf c) fun d => { d with idle := s.tick, power := if d.power = 2 then 0 else d.power }

/-- The die of an issuer is busy. -/
def State.markIssuer (s : State) : State :=
  match s.issuer with
  | some (.vec c _) => s.markBusy c
  | some (.ct c) => s.markBusy c
  | _ => s

/-- The tick count some ticks on: it never goes back (R64). -/
def later (tick n : DWord) : DWord := if tick.toNat + n.toNat < 2 ^ 64 then tick + n else BitVec.allOnes 64

/-- The step is counted and time passes (assumption 5), but for a package whose clocks have stopped (R2). -/
def State.finish (s : State) : State :=
  let s := s.markIssuer
  { s with issuer := none, steps := s.steps + 1, tick := if s.stopped then s.tick else later s.tick (Config.elapse s.steps) }

end Sys2Proof.Machine
end

