-- ==== Sys2Proof/Machine/LaneExchange.lean ====
section
/-! DEFINITION. Lane exchange (R66-R70): when a home warp is assembled, `lget`, `swp`, `bcast` and the poll group. -/

namespace Sys2Proof.Machine

/-- A lane exchange (majors 0x40-0x46). -/
def isExchange : Instr → Bool
  | .lget _ | .lgetX _ | .lgetSub _ | .lgetAdd _ | .swp _ | .bcast _ | .pollAny _ _ _ _ | .pollAll _ _ _ _ | .pollMask _ _ _ _
  | .pollFirst _ _ _ | .pollSame _ | .pollCount _ _ _ _ => true
  | _ => false

/-- The instruction at a PC is a lane exchange. -/
def State.atExchange (s : State) (c x : Nat) (pc : DWord) : Bool :=
  match s.fetch c x pc with
  | .code bytes _ => match decode bytes with
    | .ok (i, _) => isExchange i && Instr.wf .vec i
    | .error _ => false
  | _ => false

/-- The participants of the n-th home warp of a workgroup: its threads that have not exited (R66). -/
def Workgroup.participants (g : Workgroup) (n : Nat) : List Nat := (span (32 * n) 32).filter (fun t => (g.thread t).live)

/-- The frontier entry that holds a thread. -/
def Workgroup.entryOf (g : Workgroup) (tid : Nat) : Option FEntry := g.frontier.find? (fun f => f.mask.getLsbD tid)

/-- A home warp may exchange at a key with the threads listed: all its participants are there, or every other one is held
at another lane exchange whose key comes later (R67). -/
def State.assembled (s : State) (c x : Nat) (g : Workgroup) (n : Nat) (key : FEntry) (there : List Nat) : Bool :=
  ((g.participants n).filter (fun t => !there.contains t)).all fun t =>
    match g.entryOf t with
    | some f => key.before f && s.atExchange c x f.pc
    | none => false

/-- The key of a formed warp at its next instruction. -/
def State.warpKey (s : State) (e : Env) : FEntry :=
  { prio := s.blockPrio e.g e.pc, pc := e.pc, depth := ((e.lanes.head?.map fun l => (e.thread l).depth).getD 0), mask := 0, since := 0,
    aged := false, spilled := false }

/-- Every home warp with a thread in the formed warp has all its participants in it; at the first instruction of a run, where the warp
formed at the exchange, the others may be held at later lane-exchange keys (R67). -/
def State.exchangeReady (s : State) (e : Env) : Bool :=
  let there := e.lanes.map (·.tid)
  (there.map (· / 32)).eraseDups.all fun n =>
    if e.w.run = 0 then s.assembled e.c e.x e.g n (s.warpKey e) there else (e.g.participants n).all there.contains

/-- The issue of a lane exchange: a warp that is not assembled dissolves without issuing it (R67, R23). An ill-formed word is no lane
exchange, and traps (R53). -/
def exchange (i : Instr) (u : Uses) (s : State) (vec : Env → List Lane → State → State) : Host.Outcome State Fault Refusal :=
  match s.issuer with
  | some (.vec c k) =>
    match s.env c k with
    | some e =>
      if Instr.wf .vec i && s.mayIssue c && e.g.state == .resident && e.owing.isEmpty && !s.exchangeReady e then .next (s.dissolve c k)
      else .next (issue i u s vec (fun _ s => s))
    | none => .next s
  | _ => .next (issue i u s vec (fun _ s => s))

/-- The participant of a lane's home warp at home lane j, where it is in the warp. -/
def Env.peer (e : Env) (l : Lane) (j : Int) : Option Lane := e.lanes.find? (fun m => m.hw = l.hw && (m.lane : Int) == j)

/-- src(t, j): the value of sA at the participant of lane j, else the reader's own (R68). -/
def Env.source (e : Env) (l : Lane) (a : BitVec 7) (j : Int) : Word := e.operand .int ((e.peer l j).getD l) a

/-- An exchange whose source lane is a function of the reader's lane and n. -/
def lgetOp (i : Instr) (f : RForm) (lane : Nat → Nat → Int) (s : State) : Host.Outcome State Fault Refusal :=
  exchange i f.uses s fun e set s => s.result e set 0 4 fun l =>
    let v := e.source l f.a (lane l.lane ((e.operand .int l f.b).toNat % 32)); (oneReg f.n f.d v, v)

/-- `lget`. -/
def execLget (f : RForm) (s : State) : Host.Outcome State Fault Refusal := lgetOp (.lget f) f (fun _ n => n) s

/-- `lget.x`. -/
def execLgetX (f : RForm) (s : State) : Host.Outcome State Fault Refusal := lgetOp (.lgetX f) f (fun l n => (Nat.xor l n : Nat)) s

/-- `lget.sub`. -/
def execLgetSub (f : RForm) (s : State) : Host.Outcome State Fault Refusal := lgetOp (.lgetSub f) f (fun l n => (l : Int) - n) s

/-- `lget.add`. -/
def execLgetAdd (f : RForm) (s : State) : Host.Outcome State Fault Refusal := lgetOp (.lgetAdd f) f (fun l n => (l : Int) + n) s

/-- The value `swp` gives a lane (R68): the partner's, with its sign flipped in the lower lane of a pair. -/
def swpValue (e : Env) (f : RForm) (l : Lane) : Word :=
  let m := (e.operand .int l f.b).toNat % 32
  if 4 < m then e.operand .int l f.a
  else
    let j : Nat := Nat.xor l.lane (2 ^ m)
    let v := e.source l f.a j
    if !l.lane.testBit m && (e.peer l j).isSome then v ^^^ 0x80000000 else v

/-- `swp`. -/
def execSwp (f : RForm) (s : State) : Host.Outcome State Fault Refusal :=
  exchange (.swp f) f.uses s fun e set s => s.result e set 0 4 fun l => let v := swpValue e f l; (oneReg f.n f.d v, v)

/-- The elected thread of a lane's home warp: its issue-set thread of the lowest lane (R68). -/
def elected (set : List Lane) (l : Lane) : Option Lane := set.find? (fun m => m.hw = l.hw)

/-- `bcast`: the lane that the elected thread of the home warp names; only the elected threads read sB. -/
def execBcast (f : RForm) (s : State) : Host.Outcome State Fault Refusal :=
  exchange (.bcast f) f.uses.readLate s fun e set s =>
    s.unlessVoid e (.bcast f) (set.filter (fun l => elected set l == some l && e.void l f.b)) fun s => s.result e set 0 4 fun l =>
      let n := ((elected set l).map fun m => (e.operand .int m f.b).toNat % 32).getD 0
      let v := e.source l f.a (n : Int); (oneReg f.n f.d v, v)

/-- The issue-set threads of a lane's home warp. -/
def mates (set : List Lane) (l : Lane) : List Lane := set.filter (fun m => m.hw = l.hw)

/-- The mask of the lanes of a lane's home warp that a test picks. -/
def laneMask (set : List Lane) (l : Lane) (p : Lane → Bool) : Word := maskOf (((mates set l).filter p).map (·.lane))

/-- `poll.any`. -/
def execPollAny (q : BitVec 3) (nw : BitVec 1) (p g : BitVec 3) (s : State) : Host.Outcome State Fault Refusal :=
  exchange (.pollAny q nw p g) { g := g, preds := true } s fun e set s =>
    s.predResult e set (if nw = 0 then p.toNat else 0) fun l => (mates set l).any (e.guard q)

/-- `poll.all`. -/
def execPollAll (q : BitVec 3) (nw : BitVec 1) (p g : BitVec 3) (s : State) : Host.Outcome State Fault Refusal :=
  exchange (.pollAll q nw p g) { g := g, preds := true } s fun e set s =>
    s.predResult e set (if nw = 0 then p.toNat else 0) fun l => (mates set l).all (e.guard q)

/-- `poll.mask`. -/
def execPollMask (q : BitVec 3) (nw : BitVec 1) (d : BitVec 6) (g : BitVec 3) (s : State) : Host.Outcome State Fault Refusal :=
  exchange (.pollMask q nw d g) { g := g, regs := destRegs nw d, preds := true } s fun e set s =>
    s.result e set 0 4 fun l => let v := laneMask set l (e.guard q); (oneReg nw d v, v)

/-- `poll.first`. -/
def execPollFirst (nw : BitVec 1) (p g : BitVec 3) (s : State) : Host.Outcome State Fault Refusal :=
  exchange (.pollFirst nw p g) { g := g, preds := true } s fun e set s =>
    s.predResult e set (if nw = 0 then p.toNat else 0) fun l => (mates set l).head? == some l

/-- `poll.same`. -/
def execPollSame (f : UForm) (s : State) : Host.Outcome State Fault Refusal :=
  exchange (.pollSame f) f.uses s fun e set s =>
    s.result e set 0 4 fun l =>
      let v := laneMask set l (fun m => e.operand .int m f.a == e.operand .int l f.a); (oneReg f.n f.d v, v)

/-- `poll.count`. -/
def execPollCount (q : BitVec 3) (nw : BitVec 1) (d : BitVec 6) (g : BitVec 3) (s : State) : Host.Outcome State Fault Refusal :=
  exchange (.pollCount q nw d g) { g := g, regs := destRegs nw d, preds := true } s fun e set s =>
    s.result e set 0 4 fun l => let v : Word := BitVec.ofNat 32 (popc (laneMask set l (e.guard q))); (oneReg nw d v, v)

end Sys2Proof.Machine
end

