-- ==== Sys2Proof/Machine/Switch.lean ====
section
/-! DEFINITION. Switching logical cores (R166, R190, R191, R331-R333, R336): evicting a workgroup, saving a core's state when its
logical core leaves, and restoring it, on this core or another. -/

namespace Sys2Proof.Machine

/-! ### Waits (R190, R191) -/

/-- A wait is the device's no longer. -/
def State.endWaitRecord (s : State) (n : Nat) : State := { s with waits := s.waits.filter (·.id ≠ n) }

/-- A thread leaves its wait with a hardware effect to raise at the instruction (R191, R396). -/
def State.waitEffect (s : State) (w : Wait) (id : Nat) (arg : Word) : State :=
  let s := s.endWaitRecord w.id
  match w.who with
  | .ct c lc => s.modCtOf c lc fun t => t.raise t.cur.tag id arg
  | who => s.endWait who fun t => { t with effect := some { id := id, arg := arg, at_ := true } }

/-- A retired wait re-executes under the current translation with the same deadline: its request goes to the home of its page, or
the thread raises PAGE_ABSENT (R191). On a page that no longer grants read and write the thread leaves its wait, and its instruction traps ADDR
when it issues again (R311). -/
def State.resendWait (s : State) (w : Wait) : State :=
  match s.xlate w.who.core w.ctx w.va with
  | none => s.waitEffect w effPAGEABSENT (pageArg w.va)
  | some t =>
    if !s.ownsFrame w.ctx t.pa then s.waitEffect w effPAGEABSENT (pageArg w.va)
    else if !t.grants permRW then
      match w.who with
      | .ct c lc => (s.endWaitRecord w.id).modCtOf c lc fun t => { t with cur := { t.cur with park := .none } }
      | who => (s.endWaitRecord w.id).endWait who id
    else
      let w' := { w with gen := (s.ctx w.ctx).gen, pa := t.pa, evicted := false, canceled := false }
      let s := { s with waits := s.waits.map (fun (v : Wait) => if v.id = w.id then w' else v) }
      s.send { who := w.who, ctx := w.ctx, gen := w'.gen, va := w.va, pa := t.pa, req := .wait w.id, hw := w.who.hw, since := s.tick }

/-- The retired waits of parties that are on their cores re-execute (R191, R333). -/
def State.resendRetired (s : State) : State := (s.waits.filter (fun (w : Wait) => w.evicted && s.isHere w.who)).foldl State.resendWait s

/-! ### Eviction (R173, R332) -/

/-- A thread is held at a lane-exchange key that is not issuable (R67, R171). -/
def State.isHeld (s : State) (c : Nat) (g : Workgroup) (tid : Nat) : Bool :=
  match g.entryOf tid with
  | some f => s.atExchange c g.ctx f.pc && !s.assembled c g.ctx g (tid / 32) f ((span (tid / 32 * 32) 32).filter (fun t => f.mask.getLsbD t))
  | none => false

/-- The live threads of a workgroup that are held at a lane-exchange key. -/
def State.heldThreads (s : State) (c : Nat) (g : Workgroup) : List Nat :=
  (g.threads.filter (fun t => t.2.live && t.2.park == .none && s.isHeld c g t.1)).map (·.1)

/-- The threads of a workgroup that are held at a lane-exchange key. -/
def State.heldList (s : State) (c : Nat) (g : Workgroup) : List Nat :=
  (g.frontier.filter (fun f => s.atExchange c g.ctx f.pc)).flatMap (fun f => (setBits f.mask).filter (s.isHeld c g))

/-- Every live thread of a workgroup is at a blocking point or has reached one since its runaway counter's last reset (R172). -/
def Workgroup.rested (g : Workgroup) : Bool := g.threads.all (fun t => !t.2.live || t.2.park != .none || t.2.reached || t.2.held)

/-- The runaway counter of a workgroup is reset while its threads have all reached a blocking point, and counts on from the tick at which that
ends (R172). -/
def Workgroup.noteRest (g : Workgroup) (tick : DWord) : Workgroup :=
  if g.rested then { g with rest := true, runaway := tick, threads := g.threads.map (fun t => (t.1, { t.2 with reached := false })) }
  else if g.rest then { g with rest := false, runaway := tick } else g

/-- The threads of a core that came to be held, or are held no longer, are noted: to be held is to have reached a blocking point (R67,
R172); and so are the workgroups whose runaway counters that resets. -/
def State.noteHeld (s : State) (c : Nat) : State :=
  (s.core c).wgs.foldl (fun s kv => match kv.2 with
    | none => s
    | some g =>
      if g.state != .resident then s
      else
        let held := s.heldList c g
        let new := g.threads.filter (fun t => t.2.held != held.contains t.1)
        let s := new.foldl (fun s t => s.modThread c kv.1 t.1 fun t => { t with held := !t.held, reached := t.reached || !t.held }) s
        s.modWg c kv.1 (·.noteRest s.tick)) s

/-- Every live thread of a workgroup is at a blocking point (R171, R173). -/
def State.atBlocking (s : State) (c : Nat) (g : Workgroup) : Bool :=
  g.threads.all (fun t => !t.2.live || t.2.park != .none || s.isHeld c g t.1)

/-- A granted matrix command was posted by a thread of a workgroup, whose registers it may name (R260). -/
def State.grantedTo (s : State) (c ws : Nat) : Bool :=
  (s.quad (quadOf c)).table.any (fun m => m.phase == .started && (match m.who with
    | .lane d _ _ w _ => d == c && w == ws
    | _ => false))

/-- Groups with a member among the commands that leave a table are formed no longer (R260). -/
def unform (gone : List Command) (t : List Command) : List Command :=
  t.map (fun m => if m.formed && m.phase != .started && gone.any (fun d => d.formed && d.slot == m.slot) then { m with formed := false, slot := none } else m)

/-- Commands leave the reservation table for the front of their core's posted ones, keeping their places in their streams (R260). -/
def State.withdrawTable (s : State) (c : Nat) (gone : List Command) : State :=
  let back := gone.map (fun (m : Command) => { m with formed := false, slot := none })
  let s := s.modQuad (quadOf c) fun q => { q with table := unform gone (q.table.filter (fun m => !gone.any (·.id = m.id))) }
  s.modCore c fun y => { y with matQ := back ++ y.matQ }

/-- The ungranted entries of a core that leave the table with a workgroup: those its threads posted, and each behind one in its stream
(R260). -/
def leavesWith (c ws : Nat) : List Nat → List Command → List Command
  | _, [] => []
  | held, m :: ms =>
    let mine := match m.who with
      | .lane d _ _ w _ => d == c && w == ws
      | _ => false
    if m.core = c && m.phase != .started && (mine || held.contains m.ms) then m :: leavesWith c ws (m.ms :: held) ms
    else leavesWith c ws held ms

/-- A workgroup is evicted and saved: its store queues have drained, its stores are released at package scope, its `waitu` records
are re-pointed, and its threads and registers are written to the save area (R332). A save area that breaks R326 removes the
context. Nothing happens before every thread is at a blocking point, or while a home takes no write. -/
def State.evictWg (s : State) (c ws : Nat) : State :=
  let x := s.coreCtx c
  let base := s.saveArea x (((s.core c).lcore).getD 0)
  match (s.core c).wg ws with
  | none => s
  | some g =>
    if g.state ≠ .resident || !g.evict || !s.atBlocking c g || !(s.core c).queuesIdle g || s.grantedTo c ws then s
    else if !s.saveAreaOk x base then s.beginRemoval x trapENGINEFATAL
    else
      let held := s.heldThreads c g
      let (s1, ok) := s.releaseNow x (dieOf c)
      if !ok then s
      else
        let runnable := g.threads.any (fun t => t.2.live && t.2.park == .yield)
        let g := { g with state := if runnable then .evictedRunnable else .evictedWaiting, evict := false }
        let s1 := (s1.repoint g.waitIds none).withdrawTable c (leavesWith c ws [] (s1.quad (quadOf c)).table)
        let s1 := s1.modCore c fun y => { (y.setWg ws (some g)) with swBegan := some (y.swBegan.getD s.tick) }
        s1.saveWorkgroup base c ws g [] held

/-! ### Leaving a core (R327, R332) -/

/-- The value of a guard slot once its engines may act on it: resolved, and every entry that the control thread queued before has
left (R212). -/
def Core.guardNow (y : Core) (k : Nat) : Guard := if SMap.get 0 k y.guardWait = 0 then y.guardSlot k else none

/-- The head of a list of commands waits for its guard slot. -/
def Core.headHeld (y : Core) (l : List Command) : Bool :=
  match l with
  | m :: _ => (match m.guard with
    | some k => (y.guardNow k).isNone
    | none => false)
  | [] => false

/-- A command of a core that a switch withdraws: a matrix command not granted (R260), or one held for a guard slot or behind one
(R212). -/
def State.ungranted (s : State) (c : Nat) (m : Command) : Bool :=
  let y := s.core c
  y.matQ.contains m || ((s.quad (quadOf c)).table.contains m && m.phase != .started) ||
  (y.copyQ.contains m && y.headHeld y.copyQ) || (y.holdQ.contains m && y.headHeld y.holdQ)

/-- The entries of a core in the reservation table that are not granted. -/
def State.waitingTable (s : State) (c : Nat) : List Command := (s.quad (quadOf c)).table.filter (fun m => m.core = c && m.phase != .started)

/-- The commands of a core that a switch withdraws, in order. -/
def State.withdrawn (s : State) (c : Nat) : List Command :=
  (s.core c).copyQ ++ (s.waitingTable c).map (fun m => { m with formed := false, slot := none }) ++ (s.core c).matQ ++ (s.core c).holdQ

/-- A copy command. -/
def CmdOp.isCopy : CmdOp → Bool
  | .cp _ => true
  | .cpg _ => true
  | .cpm => true
  | _ => false

/-- A command of an engine that many cores share. -/
def CmdOp.isShared : CmdOp → Bool
  | .ade _ => true
  | .dload => true
  | .drun => true
  | .coll _ _ => true
  | _ => false

/-- A core's logical core may leave: no resident workgroup, queues drained or held, the control thread idle or at a blocking point,
and no engine holds one of its commands (R332). -/
def State.mayLeave (s : State) (c : Nat) : Bool :=
  let y := s.core c
  y.lcore.isSome &&
  y.wgs.all (fun kv => match kv.2 with
    | some g => g.state != .resident
    | none => true) &&
  y.queues.all (fun kv => (resendHead kv.2 != kv.2) || kv.2.isEmpty) &&
  ((s.engineCommands c).filter (fun m => !s.ungranted c m)).isEmpty && (y.ct.cur.run == .idle || y.ct.cur.park != .none)

/-- The control thread that leaves with its logical core, and the one that stays: for `cxsave` the supervisor routine runs on
(R336). -/
def Ct.part (t : Ct) (keep : Bool) : Ct × Ct :=
  if keep then
    ({ t with cur := t.saved.headD {}, saved := t.saved.tail, loadHold := 0 },
     { cur := { t.cur with park := .none, waited := true }, runs := t.runs, loadHold := t.loadHold })
  else (t, { runs := t.runs })

/-- The logical core of a core is saved and leaves it (R332). -/
def State.moveOut (s : State) (c : Nat) (keep : Bool) : State :=
  let x := s.coreCtx c
  let y := s.core c
  let l := y.lcore.getD 0
  let base := s.saveArea x l
  if !s.saveAreaOk x base then s.beginRemoval x trapENGINEFATAL
  else
    let (out, stay) := y.ct.part keep
    let v : SavedCore := { wgs := y.wgs, cbufs := y.cbufs, cbars := y.cbars, bars := y.bars, flags := y.flags, guards := y.guards,
                           guardWait := y.guardWait, toLane := y.toLane, toCt := y.toCt, ct := out, queues := y.queues, held := s.withdrawn c,
                           sys := y.sys }
    let s := ((s.blitBytes base saveRegs y.scratch).blit (base + saveTiles) 0x40000 y.tiles).blit (base + saveCore) saveCoreBytes v.image
    let s := (match y.ct.cur.park with
      | .waitu n => s.repoint [n] none
      | _ => s)
    let gone := s.waitingTable c
    let s := s.modQuad (quadOf c) fun q => { q with table := unform gone (q.table.filter (fun m => m.core ≠ c)) }
    s.modCore c fun y => { y with wgs := [], warps := [], queues := [], matQ := [], copyQ := [], holdQ := [], ct := stay, lcore := none, switch := false,
                                  swBegan := some (y.swBegan.getD s.tick), saved := SMap.set none l (some v) y.saved }

/-! ### Coming back (R332) -/

/-- The core that keeps a saved logical core of a context, and what it keeps. -/
def State.holder (s : State) (x l : Nat) : Option (Nat × SavedCore) :=
  s.cores.findSome? (fun kv => if kv.2.owner = some x then (SMap.get none l kv.2.saved).map (fun v => (kv.1, v)) else none)

/-- A party of a logical core that moves to another core. -/
def Who.rehome (c0 c l : Nat) : Who → Who
  | .lane d lc hw ws tid => if d = c0 && lc = l then .lane c lc hw ws tid else .lane d lc hw ws tid
  | .ct d lc => if d = c0 && lc = l then .ct c lc else .ct d lc
  | .device => .device

/-- A queue entry of a logical core that moves. -/
def Entry.rehome (c0 c l : Nat) (q : Entry) : Entry :=
  { q with who := q.who.rehome c0 c l,
           kind := match q.kind with
             | .command m => .command { m with core := c, who := m.who.rehome c0 c l }
             | k => k }

/-- Requests, waits, workers and pending results of a logical core follow it to another core. -/
def State.rehome (s : State) (c0 c l : Nat) : State :=
  if c0 = c then s
  else
    let f := Who.rehome c0 c l
    let mine := fun (p : Load) => p.who != f p.who
    let moved := ((s.core c0).loads.filter mine).map (fun p => { p with who := f p.who })
    let req := fun (m : Msg) => match m.req with
      | .load d n z => if m.who != f m.who then Req.load c n z else .load d n z
      | r => r
    let net := s.net.map (fun (m : Msg) => { m with who := f m.who, req := req m })
    let waits := s.waits.map (fun (w : Wait) => { w with who := f w.who })
    let bags := s.bags.map (fun (b : Bag) => { b with workers := b.workers.map (fun w => { w with who := f w.who }) })
    let s := { s with net := net, waits := waits, bags := bags }
    (s.modCore c0 fun y => { y with loads := y.loads.filter (fun p => !mine p) }).modCore c fun y => { y with loads := y.loads ++ moved }

/-- A save area that a restore reads holds up to R326 and holds no poisoned word (R326, R345). -/
def State.restorable (s : State) (x base : Nat) : Bool := s.saveAreaOk x base && s.unpoisoned base saveBytes

/-- An evicted workgroup is read back, its yielding threads run again, and its frontier is formed (R332). One not yet started has
nothing to read. A save area that breaks R326 or is poisoned removes the context (R326, R345). -/
def State.restoreWg (s : State) (c ws : Nat) : State :=
  let x := s.coreCtx c
  let base := s.saveArea x (((s.core c).lcore).getD 0)
  match (s.core c).wg ws with
  | some g =>
    if g.state = .trapped then s
    else if g.started && !s.restorable x base then s.beginRemoval x trapENGINEFATAL
    else
      let (g, s) := if g.started then s.loadWorkgroup base c ws g else (g, (s.modCore c fun y => y.putWgRegs g []).markRecord c ws g)
      let g := { g.freshCounters s.tick with state := .resident, started := true }
      let g := { g with threads := g.threads.map (fun t => (t.1, { t.2 with park := if t.2.park = .yield then .none else t.2.park, woken := false })) }
      let g := s.rebuildFrontier g []
      let s := (s.modCore c (·.setWg ws (some g))).repoint g.waitIds (some (c, ws))
      s.restoreActions c ws
  | none => s

/-- A logical core becomes current on a core and is restored (R332, R336). A save area that breaks R326 or is poisoned removes the
context (R326, R345). -/
def State.moveIn (s : State) (c l : Nat) : State :=
  let x := s.coreCtx c
  let base := s.saveArea x l
  if !s.restorable x base then s.beginRemoval x trapENGINEFATAL
  else
    let fresh := (s.holder x l).isNone
    let (c0, v) := ((s.holder x l).map (fun p => (p.1, p.2.restored (fun i => s.homeWord (base + saveCore + 4 * i))))).getD (c, {})
    let s := s.rehome c0 c l
    let s := s.modCore c0 fun y => { y with saved := SMap.set none l none y.saved }
    let s := s.flushRange base 0x120000
    let held := v.held.map (fun (m : Command) => { m with core := c, who := m.who.rehome c0 c l })
    let queues := v.queues.map (fun kv => (kv.1, (if kv.1 = ctQueue then resendHead else id) (kv.2.map (Entry.rehome c0 c l))))
    let s := s.modCore c fun y =>
      let t := y.ct
      let ct := if t.cur.run = .idle then { v.ct with runs := max v.ct.runs t.runs, pending := v.ct.pending ++ t.pending }
        else { v.ct with cur := t.cur, saved := (if v.ct.cur.run = .idle then [] else [v.ct.cur]) ++ v.ct.saved, pending := v.ct.pending ++ t.pending,
                         runs := max v.ct.runs t.runs, loadHold := t.loadHold + v.ct.loadHold }
      { y with wgs := v.wgs, cbufs := v.cbufs, cbars := v.cbars, bars := v.bars, flags := v.flags, guards := v.guards, guardWait := v.guardWait,
               toLane := v.toLane, toCt := v.toCt, ct := ct, queues := queues, sys := v.sys,
               copyQ := held.filter (·.op.isCopy), holdQ := held.filter (·.op.isShared),
               matQ := held.filter (fun m => !m.op.isCopy && !m.op.isShared), lcore := some l,
               scratch := if fresh then [] else s.mem.bytesIn base saveRegs, tiles := if fresh then [] else s.mem.wordsIn (base + saveTiles) 0x40000 }
    let s := (v.wgs.map (·.1)).foldl (fun s ws => s.restoreWg c ws) s
    let s := (match v.ct.cur.park with
      | .waitu n => s.repoint [n] (some (c, 6))
      | _ => s)
    let s := s.acquire c x 4
    let s := s.resendRetired
    s.modCore c fun y => { y with since := s.tick, swtime := s.tick - y.swBegan.getD s.tick, swBegan := none, switch := false }

end Sys2Proof.Machine
end

