-- ==== Sys2Proof/Machine/Drain.lean ====
section
/-! DEFINITION. How a store queue's head leaves (R25, R81, R82, R96, R104-R109, R148, R396): the entry is performed, sent to its home
or engine, or held. -/

namespace Sys2Proof.Machine

/-! ### Page requests (R106, R320) -/

/-- A page request is posted to the context's area, which must be resident and the context's (R320); false where it is refused. A request joins one
queued of its page, generation and completion word, whichever kind either is (R319). -/
def State.postRequest (s : State) (x : Nat) (cword : DWord) (vpage kind : Nat) : State × Bool :=
  let area := (s.ctx x).reg 0x12
  match s.areaLoad x (area + 0x10000), s.areaLoad x (area + 0x10004), s.areaLoad x area with
  | some prod, some cons, some _ =>
    let n := (prod - cons).toNat
    let rec_ : List Word := [cword.lo, cword.hi, BitVec.ofNat 32 vpage,
      BitVec.ofNat 32 (x * 2 ^ 20 + (s.ctx x).gen.toNat * 16 + kind)]
    let slot := fun (i : Nat) => area + BitVec.ofNat 64 (16 * (i % 4096))
    let keys : List Word := [0xFFFFFFFF, 0xFFFFFFFF, 0xFFFFFFFF, 0xFFFFFFF0]
    let same := fun (i : Nat) => ((rec_.zip keys).zipIdx).all (fun p =>
      (s.areaLoad x (slot i + BitVec.ofNat 64 (4 * p.2))).map (· &&& p.1.2) == some (p.1.1 &&& p.1.2))
    if (List.range (min n 4096)).any (fun i => same (cons.toNat + i)) then (s, true)
    else if 4096 ≤ n then (s, false)
    else ((s.areaStores x (slot prod.toNat) rec_).areaStore x (area + 0x10000) (prod + 1), true)
  | _, _, _ => (s, false)

/-- The home that a `pgreq` reaches is down: the one of its completion word where the device writes that at once, or of the page-request
area (R106, R353). -/
def State.requestDown (s : State) (q : Entry) (x : Nat) (word : DWord) : Bool :=
  let resident := match s.walk x q.va with
    | some t => s.ownsFrame x t.pa
    | none => false
  if resident || !(s.postRequest x word (vpageOf q.va) 0).2 then s.homeDown q.pa
  else match s.walk x ((s.ctx x).reg 0x12) with
    | some t => s.homeDown t.pa
    | none => false

/-- `pgreq` leaves the queue: the completion word takes 1 where the page is resident, 2 where the request is refused (R106). -/
def State.requestPage (s : State) (q : Entry) (x : Nat) (word : DWord) : State :=
  let resident := match s.walk x q.va with
    | some t => s.ownsFrame x t.pa
    | none => false
  if resident then s.devStore x word 1
  else
    let r := s.postRequest x word (vpageOf q.va) 0
    if r.2 then r.1 else r.1.devStore x word 2

/-! ### Errors that reach a thread late (R396) -/

/-- A wait is cancelled with no result: the device and its home forget it. -/
def State.cancelWait (s : State) (n : Nat) : State :=
  let drop := fun (e : MonEntry) =>
    { e with waiters := (e.waiters.map (fun w => { w with waits := w.waits.filter (· ≠ n) })).filter (fun w => w.waits != []) }
  let cut := fun (l : List MonEntry) => (l.map drop).filter (fun e => e.waiters != [])
  let has := fun (l : List MonEntry) => l.any (fun e => e.waiters.any (fun w => w.waits.contains n))
  let s := (s.hbm.filter (fun kv => kv.2.monitor.any (fun p => has p.2) || has kv.2.spilled || has kv.2.fallback)).foldl
    (fun s kv => s.modStack kv.1 fun k => { k.setSpilled (cut k.spilled) with
                                                   monitor := (k.monitor.map (fun p => (p.1, cut p.2))).filter (fun p => p.2 != []),
                                                   fallback := cut k.fallback }) s
  let s := s.endWaitRecord n
  { s with net := s.net.filter (fun (m : Msg) => m.req != .wait n && m.req != .cancel n) }

/-- A parked thread that leaves its wait when an error reply for an earlier request reaches it; one held for a request of the
instruction itself stays (R396). -/
def Thread.leavesWait (t : Thread) : Bool :=
  match t.park with
  | .none => false
  | .joining _ _ _ => false
  | .staithe _ => false
  | .barrier _ _ _ => t.capture.isNone
  | _ => true

/-- A parked party whose arrival or put still stands in its store queue takes it back, so that its instruction can run again: an
arrival of `meet.join` is then not made (R396). The answer says whether the entry was the one held. -/
def State.takeBack (s : State) (who : Who) (p : Park) : Option (State × Bool) :=
  let mine := fun (q : Entry) => q.who == who && (match p, q.kind with
    | .joining _ _ b, .arrive b' _ => b == b'
    | .staithe _, .put _ _ _ _ => true
    | _, _ => false)
  let qs := (s.core who.core).queue who.hw
  (qs.findIdx? mine).map fun n =>
    let q := qs.getD n default
    let s := s.dropAt who.core who.hw n
    (match q.kind with
      | .arrive b _ => s.dropArrival b
      | _ => s, q.isHeld)

/-- A party parked for the answer to a `bgrow` or a `wqwait` is forgotten there, so that its instruction can run again (R396). -/
def State.forgetRequest (s : State) (who : Who) (p : Park) : Option State :=
  let mine := fun (m : Msg) => m.who == who && (match p, m.req with
    | .staithe _, .grow _ => true
    | .wqwait _ _, .await _ => true
    | _, _ => false)
  match p with
  | .wqwait _ _ =>
    let un := fun (b : Bag) => { b with workers := b.workers.map (fun w => if w.who == who then { w with parked := none } else w) }
    some { s with net := s.net.filter (fun m => !mine m), bags := s.bags.map un }
  | .staithe _ => if s.net.any mine then some { s with net := s.net.filter (fun m => !mine m) } else none
  | _ => none

/-- An error reply writes one event at the package that was asked and one at the package that asked (R366); between them they are this one's
two where no peer's window is named. -/
def State.replyEvents (s : State) (x code pa : Nat) (va : DWord) : State :=
  if isWindowPa pa && s.windowKind pa == 1 then s.event x 2 code (bitsOf (s.mem.word (s.entryAddr (gfnOf pa) + 0x18)).toNat 29 21) va
  else (s.event x 1 code s.pkg.toNat va).event x 2 code s.pkg.toNat va

/-- A thread that has moved on from a request takes REMOTE_ERR before its next instruction; one that has exited discards the held
entry, and the reply is recorded (R366, R396). A control thread takes it in the run that made the request. -/
def State.raiseMoved (s : State) (who : Who) (code run : Nat) : State :=
  match who with
  | .device => s
  | .ct c lc =>
    let own := Ct.hasRun (8 + run)
    let cur := (s.findCt c lc own).cur
    let s := if cur.serial ≠ run then s else match cur.park with
      | .waitu n => s.cancelWait n
      | p => (match s.takeBack who p with
        | some r => r.1
        | none => (s.forgetRequest who p).getD s)
    s.modCtOf c lc (fun t => t.raise (8 + run) effREMOTEERR (BitVec.ofNat 32 code)) own
  | .lane c _ hw ws _ =>
    let t := s.seeThread who
    let o : Owed := { id := effREMOTEERR, arg := BitVec.ofNat 32 code, at_ := false }
    if !t.live then (s.discardHeld c hw who).tryFinish c ws
    else match s.takeBack who t.park with
      | some r => r.1.endWait who fun t => { t with effect := some { o with at_ := r.2 }, capture := none }
      | none => match s.forgetRequest who t.park with
        | some s => s.endWait who fun t => { t with effect := some o, capture := none }
        | none =>
          if t.leavesWait then
            let s := match t.park with
              | .waitu n => s.cancelWait n
              | _ => s
            s.endWait who fun t => { t with effect := some o, capture := none }
          else s.changeThread who fun t => { t with effect := some (t.effect.getD o) }

/-- The head of a queue is held with an error code, which its thread takes (R396); code 0 holds it for a mapping (R96). -/
def State.holdHead (s : State) (c hw code : Nat) : State :=
  match (s.core c).queue hw with
  | [] => s
  | q :: qs =>
    let s := s.modCore c (·.setQueue hw ({ q with phase := .held code } :: qs))
    if code = 0 then (s.postRequest (s.coreCtx c) 0 (vpageOf q.va) 1).1 else s.raiseMoved q.who code q.run

/-- The head of a queue is answered by an error reply at once (R353, R366). -/
def State.refuseHead (s : State) (c hw code : Nat) : State :=
  match (s.core c).queue hw with
  | [] => s
  | q :: _ => (s.replyEvents (s.coreCtx c) code q.pa q.va).holdHead c hw code

/-- An entry is put before the head of a queue; what counts the queue's entries counts it (R105, R212). -/
def State.pushHead (s : State) (c hw : Nat) (q : Entry) : State :=
  let s := s.modCore c fun y =>
    let y := y.setQueue hw (q :: y.queue hw)
    if hw = ctQueue then { y with guardWait := y.guardWait.map (fun kv => (kv.1, kv.2 + 1)) } else y
  let step := fun (m : Msg) => match m.req with
    | .steal v sc (some l) => if v = c then { m with req := .steal v sc (some (l.map (fun p => if p.1 = hw then (p.1, p.2 + 1) else p))) } else m
    | _ => m
  { s with net := s.net.map step }

/-- A bag or worker request that was answered by an error stands held at the head of its home warp's queue, and its party takes REMOTE_ERR
(R396); none while the head there is on its way. -/
def State.holdQuery (s : State) (m : Msg) (code : Nat) : Option State :=
  let c := m.who.core
  let q := (s.core c).queue m.who.hw
  let p := (s.core c).loads.find? (fun p => p.who == m.who && some p.id == m.load)
  let run := match m.who, p with
    | .ct d lc, none => (s.findCt d lc).cur.serial
    | _, some p => (p.warp.getD 8) - 8
    | _, _ => 0
  let idle := match q with
    | [] => true
    | e :: _ => e.phase == .queued || e.isHeld
  if !idle then none
  else some ((s.pushHead c m.who.hw { kind := .query m.req (m.load.getD 0), who := m.who, pc := (p.map (·.pc)).getD 0, va := m.va, pa := m.pa,
                                      gen := m.gen, phase := .held code, run := run }).raiseMoved m.who code run)

/-! ### Engines (R109, R212, R261, R272, R278) -/

/-- The commands that take room in a quad's reservation table (R169). -/
def State.tableLoad (s : State) (q : Nat) : Nat :=
  (s.quad q).table.length + ((span (4 * q) 4).map (fun c => (s.core c).matQ.length)).sum

/-- The stack whose ADE serves a command: the home of its key descriptor's base, or the own die's where that names none (R272). -/
def State.adeStack (s : State) (m : Command) : Nat :=
  let d := s.desc m.ctx m.tidB
  match (if d.bkind = 0 then s.xlate m.core m.ctx d.base else none) with
  | some t => if isWindowPa t.pa then dieOf m.core else homeStack t.pa
  | none => dieOf m.core

/-- The rank of a command's logical core in its group (R219). -/
def State.rankOf (s : State) (m : Command) : Option Nat :=
  let l := match m.who with
    | .lane _ l _ _ _ => l
    | .ct _ l => l
    | .device => 0
  (SMap.get [] (m.slotNat 0) (s.ctx m.ctx).groups).findIdx? (fun p => p.1 = s.pkg.toNat && p.2 = l)

/-- Add a rank's command to the first collective of its group that it has no part in (R219). -/
def joinColls (m : Command) (rank : Nat) : List Coll → Option (List Coll)
  | [] => none
  | k :: ks =>
    if k.ctx = m.ctx && k.group = m.slotNat 0 && !k.ended && !k.parts.any (·.1 = rank) && (SMap.get [] rank k.data).isEmpty &&
        k.parts.all (fun p => p.2.fault = 0) then
      some ({ k with parts := k.parts ++ [(rank, m)] } :: ks)
    else (joinColls m rank ks).map (k :: ·)

/-- A command reaches the collective engine. One whose group does not list its logical core is checked alone. -/
def State.joinColl (s : State) (m : Command) : State :=
  let new := fun (r : Nat) (m : Command) => { s with colls := s.colls ++ [{ ctx := m.ctx, group := m.slotNat 0, parts := [(r, m)], data := [] }] }
  match s.rankOf m with
  | none => new 0 { m with fault := 5 }
  | some r => match joinColls m r s.colls with
    | some l => { s with colls := l }
    | none => new r m

/-- A command goes to an engine that many cores share; none while its queue is full. -/
def State.toShared (s : State) (m : Command) : Option State :=
  match m.op with
  | .ade _ =>
    let k := s.adeStack m
    if 64 ≤ (s.stack k).ade.length then none else some (s.modStack k fun t => { t with ade := t.ade ++ [m] })
  | .dload => some (s.modSeq (m.slotNat 0 % 512) fun q => { q with queue := q.queue ++ [m] })
  | .drun => some (s.modSeq (m.slotNat 0 % 512) fun q => { q with queue := q.queue ++ [m] })
  | .coll _ _ => some (s.joinColl m)
  | _ => some s

/-- A command at the head of a store queue is posted to its engine; none while that is full. A guarded command of the control thread
for a shared engine, and each behind it, goes to the guard hold buffer (R212). -/
def State.toEngine (s : State) (c : Nat) (m : Command) : Option State :=
  let y := s.core c
  let shared :=
    if (match m.who with
        | .ct _ _ => true
        | _ => false) && (m.guard.isSome || !y.holdQ.isEmpty) then
      if 8 ≤ y.holdQ.length then none else some (s.modCore c fun y => { y with holdQ := y.holdQ ++ [m] })
    else s.toShared m
  match m.op with
  | .cp _ | .cpg _ | .cpm =>
    if 16 ≤ (y.copyQ.filter (fun d => d.phase != .started)).length then none else some (s.modCore c fun y => { y with copyQ := y.copyQ ++ [m] })
  | .ade _ => shared
  | .dload => shared
  | .drun => shared
  | .coll _ _ => shared
  | _ => if 32 ≤ s.tableLoad (quadOf c) then none else some (s.modCore c fun y => { y with matQ := y.matQ ++ [m] })

/-! ### The release of an entry (R82) -/

/-- The scope an entry releases at before it is performed (R93, R102, R104, R182, R217). -/
def EntryKind.release : EntryKind → Nat
  | .store _ _ scope _ _ => scope
  | .atomic _ _ _ ordered _ _ _ => if ordered then 4 else 0
  | .fence scope => scope
  | .arrive _ scope => scope
  | .bagOp op _ => if op = 0 then 4 else 0
  | _ => 0

/-- A thread has a plain or home load in flight (R104: a fence waits for its thread's earlier loads, and later ones wait for it). -/
def Core.loadsOf (y : Core) (who : Who) : Bool := y.loads.any (fun p => p.isLoad && p.who == who)

/-- An entry may not be performed yet: an earlier load of its home warp has not read (R148), or an earlier load of the thread of a
fence or `invspan` has not returned (R104, R108), or a thread of the same instruction with a lower home lane comes first (R102). -/
def Core.blocked (y : Core) (hw : Nat) (q : Entry) : Bool :=
  y.homeUnread (queueWho hw) ||
  (match q.kind with
   | .fence _ => y.loadsOf q.who
   | .span _ _ inv => inv && y.loadsOf q.who
   | _ => false) ||
  (let n := match q.kind with
     | .put id _ _ _ => id
     | .drain id => id
     | _ => q.id
   n ≠ 0 && y.queues.any (fun kv => kv.1 ≠ hw && kv.2.any (fun e =>
     (match e.kind with
      | .put id _ _ _ => id == n
      | .drain id => id == n
      | _ => e.id == n) && decide (e.who.home < q.who.home))))

/-- A write of a context to a peer window is not acknowledged yet (R82). -/
def State.peerWritesOut (s : State) (x : Nat) : Bool :=
  s.net.any (fun m => m.ctx = x && m.reply.isNone && isWindowPa m.pa && s.windowKind m.pa == 1 && (match m.req with
    | .store _ _ => true
    | .atomic _ _ _ _ _ => true
    | _ => false))

/-! ### Performing an entry -/

/-- A request of an entry travels to its home, which another address than the entry's may name, and the entry waits at the head for the
acknowledgement. -/
def State.sendHead (s : State) (c hw : Nat) (q : Entry) (req : Req) (load : Option Nat) (home : Option Nat := none) : State :=
  let m : Msg := { who := q.who, ctx := s.coreCtx c, gen := q.gen, va := q.va, pa := home.getD q.pa, req := req, hw := hw, load := load, since := s.tick }
  (s.modCore c fun y => y.setQueue hw ({ q with phase := .sent } :: (y.queue hw).tail)).send m

/-- A store of a lane thread counts in its workgroup's digest when it is applied (R290); the device's own writes do not. -/
def State.countStore (s : State) (c : Nat) (q : Entry) (size : Nat) (data : BitVec 128) (own : Bool) : State :=
  match q.who with
  | .lane _ _ _ ws tid => if own then s else s.addDigest c ws tid (q.va.toNat % 2 ^ 48) size data.toNat
  | _ => s

/-- A store is performed: to a window, in the die's L2, or at the home (R33, R74, R76, R81, R95, R284, R353). A store that goes to its home
reaches no L1 before, where another write of the home could put an older value back (R79). One whose frame or window entry is no longer the
context's is held as at a rejection, or for want of permission (R309, R314). DESIGN CHOICE (assumption 64): a supervisor physical store to a reserved or
read-only offset of a window writes nothing and gets no error reply; R30 gives the code of such a write for engine commands alone. -/
def State.leaveStore (s : State) (c hw : Nat) (q : Entry) (size : Nat) (data : BitVec 128) (scope : Nat) (own phys : Bool) : State :=
  let x := s.coreCtx c
  let d := dieOf c
  let pop := fun (s : State) => (s.countStore c q size data own).dropHead c hw
  let home := fun (s : State) => s.sendHead c hw q (.store size data) none
  match placeOf q.pa with
  | .onchip _ =>
    match s.windowCore x q.pa with
    | none => s.refuseHead c hw 2
    | some p =>
      if s.dieDown (dieOf p.1) then s.refuseHead c hw 6 else
      pop (((wordsAt q.pa size).zip (if size < 4 then [(partialWord q.pa size data.toNat).1] else wordsOf (size / 4) data.toNat)).foldl (fun s a =>
        let o := p.2 / 4 * 4 + (a.1 - wordAddr q.pa)
        (s.setWindow p.1 o (mergeBytes ((s.core p.1).windowWord o) a.2 (if size < 4 then (partialWord q.pa size data.toNat).2 else 15))).getD s) s)
  | .window _ =>
    if !s.ownsFrame x q.pa then s.holdHead c hw 0
    else if (s.ientry (gfnOf q.pa)).perm &&& permW = 0 then s.holdHead c hw 2
    else if s.windowKind q.pa = 1 then home (s.toWindow x q.pa size data.toNat) else pop (s.toWindow x q.pa size data.toNat)
  | _ =>
    if phys || 4 ≤ scope || s.activeLine q.pa then home s
    else if !s.ownsFrame x q.pa then s.holdHead c hw 0
    else if s.homeDown q.pa && !((s.die d).storeHits q.pa size && (s.die d).pinRoom q.pa) then s.refuseHead c hw 5
    else if size < 4 && ((s.die d).word q.pa).isNone then home s
    else pop ((s.storeL1 c q.pa size data.toNat).storeL2 d q.pa size data.toNat (s.homeDown q.pa))

/-- The dirty words of the LLC in a span reach memory, and stay held clean (R108, `.mem`). -/
def State.cleanWords (s : State) (as : List Nat) : State :=
  as.foldl (fun s a =>
    let l := s.llcLine a
    if l.dirty.getLsbD (widx a) && !l.lost (widx a) then
      { s.memWrite a (SMap.get 0 (widx a) l.data) with
        llc := SMap.set {} (lineOf a) { l with dirty := l.dirty &&& ~~~BitVec.twoPow 32 (widx a) } s.llc }
    else s) s

/-- A span operation (R108). -/
def State.leaveSpan (s : State) (c hw : Nat) (q : Entry) (len : Nat) (mem inv : Bool) : State :=
  let d := dieOf c
  let as := wordsAt q.pa len
  let dirty := as.filter (fun a => (s.die d).dirtyAt a)
  if dirty.any s.homeDown then s.holdHead c hw 5
  else
    let s := dirty.foldl (fun s a => s.writeBack d a) s
    let s := if mem then s.cleanWords as else s
    let s := if inv then (as.foldl (fun s a =>
        let s := if ((s.die d).word a).isSome then s.modDie d (·.dropWord a) else s
        s.modCore c fun y => { y with l1 := l1Drop a y.l1 }) s).lowerHold q.who
      else s
    s.dropHead c hw

/-- An arrival's release has completed (R182). -/
def State.leaveArrive (s : State) (c hw batch : Nat) : State :=
  let step := fun (m : Msg) => match m.req with
    | .arrive sc id n left => if m.load = some batch then { m with req := .arrive sc id n (left - 1) } else m
    | _ => m
  ({ s with net := s.net.map step } : State).dropHead c hw

/-- An entry whose release has completed is performed (R25). -/
def State.leaveHead (s : State) (c hw : Nat) (q : Entry) : State :=
  let x := s.coreCtx c
  let d := dieOf c
  match q.kind with
  | .store size data scope own phys => s.leaveStore c hw q size data scope own phys
  | .atomic op w64 upd _ v k dest => s.sendHead c hw q (.atomic op w64 upd v k) (dest.map (fun _ => 0))
  | .put id header key words => (s.send { bagRequest s q.who x header (.put key words) (some id) with hw := hw }).dropHead c hw
  | .drain id => s.sendHead c hw q .drain (some id) (some (((s.recordSlot x q.va).map (·.1.headerPa)).getD (ownHome c)))
  | .wait n =>
    if (s.die d).dirtyAt q.pa && s.homeDown q.pa then (match s.waits.find? (·.id = n) with
      | some w => (s.dropHead c hw).waitEffect w effREMOTEERR 5
      | none => s.dropHead c hw)
    else
      let s := s.writeBack d q.pa
      (s.send { who := q.who, ctx := x, gen := q.gen, va := q.va, pa := q.pa, req := .wait n, hw := hw, since := s.tick }).dropHead c hw
  | .span len mem inv => s.leaveSpan c hw q len mem inv
  | .fence scope => ((s.acquire c x scope).lowerHold q.who).dropHead c hw
  | .arrive batch _ => s.leaveArrive c hw batch
  | .pgreq word => if s.requestDown q x word then s.refuseHead c hw 5 else (s.requestPage q x word).dropHead c hw
  | .command m => match s.toEngine c m with
    | none => s
    | some s => (s.dropHead c hw).commandGone c m.id (fun b => b == m.bar && !m.toQueue)
  | .query req id => (s.send { bagRequest s q.who x q.va req (if id = 0 then none else some id) with hw := hw }).dropHead c hw
  | .bagOp op id =>
    let req : Option Req := match op with
      | 0 => (s.tableWords x q.va false 8).map Req.make
      | 1 => some .seal
      | _ => some .free
    match req with
    | none => (s.dropHead c hw).loadData c id q.who (some 3)
    | some r => (s.send { bagRequest s q.who x (match r with
        | .make ws => dword (ws.getD 0 0) (ws.getD 1 0)
        | _ => q.va) r (some id) with hw := hw }).dropHead c hw

/-- The words that a die's L2 must write back before an entry is performed: the context's for a release at package scope or beyond, those of
the record's line for a drain (R82, R141). -/
def State.releaseWords (s : State) (c : Nat) (q : Entry) : List Nat :=
  match q.kind with
  | .drain _ => (match s.residentAt c (s.coreCtx c) q.va with
    | some pa => ((wordsAt (pa / 128 * 128) 128).filter (fun a => (s.die (dieOf c)).dirtyAt a)).map (· / 4)
    | none => [])
  | k => if 4 ≤ k.release then s.dirtyWords (s.coreCtx c) (dieOf c) else []

/-- The head of a store queue takes its next step (R81, R82): the words its release must write back are captured, then, once they have
reached their homes, the entry is performed. A home that takes no write holds the entry with code 0x05 (R353). -/
def State.drainHead (s : State) (c hw : Nat) : State :=
  match (s.core c).queue hw with
  | [] => s
  | q :: qs =>
    match q.phase with
    | .held _ => s
    | .sent => s
    | .queued =>
      if (s.core c).blocked hw q || (decide (5 ≤ q.kind.release) && s.peerWritesOut (s.coreCtx c)) then s
      else match s.refreshEntry c q with
        | .error code => (match q.kind with
          | .wait n => (match s.waits.find? (·.id = n) with
            | some w => (s.dropHead c hw).resendWait w
            | none => s.dropHead c hw)
          | .span _ _ inv => if code = 0 then (if inv then s.lowerHold q.who else s).dropHead c hw else s.holdHead c hw code
          | _ => s.holdHead c hw code)
        | .ok q =>
          let words := s.releaseWords c q
          let s := s.modCore c (·.setQueue hw (q :: qs))
          if words.any (fun w => s.homeDown (4 * w)) then s.holdHead c hw 5
          else if words.isEmpty then s.leaveHead c hw q
          else s.modCore c (·.setQueue hw ({ q with phase := .releasing words } :: qs))
    | .releasing words =>
      if words.any (fun w => s.homeDown (4 * w)) then s.holdHead c hw 5
      else if words.isEmpty then s.leaveHead c hw q else s

/-- A workgroup that owns a home warp finishes if its last thread has exited and its queues have drained (R24). -/
def State.finishAfter (s : State) (c hw : Nat) : State :=
  match (s.core c).wgs.find? (fun kv => match kv.2 with
    | some g => g.started && decide (g.hw ≤ hw ∧ hw < g.hw + g.warps)
    | none => false) with
  | some kv => s.tryFinish c kv.1
  | none => s

end Sys2Proof.Machine
end

