-- ==== Sys2Proof/Machine/MemEvents.lean ====
section
/-! DEFINITION. The events of memory accesses: store queues (R81, R82, R96), home slices (R80, R83, R147, R353), and the replies that
reach threads (R91, R102). An event that is not enabled changes nothing. -/

namespace Sys2Proof.Machine

/-! ### Store queues -/


/-- The workgroup that a store queue serves is trapped or evicted: what its queue holds waits for the restore (R332, R333). -/
def Core.queueSaved (y : Core) (hw : Nat) : Bool :=
  y.wgs.any (fun kv => match kv.2 with
    | some g => g.state != .resident && decide (g.hw ≤ hw ∧ hw < g.hw + g.warps)
    | none => false)

/-- `heldEntryResend`: an entry held for a mapping is sent again once its page is mapped; while it is not, its request is posted again
(R96, R320). One of a workgroup that is trapped or evicted is sent at the restore (R333). -/
def execHeldEntryResend (core hw : Nat) (s : State) : Host.Outcome State Fault Refusal :=
  match (s.core core).queue hw with
  | q :: qs =>
    if q.phase = .held 0 && !(s.core core).queueSaved hw then
      match s.again core (s.coreCtx core) q.va 0 with
      | .absent => .next (s.postRequest (s.coreCtx core) 0 (vpageOf q.va) 1).1
      | _ => .next (s.modCore core (·.setQueue hw ({ q with phase := .queued } :: qs)))
    else .next s
  | [] => .next s

/-- The head of a queue that waits for an acknowledgement. -/
def Core.sentHead (y : Core) (hw : Nat) : Option Entry :=
  match y.queue hw with
  | q :: _ => if q.phase = .sent then some q else none
  | [] => none

/-- A request is a physical store, which carries no generation (R95, R314). -/
def State.isPhys (s : State) (m : Msg) : Bool :=
  match m.req, (s.core m.who.core).sentHead m.hw with
  | .store _ _, some q => (match q.kind with
    | .store _ _ _ _ phys => phys
    | _ => false)
  | _, _ => false

/-- One generation is older than another (R157). -/
def genOlder (now g : BitVec 16) : Bool := decide (1 ≤ (now - g).toNat ∧ (now - g).toNat ≤ 32767)

/-- The permission that a request needs of the entry of a window frame (R309, R311). -/
def Msg.need (m : Msg) : BitVec 3 :=
  match m.req with
  | .store _ _ => permW
  | .load _ _ _ => permR
  | .atomic _ _ _ _ _ => if m.load.isSome then permRW else permW
  | .wait _ => permRW
  | _ => 0

/-- A request is stale at its home: made under an older generation, or its frame is another context's (R157, R314); at a window frame also where
the entry lacks the permission (R309). -/
def State.stale (s : State) (m : Msg) : Bool :=
  (genOlder (s.ctx m.ctx).gen m.gen && !s.isPhys m) ||
  (isWindowPa m.pa && !s.isPhys m && (s.ientry (gfnOf m.pa)).perm &&& m.need != m.need) ||
  (!s.ownsFrame m.ctx m.pa && (match m.req with
    | .store _ _ => true
    | .load _ _ _ => true
    | .atomic _ _ _ _ _ => true
    | .wait _ => true
    | _ => false))

/-- A request that met a poisoned word is answered so; one of a context that the error removes gets no answer (R343, R345). -/
def State.answerPoison (s : State) (n : Nat) (m : Msg) (i : Nat) : State := if (s.ctx m.ctx).removal ≠ 0 then s else s.answer n m (.poisoned i)

/-- The first word that is poisoned at its home, where no L2 holds it dirty (R345). -/
def State.poisonedAt (s : State) (as : List Nat) : Option Nat := as.findIdx? (fun a => s.poisoned a && (s.dirtyDies a).isEmpty)

/-- The n-th request in flight, not yet answered. -/
def State.asked (s : State) (n : Nat) : Option Msg := (s.net[n]?).bind (fun m => if m.reply.isNone then some m else none)

/-- The n-th request in flight, answered. -/
def State.replied (s : State) (n : Nat) : Option (Msg × Reply) := (s.net[n]?).bind (fun m => m.reply.map (fun r => (m, r)))

/-- A request writes a word of memory at its home. -/
def Req.writes : Req → Bool
  | .store _ _ => true
  | .atomic _ _ _ _ _ => true
  | _ => false

/-- A request can be applied at its home now: neither stale, nor at a home that takes none, nor a write that waits for a sweep (R188). -/
def State.applicable (s : State) (m : Msg) : Bool := !s.stale m && !s.homeDown m.pa && !(m.req.writes && s.writeWaits m.pa)

/-- No earlier request of the same party, or of the same instruction, waits at that home (assumption: requests of one party to Staithes
apply in the order sent). -/
def State.firstOf (s : State) (n : Nat) (m : Msg) : Bool :=
  !(s.net.take n).any (fun o => o.reply.isNone && (o.who == m.who || (m.load.isSome && o.load == m.load)))

/-! ### Home slices -/

/-- `homeWrite`: a store that travelled to its home is applied and acknowledged, or a dirty word of a die's L2 is written back
(R76, R81, R82, R147). -/
def execHomeWrite (src : HomeWriteSrc) (s : State) : Host.Outcome State Fault Refusal :=
  match src with
  | .message n =>
    match s.asked n with
    | some m =>
      if !s.applicable m then .next s
      else match m.req with
        | .store size data =>
          if isWindowPa m.pa then .next (s.answer n m (.value 0))
          else
          let s := if size < 4 then s.eccCheck m.pa else s
          if size < 4 && (s.poisonedAt [m.pa]).isSome then .next (s.answerPoison n m 0)
          else .next ((s.storeHomeData m.pa size data.toNat).answer n m (.value 0))
        | _ => .next s
    | none => .next s
  | .dirtyWord d word =>
    if (s.die d).dirtyAt (4 * word) && !s.homeDown (4 * word) && !s.writeWaits (4 * word) then .next (s.writeBack d (4 * word)) else .next s

/-- What a load in flight reads now: a plain one from the first level on its path that holds its words (R78, R93), another at the home
slice, past its own die's dirty copy (R80). -/
def State.readLoad (s : State) (m : Msg) (c id size : Nat) : Found :=
  match (s.core c).loads.find? (fun p => p.id = id && p.who == m.who && p.data.isNone) with
  | some p =>
    if p.kind = .plain then s.pathRead c m.ctx m.gen m.va m.pa size (decide (p.scope ≤ 1)) else s.readHomeFill c m.ctx m.gen m.va m.pa size
  | none => s.readHomeFill c m.ctx m.gen m.va m.pa size

/-- An earlier load of the same home warp has not read (R148). -/
def Core.readsBefore (y : Core) (id : Nat) (m : Msg) : Bool :=
  (y.loads.takeWhile (fun p => p.id ≠ id)).any (fun p => p.isLoad && p.data.isNone && queueWho m.hw p.who)

/-- A load in flight reads; one to a window leaves for the host or the peer package, whose answer comes from outside (R74, R309, assumption 7). One
of a context that a poisoned word removes gets no answer (R343). -/
def State.homeRead (s : State) (n : Nat) : State :=
  match s.asked n with
  | some m =>
    match m.req with
    | .load c id size =>
      if s.stale m || (s.core c).readsBefore id m then s
      else if isWindowPa m.pa then
        if !m.sent then (s.readWindow m.ctx m.pa size).setMsg n { m with sent := true, since := s.tick }
        else (s.dropMsg n).loadData c id m.who (some (BitVec.ofNat 128 (wordsValue m.pa size ((wordsAt m.pa size).map s.outsideWord))))
      else match s.readLoad m c id size with
        | .words ws s => (s.dropMsg n).loadData c id m.who (some (BitVec.ofNat 128 (wordsValue m.pa size ws)))
        | .poisoned i s => if (s.ctx m.ctx).removal ≠ 0 then s else (s.dropMsg n).loadData c id m.who none (some i)
        | .down => s
    | _ => s
  | none => s

/-- `homeRead`: a load in flight reads, along its path or at the home. -/
def execHomeRead (n : Nat) (s : State) : Host.Outcome State Fault Refusal := .next (s.homeRead n)

/-- The new value of an atomic's word or pair (R100, R101): operation, old value, operand, the old d of `.cas`. -/
def atomNew (op : BitVec 4) (w64 : Bool) (old v c : DWord) : DWord :=
  let cut := fun (x : DWord) => if w64 then x else x.lo.setWidth 64
  let slt := fun (a b : DWord) => if w64 then a.slt b else a.lo.slt b.lo
  cut (match op.toNat with
    | 0 => old + v
    | 1 => if slt v old then v else old
    | 2 => if slt old v then v else old
    | 3 => if v.ult old then v else old
    | 4 => if old.ult v then v else old
    | 5 => old &&& v
    | 6 => old ||| v
    | 7 => old ^^^ v
    | 8 => v
    | 9 => if old == c then v else old
    | 10 => if v.ule old then 0 else old + 1
    | 11 => if old == 0 || v.ult old then v else old - 1
    | _ => old)

/-- The new word of a floating addition (R101): FP32, or two BF16 halves. -/
def atomFloat (op : BitVec 4) (old v : DWord) : DWord :=
  let a := old.lo.toNat
  let b := v.lo.toNat
  if op.toNat = 12 then BitVec.ofNat 64 (Fmt.f32.add a b)
  else BitVec.ofNat 64 (Fmt.bf16.add (a % 65536) (b % 65536) + 65536 * Fmt.bf16.add (a / 65536) (b / 65536))

/-- The state after an atomic at its home (R83), and the old value. -/
def State.applyAtomic (s : State) (op : BitVec 4) (w64 upd : Bool) (v c : DWord) (pa : Nat) : State × DWord :=
  let as := wordsAt pa (if w64 then 8 else 4)
  let s := as.foldl State.recall s
  let old := BitVec.ofNat 64 (ofWords (as.map s.homeWord))
  let new := if op.toNat = 12 || op.toNat = 13 then atomFloat op old v else atomNew op w64 old v c
  let s := (as.zip (wordsOf 2 new.toNat)).foldl (fun s p =>
    (if upd then s.updateCopies p.1 p.2 else s.dropCopies p.1).applyHome p.1 p.2) s
  (s, old)

/-- `atomicAtHome`. A poisoned word answers POISON (R345); at a peer window the request leaves over a Pelbunis link, and its answer comes from outside
(R74, R365, assumption 7). -/
def execAtomicAtHome (n : Nat) (s : State) : Host.Outcome State Fault Refusal :=
  match s.asked n with
  | some m =>
    match m.req with
    | .atomic op w64 upd v c =>
      if !s.applicable m then .next s
      else
      let size := if w64 then 8 else 4
      if isWindowPa m.pa then
        if !m.sent then
          .next ((s.toPeer m.ctx m.pa (if m.load.isSome then .atomic op upd else .red op upd) size
            (v.setWidth 128 ||| (c.setWidth 128 <<< 64))).setMsg n { m with sent := true, since := s.tick })
        else .next (s.answer n m (.value (BitVec.ofNat 64 (ofWords ((wordsAt m.pa size).map s.outsideWord)))))
      else
      let s := (wordsAt m.pa size).foldl State.eccCheck s
      match s.poisonedAt (wordsAt m.pa size) with
      | some i => .next (s.answerPoison n m i)
      | none =>
        let r := s.applyAtomic op w64 upd v c m.pa
        .next (r.1.answer n m (.value r.2))
    | _ => .next s
  | none => .next s

/-- A party that received poisoned data traps POISON: where it is held, or before its next instruction (R345, R396); a control thread in the
run that asked. -/
def State.poisonParty (s : State) (who : Who) (va : DWord) (tag : Nat) : State :=
  match who with
  | .lane _ _ _ _ _ =>
    let t := s.seeThread who
    if !t.live then s
    else match s.takeBack who t.park with
      | some r => r.1.endWait who fun t => { t with poison := some va, capture := none }
      | none => match s.forgetRequest who t.park with
        | some s => s.endWait who fun t => { t with poison := some va, capture := none }
        | none =>
          if t.leavesWait then s.endWait who fun t => { t with poison := some va, capture := none }
          else s.changeThread who fun t => { t with poison := some va }
  | .ct c lc =>
    let own := Ct.hasRun tag
    let t := s.findCt c lc own
    let p := if t.cur.tag = tag then t.cur.park else .none
    let s := (((s.takeBack who p).map (·.1)).or (s.forgetRequest who p)).getD s
    s.modCtOf c lc (fun t => t.modRun tag fun r => { r with poison := some va, park := .none }) own
  | .device => s

/-- `writeAcknowledgement`: the store at the head of a queue is acknowledged by its home, or by a peer package, and leaves (R82). -/
def execWriteAcknowledgement (core hw : Nat) (s : State) : Host.Outcome State Fault Refusal :=
  match (s.core core).sentHead hw with
  | none => .next s
  | some q =>
    match q.kind with
    | .store size data _ own _ =>
      let mine := fun (m : Msg) => m.hw = hw && m.who == q.who && m.reply.isSome && m.req == .store size data
      match s.net.findIdx? mine with
        | some n =>
          match (s.net[n]?).bind (·.reply) with
          | some (.poisoned i) =>
            .next ((((s.dropMsg n).dropHead core hw).poisonParty q.who (wordOfAccess q.va i) (8 + q.run)).finishAfter core hw)
          | _ => .next ((((s.dropMsg n).countStore core q size data own).dropHead core hw).finishAfter core hw)
        | none => .next s
    | _ => .next s

/-- `atomicReply`: the old value is on its way to the thread, and the entry leaves its queue; a `red` only leaves (R102). -/
def execAtomicReply (n : Nat) (s : State) : Host.Outcome State Fault Refusal :=
  match s.replied n with
  | some (m, r) =>
    match m.req, (s.core m.who.core).sentHead m.hw with
    | .atomic _ _ _ _ _, some q =>
      let c := m.who.core
      let first := ((s.core c).loads.find? (fun p => p.kind == .atomic && p.who == m.who && p.data.isNone && p.va == q.va)).map (·.id)
      let set := fun (v : Option (BitVec 128)) (bad : Option Nat) =>
        match m.load, first with
        | some _, some id => s.loadData c id m.who v bad
        | _, _ => match bad with
          | some i => s.poisonParty m.who (wordOfAccess m.va i) (8 + q.run)
          | none => s
      let s := match r with
        | .value x => set (some (x.setWidth 128)) none
        | .poisoned i => set none (some i)
        | _ => set none none
      .next (((s.dropMsg n).dropHead c m.hw).finishAfter c m.hw)
    | _, _ => .next s
  | none => .next s

/-- `staleRejectRetry`: a request rejected as stale is retranslated and sent again, answered as for an absent page, or held
(R96, R157). -/
def execStaleRejectRetry (n : Nat) (s : State) : Host.Outcome State Fault Refusal :=
  match s.asked n with
  | none => .next s
  | some m =>
    if !s.stale m then .next s
    else
      let c := m.who.core
      let gen := (s.ctx m.ctx).gen
      let resend := fun (need : BitVec 3) (head : Bool) (held : State → Nat → State) =>
        match s.again c m.ctx m.va need with
        | .at_ pa =>
          let s := s.setMsg n { m with pa := pa, gen := gen }
          if head then s.modCore c fun y => match y.queue m.hw with
            | q :: qs => if q.phase = .sent && q.who == m.who then y.setQueue m.hw ({ q with pa := pa, gen := gen } :: qs) else y
            | [] => y
          else s
        | .absent => held (s.dropMsg n) 0
        | .noPerm => held (s.dropMsg n) 2
      match m.req with
      | .load d id _ =>
        let move := fun (t : State) => match t.net[n]? with
          | some o => if o.load == m.load && o.who == m.who && o.gen == gen then t.modCore d fun y => { y with loads := y.loads.map (fun p =>
              if p.id = id && p.who == m.who && p.data.isNone then { p with pa := o.pa, gen := gen } else p) } else t
          | none => t
        .next (move (resend permR false (fun s _ => s.loadData d id m.who none)))
      | .store _ _ =>
        if s.isPhys m then .next ((s.dropMsg n).refuseHead c m.hw 2)
        else .next (resend permW true (fun s code => if code = 0 then s.holdHead c m.hw 0 else s.refuseHead c m.hw code))
      | .atomic _ _ _ _ _ => .next (resend m.need true (fun s code => if code = 0 then s.holdHead c m.hw 0 else s.refuseHead c m.hw code))
      | .wait w => match s.waits.find? (·.id = w) with
        | some v => .next ((s.dropMsg n).resendWait v)
        | none => .next (s.dropMsg n)
      | _ => .next (s.setMsg n { m with gen := gen })

/-! ### Stores that pass loads (R148, R153) -/

/-- The head of a queue is a store that waits only for loads of its home warp which have not read and do not touch it. -/
def State.mayPass (s : State) (c hw : Nat) : Option Entry :=
  let x := s.coreCtx c
  let unread := (s.core c).loads.filter (fun p => p.isLoad && p.data.isNone && queueWho hw p.who)
  match (s.core c).queue hw with
  | q :: _ =>
    (match q.kind with
     | .store size _ scope _ false =>
       let ok := q.phase = .queued && q.gen == (s.ctx x).gen && unread.all (fun p => !q.overlaps p.pa p.size) && s.ownsFrame x q.pa &&
         !isWindowPa q.pa && !s.activeLine q.pa && !s.homeDown q.pa && !s.writeWaits q.pa && !(decide (5 ≤ scope) && s.peerWritesOut x) &&
         (s.releaseWords c q).all (fun w => !s.homeDown (4 * w)) && (decide (4 ≤ size) || (!(s.eccCheck q.pa).poisoned q.pa))
       if ok then some q else none
     | _ => none)
  | [] => none

/-- A store leaves before its home warp's loads read: what its release must write back reaches its homes, then the store's own words do
(R81, R82). -/
def State.passOne (s : State) (c hw : Nat) (q : Entry) : State :=
  match q.kind with
  | .store size data scope own _ =>
    let d := dieOf c
    let s := (s.releaseWords c q).foldl (fun s w => s.writeBack d (4 * w)) s
    if 4 ≤ scope || (decide (size < 4) && ((s.die d).word q.pa).isNone) then
      ((s.storeHomeData q.pa size data.toNat).countStore c q size data own).dropHead c hw
    else (wordsAt q.pa size).foldl (fun s a => s.writeBack d a) (s.leaveHead c hw q)
  | _ => s

/-- The first stores of a queue pass, at most a number of them. -/
def State.passMany (s : State) (c hw : Nat) : Nat → State
  | 0 => s
  | n + 1 => match s.mayPass c hw with
    | some q => State.passMany (s.passOne c hw q) c hw n
    | none => s

/-- The loads of a home warp that have not read. -/
def State.unread (s : State) (c hw : Nat) : List Load := (s.core c).loads.filter (fun p => p.isLoad && p.data.isNone && queueWho hw p.who)

/-- The loads of a home warp that have not read do so, in issue order. -/
def State.readAll (s : State) (c hw : Nat) : State :=
  (s.unread c hw).foldl (fun s p =>
    match s.net.findIdx? (fun m => m.who == p.who && m.load == some p.id && m.reply.isNone) with
    | some n => s.homeRead n
    | none => s) s

/-- Home warps whose stores wait for loads of their own may let some of the stores pass, and then all the loads read: each may find what another
home warp's store has put (R153, load buffering, over two home warps or more). No store that passes can depend on what one of the loads reads,
since all stand in their queues before (R152, shape 5), and none passes unless every load of its home warp that it passes reads in the same
step (R148). Which home warps take part, and how many stores of each, is the device's choice (assumptions 6, 11). -/
def State.crossing (s : State) (c hw : Nat) : Option State :=
  let waits := fun (p : Nat × Nat) => !(s.unread p.1 p.2).isEmpty && (s.mayPass p.1 p.2).isSome
  let others := s.cores.flatMap (fun kv => (kv.2.queues.map (fun u => (kv.1, u.1))).filter (fun p => p ≠ (c, hw) && waits p))
  let picked := (others.zipIdx.filter (fun p => (Config.choice s.steps 8).testBit p.2)).map (·.1)
  if !waits (c, hw) || picked.isEmpty then none
  else
    let all := (c, hw) :: picked
    let s := all.foldl (fun s p => s.passMany p.1 p.2 (1 + Config.choice s.steps (2 ^ 20 + p.1 * 64 + p.2) % 32)) s
    let s := all.foldl (fun s p => s.readAll p.1 p.2) s
    if all.all (fun p => (s.unread p.1 p.2).isEmpty) then some (picked.foldl (fun s p => s.finishAfter p.1 p.2) s) else none

/-- `storeLeaveQueue`: the head of a queue takes its next step, or passes its home warp's loads together with another's. -/
def execStoreLeaveQueue (core hw : Nat) (s : State) : Host.Outcome State Fault Refusal :=
  .next (((s.crossing core hw).getD (s.drainHead core hw)).finishAfter core hw)

/-! ### Error replies (R353, R396) -/

/-- The instruction at a thread's PC, as a fetch reads it now (for the word of a trap frame, R330). -/
def State.instrOf (s : State) (who : Who) : Instr :=
  match s.fetch who.core (s.coreCtx who.core) (s.seeThread who).pc with
  | .code bytes _ => (match decode bytes with
    | .ok (i, _) => i
    | .error _ => .unassignedEncoding (fetchedWord bytes))
  | _ => .unassignedEncoding 0

/-- An error reply with a code reaches the party that asked (R353, R396), and is recorded (R366); one of a context that is being removed is
discarded (R349). None where the party has no room yet to take its effect. -/
def State.errorTo (s : State) (n : Nat) (m : Msg) (code : Nat) : Option State :=
  let arg : Word := BitVec.ofNat 32 code
  if (s.ctx m.ctx).removal ≠ 0 then some (s.dropMsg n) else
  let t := (s.dropMsg n).replyEvents m.ctx code m.pa m.va
  let heldHere := match m.who with
    | .lane _ _ _ _ _ => t.raiseHeld m.who effREMOTEERR arg (s.instrOf m.who)
    | .ct c lc => some (t.modCtOf c lc fun y => y.raise y.cur.tag effREMOTEERR arg)
    | .device => some t
  match m.req with
  | .load c id _ => some (t.loadData c id m.who none)
  | .store _ _ => some (t.holdHead m.who.core m.hw code)
  | .atomic _ _ _ _ _ => some (t.holdHead m.who.core m.hw code)
  | .drain => some (t.holdHead m.who.core m.hw code)
  | .wait w => some (match t.waits.find? (·.id = w) with
    | some v => t.waitEffect v effREMOTEERR arg
    | none => t)
  | .cancel w => some (match t.waits.find? (·.id = w) with
    | some v => t.send { who := v.who, ctx := v.ctx, gen := v.gen, va := v.va, pa := v.pa, req := .wait w, hw := 0, reply := some (.waited false),
                         since := s.tick }
    | none => t)
  | .put _ _ => heldHere
  | .grow _ => heldHere
  | .await _ => heldHere
  | .steal _ _ _ => some t
  | .arrive _ _ _ _ => some t
  | _ => t.holdQuery m code

/-- The die that a request needs is in warm reset or offline. -/
def State.reachesDown (s : State) (m : Msg) : Bool :=
  match m.req with
  | .steal v _ _ => s.dieDown (dieOf v)
  | .arrive _ _ _ _ => false
  | .load c id size => s.homeDown m.pa && (match s.readLoad m c id size with
    | .down => true
    | _ => false)
  | _ => s.homeDown m.pa

/-- `errorReply`: a request to a die or stack in warm reset or offline is answered with code 0x05; an answer that is an error reply
reaches its party (R353). A peer package may answer with any code of R353 (assumption 6). -/
def execErrorReply (n : Nat) (s : State) : Host.Outcome State Fault Refusal :=
  match s.net[n]? with
  | none => .next s
  | some m =>
    match m.reply with
    | some (.error code) => .next ((s.errorTo n m code).getD s)
    | none =>
      if isWindowPa m.pa && s.windowKind m.pa == 1 then .next ((s.errorTo n m (Config.choice s.steps 60 % 6 + 1)).getD s)
      else if s.reachesDown m then .next ((s.errorTo n m 5).getD s) else .next s
    | _ => .next s

/-! ### Results reach their thread (R91, R102) -/

/-- The load found its page and data. -/
def Load.ok (p : Load) : Bool := match p.data with
  | some (some _) => true
  | _ => false

/-- The residency predicates of a load: element k sets p + k, up to 7 (R89, R90). -/
def Load.preds (p : Load) : List (Nat × Bool) :=
  if p.pred = 0 then [] else ((List.range (max 1 ((p.size + 3) / 4))).map (fun k => (p.pred + k, p.ok))).filter (fun q => decide (q.1 ≤ 7))

/-- A result of a lane thread: registers, the latch b3 where its formed warp still runs, and predicates (R24, R45). -/
def State.deliverLane (s : State) (c hw ws tid : Nat) (p : Load) : State :=
  let s := match p.dest with
    | some d => s.writeRegs p.who d p.words
    | none => s
  let s := match p.warp with
    | some k => if p.late then s else s.modCore c fun y => match y.warp k with
      | some w => if w.ws = ws && SMap.get none (tid % 32) w.lanes == some tid then
          y.setWarp k (some { w with latches := SMap.set none (96 + tid % 32) (some (p.words.getD 0 0)) w.latches }) else y
      | none => y
    | none => s
  let s := if p.preds = [] then s else s.changeThread p.who fun t => p.preds.foldl (fun t q => t.setPred q.1 q.2) t
  let _ := hw
  s

/-- A flag of the logical core of a control thread that a test picks, current or switched out (R208, R327); the threads that wait for its value
are woken (R210). -/
def State.setFlagOf (s : State) (c lc p : Nat) (v : Bool) (own : Ct → Bool := Ct.isParked) : State :=
  if s.ctHere c lc own then s.writeFlag c p v
  else
    let s := s.modCore c fun y => match SMap.get none lc y.saved with
      | some w => { y with saved := SMap.set none lc (some { w with flags := ({ flags := w.flags : Core }.setFlag p v).flags }) y.saved }
      | none => y
    s.wakeSaved c lc (Park.awaitsFlag p v)

/-- A result of a control thread: doublewords, and flags (R94). -/
def State.deliverCt (s : State) (c lc : Nat) (p : Load) : State :=
  let v := match p.data with
    | some (some v) => v.toNat
    | _ => 0
  let lo : DWord := if p.signed then (BitVec.ofNat (8 * p.size) v).signExtend 64 else BitVec.ofNat 64 (v % 2 ^ (8 * min p.size 8))
  let n := if p.size = 24 then 3 else if p.size = 16 then 2 else 1
  let vals := if p.size = 24 then (wordsOf 3 v).map (fun w => w.setWidth 64) else [lo, BitVec.ofNat 64 (v / 2 ^ 64)]
  let regs := match p.dest with
    | some d => ((List.range n).map (fun i => d + i)).zip vals
    | none => []
  let own := Ct.hasRun (p.warp.getD 0)
  let s := s.modCtOf c lc (fun t => t.modRun (p.warp.getD 0) fun r => regs.foldl (fun r q => r.setReg q.1 q.2) r) own
  if p.preds = [] then s else p.preds.foldl (fun s q => s.setFlagOf c lc q.1 q.2 own) s

/-- The results of a thread's earlier instructions reach the latch no longer once a later one has (R45). -/
def State.outdate (s : State) (p : Load) : State :=
  let older := fun (q : Load) => q.who == p.who && q.warp == p.warp && decide (q.id < p.id)
  if p.warp.isSome && !p.late && (s.core p.who.core).loads.any older then
    s.modCore p.who.core fun y => { y with loads := y.loads.map (fun q => if older q then { q with late := true } else q) }
  else s

/-- A thread that is parked for the reply to its access goes on (R171). -/
def State.endRemote (s : State) (p : Load) : State :=
  if !p.remote then s
  else match p.who with
    | .ct c lc => s.modCtOf c lc (fun t => t.modRun (p.warp.getD 0) fun r => if r.park = .remote then { r with park := .none } else r)
        (Ct.hasRun (p.warp.getD 0))
    | who => if (s.seeThread who).park = .remote then s.endWait who id else s

/-- The dirty words of a record that a `bnext` returned leave the die's L2 for their homes before the thread's later loads (R140). -/
def State.recordBack (s : State) (p : Load) : State :=
  match p.record with
  | some (pa, n) => ((wordsAt pa n).filter (fun a => !s.homeDown a)).foldl (fun s a => s.writeBack (dieOf p.who.core) a) s
  | none => s

/-- A result reaches its thread: registers, then its acquire, then its poison (R91, R93, R345). -/
def State.deliverLoad (s : State) (p : Load) : State :=
  let s := s.outdate p
  let s := match p.who with
    | .lane c _ hw ws tid => s.deliverLane c hw ws tid p
    | .ct c lc => s.deliverCt c lc p
    | .device => s
  let s := if p.scope = 0 then s
    else (if s.isHere p.who then (s.recordBack p).acquire p.who.core (s.coreCtx p.who.core) p.scope else s).lowerHold p.who
  let s := s.endRemote p
  match p.poison with
  | some i => s.poisonParty p.who (wordOfAccess p.va i) (p.warp.getD 0)
  | none => s

/-- `loadReply`: the n-th pending result of a core returns, after the earlier loads of its thread (R91, R148). -/
def execLoadReply (core n : Nat) (s : State) : Host.Outcome State Fault Refusal :=
  match (s.core core).loads[n]? with
  | none => .next s
  | some p =>
    if p.data.isNone then .next s
    else if p.isLoad && ((s.core core).loads.take n).any (fun q => q.isLoad && q.who == p.who) then .next s
    else .next ((s.modCore core fun y => { y with loads := y.loads.eraseIdx n }).deliverLoad p)

end Sys2Proof.Machine
end

