-- ==== Sys2Proof/Machine/CopyEvents.lean ====
section
/-! DEFINITION. The events of a core's copy engine (R109-R117) and of guard slots (R212). -/

namespace Sys2Proof.Machine

/-! ### The box of a copy (R110-R112) -/

/-- An extent slot: 0 stands for an extent less an origin; none where that is negative. -/
def extentOr (slot ext origin : Nat) : Option Nat := if slot ≠ 0 then some slot else if ext < origin then none else some (ext - origin)

/-- The transposition of a copy. -/
def Command.isTr (m : Command) : Bool := match m.op with
  | .cp tr => tr
  | _ => false

/-- The two extents of a copy's box, E0 and E1; for a gather E1 is its row count. Descriptor 0 is the destination's. -/
def Command.boxExt (m : Command) : Option (Nat × Nat) :=
  let d0 := m.slotNat 3
  let d1 := m.slotNat 2
  match m.op with
  | .cpg _ => (extentOr (m.slotNat 5) (m.ext 0 0) d0).map (fun e0 => (e0, m.dyn.getD 8 0))
  | _ =>
    if m.isTr then (extentOr (m.slotNat 5) (m.ext 0 1) d1).bind (fun e0 => (extentOr (m.slotNat 4) (m.ext 0 0) d0).map (fun e1 => (e0, e1)))
    else (extentOr (m.slotNat 5) (m.ext 0 0) d0).bind (fun e0 => (extentOr (m.slotNat 4) (m.ext 0 1) d1).map (fun e1 => (e0, e1)))

/-- The box as extents over all dimensions. -/
def Command.boxDims (m : Command) : Coord :=
  let e := m.boxExt.getD (0, 0)
  { c0 := e.1, c1 := e.2, c2 := m.ext 0 2, c3 := m.ext 0 3 }

/-- The source origin; a gather's rows come from its index list. -/
def Command.srcOrigin (m : Command) : Coord := { c0 := m.slotNat 1, c1 := (match m.op with
  | .cpg _ => 0
  | _ => m.slotNat 0) }

/-- The destination origin. -/
def Command.dstOrigin (m : Command) : Coord := { c0 := m.slotNat 3, c1 := m.slotNat 2 }

/-- The destination's box extents, transposed where the copy is. -/
def Command.dstDims (m : Command) : Coord :=
  let e := m.boxDims
  if m.isTr then { e with c0 := e.c1, c1 := e.c0 } else e

/-- A box lies inside a captured descriptor's extents. -/
def Command.inside (m : Command) (n : Nat) (o e : Coord) : Bool :=
  decide (o.c0 + e.c0 ≤ m.ext n 0 ∧ o.c1 + e.c1 ≤ m.ext n 1 ∧ o.c2 + e.c2 ≤ m.ext n 2 ∧ o.c3 + e.c3 ≤ m.ext n 3)

/-- The cores a multicast names (R112). -/
def Command.maskCores (m : Command) : List Nat := (setBits (BitVec.ofNat 32 (m.slotNat 6))).map (fun i => dieOf m.core * 32 + i)

/-- The check of a copy at acceptance that gives 0x05 (R111, R112, R117, R229). A gather's rows are known when it starts. -/
def State.copyBad (s : State) (m : Command) : Bool :=
  let dst := m.desc 0
  let src := m.desc 1
  let gather := match m.op with
    | .cpg _ => true
    | _ => false
  let wide := m.op == .cpg true
  match m.boxExt with
  | none => true
  | some _ =>
    fmtBits dst.fmt != fmtBits src.fmt || m.ext 0 2 != m.ext 1 2 || m.ext 0 3 != m.ext 1 3 || dst.bkind == 3 || src.bkind == 3 ||
    (m.isTr && src.bytes != 2 && src.bytes != 4) ||
    !(if gather then decide (m.slotNat 3 + m.boxDims.c0 ≤ m.ext 0 0 ∧ m.slotNat 1 + m.boxDims.c0 ≤ m.ext 1 0)
      else m.inside 0 m.dstOrigin m.dstDims && m.inside 1 m.srcOrigin m.boxDims) ||
    (!gather && ((!m.toQueue && !dst.boxOk m.dstOrigin m.dstDims) || !src.boxOk m.srcOrigin m.boxDims)) ||
    !dst.evenBox m.dstOrigin.c0 m.dstDims.c0 || !src.evenBox m.srcOrigin.c0 m.boxDims.c0 ||
    (m.op == .cpm && dst.bkind != 1) ||
    (gather && (m.slotNat 6 % (if wide then 4 else 2) != 0 || (m.slotNat 7 != 0xFFFFFFFF && (m.slotNat 7 % 4 != 0 || decide (0x80000 ≤ m.slotNat 7))) ||
      decide (0x80000 ≤ m.slotNat 6))) ||
    (m.toQueue && (dst.bkind != 1 || !gather && (match lastOf m.dstOrigin m.dstDims with
      | some c => decide (((s.core m.core).cbuf m.bar).size < dst.offset c + dst.bytes)
      | none => false)))

/-- The check that gives 0x02: a window or a mask that names a core the context does not own (R33, R111). A gather's rows are known when it
starts. -/
def State.copyDenied (s : State) (m : Command) : Bool :=
  let cores := (match m.op with
    | .cpm => m.maskCores ++ (m.desc 1).windowCores m.srcOrigin m.boxDims
    | .cpg _ => []
    | _ => (m.desc 0).windowCores m.dstOrigin m.dstDims ++ (m.desc 1).windowCores m.srcOrigin m.boxDims)
  cores.any (fun c => (s.core c).owner ≠ some m.ctx)

/-- A command with its descriptors captured and checked: the fault code its completion will give, 0 for none. Of one that fails a check of 0x05 and
that of 0x02 the spec does not say which code it gives: 0x05 (DESIGN CHOICE, assumption 68). -/
def State.acceptCopy (s : State) (m : Command) : Command :=
  let m := { m with phase := .accepted, mine := s.ownedCores m.ctx }
  match s.capture m [m.tidA, m.tidB] with
  | .error f => { m with fault := f }
  | .ok (ds, es) =>
    let m := { m with descs := ds, dyn := es }
    if s.copyBad m then { m with fault := 5 } else if s.copyDenied m then { m with fault := 2 } else m

/-- Replace the n-th command of a list. -/
def setNth (l : List Command) (n : Nat) (m : Command) : List Command := l.set n m

/-- `copyAccept`: the oldest command not yet accepted is accepted (R111, R115). -/
def execCopyAccept (core : Nat) (s : State) : Host.Outcome State Fault Refusal :=
  let q := (s.core core).copyQ
  match q.findIdx? (fun m => m.phase == .posted) with
  | none => .next s
  | some n =>
    match q[n]? with
    | none => .next s
    | some m =>
      if !s.mayAccept m then .next s
      else
        let s := s.touchDyn m [m.tidA, m.tidB]
        .next ((s.modCore core fun y => { y with copyQ := setNth y.copyQ n (s.acceptCopy m) }).countAccepted m)

/-! ### Starting (R113, R114, R117) -/

/-- The row count of a gather, read when it starts. -/
def State.gatherCount (s : State) (m : Command) : Nat :=
  if m.slotNat 7 = 0xFFFFFFFF then m.slotNat 4 else ((s.core m.core).scratch.word (m.slotNat 7)).toNat

/-- The index of a gather's row. -/
def State.gatherRow (s : State) (m : Command) (wide : Bool) (i : Nat) : Nat :=
  let a := m.slotNat 6 + i * (if wide then 4 else 2)
  (s.core m.core).scratch.readN a (if wide then 4 else 2)

/-- The row of a gather's source that an index names, as a box. -/
def Command.rowBox (m : Command) (r : Nat) : Coord × Coord := ({ c0 := m.slotNat 1, c1 := r }, { m.boxDims with c1 := 1 })

/-- The code that a gather's count, index list and rows give it as it starts, before it moves anything: 0 for none (R33, R111, R112, R236). An index
past the source faults in its turn; here, where the rows are empty and no element would move. -/
def State.gatherFault (s : State) (m : Command) (wide : Bool) (n : Nat) : Nat :=
  let dst := m.desc 0
  let src := m.desc 1
  let list := (List.range n).map (s.gatherRow m wide)
  let rows := list.filter (fun r => decide (r < m.ext 1 1))
  let dims := { m.boxDims with c1 := n }
  if 65535 < n || m.ext 0 1 < m.slotNat 2 + n || 0x80000 < m.slotNat 6 + n * (if wide then 4 else 2) || (!m.toQueue && !dst.boxOk m.dstOrigin dims) ||
      rows.any (fun r => !src.boxOk (m.rowBox r).1 (m.rowBox r).2) || (({ m.boxDims with c1 := 1 } : Coord).volume = 0 && list.any (fun r => decide (m.ext 1 1 ≤ r))) then 5
  else if (dst.windowCores m.dstOrigin dims ++ rows.flatMap (fun r => src.windowCores (m.rowBox r).1 (m.rowBox r).2)).any
      (fun c => !s.mayReach m c) then 2
  else 0

/-- A copy as it starts: a gather's count is read and checked, and a queue-aimed command takes the slot at the fill index as its base. -/
def State.startCopy (s : State) (m : Command) : Command :=
  let b := (s.core m.core).cbuf m.bar
  let m := { m with phase := .started, slot := if m.toQueue then some b.fill else none }
  let m := match m.op with
    | .cpg wide =>
      let n := s.gatherCount m
      if m.fault ≠ 0 then m else { m with fault := s.gatherFault m wide n, dyn := m.dyn ++ [n] }
    | _ => m
  if m.toQueue && m.fault = 0 then
    let d := (m.desc 0).withBase (b.base + b.fill * b.size)
    let m := { m with descs := m.descs.set 0 d }
    match lastOf m.dstOrigin m.dstDims with
    | some c => if b.size < d.offset c + d.bytes then { m with fault := 5 } else m
    | none => m
  else m

/-- `copyStart`: the oldest accepted command that has not started starts, up to four in transfer; one aimed at a circular buffer waits
for a free slot, and a guarded one for its guard slot (R113, R114, R117). -/
def execCopyStart (core : Nat) (s : State) : Host.Outcome State Fault Refusal :=
  let q := (s.core core).copyQ
  match q.findIdx? (fun m => m.phase != .started) with
  | none => .next s
  | some n =>
    match q[n]? with
    | none => .next s
    | some m =>
      let b := (s.core core).cbuf m.bar
      if m.phase != .accepted || m.guard.isSome || 4 ≤ (q.filter (fun d => d.phase == .started)).length || (m.toQueue && b.free = 0) then .next s
      else
        let m' := s.startCopy m
        .next (s.modCore core fun y =>
          let y := { y with copyQ := setNth y.copyQ n m' }
          if m.toQueue then y.setCbuf m.bar { b with free := b.free - 1, fill := (b.fill + 1) % b.count } else y)

/-! ### Moving elements (R112, R113, R87) -/

/-- An element written where a copy puts it: a multicast writes every named core's scratchpad. -/
def State.putCopied (s : State) (m : Command) (c : Coord) (bits : Nat) : Except Nat State :=
  let d := m.desc 0
  let box := (m.dstOrigin.c0, m.dstDims.c0)
  match m.op with
  | .cpm => m.maskCores.foldl (fun acc k => match acc with
      | .error f => .error f
      | .ok s => s.writeAt m d (.sp k (d.base.toNat + d.offset c)) box c.c0 bits) (.ok s)
  | _ => s.writeElem m d box c bits

/-- The source line of a multicast fills the die's L2 (R87). -/
def State.fillMulticast (s : State) (m : Command) (c : Coord) : State :=
  match m.op, (m.desc 1).loc m.core c with
  | .cpm, .virt a =>
    match s.engineXlate m (a / 4 * 4) permR with
    | .ok pa =>
      if isWindowPa pa || s.activeLine pa || ((s.die (dieOf m.core)).word pa).isSome then s
      else (s.fillLlc pa).putL2 (dieOf m.core) pa (s.homeWord pa) false false
    | .error _ => s
  | _, _ => s

/-- The source row of a copy's k-th row. -/
def State.copyRow (s : State) (m : Command) (k : Nat) : Nat :=
  match m.op with
  | .cpg wide => s.gatherRow m wide k
  | _ => m.srcOrigin.c1 + k

/-- The source of the n-th element of a copy. -/
def State.copySrc (s : State) (m : Command) (n : Nat) : Coord :=
  let k := nthOf { c0 := 0 } m.boxDims n
  { c0 := m.srcOrigin.c0 + k.c0, c1 := s.copyRow m k.c1, c2 := k.c2, c3 := k.c3 }

/-- The destination of the n-th element of a copy. -/
def Command.copyDst (m : Command) (n : Nat) : Coord :=
  let k := nthOf { c0 := 0 } m.boxDims n
  let o := m.dstOrigin
  if m.isTr then { c0 := o.c0 + k.c1, c1 := o.c1 + k.c0, c2 := k.c2, c3 := k.c3 }
  else { c0 := o.c0 + k.c0, c1 := o.c1 + k.c1, c2 := k.c2, c3 := k.c3 }

/-- Elements a copy moves: none for a multicast to no core (R112). -/
def Command.copyCount (m : Command) : Nat := if m.op == .cpm && m.maskCores.isEmpty then 0 else m.boxDims.volume

/-- A copy may stop before its n-th element: no 32-bit word that it writes or reads, and no source line of a multicast, has elements on both
sides (R86, R87, R113, R154). -/
def State.copyCut (s : State) (m : Command) (n : Nat) : Bool :=
  let dst := fun (i : Nat) => ((m.desc 0).loc m.core (m.copyDst i)).addr / 4
  let src := fun (i : Nat) => ((m.desc 1).loc m.core (s.copySrc m i)).addr / (if m.op = .cpm then 128 else 4)
  let old := List.range n
  let new := span n (m.copyCount - n)
  !(old.map dst).any (new.map dst).contains && !(old.map src).any (new.map src).contains

/-- The last place, from n on and at most k elements further, where a copy may stop. -/
def State.lastCut (s : State) (m : Command) (n : Nat) : Nat → Nat
  | 0 => n
  | k + 1 => if s.copyCut m (n + k + 1) then n + k + 1 else State.lastCut s m n k

/-- The n-th element of a copy moves, or gives a fault code. -/
def State.copyOne (s : State) (m : Command) (n : Nat) : Except Nat State :=
  let src := s.copySrc m n
  if m.ext 1 1 ≤ src.c1 then .error 5
  else
    let dst := m.copyDst n
    match s.readElem m (m.op == .cpm) (m.desc 1) src with
    | .error f => .error f
    | .ok bits => (s.fillMulticast m src).putCopied m dst bits

/-- The read of the n-th element of a copy at its home; a row past the source is not read. -/
def State.touchCopied (s : State) (m : Command) (n : Nat) : State :=
  let src := s.copySrc m n
  if m.ext 1 1 ≤ src.c1 then s else s.touchLoc m (m.op == .cpm) ((m.desc 1).loc m.core src)

/-- Elements n to n + k - 1 of a copy: the state reached, and the fault that ended it with the element that gave it. -/
def State.copyMany (s : State) (m : Command) (n : Nat) : Nat → State × Option (Nat × Nat)
  | 0 => (s, none)
  | k + 1 =>
    let s := s.touchCopied m n
    match s.copyOne m n with
    | .ok s => State.copyMany s m (n + 1) k
    | .error f => (s, some (f, n))

/-- A run of elements of a copy, of which the waits on its words see the words that result. -/
def State.copyRun (s : State) (m : Command) (n k : Nat) : State × Option (Nat × Nat) :=
  let r := s.copyMany m n k
  (r.1.wakeWritten m (m.desc 0) ((span n k).map m.copyDst), r.2)

/-- A command leaves a core's copy engine and completes. -/
def State.endCopy (s : State) (core n : Nat) (m : Command) (code : Nat) : State :=
  (s.modCore core fun y => { y with copyQ := y.copyQ.eraseIdx n }).completeCommand m code

/-- `copyComplete`: the n-th command in transfer moves more elements, as many whole words as the device chooses, and completes after its last,
or at a fault, which leaves no destination word part old and part copied (R113, R115). -/
def execCopyComplete (core n : Nat) (s : State) : Host.Outcome State Fault Refusal :=
  match (s.core core).copyQ[n]? with
  | none => .next s
  | some m =>
    if m.phase != .started then .next s
    else if m.fault ≠ 0 then .next (s.endCopy core n m m.fault)
    else
      let left := m.copyCount - m.step
      let k := if Config.choice s.steps 30 % 2 = 0 then left else s.lastCut m m.step (Config.choice s.steps 31 % (left + 1)) - m.step
      match s.copyRun m m.step k with
      | (_, some (f, j)) =>
        let i := s.lastCut m m.step (j - m.step)
        .next (((span i (j + 1 - i)).foldl (fun s e => s.touchCopied m e) (s.copyRun m m.step (i - m.step)).1).endCopy core n m f)
      | (t, none) =>
        if k = left then .next (t.endCopy core n m 0)
        else .next (t.modCore core fun y => { y with copyQ := setNth y.copyQ n { m with step := m.step + k } })

/-! ### Guard slots (R212) -/

/-- Where a core's guarded commands wait for their slot. -/
inductive GuardPlace where
  | copy
  | table (n : Nat)
  | hold
  deriving DecidableEq, Repr, Inhabited

/-- A command is the oldest of its core and stream that the quad's table holds and has not granted. -/
def streamHead (t : List Command) (n : Nat) : Bool :=
  match t[n]? with
  | none => false
  | some m => !(t.take n).any (fun d => d.core = m.core && d.ms = m.ms && d.phase != .started)

/-- The oldest entry of its core and stream: commands retire in posting order (R262). -/
def retiresFirst (t : List Command) (m : Command) : Bool :=
  match t.find? (fun d => d.core = m.core && d.ms = m.ms) with
  | some d => d.id = m.id
  | none => false

/-- The places of a core where a command may act on its guard slot now, or, in the guard hold buffer, goes on unguarded. -/
def State.guardPlaces (s : State) (c : Nat) : List GuardPlace :=
  let y := s.core c
  let ready := fun (m : Command) => match m.guard with
    | some k => (y.guardNow k).isSome
    | none => false
  let t := (s.quad (quadOf c)).table
  (match y.copyQ.find? (fun m => m.phase != .started) with
   | some m => if m.phase == .accepted && ready m then [.copy] else []
   | none => []) ++
  (t.zipIdx.filter (fun p => p.1.core = c && ready p.1 && p.1.phase == .accepted && streamHead t p.2 &&
      (p.1.guard.bind y.guardNow == some true || retiresFirst t p.1))).map
    (fun p => GuardPlace.table p.2) ++
  (match y.holdQ with
   | m :: _ => if m.guard.isNone || ready m then [.hold] else []
   | [] => [])

/-- A discarded command completes its barrier without fault and takes no slot (R114, R212). -/
def State.discard (s : State) (m : Command) : State :=
  if m.toQueue || m.phase == .posted then s.commandGone m.core m.id else s.completeCommand m 0

/-- The guard's value for a command; unguarded commands run. -/
def Core.verdict (y : Core) (m : Command) : Bool := match m.guard with
  | some k => (y.guardNow k).getD false
  | none => true

/-- `guardResolve`: one of a core's engines acts on a guard slot's resolution (R114, R212). -/
def execGuardResolve (core : Nat) (s : State) : Host.Outcome State Fault Refusal :=
  let y := s.core core
  let l := s.guardPlaces core
  match l[Config.choice s.steps 32 % max 1 l.length]? with
  | none => .next s
  | some .copy =>
    match y.copyQ.findIdx? (fun m => m.phase != .started) with
    | none => .next s
    | some n => match y.copyQ[n]? with
      | none => .next s
      | some m =>
        if y.verdict m then .next (s.modCore core fun y => { y with copyQ := setNth y.copyQ n { m with guard := none } })
        else .next ((s.modCore core fun y => { y with copyQ := y.copyQ.eraseIdx n }).discard m)
  | some (.table n) =>
    match (s.quad (quadOf core)).table[n]? with
    | none => .next s
    | some m =>
      if y.verdict m then .next (s.modQuad (quadOf core) fun q => { q with table := setNth q.table n { m with guard := none } })
      else .next ((s.modQuad (quadOf core) fun q => { q with table := q.table.eraseIdx n }).discard m)
  | some .hold =>
    match y.holdQ with
    | [] => .next s
    | m :: rest =>
      let t := s.modCore core fun y => { y with holdQ := rest }
      if y.verdict m then .next ((t.toShared { m with guard := none }).getD s) else .next (t.discard m)

end Sys2Proof.Machine
end

