-- ==== Sys2Proof/Machine/MatrixEvents.lean ====
section
/-! DEFINITION. The events of the quad matrix engine (R256-R271, R169): acceptance into the reservation table, groups, grants, passes and
completion. -/

namespace Sys2Proof.Machine

/-! ### Elements (R224-R231) -/

/-- The scalar float format of a code. -/
def floatFmt (fmt : Nat) : Fmt := if fmt = 0 then .f32 else if fmt = 1 then .f16 else .bf16

/-- A float format of R224 that is a scalar. -/
def isFloatFmt (fmt : Nat) : Bool := decide (fmt ≤ 2)

/-- The exact value of an element read by an engine: a scalar, or a block-scaled code with its scale (R228-R231). -/
def State.elemValue (s : State) (m : Command) (d : Descriptor) (c : Coord) : Except Nat FVal :=
  match s.readElem m false d c with
  | .error f => .error f
  | .ok bits =>
    if !d.isDs then .ok ((floatFmt d.fmt).unpack bits)
    else match s.readByte m (d.scaleLoc m.core c) with
      | .error f => .error f
      | .ok e => .ok (dsValue d.four d.codes e bits)

/-- The places that an element's value is read from: its own and its block scale's. -/
def Descriptor.places (d : Descriptor) (m : Command) (c : Coord) : List (Command × Loc) :=
  (m, d.loc m.core c) :: (if d.isDs then [(m, d.scaleLoc m.core c)] else [])

/-! ### `mmx`: extents and checks (R237, R257, R266, R267) -/

/-- The mode of an `mmx`; 0 for other commands. -/
def Command.mode (m : Command) : Nat := match m.op with
  | .mmx mode => mode.toNat
  | _ => 0

/-- An `mmx`. -/
def Command.isMmx (m : Command) : Bool := match m.op with
  | .mmx _ => true
  | _ => false

/-- The pairing of R237. -/
def pairOk (a b : Nat) : Bool :=
  (a == b && (a == 0 || a == 1 || a == 2 || a == 3)) || ((a == 2 || a == 5 || a == 6) && (b == 5 || b == 6))

/-- The depth of a pass (R237). -/
def passDepth (a b : Nat) : Nat := if 5 ≤ b then 512 else if a = 0 then 32 else if a = 3 then 256 else 128

/-- The extents of A along M and K and of B along K (whole, four times a quarter in mode 3) and N. -/
def Command.mmxExt (m : Command) : Nat × Nat × Nat × Nat :=
  let a := m.desc 0
  let b := m.desc 1
  (m.ext 0 (1 - a.kdim), m.ext 0 a.kdim, m.ext 1 b.kdim * (if m.mode = 3 then 4 else 1), m.ext 1 (1 - b.kdim))

/-- M, N and K of an operation, 0 slots replaced. -/
def Command.mnk (m : Command) : Nat × Nat × Nat :=
  let e := m.mmxExt
  let lim := if m.mode = 1 then 256 else 128
  (if m.slotNat 3 ≠ 0 then m.slotNat 3 else min 128 (e.1 - m.slotNat 0),
   if m.slotNat 4 ≠ 0 then m.slotNat 4 else min lim (e.2.2.2 - m.slotNat 2),
   if m.slotNat 5 ≠ 0 then m.slotNat 5 else min e.2.1 e.2.2.1 - m.slotNat 1)

/-- The K extent a participant's own B holds. -/
def Command.ownK (m : Command) : Nat := if m.mode = 3 then m.mnk.2.2 / 4 else m.mnk.2.2

/-- The coordinate of a(i, k) or b(k, j): its index along K and across. -/
def Descriptor.kCoord (d : Descriptor) (k other : Nat) : Coord := if d.kdim = 0 then { c0 := k, c1 := other } else { c0 := other, c1 := k }

/-- A box along K and across lies in its space, is even where it must be, and names registers that exist. -/
def State.kBoxOk (s : State) (m : Command) (d : Descriptor) (k0 o0 kn on : Nat) : Bool :=
  let o := d.kCoord k0 o0
  let e := { d.kCoord kn on with c2 := 1, c3 := 1 }
  d.boxOk o e && d.evenBox o.c0 e.c0 && s.regsOk m d o e

/-- The participants of a group by quad position (R259). -/
def Command.maskPos (m : Command) : List Nat := (List.range 4).filter (fun p => (m.slotNat 7).testBit (8 + p))

/-- The check of an `mmx` that gives 0x05 (R267). A group checks the K of mode 3 once it has formed (R259). -/
def State.mmxBad (s : State) (m : Command) : Bool :=
  let a := m.desc 0
  let b := m.desc 1
  let e := m.mmxExt
  let n := m.mnk
  let w := m.slotNat 7
  decide (2 < a.rank) || decide (2 < b.rank) || !pairOk a.fmt b.fmt || decide (128 < m.slotNat 3) ||
  decide ((if m.mode = 1 then 256 else 128) < m.slotNat 4) ||
  (if m.mode ≤ 1 then w != 0 else w / 4096 != 0 || !m.maskPos.contains (m.core % 4) || (m.mode == 3 && m.maskPos.length != 4)) ||
  decide (e.1 < m.slotNat 0 + n.1) || decide (e.2.1 < m.slotNat 1 + n.2.2) || decide (m.ext 1 b.kdim < m.slotNat 1 + m.ownK) ||
  decide (e.2.2.2 < m.slotNat 2 + n.2.1) ||
  (if m.mode = 3 then b.bkind != 3 || a.bkind == 3 else a.bkind == 3 || b.bkind == 3) ||
  !s.kBoxOk m a (m.slotNat 1) (m.slotNat 0) n.2.2 n.1 || !s.kBoxOk m b (m.slotNat 1) (m.slotNat 2) m.ownK n.2.1

/-- The follower of a pair (R257). -/
def Command.follower (m : Command) : Nat := Nat.xor m.core 1

/-! ### The other commands (R269-R271) -/

/-- Rows and columns of `mld` and `mst`. -/
def Command.tileBox (m : Command) : Nat × Nat :=
  (if m.slotNat 4 ≠ 0 then m.slotNat 4 else 128 - m.slotNat 0, if m.slotNat 5 ≠ 0 then m.slotNat 5 else 128 - m.slotNat 1)

/-- The check of `mld` and `mst` (R270). -/
def State.tileBad (s : State) (m : Command) (store : Bool) : Bool :=
  let d := m.desc 0
  let b := m.tileBox
  let o : Coord := { c0 := m.slotNat 3, c1 := m.slotNat 2 }
  let e : Coord := { c0 := b.2, c1 := b.1, c2 := 1, c3 := 1 }
  decide (2 < d.rank) || decide (5 ≤ d.fmt) || (!store && d.bkind != 1 && d.bkind != 3) || decide (128 < m.slotNat 0 + b.1) ||
  decide (128 < m.slotNat 1 + b.2) || decide (m.ext 0 0 < o.c0 + e.c0) || decide (m.ext 0 1 < o.c1 + e.c1) || !d.boxOk o e || !s.regsOk m d o e

/-- The check of `mzero.bias`. -/
def State.biasBad (s : State) (m : Command) : Bool :=
  let d := m.desc 0
  let o : Coord := { c0 := m.slotNat 0, c1 := m.slotNat 1 }
  let e : Coord := { c0 := 128, c1 := 1, c2 := 1, c3 := 1 }
  decide (2 < d.rank) || decide (5 ≤ d.fmt) || decide (m.ext 0 0 < o.c0 + 128) || decide (m.ext 0 1 ≤ o.c1) || !d.boxOk o e || !s.regsOk m d o e

/-- The extent of a scan. -/
def Command.scanExt (m : Command) : Nat := if m.slotNat 1 ≠ 0 then m.slotNat 1 else m.ext 0 0 - m.slotNat 0

/-- Some of a list of byte ranges overlap. -/
def anyOverlap : List (Nat × Nat) → Bool
  | [] => false
  | p :: ps => ps.any (fun q => decide (p.2 ≠ 0 ∧ q.2 ≠ 0 ∧ p.1 < q.1 + q.2 ∧ q.1 < p.1 + p.2)) || anyOverlap ps

/-- The check of `mscan` (R271). -/
def scanBad (m : Command) : Bool :=
  let d := m.desc 0
  let n := m.scanExt
  let areas := [(d.base.toNat + m.slotNat 0 * d.bytes, n * d.bytes), (m.slotNat 2, 2 * n), (m.slotNat 3, n * d.bytes), (m.slotNat 4, 4)]
  d.bkind != 1 || d.rank != 1 || decide (5 ≤ d.fmt) || decide (m.ext 0 0 < m.slotNat 0 + n) || decide (65536 < m.slotNat 0 + n) ||
  m.slotNat 2 % 2 != 0 || m.slotNat 3 % d.bytes != 0 || m.slotNat 4 % 4 != 0 || areas.any (fun a => decide (0x80000 < a.1 + a.2)) || anyOverlap areas

/-- The boxes of a matrix command: the number of a captured descriptor, origin and extents. -/
def Command.boxes (m : Command) : List (Nat × Coord × Coord) :=
  match m.op with
  | .mmx _ =>
    let n := m.mnk
    [(0, (m.desc 0).kCoord (m.slotNat 1) (m.slotNat 0), { (m.desc 0).kCoord n.2.2 n.1 with c2 := 1, c3 := 1 }),
     (1, (m.desc 1).kCoord (m.slotNat 1) (m.slotNat 2), { (m.desc 1).kCoord m.ownK n.2.1 with c2 := 1, c3 := 1 })]
  | .mzeroBias => [(0, { c0 := m.slotNat 0, c1 := m.slotNat 1 }, { c0 := 128, c1 := 1, c2 := 1, c3 := 1 })]
  | .mld _ => [(0, { c0 := m.slotNat 3, c1 := m.slotNat 2 }, { c0 := m.tileBox.2, c1 := m.tileBox.1, c2 := 1, c3 := 1 })]
  | .mst => [(0, { c0 := m.slotNat 3, c1 := m.slotNat 2 }, { c0 := m.tileBox.2, c1 := m.tileBox.1, c2 := 1, c3 := 1 })]
  | _ => []

/-- The check that gives 0x02: the follower of a pair, or a window, of a core that the context does not own (R33, R258). -/
def State.matrixDenied (s : State) (m : Command) : Bool :=
  ((if m.mode = 1 then [m.follower] else []) ++ m.boxes.flatMap (fun b => (m.desc b.1).windowCores b.2.1 b.2.2)).any
    (fun c => (s.core c).owner ≠ some m.ctx)

/-- The descriptors that a matrix command names. -/
def Command.matrixTids (m : Command) : List Nat :=
  match m.op with
  | .mmx _ => [m.tidA, m.tidB]
  | .mzero => []
  | _ => [m.tidA]

/-- A matrix command with its descriptors captured and checked (R265, R258). -/
def State.acceptMatrix (s : State) (m : Command) : Command :=
  let m := { m with phase := .accepted, since := s.tick, mine := s.ownedCores m.ctx }
  match s.capture m m.matrixTids with
  | .error f => { m with fault := f }
  | .ok (ds, es) =>
    let m := { m with descs := ds, dyn := es }
    let bad := (match m.op with
      | .mmx _ => s.mmxBad m
      | .mzero => false
      | .mzeroBias => s.biasBad m
      | .mscan => scanBad m
      | .mst => s.tileBad m true
      | _ => s.tileBad m false)
    if bad then { m with fault := 5 }
    else if s.matrixDenied m then { m with fault := 2 } else m

/-- A command whose completion a later command of the same core and stream waits for at acceptance (R261). -/
def CmdOp.holdsStream : CmdOp → Bool
  | .mld _ => true
  | .mscan => true
  | _ => false

/-- The thread that posted a command stands in a workgroup that is not evicted and whose logical core is current, or is a control thread: what is
withdrawn at an eviction and at a switch-out is not held back where a workgroup is trapped (R260, R323). -/
def State.posterHere (s : State) (m : Command) : Bool :=
  match m.who, s.posterWg m with
  | .lane c lc _ _ _, some g => (s.core c).lcore == some lc && (g.state == .resident || g.state == .trapped)
  | _, _ => true

/-- The reservation table can take the n-th command that a core has posted: none of its stream stands before it there, no `mld` or `mscan` of
its stream is in the table, its poster's workgroup is here, and the table and its barrier have room (R115, R256, R260, R261). -/
def State.acceptable (s : State) (core n : Nat) (m : Command) : Bool :=
  let t := (s.quad (quadOf core)).table
  !((s.core core).matQ.take n).any (fun d => d.ms = m.ms) && !t.any (fun d => d.core = core && d.ms = m.ms && d.op.holdsStream) &&
  s.posterHere m && decide (t.length < 32) && (m.phase == .accepted || s.mayAccept m)

/-- `matrixAccept`: the reservation table accepts the oldest command its core has posted that no other of its stream holds back (R261); one
withdrawn before takes its place again (R260). -/
def execMatrixAccept (core : Nat) (s : State) : Host.Outcome State Fault Refusal :=
  let q := (s.core core).matQ
  match q.zipIdx.find? (fun p => s.acceptable core p.2 p.1) with
  | none => .next s
  | some (m, n) =>
    let s := if m.phase = .accepted then s else s.touchDyn m m.matrixTids
    let m' := if m.phase = .accepted then m else s.acceptMatrix m
    let t := (s.modCore core fun y => { y with matQ := q.eraseIdx n }).modQuad (quadOf core) fun x => { x with table := x.table ++ [m'] }
    .next (if m.phase = .accepted then t else t.countAccepted m)

/-- `reservationAging`: an entry that has waited another 1,024 ticks rises one level (R169). -/
def execReservationAging (quad n : Nat) (s : State) : Host.Outcome State Fault Refusal :=
  match (s.quad quad).table[n]? with
  | none => .next s
  | some m =>
    if m.phase == .accepted && decide (m.since.toNat + 1024 ≤ s.tick.toNat) then
      .next (s.modQuad quad fun x => { x with table := setNth x.table n { m with prio := m.prio + 1, since := m.since + 1024 } })
    else .next s

/-! ### Groups (R259) -/

/-- The places in the table of the entries that would form a group with an entry, lowest position first; none where one is missing. -/
def groupOf (quad : Nat) (t : List Command) (m : Command) : Option (List Nat) :=
  allSome (m.maskPos.map (fun p =>
    (List.range t.length).find? (fun i => match t[i]? with
      | some d => d.core = 4 * quad + p && d.isMmx && d.mode = m.mode && d.ctx = m.ctx && d.slotNat 7 = m.slotNat 7 && d.phase == .accepted && !d.formed &&
          d.guard.isNone && d.fault = 0 && streamHead t i
      | none => false)))

/-- The members of a group agree (R259). -/
def groupAgrees (ms : List Command) : Bool :=
  match ms with
  | [] => true
  | m :: rest =>
    rest.all (fun d =>
      if m.mode = 2 then (d.desc 1) == (m.desc 1) && (span 1 2).all (fun i => d.slotNat i = m.slotNat i) && d.mnk.2 == m.mnk.2
      else d.mnk == m.mnk) && (m.mode != 3 || m.mnk.2.2 % 4 == 0)

/-- A member's A pairs with every B of its group, its own in mode 2 and each quarter in mode 3 (R237, R259). -/
def pairsAll (ms : List Command) (m : Command) : Bool := ms.all (fun d => pairOk (m.desc 0).fmt (d.desc 1).fmt)

/-- `groupForm`: every masked core holds a matching entry at the head of its stream, and the group forms (R259). Where the members agree, one whose A
does not pair with every B fails alone (R237). -/
def execGroupForm (quad n : Nat) (s : State) : Host.Outcome State Fault Refusal :=
  let t := (s.quad quad).table
  match t[n]? with
  | none => .next s
  | some m =>
    if m.mode < 2 || m.phase != .accepted || m.formed then .next s
    else match groupOf quad t m with
      | none => .next s
      | some is =>
        if !is.contains n then .next s
        else
          let ms := is.filterMap (fun i => t[i]?)
          .next (s.modQuad quad fun x => { x with table := x.table.zipIdx.map (fun p =>
            if is.contains p.2 then { p.1 with formed := true, slot := some m.id, fault := if groupAgrees ms && pairsAll ms p.1 then 0 else 5 } else p.1) })

/-- The members of a formed entry's group in the table, by quad position (R267). -/
def membersOf (t : List Command) (m : Command) : List Command :=
  if m.mode < 2 then [m]
  else (List.range 4).filterMap (fun p => t.find? (fun d => d.formed && d.slot == m.slot && d.mode = m.mode && d.core % 4 = p))

/-! ### Grants (R169, R258, R263) -/

/-- The arrays an operation takes, as package cores. -/
def Command.arrays (m : Command) : List Nat := if !m.isMmx then [] else if m.mode = 1 then [m.core, m.follower] else [m.core]

/-- The tiles a granted command of a core uses: core and number. -/
def Command.tilesUsed (m : Command) : List (Nat × Nat) :=
  match m.op with
  | .mscan => []
  | .mmx _ => if m.mode = 1 then [(m.core, m.tile), (m.follower, m.tile)] else [(m.core, m.tile)]
  | _ => [(m.core, m.tile)]

/-- An entry may be granted now, group apart. A granted operation holds what it takes until it retires, also one whose pass has faulted. -/
def State.grantable (s : State) (t : List Command) (n : Nat) (m : Command) : Bool :=
  let on := t.filter (fun d => d.phase == .started && (d.fault = 0 || d.step ≠ 0))
  m.phase == .accepted && m.guard.isNone && streamHead t n && s.posterHere m &&
  (m.fault ≠ 0 || (
    !on.any (fun d => d.arrays.any (fun c => m.arrays.contains c)) &&
    !(m.mode == 1 && m.isMmx && on.any (fun d => d.core = m.follower && d.tilesUsed.contains (m.follower, m.tile))) &&
    !on.any (fun d => d.isMmx && d.mode = 1 && d.follower = m.core && !m.isMmx && m.tilesUsed.contains (d.follower, d.tile)) &&
    !(m.op == .mscan && on.any (fun d => d.op == .mscan))))

/-- The effective priority of an entry (R169). -/
def State.effPrio (s : State) (m : Command) : Nat := m.prio + (s.tick - m.since).toNat / 1024

/-- Whether an entry is grantable, with its group once that has formed; one of a group that has not formed waits, but for a fault (R263). -/
def State.grantableAll (s : State) (t : List Command) (n : Nat) (m : Command) : Bool :=
  if m.mode < 2 then s.grantable t n m
  else if !m.formed then m.fault ≠ 0 && s.grantable t n m
  else (t.zipIdx.filter (fun p => p.1.formed && p.1.slot == m.slot)).all (fun p => s.grantable t p.2 p.1)

/-- `matrixGrant`: of the grantable entries, the one of highest effective priority, the earliest accepted among equals (R169, R263). -/
def execMatrixGrant (quad : Nat) (s : State) : Host.Outcome State Fault Refusal :=
  let t := (s.quad quad).table
  let prio := fun (m : Command) => ((membersOf t m).map s.effPrio).foldl max (s.effPrio m)
  let best := (t.zipIdx.filter (fun p => s.grantableAll t p.2 p.1)).foldl (fun (acc : Option (Command × Nat)) p => match acc with
    | none => some p
    | some b => if prio b.1 < prio p.1 then some p else acc) none
  match best with
  | none => .next s
  | some (m, n) =>
    .next (s.modQuad quad fun x => { x with table := x.table.zipIdx.map (fun p =>
      if p.2 = n || (2 ≤ m.mode && m.formed && p.1.formed && p.1.slot == m.slot) then { p.1 with phase := .started } else p.1) })

/-! ### Passes (R238-R240, R268) -/

/-- An element of a tile. -/
def State.tileWord (s : State) (c t i j : Nat) : Word := SMap.get 0 (tileKey t i j) (s.core c).tiles

/-- Write an element of a tile. -/
def State.setTile (s : State) (c t i j : Nat) (w : Word) : State :=
  s.modCore c fun y => { y with tiles := SMap.set 0 (tileKey t i j) w y.tiles, tileOld := SMap.set none (tileKey t i j) none y.tileOld }

/-- The word that a pass adds to: the element's, or the one before a window write that came after the grant (R33, R268). -/
def State.passWord (s : State) (c t i j : Nat) : Word := (SMap.get none (tileKey t i j) (s.core c).tileOld).getD (s.tileWord c t i j)

/-- An operation on a tile of a core is over: window writes stand. -/
def State.tileDone (s : State) (c t : Nat) : State :=
  s.modCore c fun y => { y with tileOld := y.tileOld.filter (fun kv => decide (kv.1 / 16384 ≠ t)) }

/-- Values of a list, or the first fault. -/
def gatherL {α β : Type} (f : β → Except Nat α) : List β → Except Nat (List α)
  | [] => .ok []
  | b :: bs => match f b with
    | .error e => .error e
    | .ok v => match gatherL f bs with
      | .error e => .error e
      | .ok vs => .ok (v :: vs)

/-- Values by two indexes, or the first fault. -/
def gather2 {α : Type} (n k : Nat) (f : Nat → Nat → Except Nat α) : Except Nat (List (List α)) :=
  gatherL (fun i => gatherL (f i) (List.range k)) (List.range n)

/-- An INT8 element. -/
def State.elemInt (s : State) (m : Command) (d : Descriptor) (c : Coord) : Except Nat Int :=
  match s.readElem m false d c with
  | .error f => .error f
  | .ok bits => .ok (signedOf 8 bits)

/-- Element b(k, j) of an operation: the leader's or the group's first member's, or, in mode 3, the participant's that holds k. -/
def bSource (ms : List Command) (m : Command) (k j : Nat) : Command × Coord :=
  if m.mode = 3 then
    let q := m.mnk.2.2 / 4
    let o := ms.getD (k / max 1 q) m
    (o, (o.desc 1).kCoord (o.slotNat 1 + k % max 1 q) (o.slotNat 2 + j))
  else
    let o := ms.headD m
    (o, (o.desc 1).kCoord (o.slotNat 1 + k) (o.slotNat 2 + j))

/-- Where an element of an operation's result lies: core and column. -/
def Command.column (m : Command) (j : Nat) : Nat × Nat := if j < 128 then (m.core, j) else (m.follower, j - 128)

/-- Pass p of one operation over the B values of the pass, by k and then j. -/
def State.passFloat (s : State) (m : Command) (k0 : Nat) (b : List (List FVal)) : Except Nat State :=
  let a := m.desc 0
  match gather2 m.mnk.1 b.length (fun i k => s.elemValue m a (a.kCoord (m.slotNat 1 + k0 + k) (m.slotNat 0 + i))) with
  | .error f => .error f
  | .ok rows => .ok ((List.range m.mnk.1).foldl (fun s i => (List.range m.mnk.2.1).foldl (fun s j =>
      let at_ := m.column j
      let acc := s.passWord at_.1 m.tile i at_.2
      let terms := Fmt.f32.unpack acc.toNat :: ((rows.getD i []).zip b).map (fun p => FVal.mul p.1 (p.2.getD j .nan))
      s.setTile at_.1 m.tile i at_.2 (BitVec.ofNat 32 (Fmt.f32.sumNe terms))) s) s)

/-- Pass p of one operation on INT8. -/
def State.passInt (s : State) (m : Command) (k0 : Nat) (b : List (List Int)) : Except Nat State :=
  let a := m.desc 0
  match gather2 m.mnk.1 b.length (fun i k => s.elemInt m a (a.kCoord (m.slotNat 1 + k0 + k) (m.slotNat 0 + i))) with
  | .error f => .error f
  | .ok rows => .ok ((List.range m.mnk.1).foldl (fun s i => (List.range m.mnk.2.1).foldl (fun s j =>
      let at_ := m.column j
      let sum := ((rows.getD i []).zip b).foldl (fun t p => t + p.1 * p.2.getD j 0) (0 : Int)
      s.setTile at_.1 m.tile i at_.2 (s.passWord at_.1 m.tile i at_.2 + BitVec.ofInt 32 sum)) s) s)

/-- The reads of a member's A in a pass. -/
def State.touchA (s : State) (m : Command) (k0 n : Nat) : State :=
  let a := m.desc 0
  s.touchLocs false ((List.range m.mnk.1).flatMap (fun i => (List.range n).flatMap (fun k => a.places m (a.kCoord (m.slotNat 1 + k0 + k) (m.slotNat 0 + i)))))

/-- The reads of the B of a pass. -/
def State.touchB (s : State) (ms : List Command) (m : Command) (k0 n : Nat) : State :=
  s.touchLocs false ((List.range n).flatMap (fun k => (List.range m.mnk.2.1).flatMap (fun j =>
    let o := bSource ms m (k0 + k) j
    (o.1.desc 1).places o.1 o.2)))

/-- A pass over k0 on with its B values known, member by member: the state, and the members that faulted. -/
def passEach {α : Type} (s : State) (ms : List Command) (k0 n : Nat) (b : Except Nat (List (List α)))
    (f : State → Command → List (List α) → Except Nat State) : State × List (Nat × Nat) :=
  match b with
  | .error e => (s, ms.map (fun d => (d.id, e)))
  | .ok b => ms.foldl (fun acc d =>
      let u := acc.1.touchA d k0 n
      match f u d b with
      | .ok t => (t, acc.2)
      | .error e => (u, acc.2 ++ [(d.id, e)])) (s, [])

/-- The depth of a pass of an operation or a group (R237). Where the members that run pair with quarters of B in formats of different depths, which
R237 does not settle, the least (DESIGN CHOICE, assumption 73). -/
def groupDepth (ms : List Command) : Nat :=
  ((ms.filter (fun d => d.fault = 0)).flatMap (fun a => (if a.mode = 3 then ms else [a]).map (fun b => passDepth (a.desc 0).fmt (b.desc 1).fmt))).foldl min 512

/-- The passes an operation makes at a depth: none where M, N or K is 0 (R267, R268). -/
def Command.passes (m : Command) (depth : Nat) : Nat :=
  if m.mnk.1 = 0 || m.mnk.2.1 = 0 then 0 else ceilDiv m.mnk.2.2 depth

/-- One pass of an operation or a group for the members that have not faulted, and the faults it brings by command number. A fault in the
shared B is every member's; one in a member's own A is its own (R265). -/
def State.passAll (s : State) (ms : List Command) (p : Nat) : State × List (Nat × Nat) :=
  let depth := groupDepth ms
  let on := ms.filter (fun d => d.fault = 0 && d.passes depth ≠ 0)
  match on with
  | [] => (s, [])
  | m :: _ =>
    let k0 := p * depth
    let n := min depth (m.mnk.2.2 - k0)
    let s := s.touchB ms m k0 n
    if (m.desc 0).fmt = 3 then
      passEach s on k0 n (gather2 n m.mnk.2.1 (fun k j => let o := bSource ms m (k0 + k) j; s.elemInt o.1 (o.1.desc 1) o.2)) (fun s d b => s.passInt d k0 b)
    else
      passEach s on k0 n (gather2 n m.mnk.2.1 (fun k j => let o := bSource ms m (k0 + k) j; s.elemValue o.1 (o.1.desc 1) o.2)) (fun s d b => s.passFloat d k0 b)

/-! ### Tiles and the Riddle (R270, R271) -/

/-- An element widened to a tile word (R270). -/
def widenElem (fmt bits : Nat) : Word :=
  if fmt = 0 || fmt = 4 then BitVec.ofNat 32 bits
  else if fmt = 3 then BitVec.ofInt 32 (signedOf 8 bits)
  else BitVec.ofNat 32 (Fmt.f32.pack .ne ((floatFmt fmt).unpack bits))

/-- The rounding mode of `mld`. -/
def mldRnd (r : BitVec 2) : Rnd := if r = 0 then .ne else if r = 1 then .z else .satne

/-- A tile word narrowed to an element (R270). -/
def narrowElem (fmt : Nat) (r : Rnd) (w : Word) : Nat :=
  if fmt = 0 || fmt = 4 then w.toNat
  else if fmt = 3 then (BitVec.ofInt 8 (max (-128) (min 127 w.toInt))).toNat
  else (floatFmt fmt).pack r (Fmt.f32.unpack w.toNat)

/-- A state carried through a list of steps, with the first fault. -/
def stepsOf {α : Type} (l : List α) (s : State) (f : State → α → Except Nat State) : State × Nat :=
  l.foldl (fun acc a => if acc.2 ≠ 0 then acc else match f acc.1 a with
    | .ok t => (t, 0)
    | .error e => (acc.1, e)) (s, 0)

/-- The pairs (r, c) of a box. -/
def boxPairs (rows cols : Nat) : List (Nat × Nat) := (List.range rows).flatMap (fun r => (List.range cols).map (fun c => (r, c)))

/-- `mst`: elements widened into the tile. -/
def State.runMst (s : State) (m : Command) : State × Nat :=
  let b := m.tileBox
  let s := s.touchLocs false ((boxPairs b.1 b.2).map (fun p => (m, (m.desc 0).loc m.core { c0 := m.slotNat 3 + p.2, c1 := m.slotNat 2 + p.1 })))
  stepsOf (boxPairs b.1 b.2) s fun s p =>
    match s.readElem m false (m.desc 0) { c0 := m.slotNat 3 + p.2, c1 := m.slotNat 2 + p.1 } with
    | .error f => .error f
    | .ok bits => .ok (s.setTile m.core m.tile (m.slotNat 0 + p.1) (m.slotNat 1 + p.2) (widenElem (m.desc 0).fmt bits))

/-- `mld`: tile words narrowed into the destination. -/
def State.runMld (s : State) (m : Command) (r : BitVec 2) : State × Nat :=
  let b := m.tileBox
  stepsOf (boxPairs b.1 b.2) s fun s p =>
    s.writeElem m (m.desc 0) (m.slotNat 3, b.2) { c0 := m.slotNat 3 + p.2, c1 := m.slotNat 2 + p.1 }
      (narrowElem (m.desc 0).fmt (mldRnd r) (s.tileWord m.core m.tile (m.slotNat 0 + p.1) (m.slotNat 1 + p.2)))

/-- `mzero`: every element of the tile is zero. -/
def State.runMzero (s : State) (m : Command) : State :=
  (s.modCore m.core fun y => { y with tiles := y.tiles.filter (fun kv => decide (kv.1 / 16384 ≠ m.tile)) }).tileDone m.core m.tile

/-- `mzero.bias`: every row of the tile is the vector, widened. -/
def State.runBias (s : State) (m : Command) : State × Nat :=
  let s := s.touchLocs false ((List.range 128).map (fun j => (m, (m.desc 0).loc m.core { c0 := m.slotNat 0 + j, c1 := m.slotNat 1 })))
  match gather2 1 128 (fun _ j => s.readElem m false (m.desc 0) { c0 := m.slotNat 0 + j, c1 := m.slotNat 1 }) with
  | .error f => (s, f)
  | .ok rows =>
    let v := (rows.headD []).map (widenElem (m.desc 0).fmt)
    ((boxPairs 128 128).foldl (fun s p => s.setTile m.core m.tile p.1 p.2 (v.getD p.2 0)) s, 0)

/-- The bytes of a core's scratchpad from an address on. -/
def State.putScratch (s : State) (c a n v : Nat) : State :=
  s.modCore c fun y => { y with scratch := y.scratch.writeBytes a (leBytes n v) }

/-- `mscan`: the indexes and values of the live elements, then their count (R271). -/
def State.runScan (s : State) (m : Command) : State :=
  let d := m.desc 0
  let isZero := fun (x : Nat) => if isFloatFmt d.fmt then x % 2 ^ (fmtBits d.fmt - 1) == 0 else x == 0
  let live := ((span (m.slotNat 0) m.scanExt).map (fun c => (c, (s.core m.core).scratch.readN (d.base.toNat + c * d.bytes) d.bytes))).filter
    (fun p => !isZero p.2)
  let s := live.zipIdx.foldl (fun s p =>
    (s.putScratch m.core (m.slotNat 2 + 2 * p.2) 2 p.1.1).putScratch m.core (m.slotNat 3 + d.bytes * p.2) d.bytes p.1.2) s
  s.putScratch m.core (m.slotNat 4) 4 live.length

/-! ### Completion (R262, R268) -/

/-- A command leaves the table and completes with a code. -/
def State.endMatrix (s : State) (quad : Nat) (m : Command) (code : Nat) : State :=
  let s := if m.isMmx then m.tilesUsed.foldl (fun s p => s.tileDone p.1 p.2) s else s
  (s.modQuad quad fun x => { x with table := x.table.filter (fun d => d.id ≠ m.id) }).completeCommand m code

/-- `matrixComplete`: a granted command that may retire makes its next pass, or does its whole work, and completes after its last pass or at
a fault (R262, R265, R268). -/
def execMatrixComplete (quad n : Nat) (s : State) : Host.Outcome State Fault Refusal :=
  let t := (s.quad quad).table
  match t[n]? with
  | none => .next s
  | some m =>
    if m.phase != .started || !retiresFirst t m then .next s
    else if m.fault ≠ 0 && !m.formed then .next (s.endMatrix quad m m.fault)
    else match m.op with
      | .mmx _ =>
        let ms := membersOf t m
        let passes := (ms.map (·.passes (groupDepth ms))).foldl max 0
        if ms.any (fun d => !retiresFirst t d) then .next s
        else if passes ≤ m.step || ms.all (fun d => d.fault ≠ 0) then .next (ms.foldl (fun s d => s.endMatrix quad d d.fault) s)
        else
          let r := s.passAll ms m.step
          let next := fun (d : Command) => if ms.any (·.id = d.id) then
              { d with step := d.step + 1, fault := ((r.2.find? (fun p => p.1 = d.id)).map (·.2)).getD d.fault } else d
          .next (r.1.modQuad quad fun x => { x with table := x.table.map next })
      | .mzero => .next ((s.runMzero m).endMatrix quad m 0)
      | .mzeroBias => let r := s.runBias m; .next (r.1.endMatrix quad m r.2)
      | .mld r => let r := s.runMld m r; .next (r.1.endMatrix quad m r.2)
      | .mst => let r := s.runMst m; .next (r.1.endMatrix quad m r.2)
      | .mscan => .next ((s.runScan m).endMatrix quad m 0)
      | _ => .next s

end Sys2Proof.Machine
end

