-- ==== Sys2Proof/Machine/NearMem.lean ====
section
/-! DEFINITION. The engines in the memory stacks (R272-R285): the attention decode engine, compute frames and the Delf sequencers. -/

namespace Sys2Proof.Machine

/-! ### The attention decode engine (R272-R276) -/

/-- The query, key, value and output descriptors of an `ade` command, in the order captured. -/
def Command.adeTids (m : Command) : List Nat := [m.tidA, m.tidB, m.slotNat 0, m.slotNat 1]

/-- An output in BF16. -/
def Command.adeBf16 (m : Command) : Bool := m.op == .ade true

/-- L of an `ade`: slot 2, or the key extent along dimension 1 (R273). -/
def Command.tokens (m : Command) : Nat := if m.slotNat 2 ≠ 0 then m.slotNat 2 else m.ext 1 1

/-- H of an `ade`: slot 4, or the query heads from h0 on (R273). -/
def Command.heads (m : Command) : Nat := if m.slotNat 4 ≠ 0 then m.slotNat 4 else m.ext 0 1 - m.slotNat 3

/-- The boxes of an `ade`: the heads h0 to h0 + H - 1 of the query and the output, and the tokens of the key and value heads that serve
them (R275). -/
def Command.adeBoxes (m : Command) : List (Nat × Coord × Coord) :=
  let dh := m.ext 0 0
  let h0 := m.slotNat 3
  let kv := fun (h : Nat) => h * m.ext 1 2 / m.ext 0 1
  let rows : Coord × Coord := ({ c0 := 0, c1 := h0 }, { c0 := dh, c1 := m.heads, c2 := 1, c3 := 1 })
  let cube : Coord × Coord := ({ c0 := 0, c2 := kv h0 },
    { c0 := dh, c1 := m.tokens, c2 := if m.heads = 0 then 0 else kv (h0 + m.heads - 1) + 1 - kv h0, c3 := 1 })
  [(0, rows.1, rows.2), (1, cube.1, cube.2), (2, cube.1, cube.2), (3, rows.1, rows.2)]

/-- The check of R274 that gives 0x05; every element of its boxes has an address (R236). -/
def Command.adeBad (m : Command) : Bool :=
  let q := m.desc 0
  let k := m.desc 1
  let v := m.desc 2
  let o := m.desc 3
  let dh := m.ext 0 0
  let hq := m.ext 0 1
  let hk := m.ext 1 2
  let kv := fun (d : Descriptor) (n : Nat) =>
    d.fmt != 2 || d.rank != 3 || d.bkind != 0 || m.ext n 0 != dh || decide (m.ext n 1 < m.tokens) || m.ext n 2 != hk
  q.fmt != 2 || q.rank != 2 || decide (dh < 1) || decide (256 < dh) || (q.bkind != 0 && q.bkind != 1) ||
  kv k 1 || kv v 2 || hq % hk != 0 ||
  o.fmt != (if m.adeBf16 then 2 else 0) || o.rank != 2 || m.ext 3 0 != dh || decide (m.ext 3 1 < m.slotNat 3 + m.heads) || o.bkind == 3 ||
  decide (hq < m.slotNat 3 + m.heads) || m.adeBoxes.any (fun b => !(m.desc b.1).boxOk b.2.1 b.2.2)

/-- A box names a window of a core that the command's context does not own, which gives 0x02 (R33). -/
def State.boxesDenied (s : State) (m : Command) (boxes : List (Nat × Coord × Coord)) : Bool :=
  (boxes.flatMap (fun b => (m.desc b.1).windowCores b.2.1 b.2.2)).any (fun c => (s.core c).owner ≠ some m.ctx)

/-- An `ade` with its descriptors captured and checked (R274). -/
def State.acceptAde (s : State) (m : Command) : Command :=
  let m := { m with phase := .accepted, mine := s.ownedCores m.ctx }
  if 127 < m.slotNat 0 || 127 < m.slotNat 1 || m.slotNat 7 ≠ 0 then { m with fault := 5 }
  else match s.capture m m.adeTids with
    | .error f => { m with fault := f }
    | .ok (ds, es) =>
      let m := { m with descs := ds, dyn := es }
      if m.adeBad then { m with fault := 5 } else if s.boxesDenied m m.adeBoxes then { m with fault := 2 } else m

/-- A command is put into a stack's queue before those its core posted later, since a core's commands arrive in posting order (R272). -/
def insertAde (q : List Command) (m : Command) : List Command :=
  let later := fun (d : Command) => d.core = m.core && d.phase == .posted && decide (m.id < d.id)
  q.takeWhile (fun d => !later d) ++ m :: q.dropWhile (fun d => !later d)

/-- A command posted to another stack's engine will arrive here before one of its core that was posted after it (R272). -/
def State.adeAwaits (s : State) (stack : Nat) (m : Command) : Bool :=
  s.hbm.any (fun kv => kv.1 ≠ stack && kv.2.ade.any (fun d => d.core = m.core && d.phase == .posted && decide (d.id < m.id) && s.adeStack d = stack))

/-- `adeAccept`: the oldest command posted to a stack's engine is accepted there (R274). Where its key descriptor now names a page that
another stack homes, it goes to that stack's queue instead, while that has room (R272). -/
def execAdeAccept (stack : Nat) (s : State) : Host.Outcome State Fault Refusal :=
  let q := (s.stack stack).ade
  match q.findIdx? (fun m => m.phase == .posted) with
  | none => .next s
  | some n =>
    match q[n]? with
    | none => .next s
    | some m =>
      let k := s.adeStack m
      if k ≠ stack then
        if 64 ≤ (s.stack k).ade.length then .next s
        else .next ((s.modStack stack fun t => { t with ade := t.ade.eraseIdx n }).modStack k fun t => { t with ade := insertAde t.ade m })
      else if !s.mayAccept m || s.adeAwaits stack m then .next s
      else
        let s := s.touchDyn m m.adeTids
        .next ((s.modStack stack fun t => { t with ade := setNth t.ade n (s.acceptAde m) }).countAccepted m)

/-- `adeStart`: the engine starts its oldest command (R272). -/
def execAdeStart (stack : Nat) (s : State) : Host.Outcome State Fault Refusal :=
  match (s.stack stack).ade with
  | [] => .next s
  | m :: rest =>
    if m.phase != .accepted then .next s
    else .next (s.modStack stack fun t => { t with ade := { m with phase := .started, step := 0 } :: rest })

/-- The engine's own stack homes an element's line (R274, R276): 0, or the fault code. -/
def State.ownCode (s : State) (m : Command) (stack : Nat) (d : Descriptor) (c : Coord) : Nat :=
  match d.loc m.core c with
  | .virt a =>
    match s.engineXlate m (a / 4 * 4) permR with
    | .error f => f
    | .ok pa => if isWindowPa pa || homeStack pa ≠ stack then 5 else 0
  | _ => 5

/-- The bits of a key or value element, whose line the engine's own stack must home. -/
def State.readOwn (s : State) (m : Command) (stack : Nat) (d : Descriptor) (c : Coord) : Except Nat Nat :=
  if s.ownCode m stack d c ≠ 0 then .error (s.ownCode m stack d c) else s.readElem m false d c

/-- The running maximum, sum and output of a head, as FP32 patterns. -/
structure Attend where
  m : Nat
  l : Nat
  o : List Nat
  deriving DecidableEq, Repr, Inhabited

/-- The value of a BF16 pattern. -/
def bf16Value (bits : Nat) : FVal := Fmt.bf16.unpack bits

/-- A head before its first block (R275). -/
def Attend.start (dh : Nat) : Attend := { m := Fmt.f32.signed true Fmt.f32.infBits, l := 0, o := List.replicate dh 0 }

/-- A score (R275): the scale times the exact dot product, each rounded. -/
def score (scale : Nat) (q k : List Nat) : Nat :=
  Fmt.f32.mul scale (Fmt.f32.sumNe ((q.zip k).map (fun p => FVal.mul (bf16Value p.1) (bf16Value p.2))))

/-- One block of tokens of a head (R275): keys and values, a row for each token. -/
def Attend.block (a : Attend) (scale : Nat) (q : List Nat) (keys vals : List (List Nat)) : Attend :=
  let f := Fmt.f32
  let ss := keys.map (score scale q)
  let m2 := f.max a.m (ss.tail.foldl f.max (ss.headD f.canonNaN))
  let c := exp2Bits (f.sub a.m m2)
  let ps := ss.map (fun x => f.unpack (exp2Bits (f.sub x m2)))
  { m := m2, l := f.sumNe (FVal.mul (f.unpack a.l) (f.unpack c) :: ps),
    o := a.o.zipIdx.map (fun p => f.sumNe (FVal.mul (f.unpack p.1) (f.unpack c) ::
      (ps.zip vals).map (fun t => FVal.mul t.1 (bf16Value (t.2.getD p.2 0))))) }

/-- The blocks of a head from block b on: 64 tokens each, the last one shorter (R275). -/
def State.attend (s : State) (m : Command) (stack head : Nat) (q : List Nat) (b : Nat) (a : Attend) : Nat → Except Nat Attend
  | 0 => .ok a
  | n + 1 =>
    let us := span (64 * b) (min 64 (m.tokens - 64 * b))
    let dh := m.ext 0 0
    let row := fun (d : Descriptor) (t : Nat) => gatherL (fun k => s.readOwn m stack d { c0 := k, c1 := t, c2 := head }) (List.range dh)
    match gatherL (row (m.desc 1)) us, gatherL (row (m.desc 2)) us with
    | .error f, _ => .error f
    | _, .error f => .error f
    | .ok ks, .ok vs => State.attend s m stack head q (b + 1) (a.block (m.slotNat 5) q ks vs) n

/-- One query head: its output, as element patterns (R275). -/
def State.adeHead (s : State) (m : Command) (stack h : Nat) : Except Nat (List Nat) :=
  let dh := m.ext 0 0
  match gatherL (fun k => s.readElem m false (m.desc 0) { c0 := k, c1 := h }) (List.range dh) with
  | .error f => .error f
  | .ok q =>
    match s.attend m stack (h * m.ext 1 2 / m.ext 0 1) q 0 (Attend.start dh) (ceilDiv m.tokens 64) with
    | .error f => .error f
    | .ok a =>
      let x := fun (o : Nat) => if m.tokens = 0 then 0 else Fmt.f32.div o a.l
      .ok (a.o.map (fun o => if m.adeBf16 then Fmt.bf16.pack .ne (Fmt.f32.unpack (x o)) else x o))

/-- The reads of a query head at their homes: its query row, then its keys and values, up to one that the stack does not home. -/
def State.touchHead (s : State) (m : Command) (stack h : Nat) : State :=
  let ks := List.range (m.ext 0 0)
  let kv := h * m.ext 1 2 / m.ext 0 1
  let rows := (List.range m.tokens).flatMap (fun t => [1, 2].flatMap (fun n => ks.map (fun k => (n, ({ c0 := k, c1 := t, c2 := kv } : Coord)))))
  let own := (rows.takeWhile (fun p => s.ownCode m stack (m.desc p.1) p.2 = 0)).map (fun p => (m, (m.desc p.1).loc m.core p.2))
  s.touchLocs false (ks.map (fun k => (m, (m.desc 0).loc m.core { c0 := k, c1 := h })) ++ own)

/-- A command leaves a stack's engine and completes. -/
def State.endAde (s : State) (stack : Nat) (m : Command) (code : Nat) : State :=
  (s.modStack stack fun t => { t with ade := t.ade.tail }).completeCommand m code

/-- `adeComplete`: the command that runs computes its next head and writes that head's output, and completes after its last head or at a
fault (R275, R276). -/
def execAdeComplete (stack : Nat) (s : State) : Host.Outcome State Fault Refusal :=
  match (s.stack stack).ade with
  | [] => .next s
  | m :: rest =>
    if m.phase != .started then .next s
    else if m.fault ≠ 0 then .next (s.endAde stack m m.fault)
    else if s.dieDown stack then .next (s.endAde stack m 6)
    else if m.heads ≤ m.step then .next (s.endAde stack m 0)
    else
      let h := m.slotNat 3 + m.step
      let s := s.touchHead m stack h
      match s.adeHead m stack h with
      | .error f => .next (s.endAde stack m f)
      | .ok out =>
        let r := stepsOf out.zipIdx s fun s p => s.writeElem m (m.desc 3) (0, m.ext 0 0) { c0 := p.2, c1 := h } p.1
        let r := (r.1.wakeWritten m (m.desc 3) ((List.range out.length).map (fun k => { c0 := k, c1 := h })), r.2)
        if r.2 ≠ 0 then .next (r.1.endAde stack m r.2)
        else .next (r.1.modStack stack fun t => { t with ade := { m with step := m.step + 1 } :: rest })

/-! ### Delf programs (R280-R282) -/

/-- A microinstruction (R280). -/
structure Micro where
  op : Nat
  dg : Nat
  dp : Nat
  ag : Nat
  ap : Nat
  bg : Nat
  bp : Nat
  ix : Bool
  deriving DecidableEq, Repr, Inhabited

/-- The fields of a microinstruction's word. -/
def Micro.ofWord (w : Word) : Micro :=
  let n := w.toNat
  { op := bitsOf n 31 28, dg := bitsOf n 27 25, dp := bitsOf n 24 20, ag := bitsOf n 19 17, ap := bitsOf n 16 12, bg := bitsOf n 11 9,
    bp := bitsOf n 8 4, ix := n.testBit 3 }

/-- The operation writes a plane from a first source: `copy` to `sub1`, and `sel`. -/
def Micro.moves (u : Micro) : Bool := (decide (1 ≤ u.op) && decide (u.op ≤ 8)) || u.op == 11

/-- The operation reads a second source. -/
def Micro.reads2 (u : Micro) : Bool := (decide (3 ≤ u.op) && decide (u.op ≤ 8)) || u.op == 11

/-- A plane that may be read. -/
def planeOk (g p : Nat) : Bool := decide (g ≤ 3) || (g == 4 && decide (p ≤ 4))

/-- A microinstruction breaks R280 or R281. -/
def Micro.bad (w : Word) : Bool :=
  let u := Micro.ofWord w
  w.toNat % 8 != 0 || decide (11 < u.op) ||
  (if u.moves then !planeOk u.dg u.dp || (u.dg == 4 && (u.dp == 2 || u.dp == 3)) || !planeOk u.ag u.ap ||
      (if u.reads2 then !planeOk u.bg u.bp else u.bg != 0 || u.bp != 0)
   else u.dg != 0 || u.ag != 0 || u.ap != 0 || u.bg != 0 || u.bp != 0 || u.ix || (u.op != 9 && u.dp != 0))

/-- Loops are closed and not nested; `inside` says that a loop is open. -/
def loopsOk (inside : Bool) : List Word → Bool
  | [] => !inside
  | w :: ws =>
    let op := (Micro.ofWord w).op
    if op = 9 then !inside && loopsOk true ws
    else if op = 10 then inside && loopsOk false ws
    else loopsOk inside ws

/-- A program is invalid (R282). -/
def progBad (ws : List Word) : Bool := ws.any Micro.bad || !loopsOk false ws || !ws.any (fun w => (Micro.ofWord w).op == 0)

/-! ### Commands of a sequencer (R279, R282, R283) -/

/-- The stack of a sequencer. -/
def seqStack (n : Nat) : Nat := n / 32

/-- A command leaves a sequencer and completes; its region is active no longer. -/
def State.endDelf (s : State) (seq : Nat) (m : Command) (code : Nat) : State :=
  (s.modSeq seq fun q => { q with queue := q.queue.tail, region := [] }).completeCommand m code

/-- The check both commands share: a number above 511, a context without the sequencer, a stack under warm reset (R279, R282). -/
def State.delfDenied (s : State) (seq : Nat) (m : Command) : Nat :=
  if 511 < m.slotNat 0 then 5
  else if (s.seq seq).ctx ≠ some m.ctx then 2
  else if s.dieDown (seqStack seq) || (s.die (seqStack seq)).reset != 0 then 6
  else 0

/-- The words of a program, as a command reads its source (R113). -/
def State.progWords (s : State) (m : Command) (a n : Nat) : Except Nat (List Word) :=
  gatherL (fun i => s.readLoc m false (.virt (a + 4 * i))) (List.range n)

/-- The reads of those words at their homes. -/
def State.touchProg (s : State) (m : Command) (a n : Nat) : State := s.touchLocs false ((List.range n).map (fun i => (m, .virt (a + 4 * i))))

/-- `dloadApply`: the sequencer's next command, a `dload`, reads and validates its program; a valid one replaces the old (R282). -/
def execDloadApply (seq : Nat) (s : State) : Host.Outcome State Fault Refusal :=
  match (s.seq seq).queue with
  | [] => .next s
  | m :: _ =>
    if m.op != .dload || !s.mayAccept m || (s.seq seq).parked then .next s
    else
      let s := s.countAccepted m
      let a := m.slotNat 2 + 2 ^ 32 * m.slotNat 3
      let len := m.slotNat 4
      let no := s.delfDenied seq m
      if no ≠ 0 then .next (s.endDelf seq m no)
      else if len % 4 ≠ 0 || len < 4 || 4096 < len || a % 4 ≠ 0 then .next (s.endDelf seq m 5)
      else
        let s := s.touchProg m a (len / 4)
        match s.progWords m a (len / 4) with
        | .error f => .next (s.endDelf seq m f)
        | .ok ws =>
          if progBad ws then .next (s.endDelf seq m 5)
          else .next ((s.modSeq seq fun q => { q with prog := ws, tag := m.slots.getD 1 0 }).endDelf seq m 0)

/-- The groups 0-3 that a program names. -/
def progGroups (ws : List Word) : List Nat :=
  (ws.flatMap (fun w => let u := Micro.ofWord w
    if u.moves then u.dg :: u.ag :: (if u.reads2 then [u.bg] else []) else [])).filter (· ≤ 3)

/-- The permissions a program needs of a group: to read it as a source, or as the old destination of `maj`, and to write it as a
destination (R281, R311). -/
def progNeed (ws : List Word) (g : Nat) : BitVec 3 :=
  ws.foldl (fun n w =>
    let u := Micro.ofWord w
    let reads := u.moves && (u.ag == g || (u.reads2 && u.bg == g) || (u.op == 6 && u.dg == g))
    n ||| (if reads then permR else 0) ||| (if u.moves && u.dg == g then permW else 0)) 0

/-- The group a `drun` names: its physical base, or the fault code (R126, R283). -/
def State.groupBase (s : State) (seq : Nat) (m : Command) (g : Nat) : Except Nat Nat :=
  match s.engineXlate m (m.slotNat (2 + g) * 32768) (progNeed (s.seq seq).prog g) with
  | .error f => .error f
  | .ok pa =>
    let home := match placeOf pa with
      | .hbm k => k == seqStack seq
      | _ => false
    if (progNeed (s.seq seq).prog g).getLsbD 1 && s.isHeader pa then .error 2
    else if !home || !(s.ientry (gfnOf pa)).compute || Config.frameChannel (gfnOf pa) % 32 ≠ seq % 32 then .error 5 else .ok pa

/-- The bases of a run's groups by number, or the code of its fault (R283). -/
def State.runRegion (s : State) (seq : Nat) (m : Command) : Except Nat (SMap Nat) :=
  let q := s.seq seq
  let used := (List.range 4).filter (fun g => m.slotNat (2 + g) ≠ 0)
  if m.slots.getD 1 0 ≠ q.tag || (progGroups q.prog).any (fun g => !used.contains g) || q.prog.isEmpty then .error 5
  else match gatherL (s.groupBase seq m) used with
    | .error f => .error f
    | .ok bs => .ok (used.zip bs)

/-- A row group's dirty words are recalled and its copies invalidated (R284). -/
def State.claimGroup (s : State) (base : Nat) : State :=
  (List.range 8192).foldl (fun s i => (s.recall (base + 4 * i)).dropCopies (base + 4 * i)) s

/-- A plane of ones. -/
def onesPlane : SMap Byte := (List.range 1024).map (fun i => (i, 0xFF))

/-- `drunStart`: the sequencer's next command, a `drun`, is checked, its lines leave the caches above their homes, and its region
becomes active (R283, R284). -/
def execDrunStart (seq : Nat) (s : State) : Host.Outcome State Fault Refusal :=
  match (s.seq seq).queue with
  | [] => .next s
  | m :: rest =>
    if m.op != .drun || m.phase != .posted || !s.mayAccept m || (s.seq seq).parked then .next s
    else
      let s := s.countAccepted m
      let no := s.delfDenied seq m
      if no ≠ 0 then .next (s.endDelf seq m no)
      else match s.runRegion seq m with
        | .error f => .next (s.endDelf seq m f)
        | .ok region =>
          let s := region.foldl (fun s g => s.claimGroup g.2) s
          .next (s.modSeq seq fun q => { q with queue := { m with phase := .started } :: rest, c := [], m := onesPlane, t := [], pc := 0, iter := 0,
                                                region := region })

/-! ### Operations (R281, R284) -/

/-- The word of a special plane. -/
def specialWord (b : SMap Byte) (i : Nat) : Word := BitVec.ofNat 32 (ofBytes ((span (4 * i) 4).map (fun k => SMap.get 0 k b)))

/-- A special plane from its words. -/
def specialPlane (ws : List Word) : SMap Byte :=
  ws.zipIdx.foldl (fun m p => (leBytes 4 p.1.toNat).zipIdx.foldl (fun m b => SMap.set 0 (4 * p.2 + b.2) b.1 m) m) []

/-- The plane a field names: a group's number moved on by the loop index where `ix` is set. -/
def Micro.plane (u : Micro) (i g p : Nat) : Nat := if u.ix && decide (g ≤ 3) then (p + i) % 32 else p

/-- The words of a plane. -/
def State.planeWords (s : State) (q : Sequencer) (g p : Nat) : List Word :=
  (List.range 256).map (fun i =>
    if g = 4 then
      if p = 0 then specialWord q.c i else if p = 1 then specialWord q.m i else if p = 4 then specialWord q.t i else if p = 3 then 0xFFFFFFFF else 0
    else s.homeWord (SMap.get 0 g q.region + 1024 * p + 4 * i))

/-- A poisoned word stands in a plane. -/
def State.planePoisoned (s : State) (q : Sequencer) (g p : Nat) : Bool :=
  decide (g ≤ 3) && (List.range 256).any (fun i => s.poisoned (SMap.get 0 g q.region + 1024 * p + 4 * i))

/-- A word of an active region is written at its home: in the LLC where that holds any word of the line, else in the bank (R284). -/
def State.putRegion (s : State) (pa : Nat) (w : Word) : State :=
  let s := if (s.llcLine pa).valid != 0 then s.putHome pa w
    else s.memWrite pa w
  s.monitor pa w

/-- A destination plane is written whole (R283). -/
def State.putPlane (s : State) (seq g p : Nat) (ws : List Word) : State :=
  if g = 4 then s.modSeq seq fun q =>
    if p = 0 then { q with c := specialPlane ws } else if p = 1 then { q with m := specialPlane ws } else { q with t := specialPlane ws }
  else
    let base := SMap.get 0 g (s.seq seq).region + 1024 * p
    ws.zipIdx.foldl (fun s x => s.putRegion (base + 4 * x.2) x.1) s

/-- The majority of three bits, lane by lane. -/
def majority (a b c : Word) : Word := (a &&& b) ||| (a &&& c) ||| (b &&& c)

/-- The result of an operation on one word of lanes, and the carry it leaves (R281): sources, old destination, C and M. -/
def Micro.apply (u : Micro) (a b d c m : Word) : Word × Word :=
  match u.op with
  | 1 => (a, c)
  | 2 => (~~~a, c)
  | 3 => (a &&& b, c)
  | 4 => (a ||| b, c)
  | 5 => (a ^^^ b, c)
  | 6 => (majority a b d, c)
  | 7 => (a ^^^ b ^^^ c, majority a b c)
  | 8 => (a ^^^ ~~~b ^^^ c, majority a (~~~b) c)
  | 11 => ((m &&& a) ||| (~~~m &&& b), c)
  | _ => (d, c)

/-- The loop that an `endl` at a place ends: the last `loop` before it. -/
def loopStart (ws : List Word) (pc : Nat) : Nat :=
  ((List.range pc).filter (fun i => (Micro.ofWord (ws.getD i 0)).op == 9)).getLastD 0

/-- One microinstruction of a run (R281): a plane operation on all lanes, or a step of the program. The carry is written after
the destination, as R281 lists them. -/
def State.microStep (s : State) (seq : Nat) (u : Micro) : State :=
  let q := s.seq seq
  if u.op = 9 then s.modSeq seq fun q => { q with pc := q.pc + 1, iter := 0 }
  else if u.op = 10 then
    let l := loopStart q.prog q.pc
    if q.iter < (Micro.ofWord (q.prog.getD l 0)).dp then s.modSeq seq fun q => { q with pc := l + 1, iter := q.iter + 1 }
    else s.modSeq seq fun q => { q with pc := q.pc + 1, iter := 0 }
  else
    let pl := u.plane q.iter
    let a := s.planeWords q u.ag (pl u.ag u.ap)
    let b := s.planeWords q u.bg (pl u.bg u.bp)
    let d := s.planeWords q u.dg (pl u.dg u.dp)
    let rs := (List.range 256).map (fun i =>
      u.apply (a.getD i 0) (b.getD i 0) (d.getD i 0) (specialWord q.c i) (specialWord q.m i))
    let s := s.putPlane seq u.dg (pl u.dg u.dp) (rs.map (·.1))
    let s := if u.op = 7 || u.op = 8 then s.putPlane seq 4 0 (rs.map (·.2)) else s
    s.modSeq seq fun q => { q with pc := q.pc + 1 }

/-- A source of an operation, or the old destination of `maj`, is poisoned (R345). -/
def State.microPoisoned (s : State) (q : Sequencer) (u : Micro) : Bool :=
  let bad := fun (g p : Nat) => s.planePoisoned q g (u.plane q.iter g p)
  u.moves && (bad u.ag u.ap || (u.reads2 && bad u.bg u.bp) || (u.op == 6 && bad u.dg u.dp))

/-- The microinstruction a running sequencer stands at; none where it runs nothing. -/
def Sequencer.current (q : Sequencer) : Option (Command × Micro) :=
  match q.queue with
  | m :: _ => if m.op == .drun && m.phase == .started && !q.parked then (q.prog[q.pc]?).map (fun w => (m, Micro.ofWord w)) else none
  | [] => none

/-- The codewords of the planes that an operation reads are read (R345). -/
def State.readPlanes (s : State) (q : Sequencer) (u : Micro) : State :=
  let one := fun (s : State) (g p : Nat) => if g ≤ 3 then
    (List.range 256).foldl (fun s i => s.eccRead (SMap.get 0 g q.region + 1024 * u.plane q.iter g p + 4 * i)) s else s
  if !u.moves then s
  else
    let s := one s u.ag u.ap
    let s := if u.reads2 then one s u.bg u.bp else s
    if u.op = 6 then one s u.dg u.dp else s

/-- `delfOperation`: a running sequencer completes one microinstruction (R281). The groups are translated again: a frame that the context no longer
holds so ends the run with its code, and one that has moved is reached at its new place (R157, R283, R314). -/
def execDelfOperation (seq : Nat) (s : State) : Host.Outcome State Fault Refusal :=
  match (s.seq seq).current with
  | none => .next s
  | some (m, u) =>
    if u.op = 0 then .next s
    else if s.dieDown (seqStack seq) then .next (s.endDelf seq m 6)
    else match s.runRegion seq m with
    | .error f => .next (s.endDelf seq m f)
    | .ok region =>
      let s := if region = (s.seq seq).region then s
        else (region.foldl (fun s g => s.claimGroup g.2) s).modSeq seq fun q => { q with region := region }
      let s := s.readPlanes (s.seq seq) u
      if s.microPoisoned (s.seq seq) u then .next (s.endDelf seq m 3)
      else .next (s.microStep seq u)

/-- `drunComplete`: a run that stands at `stop` completes (R283). -/
def execDrunComplete (seq : Nat) (s : State) : Host.Outcome State Fault Refusal :=
  match (s.seq seq).current with
  | none => .next s
  | some (m, u) => if u.op = 0 then .next (s.endDelf seq m 0) else .next s

/-! ### Assignment and self-refresh (R278, R285) -/

/-- A sequencer runs a `drun`, parked or not. -/
def Sequencer.running (q : Sequencer) : Bool :=
  match q.queue with
  | m :: _ => m.op == .drun && m.phase == .started
  | [] => false

/-- `sequencerAssign`: a sequencer is assigned to a context, which clears its program; one that runs a `drun` is assigned after it
(R278). -/
def execSequencerAssign (seq ctx : Nat) (s : State) : Host.Outcome State Fault Refusal :=
  if 511 < seq || (s.seq seq).ctx = some ctx || (s.seq seq).running then .next s
  else .next (s.modSeq seq fun q => { q with ctx := some ctx, prog := [], tag := 0, c := [], m := [], t := [], pc := 0, iter := 0 })

/-- `channelSelfRefresh`: between two operations a channel enters self-refresh or power-down, and a running sequencer parks (R285). -/
def execChannelSelfRefresh (seq : Nat) (s : State) : Host.Outcome State Fault Refusal :=
  if (s.seq seq).parked then .next s
  else .next (s.modSeq seq fun q =>
    if q.current.isSome then { q with parked := true, saved := some (q.c, q.m, q.t, q.pc, q.iter), c := [], m := [], t := [], pc := 0, iter := 0 }
    else { q with parked := true })

/-- `channelSelfRefreshExit`: the channel is back, and a parked run goes on where it stood (R285). -/
def execChannelSelfRefreshExit (seq : Nat) (s : State) : Host.Outcome State Fault Refusal :=
  if !(s.seq seq).parked then .next s
  else .next (s.modSeq seq fun q => match q.saved with
    | some (c, m, t, pc, iter) => { q with parked := false, saved := none, c := c, m := m, t := t, pc := pc, iter := iter }
    | none => { q with parked := false })

end Sys2Proof.Machine
end

