-- ==== Sys2Proof/Machine/LaneFloat.lean ====
section
/-! DEFINITION. Lane floating point, conversion and special functions (R241-R255), vector stream only. -/

namespace Sys2Proof.Machine

/-- A 32-bit result from numbers. -/
def bits32 (n : Nat) : Word := BitVec.ofNat 32 n

/-- A two-source float instruction: operand type, latch, operation on patterns. -/
def floatR (i : Instr) (f : RForm) (ty : ImmTy) (b : Nat) (op : Nat → Nat → Nat) (s : State) : Host.Outcome State Fault Refusal :=
  .next (issue i f.uses s
    (fun e set s => s.result e set b 4 fun l =>
      let v := bits32 (op (e.operand ty l f.a).toNat (e.operand ty l f.b).toNat); (oneReg f.n f.d v, v))
    (fun _ s => s))

/-- A fused instruction: d is read before it is written (R43). -/
def floatR3 (i : Instr) (f : RForm) (ty : ImmTy) (op : Nat → Nat → Nat → Nat) (s : State) : Host.Outcome State Fault Refusal :=
  .next (issue i f.uses3 s
    (fun e set s => s.result e set 1 4 fun l =>
      let v := bits32 (op (e.operand ty l f.a).toNat (e.operand ty l f.b).toNat (e.reg l f.d.toNat).toNat); (oneReg f.n f.d v, v))
    (fun _ s => s))

/-- A one-source float instruction; its result goes to b2. -/
def floatU (i : Instr) (f : UForm) (op : Nat → Nat) (s : State) : Host.Outcome State Fault Refusal :=
  .next (issue i f.uses s
    (fun e set s => s.result e set 2 4 fun l => let v := bits32 (op (e.operand .f32 l f.a).toNat); (oneReg f.n f.d v, v))
    (fun _ s => s))

/-- A 16-bit float form (R38). -/
def floatH (i : Instr) (f : HForm) (op : Nat → Nat → Nat) (s : State) : Host.Outcome State Fault Refusal :=
  .next (issue i f.uses s
    (fun e set s => s.result e set 1 2 fun l =>
      let v := bits32 (op (e.reg l f.d.toNat).toNat (e.operand .f32 l f.src).toNat); ([(f.d.toNat, v)], v))
    (fun _ s => s))

/-- A conversion (R253): the immediate type of its source, and its effect on the pattern in a mode. -/
def cvtOp (i : Instr) (f : CvtForm) (ty : ImmTy) (op : Rnd → Nat → Nat) (s : State) : Host.Outcome State Fault Refusal :=
  .next (issue i f.uses s
    (fun e set s => s.result e set 2 4 fun l =>
      let v := bits32 (op (Rnd.ofAux f.r) (e.operand ty l f.a).toNat); (oneReg f.n f.d v, v))
    (fun _ s => s))

/-- Both halves of packed operands (R227, R246). -/
def halves2 (op : Nat → Nat → Nat) (a b : Nat) : Nat := op (a % 65536) (b % 65536) + 65536 * op (a / 65536) (b / 65536)

/-- Both halves of three packed operands. -/
def halves3 (op : Nat → Nat → Nat → Nat) (a b c : Nat) : Nat :=
  op (a % 65536) (b % 65536) (c % 65536) + 65536 * op (a / 65536) (b / 65536) (c / 65536)

/-- A dot product of two pairs (R247). -/
def dotHalves (f : Fmt) (a b : Nat) : Nat := f.dot2 (a % 65536) (a / 65536) (b % 65536) (b / 65536)

/-- A signed 32-bit pattern. -/
def int32 (x : Nat) : Int := (BitVec.ofNat 32 x).toInt

/-- The pattern of an integer. -/
def pattern32 (x : Int) : Nat := (BitVec.ofInt 32 x).toNat

/-! ### The 16-bit forms (R38, R242) -/

/-- `add.f32`, 16-bit. -/
def execAddF3216 (f : HForm) (s : State) : Host.Outcome State Fault Refusal := floatH (.addF3216 f) f Fmt.f32.add s

/-- `sub.f32`, 16-bit. -/
def execSubF3216 (f : HForm) (s : State) : Host.Outcome State Fault Refusal := floatH (.subF3216 f) f Fmt.f32.sub s

/-- `mul.f32`, 16-bit. -/
def execMulF3216 (f : HForm) (s : State) : Host.Outcome State Fault Refusal := floatH (.mulF3216 f) f Fmt.f32.mul s

/-- `min.f32`, 16-bit. -/
def execMinF3216 (f : HForm) (s : State) : Host.Outcome State Fault Refusal := floatH (.minF3216 f) f Fmt.f32.min s

/-- `max.f32`, 16-bit. -/
def execMaxF3216 (f : HForm) (s : State) : Host.Outcome State Fault Refusal := floatH (.maxF3216 f) f Fmt.f32.max s

/-! ### FP32 arithmetic (R242, R243) -/

/-- `add.f32`. -/
def execAddF32 (f : RForm) (s : State) : Host.Outcome State Fault Refusal := floatR (.addF32 f) f .f32 1 Fmt.f32.add s

/-- `sub.f32`. -/
def execSubF32 (f : RForm) (s : State) : Host.Outcome State Fault Refusal := floatR (.subF32 f) f .f32 1 Fmt.f32.sub s

/-- `mul.f32`. -/
def execMulF32 (f : RForm) (s : State) : Host.Outcome State Fault Refusal := floatR (.mulF32 f) f .f32 1 Fmt.f32.mul s

/-- `fma.f32`: a × b + the old d, rounded once. -/
def execFmaF32 (f : RForm) (s : State) : Host.Outcome State Fault Refusal := floatR3 (.fmaF32 f) f .f32 Fmt.f32.fma s

/-- `min.f32`. -/
def execMinF32 (f : RForm) (s : State) : Host.Outcome State Fault Refusal := floatR (.minF32 f) f .f32 1 Fmt.f32.min s

/-- `max.f32`. -/
def execMaxF32 (f : RForm) (s : State) : Host.Outcome State Fault Refusal := floatR (.maxF32 f) f .f32 1 Fmt.f32.max s

/-- `div.f32`. -/
def execDivF32 (f : RForm) (s : State) : Host.Outcome State Fault Refusal := floatR (.divF32 f) f .f32 2 Fmt.f32.div s

/-- `cmp.f32` (R245). -/
def execCmpF32 (f : CmpForm) (s : State) : Host.Outcome State Fault Refusal :=
  .next (issue (.cmpF32 f) f.uses s
    (fun e set s => s.predResult e set (if f.n = 0 then f.p.toNat else 0) fun l =>
      floatCond f.c.toNat (e.operand .f32 l f.a).toNat (e.operand .f32 l f.b).toNat)
    (fun _ s => s))

/-! ### The fun group (R249-R251) -/

/-- `neg.f32`. -/
def execNegF32 (f : UForm) (s : State) : Host.Outcome State Fault Refusal := floatU (.negF32 f) f Fmt.f32.neg s

/-- `abs.f32`. -/
def execAbsF32 (f : UForm) (s : State) : Host.Outcome State Fault Refusal := floatU (.absF32 f) f Fmt.f32.abs s

/-- `rint.ne.f32`. -/
def execRintNeF32 (f : UForm) (s : State) : Host.Outcome State Fault Refusal := floatU (.rintNeF32 f) f (Fmt.f32.rint .ne) s

/-- `rint.z.f32`. -/
def execRintZF32 (f : UForm) (s : State) : Host.Outcome State Fault Refusal := floatU (.rintZF32 f) f (Fmt.f32.rint .z) s

/-- `rint.up.f32`. -/
def execRintUpF32 (f : UForm) (s : State) : Host.Outcome State Fault Refusal := floatU (.rintUpF32 f) f (Fmt.f32.rint .up) s

/-- `rint.dn.f32`. -/
def execRintDnF32 (f : UForm) (s : State) : Host.Outcome State Fault Refusal := floatU (.rintDnF32 f) f (Fmt.f32.rint .dn) s

/-- `rcp.f32`. -/
def execRcpF32 (f : UForm) (s : State) : Host.Outcome State Fault Refusal := floatU (.rcpF32 f) f rcpBits s

/-- `rsqrt.f32`. -/
def execRsqrtF32 (f : UForm) (s : State) : Host.Outcome State Fault Refusal := floatU (.rsqrtF32 f) f rsqrtBits s

/-- `sqrt.f32`. -/
def execSqrtF32 (f : UForm) (s : State) : Host.Outcome State Fault Refusal := floatU (.sqrtF32 f) f sqrtBits s

/-- `exp2.f32`. -/
def execExp2F32 (f : UForm) (s : State) : Host.Outcome State Fault Refusal := floatU (.exp2F32 f) f exp2Bits s

/-- `log2.f32`. -/
def execLog2F32 (f : UForm) (s : State) : Host.Outcome State Fault Refusal := floatU (.log2F32 f) f log2Bits s

/-- `sin.f32`. -/
def execSinF32 (f : UForm) (s : State) : Host.Outcome State Fault Refusal := floatU (.sinF32 f) f (radianBits false) s

/-- `cos.f32`. -/
def execCosF32 (f : UForm) (s : State) : Host.Outcome State Fault Refusal := floatU (.cosF32 f) f (radianBits true) s

/-- `sinpi.f32`. -/
def execSinpiF32 (f : UForm) (s : State) : Host.Outcome State Fault Refusal := floatU (.sinpiF32 f) f (piBits false) s

/-- `cospi.f32`. -/
def execCospiF32 (f : UForm) (s : State) : Host.Outcome State Fault Refusal := floatU (.cospiF32 f) f (piBits true) s

/-- `fclass.f32`. -/
def execFclassF32 (f : UForm) (s : State) : Host.Outcome State Fault Refusal := floatU (.fclassF32 f) f fclassBits s

/-! ### The cvt group (R253) -/

/-- `cvt.f16.f32`. -/
def execCvtF16F32 (f : CvtForm) (s : State) : Host.Outcome State Fault Refusal :=
  cvtOp (.cvtF16F32 f) f .f32 (fun r a => Fmt.f16.pack r (Fmt.f32.unpack a)) s

/-- `cvt.bf16.f32`. -/
def execCvtBf16F32 (f : CvtForm) (s : State) : Host.Outcome State Fault Refusal :=
  cvtOp (.cvtBf16F32 f) f .f32 (fun r a => Fmt.bf16.pack r (Fmt.f32.unpack a)) s

/-- `cvt.f32.f16`. -/
def execCvtF32F16 (f : CvtForm) (s : State) : Host.Outcome State Fault Refusal :=
  cvtOp (.cvtF32F16 f) f .f16 (fun _ a => Fmt.f32.pack .ne (Fmt.f16.unpack (a % 65536))) s

/-- `cvt.f32.bf16`. -/
def execCvtF32Bf16 (f : CvtForm) (s : State) : Host.Outcome State Fault Refusal :=
  cvtOp (.cvtF32Bf16 f) f .bf16 (fun _ a => Fmt.f32.pack .ne (Fmt.bf16.unpack (a % 65536))) s

/-- `cvt.i32.f32`. -/
def execCvtI32F32 (f : CvtForm) (s : State) : Host.Outcome State Fault Refusal :=
  cvtOp (.cvtI32F32 f) f .f32 (fun r a => pattern32 ((Fmt.f32.unpack a).toInt r (-2147483648) 2147483647)) s

/-- `cvt.n32.f32`. -/
def execCvtN32F32 (f : CvtForm) (s : State) : Host.Outcome State Fault Refusal :=
  cvtOp (.cvtN32F32 f) f .f32 (fun r a => pattern32 ((Fmt.f32.unpack a).toInt r 0 4294967295)) s

/-- `cvt.f32.i32`. -/
def execCvtF32I32 (f : CvtForm) (s : State) : Host.Outcome State Fault Refusal :=
  cvtOp (.cvtF32I32 f) f .int (fun r a => Fmt.f32.pack r (FVal.ofInt (int32 a))) s

/-- `cvt.f32.n32`. -/
def execCvtF32N32 (f : CvtForm) (s : State) : Host.Outcome State Fault Refusal :=
  cvtOp (.cvtF32N32 f) f .int (fun r a => Fmt.f32.pack r (FVal.ofInt a)) s

/-- `cvt.i8.f32`. -/
def execCvtI8F32 (f : CvtForm) (s : State) : Host.Outcome State Fault Refusal :=
  cvtOp (.cvtI8F32 f) f .f32 (fun r a => pattern32 ((Fmt.f32.unpack a).toInt r (-128) 127)) s

/-- `cvt.f32.i8`. -/
def execCvtF32I8 (f : CvtForm) (s : State) : Host.Outcome State Fault Refusal :=
  cvtOp (.cvtF32I8 f) f .int (fun _ a => Fmt.f32.pack .ne (FVal.ofInt (BitVec.ofNat 8 a).toInt)) s

/-- `cvt.i8.i32`. -/
def execCvtI8I32 (f : CvtForm) (s : State) : Host.Outcome State Fault Refusal :=
  cvtOp (.cvtI8I32 f) f .int (fun _ a => pattern32 (max (-128) (min 127 (int32 a)))) s

/-- `cvt.bf16.f16`. -/
def execCvtBf16F16 (f : CvtForm) (s : State) : Host.Outcome State Fault Refusal :=
  cvtOp (.cvtBf16F16 f) f .f16 (fun r a => Fmt.bf16.pack r (Fmt.f16.unpack (a % 65536))) s

/-- `cvt.f16.bf16`. -/
def execCvtF16Bf16 (f : CvtForm) (s : State) : Host.Outcome State Fault Refusal :=
  cvtOp (.cvtF16Bf16 f) f .bf16 (fun r a => Fmt.f16.pack r (Fmt.bf16.unpack (a % 65536))) s

/-! ### Packed, dot and scale forms (R246-R248) -/

/-- `add.h2`. -/
def execAddH2 (f : RForm) (s : State) : Host.Outcome State Fault Refusal := floatR (.addH2 f) f .f16 1 (halves2 Fmt.f16.add) s

/-- `mul.h2`. -/
def execMulH2 (f : RForm) (s : State) : Host.Outcome State Fault Refusal := floatR (.mulH2 f) f .f16 1 (halves2 Fmt.f16.mul) s

/-- `fma.h2`. -/
def execFmaH2 (f : RForm) (s : State) : Host.Outcome State Fault Refusal := floatR3 (.fmaH2 f) f .f16 (halves3 Fmt.f16.fma) s

/-- `add.bh2`. -/
def execAddBh2 (f : RForm) (s : State) : Host.Outcome State Fault Refusal := floatR (.addBh2 f) f .bf16 1 (halves2 Fmt.bf16.add) s

/-- `mul.bh2`. -/
def execMulBh2 (f : RForm) (s : State) : Host.Outcome State Fault Refusal := floatR (.mulBh2 f) f .bf16 1 (halves2 Fmt.bf16.mul) s

/-- `fma.bh2`. -/
def execFmaBh2 (f : RForm) (s : State) : Host.Outcome State Fault Refusal := floatR3 (.fmaBh2 f) f .bf16 (halves3 Fmt.bf16.fma) s

/-- `dot2.bh`. -/
def execDot2Bh (f : RForm) (s : State) : Host.Outcome State Fault Refusal := floatR (.dot2Bh f) f .bf16 1 (dotHalves Fmt.bf16) s

/-- `dot2.h`. -/
def execDot2H (f : RForm) (s : State) : Host.Outcome State Fault Refusal := floatR (.dot2H f) f .f16 1 (dotHalves Fmt.f16) s

/-- `scale.f32`: sA is FP32 and sB a signed integer (R248). -/
def execScaleF32 (f : RForm) (s : State) : Host.Outcome State Fault Refusal :=
  .next (issue (.scaleF32 f) f.uses s
    (fun e set s => s.result e set 1 4 fun l =>
      let v := bits32 (Fmt.f32.scale (e.operand .f32 l f.a).toNat (e.operand .int l f.b).toInt); (oneReg f.n f.d v, v))
    (fun _ s => s))

/-- `sincos.f32`: the sine in d and b2, the cosine in d + 1; both registers are checked even with nw = 1 (R252). -/
def execSincosF32 (f : UForm) (s : State) : Host.Outcome State Fault Refusal :=
  .next (issue (.sincosF32 f) { f.uses with regs := codeRegs f.a ++ [f.d.toNat, f.d.toNat + 1] } s
    (fun e set s => s.result e set 2 4 fun l =>
      let a := (e.operand .f32 l f.a).toNat
      let sn := bits32 (radianBits false a)
      (oneReg f.n f.d sn ++ oneReg f.n (f.d + 1) (bits32 (radianBits true a)), sn))
    (fun _ s => s))

/-! ### DS8 and DS4 (R254) -/

/-- The code table of a context's descriptor: word 0x04 of its image (R233). -/
def State.codeTable (s : State) (x t : Nat) : Word := SMap.get 0 1 (SMap.get {} t (s.ctx x).descs).words

/-- `dsdec`: the scale is the old d[7:0]; sA's byte (DS8) or nibble (DS4) is decoded to FP32. -/
def dsdecOp (i : Instr) (f : DsdecForm) (four : Bool) (s : State) : Host.Outcome State Fault Refusal :=
  .next (issue i { g := f.g, regs := codeRegs f.a ++ destRegs f.n f.d, also := [f.d.toNat], lat := codeLat f.a } s
    (fun e set s => s.result e set 2 4 fun l =>
      let n := if four then 4 else 8
      let c := (e.operand .int l f.a).toNat / 2 ^ (n * f.b.toNat) % 2 ^ n
      let v := bits32 (Fmt.f32.pack .ne (dsValue four (s.codeTable e.x f.t.toNat) ((e.reg l f.d.toNat).toNat % 256) c))
      (oneReg f.n f.d v, v))
    (fun _ s => s))

/-- `dsenc`: the code of sA under the scale in the old d[7:0]. -/
def dsencOp (i : Instr) (f : DsencForm) (four : Bool) (s : State) : Host.Outcome State Fault Refusal :=
  .next (issue i { g := f.g, regs := codeRegs f.a ++ destRegs f.n f.d, also := [f.d.toNat], lat := codeLat f.a } s
    (fun e set s => s.result e set 2 4 fun l =>
      let v := bits32 (dsEncode four (s.codeTable e.x f.t.toNat) ((e.reg l f.d.toNat).toNat % 256) (e.operand .f32 l f.a).toNat % 256)
      (oneReg f.n f.d v, v))
    (fun _ s => s))

/-- `dsdec.ds8`. -/
def execDsdecDs8 (f : DsdecForm) (s : State) : Host.Outcome State Fault Refusal := dsdecOp (.dsdecDs8 f) f false s

/-- `dsdec.ds4`. -/
def execDsdecDs4 (f : DsdecForm) (s : State) : Host.Outcome State Fault Refusal := dsdecOp (.dsdecDs4 f) f true s

/-- `dsenc.ds8`. -/
def execDsencDs8 (f : DsencForm) (s : State) : Host.Outcome State Fault Refusal := dsencOp (.dsencDs8 f) f false s

/-- `dsenc.ds4`. -/
def execDsencDs4 (f : DsencForm) (s : State) : Host.Outcome State Fault Refusal := dsencOp (.dsencDs4 f) f true s

end Sys2Proof.Machine
end

