-- ==== Sys2Proof/Machine/Replay.lean ====
section
/-! DEFINITION. The replay of the entries of a trap frame (R330, R335): loads issue again at their captured addresses, and an instruction whose
result was in its pipe is computed again from its captured operands. -/

namespace Sys2Proof.Machine

/-- The load that a replayed word is: its form, size and sign extension. -/
def loadForm : Instr → Option (LdForm × Nat × Bool)
  | .ldW8 f => some (f, 1, false)
  | .ldW16 f => some (f, 2, false)
  | .ldW32 f => some (f, 4, false)
  | .ldW64 f => some (f, 8, false)
  | .ldW128 f => some (f, 16, false)
  | .ldX8 f => some (f, 1, true)
  | .ldX16 f => some (f, 2, true)
  | _ => none

/-- The meaning of a lane instruction whose result may have been in its pipe, as a replay runs it. -/
def replayExec (i : Instr) (s : State) : Host.Outcome State Fault Refusal :=
  match i with
  | .mov16 f => execMov16 f s
  | .addI3216 f => execAddI3216 f s
  | .subI3216 f => execSubI3216 f s
  | .mulI3216 f => execMulI3216 f s
  | .and16 f => execAnd16 f s
  | .or16 f => execOr16 f s
  | .xor16 f => execXor16 f s
  | .shl16 f => execShl16 f s
  | .shrN3216 f => execShrN3216 f s
  | .shrI3216 f => execShrI3216 f s
  | .addF3216 f => execAddF3216 f s
  | .subF3216 f => execSubF3216 f s
  | .mulF3216 f => execMulF3216 f s
  | .minF3216 f => execMinF3216 f s
  | .maxF3216 f => execMaxF3216 f s
  | .addI32 f => execAddI32 f s
  | .subI32 f => execSubI32 f s
  | .mulI32 f => execMulI32 f s
  | .mulhiI32 f => execMulhiI32 f s
  | .mulhiN32 f => execMulhiN32 f s
  | .minI32 f => execMinI32 f s
  | .maxI32 f => execMaxI32 f s
  | .minN32 f => execMinN32 f s
  | .maxN32 f => execMaxN32 f s
  | .and f => execAnd f s
  | .or f => execOr f s
  | .andn f => execAndn f s
  | .xor f => execXor f s
  | .shl f => execShl f s
  | .shrN32 f => execShrN32 f s
  | .shrI32 f => execShrI32 f s
  | .rotl f => execRotl f s
  | .bfeI32 f => execBfeI32 f s
  | .bfeN32 f => execBfeN32 f s
  | .madI32 f => execMadI32 f s
  | .bfi f => execBfi f s
  | .mov f => execMov f s
  | .not f => execNot f s
  | .neg f => execNeg f s
  | .abs f => execAbs f s
  | .popc f => execPopc f s
  | .clz f => execClz f s
  | .ctz f => execCtz f s
  | .brev f => execBrev f s
  | .sextW8 f => execSextW8 f s
  | .sextW16 f => execSextW16 f s
  | .zextW8 f => execZextW8 f s
  | .zextW16 f => execZextW16 f s
  | .addF32 f => execAddF32 f s
  | .subF32 f => execSubF32 f s
  | .mulF32 f => execMulF32 f s
  | .minF32 f => execMinF32 f s
  | .maxF32 f => execMaxF32 f s
  | .divF32 f => execDivF32 f s
  | .fmaF32 f => execFmaF32 f s
  | .addH2 f => execAddH2 f s
  | .mulH2 f => execMulH2 f s
  | .dot2H f => execDot2H f s
  | .fmaH2 f => execFmaH2 f s
  | .addBh2 f => execAddBh2 f s
  | .mulBh2 f => execMulBh2 f s
  | .dot2Bh f => execDot2Bh f s
  | .fmaBh2 f => execFmaBh2 f s
  | .negF32 f => execNegF32 f s
  | .absF32 f => execAbsF32 f s
  | .rintNeF32 f => execRintNeF32 f s
  | .rintZF32 f => execRintZF32 f s
  | .rintUpF32 f => execRintUpF32 f s
  | .rintDnF32 f => execRintDnF32 f s
  | .rcpF32 f => execRcpF32 f s
  | .rsqrtF32 f => execRsqrtF32 f s
  | .sqrtF32 f => execSqrtF32 f s
  | .exp2F32 f => execExp2F32 f s
  | .log2F32 f => execLog2F32 f s
  | .sinF32 f => execSinF32 f s
  | .cosF32 f => execCosF32 f s
  | .sinpiF32 f => execSinpiF32 f s
  | .cospiF32 f => execCospiF32 f s
  | .fclassF32 f => execFclassF32 f s
  | .cvtF16F32 f => execCvtF16F32 f s
  | .cvtBf16F32 f => execCvtBf16F32 f s
  | .cvtI32F32 f => execCvtI32F32 f s
  | .cvtN32F32 f => execCvtN32F32 f s
  | .cvtI8F32 f => execCvtI8F32 f s
  | .cvtF32F16 f => execCvtF32F16 f s
  | .cvtBf16F16 f => execCvtBf16F16 f s
  | .cvtF32Bf16 f => execCvtF32Bf16 f s
  | .cvtF16Bf16 f => execCvtF16Bf16 f s
  | .cvtF32I32 f => execCvtF32I32 f s
  | .cvtF32N32 f => execCvtF32N32 f s
  | .cvtF32I8 f => execCvtF32I8 f s
  | .cvtI8I32 f => execCvtI8I32 f s
  | _ => .next s

/-- The latches a replay reads for a source: the captured operand stands in the one that a latch code names. -/
def putLatch (code : BitVec 7) (ls : List Lane) (op : SMap Word) (m : SMap Latch) : SMap Latch :=
  if 64 ≤ code.toNat && code.toNat ≤ 67 then
    ls.foldl (fun m l => SMap.set none ((code.toNat - 64) * 32 + l.lane) (some (SMap.get 0 l.lane op)) m) m
  else m

/-- The registers a replay reads for a source: the captured operand stands in the one that a register code names. -/
def putSource (code : BitVec 7) (ls : List Lane) (op : SMap Word) (y : Core) : Core :=
  if code.toNat ≤ 63 then ls.foldl (fun y l => y.setReg l.hw code.toNat l.lane (SMap.get 0 l.lane op)) y else y

/-- A core on which a replayed instruction issues for its lanes and reads its captured operands, whatever its threads' guards are. -/
def State.replayState (s : State) (c ws k : Nat) (ls : List Lane) (f : LaneForm) (r : Replay) : State :=
  let s := s.eachThread c ws ls fun _ t => { t with pc := r.pc, preds := 255, capture := none, effect := none, poison := none }
  let w : Warp := { ws := ws, lanes := ls.map (fun l => (l.lane, some l.tid)), run := 0,
                    latches := putLatch f.b ls r.opB (putLatch f.a ls r.opA []), last := s.tick }
  let s := s.modCore c fun y =>
    let y := putSource f.b ls r.opB (putSource f.a ls r.opA y)
    let y := if f.three then ls.foldl (fun y l => y.setReg l.hw f.d.toNat l.lane (SMap.get 0 l.lane r.opC)) y else y
    { (y.setWarp k (some w)) with loads := [] }
  { s with issuer := some (.vec c k) }

/-- An instruction computes its result again from its captured operands: it goes to its destination and, for the lanes whose latch waits on this
entry, to the latch (R335). -/
def State.replayLane (s : State) (c ws k : Nat) (ls : List Lane) (tag : Nat → Nat → Bool) (i : Instr) (f : LaneForm) (r : Replay) : State :=
  match replayExec i (s.replayState c ws k ls f r) with
  | .next t =>
    let s := if f.n = 0 then s.modCore c fun y => ls.foldl (fun y l => y.setReg l.hw f.d.toNat l.lane ((t.core c).reg l.hw f.d.toNat l.lane)) y else s
    let out := (((t.core c).warp k).map (·.latches)).getD []
    let put := fun (m : SMap Latch) (l : Lane) => SMap.set none (f.latch * 32 + l.lane) (SMap.get none (f.latch * 32 + l.lane) out) m
    s.modCore c fun y => match y.warp k with
      | some w => y.setWarp k (some { w with latches := (ls.filter (fun l => tag f.latch l.lane)).foldl put w.latches })
      | none => y
  | _ => s

/-- A load issues again for its lanes at its captured addresses, for the latch of issue context k where that waits on this entry (R335). -/
def State.replayLoad (s : State) (c ws k : Nat) (ls : List Lane) (tag : Nat → Nat → Bool) (f : LdForm) (size : Nat) (signed : Bool) (r : Replay) :
    Option State :=
  let scope := if f.o = 2 then f.s.toNat else 0
  let id := s.fresh
  ls.foldl (fun acc l => acc.bind fun s =>
    let who : Who := .lane c ((s.core c).lcore.getD 0) l.hw ws l.tid
    let p : Load := { id := id.1, kind := .plain, who := who, pc := r.pc, word := r.word,
                      va := dword (SMap.get 0 l.lane r.opA) (SMap.get 0 l.lane r.opB), pa := 0, size := size, signed := signed,
                      dest := some f.d.toNat, pred := f.p.toNat, scope := scope, gen := (s.ctx (s.coreCtx c)).gen, data := none, warp := some k,
                      late := !tag 3 l.lane }
    let plan := s.planLoad c l.hw p.va size
    (if plan = .wait then none else some (s.beginLoad c l.hw p f.o.toNat f.s.toNat plan)).map fun s =>
      if scope = 0 then s else s.modThread c ws l.tid fun t => { t with loadHold := t.loadHold + 1 }) (some id.2)

/-- A replay entry is re-injected (R335): one whose word names no instruction of R330 does nothing. -/
def State.reinject : Inject := fun s c ws k ls tag r =>
  match decode (leBytes 4 r.word.toNat) with
  | .ok (i, _) => match loadForm i, laneForm i with
    | some (f, size, signed), _ => s.replayLoad c ws k ls tag f size signed r
    | none, some f => some (s.replayLane c ws k ls tag i f r)
    | none, none => some s
  | .error _ => some s

end Sys2Proof.Machine
end

