-- ==== Sys2Proof/Machine/Sys.lean ====
section
/-! DEFINITION. The sys group (R334-R340, R294): `tret`, `cxsave`, `cxload`, `genset`, `xinv`, `rdsr`, `wrsr`, `tickstop`, `dgrd`, `halt`. -/

namespace Sys2Proof.Machine

/-! ### Returning from a trap (R335) -/

/-- The length of the instruction at a PC of a context: from bit 0 of its first halfword (R34). -/
def State.lengthAt (s : State) (c x : Nat) (pc : DWord) : Nat :=
  match s.fetchHalf c x pc 0 with
  | .half h _ => if h.getLsbD 0 then 4 else 2
  | _ => 4

/-- The PC that a trapped prologue was saved with: that of its trap frame, unless the frame has been written for another trap since (R324,
R327). -/
def State.prologuePc (s : State) (base : Nat) (r : CtRegs) : DWord :=
  let a := base + saveCtFrame
  if s.homeWord a = r.frame.getD 0 0 && s.homeWords (a + 16) 4 == r.frame.drop 4 then s.homeDword (a + 8) else r.pc

/-- The trapped prologue of a control thread goes on: at its saved PC, after it, or not at all (R335). After a REMOTE_ERR of an entry that is
held at the head of its queue, a retry sends the entry again and a skip discards it, and both go on at the saved PC (R396). -/
def State.returnPrologue (s : State) (c mode : Nat) : State :=
  let x := s.coreCtx c
  let lc := (s.core c).lcore.getD 0
  let base := s.saveArea x lc
  match (s.core c).ct.trapped with
  | [] => s
  | r :: rest =>
    if !s.saveAreaOk x base then s.beginRemoval x trapENGINEFATAL else
    let pc := s.prologuePc base r
    let s := s.modCore c fun y => { y with ct := { y.ct with trapped := rest } }
    if mode = 2 then (match r.run with
      | .prologue n stage => s.prologueDone x n stage lc
      | _ => s)
    else
      let skip := mode == 1 && !r.remote
      let r' := { r with pc := if skip then pc48 (pc + BitVec.ofNat 64 (s.lengthAt c x pc)) else pc, park := .none, waited := false,
                         watched := r.watched && mode == 0, remote := false, frame := [], grd := if skip then none else r.grd }
      let s := s.modCore c fun y => { y with ct := { y.ct with saved := r' :: y.ct.saved } }
      if !r.remote then s else if mode = 0 then s.resendHeld c ctQueue (.ct c lc) else s.discardHeld c ctQueue (.ct c lc)

/-- `tret`. -/
def execTret (mode : BitVec 3) (a : BitVec 7) (d : BitVec 6) (g : BitVec 3) (s : State) : Host.Outcome State Fault Refusal :=
  ctlOnly (.tret mode a d g) { g := g, regs := codeRegs a ++ [d.toNat] } s fun e s =>
    let slot := (e.operand a).toNat
    let trapped := match e.cr.wg slot with
      | some w => w.state == .trapped
      | none => false
    if slot ≤ 5 && trapped then
      match s.returnTrap e.c slot mode.toNat State.reinject State.exitThread with
      | none => s
      | some s => (s.resendRetired.tryFinish e.c slot).resultCt e 4 d.toNat 0
    else if slot = 6 && !e.cr.ct.trapped.isEmpty then (s.returnPrologue e.c mode.toNat).resultCt e 4 d.toNat 0
    else s.resultCt e 4 d.toNat 1

/-! ### Switching by hand (R336) -/

/-- A switch of a core is requested: eviction is pending for every resident workgroup (R331). -/
def State.requestSwitch (s : State) (c : Nat) : State :=
  s.modCore c fun y => { y with switch := true, wgs := y.wgs.map (fun kv => (kv.1, kv.2.map (fun g =>
    if g.state = .resident then { g with evict := true } else g))) }

/-- `cxsave`: the control thread waits for the switch-out. -/
def execCxsave (d : BitVec 6) (g : BitVec 3) (s : State) : Host.Outcome State Fault Refusal :=
  ctlOnly (.cxsave d g) { g := g, regs := [d.toNat] } s fun e s =>
    if e.r.waited then s.resultCt e 4 d.toNat 0
    else if e.cr.lcore.isNone then s.resultCt e 4 d.toNat 1
    else (s.requestSwitch e.c).parkCt e.c .switch

/-- `cxload`. -/
def execCxload (a : BitVec 7) (d : BitVec 6) (g : BitVec 3) (s : State) : Host.Outcome State Fault Refusal :=
  ctlOnly (.cxload a d g) { g := g, regs := codeRegs a ++ [d.toNat] } s fun e s =>
    let l := (e.operand a).toNat
    if e.cr.lcore.isSome then s.resultCt e 4 d.toNat 1
    else if (s.ctx e.x).grid ≤ l || s.placedAt e.x l ≠ e.c then s.resultCt e 4 d.toNat 2
    else (s.moveIn e.c l).resultCt e 4 d.toNat 0

/-! ### Generations and purges (R337, R338) -/

/-- Requests of a context in flight under a generation that would no longer be older than a new one (R157). -/
def State.stragglers (s : State) (x : Nat) (gen : BitVec 16) : Bool :=
  s.net.any (fun m => m.ctx = x && decide (32767 < (gen - m.gen).toNat)) ||
  s.cores.any (fun kv => kv.2.owner = some x && kv.2.queues.any (fun q => q.2.any (fun e => decide (32767 < (gen - e.gen).toNat))))

/-- The monitor entries of a context under older generations are retired: each wait re-executes now, or after its workgroup is
restored (R191, R333). -/
def State.retireEntries (s : State) (x : Nat) : State :=
  let gen := (s.ctx x).gen
  let old := fun (e : MonEntry) => e.ctx = x && e.gen != gen
  let gone := s.hbm.flatMap (fun kv => ((kv.2.monitor.flatMap (·.2)) ++ kv.2.spilled ++ kv.2.fallback).filter old)
  let ids := gone.flatMap (fun e => e.waiters.flatMap (·.waits))
  if ids.isEmpty then s
  else
    let drop := fun (k : Stack) => { k.setSpilled (k.spilled.filter (fun e => !old e)) with
                                            monitor := (k.monitor.map (fun p => (p.1, p.2.filter (fun e => !old e)))).filter (fun p => p.2 != []),
                                            fallback := k.fallback.filter (fun e => !old e) }
    let s := (s.hbm.map (·.1)).foldl (fun s k => s.modStack k drop) s
    (s.waits.filter (fun (w : Wait) => ids.contains w.id)).foldl (fun s w =>
      if s.isHere w.who then s.resendWait w
      else { s with waits := s.waits.map (fun v => if v.id = w.id then { v with evicted := true, canceled := false } else v) }) s

/-- `genset`. -/
def execGenset (d : BitVec 6) (g : BitVec 3) (s : State) : Host.Outcome State Fault Refusal :=
  ctlOnly (.genset d g) { g := g, regs := [d.toNat] } s fun e s =>
    let gen := (s.ctx e.x).gen + 1
    if !e.drained || s.stragglers e.x gen then s
    else
      let (s, ok) := s.releaseNow e.x (dieOf e.c)
      if !ok then s.effectCt e.c effREMOTEERR 5
      else ((s.modCtx e.x fun y => { y with gen := gen }).retireEntries e.x).resultCt e 4 d.toNat (gen.setWidth 64)

/-- A line is purged: its dirty words reach memory and no copy remains (R338). -/
def State.purgeLine (s : State) (line : Nat) : State :=
  let s := (List.range 32).foldl (fun s i => (s.recall (line * 128 + 4 * i)).dropCopies (line * 128 + 4 * i)) s
  s.cleanLlc line

/-- `xinv`. -/
def execXinv (a : BitVec 7) (d : BitVec 6) (g : BitVec 3) (s : State) : Host.Outcome State Fault Refusal :=
  ctlOnly (.xinv a d g) { g := g, regs := codeRegs a ++ [d.toNat] } s fun e s =>
    let pa := (e.r.reg a.toNat).toNat
    let n := (e.r.reg d.toNat).toNat
    if n = 0 || 512 < n || pa % 128 ≠ 0 || 65536 < pa % 65536 + 128 * n then s.trapCt e.c trapALIGN
    else if isWindowPa pa || !s.ownsFrame e.x pa then s.trapCt e.c trapADDR
    else if s.homeDown pa then s
    else ((span (pa / 128) n).foldl State.purgeLine s).advanceCt e 4

/-! ### System registers (R306, R326, R339, R366, R372) -/

/-- A register held by the core for its logical core (R372). -/
def isCoreReg (n : Nat) : Bool := n == 0x20 || n == 0x22 || (decide (0x24 ≤ n) && decide (n ≤ 0x2B))

/-- The value of a system register. -/
def State.sysReg (s : State) (c x n : Nat) : DWord :=
  if n ≤ 4 then s.fellosReg n
  else if n = 0x10 then (s.ctx x).gen.setWidth 64
  else if n = 0x17 then BitVec.ofNat 64 (s.ctx x).grid
  else if n = 0x1B then ((s.core c).swtime.lo).setWidth 64
  else if isCoreReg n then (s.core c).sysReg n
  else (s.ctx x).reg n

/-- A register that `wrsr` may write. -/
def isWritable (n : Nat) : Bool :=
  isCoreReg n || [0x12, 0x14, 0x15, 0x16, 0x18, 0x19, 0x1A, 0x1D, 0x1E, 0x1F, 0x21, 0x2C, 0x2D, 0x2E, 0x40, 0x41].contains n

/-- A value limited to a range. -/
def clampTo (lo hi v : Nat) : DWord := BitVec.ofNat 64 (max lo (min hi v))

/-- The value a register stores for one written: its field's bits, outside values as the nearest limit, reserved bits as 0 (R286, R306,
R326, R372). -/
def storedValue (n : Nat) (v : DWord) : DWord :=
  let w := v.toNat
  if n = 0x15 then clampTo 16 24 w
  else if n = 0x16 then clampTo 70000 35000000 w
  else if n = 0x1A then clampTo 7000 35000000 w
  else if n = 0x20 then (if w = 0 then 0 else clampTo 1024 (2 ^ 31) w)
  else if n = 0x22 then v &&& 0x3333
  else if 0x24 ≤ n && n ≤ 0x2B then clampTo 0 (2 ^ 48 - 1) w
  else if n = 0x2C then (let p := min 7 w; if p % 4 = 3 then BitVec.ofNat 64 (p / 4 * 4) else BitVec.ofNat 64 p)
  else if n = 0x1D then v.lo.setWidth 64
  else if n = 0x40 then v &&& (if w % 4 = 3 then 0xFFFFFFFF00000004 else 0xFFFFFFFF00000007)
  else v

/-- The frames of an overflow area are owned and unmapped (R306). -/
def State.overflowOk (s : State) (x : Nat) (base bits : Nat) : Bool :=
  (List.range (2 ^ bits / 65536)).all (fun i =>
    let e := s.ientry (gfnOf (base + 65536 * i)); e.owned && !e.retired && e.ctx == x && !e.valid)

/-- `rdsr`. -/
def execRdsr (n : BitVec 7) (d : BitVec 6) (g : BitVec 3) (s : State) : Host.Outcome State Fault Refusal :=
  ctlOnly (.rdsr n d g) { g := g, regs := [d.toNat] } s fun e s => s.resultCt e 4 d.toNat (s.sysReg e.c e.x n.toNat)

/-- `wrsr`: register number n[6] above n[5:0]. A write that ends the determinism mode lets held remap writes take effect (R287). -/
def execWrsr (hi : BitVec 1) (a : BitVec 7) (lo : BitVec 6) (g : BitVec 3) (s : State) : Host.Outcome State Fault Refusal :=
  ctlOnly (.wrsr hi a lo g) { g := g, regs := codeRegs a } s fun e s =>
    let n := hi.toNat * 64 + lo.toNat
    let v := storedValue n (e.operand a)
    if !isWritable n then s.trapCt e.c trapPRIV
    else if n = 0x14 && !s.overflowOk e.x v.toNat ((s.ctx e.x).reg 0x15).toNat then s.trapCt e.c trapADDR
    else if isCoreReg n then (s.modCore e.c fun y => { y with sys := SMap.set 0 n v y.sys }).advanceCt e 4
    else ((s.modCtx e.x (·.setReg n v)).settleRemap e.x).advanceCt e 4

/-! ### Stops and digests (R294, R340) -/

/-- `tickstop`. -/
def execTickstop (a : BitVec 7) (d : BitVec 6) (g : BitVec 3) (s : State) : Host.Outcome State Fault Refusal :=
  ctlOnly (.tickstop a d g) { g := g, regs := codeRegs a ++ [d.toNat] } s fun e s =>
    let t := e.r.reg a.toNat
    if !((s.ctx e.x).reg 0x1C).getLsbD 0 then s.trapCt e.c trapPRIV
    else if t.toNat ≤ s.tick.toNat then s.resultCt e 4 d.toNat 1
    else ({ s with armed := some t } : State).resultCt e 4 d.toNat 0

/-- `dgrd`: the digest of a deterministic workgroup, or of the last deterministic launch completed. -/
def execDgrd (mode : BitVec 3) (a : BitVec 7) (d : BitVec 6) (g : BitVec 3) (s : State) : Host.Outcome State Fault Refusal :=
  ctlOnly (.dgrd mode a d g) { g := g, regs := codeRegs a ++ [d.toNat] } s fun e s =>
    if mode = 0 then
      let slot := (e.operand a).toNat
      if 5 < slot then s.trapCt e.c trapILLEGAL
      else
        let v := match e.cr.wg slot with
          | some w => if ((s.launch e.x w.launch).map (·.detMode)).getD 0 = 0 then 0 else w.digest
          | none => 0
        s.resultCt e 4 d.toNat v
    else s.resultCt e 4 d.toNat e.cr.ct.ldigest

/-- The packages other than this one that hold a rank of one of a context's incomplete collectives (R367). -/
def State.rankPackages (s : State) (x : Nat) : List Nat :=
  (((s.colls.filter (fun (k : Coll) => k.ctx = x)).flatMap (fun (k : Coll) => (SMap.get [] k.group (s.ctx x).groups).map (·.1))).filter
    (· ≠ s.pkg.toNat)).eraseDups

/-- Those packages are told what becomes of this package's ranks (R367). -/
def State.tellPeers (s : State) (x : Nat) (st : PeerStatus) : State := { s with out := s.out ++ (s.rankPackages x).map (fun p => .haltStatus p x st) }

/-- A context is halted: issue stops on every core of the context, and packages that hold a rank of one of its collectives are told (R340,
R367). -/
def State.haltCtx (s : State) (x : Nat) : State :=
  (s.modCtx x fun y => { y with halted := true, haltedAt := s.tick }).tellPeers x .halted

/-- `halt`. -/
def execHalt (g : BitVec 3) (s : State) : Host.Outcome State Fault Refusal :=
  ctlOnly (.halt g) { g := g } s fun e s =>
    if !((s.ctx e.x).reg 0x1C).getLsbD 1 then s.trapCt e.c trapPRIV
    else (s.haltCtx e.x).advanceCt e 4

end Sys2Proof.Machine
end

