-- ==== Sys2Proof/Machine/CollEvents.lean ====
section
/-! DEFINITION. The collective engine (R219, R220, R156, R367). Ranks on other packages are outside the model: what they contribute is a
free value. -/

namespace Sys2Proof.Machine

/-- The kind of a collective: 0 all-reduce, 1 reduce-scatter, 2 all-gather, 3 broadcast. -/
def Command.collKind (m : Command) : Nat := match m.op with
  | .coll k _ => k.toNat
  | _ => 0

/-- The operation of a collective: 0 add, 1 max, 2 min. -/
def Command.collOp (m : Command) : Nat := match m.op with
  | .coll _ o => o.toNat
  | _ => 0

/-- The box of all a descriptor's elements. -/
def Command.whole (m : Command) (n : Nat) : Coord := { c0 := m.ext n 0, c1 := m.ext n 1, c2 := m.ext n 2, c3 := m.ext n 3 }

/-- The element count of a captured descriptor. -/
def Command.count (m : Command) (n : Nat) : Nat := (m.whole n).volume

/-- The number of ranks of a collective's group. -/
def State.ranks (s : State) (k : Coll) : Nat := (SMap.get [] k.group (s.ctx k.ctx).groups).length

/-- A rank of the group lies on this package. -/
def State.isLocalRank (s : State) (k : Coll) (r : Nat) : Bool :=
  match (SMap.get [] k.group (s.ctx k.ctx).groups)[r]? with
  | some p => p.1 == s.pkg.toNat
  | none => true

/-- The check of one participant that gives 0x05 (R219): format, base and counts for R ranks. A destination in another format than its
source, and a root that is no rank, fail it too. -/
def Command.collBad (m : Command) (r : Nat) : Bool :=
  let dst := m.desc 0
  let src := m.desc 1
  let ed := m.count 0
  let es := m.count 1
  !(src.fmt == 0 || src.fmt == 1 || src.fmt == 2 || src.fmt == 4) || dst.fmt != src.fmt || decide (1 < src.bkind) || decide (1 < dst.bkind) ||
  !dst.boxOk { c0 := 0 } (m.whole 0) || !src.boxOk { c0 := 0 } (m.whole 1) ||
  (match m.collKind with
   | 1 => es != r * ed
   | 2 => ed != r * es
   | 3 => ed != es || decide (r ≤ m.slotNat 1)
   | _ => ed != es)

/-- A participant's command with its descriptors captured and checked (R111, R219). -/
def State.acceptColl (s : State) (r : Nat) (m : Command) : Command :=
  let m := { m with phase := .started, since := s.tick, mine := s.ownedCores m.ctx }
  if m.fault ≠ 0 then m
  else match s.capture m [m.tidA, m.tidB] with
    | .error f => { m with fault := f }
    | .ok (ds, es) =>
      let m := { m with descs := ds, dyn := es }
      if m.collBad r then { m with fault := 5 } else m

/-- The elements of a participant's source, in the order of the box. -/
def State.collSource (s : State) (m : Command) : Except Nat (List Word) :=
  gatherL (fun n => match s.readElem m false (m.desc 1) (nthOf { c0 := 0 } (m.whole 1) n) with
    | .ok b => .ok (BitVec.ofNat 32 b)
    | .error f => .error f) (List.range (m.count 1))

/-- Change the n-th collective. -/
def State.setColl (s : State) (n : Nat) (k : Coll) : State := { s with colls := s.colls.set n k }

/-- `collStart`: the next participant's command of the n-th collective is accepted, its earlier stores are released, and its source is
read (R156, R219). -/
def execCollStart (n : Nat) (s : State) : Host.Outcome State Fault Refusal :=
  match s.colls[n]? with
  | none => .next s
  | some k =>
    match k.parts.findIdx? (fun p => p.2.phase == .posted) with
    | none => .next s
    | some i =>
      match k.parts[i]? with
      | none => .next s
      | some (r, m) =>
        if !s.mayAccept m || (s.ctx k.ctx).halted then .next s
        else
          let s := (s.countAccepted m).touchDyn m [m.tidA, m.tidB]
          let m := s.acceptColl (s.ranks k) m
          let put := fun (s : State) (m : Command) (d : List Word) =>
            s.setColl n { k with parts := k.parts.set i (r, m), data := SMap.set [] r d k.data }
          if m.fault ≠ 0 then .next (put s m [])
          else
            let (s, ok) := s.releaseNow m.ctx (dieOf m.core)
            if !ok then .next (put s { m with fault := 6 } [])
            else
              let s := s.touchLocs false ((List.range (m.count 1)).map (fun i => (m, (m.desc 1).loc m.core (nthOf { c0 := 0 } (m.whole 1) i))))
              match s.collSource m with
              | .ok d => .next (put s m d)
              | .error f => .next (put s { m with fault := f } [])

/-! ### The reduction (R220) -/

/-- The format of a float element code. -/
def collFmt (fmt : Nat) : Fmt := if fmt = 1 then .f16 else if fmt = 2 then .bf16 else .f32

/-- One step of a reduction: FP32 for the float formats, 32-bit integers otherwise. -/
def reduceStep (fmt op : Nat) (acc x : Nat) : Nat :=
  if fmt = 4 then
    let a : Word := BitVec.ofNat 32 acc
    let b : Word := BitVec.ofNat 32 x
    (if op = 0 then a + b else if op = 1 then (if a.slt b then b else a) else (if b.slt a then b else a)).toNat
  else if op = 0 then Fmt.f32.add acc x
  else if op = 1 then Fmt.f32.max acc x
  else Fmt.f32.min acc x

/-- An element as the accumulator takes it. -/
def widenColl (fmt : Nat) (x : Word) : Nat :=
  if fmt = 1 || fmt = 2 then Fmt.f32.pack .ne ((collFmt fmt).unpack x.toNat) else x.toNat

/-- The accumulator rounded to the element format. -/
def narrowColl (fmt acc : Nat) : Nat := if fmt = 1 || fmt = 2 then (collFmt fmt).pack .ne (Fmt.f32.unpack acc) else acc

/-- A value as an operation gives it: a NaN of a float format is its canonical NaN (R226). -/
def canonColl (fmt acc : Nat) : Nat := if fmt = 4 then acc else Fmt.f32.pack .ne (Fmt.f32.unpack acc)

/-- Elements reduced in rank order (R220): of one rank alone, its element, but for the payload of a NaN, which passes to no result (R226). -/
def reduceRanks (fmt op : Nat) (xs : List Word) : Nat :=
  narrowColl fmt ((xs.tail.map (widenColl fmt)).foldl (reduceStep fmt op) (canonColl fmt (widenColl fmt (xs.headD 0))))

/-- Element i of a rank's source; another package's is a free value (assumption 7). -/
def State.rankElem (s : State) (k : Coll) (fmt r i : Nat) : Word :=
  if s.isLocalRank k r then (SMap.get [] r k.data).getD i 0
  else Config.freeWord s.steps (2 ^ 62 + r * 2 ^ 40 + i) &&& (if fmt = 1 || fmt = 2 then 0xFFFF else 0xFFFFFFFF)

/-- Element i of rank r's destination. -/
def State.collElem (s : State) (k : Coll) (m : Command) (r i : Nat) : Nat :=
  let fmt := (m.desc 1).fmt
  let all := fun (j : Nat) => reduceRanks fmt m.collOp ((List.range (s.ranks k)).map (fun q => s.rankElem k fmt q j))
  match m.collKind with
  | 0 => all i
  | 1 => all (r * m.count 0 + i)
  | 2 => (s.rankElem k fmt (i / m.count 1) (i % m.count 1)).toNat
  | _ => (s.rankElem k fmt (m.slotNat 1) i).toNat

/-- A rank's destination is written, element by element. -/
def State.collWrite (s : State) (k : Coll) (r : Nat) (m : Command) : State × Nat :=
  let r := stepsOf (List.range (m.count 0)) s fun t i => t.writeElem m (m.desc 0) (0, m.ext 0 0) (nthOf { c0 := 0 } (m.whole 0) i) (s.collElem k m r i)
  (r.1.wakeWritten m (m.desc 0) ((List.range (m.count 0)).map (nthOf { c0 := 0 } (m.whole 0))), r.2)

/-- Two participants disagree: in kind, operation, tag, root, format or source count (R219). -/
def Command.collDiffers (m d : Command) : Bool :=
  m.op != d.op || m.slotNat 2 != d.slotNat 2 || (m.collKind == 3 && m.slotNat 1 != d.slotNat 1) || (m.desc 1).fmt != (d.desc 1).fmt ||
  m.count 1 != d.count 1

/-- The code every participant of a collective completes with, 0 for none: a check that failed anywhere, or the fault of the lowest rank.
Whether a rank of another package disagrees is open (assumption 6). -/
def State.collCode (s : State) (k : Coll) : Nat :=
  match k.parts.find? (fun p => p.2.fault ≠ 0) with
  | some p => p.2.fault
  | none =>
    if k.parts.any (fun p => k.parts.any (fun q => p.2.collDiffers q.2)) then 5
    else if (List.range (s.ranks k)).any (fun r => !s.isLocalRank k r) && Config.choice s.steps 40 % 2 = 1 then 5
    else 0

/-- Every rank of this package has a part that was read, or had one; a command its group does not list stands alone. -/
def State.collReady (s : State) (k : Coll) : Bool :=
  k.parts.all (fun p => p.2.phase == .started) && !k.parts.isEmpty &&
  (k.ended || (List.range (s.ranks k)).all (fun r => !s.isLocalRank k r || k.parts.any (·.1 = r) || !(SMap.get [] r k.data).isEmpty) ||
   k.parts.any (fun p => p.2.fault = 5 && (s.rankOf p.2).isNone))

/-- A rank's part completes. -/
def State.endPart (s : State) (k : Coll) (r : Nat) (m : Command) (code : Nat) : State :=
  if code ≠ 0 then s.completeCommand m code
  else let w := s.collWrite k r m; w.1.completeCommand m w.2

/-- The ticks from which ranks of a collective are halted, with their packages: this one's with the context, others as they have reported
(R367). -/
def State.collHalts (s : State) (k : Coll) : List (Nat × DWord) :=
  let x := s.ctx k.ctx
  let pkgs := (SMap.get [] k.group x.groups).map (·.1)
  (if x.halted then [(s.pkg.toNat, x.haltedAt)] else []) ++ x.peersHalted.filter (fun p => pkgs.contains p.1)

/-- `collComplete`: a collective that every rank has entered completes, unless a rank is halted (R220, R367). Ranks resumed after a
watchdog ended a peer's part complete with 0x06. -/
def execCollComplete (n : Nat) (s : State) : Host.Outcome State Fault Refusal :=
  match s.colls[n]? with
  | none => .next s
  | some k =>
    if !s.collReady k || !(s.collHalts k).isEmpty then .next s
    else
      let code := if k.ended then 6 else s.collCode k
      .next (k.parts.foldl (fun s p => s.endPart k p.1 p.2 code) { s with colls := s.colls.eraseIdx n })

/-! ### Halted ranks (R367) -/

/-- A participant's watchdog has expired: collwd ticks incomplete while a rank was halted. -/
def State.collExpired (s : State) (k : Coll) (m : Command) : Bool :=
  let wd := ((s.ctx k.ctx).reg 0x1D).toNat % 2 ^ 32
  wd != 0 && decide (m.phase = .started) && (s.collHalts k).any (fun h => decide (max h.2.toNat m.since.toNat + wd ≤ s.tick.toNat))

/-- `collWatchdog`: the parts of a collective whose watchdogs have expired complete with 0x06, each with one event that names the package of a
halted rank, and the packages of the other ranks are told (R367). -/
def execCollWatchdog (n : Nat) (s : State) : Host.Outcome State Fault Refusal :=
  match s.colls[n]? with
  | none => .next s
  | some k =>
    let out := k.parts.filter (fun p => s.collExpired k p.2)
    if out.isEmpty then .next s
    else
      let peer := ((s.collHalts k).head?.map (·.1)).getD s.pkg.toNat
      let left := k.parts.filter (fun p => !s.collExpired k p.2)
      let s := s.tellPeers k.ctx .expired
      let s := if left.isEmpty then { s with colls := s.colls.eraseIdx n } else s.setColl n { k with parts := left, ended := true }
      .next (out.foldl (fun s p => (s.completeCommand p.2 6).event k.ctx 3 6 peer 0) s)

/-- A request in flight to a peer package. -/
def State.toPackage (s : State) (pkg : Nat) (m : Msg) : Bool :=
  isWindowPa m.pa && s.windowKind m.pa == 1 && bitsOf (s.windowTarget m.pa).2 29 21 == pkg

/-- `haltStatus`: a peer package reports on a context's part there (R367): that it is halted; that it is resumed, after which link watchdogs for
requests to it go on where they stopped; or that a rank's watchdog has expired, so that ranks resumed here complete with 0x06 too. -/
def execHaltStatus (rep : PeerReport) (s : State) : Host.Outcome State Fault Refusal :=
  let ctx := rep.ctx
  let pkg := rep.pkg
  let others := (s.ctx ctx).peersHalted.filter (·.1 ≠ pkg)
  match rep.status with
  | .halted => if others.length = (s.ctx ctx).peersHalted.length then
      .next (s.modCtx ctx fun y => { y with peersHalted := (pkg, s.tick) :: y.peersHalted }) else .next s
  | .resumed =>
    match (s.ctx ctx).peersHalted.find? (·.1 = pkg) with
    | none => .next s
    | some h =>
      let later := fun (m : Msg) => if m.ctx = ctx && m.reply.isNone && s.toPackage pkg m then
        { m with since := s.tick - (h.2 - (if m.since.toNat < h.2.toNat then m.since else h.2)) } else m
      .next { (s.modCtx ctx fun y => { y with peersHalted := others }) with net := s.net.map later }
  | .expired => .next { s with colls := s.colls.map (fun (k : Coll) =>
      if k.ctx = ctx && (SMap.get [] k.group (s.ctx ctx).groups).any (·.1 = pkg) then { k with ended := true } else k) }

end Sys2Proof.Machine
end

