-- ==== Sys2Proof/Machine/Sched.lean ====
section
/-! DEFINITION. Forward progress (R15-R24, R67, R159-R173, R288-R293, R324, R325, R331, R332): forming warps, aging, placing and completing
launches, the runaway limit, switching logical cores, and what a control thread takes next. -/

namespace Sys2Proof.Machine

/-! ### Forming warps (R19-R22, R67, R167, R168) -/

/-- A logical core's stage prologue of a launch has issued its first instruction, or there is none (R164). -/
def State.prologueBegun (s : State) (c : Nat) (g : Workgroup) : Bool :=
  let t := (s.core c).ct
  let lc := (s.core c).lcore.getD 0
  match s.launch g.ctx g.launch with
  | none => true
  | some l =>
    match l.prologues.find? (fun p => p.1 = lc && p.2.1 = g.stage) with
    | none => true
    | some p =>
      p.2.2 || l.begun.contains (lc, g.stage) ||
      t.allRuns.any (fun r => r.run == .prologue g.launch g.stage && r.begun)

/-- A stage's prologue on a logical core has begun, once and for all. -/
def State.noteBegun (s : State) (x n : Nat) (p : Nat × Nat) : State :=
  s.modCtx x fun y => { y with launches := y.launches.map (fun (l : Launch) =>
    if l.index = n && !l.begun.contains p then { l with begun := p :: l.begun } else l) }

/-- The lanes a warp formed from an entry takes: at each home lane the thread of the lowest home warp (R19). -/
def takeLanes (mask : BitVec 256) : SMap (Option Nat) :=
  (List.range 32).filterMap (fun i => ((List.range 8).find? (fun h => mask.getLsbD (32 * h + i))).map (fun h => (i, some (32 * h + i))))

/-- The warp that forms from an entry: its lanes, or none where it is keyed at a lane exchange that no home warp may issue (R19, R67).
DESIGN CHOICE (assumption 53): of the home warps that have all their participants here and those whose participants are held at several
keys, the lowest-numbered forms. -/
def State.formable (s : State) (c : Nat) (g : Workgroup) (f : FEntry) : Option (SMap (Option Nat)) :=
  if f.spilled || f.mask = 0 then none
  else if s.atExchange c g.ctx f.pc then
    ((List.range 8).find? (fun h =>
      let there := (span (32 * h) 32).filter (fun t => f.mask.getLsbD t)
      !there.isEmpty && s.assembled c g.ctx g h f there)).map (fun h =>
        ((List.range 32).filter (fun i => f.mask.getLsbD (32 * h + i))).map (fun i => (i, some (32 * h + i))))
  else some (takeLanes f.mask)

/-- A stage's weight (R168). -/
def State.weight (s : State) (c : Nat) (g : Workgroup) : Nat :=
  match s.stageOf g with
  | none => 8
  | some st =>
    if st.link = 1 then
      let b := (s.core c).cbuf st.lidx
      if b.count ≠ 0 && ceilDiv (3 * b.count) 4 ≤ b.filled then 4 else 8
    else if st.link = 2 then
      match s.bagAt g.ctx (s.slotHeader g.ctx g.launch st.lidx) with
      | some b => if ceilDiv (3 * b.shareCount * b.cap) 4 ≤ b.total then 4 else 8
      | none => 8
    else 8

/-- A serialised launch's workgroup has a warp formed already (R293: one issue context). -/
def State.serialBusy (s : State) (c ws : Nat) (g : Workgroup) : Bool :=
  ((s.launch g.ctx g.launch).map (·.serial)).getD false && (List.range 8).any (fun k => match (s.core c).warp k with
    | some w => w.ws == ws
    | none => false)

/-- A place a warp may form from: workgroup slot, workgroup, place of the entry, entry and lanes. -/
structure Candidate where
  ws    : Nat
  g     : Workgroup
  n     : Nat
  f     : FEntry
  lanes : SMap (Option Nat)
  deriving DecidableEq, Repr, Inhabited

/-- The places of a core a warp may form from: in slot order, and in each workgroup in the order of R18. -/
def State.candidates (s : State) (c : Nat) : List Candidate :=
  (s.core c).wgs.flatMap (fun kv => match kv.2 with
    | none => []
    | some g =>
      if g.state ≠ .resident || !s.prologueBegun c g || s.serialBusy c kv.1 g then []
      else g.frontier.zipIdx.filterMap (fun p => (s.formable c g p.1).map (fun l => { ws := kv.1, g := g, n := p.2, f := p.1, lanes := l })))

/-- The first candidate that none other goes before. -/
def bestOf (before : Candidate → Candidate → Bool) : List Candidate → Option Candidate
  | [] => none
  | a :: l => match bestOf before l with
    | none => some a
    | some b => some (if before b a then b else a)

/-- The order of workgroups: launch priority, stage weight, longest wait (R167). -/
def State.formsBefore (s : State) (c : Nat) (a b : Candidate) : Bool :=
  let w := fun (x : Candidate) => s.weight c x.g
  decide (b.g.prio < a.g.prio) || (a.g.prio == b.g.prio && (decide (w b < w a) || (w a == w b && decide (a.g.formed.toNat < b.g.formed.toNat))))

/-- An entry's age count (R21). -/
def State.age (s : State) (g : Workgroup) (f : FEntry) : Nat := (s.ageClock g - f.since).toNat

/-- An entry is aged; one keyed at a lane exchange never is (R5, R21, R67). -/
def State.isAged (s : State) (c : Nat) (g : Workgroup) (f : FEntry) : Bool := decide (4096 ≤ s.age g f) && !s.atExchange c g.ctx f.pc

/-- Where the core's next warp forms: the oldest aged entry, else the highest-ordered entry of the workgroup chosen (R21, R167). DESIGN CHOICE
(assumption 65): of aged entries of one age, that of the lowest workgroup slot. -/
def State.chooseForm (s : State) (c : Nat) : Option Candidate :=
  let all := s.candidates c
  match bestOf (fun a b => decide (s.age b.g b.f < s.age a.g a.f)) (all.filter (fun a => s.isAged c a.g a.f)) with
  | some a => some a
  | none => bestOf (s.formsBefore c) all

/-- An aged spilled entry returns on chip, and the lowest-ordered other entry there is spilled for it (R21). -/
def returnAged (clock : DWord) (n : Nat) (l : List FEntry) : List FEntry :=
  let l := l.zipIdx.map (fun p => if p.2 = n then ({ p.1 with spilled := false, aged := true }, true) else (p.1, false))
  if (l.filter (fun p => !p.1.spilled)).length ≤ 32 then l.map (·.1)
  else
    let last := (l.zipIdx.filter (fun p => !p.1.1.spilled && !p.1.2)).getLast?
    l.zipIdx.map (fun p => if last.map (·.2) = some p.2 then { p.1.1 with spilled := true, since := clock, aged := false } else p.1.1)

/-- Every aged spilled entry of a core is back on chip (R21: at once). -/
def State.ripen (s : State) (c : Nat) : State :=
  (s.core c).wgs.foldl (fun s kv => match kv.2 with
    | none => s
    | some g =>
      let due := (g.frontier.zipIdx.filter (fun p => p.1.spilled && g.state == .resident && s.isAged c g p.1)).map (·.2)
      if due = [] then s
      else s.modWg c kv.1 fun g => { g with frontier := due.foldl (fun l n => returnAged (s.ageClock g) n l) g.frontier }) s

/-- `formWarp`: a free issue context takes a formed warp (R22). -/
def execFormWarp (core : Nat) (s : State) : Host.Outcome State Fault Refusal :=
  match (List.range 8).find? (fun k => ((s.core core).warp k).isNone) with
  | none => .next s
  | some k =>
    if !s.mayIssue core then .next s
    else
      let s := s.ripen core
      match s.chooseForm core with
      | none => .next s
      | some a =>
        let out : BitVec 256 := maskOf (a.lanes.filterMap (·.2))
        let g := { a.g with forms := a.g.forms + 1, formed := s.tick }
        let f : FEntry := { a.f with mask := a.f.mask &&& ~~~out, since := s.ageClock g, aged := false }
        let l := if f.mask = 0 then g.frontier.eraseIdx a.n else g.frontier.set a.n f
        let g := { g with frontier := settle (s.ageClock g) l }
        let s := s.noteBegun g.ctx g.launch ((s.core core).lcore.getD 0, g.stage)
        .next (s.modCore core fun y =>
          (y.setWg a.ws (some g)).setWarp k (some { ws := a.ws, lanes := a.lanes, run := 0, latches := [], last := s.tick }))

/-- `entryAged`: an entry's age count reaches 4,096 (R21). -/
def execEntryAged (core ws n : Nat) (s : State) : Host.Outcome State Fault Refusal :=
  match (s.core core).wg ws with
  | none => .next s
  | some g =>
    match g.frontier[n]? with
    | none => .next s
    | some f =>
      if f.aged || g.state ≠ .resident || !s.isAged core g f then .next s
      else .next (s.modWg core ws fun g => { g with frontier := returnAged (s.ageClock g) n g.frontier })

/-! ### Placing a launch (R17, R164, R293) -/

/-- Where a logical core's workgroups stand: on a core that it is current on, else in the state it was saved with. -/
def State.wgsOf (s : State) (x l : Nat) : SMap (Option Workgroup) :=
  let p := s.placedAt x l
  if (s.core p).owner = some x && (s.core p).lcore = some l then (s.core p).wgs
  else match s.cores.find? (fun kv => kv.2.owner = some x && kv.2.lcore = some l) with
    | some kv => kv.2.wgs
    | none => ((s.holder x l).map (·.2.wgs)).getD []

/-- A workgroup slot and home-warp slots of a logical core are free. -/
def slotsFree (wgs : SMap (Option Workgroup)) (w hw ws : Nat) : Bool :=
  wgs.all (fun kv => match kv.2 with
    | some g => kv.1 != ws && decide (g.hw + g.warps ≤ hw ∨ hw + w ≤ g.hw)
    | none => true)

/-- The stage that holds a workgroup index. -/
def Launch.stageAt (l : Launch) (i : Nat) : Nat := (l.stages.findIdx? (fun st => st.first ≤ i && decide (i < st.first + st.n))).getD 0

/-- A workgroup in the state of R17, its frontier aside. -/
def Launch.workgroup (l : Launch) (x i : Nat) (p : Nat × Nat × Nat) (tick : DWord) : Workgroup :=
  let st := l.stageAt i
  let entry := ((l.stages[st]?).map (·.entry)).getD 0
  { ctx := x, launch := l.index, stage := st, index := i, warps := l.warps, hw := p.2.1, nregs := l.nregs, prio := l.prio, formed := tick, runaway := tick,
    threads := (List.range (32 * l.warps)).map (fun t =>
      (t, { live := true, pc := entry, sp := l.stack + BitVec.ofNat 64 ((i * 32 * l.warps + t + 1) * l.stackb) })) }

/-- A logical core's state is changed: on the core that it is current on, else as it is saved, on its core or the one of its remap entry. -/
def State.modLogical (s : State) (x l : Nat) (now : Core → Core) (later : SavedCore → SavedCore) : State :=
  match s.cores.find? (fun kv => kv.2.owner = some x && kv.2.lcore = some l) with
  | some kv => s.modCore kv.1 now
  | none =>
    let h := (s.holder x l).getD (s.placedAt x l, {})
    s.modCore h.1 fun y => { y with saved := SMap.set none l (some (later h.2)) y.saved }

/-- The event of a workgroup's stage prologue, where it is the first of its stage placed on its logical core. -/
def Launch.prologueFor (l : Launch) (i : Nat) : List CtEvent :=
  let st := l.stageAt i
  let lc := ((l.place[i]?).map (·.1)).getD 0
  let first := ((l.stages[st]?).map (·.first)).getD 0
  if !l.prologues.any (fun p => p.1 = lc && p.2.1 = st) then []
  else if ((l.place.drop first).take (i - first)).any (fun p => p.1 = lc) then [] else [.prologue l.index st]

/-- Events queued for a control thread. -/
def Ct.queue (t : Ct) (ev : List CtEvent) : Ct := { t with pending := t.pending ++ ev }

/-- A workgroup is placed on its logical core: at once where that is current, after an acquire at package scope, else to start once it is,
after the acquire of a restore (R164, R166, R213). An eviction that is pending on the core is pending for it too (R173). -/
def State.placeOne (s : State) (x : Nat) (l : Launch) (i : Nat) (p : Nat × Nat × Nat) : State :=
  let g := l.workgroup x i p s.tick
  let ev := l.prologueFor i
  let here := s.cores.find? (fun kv => kv.2.owner = some x && kv.2.lcore = some p.1)
  let s := s.modLogical x p.1
    (fun y => { ((y.putWgRegs g []).setWg p.2.2 (some (s.rebuildFrontier { g with started := true, evict := y.switch } []))) with ct := y.ct.queue ev })
    (fun v => { v with wgs := SMap.set none p.2.2 (some { g with state := .evictedRunnable }) v.wgs, ct := v.ct.queue ev })
  here.elim s fun kv => (s.markRecord kv.1 p.2.2 g).acquire kv.1 x 4

/-- A logical core of a context stands on a core that the context owns. -/
def State.hasPlace (s : State) (x l : Nat) : Bool :=
  s.cores.any (fun kv => kv.2.owner = some x && (kv.2.lcore = some l || (SMap.get none l kv.2.saved).isSome)) || s.remapOwned x l

/-- `placeLaunch`: the oldest launch not yet placed is placed whole, once every slot its map names is free; of a serialised launch the next
workgroup, once the one before has finished (R164, R293). -/
def execPlaceLaunch (ctx : Nat) (s : State) : Host.Outcome State Fault Refusal :=
  match (s.ctx ctx).launches.find? (fun l => l.state == .accepted) with
  | none => .next s
  | some l =>
    if !(s.ctx ctx).alive || (s.ctx ctx).removal ≠ 0 then .next s
    else
      let all := l.place.zipIdx
      let now := if l.serial then (all.drop l.placedN).take 1 else all
      let free := now.all (fun p => s.hasPlace ctx p.1.1 && slotsFree (s.wgsOf ctx p.1.1) l.warps p.1.2.1 p.1.2.2)
      if !free || (l.serial && l.finished ≠ l.placedN) then .next s
      else
        let s := now.foldl (fun s p => s.placeOne ctx l p.2 p.1) s
        let n := l.placedN + now.length
        .next (s.modLaunch ctx l.index fun l => { l with placedN := n, state := if n = l.count then .placed else .accepted })

/-! ### Remap entries (R166, R287) -/

/-- `remapWrite`: system software names another physical core for a logical core (R166, R287). -/
def execRemapWrite (ctx lcore pcore : Nat) (s : State) : Host.Outcome State Fault Refusal :=
  if (s.ctx ctx).grid ≤ lcore || 512 ≤ pcore || !(s.ctx ctx).alive then .next s
  else .next ((s.modCtx ctx fun y => { y with remapQ := y.remapQ ++ [(lcore, pcore)] }).settleRemap ctx)

/-! ### Completing a launch (R170, R288, R291) -/

/-- Engine commands of a launch that its cores still queue or its engines hold. -/
def State.launchCommands (s : State) (x n : Nat) : Bool :=
  let mine := fun (m : Command) => m.ctx = x && m.launch = n
  s.cores.any (fun kv => kv.2.queues.any (fun q => (queueCommands q.2).any mine) || (s.engineCommands kv.1).any mine ||
    kv.2.saved.any (fun v => match v.2 with
      | some v => v.held.any mine || v.queues.any (fun q => (queueCommands q.2).any mine)
      | none => false))

/-- Every part of a launch is done (R170). -/
def State.launchDone (s : State) (x : Nat) (l : Launch) : Bool :=
  l.state == .placed && l.finished == l.count && l.prologues.all (·.2.2) && !s.launchCommands x l.index

/-- The stores of a context reach their homes from every die; false where a home takes none. -/
def State.releaseAll (s : State) (x : Nat) : State × Bool :=
  (s.dies.map (·.1)).foldl (fun acc d => let r := acc.1.releaseNow x d; (r.1, acc.2 && r.2)) (s, true)

/-- The digest of a launch from its workgroups' (R291). -/
def Launch.digest (l : Launch) : DWord := (List.range l.count).foldl (fun d w => rotl d 7 ^^^ SMap.get 0 w l.digests) 0

/-- The digests a deterministic launch writes at its completion, by mode (R288). -/
def State.writeDigests (s : State) (x : Nat) (l : Launch) : State :=
  let at_ := fun (o : Nat) => l.recBase + BitVec.ofNat 64 o
  let k := if l.detMode = 1 then 0 else l.count
  let s := s.devStores x (at_ (if l.detMode = 1 then 0x10 else 0x18)) [l.digest.lo, l.digest.hi]
  (List.range l.count).foldl (fun s w =>
    let d : DWord := SMap.get 0 w l.digests
    s.devStores x (at_ (0x40 + 8 * (k + w))) [d.lo, d.hi]) s

/-- A replay agrees with its recording: equal launch digests, with no unmatched read and no overflow (R291). -/
def State.replayAgrees (s : State) (x : Nat) (l : Launch) : Bool :=
  let w := fun (o : Nat) => s.areaWord x (l.recBase + BitVec.ofNat 64 o)
  dword (w 0x10) (w 0x14) == l.digest && w 4 &&& 3 == 0

/-- A DIGEST is queued as a trap of the core that issued a launch (R291, R324). -/
def State.digestTrap (s : State) (x : Nat) (l : Launch) : State :=
  let ev : List CtEvent := [.digest l.done l.recBase]
  s.modLogical x l.issuer (fun y => { y with ct := y.ct.queue ev }) (fun v => { v with ct := v.ct.queue ev })

/-- The digest that `dgrd.launch` reads on the control thread that issued a launch (R294). -/
def State.noteDigest (s : State) (x : Nat) (l : Launch) : State :=
  s.modLogical x l.issuer (fun y => { y with ct := { y.ct with ldigest := l.digest } }) (fun v => { v with ct := { v.ct with ldigest := l.digest } })

/-- `launchComplete`: the n-th launch of a context completes, and its completion word is written once (R170, R291). DESIGN CHOICE (assumption 61): while
the word's home takes no request (R353), the launch waits for it to be re-admitted. -/
def execLaunchComplete (ctx n : Nat) (s : State) : Host.Outcome State Fault Refusal :=
  match (s.ctx ctx).launches[n]? with
  | none => .next s
  | some l =>
    if !s.launchDone ctx l || (s.ctx ctx).removal ≠ 0 || s.vaDown ctx l.done then .next s
    else
      let (s, ok) := s.releaseAll ctx
      if !ok then .next s
      else
        let s := if l.detMode = 0 then s else (s.writeDigests ctx l).noteDigest ctx l
        let s := s.modCtx ctx fun y => { y with launches := y.launches.filter (·.index ≠ l.index) }
        let s := if l.detMode = 2 && !s.replayAgrees ctx l then s.digestTrap ctx l else s.devStore ctx l.done 1
        .next (s.settleRemap ctx)

/-! ### The runaway limit (R172) -/

/-- `runaway`: a workgroup whose live threads have all reached a blocking point since its counter's last reset starts to count again; one
whose counter reaches the quantum traps RUNAWAY, which is fatal. -/
def execRunaway (core ws : Nat) (s : State) : Host.Outcome State Fault Refusal :=
  match (s.core core).wg ws with
  | none => .next s
  | some g =>
    if g.state ≠ .resident || !s.mayIssue core then .next s
    else if g.rest || g.threads.all (fun t => !t.2.live || t.2.park != .none || t.2.reached || s.isHeld core g t.1) then
      .next (s.modWg core ws fun g => { g with runaway := s.tick, threads := g.threads.map (fun t => (t.1, { t.2 with reached := false })) })
    else if (s.tick - g.runaway).toNat < ((s.ctx g.ctx).reg 0x16).toNat then .next s
    else .next (s.beginRemoval g.ctx trapRUNAWAY)

/-! ### Switching logical cores (R166, R331, R332) -/

/-- A control thread that would run if its logical core were current. -/
def Ct.isReady (t : Ct) : Bool := !t.pending.isEmpty || (t.cur.run != .idle && t.cur.park == .none)

/-- A logical core that is switched out has a runnable workgroup (R166, R331). -/
def SavedCore.runnable (v : SavedCore) : Bool :=
  v.wgs.any (fun kv => match kv.2 with
    | some g => g.state == .evictedRunnable
    | none => false)

/-- The logical cores that may become current on a core, in increasing id, with their saved state: those with a runnable workgroup (R166) and
those that the host has asked to start (R325); where none is current, also those whose control thread would run (assumption 37). -/
def State.waitingCores (s : State) (c : Nat) : List (Nat × SavedCore) :=
  let x := s.coreCtx c
  (s.cores.flatMap (fun kv => if kv.2.owner = some x then kv.2.saved.filterMap (fun v => v.2.map (fun w => (v.1, w))) else [])).filter
    (fun p => s.placedAt x p.1 = c && (p.2.runnable || p.2.ct.pending.any (· == .start) || ((s.core c).lcore.isNone && p.2.ct.isReady)))

/-- The least number of a list, none of an empty one. -/
def least : List Nat → Option Nat
  | [] => none
  | a :: l => some ((least l).elim a (min a))

/-- A die that is to be reset, or is offline, takes no logical core (R351, R352). -/
def State.noArrival (s : State) (c : Nat) : Bool := (s.die (dieOf c)).offline || (s.die (dieOf c)).reset != 0

/-- The logical core a core switches to: one the host has asked to start, else the next in increasing id, wrapping (R166, R325). -/
def State.nextCore (s : State) (c : Nat) : Option Nat :=
  if s.noArrival c then none else
  let w := s.waitingCores c
  let ids := w.map (·.1)
  let cur := (s.core c).lcore
  (least ((w.filter (fun p => p.2.ct.pending.any (· == .start))).map (·.1))).or
    ((least (ids.filter (fun l => match cur with
      | some k => k < l
      | none => true))).or (least ids))

/-- `switchRequest`: the current logical core has had its slice and another may run (R331). -/
def execSwitchRequest (core : Nat) (s : State) : Host.Outcome State Fault Refusal :=
  let y := s.core core
  let slice := max ((s.ctx (s.coreCtx core)).reg 0x1A).toNat (2 * y.swtime.toNat)
  if y.switch || y.lcore.isNone || !s.mayIssue core || (s.nextCore core).isNone || decide ((s.tick - y.since).toNat < slice) then .next s
  else .next (s.requestSwitch core)

/-- `evictWorkgroup`: a workgroup of a pending eviction is saved (R332). -/
def execEvictWorkgroup (core ws : Nat) (s : State) : Host.Outcome State Fault Refusal := .next (s.evictWg core ws)

/-- A pending switch is withdrawn: evicted workgroups come back, and threads held at `yield` go on (R166, R171). -/
def State.withdrawSwitch (s : State) (c : Nat) : State :=
  let s := s.modCore c fun y => { y with switch := false, swBegan := none, wgs := y.wgs.map (fun kv => (kv.1, kv.2.map (fun g => { g with evict := false }))) }
  let gone := (s.core c).wgs.filter (fun kv => match kv.2 with
    | some g => g.state == .evictedRunnable || g.state == .evictedWaiting
    | none => false)
  let s := ((gone.map (·.1)).foldl (fun s ws => s.restoreWg c ws) s).resendRetired
  s.wakeWhere c (fun p => p == .yield) false

/-- `logicalCoreSwitch`: a switch-out completes and the next logical core is restored; for `cxsave`, and on a die to be reset, the switch-out alone. A core with no
current logical core and an idle control thread takes one that may run (R166, R332, R336). -/
def execLogicalCoreSwitch (core : Nat) (s : State) : Host.Outcome State Fault Refusal :=
  let y := s.core core
  let x := s.coreCtx core
  if !s.mayIssue core then .next s
  else if y.switch then
    let keep := y.ct.cur.park == .switch
    match s.nextCore core with
    | none =>
      if keep || s.noArrival core then (if s.mayLeave core then .next ((s.moveOut core keep).settleRemap x) else .next s)
      else .next (s.withdrawSwitch core)
    | some l =>
      if !s.mayLeave core then .next s
      else
        let s := (s.moveOut core keep).settleRemap x
        if keep || (s.ctx x).removal ≠ 0 then .next s else .next (s.moveIn core l)
  else if y.lcore.isNone && y.ct.cur.run == .idle then
    match (s.settleRemap x).nextCore core with
    | none => .next s
    | some l => .next ((s.settleRemap x).moveIn core l)
  else .next s

/-! ### What a control thread takes next (R207, R323-R325) -/

/-- A control thread may take an event now: a trap or a start event unless its supervisor routine runs, a prologue only where what runs
is idle or parked (R164, R324). DESIGN CHOICE (assumption 60): a prologue interrupts another prologue only where that is parked, as R164 says of
the resident routine. -/
def Ct.mayTake (t : Ct) : CtEvent → Bool
  | .prologue _ _ => t.cur.run == .idle && t.saved.isEmpty ||
      (t.cur.park != .none && t.cur.park != .switch && (match t.cur.run with
        | .prologue _ _ => true
        | .resident => true
        | _ => false))
  | _ => t.cur.run != .supervisor

/-- The registers a control thread starts an event with (R207, R324, R325). -/
def State.startRegs (s : State) (c : Nat) (ev : CtEvent) : CtRegs :=
  let x := s.coreCtx c
  let l := (s.core c).lcore.getD 0
  let base := s.saveArea x l
  let n := (s.core c).ct.runs + 1
  let four := fun (a b d : Nat) => ([a, b, d, l].zipIdx.foldl (fun (m : SMap DWord) p => SMap.set 0 (p.2 + 1) (BitVec.ofNat 64 p.1) m) [])
  match ev with
  | .trap source code =>
    { run := .supervisor, serial := n, super := true, pc := (s.ctx x).reg 0x19,
      s := four source code.toNat (if source ≤ 5 then base + saveWg source + saveFrame else base + saveCtFrame) }
  | .digest _ _ => { run := .supervisor, serial := n, super := true, pc := (s.ctx x).reg 0x19, s := four 7 trapDIGEST (base + saveCtFrame) }
  | .start => { run := .resident, serial := n, super := true, pc := (s.ctx x).reg 0x1F, s := four 8 0 0 }
  | .prologue k stage =>
    { run := .prologue k stage, serial := n, pc := (((s.launch x k).bind (·.stages[stage]?)).map (·.prologue)).getD 0 }

/-- The first place of a list a test picks, and the list without it. -/
def pickOut {α : Type} (p : α → Bool) : List α → Option (α × List α)
  | [] => none
  | a :: l => if p a then some (a, l) else (pickOut p l).map (fun r => (r.1, a :: r.2))

/-- The wait that a blocked control thread abandons (R324). -/
def State.abandonWait (s : State) (c : Nat) : State :=
  match (s.core c).ct.cur.park with
  | .waitu n => s.cancelWait n
  | _ => s

/-- What taking an event writes: a prologue's trap its trap frame, which a DIGEST may have overwritten since, and a DIGEST its own, with the completion word's address and the buffer's base (R291, R324); none where
the save area breaks R326. -/
def State.eventFrame (s : State) (c : Nat) (ev : CtEvent) : Option State :=
  match ev with
  | .digest done buffer =>
    let x := s.coreCtx c
    let base := s.saveArea x ((s.core c).lcore.getD 0)
    if !s.saveAreaOk x base then none
    else some (s.pokeWords (base + saveCtFrame) [BitVec.ofNat 32 trapDIGEST, 0, 0, 0, done.lo, done.hi, buffer.lo, buffer.hi])
  | .trap 6 _ =>
    let x := s.coreCtx c
    let base := s.saveArea x ((s.core c).lcore.getD 0)
    if !s.saveAreaOk x base then none
    else some (s.pokeWords (base + saveCtFrame) (((s.core c).ct.trapped.head?.map (·.frame)).getD []))
  | _ => some s

/-- `ctTakeEvent`: the control thread takes the oldest event it may (R324). What it interrupts is saved, and a block is abandoned. -/
def execCtTakeEvent (core : Nat) (s : State) : Host.Outcome State Fault Refusal :=
  let t := (s.core core).ct
  if !s.mayIssue core || (s.core core).lcore.isNone then .next s
  else match pickOut t.mayTake t.pending with
    | none => .next s
    | some (ev, rest) =>
      let r := s.startRegs core ev
      match (s.abandonWait core).eventFrame core ev with
      | none => .next (s.beginRemoval (s.coreCtx core) trapENGINEFATAL)
      | some s => .next (s.modCore core fun y => { y with ct := { y.ct with
          cur := r, saved := if t.cur.run == .idle then t.saved else { t.cur with park := .none } :: t.saved, pending := rest, runs := t.runs + 1 } })

/-- A resident routine runs, is interrupted, or is about to start. -/
def Ct.hasResident (t : Ct) : Bool := (t.cur :: t.saved).any (fun r => r.run == .resident) || t.pending.any (· == .start)

/-- `startRequest`: the host starts the resident routine of a logical core, which becomes current on its core (R325). Refused where the
context is removed or the routine runs. -/
def execStartRequest (ctx lcore : Nat) (s : State) : Host.Outcome State Fault Refusal :=
  let c := s.placedAt ctx lcore
  let cur := s.cores.find? (fun kv => kv.2.owner = some ctx && kv.2.lcore = some lcore)
  let t : Ct := match cur with
    | some kv => kv.2.ct
    | none => ((s.holder ctx lcore).map (·.2.ct)).getD {}
  if !(s.ctx ctx).alive || (s.ctx ctx).removal ≠ 0 || (s.ctx ctx).grid ≤ lcore || !s.hasPlace ctx lcore || t.hasResident then .next s
  else
    let s := s.modLogical ctx lcore (fun y => { y with ct := y.ct.queue [.start] }) (fun v => { v with ct := v.ct.queue [.start] })
    if cur.isSome || (s.core c).lcore.isNone then .next s else .next (s.requestSwitch c)

end Sys2Proof.Machine
end

