-- ==== Sys2Proof/Machine/Recovery.lean ====
section
/-! DEFINITION. Recovery (R317, R341, R345-R356): injected and corrected errors, retirement and quarantine, the removal of a context, the warm
reset of a die, and the package-fatal stop. -/

namespace Sys2Proof.Machine

/-! ### Frames and ways out of service (R317, R347) -/

/-- A dirty word that is gone is waited for no longer by any release. -/
def State.forgetWord (s : State) (d word : Nat) : State := if (s.die d).dirtyAt (4 * word) then s.wordReleased d word else s

/-- A physical line leaves every L2, and the L1s below (R77, R317). -/
def State.dropL2Line (s : State) (line : Nat) : State :=
  let s := (s.dies.map (·.1)).foldl (fun s d =>
    if SMap.get {} line (s.die d).l2 = {} then s
    else ((List.range 32).foldl (fun s i => s.forgetWord d (line * 32 + i)) s).modDie d fun x => x.setLine line {}) s
  (s.cores.map (·.1)).foldl (fun s c =>
    if (s.core c).l1.any (·.pline = line) then s.modCore c fun y => { y with l1 := y.l1.filter (·.pline ≠ line) } else s) s

/-- The purge of a frame (R317): every cached word of it is discarded, and it holds zeros. Window frames hold no data. -/
def State.purgeFrame (s : State) (g : Nat) : State :=
  match frameBase g with
  | none => s
  | some a =>
    if isWindowPa a then s
    else
      let lines := span (a / 128) 512
      let s := lines.foldl State.dropL2Line s
      { s with llc := s.llc.filter (fun kv => !decide (a / 128 ≤ kv.1 ∧ kv.1 < a / 128 + 512)), mem := s.mem.dropRange a 65536,
               past := s.past.filter (fun p => decide (p.pa < a ∨ a + 65536 ≤ p.pa)),
               dramBad := s.dramBad.filter (fun x => decide (x < a ∨ a + 65536 ≤ x)),
               dramFlip := s.dramFlip.filter (fun kv => decide (kv.1 < a ∨ a + 65536 ≤ kv.1)) }

/-- Words of a table are written at their home (R312). -/
def State.tableWords4 (s : State) (a : Nat) (ws : List Word) : State :=
  let s := s.flushRange a (4 * ws.length)
  ws.zipIdx.foldl (fun s p => s.memWrite (a + 4 * p.2) p.1) s

/-- A frame is retired: its entry says so, it is purged, and it is listed, or, where the list is full, reported (R347). -/
def State.retireFrame (s : State) (g : Nat) : State :=
  let a := s.entryAddr g
  let s := (s.purgeFrame g).tableWords4 (a + 12) [(s.mem.word (a + 12) &&& ~~~0x900) ||| 0x400]
  if s.retired.contains g then s
  else if s.retired.length < 4096 then { s.log 8 g 0 with retired := s.retired ++ [g] }
  else { s.log 4 g 0 with out := s.out ++ [.report 1 g] }

/-- The corrected errors of a way within the last 2^30 ticks (R347). -/
def State.recentErrors (s : State) (k : Nat) : List DWord := (SMap.get [] k s.corrected).filter (fun t => decide ((s.tick - t).toNat < 2 ^ 30))

/-- `wayQuarantine`: a way's corrected errors have reached 64 within 2^30 ticks (R347). -/
def execWayQuarantine (stack slice way : Nat) (s : State) : Host.Outcome State Fault Refusal :=
  if (s.recentErrors (wayKey stack slice way)).length < 64 then .next s else .next (s.quarantine stack slice way)

/-! ### Injected errors (R341, R345) -/

/-- `errorInjectRequest`: the host names a word, a tick and one or two bits; one naming a tick that has passed does nothing (R341). -/
def execErrorInjectRequest (req : Injection) (s : State) : Host.Outcome State Fault Refusal :=
  if popc req.bits = 0 || 2 < popc req.bits || req.tick.toNat ≤ s.tick.toNat then .next s else .next { s with inject := s.inject ++ [req] }

/-- `errorInjectFire`: at its tick an injection inverts bits of the copy that holds the word (R341). -/
def execErrorInjectFire (n : Nat) (s : State) : Host.Outcome State Fault Refusal :=
  match s.inject[n]? with
  | none => .next s
  | some r =>
    if s.tick.toNat < r.tick.toNat then .next s
    else
      let s := { s with inject := s.inject.eraseIdx n }
      let l := s.llcLine r.pa
      let i := widx r.pa
      if l.valid.getLsbD i then
        .next { s with llc := SMap.set {} (lineOf r.pa) { l with flips := SMap.set 0 i (SMap.get 0 i l.flips ^^^ r.bits) l.flips } s.llc }
      else
        let a := wordAddr r.pa
        .next { s with dramFlip := SMap.set 0 a (SMap.get 0 a s.dramFlip ^^^ r.bits) s.dramFlip }

/-- The words of an L2 line that are wrong in two bits: clean ones leave and are fetched again; dirty ones are poisoned, and the owner of the frame is
removed (R345, R346). -/
def State.badL2 (s : State) (d line : Nat) (words : BitVec 32) : State :=
  let l := SMap.get {} line (s.die d).l2
  let bad := words &&& l.valid
  let s := (s.modDie d (·.setLine line ({ l with poison := l.poison ||| (bad &&& l.dirty) }.clear (bad &&& ~~~l.dirty))))
  if bad = 0 then s
  else
    let s := (s.tally (.uncorrectable d)).log 5 (line * 128) ((s.frameOwner (line * 128)).getD 0)
    match (if bad &&& l.dirty = 0 then none else s.frameOwner (line * 128)) with
    | some x => s.chargeLine x line none
    | none => s

/-- `scrub`: a slice reads a line that it holds (R341); and an array's check finds an error that it cannot correct (R345, R346): what an L1 or a TLB
holds is fetched again, a core's state and a queue's entry charge their context. -/
def execScrub (place : EccPlace) (n : Nat) (s : State) : Host.Outcome State Fault Refusal :=
  let charge := fun (s : State) (x : Nat) => if (s.ctx x).alive then s.beginRemoval x causeEngineFatal else s
  match place with
  | .llc stack => if homeStack (n * 128) ≠ stack then .next s else .next ((List.range 32).foldl (fun s i => s.scrubWord n i) s)
  | .l2 die words => .next (s.badL2 die n words)
  | .l1 => .next ((s.tally (.uncorrectable (dieOf n))).modCore n fun y => { y with l1 := [] })
  | .tlb => .next ((s.tally (.uncorrectable (dieOf n))).modCore n fun y => { y with tlb := [] })
  | .core => match (s.core n).owner with
    | some x => .next (charge ((s.tally (.uncorrectable (dieOf n))).log 5 n x) x)
    | none => .next s
  | .entry => .next (charge (s.log 5 0 n) n)

/-! ### Removing a context (R348-R350) -/

/-- `removeContext`: a context's removal begins (R348). -/
def execRemoveContext (ctx cause : Nat) (s : State) : Host.Outcome State Fault Refusal :=
  if (s.ctx ctx).alive then .next (s.beginRemoval ctx cause) else .next s

/-- Step 1: what stands on a context's cores is discarded, and its requests to other packages end (R349). -/
def State.removeIssue (s : State) (x : Nat) : State :=
  let s := (s.cores.map (·.1)).foldl (fun s c => if (s.core c).owner = some x then
      s.modCore c fun y => { y with warps := [], wgs := [], queues := [], loads := [], saved := [], ct := { runs := y.ct.runs }, lcore := none, switch := false,
                                    toLane := [], toCt := [], guards := [], guardWait := [] }
    else s) s
  { s with waits := s.waits.filter (fun (w : Wait) => w.ctx ≠ x),
           net := s.net.filter (fun (m : Msg) => !(m.ctx = x && isWindowPa m.pa && s.windowKind m.pa == 1)) }

/-- Commands of a context end with 0x07. -/
def State.endCommands (s : State) (ms : List Command) : State := ms.foldl (fun s m => s.completeCommand m 7) s

/-- Step 2: its matrix commands. -/
def State.removeMatrix (s : State) (x : Nat) : State :=
  let mine := fun (m : Command) => m.ctx = x
  let gone := s.quads.flatMap (fun kv => kv.2.table.filter mine) ++ s.cores.flatMap (fun kv => kv.2.matQ.filter mine)
  let s := (s.quads.map (·.1)).foldl (fun s q => s.modQuad q fun t => { t with table := t.table.filter (fun m => m.ctx ≠ x) }) s
  let s := (s.cores.map (·.1)).foldl (fun s c => if (s.core c).matQ.any mine then s.modCore c fun y => { y with matQ := y.matQ.filter (fun m => m.ctx ≠ x) } else s) s
  s.endCommands gone

/-- Step 3: its copies. -/
def State.removeCopies (s : State) (x : Nat) : State :=
  let gone := s.cores.flatMap (fun kv => (kv.2.copyQ ++ kv.2.holdQ).filter (fun m => m.ctx = x))
  let s := (s.cores.map (·.1)).foldl (fun s c => if ((s.core c).copyQ ++ (s.core c).holdQ).any (fun m => m.ctx = x) then
    s.modCore c fun y => { y with copyQ := y.copyQ.filter (fun m => m.ctx ≠ x), holdQ := y.holdQ.filter (fun m => m.ctx ≠ x) } else s) s
  s.endCommands gone

/-- The commands of the engines in the stacks that a test picks end with a code, in whatever state they are (R276, R283). -/
def State.endNear (s : State) (stackOk : Nat → Bool) (mine : Command → Bool) (code : Nat) : State :=
  let gone := (s.hbm.filter (fun kv => stackOk kv.1)).flatMap (fun kv => kv.2.ade.filter mine) ++
    (s.seqs.filter (fun kv => stackOk (seqStack kv.1))).flatMap (fun kv => kv.2.queue.filter mine)
  let s := (s.hbm.map (·.1)).foldl (fun s k => if stackOk k then s.modStack k fun t => { t with ade := t.ade.filter (fun m => !mine m) } else s) s
  let s := (s.seqs.map (·.1)).foldl (fun s k => if stackOk (seqStack k) then s.modSeq k fun q =>
    let running := (match q.queue with
      | m :: _ => mine m
      | [] => false)
    { q with queue := q.queue.filter (fun m => !mine m), region := if running then [] else q.region, saved := if running then none else q.saved } else s) s
  gone.foldl (fun s m => s.completeCommand m code) s

/-- Step 5: its collectives, whose ranks on other packages are told (R348). -/
def State.removeColls (s : State) (x : Nat) : State :=
  let gone := (s.colls.filter (fun k => k.ctx = x)).flatMap (fun k => k.parts.map (·.2))
  ({ s.tellPeers x .expired with colls := s.colls.filter (fun (k : Coll) => k.ctx ≠ x) } : State).endCommands gone

/-- A request to a Staithe. -/
def Req.isBag : Req → Bool
  | .put _ _ => true
  | .drain => true
  | .snapshot _ _ => true
  | .next _ _ _ => true
  | .count _ => true
  | .grow _ => true
  | .make _ => true
  | .seal => true
  | .free => true
  | .enter => true
  | .await _ => true
  | .leave => true
  | _ => false

/-- Step 7: its monitor entries. -/
def State.removeMonitor (s : State) (x : Nat) : State :=
  let cut := fun (l : List MonEntry) => l.filter (fun e => e.ctx ≠ x)
  (s.hbm.map (·.1)).foldl (fun s k => s.modStack k fun t =>
    { t.setSpilled (cut t.spilled) with monitor := (t.monitor.map (fun p => (p.1, cut p.2))).filter (fun p => p.2 != []), fallback := cut t.fallback }) s

/-- Step 8: its cached lines are invalidated, and their dirty data is discarded. -/
def State.removeLines (s : State) (x : Nat) : State :=
  let s := (s.cores.map (·.1)).foldl (fun s c => if (s.core c).l1.any (·.ctx = x) then
    s.modCore c fun y => { y with l1 := y.l1.filter (·.ctx ≠ x) } else s) s
  let s := ((s.dies.flatMap (fun kv => (kv.2.l2.map (·.1)).filter (fun l => s.frameOwner (l * 128) == some x))).eraseDups).foldl State.dropL2Line s
  { s with llc := s.llc.filter (fun kv => kv.2.owner ≠ x), net := s.net.filter (fun (m : Msg) => m.ctx ≠ x) }

/-- The frame of a line with an uncorrectable error is retired, and its LLC way is quarantined (R346). -/
def State.retireLine (s : State) (p : Nat × Option Nat) : State :=
  let s := s.retireFrame (gfnOf (p.1 * 128))
  match p.2 with
  | some w => s.quarantine (homeStack (p.1 * 128)) (homeSlice (p.1 * 128)) w
  | none => s

/-- Step 9: its translations end and its generation moves on; then every launch not completed is Removed (R349), and the frames and ways that its
errors were charged for leave service (R346). -/
def State.removeLast (s : State) (x : Nat) : State :=
  let s := (s.cores.map (·.1)).foldl (fun s c => s.modCore c fun y => { y with tlb := y.tlb.filter (·.ctx ≠ x), code := y.code.filter (·.ctx ≠ x) }) s
  let s := (s.dies.map (·.1)).foldl (fun s d => s.modDie d fun y => { y with tlb := y.tlb.filter (·.ctx ≠ x) }) s
  let s := s.modCtx x fun y => { y with gen := y.gen + 1 }
  let s := (s.ctx x).launches.foldl (fun s l => s.devStore x l.done 2) s
  let lost := (s.ctx x).lost
  let s := s.modCtx x fun y => { y with removed := true, alive := false, launches := [], removal := 10, lost := [] }
  lost.foldl State.retireLine s

/-- What a removal step does, by its number (R348). -/
def State.removeStep (s : State) (x k : Nat) : State :=
  match k with
  | 1 => s.removeIssue x
  | 2 => s.removeMatrix x
  | 3 => s.removeCopies x
  | 4 => s.endNear (fun _ => true) (fun m => m.ctx = x) 7
  | 5 => s.removeColls x
  | 6 => { s with net := s.net.filter (fun (m : Msg) => !(m.ctx = x && m.req.isBag)) }
  | 7 => s.removeMonitor x
  | 8 => s.removeLines x
  | _ => s.removeLast x

/-- `removalStep`: the removal of a context makes its next step; what the step ends, it ends at once (R348, R349). The last one waits while the home of
a completion word takes no request (DESIGN CHOICE, assumption 61). -/
def execRemovalStep (ctx : Nat) (s : State) : Host.Outcome State Fault Refusal :=
  let k := (s.ctx ctx).removal
  if k = 0 || 9 < k || (k = 9 && (s.ctx ctx).launches.any (fun l => s.vaDown ctx l.done)) then .next s
  else
    let s := s.removeStep ctx k
    if k = 9 then .next s else .next (s.modCtx ctx fun y => { y with removal := k + 1, began := s.tick })

/-! ### Warm reset of a die (R351-R354) -/

/-- A warm reset of a die starts: the commands on its stack's engines end with 0x06, and every logical core on it is to be switched out. -/
def State.startReset (s : State) (d : Nat) : State :=
  if 16 ≤ d || (s.die d).reset ≠ 0 || (s.die d).offline then s
  else
    let s := (((s.modDie d fun y => { y with reset := 1, began := s.tick }).tally (.warmResets d)).log 9 d 0).flushCounters
    let s := s.endNear (fun k => k = d) (fun m => m.phase != .posted) 6
    ((s.cores.map (·.1)).filter (fun c => dieOf c = d && (s.core c).lcore.isSome)).foldl State.requestSwitch s

/-- `warmReset` (R351). -/
def execWarmReset (die : Nat) (s : State) : Host.Outcome State Fault Refusal := .next (s.startReset die)

/-- The keys of a map whose values a test picks. -/
def keysWhere {α : Type} (p : α → Bool) (m : SMap α) : List Nat := (m.filter (fun kv => p kv.2)).map (·.1)

/-- The dies that hold requests of a context which step k of its removal has yet to end (R348, R349). DESIGN CHOICE (assumption 62): the collective
engine of step 5 sits on an X-die, which no warm reset names, so the C-dies of the cores that posted the collectives are charged. -/
def State.stalledDies (s : State) (x k : Nat) : List Nat :=
  let mine := fun (m : Command) => m.ctx == x
  let cores := fun (p : Core → Bool) => (keysWhere p s.cores).map dieOf
  let atStacks := fun (p : Stack → Bool) => keysWhere p s.hbm
  let ds : List Nat := (match k with
    | 1 => cores (fun y => y.owner == some x && (y.lcore.isSome || !y.warps.isEmpty || !y.queues.isEmpty || !y.loads.isEmpty))
    | 2 => (keysWhere (fun (q : Quad) => q.table.any mine) s.quads).map (· / 8) ++ cores (fun y => y.matQ.any mine)
    | 3 => cores (fun y => (y.copyQ ++ y.holdQ).any mine)
    | 4 => atStacks (fun t => t.ade.any mine) ++ (keysWhere (fun (q : Sequencer) => q.queue.any mine) s.seqs).map seqStack
    | 5 => (s.colls.filter (fun (k : Coll) => k.ctx == x)).flatMap (fun (k : Coll) => k.parts.map (fun p => dieOf p.2.core))
    | 6 => (s.net.filter (fun (m : Msg) => m.ctx == x && m.req.isBag)).map (fun m => homeStack m.pa)
    | 7 => atStacks (fun t => (t.spilled ++ t.fallback ++ t.monitor.flatMap (·.2)).any (fun e => e.ctx == x))
    | 8 => cores (fun y => y.l1.any (·.ctx == x)) ++
        keysWhere (fun (y : Die) => y.l2.any (fun l => s.frameOwner (l.1 * 128) == some x)) s.dies ++
        (keysWhere (fun (l : LlcLine) => l.owner == x) s.llc).map (fun l => homeStack (l * 128))
    | _ => cores (fun y => y.tlb.any (·.ctx == x)) ++ keysWhere (fun (y : Die) => y.tlb.any (·.ctx == x)) s.dies)
  ds.eraseDups

/-- `removalStall`: a removal step has lasted 16,777,216 ticks, and each die that holds what it has yet to end is reset (R7, R349). -/
def execRemovalStall (ctx : Nat) (s : State) : Host.Outcome State Fault Refusal :=
  let x := s.ctx ctx
  if x.removal = 0 || 9 < x.removal || decide ((s.tick - x.began).toNat < 16777216) then .next s
  else .next ((s.stalledDies ctx x.removal).foldl State.startReset s)

/-- The contexts with state saved on a stack: a logical core that is switched out, or a workgroup that is trapped or evicted (R7). -/
def State.savedOn (s : State) (d : Nat) : List Nat :=
  (s.cores.flatMap (fun kv => match kv.2.owner with
    | none => []
    | some x =>
      let on := fun (l : Nat) => homeStack (s.saveArea x l) == d
      let out := kv.2.saved.any (fun v => v.2.isSome && on v.1)
      let wgs := kv.2.wgs.any (fun w => match w.2 with
        | some g => g.state != .resident && on (kv.2.lcore.getD 0)
        | none => false)
      if (out || wgs) && (s.ctx x).removal == 0 then [x] else [])).eraseDups

/-- The cause of a removal whose switch-out failed (R352). -/
def causeSwitchOut : Nat := 0x40

/-- `switchoutTimeout`: a context whose switch-out from a die under reset has not completed within 4,194,304 ticks, or whose save area or
saved state lies on the die's stack, is removed (R7, R352). -/
def execSwitchoutTimeout (die ctx : Nat) (s : State) : Host.Outcome State Fault Refusal :=
  let here := s.cores.filter (fun kv => dieOf kv.1 = die && kv.2.owner = some ctx && kv.2.lcore.isSome)
  let late := decide (4194304 ≤ (s.tick - (s.die die).began).toNat)
  if (s.die die).reset ≠ 1 then .next s
  else if (s.savedOn die).contains ctx then .next (s.beginRemoval ctx causeSwitchOut)
  else if here.isEmpty then .next s
  else if late || here.any (fun kv => homeStack (s.saveArea ctx (kv.2.lcore.getD 0)) = die) then .next (s.beginRemoval ctx causeSwitchOut)
  else .next s

/-- Every dirty word of a die's L2 that a test picks is written back to its home. -/
def State.flushL2 (s : State) (d : Nat) (p : Nat → Bool) : State :=
  ((s.die d).l2.flatMap (fun kv => (setBits kv.2.dirty).map (fun i => kv.1 * 32 + i))).foldl
    (fun s w => if p (4 * w) then s.writeBack d (4 * w) else s) s

/-- A write-back of a die under reset that its home does not take charges the words' owners (R346, R351). -/
def State.chargeLost (s : State) (d : Nat) : State :=
  ((s.die d).l2.filter (fun kv => kv.2.dirty != 0 && homeStack (kv.1 * 128) ≠ d && s.homeDown (kv.1 * 128))).foldl
    (fun s kv => match s.frameOwner (kv.1 * 128) with
      | some x => s.beginRemoval x trapENGINEFATAL
      | none => s) s

/-- A core zeroed for its owner, with what logical cores that are switched out have saved here, and results in flight for them (R315, R333, R351). -/
def Core.zeroed (y : Core) : Core :=
  { owner := y.owner, saved := y.saved, loads := y.loads.filter (fun p => (SMap.get none p.who.lcore y.saved).isSome) }

/-- The cores of a die are zeroed and return to their owners. -/
def State.zeroCores (s : State) (d : Nat) : State :=
  ((s.cores.map (·.1)).filter (fun c => dieOf c = d)).foldl (fun s c => s.modCore c Core.zeroed) s

/-- A die whose self-test or retraining failed stays offline (R354). -/
def State.takeOffline (s : State) (d : Nat) : State :=
  { s.modDie d (fun y => { y with offline := true, reset := 0, power := 3 }) with out := s.out ++ [.report 3 d] }

/-- The records of cancelled waits that their home still holds as a die is re-admitted are dropped (R353): those of waits that are over, or whose
TIMEOUT is on its way. -/
def State.dropCancelled (s : State) (d : Nat) : State :=
  let gone := fun (n : Nat) => !s.waits.any (·.id = n) || s.net.any (fun m => m.req == .wait n && m.reply == some (.waited false))
  let cut := fun (l : List MonEntry) =>
    (l.map (fun e => { e with waiters := (e.waiters.map (fun w => { w with waits := w.waits.filter (fun n => !gone n) })).filter (fun w => w.waits != []) })).filter
      (fun e => e.waiters != [])
  s.modStack d fun t => { t.setSpilled (cut t.spilled) with
    monitor := (t.monitor.map (fun p => (p.1, cut p.2))).filter (fun p => p.2 != []), fallback := cut t.fallback }

/-- Requests sent to a die while it took none are answered with an error reply (R351, R353). -/
def State.answerDown (s : State) : State :=
  { s with net := s.net.map (fun (m : Msg) => if m.reply.isNone && s.reachesDown m then { m with reply := some (.error 5), since := s.tick } else m) }

/-- Re-admission: what was sent meanwhile gets its error reply, words pinned elsewhere reach the stack, and the barriers of the die and its quads start
anew (R351 step 7, R353). -/
def State.readmit (s : State) (d : Nat) : State :=
  let s := s.answerDown.dropCancelled d
  let s := s.modStack d fun t => { t with refresh := false }
  let s := s.modDie d fun y => { y with reset := 0, power := 0, bars := [], idle := s.tick }
  let s := (s.dies.map (·.1)).foldl (fun s k => s.flushL2 k (fun a => homeStack a = d)) s
  (span (8 * d) 8).foldl (fun s q => s.modQuad q fun t => { t with bars := [] }) s

/-- `resetStep`: the warm reset of a die makes its next step (R351). -/
def execResetStep (die : Nat) (s : State) : Host.Outcome State Fault Refusal :=
  let d := die
  let go := fun (s : State) (k : Nat) => s.modDie d fun y => { y with reset := k }
  let fails := Config.choice s.steps 51 % 2 = 1
  match (s.die d).reset with
  | 1 =>
    if s.cores.any (fun kv => dieOf kv.1 = d && kv.2.lcore.isSome) || !(s.savedOn d).isEmpty then .next s
    else .next (go ((s.dies.map (·.1)).foldl (fun s k => s.flushL2 k (fun a => homeStack a = d)) s) 2)
  | 2 => .next (go ((s.flushL2 d (fun a => !s.homeDown a)).chargeLost d) 3)
  | 3 =>
    let lines := (s.llc.map (·.1)).filter (fun l => homeStack (l * 128) = d)
    .next (go ((lines.foldl State.cleanLlc s).modStack d fun t => { t with refresh := true }) 4)
  | 4 =>
    let s := (s.zeroCores d).modDie d fun y => { y with l2 := [], tlb := [], power := 3 }
    if fails then .next (s.takeOffline d) else .next (go s 5)
  | 5 => if fails then .next (s.takeOffline d) else .next (go ({ s with links := SMap.set 0 (18 + d) 0 s.links }.tally (.retrains (18 + d))) 6)
  | 6 => .next (s.readmit d)
  | _ => .next s

/-! ### Stopping the package (R355, R376) -/

/-- The reserved gibibyte of X-die 0 that takes the dump (R355): at an offset in the second tier that Fellos chooses, its register 5. -/
def State.dumpBase (s : State) : Nat := tierBase + (s.fellosReg 5).toNat

/-- A block of memory copied, as it stands at home. -/
def State.copyBlock (s : State) (a b n : Nat) : State := (s.flushRange a n).blit b n ((s.flushRange a n).mem.wordsIn a n)

/-- The save area image of a core's current logical core (R327) at a base: what is evicted or trapped is copied from its save area. -/
def State.writeImage (s : State) (c base : Nat) : State :=
  let y := s.core c
  let area := s.saveArea (s.coreCtx c) (y.lcore.getD 0)
  let v : SavedCore := { wgs := y.wgs, cbufs := y.cbufs, cbars := y.cbars, bars := y.bars, flags := y.flags, guards := y.guards, guardWait := y.guardWait,
                         toLane := y.toLane, toCt := y.toCt, ct := y.ct, queues := y.queues, held := s.withdrawn c, sys := y.sys }
  let s := ((s.blitBytes base saveRegs y.scratch).blit (base + saveTiles) 0x40000 y.tiles).blit (base + saveCore) saveCoreBytes v.image
  y.wgs.foldl (fun s kv => match kv.2 with
    | none => s
    | some g =>
      if g.state = .resident then s.saveWorkgroup base c kv.1 g [] (s.heldThreads c g)
      else if s.saveAreaOk (s.coreCtx c) area then
        ((s.copyBlock (area + saveRegs + g.hw * warpRegBytes) (base + saveRegs + g.hw * warpRegBytes) (g.warps * warpRegBytes)).copyBlock
          (area + saveThread g.hw 0) (base + saveThread g.hw 0) (g.warps * 32 * 192)).copyBlock (area + saveWg kv.1) (base + saveWg kv.1) 0x8000
      else s) s

/-- A monitor entry in 64 bytes: word address, compare and change, operand, context and generation, then the waits of its records. DESIGN CHOICE
(assumption 63): the spec gives the size of an entry and no layout. -/
def MonEntry.image (e : MonEntry) : List Word :=
  [BitVec.ofNat 32 (4 * e.word), BitVec.ofNat 32 (4 * e.word / 2 ^ 32), BitVec.ofNat 32 (e.cmp.toNat + 256 * (if e.changed then 1 else 0)), e.x,
   BitVec.ofNat 32 (e.ctx * 2 ^ 16 + e.gen.toNat)] ++ ((e.waiters.flatMap (·.waits)).take 11).map (BitVec.ofNat 32)

/-- A reservation entry in 64 bytes: context, core and kind, then the first twelve words of its slots (assumption 63). -/
def Command.image (m : Command) : List Word :=
  [BitVec.ofNat 32 m.ctx, BitVec.ofNat 32 m.core, BitVec.ofNat 32 m.bar, BitVec.ofNat 32 m.id] ++ m.slots.take 12

/-- An event of the error log in 32 bytes (R356): tick, kind, place and context, and the PC of a trap that was not delivered (R322). -/
def LogRec.image (r : LogRec) : List Word :=
  [r.tick.lo, r.tick.hi, BitVec.ofNat 32 r.kind, BitVec.ofNat 32 r.ctx, BitVec.ofNat 32 r.place, BitVec.ofNat 32 (r.place / 2 ^ 32), r.pc.lo, r.pc.hi]

/-- Blocks of words in a table, each in its place. -/
def tableImage (size : Nat) (l : List (Nat × List Word)) : SMap Word := l.foldl (fun m p => putWords (p.1 * size) p.2 m) []

/-- The dump is written (R355): the head, the images of the cores on dies that answer, the monitor tables, the reservation tables and the error log. -/
def State.writeDump (s : State) (d : Dump) : State :=
  let b := s.dumpBase
  let head := s.blit b 0x100000 (putWords 0 [d.stop.lo, d.stop.hi, BitVec.ofNat 32 (d.cause % 256), d.dies.setWidth 32] [])
  let cores := (s.cores.filter (fun kv => kv.2.lcore.isSome && d.dies.getLsbD (dieOf kv.1))).map (·.1)
  let t := head.blit (b + 0x100000) (512 * imageBytes) []
  let t := cores.foldl (fun s c => s.writeImage c (b + 0x100000 + imageBytes * c)) t
  let mons := s.hbm.flatMap (fun kv => kv.2.monitor.flatMap (fun p => p.2.zipIdx.map (fun e => ((kv.1 * 8 + p.1) * 2048 + e.2, e.1.image))))
  let resv := s.quads.flatMap (fun kv => kv.2.table.zipIdx.map (fun e => (kv.1 * 32 + e.2, e.1.image)))
  let t := (t.blit (b + 0x33900000) 0x1000000 (tableImage 16 mons)).blit (b + 0x34900000) 0x40000 (tableImage 16 resv)
  t.blit (b + 0x34940000) (2 ^ 30 - 0x34940000) (tableImage 8 (s.errlog.zipIdx.map (fun e => (e.2, e.1.image))))

/-- `packageFatal`: an error that no context owns, or the host, stops every clock at the next tick, and the dump is written (R355). -/
def execPackageFatal (cause : Nat) (s : State) : Host.Outcome State Fault Refusal :=
  let t := s.tick + 1
  let dies : BitVec 16 := maskOf ((List.range 16).filter (fun d => !s.dieDown d))
  let d : Dump := { stop := t, cause := cause, dies := dies }
  .next { s.writeDump d with stopped := true, tick := t, armed := none, fatal := none, dump := some d }

/-- `tickstopFire`: the control of the clocks acts: an error that no context owns stops the package with its dump (R355), or the armed tick has ended,
and every clock is gated at its end (R376). -/
def execTickstopFire (s : State) : Host.Outcome State Fault Refusal :=
  match s.fatal, s.armed with
  | some cause, _ => execPackageFatal cause s
  | none, none => .next s
  | none, some t => if s.tick.toNat ≤ t.toNat then .next s else .next { s with stopped := true, tick := t, armed := none }

/-- Ticks between two updates of the counters in non-volatile storage (R356). -/
def counterPeriod : Nat := 2 ^ 32

/-- `counterUpdate`: the lifetime counters are written to non-volatile storage once the period has passed (R356). -/
def execCounterUpdate (s : State) : Host.Outcome State Fault Refusal :=
  if (s.tick - s.flashed).toNat < counterPeriod then .next s else .next s.flushCounters

/-! ### Links (R345, R365) -/

/-- Links: the 16 Pelbunis ports are 0-15, the PCIe endpoints 16 and 17 (R1), and the UCIe links of die d are 18 + d (the numbers are the
model's choice, assumption 6). -/
def linkCount : Nat := 34

/-- A link that is down. -/
def linkDown : Nat := 17

/-- `failedFlit`: a flit fails its check and is replayed; whether the replays before it are consecutive is the traffic's (assumption 6). -/
def execFailedFlit (link : Nat) (s : State) : Host.Outcome State Fault Refusal :=
  let n := SMap.get 0 link s.links
  if linkCount ≤ link || 16 ≤ n then .next s
  else
    let k := if Config.choice s.steps 52 % 2 = 0 then n + 1 else 1
    .next ({ s with links := SMap.set 0 link k s.links }.tally (.replays link))

/-- `linkRetrain`: after 16 consecutive replays a link retrains, or is taken down (R345). The loss of a die's link may be that of its last route, which is
package fatal (R355); the routes between dies are the device's (assumption 6). -/
def execLinkRetrain (link : Nat) (s : State) : Host.Outcome State Fault Refusal :=
  if linkCount ≤ link || SMap.get 0 link s.links ≠ 16 then .next s
  else
    let k := if Config.choice s.steps 53 % 2 = 0 then 0 else linkDown
    let s := ({ s with links := SMap.set 0 link k s.links }.tally (.retrains link)).log 10 link 0
    .next (if k = linkDown && 18 ≤ link && Config.choice s.steps 54 % 2 = 1 then { s with fatal := some 3 } else s)

/-- `linkWatchdog`: no reply has come from a peer package within 2^24 ticks (R365); while the context is halted there, the watchdog is suspended
(R367). -/
def execLinkWatchdog (n : Nat) (s : State) : Host.Outcome State Fault Refusal :=
  match s.asked n with
  | none => .next s
  | some m =>
    let pkg := bitsOf (s.windowTarget m.pa).2 29 21
    if !isWindowPa m.pa || s.windowKind m.pa ≠ 1 || decide ((s.tick - m.since).toNat < 2 ^ 24) ||
        (s.ctx m.ctx).peersHalted.any (·.1 = pkg) then .next s
    else .next (s.answer n m (.error 4))

end Sys2Proof.Machine
end

