-- ==== Sys2Proof/Machine/Attach.lean ====
section
/-! DEFINITION. The host's attachment and what Fellos does at its requests (R159, R165, R278, R305-R317, R347, R360-R364, R367-R369). A function is named
by 256 times its endpoint plus its number. -/

namespace Sys2Proof.Machine

/-! ### Functions (R360-R364) -/

/-- A function. -/
def State.vf (s : State) (fn : Nat) : Vf := SMap.get {} fn s.vfs

/-- Change a function. -/
def State.modVf (s : State) (fn : Nat) (f : Vf → Vf) : State := { s with vfs := SMap.set {} fn (f (s.vf fn)) s.vfs }

/-- A request completes with Unsupported Request, or with Completer Abort. -/
def State.abortHost (s : State) (fn : Nat) (unsupported : Bool) : State := { s with out := s.out ++ [.abort fn unsupported] }

/-- Data goes back to a function's read. -/
def State.hostData (s : State) (fn : Nat) (data : List Byte) : State := { s with out := s.out ++ [.readData fn data] }

/-- `unboundVfRequest`: a function that is not bound completes every request with Unsupported Request (R360). -/
def execUnboundVfRequest (fn : Nat) (s : State) : Host.Outcome State Fault Refusal :=
  if (s.vf fn).ctx.isNone then .next (s.abortHost fn true) else .next s

/-- What the register page holds at an offset (R361). -/
def Vf.pageWord (v : Vf) (off : Nat) : Word :=
  match off with
  | 0 => BitVec.ofNat 32 (v.ctx.getD 0 % 4096)
  | 4 => maskOf ((List.range 16).filter (fun h => (SMap.get none h v.slots).isSome))
  | 8 => v.putok
  | 12 => v.putfull
  | 16 => v.putref
  | 20 => v.putbad
  | _ => 0

/-- `registerPageWrite`: a write to the register page is discarded, and a read gives its field, or zero (R361). -/
def execRegisterPageWrite (fn : Nat) (acc : PageAccess) (s : State) : Host.Outcome State Fault Refusal :=
  if (s.vf fn).ctx.isNone then .next (s.abortHost fn true)
  else match acc.write with
    | some _ => .next s
    | none => .next (s.hostData fn (leBytes 4 ((s.vf fn).pageWord acc.off).toNat))

/-- A write to the put window is well formed for the bag its slot names, where one lives there (R362). -/
def State.putFits (s : State) (x off len : Nat) (header : DWord) : Bool :=
  match s.bagAt x header with
  | some b => len == recBytes b.size && off % 65536 % recBytes b.size == 0
  | none => true

/-- `putWindowWrite`: a host write becomes a put of the bag that its slot names, or is counted as malformed; a read gives zero (R362). Once the
removal of the context has reached its Staithe queues, they take no put of it (R348). -/
def execPutWindowWrite (fn off : Nat) (data : Option (List Word)) (s : State) : Host.Outcome State Fault Refusal :=
  match (s.vf fn).ctx with
  | none => .next (s.abortHost fn true)
  | some x =>
    match (if off < 0x100000 then SMap.get none (off / 65536) (s.vf fn).slots else none), data with
    | _, none => .next (s.hostData fn (List.replicate 4 0))
    | some header, some (key :: rest) =>
      if !s.putFits x off (4 * (key :: rest).length) header then .next (s.modVf fn fun v => { v with putbad := v.putbad + 1 })
      else if 6 < (s.ctx x).removal then .next s
      else .next (s.send (bagRequest s .device x header (.put key (key :: rest)) (some fn)))
    | _, _ => .next (s.modVf fn fun v => { v with putbad := v.putbad + 1 })

/-- The place of a byte that a host access names, or none where it aborts: absent, without the permission, of a window, or at a home that
takes none; a write may not reach a bag's header (R126, R363). -/
def State.hostPlace (s : State) (x : Nat) (need : BitVec 3) (va : DWord) : Option Nat :=
  match (if canonical va then s.walk x va else none) with
  | none => none
  | some t =>
    if isWindowPa t.pa || !s.ownsFrame x t.pa || !t.grants need || s.homeDown t.pa || (need.getLsbD 1 && s.isHeader t.pa) then none
    else some t.pa

/-- Bytes of one word written at its home: a poisoned word takes only a whole-word write (R345). -/
def State.hostWriteWord (s : State) (ps : List (Nat × Byte)) : State :=
  match ps with
  | [] => s
  | p :: _ =>
    let a := wordAddr p.1
    let be : BitVec 4 := maskOf (ps.map (fun p => p.1 % 4))
    let w : Word := BitVec.ofNat 32 ((ps.map (fun p => p.2.toNat * 2 ^ (8 * (p.1 % 4)))).sum)
    if be = 15 then s.storeHome a w
    else
      let s := s.eccCheck a
      if s.poisoned a && (s.dirtyDies a).isEmpty then s else s.storeHomeBytes a w be

/-- Bytes grouped by the word they lie in. -/
def groupWords (ps : List (Nat × Byte)) : List (List (Nat × Byte)) :=
  ((ps.map (fun p => p.1 / 4)).eraseDups).map (fun w => ps.filter (fun p => p.1 / 4 = w))

/-- `memoryWindowAccess`: a host read or write through the memory window, at the home slices (R363). One that it may not make completes with Completer
Abort and writes nothing; so does one for a context whose lines its removal has discarded (R348). -/
def execMemoryWindowAccess (req : HostAccess) (s : State) : Host.Outcome State Fault Refusal :=
  match (s.vf req.fn).ctx with
  | none => .next (s.abortHost req.fn true)
  | some x =>
    let v := s.vf req.fn
    let need := if req.write.isSome then permW else permR
    let n := ((req.write.map List.length).getD req.len)
    let places := (List.range n).map (fun i => s.hostPlace x need (v.base + BitVec.ofNat 64 (req.off + i)))
    if 8 < (s.ctx x).removal || 2 ^ v.winBits < req.off + n || 4096 < n || places.any Option.isNone then .next (s.abortHost req.fn false)
    else
      let pas := places.filterMap id
      match req.write with
      | some bs => .next ((groupWords (pas.zip bs)).foldl State.hostWriteWord s)
      | none =>
        let s := ((pas.map wordAddr).eraseDups).foldl State.eccCheck s
        if pas.any (fun a => s.poisoned a && (s.dirtyDies a).isEmpty) then .next (s.abortHost req.fn false)
        else
          let s := ((pas.map wordAddr).eraseDups).foldl State.recall s
          .next (s.hostData req.fn (pas.map (fun a => BitVec.ofNat 8 (s.homeData a 1))))

/-- `interruptPageStore`: a store to an interrupt page raises a vector of its function, or is discarded (R364). -/
def execInterruptPageStore (n : Nat) (s : State) : Host.Outcome State Fault Refusal :=
  match s.out[n]? with
  | some (.pageStore ep fn off size data) =>
    if off = 0 && size = 4 && decide (data < 32) then .next { s with out := s.out.set n (.interrupt ep fn data) }
    else .next { s with out := s.out.eraseIdx n }
  | _ => .next s

/-! ### Boot (R347, R368, R369) -/

/-- A register of Fellos that holds an offset of a table: a multiple of 64 KiB that Fellos chooses. -/
def State.chosenOffset (s : State) (n : Nat) : DWord := ((Config.freeWord s.steps (8 + n)) &&& 0xFFFF0000).setWidth 64

/-- A cold reset: everything is as after `State.reset` but what non-volatile storage holds (the retirement list, the quarantines, the
lifetime counters as last written there, the error log; R347, R356), the fuses (R368), the last dump, and the tick count, which is the pod's again
(R2). -/
def State.coldReset (s : State) : State :=
  { State.reset with steps := s.steps, tick := s.tick, pkg := s.pkg, dump := s.dump, retired := s.retired, quarant := s.quarant,
                     flash := s.flash, counters := s.flash, flashed := s.tick, errlog := s.errlog, xdies := s.xdies }

/-- An anchor of the array names a frame (R310). -/
def State.setAnchor (s : State) (i g : Nat) : State :=
  s.tableWords4 (i % 16 * stackBytes + (s.fellosReg 1).toNat + 4 * (i / 16)) [BitVec.ofNat 32 g]

/-- An image as an X-die's root of trust finds it: what is in storage is the device's (assumption 7). -/
def State.foundImage (s : State) (d i : Nat) : Image :=
  let n := 16 * (2 * d + i)
  { version := Config.choice s.steps (100 + n), rsa := Config.choice s.steps (101 + n) % 2 == 0, slh := Config.choice s.steps (102 + n) % 2 == 0,
    measure := BitVec.ofNat 384 (ofWords ((List.range 12).map (fun k => Config.freeWord s.steps (64 + n + k)))) }

/-- An image may run: both signatures verify, and its version is not below the fuses' counter (R368). -/
def XDie.accepts (x : XDie) (i : Image) : Bool := i.rsa && i.slh && decide (x.fuse ≤ i.version)

/-- The root of trust of an X-die boots its primary image, else its standby image, else stays in recovery mode (R368). -/
def XDie.boot (x : XDie) (images : List Image) : XDie :=
  let run := images.findIdx? x.accepts
  { x with images := images, running := run, recovery := run.isNone }

/-- An X-die. -/
def State.xdie (s : State) (d : Nat) : XDie := SMap.get {} d s.xdies

/-- `boot`: a cold reset of a package that has run or is stopped; then each X-die's root of trust verifies its images, and Fellos starts, sets its
registers, empties every chain (R310), and writes the listed frames retired (R2, R347, R355, R368, R376). DESIGN CHOICE (assumption 74): Fellos starts
where neither X-die stays in recovery mode. The images and the registers are the device's (assumptions 6 and 7). -/
def execBoot (s : State) : Host.Outcome State Fault Refusal :=
  let s := if s.booted || s.stopped then s.coldReset else s
  let s := { s with xdies := [0, 1].foldl (fun m d => SMap.set {} d ((s.xdie d).boot [s.foundImage d 0, s.foundImage d 1]) m) s.xdies }
  if (s.xdie 0).recovery || (s.xdie 1).recovery then .next s
  else
    let regs : SMap DWord := [0, 1, 3, 4, 5].foldl (fun (m : SMap DWord) n => SMap.set 0 n (s.chosenOffset n) m) []
    let regs := SMap.set 16 2 (BitVec.ofNat 64 (16 + Config.choice s.steps 71 % 9)) regs
    let s := { s with booted := true, fellos := regs }
    let s := (List.range (2 ^ s.anchorBits)).foldl (fun s i => s.setAnchor i noFrame) s
    .next (s.retired.foldl State.retireFrame s)

/-- `attestation`: the host's request on the management function: an X-die's signed report, with the measurement of each image and the host's nonce
(R369), whose signatures are the device's (assumption 7), or a lifetime counter as last written to non-volatile storage (R356). -/
def execAttestation (req : PfRequest) (s : State) : Host.Outcome State Fault Refusal :=
  match req with
  | .counter k => .next { s with out := s.out ++ [.counter k (SMap.get 0 k s.flash)] }
  | .attest xdie nonce =>
    if 2 ≤ xdie then .next s
    else
      let x := s.xdie xdie
      .next { s with out := s.out ++ [.attestation xdie (x.images.map (·.measure)) x.fuse nonce (Config.freeWord s.steps 200) (Config.freeWord s.steps 201)] }

/-! ### Contexts and cores (R165, R305, R306, R315, R367) -/

/-- The registers a context is created with: its ways, where 0 is stored as all, and what it may debug (R306, R326). -/
def createdSys (r : ContextSpec) : SMap DWord :=
  let ways : DWord := if r.ways = 0 then 0xFFFF else r.ways.setWidth 64
  SMap.set (Context.sysDefault 0x1C) 0x1C (r.dbg.setWidth 64) (SMap.set (Context.sysDefault 0x11) 0x11 ways [])

/-- A list as a map from its places. -/
def indexed {α : Type} [DecidableEq α] (dflt : α) (l : List α) : SMap α := (l.zipIdx).foldl (fun m p => SMap.set dflt p.2 p.1 m) []

/-- The descriptor of a context's launch bag: a plain bag of one share, in records of 128 bytes (R159, R217). -/
def bagWords (spec : ContextSpec) : List Word :=
  [spec.launchBag.lo, spec.launchBag.hi, spec.area.lo, spec.area.hi, BitVec.ofNat 32 (4 * 2 ^ 21), spec.cap ++ spec.limit, 0, 0]

/-- `createContext`: Fellos creates a context that the host asks for, and its launch bag (R159, R305). A number that is in use, or whose
removed context still owns cores, and a launch bag that R217 would not make, are refused. DESIGN CHOICE (assumption 71): a grid outside 1 to 4,096 is
taken as the nearest of these, and an entry of the remap table above 511 as its low 9 bits. -/
def execCreateContext (spec : ContextSpec) (s : State) : Host.Outcome State Fault Refusal :=
  let x := s.ctx spec.ctx
  let inUse := x.alive || (x.removal != 0 && x.removal != 10) || s.cores.any (fun kv => kv.2.owner = some spec.ctx)
  if 4096 ≤ spec.ctx || !s.booted || inUse then .next s
  else
    let grid := max 1 (min 4096 spec.grid)
    let table := (spec.remap.take grid).map (· % 512)
    let t := s.modCtx spec.ctx fun y => { alive := true, gen := y.gen, grid := grid,
                                          remap := table.zipIdx.map (fun p => (p.2, p.1)), sys := createdSys spec, launchBag := spec.launchBag,
                                          groups := indexed [] spec.groups }
    let made := t.applyMake spec.ctx (bagWords spec)
    if made.2 ≠ 0 then .next s else .next made.1

/-- A core holds nothing of the context that owns it, or that context is removed (R315, R349). -/
def State.vacant (s : State) (c : Nat) : Bool :=
  let y := s.core c
  match y.owner with
  | none => true
  | some x => !(s.ctx x).alive || (y.lcore.isNone && y.saved.isEmpty && y.wgs.isEmpty && y.warps.isEmpty && y.queues.isEmpty && y.loads.isEmpty &&
      (s.engineCommands c).isEmpty && y.ct.cur.run == .idle && y.ct.pending.isEmpty)

/-- `assignCore`: Fellos gives a core to a context, or to none, zeroing its state (R315). -/
def execAssignCore (core ctx : Nat) (s : State) : Host.Outcome State Fault Refusal :=
  if 512 ≤ core || !s.booted || !s.vacant core || (decide (ctx < 4096) && !(s.ctx ctx).alive) then .next s
  else .next (s.setCore core { owner := if ctx < 4096 then some ctx else none })

/-- `debugResume`: a halted context goes on: its slice timers and runaway counters count from where they stopped, and its collectives
continue (R340, R367). -/
def execDebugResume (ctx : Nat) (s : State) : Host.Outcome State Fault Refusal :=
  let x := s.ctx ctx
  if !x.halted then .next s
  else
    let d := s.tick - x.haltedAt
    let later := fun (y : Core) => { y with
      since := y.since + d,
      wgs := y.wgs.map (fun kv => (kv.1, kv.2.map (fun g => { g with runaway := g.runaway + d }))) }
    let s := s.modCtx ctx fun y => { y with halted := false }
    .next ((((s.cores.filter (fun kv => kv.2.owner = some ctx)).map (·.1)).foldl (fun s c => s.modCore c later) s).tellPeers ctx .resumed)

/-! ### Tables and bindings (R307-R312, R317, R360, R362) -/

/-- The entry's new words change who holds the frame (R317). -/
def IEntry.changesHands (a b : IEntry) : Bool := a.owned != b.owned || a.ctx != b.ctx || a.retired != b.retired || a.compute != b.compute

/-- The pages of the live bags of contexts that are not being removed, as they are mapped. -/
def State.bagPages (s : State) : List (List (Option Nat)) :=
  (s.bags.filter (fun b => !b.freed && (s.ctx b.ctx).removal == 0)).map (fun b =>
    s.pagesAt b.ctx b.header 65536 ++ s.pagesAt b.ctx b.area (b.shareCount * b.stride))

/-- `tableWrite`: Fellos writes an inverted entry, and the target of a window frame, purging a frame that changes hands first; a retired frame
is not assigned again before a cold reset, and a listed one never, a frame of the tables is given to no context, and the pages of a live bag are not unmapped or moved
(R127, R307-R310, R312, R317, R347). -/
def execTableWrite (gfn : Nat) (entry : TableEntry) (s : State) : Host.Outcome State Fault Refusal :=
  match frameBase gfn with
  | none => .next s
  | some base =>
    let new := IEntry.ofWords entry.words[0] entry.words[1] entry.words[2] entry.words[3]
    if !s.booted || ((s.retired.contains gfn || (s.ientry gfn).retired) && !new.retired) || (new.owned && s.isTableFrame base) then .next s
    else
      let t := if (s.ientry gfn).changesHands new then s.purgeFrame gfn else s
      let t := t.tableWords4 (s.entryAddr gfn) (entry.words.toList ++ (if isWindowPa base then entry.target.toList else []))
      let t := (match entry.anchor with
        | some (i, g) => t.setAnchor (i % 2 ^ s.anchorBits) (g % 2 ^ 26)
        | none => t)
      if t.bagPages = s.bagPages then .next t else .next s

/-- `bindVf`: Fellos binds a virtual function to a context, its slot 0 to the launch bag and its memory window to a base and a size that
Fellos chooses, or unbinds it (R360-R362). -/
def execBindVf (fn ctx : Nat) (s : State) : Host.Outcome State Fault Refusal :=
  if 512 ≤ fn then .next s
  else if 4096 ≤ ctx then .next (s.modVf fn fun _ => {})
  else if !(s.ctx ctx).alive then .next s
  else
    let bits := 16 + Config.choice s.steps 72 % 25
    let base := dword (Config.freeWord s.steps 16 &&& 0xFFFF0000) (Config.freeWord s.steps 17 &&& 0x7FFF)
    .next (s.modVf fn fun _ => { ctx := some ctx, base := base, winBits := bits, slots := SMap.set none 0 (some (s.ctx ctx).launchBag) [] })

/-- `putSlotBind`: Fellos binds another slot of a bound function to a bag (R362). -/
def execPutSlotBind (fn slot addr : Nat) (s : State) : Host.Outcome State Fault Refusal :=
  if (s.vf fn).ctx.isNone || slot = 0 || 16 ≤ slot then .next s
  else .next (s.modVf fn fun v => { v with slots := SMap.set none slot (some (BitVec.ofNat 64 addr)) v.slots })

end Sys2Proof.Machine
end

