-- ==== Sys2Proof/Machine/BagEvents.lean ====
section
/-! DEFINITION. The events of Staithes and the Lengthsman (R128-R145, R192, R193, R217, R218): each request applied at its home, and the
replies. -/

namespace Sys2Proof.Machine

/-- A request at its home Staithe: applied by `f` to the live bag its header names, and answered. -/
def State.atStaithe (s : State) (n : Nat) (f : Msg → Option Bag → Option (State × Reply)) : State :=
  match s.asked n with
  | none => s
  | some m =>
    if !s.applicable m || !s.firstOf n m then s
    else match f m (s.bagAt m.ctx m.va) with
      | none => s
      | some (t, r) => t.answer n m r

/-- `staithePut`. -/
def execStaithePut (n : Nat) (s : State) : Host.Outcome State Fault Refusal :=
  .next (s.atStaithe n fun m b => match m.req, b with
    | .put key words, some b => some (s.applyPut b m.who key words)
    | .put _ _, none => some (s, .refused)
    | _, _ => none)

/-- `staitheDrain`. -/
def execStaitheDrain (n : Nat) (s : State) : Host.Outcome State Fault Refusal :=
  .next (s.atStaithe n fun m _ => match m.req with
    | .drain => let r := s.applyDrain m.ctx m.who m.va; some (r.1, .value (if r.2 then 1 else 0))
    | _ => none)

/-- `staitheSnapshot`. -/
def execStaitheSnapshot (n : Nat) (s : State) : Host.Outcome State Fault Refusal :=
  .next (s.atStaithe n fun m b => match m.req with
    | .snapshot slot share => let r := s.snapshotOf b slot share; some (s, .cursor 0 r.1 r.2.1 r.2.2)
    | _ => none)

/-- The place of the record that a step of a cursor returns goes with the pending result that it fills, for its acquire (R140). -/
def State.noteRecord (s : State) (m : Msg) (a : DWord) : State :=
  match s.recordSlot m.ctx a with
  | some (b, k, j) => s.modCore m.who.core fun y => { y with loads := y.loads.map (fun p =>
      if p.kind == .bag && p.who == m.who && some p.id == m.load then { p with record := some (b.slotPa k j, recBytes b.size) } else p) }
  | none => s

/-- `staitheNext`. A cursor whose slot is unbound, header 0, is malformed, whatever bag may stand there (R138, R160). -/
def execStaitheNext (n : Nat) (s : State) : Host.Outcome State Fault Refusal :=
  .next (s.atStaithe n fun m b => match m.req with
    | .next c0 c1 c2 =>
      let r := nextOf (if m.va = 0 then none else b) c0 c1 c2
      some (if 1 < r.1.toNat then s.noteRecord m r.1 else s, .cursor r.1 r.2.1 r.2.2.1 r.2.2.2)
    | _ => none)

/-- `staitheCount`. -/
def execStaitheCount (n : Nat) (s : State) : Host.Outcome State Fault Refusal :=
  .next (s.atStaithe n fun m b => match m.req with
    | .count share => some (s, .value ((countReply b share).setWidth 64))
    | _ => none)

/-- `staitheGrow`. -/
def execStaitheGrow (n : Nat) (s : State) : Host.Outcome State Fault Refusal :=
  .next (s.atStaithe n fun m b => match m.req, b with
    | .grow target, some b => some (s.applyGrow b target.toNat)
    | .grow _, none => some (s, .value 0)
    | _, _ => none)

/-- `staitheMake`. -/
def execStaitheMake (n : Nat) (s : State) : Host.Outcome State Fault Refusal :=
  .next (s.atStaithe n fun m _ => match m.req with
    | .make ws => let r := s.applyMake m.ctx ws; some (r.1, .value (BitVec.ofNat 64 r.2))
    | _ => none)

/-- `staitheSeal`. -/
def execStaitheSeal (n : Nat) (s : State) : Host.Outcome State Fault Refusal :=
  .next (s.atStaithe n fun m _ => match m.req with
    | .seal => let r := s.applySeal m.ctx m.va; some (r.1, .value (BitVec.ofNat 64 r.2))
    | _ => none)

/-- `staitheFree`. -/
def execStaitheFree (n : Nat) (s : State) : Host.Outcome State Fault Refusal :=
  .next (s.atStaithe n fun m _ => match m.req with
    | .free => let r := s.applyFree m.ctx m.va; some (r.1, .value (BitVec.ofNat 64 r.2))
    | _ => none)

/-- `lengthsmanEnter`. -/
def execLengthsmanEnter (n : Nat) (s : State) : Host.Outcome State Fault Refusal :=
  .next (s.atStaithe n fun m b => match m.req with
    | .enter => some ((b.map (fun b => s.applyEnter b m.who)).getD s, .value 0)
    | _ => none)

/-- `lengthsmanLeave`. -/
def execLengthsmanLeave (n : Nat) (s : State) : Host.Outcome State Fault Refusal :=
  .next (s.atStaithe n fun m b => match m.req with
    | .leave => some ((b.map (fun b => s.applyLeave b m.who)).getD s, .value 0)
    | _ => none)

/-- `lengthsmanWait`: the worker's claims leave, and it is answered or parked; the answer is a message of its own. -/
def execLengthsmanWait (n : Nat) (s : State) : Host.Outcome State Fault Refusal :=
  match s.asked n with
  | some m =>
    match m.req with
    | .await share =>
      if !s.applicable m || !s.firstOf n m then .next s
      else match s.bagAt m.ctx m.va with
        | some b => .next ((s.dropMsg n).applyAwait b m.who share.toNat)
        | none => .next (s.answer n m (.value 0))
    | _ => .next s
  | none => .next s

/-! ### Replies -/

/-- The pending results of a request complete with the data for each, first to last. -/
def State.completeBag (s : State) (m : Msg) (vals : List Nat) : State :=
  let c := m.who.core
  let mine := fun (p : Load) => p.kind == .bag && p.who == m.who && some p.id == m.load
  let ps := (s.core c).loads.filter mine
  let s := s.modCore c fun y => { y with loads := y.loads.filter (fun p => !mine p) }
  (ps.zip vals).foldl (fun s pv => s.deliverLoad { pv.1 with data := some (some (BitVec.ofNat 128 pv.2)) }) s

/-- The number of three words. -/
def cursorNat (c0 c1 c2 : Word) : Nat := ofWords [c0, c1, c2]

/-- The thread past a held instruction, with a predicate set unless it is p0. -/
def Thread.heldDone (t : Thread) (k : Nat) (v : Bool) : Thread := let t := t.past 4; if k = 0 then t else t.setPred k v

/-- The predicate of the hold a thread stands in. -/
def Thread.holdPred (t : Thread) : Nat :=
  match t.park with
  | .staithe k => k
  | .wqwait _ k => k
  | _ => 0

/-- The reply to a held request: the thread goes on, its predicate telling the outcome. -/
def State.heldReply (s : State) (who : Who) (v : Bool) : State :=
  match who with
  | .ct c lc => s.wakeCt c lc
  | _ => s.endWait who (fun t => t.heldDone (s.seeThread who).holdPred v)

/-- A host put's outcome is counted in its function (R362). -/
def State.countPut (s : State) (key : Nat) (r : Reply) : State :=
  let v := SMap.get {} key s.vfs
  let v := match r with
    | .placed => { v with putok := v.putok + 1 }
    | .full _ => { v with putfull := v.putfull + 1 }
    | _ => { v with putref := v.putref + 1 }
  { s with vfs := SMap.set {} key v s.vfs }

/-- A held thread raises an effect with its captured words; the message stays while its store queue has no room. -/
def State.bagEffect (s : State) (n : Nat) (m : Msg) (id : Nat) (arg : Nat) : State :=
  match m.who with
  | .ct c lc => (s.dropMsg n).modCtOf c lc fun t => t.raise t.cur.tag id (BitVec.ofNat 32 arg)
  | _ => ((s.dropMsg n).raiseHeld m.who id (BitVec.ofNat 32 arg) (s.instrOf m.who)).getD s

/-- `bagReply`: the reply of a Staithe reaches its thread (R133-R142, R193, R217, R218). -/
def execBagReply (n : Nat) (s : State) : Host.Outcome State Fault Refusal :=
  match s.replied n with
  | none => .next s
  | some (m, r) =>
    let t := s.dropMsg n
    match m.req, r with
    | .put _ _, .full cap => .next (if m.who = .device then t.countPut (m.load.getD 0) r else s.bagEffect n m effBAGFULL cap)
    | .put _ _, .placed => .next (if m.who = .device then t.countPut (m.load.getD 0) r else t.heldReply m.who true)
    | .put _ _, .refused => .next (if m.who = .device then t.countPut (m.load.getD 0) r else t.heldReply m.who false)
    | .drain, .value x =>
      .next ((((t.dropHead m.who.core m.hw).completeBag m [x.toNat])).finishAfter m.who.core m.hw)
    | .snapshot _ _, .cursor _ c0 c1 c2 => .next (t.completeBag m [cursorNat c0 c1 c2])
    | .next _ _ _, .cursor x c0 c1 c2 => .next (t.completeBag m [x.toNat, cursorNat c0 c1 c2])
    | .count _, .value x => .next (t.completeBag m [x.toNat])
    | .grow _, .value _ => .next (t.heldReply m.who true)
    | .grow _, .reserve limit => .next (s.bagEffect n m effBAGRESERVE limit)
    | .make _, .value x => .next (t.completeBag m [x.toNat])
    | .seal, .value x => .next (t.completeBag m [x.toNat])
    | .free, .value x => .next (t.completeBag m [x.toNat])
    | .await _, .value x => .next (t.heldReply m.who (x != 0))
    | .enter, .value _ => .next t
    | .leave, .value _ => .next t
    | _, _ => .next s

end Sys2Proof.Machine
end

