-- ==== Sys2Proof/Machine/Monitor.lean ====
section
/-! DEFINITION. The events of waits (R184-R191), promotions (R105) and barriers (R181-R183). -/

namespace Sys2Proof.Machine

/-! ### Registering a wait (R186-R188) -/

/-- Entries of a slice's table (R186). -/
def monitorEntries : Nat := 2048

/-- Waiter records of an entry (R186). -/
def waiterRecords : Nat := 4

/-- The place a wait's record names: its core and workgroup slot; slot 6 for a control thread. -/
def Who.place : Who → Nat × Nat
  | .lane c _ _ ws _ => (c, ws)
  | .ct c _ => (c, 6)
  | .device => (0, 7)

/-- A wait may join an entry (R186). -/
def MonEntry.takes (e : MonEntry) (w : Wait) (place : Option (Nat × Nat)) : Bool :=
  e.word == w.pa / 4 && e.cmp == w.cmp && e.x == w.x && e.ctx == w.ctx && e.gen == w.gen && (w.cmp != 6 || !e.changed) &&
  (decide (e.waiters.length < waiterRecords) || e.waiters.any (fun r => r.place == place && r.deadline == w.deadline))

/-- The entry with the wait added. -/
def MonEntry.join (e : MonEntry) (w : Wait) (place : Option (Nat × Nat)) : MonEntry :=
  if e.waiters.any (fun r => r.place == place && r.deadline == w.deadline) then
    { e with waiters := e.waiters.map (fun r => if r.place == place && r.deadline == w.deadline then { r with waits := r.waits ++ [w.id] } else r) }
  else { e with waiters := e.waiters ++ [{ place := place, waits := [w.id], deadline := w.deadline }] }

/-- Join the first entry that takes the wait; none where none does. -/
def joinFirst (w : Wait) (place : Option (Nat × Nat)) : List MonEntry → Option (List MonEntry)
  | [] => none
  | e :: es => if e.takes w place then some (e.join w place :: es) else (joinFirst w place es).map (e :: ·)

/-- Entries that a context's overflow area holds (R187): 64 bytes each. -/
def State.overflowRoom (s : State) (x : Nat) : Nat := 2 ^ ((s.ctx x).reg 0x15).toNat / 64

/-- Spilled entries of a context. -/
def State.spilledOf (s : State) (x : Nat) : Nat := (s.hbm.map (fun kv => (kv.2.spilled.filter (·.ctx = x)).length)).sum

/-- The overflow area of a context takes entries: its first frame is owned by the context. -/
def State.overflowReady (s : State) (x : Nat) : Bool := s.ownsFrame x ((s.ctx x).reg 0x14).toNat

/-- A wait whose condition does not hold is registered: in the slice's table, the overflow area, or the fallback region
(R186-R188). -/
def State.registerWait (s : State) (w : Wait) : State :=
  let k := homeStack w.pa
  let sl := homeSlice w.pa
  let st := s.stack k
  let place := if s.isHere w.who then some w.who.place else none
  let e : MonEntry := { word := w.pa / 4, cmp := w.cmp, x := w.x, ctx := w.ctx, gen := w.gen, changed := false,
                        waiters := [{ place := place, waits := [w.id], deadline := w.deadline }] }
  let table := SMap.get [] sl st.monitor
  match joinFirst w place table with
  | some l => s.modStack k fun t => { t with monitor := SMap.set [] sl l t.monitor }
  | none =>
    if table.length < monitorEntries then s.modStack k fun t => { t with monitor := SMap.set [] sl (table ++ [e]) t.monitor }
    else match joinFirst w place st.spilled with
      | some l => s.modStack k (·.setSpilled l)
      | none =>
        if s.overflowReady w.ctx && decide (s.spilledOf w.ctx < s.overflowRoom w.ctx) then s.modStack k fun t => t.setSpilled (t.spilled ++ [e])
        else
          let s := s.modStack k fun t => { t with fallback := t.fallback ++ [{ e with seen := (t.wlog.filter (·.1 = e.word)).length }],
                                                  fbLines := if t.fbLines.contains (lineOf w.pa) then t.fbLines else lineOf w.pa :: t.fbLines }
          s.modCtx w.ctx fun y => y.setReg 0x2F ((((y.reg 0x2F).lo + 1)).setWidth 64)

/-- A wait that would have to go to a full fallback region waits at its slice (R188). -/
def State.registerWaits (s : State) (w : Wait) : Bool :=
  let st := s.stack (homeStack w.pa)
  let place := if s.isHere w.who then some w.who.place else none
  let table := SMap.get [] (homeSlice w.pa) st.monitor
  st.fallbackFull && (joinFirst w place table).isNone && decide (monitorEntries ≤ table.length) && (joinFirst w place st.spilled).isNone &&
    !(s.overflowReady w.ctx && decide (s.spilledOf w.ctx < s.overflowRoom w.ctx))

/-- `waitArrive`: a wait reaches its home, is evaluated, and is answered or registered (R185, R186). A poisoned word answers POISON
(R345). One to a peer window leaves over a Pelbunis link, to register at the peer package, and the outside may answer it (R191, R365,
assumption 7). -/
def execWaitArrive (n : Nat) (s : State) : Host.Outcome State Fault Refusal :=
  match s.asked n with
  | some m =>
    match m.req with
    | .wait id =>
      match s.waits.find? (·.id = id) with
      | none => .next (s.dropMsg n)
      | some w =>
        if !s.applicable m then .next s
        else if isWindowPa m.pa then
          if !m.sent then .next ((s.toPeer m.ctx m.pa (.wait w.cmp) 4 (w.x.setWidth 128)).setMsg n { m with sent := true, since := s.tick })
          else if Config.choice s.steps 40 % 2 = 1 then .next (s.answer n m (.waited true)) else .next s
        else
        let s := s.eccCheck m.pa
        if (s.poisonedAt [m.pa]).isSome then .next (s.answerPoison n m 0)
        else
          let s := s.recall m.pa
          if waitCond w.cmp (s.homeWord m.pa) w.x false then .next (s.answer n m (.waited true))
          else
            let w := { w with pa := m.pa, gen := m.gen }
            if s.registerWaits w then .next s else .next ((s.dropMsg n).registerWait w)
    | _ => .next s
  | none => .next s

/-! ### The fallback path (R188) -/

/-- The logged writes of an entry's word that came after its registration, in home order (R186, R188). -/
def loggedSince (log : List (Nat × Word)) (e : MonEntry) : List (Nat × Word) := (log.filter (·.1 = e.word)).drop e.seen

/-- An entry is satisfied by a logged write of its word since its registration, or by the current value. -/
def State.sweepHit (s : State) (log : List (Nat × Word)) (e : MonEntry) : Bool :=
  (loggedSince log e).any (fun p => waitCond e.cmp p.2 e.x true) || waitCond e.cmp (s.homeWord (4 * e.word)) e.x false

/-- `fallbackSweep`: the fallback entries of a slice are evaluated against the write log, then against the current value. -/
def execFallbackSweep (stack slice : Nat) (s : State) : Host.Outcome State Fault Refusal :=
  let st := s.stack stack
  let mine := fun (e : MonEntry) => homeSlice (4 * e.word) = slice
  let hit := fun (e : MonEntry) => decide (mine e) && s.sweepHit st.wlog e
  let done := st.fallback.filter hit
  let keep := (st.fallback.filter (fun e => !hit e)).map (fun e => if mine e then { e with seen := 0 } else e)
  let lines := (keep.map (fun e => e.word / 32)).eraseDups
  let s := s.modStack stack fun t => { t with fallback := keep, fbLines := lines,
                                              wlog := t.wlog.filter (fun p => decide (homeSlice (4 * p.1) ≠ slice)) }
  .next (done.foldl State.replyEntry s)

/-! ### Deadlines (R189) -/

/-- `waitDeadline`: the deadline of the wait with this number has passed, and a cancel goes to its home, behind the wait's own request (R189). -/
def execWaitDeadline (n : Nat) (s : State) : Host.Outcome State Fault Refusal :=
  match s.waits.find? (·.id = n) with
  | none => .next s
  | some w =>
    let queued := s.cores.any (fun kv => kv.2.queues.any (fun q => q.2.any (fun e => e.kind == .wait n)))
    match w.deadline with
    | none => .next s
    | some t =>
      if s.tick.toNat < t.toNat || w.canceled || queued then .next s
      else
        let s := { s with waits := s.waits.map (fun (v : Wait) => if v.id = n then { v with canceled := true } else v) }
        .next (s.send { who := w.who, ctx := w.ctx, gen := w.gen, va := w.va, pa := w.pa, req := .cancel n, hw := w.who.hw, since := s.tick })

/-- A wait stands in a list of entries. -/
def holdsWait (n : Nat) (l : List MonEntry) : Bool := l.any (fun e => e.waiters.any (fun w => w.waits.contains n))

/-- A home holds a record of a wait. -/
def Stack.holdsWait (t : Stack) (n : Nat) : Bool :=
  t.monitor.any (fun p => Machine.holdsWait n p.2) || Machine.holdsWait n t.spilled || Machine.holdsWait n t.fallback

/-- A wait ends as TIMEOUT: its home's record is freed, and the reply is on its way (R189). -/
def State.timeOutWait (s : State) (w : Wait) : State :=
  let s := s.cancelWait w.id
  let s := { s with waits := s.waits ++ [w] }
  s.send { who := w.who, ctx := w.ctx, gen := w.gen, va := w.va, pa := w.pa, req := .wait w.id, hw := 0, reply := some (.waited false), since := s.tick }

/-- `waitCancel`: a cancel is applied at its home: the record is freed and TIMEOUT sent; one that comes after a satisfying write does
nothing (R189). A wait that waits at its slice for room is evaluated first (R188); one whose entry the slice has retired has no record there, and
times out (R191). The cancel of a wait at a peer package leaves over a Pelbunis link, and the wait ends here as TIMEOUT. -/
def execWaitCancel (n : Nat) (s : State) : Host.Outcome State Fault Refusal :=
  match s.asked n with
  | some m =>
    match m.req with
    | .cancel id =>
      match s.waits.find? (·.id = id) with
      | none => .next (s.dropMsg n)
      | some w =>
        if s.homeDown m.pa then .next s
        else match s.net.findIdx? (fun o => o.req == .wait id && o.reply.isNone) with
          | some k => (match s.net[k]? with
            | none => .next s
            | some o =>
              if isWindowPa o.pa then
                let s := if o.sent then s.toPeer o.ctx o.pa (.cancel w.cmp) 4 (w.x.setWidth 128) else s
                .next (s.timeOutWait w)
              else if !s.applicable o then .next s
              else
                let s := s.eccCheck o.pa
                if (s.poisonedAt [o.pa]).isSome then .next s
                else
                  let s := s.recall o.pa
                  if waitCond w.cmp (s.homeWord o.pa) w.x false then .next ((s.answer k o (.waited true)).dropMsg n) else .next (s.timeOutWait w))
          | none =>
            if w.evicted || s.hbm.any (fun kv => kv.2.holdsWait id) then .next (s.timeOutWait w)
            else .next (s.dropMsg n)
    | _ => .next s
  | none => .next s

/-! ### Replies (R185, R190) -/

/-- The thread past a wait that came true. -/
def Thread.waitTrue (t : Thread) (st : Nat) : Thread := let t := t.past 4; if st = 0 then t else t.setPred st true

/-- The thread past a wait that timed out and names a predicate. -/
def Thread.waitFalse (t : Thread) (st : Nat) : Thread := (t.past 4).setPred st false

/-- The run of a control thread that a wait is of. -/
def State.waitRun (s : State) (w : Wait) : Nat :=
  match w.who with
  | .ct c lc => (s.findCt c lc).cur.tag
  | _ => 0

/-- A reply to a wait is applied to its thread, or, for another package, sent there with the package's number (R365): TRUE acquires and sets the predicate; TIMEOUT clears it, or raises WAIT_TIMEOUT at the
instruction (R185). -/
def State.applyWaitReply (s : State) (w : Wait) (r : Reply) : State :=
  let lowArg := w.va.lo
  match w.who, r with
  | .device, .waited ok => { s.endWaitRecord w.id with out := s.out ++ [.peerReply w.st 0 (if ok then 1 else 0)] }
  | .device, .poisoned _ => { s.endWaitRecord w.id with out := s.out ++ [.peerReply w.st 3 0] }
  | .device, _ => s.endWaitRecord w.id
  | .ct c lc, .waited true =>
    let s := (s.endWaitRecord w.id).acquire c w.ctx w.scope
    let s := if w.st = 0 then s else s.setFlagOf c lc w.st true
    s.wakeCt c lc
  | .ct c lc, .waited false =>
    if w.st = 0 then s.waitEffect w effWAITTIMEOUT lowArg
    else (((s.endWaitRecord w.id).setFlagOf c lc w.st false)).wakeCt c lc
  | who, .waited true => (s.endWaitRecord w.id).wakeAcquiring who w.scope (·.waitTrue w.st)
  | who, .waited false =>
    if w.st = 0 then s.waitEffect w effWAITTIMEOUT lowArg else (s.endWaitRecord w.id).endWait who (·.waitFalse w.st)
  | who, .poisoned _ => (s.endWaitRecord w.id).poisonParty who w.va (s.waitRun w)
  | _, .error code => s.waitEffect w effREMOTEERR (BitVec.ofNat 32 code)
  | _, _ => s

/-- The n-th message is a reply to a wait of a party that is here, or is not; a reply to a wait that is over is dropped. -/
def State.waitReplyIf (s : State) (n : Nat) (here : Bool) : State :=
  match s.replied n with
  | some (m, r) =>
    match m.req with
    | .wait id =>
      match s.waits.find? (·.id = id) with
      | none => s.dropMsg n
      | some w => if s.isHere w.who == here then (s.dropMsg n).applyWaitReply w r else s
    | _ => s
  | none => s

/-- `waitReply`: a reply reaches a thread on its core. -/
def execWaitReply (n : Nat) (s : State) : Host.Outcome State Fault Refusal := .next (s.waitReplyIf n true)

/-- `evictedWake`: a reply for a thread that is evicted or switched out reaches the package scheduler, which marks it woken in the save
area and makes its workgroup runnable (R190). -/
def execEvictedWake (n : Nat) (s : State) : Host.Outcome State Fault Refusal := .next (s.waitReplyIf n false)

/-! ### Writes that wait for a sweep (R188) -/

/-- A part has added a logged write to a fallback region that takes no more: it is the write of a marked line, which waits at its slice until a
sweep frees space, whichever engine or party makes it (R188). -/
def State.overflows (s t : State) : Bool :=
  t.hbm.any (fun kv => kv.2.fallbackFull && decide ((s.stack kv.1).wlog.length < kv.2.wlog.length))

/-- A part whose write waits has not happened yet. -/
def State.unlessFull (s t : State) : State := if s.overflows t then s else t

/-! ### Promotions (R105) -/

/-- `stealPromotion`: a promotion reaches the victim: the entries its queues hold now are to drain; once they have, and at package
scope once the die's L2 has written back, it is acknowledged. -/
def execStealPromotion (n : Nat) (s : State) : Host.Outcome State Fault Refusal :=
  match s.asked n with
  | some m =>
    match m.req with
    | .steal v sc none =>
      let qs := (((s.core v).queues.filter (fun kv => !kv.2.isEmpty)).map (fun kv => (kv.1, kv.2.length)))
      .next (s.setMsg n { m with req := .steal v sc (some qs) })
    | .steal v sc (some []) =>
      if sc < 4 then .next (s.answer n m (.value 0))
      else
        let (s1, ok) := s.releaseNow m.ctx (dieOf v)
        .next (if ok || s.dieDown (dieOf v) then s1.answer n m (.value 0) else s)
    | _ => .next s
  | none => .next s

/-- `stealAck`: the acknowledgement reaches the issuer, which acquires before its later loads issue. -/
def execStealAck (n : Nat) (s : State) : Host.Outcome State Fault Refusal :=
  match s.replied n with
  | some (m, .value _) =>
    match m.req with
    | .steal _ sc _ =>
      let s := s.dropMsg n
      let s := if s.isHere m.who then s.acquire m.who.core m.ctx sc else s
      .next (s.lowerHold m.who)
    | _ => .next s
  | _ => .next s

/-! ### Barriers (R182) -/

/-- `barrierArrival`: a batch whose releases have completed reaches its barrier. -/
def execBarrierArrival (n : Nat) (s : State) : Host.Outcome State Fault Refusal :=
  match s.asked n with
  | some m =>
    match m.req with
    | .arrive sc id k 0 => .next ((s.dropMsg n).arriveAt m.who.core m.who.lcore m.ctx sc id k (m.load.getD 0))
    | _ => .next s
  | none => .next s

end Sys2Proof.Machine
end

