-- ==== Sys2Proof/Machine/Observe.lean ====
section
/-! DEFINITION. Power (R370, R371) and stall samples (R373). -/

namespace Sys2Proof.Machine

/-! ### Power (R370, R371) -/

/-- Ticks between two samples of the module power. -/
def powerPeriod : Nat := 65536

/-- The module power that a sample measures, in watts: the device's (assumption 6). -/
def State.watts (s : State) : Nat := Config.choice s.steps 80

/-- The temperature that a sample measures on a die, in degrees Celsius: the device's (assumption 6). -/
def State.celsius (s : State) (d : Nat) : Nat := Config.choice s.steps (84 + d)

/-- `powerSample`: Fellos samples the module's power against the cap, and the dies' junction temperatures against 105 °C: above either it throttles by
a step of 1/16 more, else by a step less. Every excursion is counted (R356, R371): a die's thermal ones, and the package's above the cap, for which
R356 has no counter (DESIGN CHOICE, assumption 41). -/
def execPowerSample (s : State) : Host.Outcome State Fault Refusal :=
  if (s.tick - s.sampled).toNat < powerPeriod then .next s
  else
    let hot := (List.range 16).filter (fun d => decide (105 < s.celsius d))
    let most := decide (s.powerCap < s.watts)
    let t := (List.range 16).foldl (fun (t : State) d => t.tally (.temperature d (min 15 (s.celsius d / 8)))) { s with sampled := s.tick }
    let t := hot.foldl (fun (t : State) d => t.tally (.thermal d)) t
    let t := if most then t.tally .power else t
    .next { t with throttle := if most || !hot.isEmpty then min 15 (s.throttle + 1) else s.throttle - 1 }

/-- `droop`: a droop throttles the arrays, which changes timing only, and is counted. -/
def execDroop (die : Nat) (s : State) : Host.Outcome State Fault Refusal :=
  if 16 ≤ die then .next s else .next (s.tally (.droops die))

/-- Something on a core may issue. -/
def Core.active (y : Core) : Bool :=
  y.warps.any (·.2.isSome) || (y.ct.cur.run != .idle && y.ct.cur.park == .none)

/-- Something on a die may issue. -/
def State.dieBusy (s : State) (die : Nat) : Bool := s.cores.any (fun kv => dieOf kv.1 = die && kv.2.active && s.mayIssue kv.1)

/-- The power state of a die (R370): one whose cores' clocks run is in Run while something on it may issue, else in Idle. -/
def State.powerState (s : State) (die : Nat) : Nat :=
  let d := s.die die
  if 2 ≤ d.power then d.power else if s.dieBusy die then 0 else 1

/-- `retainEntry`: a die that has been idle for 2^20 ticks is power-gated with its memories kept (R370). -/
def execRetainEntry (die : Nat) (s : State) : Host.Outcome State Fault Refusal :=
  let d := s.die die
  if 16 ≤ die || s.powerState die ≠ 1 || d.offline || decide ((s.tick - d.idle).toNat < 2 ^ 20) then .next s
  else .next (s.modDie die fun y => { y with power := 2 })

/-- `powerCapSet`: the host sets the cap, from 1,500 W to 4,500 W. -/
def execPowerCapSet (watts : Nat) (s : State) : Host.Outcome State Fault Refusal :=
  if watts < 1500 || 4500 < watts then .next s else .next { s with powerCap := watts }

/-! ### Stall samples (R373) -/

/-- The issue context that R22 would choose next, readiness aside: the one that issued least recently, the lower-numbered of equals. -/
def Core.nextContext (y : Core) : Option Nat :=
  (List.range 8).foldl (fun (acc : Option Nat) k => match y.warp k, acc.bind y.warp with
    | some w, some v => if w.last.toNat < v.last.toNat then some k else acc
    | some _, none => some k
    | none, _ => acc) none

/-- The instruction that an issue context stands at. -/
def State.nextInstr (s : State) (c k : Nat) : Option Instr :=
  match s.vecPc c k with
  | none => none
  | some (x, pc) => match s.fetch c x pc with
    | .code bytes _ => (match decode bytes with
      | .ok (i, _) => some i
      | .error _ => none)
    | _ => none

/-- A scratchpad access, which a bank conflict may delay (R85, R86). -/
def Instr.onScratch : Instr → Bool
  | .ldsp _ _ _ => true
  | .stsp _ _ _ => true
  | _ => false

/-- The reasons that hold of a context, where `ready` says whether one would issue in a state: it issues; or, once whatever it might wait for is set
aside, one thing alone still keeps it: a pending result, by its register, or by its latch where the register does not matter, or a full store queue,
whose head may be a command that its engine has no room for. A scratchpad access may meet a bank conflict instead of issuing. -/
def State.stallReasons (s : State) (ready : State → Nat → Nat → Bool) (c k : Nat) : List Sample :=
  match s.env c k with
  | none => []
  | some e =>
    let one := fun (r b : Nat) (bpc : DWord) => ({ wpc := e.pc, bpc := bpc, reason := r, reg := b, ws := e.ws } : Sample)
    let isMine := fun (p : Load) => (match p.who with
      | .lane _ _ hw ws tid => ws == e.ws && e.lanes.any (fun l => l.tid == tid && l.hw == hw)
      | _ => false)
    let hws := (e.lanes.map (·.hw)).eraseDups
    let only := fun (ps : List Load) (full : Bool) => s.modCore c fun y =>
      { y with loads := y.loads.filter (fun p => !isMine p) ++ ps, queues := if full then y.queues else y.queues.filter (fun kv => !hws.contains kv.1) }
    let keeps := fun (p : Load) => !ready (only [p] false) c k
    let heads := hws.filterMap (fun h => if 32 ≤ e.cr.inUse h then (e.cr.queue h).head? else none)
    let bank := if ((s.nextInstr c k).map Instr.onScratch).getD false then [one 3 0xFF 0] else []
    if ready s c k then one 0 0xFF 0 :: bank
    else if !ready (only [] false) c k then []
    else
      (e.cr.loads.filter (fun p => isMine p && keeps p)).map (fun p =>
        if p.warp = some k && keeps { p with dest := none, pred := 0 } then one 2 67 p.pc else one 1 (p.dest.getD 0xFF) p.pc) ++
      (if ready (only [] true) c k then [] else heads.map (fun q => match q.kind with
        | .command _ => one 5 0xFF q.pc
        | _ => one 4 0xFF q.pc))

/-- The samples that a core's next stall sample may give (R373). DESIGN CHOICE (assumption 41): a context that cannot issue for no reason of the table
is given as waiting for an operand that no register names. -/
def State.samplesOf (s : State) (ready : State → Nat → Nat → Bool) (c : Nat) : List Sample :=
  match (s.core c).nextContext with
  | none => []
  | some k => match s.stallReasons ready c k with
    | [] => [{ wpc := ((s.env c k).map (·.pc)).getD 0, bpc := 0, reason := 1, reg := 0xFF, ws := ((s.env c k).map (·.ws)).getD 0 }]
    | l => l

/-- A stall sample finds what holds of its core as it is taken (R373). -/
def State.probed (s : State) (ready : State → Nat → Nat → Bool) (i : Instr) : State :=
  match i with
  | .stallSample c => { s with probe := s.samplesOf ready c }
  | _ => s

/-- The 32-byte record of a sample. -/
def State.sampleRecord (s : State) (c : Nat) (p : Sample) : List Word :=
  [s.tick.lo, s.tick.hi, p.wpc.lo, p.wpc.hi, p.bpc.lo, p.bpc.hi,
   BitVec.ofNat 32 (p.reason * 2 ^ 24 + p.reg * 2 ^ 16 + p.ws * 2 ^ 13), BitVec.ofNat 32 ((s.core c).lcore.getD 0 * 2 ^ 20 + c)]

/-- `stallSample`: a core takes a sample for its current logical core (R373). Of the reasons that hold at once it names one, as the device finds it
(assumption 6). -/
def execStallSample (core : Nat) (s : State) : Host.Outcome State Fault Refusal :=
  let y := s.core core
  let all := s.probe
  let s := { s with probe := [] }
  let period := (y.sysReg 0x20).toNat
  if period = 0 || y.lcore.isNone || decide ((s.tick - y.sampled).toNat < period) then .next s
  else
    let p := all.getD (Config.choice s.steps 83 % all.length) { wpc := 0, bpc := 0, reason := 6, reg := 0xFF, ws := 0 }
    let s := s.modCore core fun y => { y with sampled := s.tick }
    let x := s.coreCtx core
    .next (s.areaAppend x ((s.ctx x).reg 0x21) (s.sampleRecord core p))

end Sys2Proof.Machine
end

