-- ==== Sys2Proof/Machine/Peer.lean ====
section
/-! DEFINITION. Accesses that another package makes here over a Pelbunis link (R309, R365, R366). -/

namespace Sys2Proof.Machine

/-- The permissions an inbound access needs (R311). -/
def peerNeed : PeerKind → BitVec 3
  | .load => permR
  | .store => permW
  | .atomic _ _ => permRW
  | .red _ _ => permW
  | .wait _ => permRW
  | .cancel _ => permRW

/-- An access that a link carries: 1 to 16 bytes, aligned; an atomic of 4 or 8 bytes, a wait of 4. -/
def peerFormed (r : PeerReq) : Bool :=
  [1, 2, 4, 8, 16].contains r.size && r.va.toNat % r.size == 0 && (match r.kind with
    | .atomic _ _ => r.size == 4 || r.size == 8
    | .red _ _ => r.size == 4 || r.size == 8
    | .wait _ => r.size == 4
    | .cancel _ => r.size == 4
    | _ => true)

/-- An access that must read the word it changes or returns: all but a store of whole words (R345). -/
def peerReadsOld (r : PeerReq) : Bool :=
  match r.kind with
  | .store => decide (r.size < 4)
  | .cancel _ => false
  | _ => true

/-- The request's generation is older than the context's (R157, R314). -/
def State.olderGen (s : State) (r : PeerReq) : Bool := genOlder (s.ctx r.ctx).gen r.gen

/-- The place of an inbound access, or the code of the error reply it gets (R353, R365). -/
def State.peerPlace (s : State) (r : PeerReq) : Except Nat Nat :=
  if !(s.ctx r.ctx).alive || (s.ctx r.ctx).removal != 0 then .error 6
  else match (if canonical r.va then s.walk r.ctx r.va else none) with
    | none => .error 1
    | some t =>
      if isWindowPa t.pa || !s.ownsFrame r.ctx t.pa || !t.grants (peerNeed r.kind) || s.olderGen r then .error 2
      else if (match r.kind with
        | .wait _ => false
        | .cancel _ => false
        | k => (peerNeed k).getLsbD 1 && s.isHeader t.pa) then .error 2
      else if s.homeDown t.pa then .error 5
      else .ok t.pa

/-- A reply to another package. -/
def State.peerAnswer (s : State) (r : PeerReq) (code : Nat) (data : BitVec 128) : State :=
  { s with out := s.out ++ [.peerReply r.pkg code data] }

/-- An error reply, which writes an event in the context's area here too (R366). -/
def State.peerError (s : State) (r : PeerReq) (code : Nat) : State := (s.event r.ctx 1 code r.pkg r.va).peerAnswer r code 0

/-- A wait of another package: answered where it holds, else registered here, to be answered later; one that finds the fallback region full waits at
its slice (R188). -/
def State.peerWait (s : State) (r : PeerReq) (cmp : BitVec 3) (pa : Nat) : State :=
  let s := s.recall pa
  let x : Word := r.data.setWidth 32
  if waitCond cmp (s.homeWord pa) x false then s.peerAnswer r 0 1
  else
    let id := s.fresh
    let w : Wait := { id := id.1, who := .device, ctx := r.ctx, gen := r.gen, va := r.va, pa := pa, cmp := cmp, x := x, scope := 0, st := r.pkg,
                      pc := 0, deadline := none }
    let s : State := { id.2 with waits := id.2.waits ++ [w] }
    if s.registerWaits w then
      s.send { who := .device, ctx := r.ctx, gen := r.gen, va := r.va, pa := pa, req := .wait id.1, hw := 0, since := s.tick }
    else s.registerWait w

/-- The cancel of a wait of another package: the oldest such wait, if it is still here, ends as TIMEOUT (R189, R191). -/
def State.peerCancel (s : State) (r : PeerReq) (cmp : BitVec 3) : State :=
  let mine := fun (w : Wait) => w.who == .device && w.st == r.pkg && w.ctx == r.ctx && w.va == r.va && w.cmp == cmp && w.x == r.data.setWidth 32
  match s.waits.find? (fun w => mine w && !s.net.any (fun m => m.req == .wait w.id && m.reply.isSome)) with
  | some w => (s.cancelWait w.id).peerAnswer r 0 0
  | none => s

/-- An atomic that another package makes, or a `red`, whose old value does not go back. -/
def State.peerAtomic (s : State) (r : PeerReq) (op : BitVec 4) (upd : Bool) (pa : Nat) (back : Bool) : State :=
  let cut := fun (v : DWord) => if r.size = 8 then v else v.lo.setWidth 64
  let a := s.applyAtomic op (decide (r.size = 8)) upd (cut (r.data.setWidth 64)) (cut ((r.data >>> 64).setWidth 64)) pa
  a.1.peerAnswer r 0 (if back then a.2.setWidth 128 else 0)

/-- An inbound access is performed at its home slice. -/
def State.peerPerform (s : State) (r : PeerReq) (pa : Nat) : State :=
  match r.kind with
  | .load => s.peerAnswer r 0 (BitVec.ofNat 128 (s.homeData pa r.size))
  | .store => (s.storeHomeData pa r.size r.data.toNat).peerAnswer r 0 0
  | .atomic op upd => s.peerAtomic r op upd pa true
  | .red op upd => s.peerAtomic r op upd pa false
  | .wait cmp => s.peerWait r cmp pa
  | .cancel cmp => s.peerCancel r cmp

/-- `peerAccess`: an inbound access is translated under the context it names, checked, and performed here (R365). -/
def execPeerAccess (req : PeerReq) (s : State) : Host.Outcome State Fault Refusal :=
  if !peerFormed req then .next s
  else match s.peerPlace req with
    | .error code => .next (s.peerError req code)
    | .ok pa =>
      let as := wordsAt pa req.size
      let s := if peerReadsOld req then as.foldl State.eccCheck s else s
      if (s.ctx req.ctx).removal ≠ 0 then .next (s.peerError req 6)
      else if peerReadsOld req && (s.poisonedAt as).isSome then .next (s.peerError req 3)
      else .next (s.peerPerform req pa)

end Sys2Proof.Machine
end

