-- ==== Sys2Proof/Machine/Dispatch.lean ====
section
/-! DEFINITION. One arm for each constructor of `Instr`: the meaning of each instruction and event. -/

namespace Sys2Proof.Machine

/-- The meaning of an instruction or event in a state. -/
def exec (i : Instr) (s : State) : Host.Outcome State Fault Refusal :=
  match i with
  | .mov16 f => Sys2Proof.Machine.execMov16 f s
  | .addI3216 f => Sys2Proof.Machine.execAddI3216 f s
  | .subI3216 f => Sys2Proof.Machine.execSubI3216 f s
  | .mulI3216 f => Sys2Proof.Machine.execMulI3216 f s
  | .and16 f => Sys2Proof.Machine.execAnd16 f s
  | .or16 f => Sys2Proof.Machine.execOr16 f s
  | .xor16 f => Sys2Proof.Machine.execXor16 f s
  | .shl16 f => Sys2Proof.Machine.execShl16 f s
  | .shrN3216 f => Sys2Proof.Machine.execShrN3216 f s
  | .shrI3216 f => Sys2Proof.Machine.execShrI3216 f s
  | .addF3216 f => Sys2Proof.Machine.execAddF3216 f s
  | .subF3216 f => Sys2Proof.Machine.execSubF3216 f s
  | .mulF3216 f => Sys2Proof.Machine.execMulF3216 f s
  | .minF3216 f => Sys2Proof.Machine.execMinF3216 f s
  | .maxF3216 f => Sys2Proof.Machine.execMaxF3216 f s
  | .addi16 imm d => Sys2Proof.Machine.execAddi16 imm d s
  | .addI32 f => Sys2Proof.Machine.execAddI32 f s
  | .subI32 f => Sys2Proof.Machine.execSubI32 f s
  | .mulI32 f => Sys2Proof.Machine.execMulI32 f s
  | .mulhiI32 f => Sys2Proof.Machine.execMulhiI32 f s
  | .mulhiN32 f => Sys2Proof.Machine.execMulhiN32 f s
  | .madI32 f => Sys2Proof.Machine.execMadI32 f s
  | .minI32 f => Sys2Proof.Machine.execMinI32 f s
  | .maxI32 f => Sys2Proof.Machine.execMaxI32 f s
  | .minN32 f => Sys2Proof.Machine.execMinN32 f s
  | .maxN32 f => Sys2Proof.Machine.execMaxN32 f s
  | .and f => Sys2Proof.Machine.execAnd f s
  | .or f => Sys2Proof.Machine.execOr f s
  | .xor f => Sys2Proof.Machine.execXor f s
  | .andn f => Sys2Proof.Machine.execAndn f s
  | .shl f => Sys2Proof.Machine.execShl f s
  | .shrN32 f => Sys2Proof.Machine.execShrN32 f s
  | .shrI32 f => Sys2Proof.Machine.execShrI32 f s
  | .rotl f => Sys2Proof.Machine.execRotl f s
  | .add64 f => Sys2Proof.Machine.execAdd64 f s
  | .sub64 f => Sys2Proof.Machine.execSub64 f s
  | .mad64 f => Sys2Proof.Machine.execMad64 f s
  | .sel f => Sys2Proof.Machine.execSel f s
  | .cmpI32 f => Sys2Proof.Machine.execCmpI32 f s
  | .cmpN32 f => Sys2Proof.Machine.execCmpN32 f s
  | .mov f => Sys2Proof.Machine.execMov f s
  | .not f => Sys2Proof.Machine.execNot f s
  | .neg f => Sys2Proof.Machine.execNeg f s
  | .abs f => Sys2Proof.Machine.execAbs f s
  | .popc f => Sys2Proof.Machine.execPopc f s
  | .clz f => Sys2Proof.Machine.execClz f s
  | .ctz f => Sys2Proof.Machine.execCtz f s
  | .brev f => Sys2Proof.Machine.execBrev f s
  | .sextW8 f => Sys2Proof.Machine.execSextW8 f s
  | .sextW16 f => Sys2Proof.Machine.execSextW16 f s
  | .zextW8 f => Sys2Proof.Machine.execZextW8 f s
  | .zextW16 f => Sys2Proof.Machine.execZextW16 f s
  | .pget nw d g => Sys2Proof.Machine.execPget nw d g s
  | .pset a g => Sys2Proof.Machine.execPset a g s
  | .rdtick nw d g => Sys2Proof.Machine.execRdtick nw d g s
  | .rdtickHi nw d g => Sys2Proof.Machine.execRdtickHi nw d g s
  | .rdid which nw d g => Sys2Proof.Machine.execRdid which nw d g s
  | .bfeI32 f => Sys2Proof.Machine.execBfeI32 f s
  | .bfeN32 f => Sys2Proof.Machine.execBfeN32 f s
  | .bfi f => Sys2Proof.Machine.execBfi f s
  | .pand f => Sys2Proof.Machine.execPand f s
  | .por f => Sys2Proof.Machine.execPor f s
  | .pxor f => Sys2Proof.Machine.execPxor f s
  | .pandn f => Sys2Proof.Machine.execPandn f s
  | .pnot f => Sys2Proof.Machine.execPnot f s
  | .pmov f => Sys2Proof.Machine.execPmov f s
  | .addi imm a d => Sys2Proof.Machine.execAddi imm a d s
  | .andi imm a d => Sys2Proof.Machine.execAndi imm a d s
  | .ldi imm d => Sys2Proof.Machine.execLdi imm d s
  | .ldiHi imm d => Sys2Proof.Machine.execLdiHi imm d s
  | .addF32 f => Sys2Proof.Machine.execAddF32 f s
  | .subF32 f => Sys2Proof.Machine.execSubF32 f s
  | .mulF32 f => Sys2Proof.Machine.execMulF32 f s
  | .fmaF32 f => Sys2Proof.Machine.execFmaF32 f s
  | .minF32 f => Sys2Proof.Machine.execMinF32 f s
  | .maxF32 f => Sys2Proof.Machine.execMaxF32 f s
  | .divF32 f => Sys2Proof.Machine.execDivF32 f s
  | .cmpF32 f => Sys2Proof.Machine.execCmpF32 f s
  | .negF32 f => Sys2Proof.Machine.execNegF32 f s
  | .absF32 f => Sys2Proof.Machine.execAbsF32 f s
  | .rintNeF32 f => Sys2Proof.Machine.execRintNeF32 f s
  | .rintZF32 f => Sys2Proof.Machine.execRintZF32 f s
  | .rintUpF32 f => Sys2Proof.Machine.execRintUpF32 f s
  | .rintDnF32 f => Sys2Proof.Machine.execRintDnF32 f s
  | .rcpF32 f => Sys2Proof.Machine.execRcpF32 f s
  | .rsqrtF32 f => Sys2Proof.Machine.execRsqrtF32 f s
  | .sqrtF32 f => Sys2Proof.Machine.execSqrtF32 f s
  | .exp2F32 f => Sys2Proof.Machine.execExp2F32 f s
  | .log2F32 f => Sys2Proof.Machine.execLog2F32 f s
  | .sinF32 f => Sys2Proof.Machine.execSinF32 f s
  | .cosF32 f => Sys2Proof.Machine.execCosF32 f s
  | .sinpiF32 f => Sys2Proof.Machine.execSinpiF32 f s
  | .cospiF32 f => Sys2Proof.Machine.execCospiF32 f s
  | .fclassF32 f => Sys2Proof.Machine.execFclassF32 f s
  | .cvtF16F32 f => Sys2Proof.Machine.execCvtF16F32 f s
  | .cvtBf16F32 f => Sys2Proof.Machine.execCvtBf16F32 f s
  | .cvtF32F16 f => Sys2Proof.Machine.execCvtF32F16 f s
  | .cvtF32Bf16 f => Sys2Proof.Machine.execCvtF32Bf16 f s
  | .cvtI32F32 f => Sys2Proof.Machine.execCvtI32F32 f s
  | .cvtN32F32 f => Sys2Proof.Machine.execCvtN32F32 f s
  | .cvtF32I32 f => Sys2Proof.Machine.execCvtF32I32 f s
  | .cvtF32N32 f => Sys2Proof.Machine.execCvtF32N32 f s
  | .cvtI8F32 f => Sys2Proof.Machine.execCvtI8F32 f s
  | .cvtF32I8 f => Sys2Proof.Machine.execCvtF32I8 f s
  | .cvtI8I32 f => Sys2Proof.Machine.execCvtI8I32 f s
  | .cvtBf16F16 f => Sys2Proof.Machine.execCvtBf16F16 f s
  | .cvtF16Bf16 f => Sys2Proof.Machine.execCvtF16Bf16 f s
  | .addH2 f => Sys2Proof.Machine.execAddH2 f s
  | .mulH2 f => Sys2Proof.Machine.execMulH2 f s
  | .fmaH2 f => Sys2Proof.Machine.execFmaH2 f s
  | .addBh2 f => Sys2Proof.Machine.execAddBh2 f s
  | .mulBh2 f => Sys2Proof.Machine.execMulBh2 f s
  | .fmaBh2 f => Sys2Proof.Machine.execFmaBh2 f s
  | .dot2Bh f => Sys2Proof.Machine.execDot2Bh f s
  | .dot2H f => Sys2Proof.Machine.execDot2H f s
  | .scaleF32 f => Sys2Proof.Machine.execScaleF32 f s
  | .sincosF32 f => Sys2Proof.Machine.execSincosF32 f s
  | .dsdecDs8 f => Sys2Proof.Machine.execDsdecDs8 f s
  | .dsdecDs4 f => Sys2Proof.Machine.execDsdecDs4 f s
  | .dsencDs8 f => Sys2Proof.Machine.execDsencDs8 f s
  | .dsencDs4 f => Sys2Proof.Machine.execDsencDs4 f s
  | .lget f => Sys2Proof.Machine.execLget f s
  | .lgetX f => Sys2Proof.Machine.execLgetX f s
  | .lgetSub f => Sys2Proof.Machine.execLgetSub f s
  | .lgetAdd f => Sys2Proof.Machine.execLgetAdd f s
  | .swp f => Sys2Proof.Machine.execSwp f s
  | .pollAny q nw p g => Sys2Proof.Machine.execPollAny q nw p g s
  | .pollAll q nw p g => Sys2Proof.Machine.execPollAll q nw p g s
  | .pollMask q nw d g => Sys2Proof.Machine.execPollMask q nw d g s
  | .pollFirst nw p g => Sys2Proof.Machine.execPollFirst nw p g s
  | .pollSame f => Sys2Proof.Machine.execPollSame f s
  | .pollCount q nw d g => Sys2Proof.Machine.execPollCount q nw d g s
  | .bcast f => Sys2Proof.Machine.execBcast f s
  | .ldW8 f => Sys2Proof.Machine.execLdW8 f s
  | .ldW16 f => Sys2Proof.Machine.execLdW16 f s
  | .ldW32 f => Sys2Proof.Machine.execLdW32 f s
  | .ldW64 f => Sys2Proof.Machine.execLdW64 f s
  | .ldW128 f => Sys2Proof.Machine.execLdW128 f s
  | .ldX8 f => Sys2Proof.Machine.execLdX8 f s
  | .ldX16 f => Sys2Proof.Machine.execLdX16 f s
  | .stW8 f => Sys2Proof.Machine.execStW8 f s
  | .stW16 f => Sys2Proof.Machine.execStW16 f s
  | .stW32 f => Sys2Proof.Machine.execStW32 f s
  | .stW64 f => Sys2Proof.Machine.execStW64 f s
  | .stW128 f => Sys2Proof.Machine.execStW128 f s
  | .ldsp a width d => Sys2Proof.Machine.execLdsp a width d s
  | .stsp data a width => Sys2Proof.Machine.execStsp data a width s
  | .atomW32 f => Sys2Proof.Machine.execAtomW32 f s
  | .atomW64 f => Sys2Proof.Machine.execAtomW64 f s
  | .red f => Sys2Proof.Machine.execRed f s
  | .fence sc g => Sys2Proof.Machine.execFence sc g s
  | .acqSteal sc a g => Sys2Proof.Machine.execAcqSteal sc a g s
  | .pgreq k j g => Sys2Proof.Machine.execPgreq k j g s
  | .prefetch lvl k g => Sys2Proof.Machine.execPrefetch lvl k g s
  | .wbspan mode k d g => Sys2Proof.Machine.execWbspan mode k d g s
  | .invspan k d g => Sys2Proof.Machine.execInvspan k d g s
  | .cp f => Sys2Proof.Machine.execCp f s
  | .cpg f => Sys2Proof.Machine.execCpg f s
  | .cpm d sc imm => Sys2Proof.Machine.execCpm d sc imm s
  | .qpop q nw d g => Sys2Proof.Machine.execQpop q nw d g s
  | .qrel q g => Sys2Proof.Machine.execQrel q g s
  | .qstat q nw d g => Sys2Proof.Machine.execQstat q nw d g s
  | .cwait f => Sys2Proof.Machine.execCwait f s
  | .ctest f => Sys2Proof.Machine.execCtest f s
  | .cclr cb g => Sys2Proof.Machine.execCclr cb g s
  | .fset z fl g => Sys2Proof.Machine.execFset z fl g s
  | .fwait z fl g => Sys2Proof.Machine.execFwait z fl g s
  | .qrv nw d g => Sys2Proof.Machine.execQrv nw d g s
  | .qsv a d g => Sys2Proof.Machine.execQsv a d g s
  | .bput f => Sys2Proof.Machine.execBput f s
  | .bcount h nw d g => Sys2Proof.Machine.execBcount h nw d g s
  | .bshare h nw d g => Sys2Proof.Machine.execBshare h nw d g s
  | .biter h nw d g => Sys2Proof.Machine.execBiter h nw d g s
  | .bnext k nw d g => Sys2Proof.Machine.execBnext k nw d g s
  | .bdrain k nw d g => Sys2Proof.Machine.execBdrain k nw d g s
  | .bgrow h d g => Sys2Proof.Machine.execBgrow h d g s
  | .mmx f => Sys2Proof.Machine.execMmx f s
  | .mzero cb tile ms => Sys2Proof.Machine.execMzero cb tile ms s
  | .mzeroBias f => Sys2Proof.Machine.execMzeroBias f s
  | .mld f => Sys2Proof.Machine.execMld f s
  | .mst f => Sys2Proof.Machine.execMst f s
  | .mscan a cb ms => Sys2Proof.Machine.execMscan a cb ms s
  | .bra off g => Sys2Proof.Machine.execBra off g s
  | .call off g => Sys2Proof.Machine.execCall off g s
  | .jmpi k g => Sys2Proof.Machine.execJmpi k g s
  | .calli k g => Sys2Proof.Machine.execCalli k g s
  | .ret g => Sys2Proof.Machine.execRet g s
  | .exit g => Sys2Proof.Machine.execExit g s
  | .yield g => Sys2Proof.Machine.execYield g s
  | .nop g => Sys2Proof.Machine.execNop g s
  | .trap a g => Sys2Proof.Machine.execTrap a g s
  | .brk g => Sys2Proof.Machine.execBrk g s
  | .meetPost sc imm nw d g => Sys2Proof.Machine.execMeetPost sc imm nw d g s
  | .meetAwait sc imm k g => Sys2Proof.Machine.execMeetAwait sc imm k g s
  | .meetJoin sc imm g => Sys2Proof.Machine.execMeetJoin sc imm g s
  | .waitu f => Sys2Proof.Machine.execWaitu f s
  | .wqenter h g => Sys2Proof.Machine.execWqenter h g s
  | .wqwait k h d g => Sys2Proof.Machine.execWqwait k h d g s
  | .wqleave h g => Sys2Proof.Machine.execWqleave h g s
  | .perform f => Sys2Proof.Machine.execPerform f s
  | .hpush f => Sys2Proof.Machine.execHpush f s
  | .hpop g => Sys2Proof.Machine.execHpop g s
  | .resume a k g => Sys2Proof.Machine.execResume a k g s
  | .resumeM a k g => Sys2Proof.Machine.execResumeM a k g s
  | .abandon k g => Sys2Proof.Machine.execAbandon k g s
  | .ade a b cb mode => Sys2Proof.Machine.execAde a b cb mode s
  | .dload cb g => Sys2Proof.Machine.execDload cb g s
  | .drun cb g => Sys2Proof.Machine.execDrun cb g s
  | .coll f => Sys2Proof.Machine.execColl f s
  | .qsend a g => Sys2Proof.Machine.execQsend a g s
  | .qrecv d g => Sys2Proof.Machine.execQrecv d g s
  | .ctFset k g => Sys2Proof.Machine.execCtFset k g s
  | .fclr k g => Sys2Proof.Machine.execFclr k g s
  | .ctFwait k z g => Sys2Proof.Machine.execCtFwait k z g s
  | .gset a k g => Sys2Proof.Machine.execGset a k g s
  | .gclr k g => Sys2Proof.Machine.execGclr k g s
  | .grd k g => Sys2Proof.Machine.execGrd k g s
  | .launch a d g => Sys2Proof.Machine.execLaunch a d g s
  | .tdset k d g => Sys2Proof.Machine.execTdset k d g s
  | .qinit q d g => Sys2Proof.Machine.execQinit q d g s
  | .meetinit sc imm d g => Sys2Proof.Machine.execMeetinit sc imm d g s
  | .ctRdtick d g => Sys2Proof.Machine.execCtRdtick d g s
  | .ctRdid which d g => Sys2Proof.Machine.execCtRdid which d g s
  | .bmake a d g => Sys2Proof.Machine.execBmake a d g s
  | .bseal a d g => Sys2Proof.Machine.execBseal a d g s
  | .bfree a d g => Sys2Proof.Machine.execBfree a d g s
  | .tret k a d g => Sys2Proof.Machine.execTret k a d g s
  | .cxsave d g => Sys2Proof.Machine.execCxsave d g s
  | .cxload a d g => Sys2Proof.Machine.execCxload a d g s
  | .genset d g => Sys2Proof.Machine.execGenset d g s
  | .xinv a d g => Sys2Proof.Machine.execXinv a d g s
  | .rdsr a d g => Sys2Proof.Machine.execRdsr a d g s
  | .wrsr h a nw g => Sys2Proof.Machine.execWrsr h a nw g s
  | .tickstop a d g => Sys2Proof.Machine.execTickstop a d g s
  | .dgrd k a d g => Sys2Proof.Machine.execDgrd k a d g s
  | .halt g => Sys2Proof.Machine.execHalt g s
  | .unassignedEncoding w => Sys2Proof.Machine.execUnassignedEncoding w s
  | .formWarp core => Sys2Proof.Machine.execFormWarp core s
  | .entryAged core ws n => Sys2Proof.Machine.execEntryAged core ws n s
  | .storeLeaveQueue core hw => Sys2Proof.Machine.execStoreLeaveQueue core hw s
  | .homeWrite src => Sys2Proof.Machine.execHomeWrite src s
  | .homeRead n => Sys2Proof.Machine.execHomeRead n s
  | .loadReply core n => Sys2Proof.Machine.execLoadReply core n s
  | .atomicAtHome n => Sys2Proof.Machine.execAtomicAtHome n s
  | .atomicReply n => Sys2Proof.Machine.execAtomicReply n s
  | .staleRejectRetry n => Sys2Proof.Machine.execStaleRejectRetry n s
  | .heldEntryResend core hw => Sys2Proof.Machine.execHeldEntryResend core hw s
  | .errorReply n => Sys2Proof.Machine.execErrorReply n s
  | .waitArrive n => Sys2Proof.Machine.execWaitArrive n s
  | .fallbackSweep stack slice => Sys2Proof.Machine.execFallbackSweep stack slice s
  | .waitDeadline n => Sys2Proof.Machine.execWaitDeadline n s
  | .waitCancel n => Sys2Proof.Machine.execWaitCancel n s
  | .waitReply n => Sys2Proof.Machine.execWaitReply n s
  | .evictedWake n => Sys2Proof.Machine.execEvictedWake n s
  | .stealPromotion n => Sys2Proof.Machine.execStealPromotion n s
  | .stealAck n => Sys2Proof.Machine.execStealAck n s
  | .barrierArrival n => Sys2Proof.Machine.execBarrierArrival n s
  | .staithePut n => Sys2Proof.Machine.execStaithePut n s
  | .staitheDrain n => Sys2Proof.Machine.execStaitheDrain n s
  | .staitheSnapshot n => Sys2Proof.Machine.execStaitheSnapshot n s
  | .staitheNext n => Sys2Proof.Machine.execStaitheNext n s
  | .staitheCount n => Sys2Proof.Machine.execStaitheCount n s
  | .staitheGrow n => Sys2Proof.Machine.execStaitheGrow n s
  | .staitheMake n => Sys2Proof.Machine.execStaitheMake n s
  | .staitheSeal n => Sys2Proof.Machine.execStaitheSeal n s
  | .staitheFree n => Sys2Proof.Machine.execStaitheFree n s
  | .lengthsmanEnter n => Sys2Proof.Machine.execLengthsmanEnter n s
  | .lengthsmanWait n => Sys2Proof.Machine.execLengthsmanWait n s
  | .lengthsmanLeave n => Sys2Proof.Machine.execLengthsmanLeave n s
  | .bagReply n => Sys2Proof.Machine.execBagReply n s
  | .copyAccept core => Sys2Proof.Machine.execCopyAccept core s
  | .copyStart core => Sys2Proof.Machine.execCopyStart core s
  | .copyComplete core n => Sys2Proof.Machine.execCopyComplete core n s
  | .guardResolve core => Sys2Proof.Machine.execGuardResolve core s
  | .matrixAccept core => Sys2Proof.Machine.execMatrixAccept core s
  | .reservationAging quad n => Sys2Proof.Machine.execReservationAging quad n s
  | .groupForm quad n => Sys2Proof.Machine.execGroupForm quad n s
  | .matrixGrant quad => Sys2Proof.Machine.execMatrixGrant quad s
  | .matrixComplete quad n => Sys2Proof.Machine.execMatrixComplete quad n s
  | .adeAccept stack => Sys2Proof.Machine.execAdeAccept stack s
  | .adeStart stack => Sys2Proof.Machine.execAdeStart stack s
  | .adeComplete stack => Sys2Proof.Machine.execAdeComplete stack s
  | .dloadApply seq => Sys2Proof.Machine.execDloadApply seq s
  | .drunStart seq => Sys2Proof.Machine.execDrunStart seq s
  | .delfOperation seq => Sys2Proof.Machine.execDelfOperation seq s
  | .drunComplete seq => Sys2Proof.Machine.execDrunComplete seq s
  | .channelSelfRefresh seq => Sys2Proof.Machine.execChannelSelfRefresh seq s
  | .collStart n => Sys2Proof.Machine.execCollStart n s
  | .collComplete n => Sys2Proof.Machine.execCollComplete n s
  | .collWatchdog n => Sys2Proof.Machine.execCollWatchdog n s
  | .haltStatus rep => Sys2Proof.Machine.execHaltStatus rep s
  | .placeLaunch ctx => Sys2Proof.Machine.execPlaceLaunch ctx s
  | .launchComplete ctx n => Sys2Proof.Machine.execLaunchComplete ctx n s
  | .runaway core ws => Sys2Proof.Machine.execRunaway core ws s
  | .switchRequest core => Sys2Proof.Machine.execSwitchRequest core s
  | .evictWorkgroup core ws => Sys2Proof.Machine.execEvictWorkgroup core ws s
  | .logicalCoreSwitch core => Sys2Proof.Machine.execLogicalCoreSwitch core s
  | .ctTakeEvent core => Sys2Proof.Machine.execCtTakeEvent core s
  | .startRequest ctx lcore => Sys2Proof.Machine.execStartRequest ctx lcore s
  | .removeContext ctx cause => Sys2Proof.Machine.execRemoveContext ctx cause s
  | .removalStep ctx => Sys2Proof.Machine.execRemovalStep ctx s
  | .removalStall ctx => Sys2Proof.Machine.execRemovalStall ctx s
  | .wayQuarantine stack slice way => Sys2Proof.Machine.execWayQuarantine stack slice way s
  | .warmReset die => Sys2Proof.Machine.execWarmReset die s
  | .resetStep die => Sys2Proof.Machine.execResetStep die s
  | .switchoutTimeout die ctx => Sys2Proof.Machine.execSwitchoutTimeout die ctx s
  | .packageFatal cause => Sys2Proof.Machine.execPackageFatal cause s
  | .tickstopFire => Sys2Proof.Machine.execTickstopFire s
  | .counterUpdate => Sys2Proof.Machine.execCounterUpdate s
  | .linkRetrain link => Sys2Proof.Machine.execLinkRetrain link s
  | .linkWatchdog n => Sys2Proof.Machine.execLinkWatchdog n s
  | .peerAccess req => Sys2Proof.Machine.execPeerAccess req s
  | .putWindowWrite fn off data => Sys2Proof.Machine.execPutWindowWrite fn off data s
  | .memoryWindowAccess req => Sys2Proof.Machine.execMemoryWindowAccess req s
  | .interruptPageStore n => Sys2Proof.Machine.execInterruptPageStore n s
  | .unboundVfRequest fn => Sys2Proof.Machine.execUnboundVfRequest fn s
  | .registerPageWrite fn acc => Sys2Proof.Machine.execRegisterPageWrite fn acc s
  | .errorInjectRequest req => Sys2Proof.Machine.execErrorInjectRequest req s
  | .errorInjectFire n => Sys2Proof.Machine.execErrorInjectFire n s
  | .boot => Sys2Proof.Machine.execBoot s
  | .attestation req => Sys2Proof.Machine.execAttestation req s
  | .createContext spec => Sys2Proof.Machine.execCreateContext spec s
  | .assignCore core ctx => Sys2Proof.Machine.execAssignCore core ctx s
  | .tableWrite gfn entry => Sys2Proof.Machine.execTableWrite gfn entry s
  | .bindVf fn ctx => Sys2Proof.Machine.execBindVf fn ctx s
  | .debugResume ctx => Sys2Proof.Machine.execDebugResume ctx s
  | .powerSample => Sys2Proof.Machine.execPowerSample s
  | .droop die => Sys2Proof.Machine.execDroop die s
  | .retainEntry die => Sys2Proof.Machine.execRetainEntry die s
  | .stallSample core => Sys2Proof.Machine.execStallSample core s
  | .scrub place n => Sys2Proof.Machine.execScrub place n s
  | .failedFlit link => Sys2Proof.Machine.execFailedFlit link s
  | .writeAcknowledgement core hw => Sys2Proof.Machine.execWriteAcknowledgement core hw s
  | .remapWrite ctx lcore pcore => Sys2Proof.Machine.execRemapWrite ctx lcore pcore s
  | .sequencerAssign seq ctx => Sys2Proof.Machine.execSequencerAssign seq ctx s
  | .channelSelfRefreshExit seq => Sys2Proof.Machine.execChannelSelfRefreshExit seq s
  | .powerCapSet watts => Sys2Proof.Machine.execPowerCapSet watts s
  | .putSlotBind fn slot addr => Sys2Proof.Machine.execPutSlotBind fn slot addr s

end Sys2Proof.Machine
end

