-- ==== Sys2Proof/Machine/Step.lean ====
section
/-! DEFINITION. One step of the package: a party moves (assumption 4), fetching, decoding and executing one instruction,
or one event of the device happens; and the placing of an instruction where the next step fetches it. -/

namespace Sys2Proof.Machine

/-- The outcome of a step whose part is done. -/
def finishOutcome : Host.Outcome State Fault Refusal → Host.Outcome State Fault Refusal
  | .next s => .next s.finish
  | .fault r => .fault r
  | .refused r => .refused r

/-- The fetched bytes are decoded and executed; bytes that hold no instruction trap (R53). -/
def stepBytes (bytes : List Byte) (s : State) : Host.Outcome State Fault Refusal :=
  match decode bytes with
  | .ok (i, _) => exec i s
  | .error _ => exec (.unassignedEncoding (fetchedWord bytes)) s

/-- The part of an issue context: it fetches and issues its next instruction, or waits. -/
def vecTurn (c k : Nat) (s : State) : Host.Outcome State Fault Refusal :=
  match s.vecPc c k with
  | none => .next s
  | some (x, pc) =>
    match s.fetch c x pc with
    | .absent => .next (s.fetchTrapVec c k trapADDR)
    | .poisoned a s => .next (s.fetchTrapVec c k trapPOISON a)
    | .code bytes s => stepBytes bytes s

/-- The part of a control thread. -/
def ctTurn (c : Nat) (s : State) : Host.Outcome State Fault Refusal :=
  match s.ctPc c with
  | none => .next s
  | some (x, pc) =>
    match s.fetch c x pc with
    | .absent => .next (s.fetchTrapCt c trapADDR)
    | .poisoned a s => .next (s.fetchTrapCt c trapPOISON a)
    | .code bytes s => stepBytes bytes s

/-- An issue context's next instruction would issue: its warp's record changes. -/
def State.ready (s : State) (c k : Nat) : Bool :=
  match vecTurn c k { s with issuer := some (.vec c k) } with
  | .next t => (t.core c).warp k != (s.core c).warp k
  | _ => false

/-- A context's warp has issued less recently than another's, ties to the lower number (R22). -/
def Core.issuesBefore (y : Core) (j k : Nat) : Bool :=
  match y.warp j, y.warp k with
  | some v, some w => decide (v.last.toNat < w.last.toNat) || (v.last == w.last && decide (j < k))
  | _, _ => false

/-- A party may take its part now: a sequencer, a control thread and the forming of warps act once a tick, and of a core's contexts whose
instruction is ready the one that issued least recently goes (R22, R207). -/
def State.mayMove (s : State) (m : Turn) : Bool :=
  match m with
  | .vec c k => SMap.get none c s.issuedAt != some s.tick &&
      (List.range 8).all (fun j => !((s.core c).issuesBefore j k && s.ready c j))
  | .ct c => SMap.get none c s.ctAt != some s.tick
  | .event (.formWarp c) => SMap.get none c s.formedAt != some s.tick
  | .event _ => true

/-- The part of the mover. -/
def stepTurn (s : State) : Host.Outcome State Fault Refusal :=
  match s.issuer with
  | some m =>
    if !s.mayMove m then .next s
    else match m with
      | .vec c k => vecTurn c k s
      | .ct c => ctTurn c s
      | .event e => exec e (s.probed State.ready e)
  | none => .next s

/-- The tick of what has issued or formed is noted: `s` is the state the part began in. -/
def State.noted (s t : State) : State :=
  match s.issuer with
  | some (.vec c k) => if (t.core c).warp k = (s.core c).warp k then t else { t with issuedAt := SMap.set none c (some s.tick) t.issuedAt }
  | some (.ct c) => if (t.core c).ct.cur = (s.core c).ct.cur then t else { t with ctAt := SMap.set none c (some s.tick) t.ctAt }
  | some (.event (.formWarp c)) =>
    if (t.core c).warps = (s.core c).warps then t else { t with formedAt := SMap.set none c (some s.tick) t.formedAt }
  | _ => t

/-- The outcome of a part that began in a state: a write that must wait for a sweep has not happened (R188), and threads that came to be held at a
lane exchange are noted (R172). -/
def notedOutcome (s : State) : Host.Outcome State Fault Refusal → Host.Outcome State Fault Refusal
  | .next t =>
    let t := s.unlessFull t
    .next ((t.cores.map (·.1)).foldl State.noteHeld (s.noted t))
  | .fault r => .fault r
  | .refused r => .refused r

/-- One step. With every clock gated none exists but a cold reset (R2, R340, R355, R376). -/
def step (s : State) : Host.Outcome State Fault Refusal :=
  if s.stopped && s.mover != .event .boot then .fault .clocksStopped
  else finishOutcome (notedOutcome s.begin (stepTurn s.begin))

/-! ### Placing an instruction (assumption 9) -/

/-- The virtual address at which `withFetchWord` places an instruction. -/
def placedPc : DWord := 0x10000

/-- The physical address of its page. -/
def placedPa : Nat := 0x1000000

/-- The page of the placed instruction mapped for context 1 in the inverted table, the table and the anchors where no
frame of data overlaps them (R307, R308, R310). -/
def State.withCodePage (s : State) : State :=
  let s := { s with fellos := SMap.set 16 2 16 (SMap.set 0 1 0xC00000 (SMap.set 0 0 0 s.fellos)) }
  let i := anchorHash 16 1 placedPc
  let e := s.entryAddr (gfnOf placedPa)
  let w1 : Word := BitVec.ofNat 32 (2 ^ 20 + (s.ctx 1).gen.toNat * 16)
  let m := s.mem.setWord (i % 16 * stackBytes + 0xC00000 + 4 * (i / 16)) (BitVec.ofNat 32 (gfnOf placedPa))
  let m := (((m.setWord e (BitVec.ofNat 32 (vpageOf placedPc))).setWord (e + 4) w1).setWord (e + 8)
    (BitVec.ofNat 32 (noFrame * 64))).setWord (e + 12) 0x907
  { s with mem := m }

/-- Core 0 ready to issue in context 1: a formed warp of one thread, and its control thread in supervisor mode. -/
def State.withIssuer (s : State) : State :=
  let s := s.modCtx 1 fun x => { x with alive := true, removed := false, removal := 0, halted := false }
  let t : Thread := { live := true, pc := placedPc }
  let g : Workgroup := { ctx := 1, launch := 0, stage := 0, index := 0, warps := 1, hw := 0, nregs := 64, prio := 0,
                         started := true, threads := [(0, t)] }
  let w : Warp := { ws := 0, lanes := [(0, some 0)], run := 0, latches := [], last := 0 }
  let s := s.modCore 0 fun y => { ((y.setWg 0 (some g)).setWarp 0 (some w)) with
    owner := some 1, lcore := some 0, loads := [], queues := [], tlb := [], code := [],
    ct := { y.ct with cur := { run := .supervisor, super := true, pc := placedPc } } }
  s.modDie 0 fun d => { d with tlb := [] }

/-- The state with an instruction of `nbits` bits `w` placed where the next step fetches: on the control thread of core 0
for the majors valid in the control stream only, else on issue context 0 of core 0. -/
def State.withFetchWord (s : State) (nbits w : Nat) : State :=
  let w := w % 2 ^ nbits
  let s := s.withIssuer.withCodePage.flushRange placedPa 128
  let ctl := w % 2 == 1 && (w / 2 % 128 == 0x7C || w / 2 % 128 == 0x7D)
  { s with mem := s.mem.setWord placedPa (BitVec.ofNat 32 w), dramBad := s.dramBad.filter (· ≠ placedPa), dramFlip := s.dramFlip.filter (fun kv => kv.1 / 64 ≠ placedPa / 64), stopped := false,
           armed := none, issuedAt := SMap.set none 0 none s.issuedAt, ctAt := SMap.set none 0 none s.ctAt, turn := some (if ctl then .ct 0 else .vec 0 0) }

end Sys2Proof.Machine
end

