-- ==== Sys2Proof/Safety.lean ====
section
/-! DEFINITION. What counts as a safe run: one that no fault or refusal stops. -/

namespace Sys2Proof

/-- The machine takes n steps from a state. -/
def runs (n : Nat) (s : Machine.State) : Prop := ∃ t, core.run n s = .next t

/-- A state from which no run stops. -/
def safe (s : Machine.State) : Prop := ∀ n, runs n s

end Sys2Proof
end

