-- ==== Sys2Proof/Claims.lean ====
section
/-! DEFINITION. The vocabulary of the statements: when an instruction issues in either stream, and what an instruction that completes leaves
as it was. -/

namespace Sys2Proof.Claims

open Sys2Proof.Machine

/-- The instruction answers a next state, of which P holds. -/
def Completes (i : Instr) (s : State) (P : State → Prop) : Prop := ∃ t, exec i s = .next t ∧ P t

/-- The instruction issues for a formed warp (R53): its context may issue, no effect or trap is owed, its fields and allocation are right,
no result in flight concerns it, and no latch it reads is void. -/
def readyVec (s : State) (e : Env) (i : Instr) (u : Uses) : Bool :=
  s.issuer == some (.vec e.c e.k) && s.env e.c e.k == some e && s.mayIssue e.c && e.g.state == .resident && e.owing.isEmpty &&
  Instr.wf .vec i && u.regs.all (fun r => decide (r < e.g.nregs)) && !e.waits u &&
  (e.issueSet u.g).all (fun l => (e.captured l).isSome || u.lat.all (fun b => (e.latch l b).isSome))

/-- The instruction issues for a control thread (R53): it may issue, no effect or trap is owed, supervisor mode where it is privileged, its
fields are right, a pending guard meets an engine command, no result in flight concerns it, and its guard flag is true. -/
def readyCt (s : State) (e : CEnv) (i : Instr) (u : Uses) : Bool :=
  s.issuer == some (.ct e.c) && s.cenv e.c == e && s.mayIssue e.c && e.r.run != .idle && e.r.park == .none && e.r.poison.isNone &&
  e.r.effect.isNone && (!isSys i || e.r.super) && Instr.wf .ctl i && (e.r.grd.isNone || isEngineCommand i) && !e.waits u && e.guard u.g

/-- Nothing but cores differs, and of those only the core named (frames: memory, caches, contexts, engines, links, power are as before). -/
def OnlyCore (s t : State) (c : Nat) : Prop := t = { s with cores := t.cores } ∧ ∀ j, j ≠ c → t.core j = s.core j

/-- Every byte of memory reads as before, at its home and in DRAM. -/
def MemKept (s t : State) : Prop := (∀ a, t.mem.read a = s.mem.read a) ∧ ∀ a, t.homeWord a = s.homeWord a

/-- Of a core, only registers, issue context k, the threads and frontier of workgroup slot ws, and whether a pending result of context k still
delivers to its latch, may differ. -/
structure WarpOnly (y z : Core) (k ws : Nat) : Prop where
  core : z = { y with regs := z.regs, warps := z.warps, wgs := z.wgs, loads := z.loads }
  warps : ∀ j, j ≠ k → z.warp j = y.warp j
  wgs : ∀ j, j ≠ ws → z.wg j = y.wg j
  wg : ∀ g, y.wg ws = some g → ∃ g', z.wg ws = some g' ∧ g' = { g with threads := g'.threads, frontier := g'.frontier }
  loads : z.loads = y.loads ∨ z.loads = y.loads.map (fun p => if p.warp = some k then { p with warp := none } else p)

/-- The instruction stays where it is, to issue again; nothing has changed but that results in the warp's pipes have been written. -/
structure Waits (s t : State) (e : Env) : Prop where
  core : t.core e.c = { s.core e.c with warps := (t.core e.c).warps }
  warps : ∀ j, j ≠ e.k → (t.core e.c).warp j = (s.core e.c).warp j
  warp : ∃ w, (t.core e.c).warp e.k = some w ∧ w = { e.w with flights := w.flights }
  only : OnlyCore s t e.c
  mem : MemKept s t

/-- The threads of a warp stand after the instruction, all else of them kept; every other thread of the core is as before. -/
def ThreadsAt (s t : State) (e : Env) (len : Nat) : Prop :=
  (∀ l ∈ e.lanes, t.thread e.c e.ws l.tid =
    { s.thread e.c e.ws l.tid with pc := pc48 (e.pc + BitVec.ofNat 64 len), watched := false, capture := none }) ∧
  ∀ ws tid, (ws ≠ e.ws ∨ ∀ l ∈ e.lanes, l.tid ≠ tid) → t.thread e.c ws tid = s.thread e.c ws tid

/-- The register at a place after the lanes of a set have written: the write of the lane there, else what it held. -/
def regAfter (s : State) (c : Nat) (set : List Lane) (f : Lane → List (Nat × Word)) (hw k lane : Nat) : Word :=
  ((set.find? (fun l => l.hw == hw && l.lane == lane)).bind (fun l => (f l).lookup k)).getD ((s.core c).reg hw k lane)

/-- Latch j of a lane after the lanes of a set have delivered to latch b (R45): the delivered value, else what it held. -/
def latchAfter (e : Env) (set : List Lane) (b : Nat) (f : Lane → Word) (j lane : Nat) : Latch :=
  if j = b then ((set.find? (fun l => l.lane == lane)).map (fun l => some (f l))).getD (SMap.get none (j * 32 + lane) e.w.latches)
  else SMap.get none (j * 32 + lane) e.w.latches

/-- The latches of the warp, if it still stands after the instruction. -/
def LatchesAt (t : State) (e : Env) (set : List Lane) (b : Nat) (f : Lane → Word) : Prop :=
  ∀ w, (t.core e.c).warp e.k = some w → ∀ j lane, lane < 32 → SMap.get none (j * 32 + lane) w.latches = latchAfter e set b f j lane

/-- An instruction of the vector stream has written registers and latch b for the lanes of its issue set, and the warp has gone on;
nothing else changed. -/
structure LaneDone (s t : State) (e : Env) (set : List Lane) (b len : Nat) (f : Lane → List (Nat × Word) × Word) : Prop where
  regs : ∀ hw k lane, k < 64 → lane < 32 → (t.core e.c).reg hw k lane = regAfter s e.c set (fun l => (f l).1) hw k lane
  latch : LatchesAt t e set b (fun l => (f l).2)
  threads : ThreadsAt s t e len
  rest : WarpOnly (s.core e.c) (t.core e.c) e.k e.ws
  only : OnlyCore s t e.c
  mem : MemKept s t

/-- An instruction of the vector stream has written predicate p and latch b0 for the lanes of its issue set, and the warp has gone on;
nothing else changed. A thread stands at one lane (R15). -/
structure PredDone (s t : State) (e : Env) (set : List Lane) (p : Nat) (f : Lane → Bool) : Prop where
  regs : (t.core e.c).regs = (s.core e.c).regs
  latch : LatchesAt t e set 0 (fun l => boolWord (f l))
  threads : ∀ l ∈ e.lanes, (∀ m ∈ e.lanes, m.tid = l.tid → m = l) → t.thread e.c e.ws l.tid =
    { (if l ∈ set then (s.thread e.c e.ws l.tid).setPred p (f l) else s.thread e.c e.ws l.tid) with
      pc := pc48 (e.pc + 4), watched := false, capture := none }
  others : ∀ ws tid, (ws ≠ e.ws ∨ ∀ l ∈ e.lanes, l.tid ≠ tid) → t.thread e.c ws tid = s.thread e.c ws tid
  rest : WarpOnly (s.core e.c) (t.core e.c) e.k e.ws
  only : OnlyCore s t e.c
  mem : MemKept s t

/-- An instruction of the control stream has written one register, and the thread has gone on; nothing else changed. -/
structure CtDone (s t : State) (e : CEnv) (len d : Nat) (v : DWord) : Prop where
  core : t.core e.c = { s.core e.c with ct := { (s.core e.c).ct with
    cur := { (e.r.setReg d v) with pc := pc48 (e.r.pc + BitVec.ofNat 64 len), grd := none, waited := false, watched := false, begun := true } } }
  only : OnlyCore s t e.c
  mem : MemKept s t

/-- The control thread has gone on after an instruction whose registers r now are (R164, R375). -/
def ctNext (e : CEnv) (r : CtRegs) (len : Nat) : CtRegs :=
  { r with pc := pc48 (e.r.pc + BitVec.ofNat 64 len), grd := none, waited := false, watched := false, begun := true }

/-- A core's workgroups and their threads are kept in canonical form, and no live thread of one that is trapped or evicted waits at a park that
a test picks. -/
def noneAway (s : State) (c : Nat) (p : Park → Bool) : Prop :=
  SMap.wf none (s.core c).wgs = true ∧ ∀ ws g, (s.core c).wg ws = some g → SMap.wf {} g.threads = true ∧
    (g.state ≠ .resident → ∀ tid, (g.thread tid).live = true → p (g.thread tid).park = false)

/-- A live thread that waits at a park that a test picks leaves it, past its wait where `mark` says so; every other stays as it is (R122, R171). -/
def leftPark (p : Park → Bool) (mark : Bool) (x : Thread) : Thread :=
  if x.live && p x.park then
    { x with park := .none, woken := false, capture := if mark then some { pc := x.pc, words := [] } else x.capture } else x

/-- An instruction of the control stream has written flag p, and the thread has gone on; threads that wait for the flag's value leave their
wait, and nothing else changed (R122, R210). -/
structure FlagDone (s t : State) (e : CEnv) (p : Nat) (v : Bool) : Prop where
  flags : (t.core e.c).flags = ((s.core e.c).setFlag p v).flags
  ct : (t.core e.c).ct = { (s.core e.c).ct with cur := ctNext e e.r 4 }
  threads : ∀ ws tid, t.thread e.c ws tid = leftPark (Park.awaitsFlag p v) true (s.thread e.c ws tid)
  core : t.core e.c = { s.core e.c with flags := (t.core e.c).flags, ct := (t.core e.c).ct, wgs := (t.core e.c).wgs }
  only : OnlyCore s t e.c
  mem : MemKept s t

/-- Instructions with a guard that the control stream has (R40, R49). -/
def guardedCt (f : RForm) (u : UForm) (m : CmpForm) (n : PlogForm) (o : PlogUForm) (b : CwaitForm) (r : CtestForm) (a k : BitVec 7) (d : BitVec 6) (j : BitVec 4) (fl : BitVec 5) (z : BitVec 1) (w : BitVec 3)
    (off : BitVec 21) (g : BitVec 3) : List (Instr × BitVec 3) :=
  [(.addI32 f, f.g), (.subI32 f, f.g), (.mulI32 f, f.g), (.mulhiI32 f, f.g), (.mulhiN32 f, f.g), (.madI32 f, f.g), (.minI32 f, f.g), (.maxI32 f, f.g),
   (.minN32 f, f.g), (.maxN32 f, f.g), (.and f, f.g), (.or f, f.g), (.xor f, f.g), (.andn f, f.g), (.shl f, f.g), (.shrN32 f, f.g), (.shrI32 f, f.g),
   (.rotl f, f.g), (.bfeN32 f, f.g), (.bfeI32 f, f.g), (.bfi f, f.g)] ++
  [(.cmpI32 m, m.g), (.cmpN32 m, m.g), (.mov u, u.g), (.not u, u.g), (.neg u, u.g), (.abs u, u.g), (.popc u, u.g), (.clz u, u.g), (.ctz u, u.g),
   (.brev u, u.g), (.sextW8 u, u.g), (.sextW16 u, u.g), (.zextW8 u, u.g), (.zextW16 u, u.g), (.pget z d g, g), (.pset a g, g),
   (.pand n, n.g), (.por n, n.g), (.pxor n, n.g), (.pandn n, n.g), (.pnot o, o.g), (.pmov o, o.g), (.cwait b, b.g), (.ctest r, r.g)] ++
  [(.fence w g, g), (.acqSteal w a g, g), (.pgreq k d g, g), (.prefetch w k g, g), (.wbspan w k d g, g), (.invspan k d g, g), (.qpop j z d g, g),
   (.qrel j g, g), (.qstat j z d g, g), (.cclr j g, g), (.bcount j z d g, g), (.bshare j z d g, g), (.biter j z d g, g), (.bnext k z d g, g),
   (.bdrain k z d g, g), (.bgrow j d g, g)] ++
  [(.bra off g, g), (.call off g, g), (.jmpi k g, g), (.calli k g, g), (.ret g, g), (.exit g, g), (.yield g, g), (.nop g, g), (.trap a g, g), (.brk g, g),
   (.meetPost w j z d g, g), (.meetAwait w j d g, g), (.meetJoin w j g, g), (.dload j g, g), (.drun j g, g), (.qsend a g, g), (.qrecv d g, g)] ++
  [(.ctFset fl g, g), (.fclr fl g, g), (.ctFwait fl z g, g), (.gset a j g, g), (.gclr j g, g), (.grd j g, g), (.launch a d g, g), (.tdset k d g, g),
   (.qinit j d g, g), (.meetinit w j d g, g), (.ctRdtick d g, g), (.ctRdid w d g, g), (.bmake a d g, g), (.bseal a d g, g), (.bfree a d g, g)] ++
  [(.tret w a d g, g), (.cxsave d g, g), (.cxload a d g, g), (.genset d g, g), (.xinv a d g, g), (.rdsr a d g, g), (.wrsr z a d g, g),
   (.tickstop a d g, g), (.dgrd w a d g, g), (.halt g, g)]

/-- A control thread stands before an instruction that it may issue, with no result in flight, and its guard flag is false (R54). -/
def skipsCt (s : State) (e : CEnv) (i : Instr) (g : BitVec 3) : Prop :=
  s.issuer = some (.ct e.c) ∧ s.cenv e.c = e ∧ s.mayIssue e.c = true ∧ e.r.run ≠ .idle ∧ e.r.park = .none ∧ e.r.poison = none ∧ e.r.effect = none ∧
  (isSys i = true → e.r.super = true) ∧ Instr.wf .ctl i = true ∧ (e.r.grd = none ∨ isEngineCommand i = true) ∧
  (∀ p ∈ e.cr.loads, p.warp ≠ some e.r.tag) ∧ e.guard g = false

/-- An instruction of both streams that writes one register: its value in each stream. The warp's latch is b, its length `len`. -/
def OneRegister (s : State) (i : Instr) (u : Uses) (b len : Nat) (n : BitVec 1) (d : BitVec 6) (v : Env → Lane → Word) (w : CEnv → DWord) : Prop :=
  (∀ e, readyVec s e i u = true → Completes i s (fun t => LaneDone s t e (e.issueSet u.g) b len (fun l => (oneReg n d (v e l), v e l)))) ∧
  (∀ e, readyCt s e i u = true → Completes i s (fun t => CtDone s t e len d.toNat (w e)))

/-- An instruction of the vector stream that writes one register. -/
def OneLane (s : State) (i : Instr) (u : Uses) (b len : Nat) (n : BitVec 1) (d : BitVec 6) (v : Env → Lane → Word) : Prop :=
  ∀ e, readyVec s e i u = true → Completes i s (fun t => LaneDone s t e (e.issueSet u.g) b len (fun l => (oneReg n d (v e l), v e l)))

/-- An instruction of both streams that writes one predicate or flag. -/
def OneBit (s : State) (i : Instr) (u : Uses) (n : BitVec 1) (p : BitVec 3) (v : Env → Lane → Bool) (w : CEnv → Bool) : Prop :=
  (∀ e, readyVec s e i u = true → Completes i s (fun t => PredDone s t e (e.issueSet u.g) (if n = 0 then p.toNat else 0) (v e))) ∧
  (∀ e, readyCt s e i u = true → noneAway s e.c (Park.awaitsFlag p.toNat (w e)) → Completes i s (fun t => FlagDone s t e p.toNat (w e)))

/-! ### Integer operations as the spec writes them (R56, R60, R62) -/

/-- An operation on two operands at either width. -/
abbrev Op2 := (w : Nat) → BitVec w → BitVec w → BitVec w

/-- An operation on three operands at either width: the old d, sA, sB. -/
abbrev Op3 := (w : Nat) → BitVec w → BitVec w → BitVec w → BitVec w

/-- An operation on one operand at either width. -/
abbrev Op1 := (w : Nat) → BitVec w → BitVec w

/-- The field of R60 in sB: its position and effective width (pos is sB mod the width; the length has one bit more at 64 bits, R208). -/
def fieldAt {w : Nat} (b : BitVec w) : Nat × Nat :=
  let pos := b.toNat % w
  let len := b.toNat / 256 % (if w = 64 then 128 else 64)
  (pos, min (min len w) (w - pos))

/-- The 16-bit forms on integers with their results (R38): sA is the old d. -/
def halfTable (f : HForm) : List (Instr × Op2) := [
  (.mov16 f, fun _ _ b => b),
  (.addI3216 f, fun w a b => BitVec.ofInt w (a.toInt + b.toInt)),
  (.subI3216 f, fun w a b => BitVec.ofInt w (a.toInt - b.toInt)),
  (.mulI3216 f, fun w a b => BitVec.ofInt w (a.toInt * b.toInt)),
  (.and16 f, fun _ a b => a &&& b),
  (.or16 f, fun _ a b => a ||| b),
  (.xor16 f, fun _ a b => a ^^^ b),
  (.shl16 f, fun w a b => BitVec.ofNat w (a.toNat * 2 ^ (b.toNat % w))),
  (.shrN3216 f, fun w a b => BitVec.ofNat w (a.toNat / 2 ^ (b.toNat % w))),
  (.shrI3216 f, fun w a b => BitVec.ofInt w (a.toInt / 2 ^ (b.toNat % w)))]

/-- The two-source instructions of R56 and R60 with their results. -/
def twoTable (f : RForm) : List (Instr × Op2) := [
  (.addI32 f, fun w a b => BitVec.ofInt w (a.toInt + b.toInt)),
  (.subI32 f, fun w a b => BitVec.ofInt w (a.toInt - b.toInt)),
  (.mulI32 f, fun w a b => BitVec.ofInt w (a.toInt * b.toInt)),
  (.mulhiI32 f, fun w a b => BitVec.ofInt w (a.toInt * b.toInt / 2 ^ w)),
  (.mulhiN32 f, fun w a b => BitVec.ofNat w (a.toNat * b.toNat / 2 ^ w)),
  (.minI32 f, fun _ a b => if a.toInt ≤ b.toInt then a else b),
  (.maxI32 f, fun _ a b => if a.toInt ≤ b.toInt then b else a),
  (.minN32 f, fun _ a b => if a.toNat ≤ b.toNat then a else b),
  (.maxN32 f, fun _ a b => if a.toNat ≤ b.toNat then b else a),
  (.and f, fun _ a b => a &&& b),
  (.or f, fun _ a b => a ||| b),
  (.xor f, fun _ a b => a ^^^ b),
  (.andn f, fun _ a b => a &&& ~~~b),
  (.shl f, fun w a b => BitVec.ofNat w (a.toNat * 2 ^ (b.toNat % w))),
  (.shrN32 f, fun w a b => BitVec.ofNat w (a.toNat / 2 ^ (b.toNat % w))),
  (.shrI32 f, fun w a b => BitVec.ofInt w (a.toInt / 2 ^ (b.toNat % w))),
  (.rotl f, fun w a b => BitVec.ofNat w (a.toNat * 2 ^ (b.toNat % w) + a.toNat / 2 ^ (w - b.toNat % w))),
  (.bfeN32 f, fun w a b => BitVec.ofNat w (a.toNat / 2 ^ (fieldAt b).1 % 2 ^ (fieldAt b).2)),
  (.bfeI32 f, fun w a b => BitVec.ofInt w (BitVec.ofNat (fieldAt b).2 (a.toNat / 2 ^ (fieldAt b).1)).toInt)]

/-- The instructions that read the old d (R56, R60). -/
def threeTable (f : RForm) : List (Instr × Op3) := [
  (.madI32 f, fun w d a b => BitVec.ofInt w (d.toInt + a.toInt * b.toInt)),
  (.bfi f, fun w d a b =>
    let m := (2 ^ (fieldAt b).2 - 1) * 2 ^ (fieldAt b).1
    (d &&& ~~~BitVec.ofNat w m) ||| (BitVec.ofNat w (a.toNat * 2 ^ (fieldAt b).1) &&& BitVec.ofNat w m))]

/-- The 64-bit pair instructions (R57): the old d, sA, sB. -/
def pairTable (f : RForm) : List (Instr × Bool × (DWord → DWord → DWord → DWord)) := [
  (.add64 f, false, fun _ a b => BitVec.ofNat 64 (a.toNat + b.toNat)),
  (.sub64 f, false, fun _ a b => BitVec.ofInt 64 (a.toInt - b.toInt)),
  (.mad64 f, true, fun d a b => BitVec.ofNat 64 (d.toNat + a.toNat * b.toNat))]

/-- The one-source instructions of R62. -/
def oneTable (f : UForm) : List (Instr × Op1) := [
  (.mov f, fun _ a => a),
  (.not f, fun w a => BitVec.ofInt w (-1 - a.toInt)),
  (.neg f, fun w a => BitVec.ofInt w (-a.toInt)),
  (.abs f, fun w a => BitVec.ofInt w (if 0 ≤ a.toInt then a.toInt else -a.toInt)),
  (.popc f, fun w a => BitVec.ofNat w ((List.range w).filter (fun i => a.getLsbD i)).length),
  (.clz f, fun w a => BitVec.ofNat w ((List.range w).takeWhile (fun i => a.getMsbD i == false)).length),
  (.ctz f, fun w a => BitVec.ofNat w ((List.range w).takeWhile (fun i => a.getLsbD i == false)).length),
  (.brev f, fun _ a => a.reverse),
  (.sextW8 f, fun w a => BitVec.ofInt w (BitVec.ofNat 8 a.toNat).toInt),
  (.sextW16 f, fun w a => BitVec.ofInt w (BitVec.ofNat 16 a.toNat).toInt),
  (.zextW8 f, fun w a => BitVec.ofNat w (a.toNat % 256)),
  (.zextW16 f, fun w a => BitVec.ofNat w (a.toNat % 65536))]

/-- The predicate operations of two sources (R65). -/
def plogTable (f : PlogForm) : List (Instr × (Bool → Bool → Bool)) := [
  (.pand f, fun a b => a && b), (.por f, fun a b => a || b), (.pxor f, fun a b => a != b), (.pandn f, fun a b => a && !b)]

/-- The predicate operations of one source (R65). -/
def plogTableU (f : PlogUForm) : List (Instr × (Bool → Bool)) := [(.pnot f, fun a => !a), (.pmov f, fun a => a)]

/-- The conditions of R58 by code, on integers. -/
def intHolds (c : Nat) (a b : Int) : Bool :=
  match c with
  | 0 => decide (a = b)
  | 1 => decide (a ≠ b)
  | 2 => decide (a < b)
  | 3 => decide (a ≤ b)
  | 4 => decide (b < a)
  | _ => decide (b ≤ a)

/-! ### Floating point (R242-R254): instructions with their operand type, latch, and result on patterns -/

/-- The 16-bit float forms (R38, R242): a is the old d. -/
def floatHalfTable (f : HForm) : List (Instr × (Nat → Nat → Nat)) := [
  (.addF3216 f, Fmt.f32.add), (.subF3216 f, Fmt.f32.sub), (.mulF3216 f, Fmt.f32.mul), (.minF3216 f, Fmt.f32.min), (.maxF3216 f, Fmt.f32.max)]

/-- The two-source float instructions (R242, R246, R247). -/
def floatTable (f : RForm) : List (Instr × ImmTy × Nat × (Nat → Nat → Nat)) := [
  (.addF32 f, .f32, 1, Fmt.f32.add), (.subF32 f, .f32, 1, Fmt.f32.sub), (.mulF32 f, .f32, 1, Fmt.f32.mul), (.minF32 f, .f32, 1, Fmt.f32.min),
  (.maxF32 f, .f32, 1, Fmt.f32.max), (.divF32 f, .f32, 2, Fmt.f32.div),
  (.addH2 f, .f16, 1, fun a b => Fmt.f16.add (a % 65536) (b % 65536) + 65536 * Fmt.f16.add (a / 65536) (b / 65536)),
  (.mulH2 f, .f16, 1, fun a b => Fmt.f16.mul (a % 65536) (b % 65536) + 65536 * Fmt.f16.mul (a / 65536) (b / 65536)),
  (.addBh2 f, .bf16, 1, fun a b => Fmt.bf16.add (a % 65536) (b % 65536) + 65536 * Fmt.bf16.add (a / 65536) (b / 65536)),
  (.mulBh2 f, .bf16, 1, fun a b => Fmt.bf16.mul (a % 65536) (b % 65536) + 65536 * Fmt.bf16.mul (a / 65536) (b / 65536)),
  (.dot2H f, .f16, 1, fun a b => Fmt.f16.dot2 (a % 65536) (a / 65536) (b % 65536) (b / 65536)),
  (.dot2Bh f, .bf16, 1, fun a b => Fmt.bf16.dot2 (a % 65536) (a / 65536) (b % 65536) (b / 65536))]

/-- The fused instructions (R243, R246): a, b and the old d. -/
def fusedTable (f : RForm) : List (Instr × ImmTy × (Nat → Nat → Nat → Nat)) := [
  (.fmaF32 f, .f32, Fmt.f32.fma),
  (.fmaH2 f, .f16, fun a b c => Fmt.f16.fma (a % 65536) (b % 65536) (c % 65536) + 65536 * Fmt.f16.fma (a / 65536) (b / 65536) (c / 65536)),
  (.fmaBh2 f, .bf16, fun a b c => Fmt.bf16.fma (a % 65536) (b % 65536) (c % 65536) + 65536 * Fmt.bf16.fma (a / 65536) (b / 65536) (c / 65536))]

/-- The fun group (R249-R251). -/
def floatOneTable (f : UForm) : List (Instr × (Nat → Nat)) := [
  (.negF32 f, Fmt.f32.neg), (.absF32 f, Fmt.f32.abs), (.rintNeF32 f, Fmt.f32.rint .ne), (.rintZF32 f, Fmt.f32.rint .z),
  (.rintUpF32 f, Fmt.f32.rint .up), (.rintDnF32 f, Fmt.f32.rint .dn), (.rcpF32 f, rcpBits), (.rsqrtF32 f, rsqrtBits), (.sqrtF32 f, sqrtBits),
  (.exp2F32 f, exp2Bits), (.log2F32 f, log2Bits), (.sinF32 f, radianBits false), (.cosF32 f, radianBits true), (.sinpiF32 f, piBits false),
  (.cospiF32 f, piBits true), (.fclassF32 f, fclassBits)]

/-- The cvt group (R253): the operand type of the source, and the result in a rounding mode. -/
def cvtTable (f : CvtForm) : List (Instr × ImmTy × (Rnd → Word → Word)) := [
  (.cvtF16F32 f, .f32, fun r a => BitVec.ofNat 32 (Fmt.f16.pack r (Fmt.f32.unpack a.toNat))),
  (.cvtBf16F32 f, .f32, fun r a => BitVec.ofNat 32 (Fmt.bf16.pack r (Fmt.f32.unpack a.toNat))),
  (.cvtF32F16 f, .f16, fun _ a => BitVec.ofNat 32 (Fmt.f32.pack .ne (Fmt.f16.unpack (a.toNat % 65536)))),
  (.cvtF32Bf16 f, .bf16, fun _ a => BitVec.ofNat 32 (Fmt.f32.pack .ne (Fmt.bf16.unpack (a.toNat % 65536)))),
  (.cvtI32F32 f, .f32, fun r a => BitVec.ofInt 32 ((Fmt.f32.unpack a.toNat).toInt r (-2147483648) 2147483647)),
  (.cvtN32F32 f, .f32, fun r a => BitVec.ofInt 32 ((Fmt.f32.unpack a.toNat).toInt r 0 4294967295)),
  (.cvtF32I32 f, .int, fun r a => BitVec.ofNat 32 (Fmt.f32.pack r (FVal.ofInt a.toInt))),
  (.cvtF32N32 f, .int, fun r a => BitVec.ofNat 32 (Fmt.f32.pack r (FVal.ofInt a.toNat))),
  (.cvtI8F32 f, .f32, fun r a => BitVec.ofInt 32 ((Fmt.f32.unpack a.toNat).toInt r (-128) 127)),
  (.cvtF32I8 f, .int, fun _ a => BitVec.ofNat 32 (Fmt.f32.pack .ne (FVal.ofInt (BitVec.ofNat 8 a.toNat).toInt))),
  (.cvtI8I32 f, .int, fun _ a => BitVec.ofInt 32 (if a.toInt < -128 then -128 else if 127 < a.toInt then 127 else a.toInt)),
  (.cvtBf16F16 f, .f16, fun r a => BitVec.ofNat 32 (Fmt.bf16.pack r (Fmt.f16.unpack (a.toNat % 65536)))),
  (.cvtF16Bf16 f, .bf16, fun r a => BitVec.ofNat 32 (Fmt.f16.pack r (Fmt.bf16.unpack (a.toNat % 65536))))]

/-- The decoders and encoders of DS8 and DS4 (R254): the result from the code table, the block scale and sA. -/
def dsdecTable (f : DsdecForm) : List (Instr × (Word → Nat → Nat → Nat)) := [
  (.dsdecDs8 f, fun codes scale a => Fmt.f32.pack .ne (dsValue false codes scale (a / 2 ^ (8 * f.b.toNat) % 256))),
  (.dsdecDs4 f, fun codes scale a => Fmt.f32.pack .ne (dsValue true codes scale (a / 2 ^ (4 * f.b.toNat) % 16)))]

/-- See `dsdecTable`. -/
def dsencTable (f : DsencForm) : List (Instr × (Word → Nat → Nat → Nat)) := [
  (.dsencDs8 f, fun codes scale a => dsEncode false codes scale a % 256),
  (.dsencDs4 f, fun codes scale a => dsEncode true codes scale a % 256)]

/-- A pattern of a format is a NaN (R225). -/
def patternNaN (f : Fmt) (p : Nat) : Prop := p / 2 ^ f.mb % 2 ^ f.eb = 2 ^ f.eb - 1 ∧ p % 2 ^ f.mb ≠ 0

/-- A pattern of a format is an infinity. -/
def patternInf (f : Fmt) (p : Nat) : Prop := p / 2 ^ f.mb % 2 ^ f.eb = 2 ^ f.eb - 1 ∧ p % 2 ^ f.mb = 0

/-- A pattern of a format is a zero. -/
def patternZero (f : Fmt) (p : Nat) : Prop := p % 2 ^ (f.eb + f.mb) = 0

/-- The sign of a pattern. -/
def patternNeg (f : Fmt) (p : Nat) : Bool := p.testBit (f.eb + f.mb)

/-- The rational value of a finite value. -/
def valueOf : FVal → ℚ
  | .fin neg m e => (if neg then -1 else 1) * (m : ℚ) * (2 : ℚ) ^ e
  | _ => 0

/-! ### Lane exchange (R66-R70) -/

/-- A lane exchange issues: the warp is assembled (R67), and the instruction is ready. -/
def readyExchange (s : State) (e : Env) (i : Instr) (u : Uses) : Bool := readyVec s e i u && s.exchangeReady e

/-- The value of sA at the lane j of l's home warp, where that lane participates, else l's own (R68). -/
def fromLane (e : Env) (a : BitVec 7) (l : Lane) (j : Int) : Word :=
  e.operand .int ((e.lanes.find? (fun m => m.hw == l.hw && decide ((m.lane : Int) = j))).getD l) a

/-- The lanes of an issue set that belong to l's home warp. -/
def sameWarp (set : List Lane) (l : Lane) : List Lane := set.filter (fun m => m.hw = l.hw)

/-! ### Threads, queues and pending results -/

/-- Each thread that stands at one lane of the warp (R15) is as f makes it; every thread outside the warp is as before. -/
def ThreadsBy (s t : State) (e : Env) (f : Lane → Thread → Thread) : Prop :=
  (∀ l ∈ e.lanes, (∀ m ∈ e.lanes, m.tid = l.tid → m = l) → t.thread e.c e.ws l.tid = f l (s.thread e.c e.ws l.tid)) ∧
  ∀ ws tid, (ws ≠ e.ws ∨ ∀ l ∈ e.lanes, l.tid ≠ tid) → t.thread e.c ws tid = s.thread e.c ws tid

/-- A thread goes on after an instruction of the warp. -/
def goneOn (e : Env) (len : Nat) (x : Thread) : Thread := { x with pc := pc48 (e.pc + BitVec.ofNat 64 len), watched := false, capture := none }

/-- A thread goes on after an access; where the access is a blocking point it stays parked for the reply (R171). -/
def goneOnBy (e : Env) (remote : Bool) (x : Thread) : Thread := if remote then { goneOn e 4 x with park := .remote, reached := true } else goneOn e 4 x

/-- The control thread goes on after an instruction. -/
def CtGoesOn (s t : State) (e : CEnv) (len : Nat) : Prop := (t.core e.c).ct.cur =
  ctNext e (s.core e.c).ct.cur len

/-- The control thread goes on after an access, with so many more acquires for its later loads to wait for; where the access is a blocking
point it stays parked for the reply (R171). -/
def CtGoesOnBy (s t : State) (e : CEnv) (remote : Bool) (hold : Nat) : Prop := (t.core e.c).ct =
  { (s.core e.c).ct with
    loadHold := (s.core e.c).ct.loadHold + hold
    cur := { (ctNext e e.r 4) with park := if remote then .remote else e.r.park } }

/-- A pending result without the latch it delivers to. -/
def noLatch (p : Load) : Load := { p with warp := none }

/-- Nothing differs but, in core c, formed warps, workgroup records, pending results, store queues and TLB, and, outside it, TLBs of dies,
requests under way and the numbers given to them; where errors are injected into DRAM, a table walk may meet one (R345). Registers, flags,
scratchpad, tiles, caches, contexts, engines and memory are as before. -/
structure QueueFrame (s t : State) (c : Nat) : Prop where
  state : t = { s with cores := t.cores, dies := t.dies, net := t.net, nextId := t.nextId, waits := t.waits, counters := t.counters,
                       errlog := t.errlog, dramFlip := t.dramFlip, dramBad := t.dramBad, fatal := t.fatal }
  quiet : (∀ a, SMap.get 0 a s.dramFlip = 0) → t = { s with cores := t.cores, dies := t.dies, net := t.net, nextId := t.nextId, waits := t.waits }
  cores : ∀ j, j ≠ c → t.core j = s.core j
  core : t.core c = { s.core c with warps := (t.core c).warps, wgs := (t.core c).wgs, loads := (t.core c).loads, queues := (t.core c).queues,
                                    tlb := (t.core c).tlb, ct := (t.core c).ct }
  dies : ∀ d, t.die d = { s.die d with tlb := (t.die d).tlb }
  mem : MemKept s t

/-- Entries have entered the store queues of a core behind those that stood there. -/
def QueuesGain (s t : State) (c : Nat) (q : Nat → List Entry) : Prop := ∀ hw, (t.core c).queue hw = (s.core c).queue hw ++ q hw

/-- Pending results of a core have been added to those that were pending. -/
def LoadsGain (s t : State) (c : Nat) (ls : List Load) : Prop := (t.core c).loads.map noLatch = ((s.core c).loads ++ ls).map noLatch

/-- An access of a lane passes the checks of step 10 of R53: address, alignment, permission, watchpoints. -/
def accessOk (s : State) (e : Env) (va : DWord) (size : Nat) (need : BitVec 3) (noHost rd wr : Bool) : Prop :=
  s.accessTrap e.c e.x va size need noHost = none ∧ e.cr.watchMask va size rd wr = 0

/-- An access of a control thread passes the checks of step 10. -/
def accessOkCt (s : State) (e : CEnv) (va : DWord) (size : Nat) (need : BitVec 3) (noHost rd wr : Bool) : Prop :=
  s.accessTrap e.c e.x va size need noHost = none ∧ e.cr.watchMask va size rd wr = 0

/-- No error is injected into memory or the LLC (R341). -/
def NoErrors (s : State) : Prop :=
  (∀ a, SMap.get 0 a s.dramFlip = 0) ∧ ∀ line i, SMap.get 0 i (SMap.get ({} : LlcLine) line s.llc).flips = 0

/-- A die sees the same memory as before: its own dirty word where its L2 holds one, else the home's (R80). -/
def SeenKept (s t : State) (d : Nat) : Prop :=
  ∀ a, (s.die d).dirtyAt a = false ∨ ((s.die d).word a).isSome = true → t.freshWord d a = s.freshWord d a

/-- The entries of a store queue, whatever words their releases still wait for. -/
def entriesOf (l : List Entry) : List Entry := l.map (fun q => { q with phase := .queued })

/-- No workgroup of a core finishes as the head of a store queue leaves it: more entries stand behind it, or every workgroup there has a thread
that lives (R24). -/
def noFinish (s : State) (c : Nat) (qs : List Entry) : Prop :=
  (qs ≠ [] ∧ SMap.wf none (s.core c).wgs = true) ∨ ∀ ws g, (s.core c).wg ws = some g → ∃ tid, (g.thread tid).live = true

/-- The head of a store queue may be performed (R25, R82): no earlier load holds it back, its translation is current, peer packages have
acknowledged what a release at pod scope waits for, and no dirty word is left that its release must write back. -/
def Leaves (s : State) (c hw : Nat) (q : Entry) (qs : List Entry) : Prop :=
  (s.core c).queue hw = q :: qs ∧ noFinish s c qs ∧
  ((q.phase = .queued ∧ (s.core c).blocked hw q = false ∧ q.gen = (s.ctx (s.coreCtx c)).gen ∧ s.releaseWords c q = [] ∧
    (5 ≤ q.kind.release → s.peerWritesOut (s.coreCtx c) = false)) ∨ q.phase = .releasing [])

/-- The head of a store queue has sent a request, and waits for its acknowledgement; nothing else changed. -/
structure HeadSent (s t : State) (c hw : Nat) (q : Entry) (qs : List Entry) (m : Msg) : Prop where
  queue : (t.core c).queue hw = { q with phase := .sent } :: qs
  net : t.net = s.net ++ [m]
  core : t.core c = { s.core c with queues := (t.core c).queues }
  state : t = { s with cores := t.cores, net := t.net }
  cores : ∀ j, j ≠ c → t.core j = s.core j

/-- The request of a store-queue entry. -/
def entryMsg (s : State) (c hw : Nat) (q : Entry) (req : Req) (load : Option Nat) (pa : Nat) : Msg :=
  { who := q.who, ctx := s.coreCtx c, gen := q.gen, va := q.va, pa := pa, req := req, hw := hw, load := load, since := s.tick }

/-- The head of a store queue has left it, after a request went out; of the queues of its core only this one changed. -/
structure HeadGone (s t : State) (c hw : Nat) (qs : List Entry) (m : Msg) : Prop where
  queue : (t.core c).queue hw = qs
  net : t.net = s.net ++ [m]
  regs : (t.core c).regs = (s.core c).regs
  mem : MemKept s t

/-- No steal is under way, which counts the entries of the queues of its victim (R105). -/
def noSteals (s : State) : Prop := ∀ m ∈ s.net, ∀ v sc l, m.req ≠ .steal v sc l

/-- Byte i of a word. -/
def byteOf (w : Word) (i : Nat) : Nat := w.toNat / 2 ^ (8 * i) % 256

/-- An address that is neither in a window nor in an on-chip one. -/
def isMemory (pa : Nat) : Prop := ∃ k, placeOf pa = .hbm k ∨ placeOf pa = .tier k

/-- A die sees the same memory as before outside a range (R80), but for words that its L2 marks dirty without holding them. -/
def SeenKeptBut (s t : State) (d lo hi : Nat) : Prop :=
  ∀ a, a % 4 = 0 → (a < lo ∨ hi ≤ a) → (s.die d).dirtyAt a = false ∨ ((s.die d).word a).isSome = true → t.freshWord d a = s.freshWord d a

/-- What a read along the path of R78 may change: caches and TLBs of the issuing core's die, and, where lines leave them for those that come in
(R75), the homes of their dirty words, with the waits and releases that these meet (R82, R186), requests under way, and what leaves for the host or a
peer package where the read goes to a window (R309). -/
structure ReadFrame (s t : State) (c : Nat) : Prop where
  state : t = { s with cores := t.cores, dies := t.dies, llc := t.llc, mem := t.mem, dramBad := t.dramBad, hbm := t.hbm, net := t.net, nextId := t.nextId,
                       out := t.out, past := t.past }
  cores : ∀ j, j ≠ c → t.core j = { s.core j with queues := (t.core j).queues }
  core : t.core c = { s.core c with warps := (t.core c).warps, wgs := (t.core c).wgs, loads := (t.core c).loads, tlb := (t.core c).tlb,
                                    l1 := (t.core c).l1, ct := (t.core c).ct, queues := (t.core c).queues }
  queues : ∀ j hw, entriesOf ((t.core j).queue hw) = entriesOf ((s.core j).queue hw)
  dies : ∀ d, t.die d = { s.die d with tlb := (t.die d).tlb, l2 := (t.die d).l2 }
  seen : SeenKept s t (dieOf c)

/-- The loads of R91 with their width in bytes and sign extension. -/
def loadTable (f : LdForm) : List (Instr × Nat × Bool) := [
  (.ldW8 f, 1, false), (.ldW16 f, 2, false), (.ldW32 f, 4, false), (.ldW64 f, 8, false), (.ldW128 f, 16, false), (.ldX8 f, 1, true),
  (.ldX16 f, 2, true)]

/-- What a load names. -/
def loadUses (f : LdForm) (size : Nat) : Uses := { regs := baseRegs f.n ++ span f.d.toNat (max 1 (size / 4)), preds := f.p != 0 }

/-- The acquire scope of a load (R93). -/
def acquireScope (f : LdForm) : Nat := if f.o = 2 then f.s.toNat else 0

/-- The pending result that a load of the control thread leaves, before it has met anything. -/
def loadOfCt (s : State) (e : CEnv) (f : LdForm) (i : Instr) (size : Nat) (signed remote : Bool) : Load :=
  { id := s.nextId, kind := .plain, who := e.who, pc := e.r.pc, word := (wordOf i).1, va := e.base f.n, pa := 0, size := size, signed := signed,
    dest := some f.d.toNat, pred := f.p.toNat, scope := acquireScope f, gen := (s.ctx e.x).gen, data := none, warp := none, remote := remote }

/-- The stores of R92 with their width in bytes. -/
def storeTable (f : StForm) : List (Instr × Nat) := [(.stW8 f, 1), (.stW16 f, 2), (.stW32 f, 4), (.stW64 f, 8), (.stW128 f, 16)]

/-- What a store names. -/
def storeUses (f : StForm) (size : Nat) : Uses := { regs := wideRegs f.t (max 1 (size / 4)) ++ baseRegs f.n, lat := codeLat f.t }

/-- The release scope of a store (R93). -/
def releaseScope (f : StForm) : Nat := if f.o = 3 then f.s.toNat else 0

/-- The atomics and reductions (R99-R102): instruction, what it names, width, destination. -/
def atomTable (f : AtomForm) (r : RedForm) : List (Instr × Uses × BitVec 7 × BitVec 5 × BitVec 4 × Bool × Bool × Bool × Option Nat) := [
  (.atomW32 f, { regs := codeRegs f.b ++ baseRegs f.n ++ [f.d.toNat], lat := codeLat f.b }, f.b, f.n, f.o, f.u == 1, f.r == 1, false, some f.d.toNat),
  (.atomW64 f, { regs := pairRegs f.b ++ baseRegs f.n ++ [f.d.toNat, f.d.toNat + 1], lat := codeLat f.b }, f.b, f.n, f.o, f.u == 1, f.r == 1, true,
    some f.d.toNat),
  (.red r, { regs := (if r.w = 1 then pairRegs r.b else codeRegs r.b) ++ baseRegs r.n, lat := codeLat r.b }, r.b, r.n, r.o, r.u == 1, r.r == 1,
    r.w == 1, none)]

/-- The engine commands with their guard and what they post (R112, R219, R266, R269-R273, R279). -/
def postTable (c : CopyForm) (m : MmxForm) (t : MtileForm) (l : MldForm) (k : CollForm) (a b : BitVec 7) (bar : BitVec 4) (x y : BitVec 2)
    (g : BitVec 3) : List (Instr × BitVec 3 × Post) := [
  (.cp c, 0, { op := .cp (c.k == 1), tidA := c.d.toNat, tidB := c.s.toNat, bar := c.i.toNat, toQueue := c.q == 1 }),
  (.cpg c, 0, { op := .cpg (c.k == 1), tidA := c.d.toNat, tidB := c.s.toNat, bar := c.i.toNat, toQueue := c.q == 1 }),
  (.cpm a b bar, 0, { op := .cpm, tidA := a.toNat, tidB := b.toNat, bar := bar.toNat }),
  (.mmx m, 0, { op := .mmx m.o, tidA := m.a.toNat, tidB := m.b.toNat, bar := m.c.toNat, tile := m.t.toNat, ms := m.s.toNat }),
  (.mzero bar x y, 0, { op := .mzero, bar := bar.toNat, tile := x.toNat, ms := y.toNat }),
  (.mzeroBias t, 0, { op := .mzeroBias, tidA := t.a.toNat, bar := t.c.toNat, tile := t.t.toNat, ms := t.s.toNat }),
  (.mld l, 0, { op := .mld l.r, tidA := l.a.toNat, bar := l.c.toNat, tile := l.t.toNat, ms := l.s.toNat }),
  (.mst t, 0, { op := .mst, tidA := t.a.toNat, bar := t.c.toNat, tile := t.t.toNat, ms := t.s.toNat }),
  (.mscan a bar y, 0, { op := .mscan, tidA := a.toNat, bar := bar.toNat, ms := y.toNat }),
  (.ade a b bar x, 0, { op := .ade (x == 1), tidA := a.toNat, tidB := b.toNat, bar := bar.toNat }),
  (.dload bar g, g, { op := .dload, bar := bar.toNat }),
  (.drun bar g, g, { op := .drun, bar := bar.toNat }),
  (.coll k, 0, { op := .coll k.k k.o, tidA := k.d.toNat, tidB := k.s.toNat, bar := k.i.toNat })]

/-- The pending old value of an atomic (R102). -/
def oldValue (s : State) (who : Who) (x : Nat) (pc : DWord) (i : Instr) (va : DWord) (pa size scope d : Nat) (remote : Bool) : Load :=
  { id := s.nextId, kind := .atomic, who := who, pc := pc, word := (wordOf i).1, va := va, pa := pa, size := size, signed := false,
    dest := some d, pred := 0, scope := scope, gen := (s.ctx x).gen, data := none, warp := none, remote := remote }

/-! ### Blocking points and queues of a core -/

/-- A thread has reached a blocking point where it need not wait (R172, R359). -/
def reachedAt (set : List Lane) (l : Lane) (x : Thread) : Thread := if l ∈ set then { x with reached := true } else x

/-- A thread parks at its instruction (R171). -/
def parkedAt (p : Park) (x : Thread) : Thread := { x with park := p, reached := true }

/-- The threads of a set park at the instruction, the others of `keep` stay there, and the rest of the warp goes on, those of `reach` past a
blocking point; the run ends; nothing else changed (R171, R23). -/
structure ParksBut (s t : State) (e : Env) (set keep reach : List Lane) (p : Lane → Park) : Prop where
  threads : ThreadsBy s t e (fun l x => if l ∈ set then parkedAt (p l) x else if l ∈ keep then reachedAt reach l x else goneOn e 4 (reachedAt reach l x))
  warp : (t.core e.c).warp e.k = none
  regs : (t.core e.c).regs = (s.core e.c).regs
  rest : WarpOnly (s.core e.c) (t.core e.c) e.k e.ws
  only : OnlyCore s t e.c
  mem : MemKept s t

/-- The threads of a set park at the instruction and the others of the warp go on; the run ends; nothing else changed (R171, R23). -/
def Parks (s t : State) (e : Env) (set : List Lane) (p : Lane → Park) : Prop := ParksBut s t e set [] [] p

/-- The warp has gone on after an instruction whose issue set does nothing; nothing else changed. -/
structure GoesOn (s t : State) (e : Env) : Prop where
  threads : ThreadsBy s t e (fun _ => goneOn e 4)
  regs : (t.core e.c).regs = (s.core e.c).regs
  rest : WarpOnly (s.core e.c) (t.core e.c) e.k e.ws
  only : OnlyCore s t e.c
  mem : MemKept s t

/-- The control thread parks at its instruction; nothing else changed (R180). -/
structure ParksCt (s t : State) (e : CEnv) (p : Park) : Prop where
  core : t.core e.c = { s.core e.c with ct := { (s.core e.c).ct with cur := { (s.core e.c).ct.cur with park := p, begun := true } } }
  only : OnlyCore s t e.c
  mem : MemKept s t

/-- A control thread that is parked at a blocking point is let go, to issue its instruction again. -/
def ctReleased (y : Ct) (p : Park) : Ct := if y.cur.park = p then { y with cur := { y.cur with park := .none } } else y

/-- Of core c, only registers, formed warps, workgroup records, latches due, the pieces that f puts back, and the control thread may differ;
nothing differs outside it. -/
structure CoreFrame (s t : State) (c : Nat) (f : Core → Core → Core) : Prop where
  core : t.core c = f (t.core c) { s.core c with regs := (t.core c).regs, warps := (t.core c).warps, wgs := (t.core c).wgs,
                                                 loads := (t.core c).loads, ct := (t.core c).ct }
  loads : LoadsGain s t c []
  only : OnlyCore s t c
  mem : MemKept s t

/-- The registers of a core after the lanes of a set have written. -/
def RegsAt (s t : State) (c : Nat) (set : List Lane) (f : Lane → List (Nat × Word)) : Prop :=
  ∀ hw k lane, k < 64 → lane < 32 → (t.core c).reg hw k lane = regAfter s c set f hw k lane

/-- The word that a pop gives (R119): the slot's address, and, where its command ended in an error, bit 31 and the code at bit 24. -/
def slotWord (b : CBuf) : Word :=
  let a : Word := BitVec.ofNat 32 (b.base + b.pop * b.size)
  let f := SMap.get 0 b.pop b.codes
  if f = 0 then a else a ||| 0x80000000 ||| BitVec.ofNat 32 (f * 2 ^ 24)

/-- The commands that a wait on a barrier waits for: of the engines and of the waiter's queues (R121). -/
def waitsFor (s : State) (c bar : Nat) (own : List Entry) : List Nat := (s.awaited c bar own ++ ownCommands own).eraseDups

/-- A completion barrier after its error phase and first code have been cleared in a tick; a faulting completion of the same tick counts after
the clear (R115, R121). -/
def barCleared (b : CBarrier) (tick : DWord) : CBarrier :=
  let late := b.faultAt.bind (fun p => if p.1 = tick then some p.2 else none)
  { b with error := late.isSome, code := late.getD 0 }

/-- The status word of a completion barrier (R121): 0, or bit 31 and the first fault code. -/
def barStatus (b : CBarrier) : Word := if b.error then BitVec.ofNat 32 (2 ^ 31 + b.code) else 0

/-- No line of an L1 belongs to a context. -/
def noL1 (y : Core) (x : Nat) : Prop := ∀ l ∈ y.l1, l.ctx ≠ x

/-- Every thread of a core keeps its predicates, stack pointer, call depth, handler frames and registration mask, and lives as before. -/
def ThreadsKept (s t : State) (c : Nat) : Prop := ∀ ws tid,
  let x := s.thread c ws tid
  let y := t.thread c ws tid
  y.preds = x.preds ∧ y.sp = x.sp ∧ y.depth = x.depth ∧ y.frames = x.frames ∧ y.regmask = x.regmask ∧ y.live = x.live

/-! ### Reads of ticks and identities -/

/-- A launch neither records nor replays its reads (R286). -/
def noRecord (s : State) (x n : Nat) : Prop := ∀ l, s.launch x n = some l → l.detMode ≠ 1 ∧ l.detMode ≠ 2

/-- The identities of R63 by selector: context, die, core, home-warp slot, package, launch. -/
def identityOf (s : State) (x c hw launch which : Nat) : Nat := [x, c / 32, c, hw, s.pkg.toNat, launch].getD which launch

/-- The identities of R216 by selector. -/
def identityCtOf (s : State) (e : CEnv) (which : Nat) : Nat :=
  [e.x % 2 ^ 32, e.c / 32 % 2 ^ 32, e.c % 2 ^ 32, 0, s.pkg.toNat, ((e.r.run.launch?).getD (s.ctx e.x).accepted) % 2 ^ 32, e.cr.lcore.getD 0,
   if e.r.super then 1 else 0].getD which 0

/-! ### Bags -/

/-- A pending reply of a Staithe or the Lengthsman. -/
def bagLoad (s : State) (i : Instr) (who : Who) (x : Nat) (pc va : DWord) (dest : Option Nat) (size scope : Nat) : Load :=
  { id := s.nextId, kind := .bag, who := who, pc := pc, word := (wordOf i).1, va := va, pa := 0, size := size, signed := false,
    dest := dest, pred := 0, scope := scope, gen := (s.ctx x).gen, data := none, warp := none }

/-- The requests of the bq group (R136-R138): the instruction, what it names, the register that names the bag slot by its word where one does,
the request by the registers it reads, its destinations with their bytes in either stream, and whether later loads wait for its reply. -/
def bagTable (h : BitVec 4) (k : BitVec 7) (n : BitVec 1) (d : BitVec 6) (g : BitVec 3) :
    List (Instr × Uses × Option Nat × ((Nat → Word) → Req) × List (Option Nat × Nat) × List (Option Nat × Nat) × Bool) := [
  (.bcount h n d g, { g := g, regs := destRegs n d, b3 := true }, none, fun _ => .count none, [(destOf n d, 4)], [(destOf n d, 8)], false),
  (.bshare h n d g, { g := g, regs := destRegs n d, also := [d.toNat], b3 := true }, none, fun r => .count (some (r d.toNat)),
    [(destOf n d, 4)], [(destOf n d, 8)], false),
  (.biter h n d g, { g := g, regs := if n = 0 then span d.toNat 3 else [], also := [d.toNat], b3 := true }, none,
    fun r => .snapshot h.toNat (r d.toNat), [(destOf n d, 12)], [(destOf n d, 24)], false),
  (.bnext k n d g, { g := g, regs := span k.toNat 3 ++ destPair n d, b3 := true }, some k.toNat,
    fun r => .next (r k.toNat) (r (k.toNat + 1)) (r (k.toNat + 2)), [(destOf n d, 8), (some k.toNat, 12)], [(destOf n d, 8), (some k.toNat, 24)],
    true)]

/-- The bag slot of a request: the instruction's, or bits [31:28] of the cursor word (R138). -/
def slotBy (h : BitVec 4) (k : Option Nat) (r : Nat → Word) : Nat :=
  match k with
  | none => h.toNat
  | some n => (r n).toNat / 2 ^ 28

/-- A page of a context is resident: mapped at a canonical address, and its frame the context's (R84, R314). -/
def pageHere (s : State) (x : Nat) (va : DWord) : Prop := canonical va = true ∧ ∃ a, s.walk x va = some a ∧ s.ownsFrame x a.pa = true

/-- The frame that a page of a context is mapped to. -/
def frameAt (s : State) (x : Nat) (va : DWord) : Nat := ((s.walk x va).map (fun a => a.pa / 65536 * 65536)).getD 0

/-- A bag with the frames of its header page and of the pages of its shares. -/
def placedBag (s : State) (x : Nat) (b : Bag) : Bag :=
  { b with headerPa := frameAt s x b.header
           sharePas := (List.range (b.shareCount * b.stride / 65536)).map (fun i => frameAt s x (b.area + BitVec.ofNat 64 (65536 * i))) }

/-- A bag descriptor of eight words fails the check of a result code (R217): its format, its alignment, absent pages, ranges that meet a live bag's,
shares that do not lie in one bank group each, tags that a stack cannot take. An area at 0, or one past the top of the addresses, fails with the code
of its alignment (the model's choice, assumption 25). -/
def bagFails (s : State) (x : Nat) (ws : List Word) (code : Nat) : Prop :=
  let b := bagOfWords x ws
  let w := fun i => (ws.getD i 0).toNat
  let bytes := b.shareCount * b.stride
  let page := fun (i : Nat) => b.area + BitVec.ofNat 64 (65536 * i)
  let meet := fun (p n q m : Nat) => p < q + m ∧ q < p + n
  match code with
  | 1 => 12 < w 4 / 2 ^ 28 ∨ 4 < w 4 / 2 ^ 21 % 8 ∨ w 5 % 65536 = 0 ∨ w 5 % 65536 < w 5 / 65536 ∨ w 4 % 2 ^ 20 ≠ 0 ∨ w 6 ≠ 0 ∨ w 7 ≠ 0
  | 2 => b.header.toNat % 65536 ≠ 0 ∨ b.area.toNat % 65536 ≠ 0 ∨ b.area = 0 ∨ 2 ^ 64 < b.area.toNat + bytes
  | 3 => ¬pageHere s x b.header ∨ ∃ i, 65536 * i < bytes ∧ ¬pageHere s x (page i)
  | 4 => ∃ o ∈ s.bags, o.ctx = x ∧ o.freed = false ∧
      (meet b.header.toNat 65536 o.header.toNat 65536 ∨ meet b.header.toNat 65536 o.area.toNat (o.shareCount * o.stride) ∨
       meet b.area.toNat bytes o.header.toNat 65536 ∨ meet b.area.toNat bytes o.area.toNat (o.shareCount * o.stride))
  | 5 => ∃ k < b.shareCount, ¬∃ g, ∀ i, 65536 * i < b.stride → bankGroup (frameAt s x (page (k * b.stride / 65536 + i))) = some g
  | _ => ∃ k < 16, 0 < (placedBag s x b).tagsOn k ∧
      4194304 < (placedBag s x b).tagsOn k + ((s.bags.filter (fun o => !o.freed)).map (·.tagsOn k)).sum

/-- A launch packet with the tables it names fails the check of a code (R163). -/
def launchFails (s : State) (x : Nat) (p : Packet) (t : Tables) (code : Nat) : Prop :=
  let w := p.w
  let stages := t.stages.getD []
  let places := (t.map.getD []).map (·.1)
  let bags := t.bags.getD []
  let field := fun (lo n : Nat) => w 0 / 2 ^ lo % 2 ^ n
  let warps := field 16 3 + 1
  match code with
  | 1 => field 28 4 ≠ 1 ∨ 11 < field 19 4 ∨ 1 < field 14 2 ∨ field 0 10 ≠ 0 ∨ (field 14 2 = 0 ∧ field 10 4 ≠ 0) ∨ w 19 ≠ 0 ∨
      (∃ i, 22 ≤ i ∧ i < 32 ∧ w i ≠ 0) ∨ (∃ e ∈ stages, e.link = 3 ∨ e.zero = false) ∨ ∃ q ∈ t.map.getD [], q.2 = false
  | 2 => w 1 = 0 ∨ 24576 < w 1 ∨ (t.stages.isSome ∧
      ((∃ i e, stages[i]? = some e ∧ (e.first ≠ ((stages.take i).map (·.n)).sum ∨ e.n = 0)) ∨ (stages.map (·.n)).sum ≠ w 1))
  | 3 => (p.dw 2).toNat % 16 ≠ 0 ∨ (p.dw 4).toNat % 32 ≠ 0 ∨ (p.dw 6).toNat % 4 ≠ 0 ∨ (p.dw 10).toNat % 64 ≠ 0 ∨
      (p.dw 16).toNat % 16 ≠ 0 ∨ w 18 % 16 ≠ 0 ∨ (p.dw 20).toNat % 4 ≠ 0
  | 4 => t.stages = none ∨ t.map = none ∨ t.bags = none ∨ t.images = none ∨ t.below = none ∨
      ¬(canonical (p.dw 20) = true ∧ ∃ a, s.walk x (p.dw 20) = some a ∧ a.grants permRW = true ∧ s.ownsFrame x a.pa = true)
  | 5 => ∃ q ∈ places, (s.ctx x).grid ≤ q.1
  | 6 => ∃ q ∈ places, 48 < q.2.1 + warps ∨ 5 < q.2.2
  | 7 => ∃ (i j : Nat) (a b : Nat × Nat × Nat), i < j ∧ places[i]? = some a ∧ places[j]? = some b ∧ a.1 = b.1 ∧
      (a.2.2 = b.2.2 ∨ (a.2.1 < b.2.1 + warps ∧ b.2.1 < a.2.1 + warps))
  | 8 => ∃ q ∈ places, ¬(s.placedAt x q.1 < 512 ∧ (s.core (s.placedAt x q.1)).owner = some x)
  | 9 => (∃ h ∈ bags, h ≠ 0 ∧ s.bagAt x h = none) ∨ (∃ e ∈ stages, e.link = 2 ∧ bags.getD e.lidx 0 = 0) ∨
      (∃ e, stages.getLast? = some e ∧ e.link ≠ 0) ∨ ∃ d ∈ t.images.getD [], d.invalid = true
  | 10 => field 14 2 = 1 ∧ ∀ b, s.bagAt x (bags.getD (field 10 4) 0) = some b → bags.getD (field 10 4) 0 = 0 ∨ w 1 ≠ b.shareCount
  | _ => ((s.ctx x).reg 0x40).toNat % 4 ≠ 0 ∧ ((s.ctx x).reg 0x40).toNat / 2 ^ 32 < 64 + 16 * w 1 ∨
      (((s.ctx x).reg 0x2C).toNat % 4 ≠ 0 ∧ s.areaResident x ((s.ctx x).reg 0x2D) (64 + 8 * w 1 * 32 * warps) = false)

/-- A check answers 0 where none of its n codes applies, and else the first that does. -/
def firstFailure (n code : Nat) (fails : Nat → Prop) : Prop :=
  (code = 0 ↔ ∀ k, 1 ≤ k → k ≤ n → ¬fails k) ∧ ∀ k, 1 ≤ k → k ≤ n → (code = k ↔ fails k ∧ ∀ j, 1 ≤ j → j < k → ¬fails j)

/-! ### Control flow -/

/-- A launch writes no branch trace (R379). -/
def noTrace (s : State) (x n : Nat) : Prop := ∀ l, s.launch x n = some l → l.trace = false

/-- A thread that takes a transfer goes on at its target, which its path signature takes in (R377). -/
def goneTo (e : Env) (target : DWord) (x : Thread) : Thread :=
  { goneOn e 4 x with pc := target, psig := x.psig.rotateLeft 1 ^^^ target }

/-- The control thread goes on at a target. -/
def CtGoesTo (s t : State) (e : CEnv) (target : DWord) (rstack : List DWord) : Prop :=
  (t.core e.c).ct = { (s.core e.c).ct with
    cur := { e.r with pc := target, rstack := rstack, grd := none, waited := false, watched := false, begun := true } } ∧
  t.core e.c = { s.core e.c with ct := (t.core e.c).ct } ∧ OnlyCore s t e.c ∧ MemKept s t

/-- A target from a register may be jumped to (R179). -/
def goodTarget (a : DWord) : Prop := canonical a = true ∧ a.getLsbD 0 = false

/-- A trap of the workgroup can be taken now (R323, R326, R332): no result of the warp that is never withdrawn is still owed, its store queues
have drained, and the save area is right; the workgroup is of the core's own context. -/
def trapReady (s : State) (e : Env) : Prop :=
  e.x = s.coreCtx e.c ∧ s.owesResults e.c e.ws e.lanes = false ∧ s.saveAreaOk e.x (s.saveArea e.x (e.cr.lcore.getD 0)) = true

/-- The workgroup of a warp has trapped (R323, R330): it is marked, its trap is queued for the supervisor, the warp is gone, its registers stay
but where a result was still in its pipe, and its trap frame holds the code, the lanes that trapped, the saved PC, the word, and what info0 holds of each. -/
structure TrapTaken (s t : State) (e : Env) (i : Instr) (code : Nat) (pc : DWord) (hit : List Lane) (info : Lane → Word) : Prop where
  wg : ∃ g, (t.core e.c).wg e.ws = some g ∧ g.state = .trapped
  warp : (t.core e.c).warp e.k = none
  queued : (t.core e.c).ct.pending = (s.core e.c).ct.pending ++ [.trap e.ws (BitVec.ofNat 8 code)]
  regs : ∀ hw k lane, k < 64 → lane < 32 → (∀ f ∈ e.w.flights, f.dest ≠ some k) → (t.core e.c).reg hw k lane = (s.core e.c).reg hw k lane
  code : (t.homeWord (s.saveArea e.x (e.cr.lcore.getD 0) + saveWg e.ws + saveFrame)).toNat % 256 = code
  lanes : t.homeWord (s.saveArea e.x (e.cr.lcore.getD 0) + saveWg e.ws + saveFrame + 4) = maskOf (hit.map (·.lane))
  pc : t.homeDword (s.saveArea e.x (e.cr.lcore.getD 0) + saveWg e.ws + saveFrame + 8) = pc
  word : t.homeWord (s.saveArea e.x (e.cr.lcore.getD 0) + saveWg e.ws + saveFrame + 16) = (wordOf i).1
  info : ∀ l ∈ hit, t.homeWord (s.saveArea e.x (e.cr.lcore.getD 0) + saveWg e.ws + saveFrame + 0x40 + 4 * l.lane) = info l

/-- A trap of the control thread can be taken: it runs in user mode, and the save area is right (R324, R326). -/
def trapReadyCt (s : State) (e : CEnv) : Prop :=
  e.r.super = false ∧ s.saveAreaOk e.x (s.saveArea e.x (e.cr.lcore.getD 0)) = true

/-- The control thread has trapped (R324, R327): its run is kept, its trap is queued, and its trap frame holds the code, the saved PC and the
two words of info. -/
structure TrapTakenCt (s t : State) (e : CEnv) (code : Nat) (pc info0 info1 : DWord) : Prop where
  idle : (t.core e.c).ct.cur = {}
  kept : (t.core e.c).ct.trapped = { e.r with pc := pc, watched := decide (code = 0x08), frame := [BitVec.ofNat 32 code, 0, pc.lo, pc.hi, info0.lo,
    info0.hi, info1.lo, info1.hi] } :: (s.core e.c).ct.trapped
  queued : (t.core e.c).ct.pending = (s.core e.c).ct.pending ++ [.trap 6 (BitVec.ofNat 8 code)]
  code : t.homeWord (s.saveArea e.x (e.cr.lcore.getD 0) + saveCtFrame) = BitVec.ofNat 32 code
  pc : t.homeDword (s.saveArea e.x (e.cr.lcore.getD 0) + saveCtFrame + 8) = pc
  info0 : t.homeDword (s.saveArea e.x (e.cr.lcore.getD 0) + saveCtFrame + 16) = info0
  info1 : t.homeDword (s.saveArea e.x (e.cr.lcore.getD 0) + saveCtFrame + 24) = info1
  regs : (t.core e.c).regs = (s.core e.c).regs

/-- A context's removal has begun, for a cause (R348). -/
def RemovalBegun (t : State) (x cause : Nat) : Prop := (t.ctx x).removal = 1 ∧ (t.ctx x).cause = cause

/-! ### Effects -/

/-- The entries that the device's own write of a record makes, 16 bytes each, at their translations (R201, R205); `joined` where the next write
belongs to the same entry. -/
def ownEntries (s : State) (c x : Nat) (who : Who) (pc va : DWord) (ws : List Word) (joined : Bool := false) : List Entry :=
  (chunks ws).map (fun ch => { kind := .store 16 ch.2 0 true false, who := who, pc := pc, va := va + BitVec.ofNat 64 ch.1,
                               pa := ((s.xlate c x (va + BitVec.ofNat 64 ch.1)).map (·.pa)).getD 0, gen := (s.ctx x).gen,
                               more := joined || decide (ch.1 + 16 < 4 * ws.length) })

/-- Every page of a record is mapped and writable, and is no header page of a bag. -/
def ownOk (s : State) (c x : Nat) (va : DWord) (ws : List Word) : Prop :=
  ∀ ch ∈ chunks ws, ∃ t, s.xlate c x (va + BitVec.ofNat 64 ch.1) = some t ∧ t.grants permW = true ∧ s.isHeader t.pa = false

/-- A lane thread, whose four highest frames hold its whole handler stack, can enter the frame at index n from the top for a hardware effect that
captures no words (R200, R205): its queue has room for the record, whose page is writable, and no result is in flight to v61-v63 (R48). -/
structure HandlerReady (s : State) (e : Env) (l : Lane) (id n : Nat) (fr : Frame) : Prop where
  shallow : (e.thread l).frames.length ≤ 4
  regs : 64 ≤ e.g.nregs
  first : (e.thread l).frames.findIdx? (fun q => q.hide == 0 && (q.eff.toNat == id || q.eff.toNat == 255)) = some n
  frame : (e.thread l).frames[n]? = some fr
  room : e.cr.room l.hw 1 = true
  settled : e.cr.owes (e.who l) [61, 62, 63] = false
  record : ∃ a, s.xlate e.c e.x ((e.thread l).sp - 16) = some a ∧ a.grants permW = true ∧ s.isHeader a.pa = false
  own : e.x = s.coreCtx e.c
  quiet : noTrace s e.x e.g.launch

/-- A lane thread has entered its handler for a hardware effect (R197-R202): the id and argument in v61 and v62, the handler's PC, the depth of its
push, and the stack pointer below the record. -/
structure HandlerEntered (s t : State) (e : Env) (l : Lane) (st : StageInfo) (id : Nat) (arg : Word) (fr : Frame) : Prop where
  id : (t.core e.c).reg l.hw 61 l.lane = BitVec.ofNat 32 id
  arg : (t.core e.c).reg l.hw 62 l.lane = arg
  warp : (t.core e.c).warp e.k = none
  thread : (∀ q ∈ e.lanes, q.tid = l.tid → q = l) → (t.thread e.c e.ws l.tid).depth = fr.cdepth ∧
    (t.thread e.c e.ws l.tid).sp = (e.thread l).sp - 16 ∧
    (t.thread e.c e.ws l.tid).pc = pc48 (st.entry + ((st.handlers[fr.name.toNat]?.getD (0xFFFFFFFF, 0, 0)).1.signExtend 64) * 2)

/-- Of core c, only registers, formed warps, workgroup records, latches due and store queues may differ; nothing differs outside it but the
number given to the next request. -/
structure WarpFrame (s t : State) (c : Nat) : Prop where
  state : t = { s with cores := t.cores, nextId := t.nextId }
  cores : ∀ j, j ≠ c → t.core j = s.core j
  core : t.core c = { s.core c with regs := (t.core c).regs, warps := (t.core c).warps, wgs := (t.core c).wgs, loads := (t.core c).loads,
                                    queues := (t.core c).queues }
  loads : LoadsGain s t c []
  mem : MemKept s t

/-- What the threads of a warp come to: f gives each lane's thread, and the warp is no longer formed. -/
def ThreadsTo (s t : State) (e : Env) (f : Lane → Thread → Thread) : Prop := ThreadsBy s t e f ∧ (t.core e.c).warp e.k = none

/-! ### Events -/

/-- The new memory word of an atomic on one word (R101): operation, old value, operand, the d operand of `.cas`. -/
def atomWord (op : Nat) (old v c : Word) : Word :=
  match op with
  | 0 => BitVec.ofNat 32 (old.toNat + v.toNat)
  | 1 => if v.toInt < old.toInt then v else old
  | 2 => if old.toInt < v.toInt then v else old
  | 3 => if v.toNat < old.toNat then v else old
  | 4 => if old.toNat < v.toNat then v else old
  | 5 => old &&& v
  | 6 => old ||| v
  | 7 => old ^^^ v
  | 8 => v
  | 9 => if old = c then v else old
  | 10 => if v.toNat ≤ old.toNat then 0 else old + 1
  | 11 => if old = 0 ∨ v.toNat < old.toNat then v else old - 1
  | 12 => BitVec.ofNat 32 (Fmt.f32.add old.toNat v.toNat)
  | _ => BitVec.ofNat 32 (Fmt.bf16.add (old.toNat % 65536) (v.toNat % 65536) + 65536 * Fmt.bf16.add (old.toNat / 65536) (v.toNat / 65536))

/-- A request that is not answered stands in flight at a place, made under its context's generation to a frame of its own, and its home takes
requests. -/
def Asked (s : State) (n : Nat) (m : Msg) : Prop :=
  s.net[n]? = some m ∧ m.reply = none ∧ m.gen = (s.ctx m.ctx).gen ∧ s.ownsFrame m.ctx m.pa = true ∧ s.homeDown m.pa = false

/-- No extent of a descriptor is dynamic. -/
def staticExtents (d : Descriptor) : Prop := ∀ k < 4, d.isDyn k = false

/-- The extents of a descriptor as a command reads them now (R236): of each that is dynamic its word, at most its field. -/
def ExtentsRead (s : State) (m : Command) (d : Descriptor) (l : List Nat) : Prop :=
  l.length = 4 ∧ ∀ k : Nat, k < 4 → ∃ v, l[k]? = some v ∧ (d.isDyn k = false → v = d.extField k) ∧
    (d.isDyn k = true → s.dynWord m d k = .ok v ∧ v ≤ d.extField k)

/-- A command as an engine accepts it (R111, R261, R274): what it was posted with is kept; its descriptors are those of its context now, with their
extents; a void first one gives it code 5. -/
structure Captured (s : State) (m d : Command) (tids : List Nat) : Prop where
  kept : d = { m with phase := .accepted, mine := s.ownedCores m.ctx, descs := d.descs, dyn := d.dyn, fault := d.fault, since := d.since }
  void : ∀ k rest, tids = k :: rest → (s.desc m.ctx k).invalid = true → d.fault = 5
  read : ∀ ls : List (List Nat), ls.length = tids.length →
    (∀ (i k : Nat) (l : List Nat), tids[i]? = some k → ls[i]? = some l → (s.desc m.ctx k).invalid = false ∧ ExtentsRead s m (s.desc m.ctx k) l) →
    d.descs = tids.map (s.desc m.ctx) ∧ d.dyn = ls.flatten

/-- Element i of a participant's result by the kind of its collective (R219, R220): ranks in order, reduced; its own block of that; the block of the
rank whose it is; or the root's. `elem` gives an element of a rank's source. -/
def collResult (elem : Nat → Nat → Word) (ranks r : Nat) (m : Command) (i : Nat) : Nat :=
  let all := fun (j : Nat) => reduceRanks (m.desc 1).fmt m.collOp ((List.range ranks).map (fun q => elem q j))
  match m.collKind with
  | 0 => all i
  | 1 => all (r * m.count 0 + i)
  | 2 => (elem (i / m.count 1) (i % m.count 1)).toNat
  | _ => (elem (m.slotNat 1) i).toNat

/-- A command has ended under a code (R115): its barrier is in its error phase, and has that code unless it had another. -/
def EndedWith (s t : State) (m : Command) (code : Nat) : Prop :=
  m.toQueue = false → ((t.core m.core).cbar m.bar).error = true ∧
    (((s.core m.core).cbar m.bar).error = false → ((t.core m.core).cbar m.bar).code = code)

/-- A barrier that counts one more command. -/
def oneMore (b : CBarrier) : CBarrier := { b with outstanding := b.outstanding + 1 }

/-- An answered request stands in flight at a place. -/
def Replied (s : State) (n : Nat) (m : Msg) (r : Reply) : Prop := s.net[n]? = some m ∧ m.reply = some r

/-- The message at a place of t, with its reply. -/
def repliedWith (t : State) (n : Nat) (r : Reply) : Prop := ∃ m, t.net[n]? = some m ∧ m.reply = some r

/-- A word is sound at its home: not poisoned, no error injected, and no die holds it dirty. -/
def soundWord (s : State) (pa : Nat) : Prop := NoErrors s ∧ s.poisoned pa = false ∧ s.dirtyDies pa = []

/-- A lane thread on its own core in a resident workgroup. -/
def laneHere (s : State) (who : Who) (c hw ws tid : Nat) : Prop :=
  ∃ lc, who = .lane c lc hw ws tid ∧ (s.core c).lcore = some lc ∧ ∃ g, (s.core c).wg ws = some g ∧ g.state = .resident

/-- The pending results of a core with the data of those that a request fills. -/
def filled (ls : List Load) (id : Nat) (who : Who) (v : Option (BitVec 128)) : List Load :=
  ls.map (fun p => if p.id = id ∧ p.who = who ∧ p.data = none then { p with data := some v, poison := none } else p)

/-- A pending result, whatever a later one of its thread has made of the latch it delivers to (R45). -/
def notLate (p : Load) : Load := { p with late := false }

/-- A request is the first of its party, and of its instruction, in flight. -/
def firstAsked (s : State) (n : Nat) (m : Msg) : Prop :=
  ∀ o ∈ s.net.take n, o.reply = none → o.who ≠ m.who ∧ (m.load = none ∨ o.load ≠ m.load)

/-- A request may be applied at its home now: the first of its party in flight, not stale, and its home takes requests. -/
def atHome (s : State) (n : Nat) (m : Msg) : Prop :=
  s.net[n]? = some m ∧ m.reply = none ∧ m.gen = (s.ctx m.ctx).gen ∧ s.homeDown m.pa = false ∧ firstAsked s n m

/-- Only requests in flight differ. -/
def OnlyNet (s t : State) : Prop := t = { s with net := t.net }

/-- A worker's charged items (R143). -/
def claimsOf (b : Bag) (who : Who) : Nat := ((b.workers.find? (·.who == who)).map (·.claims)).getD 0

/-- The header page of a bag holds the words its contents give it (R125, R126). -/
def HeaderAt (s : State) (b : Bag) : Prop := b.headerPa % 4 = 0 ∧ ∀ i < 16384, s.homeWord (b.headerPa + 4 * i) = b.headerWord (4 * i)

/-- The header page of a bag is as its contents give it, and no error is injected that could change a word of it. -/
def HeaderSound (s : State) (b : Bag) : Prop := HeaderAt s b ∧ NoErrors s

/-- The results that the reply to a query, or to a control thread's bag operation, delivers to its pending registers, in order (R136-R138, R217, R218). -/
def resultsOf : Req → Reply → Option (List Nat)
  | .snapshot _ _, .cursor _ c0 c1 c2 => some [ofWords [c0, c1, c2]]
  | .next _ _ _, .cursor x c0 c1 c2 => some [x.toNat, ofWords [c0, c1, c2]]
  | .count _, .value x => some [x.toNat]
  | .make _, .value x => some [x.toNat]
  | .seal, .value x => some [x.toNat]
  | .free, .value x => some [x.toNat]
  | _, _ => none

/-- A slot of a share holds a record. -/
def slotTaken (b : Bag) (k j : Nat) : Prop := (SMap.get none j (b.share k).slots).isSome

/-- A barrier after one more command has completed in a tick with a code, 0 for none: the first code is kept, and, for a clear in that tick, the
first code of the tick (R115, R121). -/
def barAfter (b : CBarrier) (tick : DWord) (code : Nat) : CBarrier :=
  { b with outstanding := b.outstanding - 1, error := b.error || code != 0, code := if code ≠ 0 && !b.error then code else b.code
           faultAt := if code = 0 then b.faultAt else match b.faultAt with
             | some p => if p.1 = tick then b.faultAt else some (tick, code)
             | none => some (tick, code) }

/-- A package with the context that the host asks for, as Fellos creates it before its launch bag is made (R159, R165, R305, R306): logical cores
from 1 to 4,096, its remap entries, all ways where it names none, and what it may debug. -/
def created (s : State) (r : ContextSpec) : State :=
  let grid := max 1 (min 4096 r.grid)
  s.modCtx r.ctx fun y => { alive := true, gen := y.gen, grid := grid, remap := ((r.remap.take grid).map (· % 512)).zipIdx.map (fun p => (p.2, p.1)),
                            sys := createdSys r, launchBag := r.launchBag, groups := indexed [] r.groups }

/-- The result of a plane operation by its code (R281): sources, old destination, carry and mask. -/
def planeOp (op : Nat) (a b d c m : Word) : Word :=
  match op with
  | 1 => a
  | 2 => ~~~a
  | 3 => a &&& b
  | 4 => a ||| b
  | 5 => a ^^^ b
  | 6 => (a &&& b) ||| (a &&& d) ||| (b &&& d)
  | 7 => a ^^^ b ^^^ c
  | 8 => a ^^^ ~~~b ^^^ c
  | _ => (m &&& a) ||| (~~~m &&& b)

end Sys2Proof.Claims
end

