-- ==== Sys2Proof/Laws/Decode.lean ====
section
/-! SUPPORT. Encoding and decoding: fields placed and read back, rows that no word shares, and the round trip of one row. -/

namespace Sys2Proof

/-! ### Fields -/

theorem fld_or (a b : Word) (lo n : Nat) : fld (a ||| b) lo n = fld a lo n ||| fld b lo n := by
  apply BitVec.eq_of_getLsbD_eq; intro i hi; simp [fld, hi]

theorem fld_put (lo : Nat) {n : Nat} (x : BitVec n) (h : lo + n ≤ 32) : fld (put lo x) lo n = x := by
  apply BitVec.eq_of_getLsbD_eq; intro i hi
  have a : lo + i < 32 := by omega
  have b : i < 32 := by omega
  simp [fld, put, hi, a]

theorem fld_put_apart (lo lo' : Nat) {m : Nat} (n : Nat) (x : BitVec m) (h : lo + n ≤ lo' ∨ lo' + m ≤ lo) : fld (put lo' x) lo n = 0#n := by
  apply BitVec.eq_of_getLsbD_eq; intro i hi
  rcases h with h | h
  · have : lo + i < lo' := by omega
    simp [fld, put, hi, this]
  · have a : m ≤ lo + i - lo' := by omega
    simp [fld, put, hi, BitVec.getLsbD_of_ge x _ a]

theorem put_and (lo : Nat) {n : Nat} (x : BitVec n) (m : Word) (h : fld m lo n = 0#n) : put lo x &&& m = 0#32 := by
  apply BitVec.eq_of_getLsbD_eq; intro i hi
  simp only [BitVec.getLsbD_and, BitVec.getLsbD_zero, Bool.and_eq_false_iff]
  by_cases a : lo ≤ i
  · by_cases b : i - lo < n
    · right
      have := congrArg (fun z => z.getLsbD (i - lo)) h
      simpa [fld, b, Nat.add_sub_cancel' a] using this
    · left; simp [put, hi, BitVec.getLsbD_of_ge x _ (Nat.le_of_not_lt b)]
  · left; simp [put, a]

/-! ### Rows -/

/-- Two rows differ in a bit that both fix, so no word matches both. -/
def Row.apart (a b : Row) : Bool := (a.mask &&& b.mask) &&& (a.pattern ^^^ b.pattern) != 0#32

/-- Every row is apart from each after it. -/
def rowsApart : List Row → Bool
  | [] => true
  | r :: rs => rs.all r.apart && rowsApart rs

theorem Row.apart_hits {a b : Row} {w : Word} (h : a.apart b = true) (ha : a.hits w = true) (hb : b.hits w = true) : False := by
  simp only [Row.apart, bne_iff_ne, ne_eq, Row.hits, beq_iff_eq] at h ha hb
  apply h
  rw [← ha, ← hb]
  apply BitVec.eq_of_getLsbD_eq; intro i hi
  simp only [BitVec.getLsbD_and, BitVec.getLsbD_xor, BitVec.getLsbD_zero]
  cases w.getLsbD i <;> cases a.mask.getLsbD i <;> cases b.mask.getLsbD i <;> rfl

/-- A word that matches a row is found there. -/
theorem find_row {rs : List Row} (h : rowsApart rs = true) {r : Row} {w : Word} (hr : r ∈ rs) (hw : r.hits w = true) :
    rs.find? (·.hits w) = some r := by
  induction rs with
  | nil => cases hr
  | cons a rs ih =>
    simp only [rowsApart, Bool.and_eq_true, List.all_eq_true] at h
    by_cases ha : a.hits w = true
    · rcases List.mem_cons.1 hr with e | e
      · subst e; simp [List.find?, hw]
      · exact (Row.apart_hits (h.1 r e) ha hw).elim
    · rcases List.mem_cons.1 hr with e | e
      · subst e; exact absurd hw ha
      · simp [List.find?, ha, ih h.2 e]

theorem rows32_apart : rowsApart rows32 = true := by decide +kernel

theorem rows16_apart : rowsApart rows16 = true := by decide +kernel

theorem rows32_ones : rows32.all (fun r => !r.hits 0xFFFFFFFF#32) = true := by decide +kernel

/-! ### Bytes -/

theorem wordBytes_word (w : Word) : halfOf (fld w 16 8) (fld w 24 8) ++ halfOf (fld w 0 8) (fld w 8 8) = w := by
  apply BitVec.eq_of_getLsbD_eq; intro i hi
  simp only [halfOf, BitVec.getLsbD_append, fld, BitVec.getLsbD_extractLsb']
  rcases (by omega : i < 8 ∨ (8 ≤ i ∧ i < 16) ∨ (16 ≤ i ∧ i < 24) ∨ 24 ≤ i) with h | h | h | h
  · simp [h, show i < 16 by omega]
  · simp [h.2, show ¬ i < 8 by omega, show 8 + (i - 8) = i by omega, show i - 8 < 8 by omega]
  · simp [show ¬ i < 16 by omega, show i - 16 < 8 by omega, show 16 + (i - 16) = i by omega]
  · simp [show ¬ i < 16 by omega, show ¬ i - 16 < 8 by omega, show i - 16 - 8 < 8 by omega, show 24 + (i - 16 - 8) = i by omega]

theorem halfBytes_half (h : Half) : halfOf (h.extractLsb' 0 8) (h.extractLsb' 8 8) = h := by
  apply BitVec.eq_of_getLsbD_eq; intro i hi
  simp only [halfOf, BitVec.getLsbD_append, BitVec.getLsbD_extractLsb']
  by_cases a : i < 8
  · simp [a]
  · simp [a, show i - 8 < 8 by omega, show 8 + (i - 8) = i by omega]

/-! ### One row -/

/-- The decoder reads a word built from a row's fixed bits and fields as that row's instruction. -/
theorem decode_row32 (n : Nat) (r : Row) (bits : Word) (i : Instr) (rest : List Byte) (hr : rows32[n]? = some r)
    (hb : bits &&& r.mask = 0#32) (hp : r.pattern &&& r.mask = r.pattern) (h0 : fld r.pattern 0 1 = 1#1)
    (hm : r.make (r.pattern ||| bits) = i) : decode (wordBytes (r.pattern ||| bits) ++ rest) = .ok (i, rest) := by
  have hmem : r ∈ rows32 := List.mem_of_getElem? hr
  have hits : r.hits (r.pattern ||| bits) = true := by
    simp only [Row.hits, beq_iff_eq]
    rw [BitVec.and_or_distrib_right, hp, hb, BitVec.or_zero]
  have odd : (fld (r.pattern ||| bits) 0 8).getLsbD 0 = true := by
    have := congrArg (fun z => z.getLsbD 0) h0
    simp [fld] at this ⊢; simp [this]
  have ones : r.pattern ||| bits ≠ 0xFFFFFFFF#32 := by
    intro e; rw [e] at hits
    have := List.all_eq_true.1 rows32_ones r hmem
    simp [hits] at this
  simp only [wordBytes, List.cons_append, List.nil_append, decode, odd, if_true, wordBytes_word, decode32, if_neg ones,
    find_row rows32_apart hmem hits, hm]

/-- The decoder reads a halfword built from a row's fixed bits and fields as that row's instruction. -/
theorem decode_row16 (n : Nat) (r : Row) (bits : Word) (i : Instr) (rest : List Byte) (hr : rows16[n]? = some r)
    (hb : bits &&& r.mask = 0#32) (hp : r.pattern &&& r.mask = r.pattern) (h0 : fld r.pattern 0 1 = 0#1) (hb0 : fld bits 0 1 = 0#1)
    (hhi : fld bits 16 16 = 0#16) (hph : fld r.pattern 16 16 = 0#16) (hz : r.pattern ||| bits ≠ 0#32)
    (hm : r.make (r.pattern ||| bits) = i) :
    decode (Code.bytes (.half ((r.pattern ||| bits).setWidth 16)) ++ rest) = .ok (i, rest) := by
  have hmem : r ∈ rows16 := List.mem_of_getElem? hr
  have hits : r.hits (r.pattern ||| bits) = true := by
    simp only [Row.hits, beq_iff_eq]
    rw [BitVec.and_or_distrib_right, hp, hb, BitVec.or_zero]
  have wide : ((r.pattern ||| bits).setWidth 16).setWidth 32 = r.pattern ||| bits := by
    apply BitVec.eq_of_getLsbD_eq; intro j hj
    by_cases a : j < 16
    · simp [a, hj]
    · have e1 := congrArg (fun z => z.getLsbD (j - 16)) hhi
      have e2 := congrArg (fun z => z.getLsbD (j - 16)) hph
      simp only [fld, BitVec.getLsbD_extractLsb', BitVec.getLsbD_zero, show 16 + (j - 16) = j by omega] at e1 e2
      simp [a, show j - 16 < 16 by omega] at e1 e2 ⊢
      exact ⟨e2, e1⟩
  have even : (((r.pattern ||| bits).setWidth 16).extractLsb' 0 8).getLsbD 0 = false := by
    have e1 := congrArg (fun z => z.getLsbD 0) h0
    have e2 := congrArg (fun z => z.getLsbD 0) hb0
    simp [fld] at e1 e2 ⊢; exact ⟨e1, e2⟩
  have nz : (r.pattern ||| bits).setWidth 16 ≠ 0#16 := by
    intro e; apply hz; rw [← wide, e]; rfl
  simp only [Code.bytes, List.cons_append, List.nil_append, decode, even, halfBytes_half, decode16, if_neg nz, wide,
    find_row rows16_apart hmem hits, hm]
  rfl

end Sys2Proof
end

