-- ==== Sys2Proof/Laws/PerInstr.lean ====
section
/-! SUPPORT. The round trip of each instruction: the decoder reads back what the encoder writes, every operand at every value. -/

set_option Elab.async false

namespace Sys2Proof

/-- A field that a mask covers is zero in a word the mask clears. -/
theorem fld_zero (p m : Word) (lo n : Nat) (h : p &&& m = 0#32) (hm : fld m lo n = BitVec.allOnes n) : fld p lo n = 0#n := by
  apply BitVec.eq_of_getLsbD_eq; intro i hi
  have a := congrArg (fun z => z.getLsbD (lo + i)) h
  have b := congrArg (fun z => z.getLsbD i) hm
  simp [fld, hi] at a b ⊢
  exact Bool.eq_false_iff.2 fun c => absurd (a c) (by simp [b])

/-- The words that two disjoint masks cover share no bit. -/
theorem and_zero_of (b m n : Word) (h : b &&& n = b) (hm : m &&& n = 0#32) : b &&& m = 0#32 := by
  rw [← h, BitVec.and_assoc, BitVec.and_comm n m, hm, BitVec.and_zero]

/-- Fixed bits that a mask keeps are not all zero beside fields that it clears. -/
theorem or_ne_zero (p b m : Word) (hb : b &&& m = 0#32) (hp : p &&& m ≠ 0#32) : p ||| b ≠ 0#32 := by
  intro e; apply hp
  have := congrArg (· &&& m) e
  simpa only [BitVec.and_or_distrib_right, hb, BitVec.or_zero, BitVec.zero_and] using this

/-- A field placed within a mask lies under it. -/
theorem put_within (lo : Nat) {n : Nat} (x : BitVec n) (m : Word) (hm : fld m lo n = BitVec.allOnes n) : put lo x &&& m = put lo x := by
  apply BitVec.eq_of_getLsbD_eq; intro i hi
  by_cases a : lo ≤ i
  · by_cases b : i - lo < n
    · have c := congrArg (fun z => z.getLsbD (i - lo)) hm
      simp only [fld, BitVec.getLsbD_extractLsb', Nat.add_sub_cancel' a, BitVec.getLsbD_allOnes, b, decide_true, Bool.true_and] at c
      simp [c]
    · simp [put, hi, BitVec.getLsbD_of_ge x _ (Nat.le_of_not_lt b)]
  · simp [put, a]

theorem HForm.bits_within (f : HForm) : f.bits &&& 0x0000FFE0#32 = f.bits := by
  simp only [HForm.bits, BitVec.and_or_distrib_right]
  rw [put_within 11 f.b _ (by decide), put_within 5 f.d _ (by decide)]

theorem HForm.read_bits (f : HForm) (p : Word) (h : p &&& 0x0000FFE0#32 = 0#32) : HForm.read (p ||| f.bits) = f := by
  have hb := fld_zero p _ 11 5 h (by decide)
  have hd := fld_zero p _ 5 6 h (by decide)
  simp only [HForm.read, HForm.bits, fld_or, hb, hd]
  cases f
  simp only [HForm.mk.injEq]
  refine ⟨?_, ?_⟩
  · simp only [fld_put 11 (n := 5) _ (by decide), fld_put_apart 11 5 (m := 6) 5 _ (by decide), BitVec.zero_or, BitVec.or_zero]
  · simp only [fld_put_apart 5 11 (m := 5) 6 _ (by decide), fld_put 5 (n := 6) _ (by decide), BitVec.zero_or]

theorem RForm.bits_within (f : RForm) : f.bits &&& 0xFFFFFF00#32 = f.bits := by
  simp only [RForm.bits, BitVec.and_or_distrib_right]
  rw [put_within 25 f.b _ (by decide), put_within 18 f.a _ (by decide), put_within 17 f.n _ (by decide), put_within 11 f.d _ (by decide), put_within 8 f.g _ (by decide)]

theorem RForm.read_bits (f : RForm) (p : Word) (h : p &&& 0xFFFFFF00#32 = 0#32) : RForm.read (p ||| f.bits) = f := by
  have hb := fld_zero p _ 25 7 h (by decide)
  have ha := fld_zero p _ 18 7 h (by decide)
  have hn := fld_zero p _ 17 1 h (by decide)
  have hd := fld_zero p _ 11 6 h (by decide)
  have hg := fld_zero p _ 8 3 h (by decide)
  simp only [RForm.read, RForm.bits, fld_or, hb, ha, hn, hd, hg]
  cases f
  simp only [RForm.mk.injEq]
  refine ⟨?_, ?_, ?_, ?_, ?_⟩
  · simp only [fld_put 25 (n := 7) _ (by decide), fld_put_apart 25 18 (m := 7) 7 _ (by decide), fld_put_apart 25 17 (m := 1) 7 _ (by decide), fld_put_apart 25 11 (m := 6) 7 _ (by decide), fld_put_apart 25 8 (m := 3) 7 _ (by decide), BitVec.zero_or, BitVec.or_zero]
  · simp only [fld_put_apart 18 25 (m := 7) 7 _ (by decide), fld_put 18 (n := 7) _ (by decide), fld_put_apart 18 17 (m := 1) 7 _ (by decide), fld_put_apart 18 11 (m := 6) 7 _ (by decide), fld_put_apart 18 8 (m := 3) 7 _ (by decide), BitVec.zero_or, BitVec.or_zero]
  · simp only [fld_put_apart 17 25 (m := 7) 1 _ (by decide), fld_put_apart 17 18 (m := 7) 1 _ (by decide), fld_put 17 (n := 1) _ (by decide), fld_put_apart 17 11 (m := 6) 1 _ (by decide), fld_put_apart 17 8 (m := 3) 1 _ (by decide), BitVec.zero_or, BitVec.or_zero]
  · simp only [fld_put_apart 11 25 (m := 7) 6 _ (by decide), fld_put_apart 11 18 (m := 7) 6 _ (by decide), fld_put_apart 11 17 (m := 1) 6 _ (by decide), fld_put 11 (n := 6) _ (by decide), fld_put_apart 11 8 (m := 3) 6 _ (by decide), BitVec.zero_or, BitVec.or_zero]
  · simp only [fld_put_apart 8 25 (m := 7) 3 _ (by decide), fld_put_apart 8 18 (m := 7) 3 _ (by decide), fld_put_apart 8 17 (m := 1) 3 _ (by decide), fld_put_apart 8 11 (m := 6) 3 _ (by decide), fld_put 8 (n := 3) _ (by decide), BitVec.zero_or, BitVec.or_zero]

theorem CmpForm.bits_within (f : CmpForm) : f.bits &&& 0xFFFFFF00#32 = f.bits := by
  simp only [CmpForm.bits, BitVec.and_or_distrib_right]
  rw [put_within 25 f.b _ (by decide), put_within 18 f.a _ (by decide), put_within 17 f.n _ (by decide), put_within 14 f.c _ (by decide), put_within 11 f.p _ (by decide), put_within 8 f.g _ (by decide)]

theorem CmpForm.read_bits (f : CmpForm) (p : Word) (h : p &&& 0xFFFFFF00#32 = 0#32) : CmpForm.read (p ||| f.bits) = f := by
  have hb := fld_zero p _ 25 7 h (by decide)
  have ha := fld_zero p _ 18 7 h (by decide)
  have hn := fld_zero p _ 17 1 h (by decide)
  have hc := fld_zero p _ 14 3 h (by decide)
  have hp := fld_zero p _ 11 3 h (by decide)
  have hg := fld_zero p _ 8 3 h (by decide)
  simp only [CmpForm.read, CmpForm.bits, fld_or, hb, ha, hn, hc, hp, hg]
  cases f
  simp only [CmpForm.mk.injEq]
  refine ⟨?_, ?_, ?_, ?_, ?_, ?_⟩
  · simp only [fld_put 25 (n := 7) _ (by decide), fld_put_apart 25 18 (m := 7) 7 _ (by decide), fld_put_apart 25 17 (m := 1) 7 _ (by decide), fld_put_apart 25 14 (m := 3) 7 _ (by decide), fld_put_apart 25 11 (m := 3) 7 _ (by decide), fld_put_apart 25 8 (m := 3) 7 _ (by decide), BitVec.zero_or, BitVec.or_zero]
  · simp only [fld_put_apart 18 25 (m := 7) 7 _ (by decide), fld_put 18 (n := 7) _ (by decide), fld_put_apart 18 17 (m := 1) 7 _ (by decide), fld_put_apart 18 14 (m := 3) 7 _ (by decide), fld_put_apart 18 11 (m := 3) 7 _ (by decide), fld_put_apart 18 8 (m := 3) 7 _ (by decide), BitVec.zero_or, BitVec.or_zero]
  · simp only [fld_put_apart 17 25 (m := 7) 1 _ (by decide), fld_put_apart 17 18 (m := 7) 1 _ (by decide), fld_put 17 (n := 1) _ (by decide), fld_put_apart 17 14 (m := 3) 1 _ (by decide), fld_put_apart 17 11 (m := 3) 1 _ (by decide), fld_put_apart 17 8 (m := 3) 1 _ (by decide), BitVec.zero_or, BitVec.or_zero]
  · simp only [fld_put_apart 14 25 (m := 7) 3 _ (by decide), fld_put_apart 14 18 (m := 7) 3 _ (by decide), fld_put_apart 14 17 (m := 1) 3 _ (by decide), fld_put 14 (n := 3) _ (by decide), fld_put_apart 14 11 (m := 3) 3 _ (by decide), fld_put_apart 14 8 (m := 3) 3 _ (by decide), BitVec.zero_or, BitVec.or_zero]
  · simp only [fld_put_apart 11 25 (m := 7) 3 _ (by decide), fld_put_apart 11 18 (m := 7) 3 _ (by decide), fld_put_apart 11 17 (m := 1) 3 _ (by decide), fld_put_apart 11 14 (m := 3) 3 _ (by decide), fld_put 11 (n := 3) _ (by decide), fld_put_apart 11 8 (m := 3) 3 _ (by decide), BitVec.zero_or, BitVec.or_zero]
  · simp only [fld_put_apart 8 25 (m := 7) 3 _ (by decide), fld_put_apart 8 18 (m := 7) 3 _ (by decide), fld_put_apart 8 17 (m := 1) 3 _ (by decide), fld_put_apart 8 14 (m := 3) 3 _ (by decide), fld_put_apart 8 11 (m := 3) 3 _ (by decide), fld_put 8 (n := 3) _ (by decide), BitVec.zero_or, BitVec.or_zero]

theorem UForm.bits_within (f : UForm) : f.bits &&& 0x01FFFF00#32 = f.bits := by
  simp only [UForm.bits, BitVec.and_or_distrib_right]
  rw [put_within 18 f.a _ (by decide), put_within 17 f.n _ (by decide), put_within 11 f.d _ (by decide), put_within 8 f.g _ (by decide)]

theorem UForm.read_bits (f : UForm) (p : Word) (h : p &&& 0x01FFFF00#32 = 0#32) : UForm.read (p ||| f.bits) = f := by
  have ha := fld_zero p _ 18 7 h (by decide)
  have hn := fld_zero p _ 17 1 h (by decide)
  have hd := fld_zero p _ 11 6 h (by decide)
  have hg := fld_zero p _ 8 3 h (by decide)
  simp only [UForm.read, UForm.bits, fld_or, ha, hn, hd, hg]
  cases f
  simp only [UForm.mk.injEq]
  refine ⟨?_, ?_, ?_, ?_⟩
  · simp only [fld_put 18 (n := 7) _ (by decide), fld_put_apart 18 17 (m := 1) 7 _ (by decide), fld_put_apart 18 11 (m := 6) 7 _ (by decide), fld_put_apart 18 8 (m := 3) 7 _ (by decide), BitVec.zero_or, BitVec.or_zero]
  · simp only [fld_put_apart 17 18 (m := 7) 1 _ (by decide), fld_put 17 (n := 1) _ (by decide), fld_put_apart 17 11 (m := 6) 1 _ (by decide), fld_put_apart 17 8 (m := 3) 1 _ (by decide), BitVec.zero_or, BitVec.or_zero]
  · simp only [fld_put_apart 11 18 (m := 7) 6 _ (by decide), fld_put_apart 11 17 (m := 1) 6 _ (by decide), fld_put 11 (n := 6) _ (by decide), fld_put_apart 11 8 (m := 3) 6 _ (by decide), BitVec.zero_or, BitVec.or_zero]
  · simp only [fld_put_apart 8 18 (m := 7) 3 _ (by decide), fld_put_apart 8 17 (m := 1) 3 _ (by decide), fld_put_apart 8 11 (m := 6) 3 _ (by decide), fld_put 8 (n := 3) _ (by decide), BitVec.zero_or, BitVec.or_zero]

theorem PlogForm.bits_within (f : PlogForm) : f.bits &&& 0x02FE3F00#32 = f.bits := by
  simp only [PlogForm.bits, BitVec.and_or_distrib_right]
  rw [put_within 25 f.c _ (by decide), put_within 21 f.s _ (by decide), put_within 18 f.f _ (by decide), put_within 17 f.w _ (by decide), put_within 11 f.p _ (by decide), put_within 8 f.g _ (by decide)]

theorem PlogForm.read_bits (f : PlogForm) (p : Word) (h : p &&& 0x02FE3F00#32 = 0#32) : PlogForm.read (p ||| f.bits) = f := by
  have hc := fld_zero p _ 25 1 h (by decide)
  have hs := fld_zero p _ 21 3 h (by decide)
  have hf := fld_zero p _ 18 3 h (by decide)
  have hw := fld_zero p _ 17 1 h (by decide)
  have hp := fld_zero p _ 11 3 h (by decide)
  have hg := fld_zero p _ 8 3 h (by decide)
  simp only [PlogForm.read, PlogForm.bits, fld_or, hc, hs, hf, hw, hp, hg]
  cases f
  simp only [PlogForm.mk.injEq]
  refine ⟨?_, ?_, ?_, ?_, ?_, ?_⟩
  · simp only [fld_put 25 (n := 1) _ (by decide), fld_put_apart 25 21 (m := 3) 1 _ (by decide), fld_put_apart 25 18 (m := 3) 1 _ (by decide), fld_put_apart 25 17 (m := 1) 1 _ (by decide), fld_put_apart 25 11 (m := 3) 1 _ (by decide), fld_put_apart 25 8 (m := 3) 1 _ (by decide), BitVec.zero_or, BitVec.or_zero]
  · simp only [fld_put_apart 21 25 (m := 1) 3 _ (by decide), fld_put 21 (n := 3) _ (by decide), fld_put_apart 21 18 (m := 3) 3 _ (by decide), fld_put_apart 21 17 (m := 1) 3 _ (by decide), fld_put_apart 21 11 (m := 3) 3 _ (by decide), fld_put_apart 21 8 (m := 3) 3 _ (by decide), BitVec.zero_or, BitVec.or_zero]
  · simp only [fld_put_apart 18 25 (m := 1) 3 _ (by decide), fld_put_apart 18 21 (m := 3) 3 _ (by decide), fld_put 18 (n := 3) _ (by decide), fld_put_apart 18 17 (m := 1) 3 _ (by decide), fld_put_apart 18 11 (m := 3) 3 _ (by decide), fld_put_apart 18 8 (m := 3) 3 _ (by decide), BitVec.zero_or, BitVec.or_zero]
  · simp only [fld_put_apart 17 25 (m := 1) 1 _ (by decide), fld_put_apart 17 21 (m := 3) 1 _ (by decide), fld_put_apart 17 18 (m := 3) 1 _ (by decide), fld_put 17 (n := 1) _ (by decide), fld_put_apart 17 11 (m := 3) 1 _ (by decide), fld_put_apart 17 8 (m := 3) 1 _ (by decide), BitVec.zero_or, BitVec.or_zero]
  · simp only [fld_put_apart 11 25 (m := 1) 3 _ (by decide), fld_put_apart 11 21 (m := 3) 3 _ (by decide), fld_put_apart 11 18 (m := 3) 3 _ (by decide), fld_put_apart 11 17 (m := 1) 3 _ (by decide), fld_put 11 (n := 3) _ (by decide), fld_put_apart 11 8 (m := 3) 3 _ (by decide), BitVec.zero_or, BitVec.or_zero]
  · simp only [fld_put_apart 8 25 (m := 1) 3 _ (by decide), fld_put_apart 8 21 (m := 3) 3 _ (by decide), fld_put_apart 8 18 (m := 3) 3 _ (by decide), fld_put_apart 8 17 (m := 1) 3 _ (by decide), fld_put_apart 8 11 (m := 3) 3 _ (by decide), fld_put 8 (n := 3) _ (by decide), BitVec.zero_or, BitVec.or_zero]

theorem PlogUForm.bits_within (f : PlogUForm) : f.bits &&& 0x021E3F00#32 = f.bits := by
  simp only [PlogUForm.bits, BitVec.and_or_distrib_right]
  rw [put_within 25 f.c _ (by decide), put_within 18 f.f _ (by decide), put_within 17 f.w _ (by decide), put_within 11 f.p _ (by decide), put_within 8 f.g _ (by decide)]

theorem PlogUForm.read_bits (f : PlogUForm) (p : Word) (h : p &&& 0x021E3F00#32 = 0#32) : PlogUForm.read (p ||| f.bits) = f := by
  have hc := fld_zero p _ 25 1 h (by decide)
  have hf := fld_zero p _ 18 3 h (by decide)
  have hw := fld_zero p _ 17 1 h (by decide)
  have hp := fld_zero p _ 11 3 h (by decide)
  have hg := fld_zero p _ 8 3 h (by decide)
  simp only [PlogUForm.read, PlogUForm.bits, fld_or, hc, hf, hw, hp, hg]
  cases f
  simp only [PlogUForm.mk.injEq]
  refine ⟨?_, ?_, ?_, ?_, ?_⟩
  · simp only [fld_put 25 (n := 1) _ (by decide), fld_put_apart 25 18 (m := 3) 1 _ (by decide), fld_put_apart 25 17 (m := 1) 1 _ (by decide), fld_put_apart 25 11 (m := 3) 1 _ (by decide), fld_put_apart 25 8 (m := 3) 1 _ (by decide), BitVec.zero_or, BitVec.or_zero]
  · simp only [fld_put_apart 18 25 (m := 1) 3 _ (by decide), fld_put 18 (n := 3) _ (by decide), fld_put_apart 18 17 (m := 1) 3 _ (by decide), fld_put_apart 18 11 (m := 3) 3 _ (by decide), fld_put_apart 18 8 (m := 3) 3 _ (by decide), BitVec.zero_or, BitVec.or_zero]
  · simp only [fld_put_apart 17 25 (m := 1) 1 _ (by decide), fld_put_apart 17 18 (m := 3) 1 _ (by decide), fld_put 17 (n := 1) _ (by decide), fld_put_apart 17 11 (m := 3) 1 _ (by decide), fld_put_apart 17 8 (m := 3) 1 _ (by decide), BitVec.zero_or, BitVec.or_zero]
  · simp only [fld_put_apart 11 25 (m := 1) 3 _ (by decide), fld_put_apart 11 18 (m := 3) 3 _ (by decide), fld_put_apart 11 17 (m := 1) 3 _ (by decide), fld_put 11 (n := 3) _ (by decide), fld_put_apart 11 8 (m := 3) 3 _ (by decide), BitVec.zero_or, BitVec.or_zero]
  · simp only [fld_put_apart 8 25 (m := 1) 3 _ (by decide), fld_put_apart 8 18 (m := 3) 3 _ (by decide), fld_put_apart 8 17 (m := 1) 3 _ (by decide), fld_put_apart 8 11 (m := 3) 3 _ (by decide), fld_put 8 (n := 3) _ (by decide), BitVec.zero_or, BitVec.or_zero]

theorem CvtForm.bits_within (f : CvtForm) : f.bits &&& 0x0FFFFF00#32 = f.bits := by
  simp only [CvtForm.bits, BitVec.and_or_distrib_right]
  rw [put_within 25 f.r _ (by decide), put_within 18 f.a _ (by decide), put_within 17 f.n _ (by decide), put_within 11 f.d _ (by decide), put_within 8 f.g _ (by decide)]

theorem CvtForm.read_bits (f : CvtForm) (p : Word) (h : p &&& 0x0FFFFF00#32 = 0#32) : CvtForm.read (p ||| f.bits) = f := by
  have hr := fld_zero p _ 25 3 h (by decide)
  have ha := fld_zero p _ 18 7 h (by decide)
  have hn := fld_zero p _ 17 1 h (by decide)
  have hd := fld_zero p _ 11 6 h (by decide)
  have hg := fld_zero p _ 8 3 h (by decide)
  simp only [CvtForm.read, CvtForm.bits, fld_or, hr, ha, hn, hd, hg]
  cases f
  simp only [CvtForm.mk.injEq]
  refine ⟨?_, ?_, ?_, ?_, ?_⟩
  · simp only [fld_put 25 (n := 3) _ (by decide), fld_put_apart 25 18 (m := 7) 3 _ (by decide), fld_put_apart 25 17 (m := 1) 3 _ (by decide), fld_put_apart 25 11 (m := 6) 3 _ (by decide), fld_put_apart 25 8 (m := 3) 3 _ (by decide), BitVec.zero_or, BitVec.or_zero]
  · simp only [fld_put_apart 18 25 (m := 3) 7 _ (by decide), fld_put 18 (n := 7) _ (by decide), fld_put_apart 18 17 (m := 1) 7 _ (by decide), fld_put_apart 18 11 (m := 6) 7 _ (by decide), fld_put_apart 18 8 (m := 3) 7 _ (by decide), BitVec.zero_or, BitVec.or_zero]
  · simp only [fld_put_apart 17 25 (m := 3) 1 _ (by decide), fld_put_apart 17 18 (m := 7) 1 _ (by decide), fld_put 17 (n := 1) _ (by decide), fld_put_apart 17 11 (m := 6) 1 _ (by decide), fld_put_apart 17 8 (m := 3) 1 _ (by decide), BitVec.zero_or, BitVec.or_zero]
  · simp only [fld_put_apart 11 25 (m := 3) 6 _ (by decide), fld_put_apart 11 18 (m := 7) 6 _ (by decide), fld_put_apart 11 17 (m := 1) 6 _ (by decide), fld_put 11 (n := 6) _ (by decide), fld_put_apart 11 8 (m := 3) 6 _ (by decide), BitVec.zero_or, BitVec.or_zero]
  · simp only [fld_put_apart 8 25 (m := 3) 3 _ (by decide), fld_put_apart 8 18 (m := 7) 3 _ (by decide), fld_put_apart 8 17 (m := 1) 3 _ (by decide), fld_put_apart 8 11 (m := 6) 3 _ (by decide), fld_put 8 (n := 3) _ (by decide), BitVec.zero_or, BitVec.or_zero]

theorem DsdecForm.bits_within (f : DsdecForm) : f.bits &&& 0xF7FFFF00#32 = f.bits := by
  simp only [DsdecForm.bits, BitVec.and_or_distrib_right]
  rw [put_within 28 f.t _ (by decide), put_within 25 f.b _ (by decide), put_within 18 f.a _ (by decide), put_within 17 f.n _ (by decide), put_within 11 f.d _ (by decide), put_within 8 f.g _ (by decide)]

theorem DsdecForm.read_bits (f : DsdecForm) (p : Word) (h : p &&& 0xF7FFFF00#32 = 0#32) : DsdecForm.read (p ||| f.bits) = f := by
  have ht := fld_zero p _ 28 4 h (by decide)
  have hb := fld_zero p _ 25 2 h (by decide)
  have ha := fld_zero p _ 18 7 h (by decide)
  have hn := fld_zero p _ 17 1 h (by decide)
  have hd := fld_zero p _ 11 6 h (by decide)
  have hg := fld_zero p _ 8 3 h (by decide)
  simp only [DsdecForm.read, DsdecForm.bits, fld_or, ht, hb, ha, hn, hd, hg]
  cases f
  simp only [DsdecForm.mk.injEq]
  refine ⟨?_, ?_, ?_, ?_, ?_, ?_⟩
  · simp only [fld_put 28 (n := 4) _ (by decide), fld_put_apart 28 25 (m := 2) 4 _ (by decide), fld_put_apart 28 18 (m := 7) 4 _ (by decide), fld_put_apart 28 17 (m := 1) 4 _ (by decide), fld_put_apart 28 11 (m := 6) 4 _ (by decide), fld_put_apart 28 8 (m := 3) 4 _ (by decide), BitVec.zero_or, BitVec.or_zero]
  · simp only [fld_put_apart 25 28 (m := 4) 2 _ (by decide), fld_put 25 (n := 2) _ (by decide), fld_put_apart 25 18 (m := 7) 2 _ (by decide), fld_put_apart 25 17 (m := 1) 2 _ (by decide), fld_put_apart 25 11 (m := 6) 2 _ (by decide), fld_put_apart 25 8 (m := 3) 2 _ (by decide), BitVec.zero_or, BitVec.or_zero]
  · simp only [fld_put_apart 18 28 (m := 4) 7 _ (by decide), fld_put_apart 18 25 (m := 2) 7 _ (by decide), fld_put 18 (n := 7) _ (by decide), fld_put_apart 18 17 (m := 1) 7 _ (by decide), fld_put_apart 18 11 (m := 6) 7 _ (by decide), fld_put_apart 18 8 (m := 3) 7 _ (by decide), BitVec.zero_or, BitVec.or_zero]
  · simp only [fld_put_apart 17 28 (m := 4) 1 _ (by decide), fld_put_apart 17 25 (m := 2) 1 _ (by decide), fld_put_apart 17 18 (m := 7) 1 _ (by decide), fld_put 17 (n := 1) _ (by decide), fld_put_apart 17 11 (m := 6) 1 _ (by decide), fld_put_apart 17 8 (m := 3) 1 _ (by decide), BitVec.zero_or, BitVec.or_zero]
  · simp only [fld_put_apart 11 28 (m := 4) 6 _ (by decide), fld_put_apart 11 25 (m := 2) 6 _ (by decide), fld_put_apart 11 18 (m := 7) 6 _ (by decide), fld_put_apart 11 17 (m := 1) 6 _ (by decide), fld_put 11 (n := 6) _ (by decide), fld_put_apart 11 8 (m := 3) 6 _ (by decide), BitVec.zero_or, BitVec.or_zero]
  · simp only [fld_put_apart 8 28 (m := 4) 3 _ (by decide), fld_put_apart 8 25 (m := 2) 3 _ (by decide), fld_put_apart 8 18 (m := 7) 3 _ (by decide), fld_put_apart 8 17 (m := 1) 3 _ (by decide), fld_put_apart 8 11 (m := 6) 3 _ (by decide), fld_put 8 (n := 3) _ (by decide), BitVec.zero_or, BitVec.or_zero]

theorem DsencForm.bits_within (f : DsencForm) : f.bits &&& 0xF1FFFF00#32 = f.bits := by
  simp only [DsencForm.bits, BitVec.and_or_distrib_right]
  rw [put_within 28 f.t _ (by decide), put_within 18 f.a _ (by decide), put_within 17 f.n _ (by decide), put_within 11 f.d _ (by decide), put_within 8 f.g _ (by decide)]

theorem DsencForm.read_bits (f : DsencForm) (p : Word) (h : p &&& 0xF1FFFF00#32 = 0#32) : DsencForm.read (p ||| f.bits) = f := by
  have ht := fld_zero p _ 28 4 h (by decide)
  have ha := fld_zero p _ 18 7 h (by decide)
  have hn := fld_zero p _ 17 1 h (by decide)
  have hd := fld_zero p _ 11 6 h (by decide)
  have hg := fld_zero p _ 8 3 h (by decide)
  simp only [DsencForm.read, DsencForm.bits, fld_or, ht, ha, hn, hd, hg]
  cases f
  simp only [DsencForm.mk.injEq]
  refine ⟨?_, ?_, ?_, ?_, ?_⟩
  · simp only [fld_put 28 (n := 4) _ (by decide), fld_put_apart 28 18 (m := 7) 4 _ (by decide), fld_put_apart 28 17 (m := 1) 4 _ (by decide), fld_put_apart 28 11 (m := 6) 4 _ (by decide), fld_put_apart 28 8 (m := 3) 4 _ (by decide), BitVec.zero_or, BitVec.or_zero]
  · simp only [fld_put_apart 18 28 (m := 4) 7 _ (by decide), fld_put 18 (n := 7) _ (by decide), fld_put_apart 18 17 (m := 1) 7 _ (by decide), fld_put_apart 18 11 (m := 6) 7 _ (by decide), fld_put_apart 18 8 (m := 3) 7 _ (by decide), BitVec.zero_or, BitVec.or_zero]
  · simp only [fld_put_apart 17 28 (m := 4) 1 _ (by decide), fld_put_apart 17 18 (m := 7) 1 _ (by decide), fld_put 17 (n := 1) _ (by decide), fld_put_apart 17 11 (m := 6) 1 _ (by decide), fld_put_apart 17 8 (m := 3) 1 _ (by decide), BitVec.zero_or, BitVec.or_zero]
  · simp only [fld_put_apart 11 28 (m := 4) 6 _ (by decide), fld_put_apart 11 18 (m := 7) 6 _ (by decide), fld_put_apart 11 17 (m := 1) 6 _ (by decide), fld_put 11 (n := 6) _ (by decide), fld_put_apart 11 8 (m := 3) 6 _ (by decide), BitVec.zero_or, BitVec.or_zero]
  · simp only [fld_put_apart 8 28 (m := 4) 3 _ (by decide), fld_put_apart 8 18 (m := 7) 3 _ (by decide), fld_put_apart 8 17 (m := 1) 3 _ (by decide), fld_put_apart 8 11 (m := 6) 3 _ (by decide), fld_put 8 (n := 3) _ (by decide), BitVec.zero_or, BitVec.or_zero]

theorem LdForm.bits_within (f : LdForm) : f.bits &&& 0xE1FFFF00#32 = f.bits := by
  simp only [LdForm.bits, BitVec.and_or_distrib_right]
  rw [put_within 29 f.p _ (by decide), put_within 20 f.n _ (by decide), put_within 17 f.o _ (by decide), put_within 14 f.s _ (by decide), put_within 8 f.d _ (by decide)]

theorem LdForm.read_bits (f : LdForm) (p : Word) (h : p &&& 0xE1FFFF00#32 = 0#32) : LdForm.read (p ||| f.bits) = f := by
  have hp := fld_zero p _ 29 3 h (by decide)
  have hn := fld_zero p _ 20 5 h (by decide)
  have ho := fld_zero p _ 17 3 h (by decide)
  have hs := fld_zero p _ 14 3 h (by decide)
  have hd := fld_zero p _ 8 6 h (by decide)
  simp only [LdForm.read, LdForm.bits, fld_or, hp, hn, ho, hs, hd]
  cases f
  simp only [LdForm.mk.injEq]
  refine ⟨?_, ?_, ?_, ?_, ?_⟩
  · simp only [fld_put 29 (n := 3) _ (by decide), fld_put_apart 29 20 (m := 5) 3 _ (by decide), fld_put_apart 29 17 (m := 3) 3 _ (by decide), fld_put_apart 29 14 (m := 3) 3 _ (by decide), fld_put_apart 29 8 (m := 6) 3 _ (by decide), BitVec.zero_or, BitVec.or_zero]
  · simp only [fld_put_apart 20 29 (m := 3) 5 _ (by decide), fld_put 20 (n := 5) _ (by decide), fld_put_apart 20 17 (m := 3) 5 _ (by decide), fld_put_apart 20 14 (m := 3) 5 _ (by decide), fld_put_apart 20 8 (m := 6) 5 _ (by decide), BitVec.zero_or, BitVec.or_zero]
  · simp only [fld_put_apart 17 29 (m := 3) 3 _ (by decide), fld_put_apart 17 20 (m := 5) 3 _ (by decide), fld_put 17 (n := 3) _ (by decide), fld_put_apart 17 14 (m := 3) 3 _ (by decide), fld_put_apart 17 8 (m := 6) 3 _ (by decide), BitVec.zero_or, BitVec.or_zero]
  · simp only [fld_put_apart 14 29 (m := 3) 3 _ (by decide), fld_put_apart 14 20 (m := 5) 3 _ (by decide), fld_put_apart 14 17 (m := 3) 3 _ (by decide), fld_put 14 (n := 3) _ (by decide), fld_put_apart 14 8 (m := 6) 3 _ (by decide), BitVec.zero_or, BitVec.or_zero]
  · simp only [fld_put_apart 8 29 (m := 3) 6 _ (by decide), fld_put_apart 8 20 (m := 5) 6 _ (by decide), fld_put_apart 8 17 (m := 3) 6 _ (by decide), fld_put_apart 8 14 (m := 3) 6 _ (by decide), fld_put 8 (n := 6) _ (by decide), BitVec.zero_or, BitVec.or_zero]

theorem StForm.bits_within (f : StForm) : f.bits &&& 0xFFFFC000#32 = f.bits := by
  simp only [StForm.bits, BitVec.and_or_distrib_right]
  rw [put_within 25 f.t _ (by decide), put_within 20 f.n _ (by decide), put_within 17 f.o _ (by decide), put_within 14 f.s _ (by decide)]

theorem StForm.read_bits (f : StForm) (p : Word) (h : p &&& 0xFFFFC000#32 = 0#32) : StForm.read (p ||| f.bits) = f := by
  have ht := fld_zero p _ 25 7 h (by decide)
  have hn := fld_zero p _ 20 5 h (by decide)
  have ho := fld_zero p _ 17 3 h (by decide)
  have hs := fld_zero p _ 14 3 h (by decide)
  simp only [StForm.read, StForm.bits, fld_or, ht, hn, ho, hs]
  cases f
  simp only [StForm.mk.injEq]
  refine ⟨?_, ?_, ?_, ?_⟩
  · simp only [fld_put 25 (n := 7) _ (by decide), fld_put_apart 25 20 (m := 5) 7 _ (by decide), fld_put_apart 25 17 (m := 3) 7 _ (by decide), fld_put_apart 25 14 (m := 3) 7 _ (by decide), BitVec.zero_or, BitVec.or_zero]
  · simp only [fld_put_apart 20 25 (m := 7) 5 _ (by decide), fld_put 20 (n := 5) _ (by decide), fld_put_apart 20 17 (m := 3) 5 _ (by decide), fld_put_apart 20 14 (m := 3) 5 _ (by decide), BitVec.zero_or, BitVec.or_zero]
  · simp only [fld_put_apart 17 25 (m := 7) 3 _ (by decide), fld_put_apart 17 20 (m := 5) 3 _ (by decide), fld_put 17 (n := 3) _ (by decide), fld_put_apart 17 14 (m := 3) 3 _ (by decide), BitVec.zero_or, BitVec.or_zero]
  · simp only [fld_put_apart 14 25 (m := 7) 3 _ (by decide), fld_put_apart 14 20 (m := 5) 3 _ (by decide), fld_put_apart 14 17 (m := 3) 3 _ (by decide), fld_put 14 (n := 3) _ (by decide), BitVec.zero_or, BitVec.or_zero]

theorem AtomForm.bits_within (f : AtomForm) : f.bits &&& 0xFFFFFF00#32 = f.bits := by
  simp only [AtomForm.bits, BitVec.and_or_distrib_right]
  rw [put_within 25 f.b _ (by decide), put_within 20 f.n _ (by decide), put_within 16 f.o _ (by decide), put_within 15 f.u _ (by decide), put_within 14 f.r _ (by decide), put_within 8 f.d _ (by decide)]

theorem AtomForm.read_bits (f : AtomForm) (p : Word) (h : p &&& 0xFFFFFF00#32 = 0#32) : AtomForm.read (p ||| f.bits) = f := by
  have hb := fld_zero p _ 25 7 h (by decide)
  have hn := fld_zero p _ 20 5 h (by decide)
  have ho := fld_zero p _ 16 4 h (by decide)
  have hu := fld_zero p _ 15 1 h (by decide)
  have hr := fld_zero p _ 14 1 h (by decide)
  have hd := fld_zero p _ 8 6 h (by decide)
  simp only [AtomForm.read, AtomForm.bits, fld_or, hb, hn, ho, hu, hr, hd]
  cases f
  simp only [AtomForm.mk.injEq]
  refine ⟨?_, ?_, ?_, ?_, ?_, ?_⟩
  · simp only [fld_put 25 (n := 7) _ (by decide), fld_put_apart 25 20 (m := 5) 7 _ (by decide), fld_put_apart 25 16 (m := 4) 7 _ (by decide), fld_put_apart 25 15 (m := 1) 7 _ (by decide), fld_put_apart 25 14 (m := 1) 7 _ (by decide), fld_put_apart 25 8 (m := 6) 7 _ (by decide), BitVec.zero_or, BitVec.or_zero]
  · simp only [fld_put_apart 20 25 (m := 7) 5 _ (by decide), fld_put 20 (n := 5) _ (by decide), fld_put_apart 20 16 (m := 4) 5 _ (by decide), fld_put_apart 20 15 (m := 1) 5 _ (by decide), fld_put_apart 20 14 (m := 1) 5 _ (by decide), fld_put_apart 20 8 (m := 6) 5 _ (by decide), BitVec.zero_or, BitVec.or_zero]
  · simp only [fld_put_apart 16 25 (m := 7) 4 _ (by decide), fld_put_apart 16 20 (m := 5) 4 _ (by decide), fld_put 16 (n := 4) _ (by decide), fld_put_apart 16 15 (m := 1) 4 _ (by decide), fld_put_apart 16 14 (m := 1) 4 _ (by decide), fld_put_apart 16 8 (m := 6) 4 _ (by decide), BitVec.zero_or, BitVec.or_zero]
  · simp only [fld_put_apart 15 25 (m := 7) 1 _ (by decide), fld_put_apart 15 20 (m := 5) 1 _ (by decide), fld_put_apart 15 16 (m := 4) 1 _ (by decide), fld_put 15 (n := 1) _ (by decide), fld_put_apart 15 14 (m := 1) 1 _ (by decide), fld_put_apart 15 8 (m := 6) 1 _ (by decide), BitVec.zero_or, BitVec.or_zero]
  · simp only [fld_put_apart 14 25 (m := 7) 1 _ (by decide), fld_put_apart 14 20 (m := 5) 1 _ (by decide), fld_put_apart 14 16 (m := 4) 1 _ (by decide), fld_put_apart 14 15 (m := 1) 1 _ (by decide), fld_put 14 (n := 1) _ (by decide), fld_put_apart 14 8 (m := 6) 1 _ (by decide), BitVec.zero_or, BitVec.or_zero]
  · simp only [fld_put_apart 8 25 (m := 7) 6 _ (by decide), fld_put_apart 8 20 (m := 5) 6 _ (by decide), fld_put_apart 8 16 (m := 4) 6 _ (by decide), fld_put_apart 8 15 (m := 1) 6 _ (by decide), fld_put_apart 8 14 (m := 1) 6 _ (by decide), fld_put 8 (n := 6) _ (by decide), BitVec.zero_or, BitVec.or_zero]

theorem RedForm.bits_within (f : RedForm) : f.bits &&& 0xFFFFC100#32 = f.bits := by
  simp only [RedForm.bits, BitVec.and_or_distrib_right]
  rw [put_within 25 f.b _ (by decide), put_within 20 f.n _ (by decide), put_within 16 f.o _ (by decide), put_within 15 f.u _ (by decide), put_within 14 f.r _ (by decide), put_within 8 f.w _ (by decide)]

theorem RedForm.read_bits (f : RedForm) (p : Word) (h : p &&& 0xFFFFC100#32 = 0#32) : RedForm.read (p ||| f.bits) = f := by
  have hb := fld_zero p _ 25 7 h (by decide)
  have hn := fld_zero p _ 20 5 h (by decide)
  have ho := fld_zero p _ 16 4 h (by decide)
  have hu := fld_zero p _ 15 1 h (by decide)
  have hr := fld_zero p _ 14 1 h (by decide)
  have hw := fld_zero p _ 8 1 h (by decide)
  simp only [RedForm.read, RedForm.bits, fld_or, hb, hn, ho, hu, hr, hw]
  cases f
  simp only [RedForm.mk.injEq]
  refine ⟨?_, ?_, ?_, ?_, ?_, ?_⟩
  · simp only [fld_put 25 (n := 7) _ (by decide), fld_put_apart 25 20 (m := 5) 7 _ (by decide), fld_put_apart 25 16 (m := 4) 7 _ (by decide), fld_put_apart 25 15 (m := 1) 7 _ (by decide), fld_put_apart 25 14 (m := 1) 7 _ (by decide), fld_put_apart 25 8 (m := 1) 7 _ (by decide), BitVec.zero_or, BitVec.or_zero]
  · simp only [fld_put_apart 20 25 (m := 7) 5 _ (by decide), fld_put 20 (n := 5) _ (by decide), fld_put_apart 20 16 (m := 4) 5 _ (by decide), fld_put_apart 20 15 (m := 1) 5 _ (by decide), fld_put_apart 20 14 (m := 1) 5 _ (by decide), fld_put_apart 20 8 (m := 1) 5 _ (by decide), BitVec.zero_or, BitVec.or_zero]
  · simp only [fld_put_apart 16 25 (m := 7) 4 _ (by decide), fld_put_apart 16 20 (m := 5) 4 _ (by decide), fld_put 16 (n := 4) _ (by decide), fld_put_apart 16 15 (m := 1) 4 _ (by decide), fld_put_apart 16 14 (m := 1) 4 _ (by decide), fld_put_apart 16 8 (m := 1) 4 _ (by decide), BitVec.zero_or, BitVec.or_zero]
  · simp only [fld_put_apart 15 25 (m := 7) 1 _ (by decide), fld_put_apart 15 20 (m := 5) 1 _ (by decide), fld_put_apart 15 16 (m := 4) 1 _ (by decide), fld_put 15 (n := 1) _ (by decide), fld_put_apart 15 14 (m := 1) 1 _ (by decide), fld_put_apart 15 8 (m := 1) 1 _ (by decide), BitVec.zero_or, BitVec.or_zero]
  · simp only [fld_put_apart 14 25 (m := 7) 1 _ (by decide), fld_put_apart 14 20 (m := 5) 1 _ (by decide), fld_put_apart 14 16 (m := 4) 1 _ (by decide), fld_put_apart 14 15 (m := 1) 1 _ (by decide), fld_put 14 (n := 1) _ (by decide), fld_put_apart 14 8 (m := 1) 1 _ (by decide), BitVec.zero_or, BitVec.or_zero]
  · simp only [fld_put_apart 8 25 (m := 7) 1 _ (by decide), fld_put_apart 8 20 (m := 5) 1 _ (by decide), fld_put_apart 8 16 (m := 4) 1 _ (by decide), fld_put_apart 8 15 (m := 1) 1 _ (by decide), fld_put_apart 8 14 (m := 1) 1 _ (by decide), fld_put 8 (n := 1) _ (by decide), BitVec.zero_or, BitVec.or_zero]

theorem CopyForm.bits_within (f : CopyForm) : f.bits &&& 0xFFFFFF00#32 = f.bits := by
  simp only [CopyForm.bits, BitVec.and_or_distrib_right]
  rw [put_within 25 f.d _ (by decide), put_within 18 f.s _ (by decide), put_within 14 f.i _ (by decide), put_within 13 f.q _ (by decide), put_within 8 f.k _ (by decide)]

theorem CopyForm.read_bits (f : CopyForm) (p : Word) (h : p &&& 0xFFFFFF00#32 = 0#32) : CopyForm.read (p ||| f.bits) = f := by
  have hd := fld_zero p _ 25 7 h (by decide)
  have hs := fld_zero p _ 18 7 h (by decide)
  have hi := fld_zero p _ 14 4 h (by decide)
  have hq := fld_zero p _ 13 1 h (by decide)
  have hk := fld_zero p _ 8 5 h (by decide)
  simp only [CopyForm.read, CopyForm.bits, fld_or, hd, hs, hi, hq, hk]
  cases f
  simp only [CopyForm.mk.injEq]
  refine ⟨?_, ?_, ?_, ?_, ?_⟩
  · simp only [fld_put 25 (n := 7) _ (by decide), fld_put_apart 25 18 (m := 7) 7 _ (by decide), fld_put_apart 25 14 (m := 4) 7 _ (by decide), fld_put_apart 25 13 (m := 1) 7 _ (by decide), fld_put_apart 25 8 (m := 5) 7 _ (by decide), BitVec.zero_or, BitVec.or_zero]
  · simp only [fld_put_apart 18 25 (m := 7) 7 _ (by decide), fld_put 18 (n := 7) _ (by decide), fld_put_apart 18 14 (m := 4) 7 _ (by decide), fld_put_apart 18 13 (m := 1) 7 _ (by decide), fld_put_apart 18 8 (m := 5) 7 _ (by decide), BitVec.zero_or, BitVec.or_zero]
  · simp only [fld_put_apart 14 25 (m := 7) 4 _ (by decide), fld_put_apart 14 18 (m := 7) 4 _ (by decide), fld_put 14 (n := 4) _ (by decide), fld_put_apart 14 13 (m := 1) 4 _ (by decide), fld_put_apart 14 8 (m := 5) 4 _ (by decide), BitVec.zero_or, BitVec.or_zero]
  · simp only [fld_put_apart 13 25 (m := 7) 1 _ (by decide), fld_put_apart 13 18 (m := 7) 1 _ (by decide), fld_put_apart 13 14 (m := 4) 1 _ (by decide), fld_put 13 (n := 1) _ (by decide), fld_put_apart 13 8 (m := 5) 1 _ (by decide), BitVec.zero_or, BitVec.or_zero]
  · simp only [fld_put_apart 8 25 (m := 7) 5 _ (by decide), fld_put_apart 8 18 (m := 7) 5 _ (by decide), fld_put_apart 8 14 (m := 4) 5 _ (by decide), fld_put_apart 8 13 (m := 1) 5 _ (by decide), fld_put 8 (n := 5) _ (by decide), BitVec.zero_or, BitVec.or_zero]

theorem CwaitForm.bits_within (f : CwaitForm) : f.bits &&& 0x03FFFF00#32 = f.bits := by
  simp only [CwaitForm.bits, BitVec.and_or_distrib_right]
  rw [put_within 25 f.e _ (by decide), put_within 22 f.k _ (by decide), put_within 18 f.c _ (by decide), put_within 17 f.w _ (by decide), put_within 11 f.d _ (by decide), put_within 8 f.g _ (by decide)]

theorem CwaitForm.read_bits (f : CwaitForm) (p : Word) (h : p &&& 0x03FFFF00#32 = 0#32) : CwaitForm.read (p ||| f.bits) = f := by
  have he := fld_zero p _ 25 1 h (by decide)
  have hk := fld_zero p _ 22 3 h (by decide)
  have hc := fld_zero p _ 18 4 h (by decide)
  have hw := fld_zero p _ 17 1 h (by decide)
  have hd := fld_zero p _ 11 6 h (by decide)
  have hg := fld_zero p _ 8 3 h (by decide)
  simp only [CwaitForm.read, CwaitForm.bits, fld_or, he, hk, hc, hw, hd, hg]
  cases f
  simp only [CwaitForm.mk.injEq]
  refine ⟨?_, ?_, ?_, ?_, ?_, ?_⟩
  · simp only [fld_put 25 (n := 1) _ (by decide), fld_put_apart 25 22 (m := 3) 1 _ (by decide), fld_put_apart 25 18 (m := 4) 1 _ (by decide), fld_put_apart 25 17 (m := 1) 1 _ (by decide), fld_put_apart 25 11 (m := 6) 1 _ (by decide), fld_put_apart 25 8 (m := 3) 1 _ (by decide), BitVec.zero_or, BitVec.or_zero]
  · simp only [fld_put_apart 22 25 (m := 1) 3 _ (by decide), fld_put 22 (n := 3) _ (by decide), fld_put_apart 22 18 (m := 4) 3 _ (by decide), fld_put_apart 22 17 (m := 1) 3 _ (by decide), fld_put_apart 22 11 (m := 6) 3 _ (by decide), fld_put_apart 22 8 (m := 3) 3 _ (by decide), BitVec.zero_or, BitVec.or_zero]
  · simp only [fld_put_apart 18 25 (m := 1) 4 _ (by decide), fld_put_apart 18 22 (m := 3) 4 _ (by decide), fld_put 18 (n := 4) _ (by decide), fld_put_apart 18 17 (m := 1) 4 _ (by decide), fld_put_apart 18 11 (m := 6) 4 _ (by decide), fld_put_apart 18 8 (m := 3) 4 _ (by decide), BitVec.zero_or, BitVec.or_zero]
  · simp only [fld_put_apart 17 25 (m := 1) 1 _ (by decide), fld_put_apart 17 22 (m := 3) 1 _ (by decide), fld_put_apart 17 18 (m := 4) 1 _ (by decide), fld_put 17 (n := 1) _ (by decide), fld_put_apart 17 11 (m := 6) 1 _ (by decide), fld_put_apart 17 8 (m := 3) 1 _ (by decide), BitVec.zero_or, BitVec.or_zero]
  · simp only [fld_put_apart 11 25 (m := 1) 6 _ (by decide), fld_put_apart 11 22 (m := 3) 6 _ (by decide), fld_put_apart 11 18 (m := 4) 6 _ (by decide), fld_put_apart 11 17 (m := 1) 6 _ (by decide), fld_put 11 (n := 6) _ (by decide), fld_put_apart 11 8 (m := 3) 6 _ (by decide), BitVec.zero_or, BitVec.or_zero]
  · simp only [fld_put_apart 8 25 (m := 1) 3 _ (by decide), fld_put_apart 8 22 (m := 3) 3 _ (by decide), fld_put_apart 8 18 (m := 4) 3 _ (by decide), fld_put_apart 8 17 (m := 1) 3 _ (by decide), fld_put_apart 8 11 (m := 6) 3 _ (by decide), fld_put 8 (n := 3) _ (by decide), BitVec.zero_or, BitVec.or_zero]

theorem CtestForm.bits_within (f : CtestForm) : f.bits &&& 0x01FFFF00#32 = f.bits := by
  simp only [CtestForm.bits, BitVec.and_or_distrib_right]
  rw [put_within 22 f.k _ (by decide), put_within 18 f.c _ (by decide), put_within 17 f.w _ (by decide), put_within 11 f.d _ (by decide), put_within 8 f.g _ (by decide)]

theorem CtestForm.read_bits (f : CtestForm) (p : Word) (h : p &&& 0x01FFFF00#32 = 0#32) : CtestForm.read (p ||| f.bits) = f := by
  have hk := fld_zero p _ 22 3 h (by decide)
  have hc := fld_zero p _ 18 4 h (by decide)
  have hw := fld_zero p _ 17 1 h (by decide)
  have hd := fld_zero p _ 11 6 h (by decide)
  have hg := fld_zero p _ 8 3 h (by decide)
  simp only [CtestForm.read, CtestForm.bits, fld_or, hk, hc, hw, hd, hg]
  cases f
  simp only [CtestForm.mk.injEq]
  refine ⟨?_, ?_, ?_, ?_, ?_⟩
  · simp only [fld_put 22 (n := 3) _ (by decide), fld_put_apart 22 18 (m := 4) 3 _ (by decide), fld_put_apart 22 17 (m := 1) 3 _ (by decide), fld_put_apart 22 11 (m := 6) 3 _ (by decide), fld_put_apart 22 8 (m := 3) 3 _ (by decide), BitVec.zero_or, BitVec.or_zero]
  · simp only [fld_put_apart 18 22 (m := 3) 4 _ (by decide), fld_put 18 (n := 4) _ (by decide), fld_put_apart 18 17 (m := 1) 4 _ (by decide), fld_put_apart 18 11 (m := 6) 4 _ (by decide), fld_put_apart 18 8 (m := 3) 4 _ (by decide), BitVec.zero_or, BitVec.or_zero]
  · simp only [fld_put_apart 17 22 (m := 3) 1 _ (by decide), fld_put_apart 17 18 (m := 4) 1 _ (by decide), fld_put 17 (n := 1) _ (by decide), fld_put_apart 17 11 (m := 6) 1 _ (by decide), fld_put_apart 17 8 (m := 3) 1 _ (by decide), BitVec.zero_or, BitVec.or_zero]
  · simp only [fld_put_apart 11 22 (m := 3) 6 _ (by decide), fld_put_apart 11 18 (m := 4) 6 _ (by decide), fld_put_apart 11 17 (m := 1) 6 _ (by decide), fld_put 11 (n := 6) _ (by decide), fld_put_apart 11 8 (m := 3) 6 _ (by decide), BitVec.zero_or, BitVec.or_zero]
  · simp only [fld_put_apart 8 22 (m := 3) 3 _ (by decide), fld_put_apart 8 18 (m := 4) 3 _ (by decide), fld_put_apart 8 17 (m := 1) 3 _ (by decide), fld_put_apart 8 11 (m := 6) 3 _ (by decide), fld_put 8 (n := 3) _ (by decide), BitVec.zero_or, BitVec.or_zero]

theorem BputForm.bits_within (f : BputForm) : f.bits &&& 0xFFFFFF00#32 = f.bits := by
  simp only [BputForm.bits, BitVec.and_or_distrib_right]
  rw [put_within 25 f.k _ (by decide), put_within 18 f.r _ (by decide), put_within 14 f.h _ (by decide), put_within 11 f.s _ (by decide), put_within 8 f.z _ (by decide)]

theorem BputForm.read_bits (f : BputForm) (p : Word) (h : p &&& 0xFFFFFF00#32 = 0#32) : BputForm.read (p ||| f.bits) = f := by
  have hk := fld_zero p _ 25 7 h (by decide)
  have hr := fld_zero p _ 18 7 h (by decide)
  have hh := fld_zero p _ 14 4 h (by decide)
  have hs := fld_zero p _ 11 3 h (by decide)
  have hz := fld_zero p _ 8 3 h (by decide)
  simp only [BputForm.read, BputForm.bits, fld_or, hk, hr, hh, hs, hz]
  cases f
  simp only [BputForm.mk.injEq]
  refine ⟨?_, ?_, ?_, ?_, ?_⟩
  · simp only [fld_put 25 (n := 7) _ (by decide), fld_put_apart 25 18 (m := 7) 7 _ (by decide), fld_put_apart 25 14 (m := 4) 7 _ (by decide), fld_put_apart 25 11 (m := 3) 7 _ (by decide), fld_put_apart 25 8 (m := 3) 7 _ (by decide), BitVec.zero_or, BitVec.or_zero]
  · simp only [fld_put_apart 18 25 (m := 7) 7 _ (by decide), fld_put 18 (n := 7) _ (by decide), fld_put_apart 18 14 (m := 4) 7 _ (by decide), fld_put_apart 18 11 (m := 3) 7 _ (by decide), fld_put_apart 18 8 (m := 3) 7 _ (by decide), BitVec.zero_or, BitVec.or_zero]
  · simp only [fld_put_apart 14 25 (m := 7) 4 _ (by decide), fld_put_apart 14 18 (m := 7) 4 _ (by decide), fld_put 14 (n := 4) _ (by decide), fld_put_apart 14 11 (m := 3) 4 _ (by decide), fld_put_apart 14 8 (m := 3) 4 _ (by decide), BitVec.zero_or, BitVec.or_zero]
  · simp only [fld_put_apart 11 25 (m := 7) 3 _ (by decide), fld_put_apart 11 18 (m := 7) 3 _ (by decide), fld_put_apart 11 14 (m := 4) 3 _ (by decide), fld_put 11 (n := 3) _ (by decide), fld_put_apart 11 8 (m := 3) 3 _ (by decide), BitVec.zero_or, BitVec.or_zero]
  · simp only [fld_put_apart 8 25 (m := 7) 3 _ (by decide), fld_put_apart 8 18 (m := 7) 3 _ (by decide), fld_put_apart 8 14 (m := 4) 3 _ (by decide), fld_put_apart 8 11 (m := 3) 3 _ (by decide), fld_put 8 (n := 3) _ (by decide), BitVec.zero_or, BitVec.or_zero]

theorem MmxForm.bits_within (f : MmxForm) : f.bits &&& 0xFFFFFF00#32 = f.bits := by
  simp only [MmxForm.bits, BitVec.and_or_distrib_right]
  rw [put_within 25 f.a _ (by decide), put_within 18 f.b _ (by decide), put_within 14 f.c _ (by decide), put_within 12 f.t _ (by decide), put_within 10 f.s _ (by decide), put_within 8 f.o _ (by decide)]

theorem MmxForm.read_bits (f : MmxForm) (p : Word) (h : p &&& 0xFFFFFF00#32 = 0#32) : MmxForm.read (p ||| f.bits) = f := by
  have ha := fld_zero p _ 25 7 h (by decide)
  have hb := fld_zero p _ 18 7 h (by decide)
  have hc := fld_zero p _ 14 4 h (by decide)
  have ht := fld_zero p _ 12 2 h (by decide)
  have hs := fld_zero p _ 10 2 h (by decide)
  have ho := fld_zero p _ 8 2 h (by decide)
  simp only [MmxForm.read, MmxForm.bits, fld_or, ha, hb, hc, ht, hs, ho]
  cases f
  simp only [MmxForm.mk.injEq]
  refine ⟨?_, ?_, ?_, ?_, ?_, ?_⟩
  · simp only [fld_put 25 (n := 7) _ (by decide), fld_put_apart 25 18 (m := 7) 7 _ (by decide), fld_put_apart 25 14 (m := 4) 7 _ (by decide), fld_put_apart 25 12 (m := 2) 7 _ (by decide), fld_put_apart 25 10 (m := 2) 7 _ (by decide), fld_put_apart 25 8 (m := 2) 7 _ (by decide), BitVec.zero_or, BitVec.or_zero]
  · simp only [fld_put_apart 18 25 (m := 7) 7 _ (by decide), fld_put 18 (n := 7) _ (by decide), fld_put_apart 18 14 (m := 4) 7 _ (by decide), fld_put_apart 18 12 (m := 2) 7 _ (by decide), fld_put_apart 18 10 (m := 2) 7 _ (by decide), fld_put_apart 18 8 (m := 2) 7 _ (by decide), BitVec.zero_or, BitVec.or_zero]
  · simp only [fld_put_apart 14 25 (m := 7) 4 _ (by decide), fld_put_apart 14 18 (m := 7) 4 _ (by decide), fld_put 14 (n := 4) _ (by decide), fld_put_apart 14 12 (m := 2) 4 _ (by decide), fld_put_apart 14 10 (m := 2) 4 _ (by decide), fld_put_apart 14 8 (m := 2) 4 _ (by decide), BitVec.zero_or, BitVec.or_zero]
  · simp only [fld_put_apart 12 25 (m := 7) 2 _ (by decide), fld_put_apart 12 18 (m := 7) 2 _ (by decide), fld_put_apart 12 14 (m := 4) 2 _ (by decide), fld_put 12 (n := 2) _ (by decide), fld_put_apart 12 10 (m := 2) 2 _ (by decide), fld_put_apart 12 8 (m := 2) 2 _ (by decide), BitVec.zero_or, BitVec.or_zero]
  · simp only [fld_put_apart 10 25 (m := 7) 2 _ (by decide), fld_put_apart 10 18 (m := 7) 2 _ (by decide), fld_put_apart 10 14 (m := 4) 2 _ (by decide), fld_put_apart 10 12 (m := 2) 2 _ (by decide), fld_put 10 (n := 2) _ (by decide), fld_put_apart 10 8 (m := 2) 2 _ (by decide), BitVec.zero_or, BitVec.or_zero]
  · simp only [fld_put_apart 8 25 (m := 7) 2 _ (by decide), fld_put_apart 8 18 (m := 7) 2 _ (by decide), fld_put_apart 8 14 (m := 4) 2 _ (by decide), fld_put_apart 8 12 (m := 2) 2 _ (by decide), fld_put_apart 8 10 (m := 2) 2 _ (by decide), fld_put 8 (n := 2) _ (by decide), BitVec.zero_or, BitVec.or_zero]

theorem MtileForm.bits_within (f : MtileForm) : f.bits &&& 0xFE03FC00#32 = f.bits := by
  simp only [MtileForm.bits, BitVec.and_or_distrib_right]
  rw [put_within 25 f.a _ (by decide), put_within 14 f.c _ (by decide), put_within 12 f.t _ (by decide), put_within 10 f.s _ (by decide)]

theorem MtileForm.read_bits (f : MtileForm) (p : Word) (h : p &&& 0xFE03FC00#32 = 0#32) : MtileForm.read (p ||| f.bits) = f := by
  have ha := fld_zero p _ 25 7 h (by decide)
  have hc := fld_zero p _ 14 4 h (by decide)
  have ht := fld_zero p _ 12 2 h (by decide)
  have hs := fld_zero p _ 10 2 h (by decide)
  simp only [MtileForm.read, MtileForm.bits, fld_or, ha, hc, ht, hs]
  cases f
  simp only [MtileForm.mk.injEq]
  refine ⟨?_, ?_, ?_, ?_⟩
  · simp only [fld_put 25 (n := 7) _ (by decide), fld_put_apart 25 14 (m := 4) 7 _ (by decide), fld_put_apart 25 12 (m := 2) 7 _ (by decide), fld_put_apart 25 10 (m := 2) 7 _ (by decide), BitVec.zero_or, BitVec.or_zero]
  · simp only [fld_put_apart 14 25 (m := 7) 4 _ (by decide), fld_put 14 (n := 4) _ (by decide), fld_put_apart 14 12 (m := 2) 4 _ (by decide), fld_put_apart 14 10 (m := 2) 4 _ (by decide), BitVec.zero_or, BitVec.or_zero]
  · simp only [fld_put_apart 12 25 (m := 7) 2 _ (by decide), fld_put_apart 12 14 (m := 4) 2 _ (by decide), fld_put 12 (n := 2) _ (by decide), fld_put_apart 12 10 (m := 2) 2 _ (by decide), BitVec.zero_or, BitVec.or_zero]
  · simp only [fld_put_apart 10 25 (m := 7) 2 _ (by decide), fld_put_apart 10 14 (m := 4) 2 _ (by decide), fld_put_apart 10 12 (m := 2) 2 _ (by decide), fld_put 10 (n := 2) _ (by decide), BitVec.zero_or, BitVec.or_zero]

theorem MldForm.bits_within (f : MldForm) : f.bits &&& 0xFE03FF00#32 = f.bits := by
  simp only [MldForm.bits, BitVec.and_or_distrib_right]
  rw [put_within 25 f.a _ (by decide), put_within 14 f.c _ (by decide), put_within 12 f.t _ (by decide), put_within 10 f.s _ (by decide), put_within 8 f.r _ (by decide)]

theorem MldForm.read_bits (f : MldForm) (p : Word) (h : p &&& 0xFE03FF00#32 = 0#32) : MldForm.read (p ||| f.bits) = f := by
  have ha := fld_zero p _ 25 7 h (by decide)
  have hc := fld_zero p _ 14 4 h (by decide)
  have ht := fld_zero p _ 12 2 h (by decide)
  have hs := fld_zero p _ 10 2 h (by decide)
  have hr := fld_zero p _ 8 2 h (by decide)
  simp only [MldForm.read, MldForm.bits, fld_or, ha, hc, ht, hs, hr]
  cases f
  simp only [MldForm.mk.injEq]
  refine ⟨?_, ?_, ?_, ?_, ?_⟩
  · simp only [fld_put 25 (n := 7) _ (by decide), fld_put_apart 25 14 (m := 4) 7 _ (by decide), fld_put_apart 25 12 (m := 2) 7 _ (by decide), fld_put_apart 25 10 (m := 2) 7 _ (by decide), fld_put_apart 25 8 (m := 2) 7 _ (by decide), BitVec.zero_or, BitVec.or_zero]
  · simp only [fld_put_apart 14 25 (m := 7) 4 _ (by decide), fld_put 14 (n := 4) _ (by decide), fld_put_apart 14 12 (m := 2) 4 _ (by decide), fld_put_apart 14 10 (m := 2) 4 _ (by decide), fld_put_apart 14 8 (m := 2) 4 _ (by decide), BitVec.zero_or, BitVec.or_zero]
  · simp only [fld_put_apart 12 25 (m := 7) 2 _ (by decide), fld_put_apart 12 14 (m := 4) 2 _ (by decide), fld_put 12 (n := 2) _ (by decide), fld_put_apart 12 10 (m := 2) 2 _ (by decide), fld_put_apart 12 8 (m := 2) 2 _ (by decide), BitVec.zero_or, BitVec.or_zero]
  · simp only [fld_put_apart 10 25 (m := 7) 2 _ (by decide), fld_put_apart 10 14 (m := 4) 2 _ (by decide), fld_put_apart 10 12 (m := 2) 2 _ (by decide), fld_put 10 (n := 2) _ (by decide), fld_put_apart 10 8 (m := 2) 2 _ (by decide), BitVec.zero_or, BitVec.or_zero]
  · simp only [fld_put_apart 8 25 (m := 7) 2 _ (by decide), fld_put_apart 8 14 (m := 4) 2 _ (by decide), fld_put_apart 8 12 (m := 2) 2 _ (by decide), fld_put_apart 8 10 (m := 2) 2 _ (by decide), fld_put 8 (n := 2) _ (by decide), BitVec.zero_or, BitVec.or_zero]

theorem WaituForm.bits_within (f : WaituForm) : f.bits &&& 0xFFFFFF00#32 = f.bits := by
  simp only [WaituForm.bits, BitVec.and_or_distrib_right]
  rw [put_within 25 f.p _ (by decide), put_within 20 f.n _ (by decide), put_within 17 f.c _ (by decide), put_within 14 f.s _ (by decide), put_within 11 f.t _ (by decide), put_within 8 f.m _ (by decide)]

theorem WaituForm.read_bits (f : WaituForm) (p : Word) (h : p &&& 0xFFFFFF00#32 = 0#32) : WaituForm.read (p ||| f.bits) = f := by
  have hp := fld_zero p _ 25 7 h (by decide)
  have hn := fld_zero p _ 20 5 h (by decide)
  have hc := fld_zero p _ 17 3 h (by decide)
  have hs := fld_zero p _ 14 3 h (by decide)
  have ht := fld_zero p _ 11 3 h (by decide)
  have hm := fld_zero p _ 8 3 h (by decide)
  simp only [WaituForm.read, WaituForm.bits, fld_or, hp, hn, hc, hs, ht, hm]
  cases f
  simp only [WaituForm.mk.injEq]
  refine ⟨?_, ?_, ?_, ?_, ?_, ?_⟩
  · simp only [fld_put 25 (n := 7) _ (by decide), fld_put_apart 25 20 (m := 5) 7 _ (by decide), fld_put_apart 25 17 (m := 3) 7 _ (by decide), fld_put_apart 25 14 (m := 3) 7 _ (by decide), fld_put_apart 25 11 (m := 3) 7 _ (by decide), fld_put_apart 25 8 (m := 3) 7 _ (by decide), BitVec.zero_or, BitVec.or_zero]
  · simp only [fld_put_apart 20 25 (m := 7) 5 _ (by decide), fld_put 20 (n := 5) _ (by decide), fld_put_apart 20 17 (m := 3) 5 _ (by decide), fld_put_apart 20 14 (m := 3) 5 _ (by decide), fld_put_apart 20 11 (m := 3) 5 _ (by decide), fld_put_apart 20 8 (m := 3) 5 _ (by decide), BitVec.zero_or, BitVec.or_zero]
  · simp only [fld_put_apart 17 25 (m := 7) 3 _ (by decide), fld_put_apart 17 20 (m := 5) 3 _ (by decide), fld_put 17 (n := 3) _ (by decide), fld_put_apart 17 14 (m := 3) 3 _ (by decide), fld_put_apart 17 11 (m := 3) 3 _ (by decide), fld_put_apart 17 8 (m := 3) 3 _ (by decide), BitVec.zero_or, BitVec.or_zero]
  · simp only [fld_put_apart 14 25 (m := 7) 3 _ (by decide), fld_put_apart 14 20 (m := 5) 3 _ (by decide), fld_put_apart 14 17 (m := 3) 3 _ (by decide), fld_put 14 (n := 3) _ (by decide), fld_put_apart 14 11 (m := 3) 3 _ (by decide), fld_put_apart 14 8 (m := 3) 3 _ (by decide), BitVec.zero_or, BitVec.or_zero]
  · simp only [fld_put_apart 11 25 (m := 7) 3 _ (by decide), fld_put_apart 11 20 (m := 5) 3 _ (by decide), fld_put_apart 11 17 (m := 3) 3 _ (by decide), fld_put_apart 11 14 (m := 3) 3 _ (by decide), fld_put 11 (n := 3) _ (by decide), fld_put_apart 11 8 (m := 3) 3 _ (by decide), BitVec.zero_or, BitVec.or_zero]
  · simp only [fld_put_apart 8 25 (m := 7) 3 _ (by decide), fld_put_apart 8 20 (m := 5) 3 _ (by decide), fld_put_apart 8 17 (m := 3) 3 _ (by decide), fld_put_apart 8 14 (m := 3) 3 _ (by decide), fld_put_apart 8 11 (m := 3) 3 _ (by decide), fld_put 8 (n := 3) _ (by decide), BitVec.zero_or, BitVec.or_zero]

theorem PerformForm.bits_within (f : PerformForm) : f.bits &&& 0x0FFFFF00#32 = f.bits := by
  simp only [PerformForm.bits, BitVec.and_or_distrib_right]
  rw [put_within 25 f.e _ (by decide), put_within 18 f.a _ (by decide), put_within 17 f.w _ (by decide), put_within 11 f.d _ (by decide), put_within 8 f.g _ (by decide)]

theorem PerformForm.read_bits (f : PerformForm) (p : Word) (h : p &&& 0x0FFFFF00#32 = 0#32) : PerformForm.read (p ||| f.bits) = f := by
  have he := fld_zero p _ 25 3 h (by decide)
  have ha := fld_zero p _ 18 7 h (by decide)
  have hw := fld_zero p _ 17 1 h (by decide)
  have hd := fld_zero p _ 11 6 h (by decide)
  have hg := fld_zero p _ 8 3 h (by decide)
  simp only [PerformForm.read, PerformForm.bits, fld_or, he, ha, hw, hd, hg]
  cases f
  simp only [PerformForm.mk.injEq]
  refine ⟨?_, ?_, ?_, ?_, ?_⟩
  · simp only [fld_put 25 (n := 3) _ (by decide), fld_put_apart 25 18 (m := 7) 3 _ (by decide), fld_put_apart 25 17 (m := 1) 3 _ (by decide), fld_put_apart 25 11 (m := 6) 3 _ (by decide), fld_put_apart 25 8 (m := 3) 3 _ (by decide), BitVec.zero_or, BitVec.or_zero]
  · simp only [fld_put_apart 18 25 (m := 3) 7 _ (by decide), fld_put 18 (n := 7) _ (by decide), fld_put_apart 18 17 (m := 1) 7 _ (by decide), fld_put_apart 18 11 (m := 6) 7 _ (by decide), fld_put_apart 18 8 (m := 3) 7 _ (by decide), BitVec.zero_or, BitVec.or_zero]
  · simp only [fld_put_apart 17 25 (m := 3) 1 _ (by decide), fld_put_apart 17 18 (m := 7) 1 _ (by decide), fld_put 17 (n := 1) _ (by decide), fld_put_apart 17 11 (m := 6) 1 _ (by decide), fld_put_apart 17 8 (m := 3) 1 _ (by decide), BitVec.zero_or, BitVec.or_zero]
  · simp only [fld_put_apart 11 25 (m := 3) 6 _ (by decide), fld_put_apart 11 18 (m := 7) 6 _ (by decide), fld_put_apart 11 17 (m := 1) 6 _ (by decide), fld_put 11 (n := 6) _ (by decide), fld_put_apart 11 8 (m := 3) 6 _ (by decide), BitVec.zero_or, BitVec.or_zero]
  · simp only [fld_put_apart 8 25 (m := 3) 3 _ (by decide), fld_put_apart 8 18 (m := 7) 3 _ (by decide), fld_put_apart 8 17 (m := 1) 3 _ (by decide), fld_put_apart 8 11 (m := 6) 3 _ (by decide), fld_put 8 (n := 3) _ (by decide), BitVec.zero_or, BitVec.or_zero]

theorem HpushForm.bits_within (f : HpushForm) : f.bits &&& 0x03FFFF00#32 = f.bits := by
  simp only [HpushForm.bits, BitVec.and_or_distrib_right]
  rw [put_within 25 f.m _ (by decide), put_within 18 f.e _ (by decide), put_within 17 f.e7 _ (by decide), put_within 11 f.h _ (by decide), put_within 8 f.g _ (by decide)]

theorem HpushForm.read_bits (f : HpushForm) (p : Word) (h : p &&& 0x03FFFF00#32 = 0#32) : HpushForm.read (p ||| f.bits) = f := by
  have hm := fld_zero p _ 25 1 h (by decide)
  have he := fld_zero p _ 18 7 h (by decide)
  have he7 := fld_zero p _ 17 1 h (by decide)
  have hh := fld_zero p _ 11 6 h (by decide)
  have hg := fld_zero p _ 8 3 h (by decide)
  simp only [HpushForm.read, HpushForm.bits, fld_or, hm, he, he7, hh, hg]
  cases f
  simp only [HpushForm.mk.injEq]
  refine ⟨?_, ?_, ?_, ?_, ?_⟩
  · simp only [fld_put 25 (n := 1) _ (by decide), fld_put_apart 25 18 (m := 7) 1 _ (by decide), fld_put_apart 25 17 (m := 1) 1 _ (by decide), fld_put_apart 25 11 (m := 6) 1 _ (by decide), fld_put_apart 25 8 (m := 3) 1 _ (by decide), BitVec.zero_or, BitVec.or_zero]
  · simp only [fld_put_apart 18 25 (m := 1) 7 _ (by decide), fld_put 18 (n := 7) _ (by decide), fld_put_apart 18 17 (m := 1) 7 _ (by decide), fld_put_apart 18 11 (m := 6) 7 _ (by decide), fld_put_apart 18 8 (m := 3) 7 _ (by decide), BitVec.zero_or, BitVec.or_zero]
  · simp only [fld_put_apart 17 25 (m := 1) 1 _ (by decide), fld_put_apart 17 18 (m := 7) 1 _ (by decide), fld_put 17 (n := 1) _ (by decide), fld_put_apart 17 11 (m := 6) 1 _ (by decide), fld_put_apart 17 8 (m := 3) 1 _ (by decide), BitVec.zero_or, BitVec.or_zero]
  · simp only [fld_put_apart 11 25 (m := 1) 6 _ (by decide), fld_put_apart 11 18 (m := 7) 6 _ (by decide), fld_put_apart 11 17 (m := 1) 6 _ (by decide), fld_put 11 (n := 6) _ (by decide), fld_put_apart 11 8 (m := 3) 6 _ (by decide), BitVec.zero_or, BitVec.or_zero]
  · simp only [fld_put_apart 8 25 (m := 1) 3 _ (by decide), fld_put_apart 8 18 (m := 7) 3 _ (by decide), fld_put_apart 8 17 (m := 1) 3 _ (by decide), fld_put_apart 8 11 (m := 6) 3 _ (by decide), fld_put 8 (n := 3) _ (by decide), BitVec.zero_or, BitVec.or_zero]

theorem CollForm.bits_within (f : CollForm) : f.bits &&& 0xFFFFDF00#32 = f.bits := by
  simp only [CollForm.bits, BitVec.and_or_distrib_right]
  rw [put_within 25 f.d _ (by decide), put_within 18 f.s _ (by decide), put_within 14 f.i _ (by decide), put_within 10 f.k _ (by decide), put_within 8 f.o _ (by decide)]

theorem CollForm.read_bits (f : CollForm) (p : Word) (h : p &&& 0xFFFFDF00#32 = 0#32) : CollForm.read (p ||| f.bits) = f := by
  have hd := fld_zero p _ 25 7 h (by decide)
  have hs := fld_zero p _ 18 7 h (by decide)
  have hi := fld_zero p _ 14 4 h (by decide)
  have hk := fld_zero p _ 10 3 h (by decide)
  have ho := fld_zero p _ 8 2 h (by decide)
  simp only [CollForm.read, CollForm.bits, fld_or, hd, hs, hi, hk, ho]
  cases f
  simp only [CollForm.mk.injEq]
  refine ⟨?_, ?_, ?_, ?_, ?_⟩
  · simp only [fld_put 25 (n := 7) _ (by decide), fld_put_apart 25 18 (m := 7) 7 _ (by decide), fld_put_apart 25 14 (m := 4) 7 _ (by decide), fld_put_apart 25 10 (m := 3) 7 _ (by decide), fld_put_apart 25 8 (m := 2) 7 _ (by decide), BitVec.zero_or, BitVec.or_zero]
  · simp only [fld_put_apart 18 25 (m := 7) 7 _ (by decide), fld_put 18 (n := 7) _ (by decide), fld_put_apart 18 14 (m := 4) 7 _ (by decide), fld_put_apart 18 10 (m := 3) 7 _ (by decide), fld_put_apart 18 8 (m := 2) 7 _ (by decide), BitVec.zero_or, BitVec.or_zero]
  · simp only [fld_put_apart 14 25 (m := 7) 4 _ (by decide), fld_put_apart 14 18 (m := 7) 4 _ (by decide), fld_put 14 (n := 4) _ (by decide), fld_put_apart 14 10 (m := 3) 4 _ (by decide), fld_put_apart 14 8 (m := 2) 4 _ (by decide), BitVec.zero_or, BitVec.or_zero]
  · simp only [fld_put_apart 10 25 (m := 7) 3 _ (by decide), fld_put_apart 10 18 (m := 7) 3 _ (by decide), fld_put_apart 10 14 (m := 4) 3 _ (by decide), fld_put 10 (n := 3) _ (by decide), fld_put_apart 10 8 (m := 2) 3 _ (by decide), BitVec.zero_or, BitVec.or_zero]
  · simp only [fld_put_apart 8 25 (m := 7) 2 _ (by decide), fld_put_apart 8 18 (m := 7) 2 _ (by decide), fld_put_apart 8 14 (m := 4) 2 _ (by decide), fld_put_apart 8 10 (m := 3) 2 _ (by decide), fld_put 8 (n := 2) _ (by decide), BitVec.zero_or, BitVec.or_zero]

end Sys2Proof

namespace Sys2Proof.Laws.RoundTrip

/-- Decoding the encoding of an instruction gives it back, and the bytes that follow. -/
def Statement (i : Instr) : Prop := ∀ c rest, encode i = some c → decode (c.bytes ++ rest) = .ok (i, rest)

theorem mov16 (f : HForm) : Statement (.mov16 f) := by
  intro c rest h
  by_cases z : f.b = 0 ∧ f.d = 0
  · simp [encode, z] at h
  simp only [encode, if_neg z, enc16, Option.some.injEq] at h; subst h
  exact decode_row16 0 ⟨0x0000001F#32, 0x00000000#32, fun w => .mov16 (HForm.read w)⟩ f.bits _ rest rfl (and_zero_of _ _ _ (HForm.bits_within f) (by decide)) (by decide) (by decide) (fld_zero _ _ 0 1 (and_zero_of _ _ _ (HForm.bits_within f) (by decide : 0xFFFF0001#32 &&& 0x0000FFE0#32 = 0#32)) (by decide)) (fld_zero _ _ 16 16 (and_zero_of _ _ _ (HForm.bits_within f) (by decide : 0xFFFF0001#32 &&& 0x0000FFE0#32 = 0#32)) (by decide)) (by decide) (by
      intro x; apply z
      have x : f.bits = 0#32 := BitVec.zero_or.symm.trans x
      have r := HForm.read_bits f 0#32 (by decide)
      rw [BitVec.zero_or, x] at r
      rw [← r]; exact ⟨rfl, rfl⟩) (congrArg _ (HForm.read_bits f _ (by decide)))

theorem addI3216 (f : HForm) : Statement (.addI3216 f) := by
  intro c rest h
  simp only [encode, enc16, Option.some.injEq] at h; subst h
  exact decode_row16 1 ⟨0x0000001F#32, 0x00000002#32, fun w => .addI3216 (HForm.read w)⟩ f.bits _ rest rfl (and_zero_of _ _ _ (HForm.bits_within f) (by decide)) (by decide) (by decide) (fld_zero _ _ 0 1 (and_zero_of _ _ _ (HForm.bits_within f) (by decide : 0xFFFF0001#32 &&& 0x0000FFE0#32 = 0#32)) (by decide)) (fld_zero _ _ 16 16 (and_zero_of _ _ _ (HForm.bits_within f) (by decide : 0xFFFF0001#32 &&& 0x0000FFE0#32 = 0#32)) (by decide)) (by decide) (or_ne_zero 0x00000002#32 f.bits 0x0000001F#32 (and_zero_of _ _ _ (HForm.bits_within f) (by decide)) (by decide)) (congrArg _ (HForm.read_bits f _ (by decide)))

theorem subI3216 (f : HForm) : Statement (.subI3216 f) := by
  intro c rest h
  simp only [encode, enc16, Option.some.injEq] at h; subst h
  exact decode_row16 2 ⟨0x0000001F#32, 0x00000004#32, fun w => .subI3216 (HForm.read w)⟩ f.bits _ rest rfl (and_zero_of _ _ _ (HForm.bits_within f) (by decide)) (by decide) (by decide) (fld_zero _ _ 0 1 (and_zero_of _ _ _ (HForm.bits_within f) (by decide : 0xFFFF0001#32 &&& 0x0000FFE0#32 = 0#32)) (by decide)) (fld_zero _ _ 16 16 (and_zero_of _ _ _ (HForm.bits_within f) (by decide : 0xFFFF0001#32 &&& 0x0000FFE0#32 = 0#32)) (by decide)) (by decide) (or_ne_zero 0x00000004#32 f.bits 0x0000001F#32 (and_zero_of _ _ _ (HForm.bits_within f) (by decide)) (by decide)) (congrArg _ (HForm.read_bits f _ (by decide)))

theorem mulI3216 (f : HForm) : Statement (.mulI3216 f) := by
  intro c rest h
  simp only [encode, enc16, Option.some.injEq] at h; subst h
  exact decode_row16 3 ⟨0x0000001F#32, 0x00000006#32, fun w => .mulI3216 (HForm.read w)⟩ f.bits _ rest rfl (and_zero_of _ _ _ (HForm.bits_within f) (by decide)) (by decide) (by decide) (fld_zero _ _ 0 1 (and_zero_of _ _ _ (HForm.bits_within f) (by decide : 0xFFFF0001#32 &&& 0x0000FFE0#32 = 0#32)) (by decide)) (fld_zero _ _ 16 16 (and_zero_of _ _ _ (HForm.bits_within f) (by decide : 0xFFFF0001#32 &&& 0x0000FFE0#32 = 0#32)) (by decide)) (by decide) (or_ne_zero 0x00000006#32 f.bits 0x0000001F#32 (and_zero_of _ _ _ (HForm.bits_within f) (by decide)) (by decide)) (congrArg _ (HForm.read_bits f _ (by decide)))

theorem and16 (f : HForm) : Statement (.and16 f) := by
  intro c rest h
  simp only [encode, enc16, Option.some.injEq] at h; subst h
  exact decode_row16 4 ⟨0x0000001F#32, 0x00000008#32, fun w => .and16 (HForm.read w)⟩ f.bits _ rest rfl (and_zero_of _ _ _ (HForm.bits_within f) (by decide)) (by decide) (by decide) (fld_zero _ _ 0 1 (and_zero_of _ _ _ (HForm.bits_within f) (by decide : 0xFFFF0001#32 &&& 0x0000FFE0#32 = 0#32)) (by decide)) (fld_zero _ _ 16 16 (and_zero_of _ _ _ (HForm.bits_within f) (by decide : 0xFFFF0001#32 &&& 0x0000FFE0#32 = 0#32)) (by decide)) (by decide) (or_ne_zero 0x00000008#32 f.bits 0x0000001F#32 (and_zero_of _ _ _ (HForm.bits_within f) (by decide)) (by decide)) (congrArg _ (HForm.read_bits f _ (by decide)))

theorem or16 (f : HForm) : Statement (.or16 f) := by
  intro c rest h
  simp only [encode, enc16, Option.some.injEq] at h; subst h
  exact decode_row16 5 ⟨0x0000001F#32, 0x0000000A#32, fun w => .or16 (HForm.read w)⟩ f.bits _ rest rfl (and_zero_of _ _ _ (HForm.bits_within f) (by decide)) (by decide) (by decide) (fld_zero _ _ 0 1 (and_zero_of _ _ _ (HForm.bits_within f) (by decide : 0xFFFF0001#32 &&& 0x0000FFE0#32 = 0#32)) (by decide)) (fld_zero _ _ 16 16 (and_zero_of _ _ _ (HForm.bits_within f) (by decide : 0xFFFF0001#32 &&& 0x0000FFE0#32 = 0#32)) (by decide)) (by decide) (or_ne_zero 0x0000000A#32 f.bits 0x0000001F#32 (and_zero_of _ _ _ (HForm.bits_within f) (by decide)) (by decide)) (congrArg _ (HForm.read_bits f _ (by decide)))

theorem xor16 (f : HForm) : Statement (.xor16 f) := by
  intro c rest h
  simp only [encode, enc16, Option.some.injEq] at h; subst h
  exact decode_row16 6 ⟨0x0000001F#32, 0x0000000C#32, fun w => .xor16 (HForm.read w)⟩ f.bits _ rest rfl (and_zero_of _ _ _ (HForm.bits_within f) (by decide)) (by decide) (by decide) (fld_zero _ _ 0 1 (and_zero_of _ _ _ (HForm.bits_within f) (by decide : 0xFFFF0001#32 &&& 0x0000FFE0#32 = 0#32)) (by decide)) (fld_zero _ _ 16 16 (and_zero_of _ _ _ (HForm.bits_within f) (by decide : 0xFFFF0001#32 &&& 0x0000FFE0#32 = 0#32)) (by decide)) (by decide) (or_ne_zero 0x0000000C#32 f.bits 0x0000001F#32 (and_zero_of _ _ _ (HForm.bits_within f) (by decide)) (by decide)) (congrArg _ (HForm.read_bits f _ (by decide)))

theorem shl16 (f : HForm) : Statement (.shl16 f) := by
  intro c rest h
  simp only [encode, enc16, Option.some.injEq] at h; subst h
  exact decode_row16 7 ⟨0x0000001F#32, 0x0000000E#32, fun w => .shl16 (HForm.read w)⟩ f.bits _ rest rfl (and_zero_of _ _ _ (HForm.bits_within f) (by decide)) (by decide) (by decide) (fld_zero _ _ 0 1 (and_zero_of _ _ _ (HForm.bits_within f) (by decide : 0xFFFF0001#32 &&& 0x0000FFE0#32 = 0#32)) (by decide)) (fld_zero _ _ 16 16 (and_zero_of _ _ _ (HForm.bits_within f) (by decide : 0xFFFF0001#32 &&& 0x0000FFE0#32 = 0#32)) (by decide)) (by decide) (or_ne_zero 0x0000000E#32 f.bits 0x0000001F#32 (and_zero_of _ _ _ (HForm.bits_within f) (by decide)) (by decide)) (congrArg _ (HForm.read_bits f _ (by decide)))

theorem shrN3216 (f : HForm) : Statement (.shrN3216 f) := by
  intro c rest h
  simp only [encode, enc16, Option.some.injEq] at h; subst h
  exact decode_row16 8 ⟨0x0000001F#32, 0x00000010#32, fun w => .shrN3216 (HForm.read w)⟩ f.bits _ rest rfl (and_zero_of _ _ _ (HForm.bits_within f) (by decide)) (by decide) (by decide) (fld_zero _ _ 0 1 (and_zero_of _ _ _ (HForm.bits_within f) (by decide : 0xFFFF0001#32 &&& 0x0000FFE0#32 = 0#32)) (by decide)) (fld_zero _ _ 16 16 (and_zero_of _ _ _ (HForm.bits_within f) (by decide : 0xFFFF0001#32 &&& 0x0000FFE0#32 = 0#32)) (by decide)) (by decide) (or_ne_zero 0x00000010#32 f.bits 0x0000001F#32 (and_zero_of _ _ _ (HForm.bits_within f) (by decide)) (by decide)) (congrArg _ (HForm.read_bits f _ (by decide)))

theorem shrI3216 (f : HForm) : Statement (.shrI3216 f) := by
  intro c rest h
  simp only [encode, enc16, Option.some.injEq] at h; subst h
  exact decode_row16 9 ⟨0x0000001F#32, 0x00000012#32, fun w => .shrI3216 (HForm.read w)⟩ f.bits _ rest rfl (and_zero_of _ _ _ (HForm.bits_within f) (by decide)) (by decide) (by decide) (fld_zero _ _ 0 1 (and_zero_of _ _ _ (HForm.bits_within f) (by decide : 0xFFFF0001#32 &&& 0x0000FFE0#32 = 0#32)) (by decide)) (fld_zero _ _ 16 16 (and_zero_of _ _ _ (HForm.bits_within f) (by decide : 0xFFFF0001#32 &&& 0x0000FFE0#32 = 0#32)) (by decide)) (by decide) (or_ne_zero 0x00000012#32 f.bits 0x0000001F#32 (and_zero_of _ _ _ (HForm.bits_within f) (by decide)) (by decide)) (congrArg _ (HForm.read_bits f _ (by decide)))

theorem addF3216 (f : HForm) : Statement (.addF3216 f) := by
  intro c rest h
  simp only [encode, enc16, Option.some.injEq] at h; subst h
  exact decode_row16 10 ⟨0x0000001F#32, 0x00000014#32, fun w => .addF3216 (HForm.read w)⟩ f.bits _ rest rfl (and_zero_of _ _ _ (HForm.bits_within f) (by decide)) (by decide) (by decide) (fld_zero _ _ 0 1 (and_zero_of _ _ _ (HForm.bits_within f) (by decide : 0xFFFF0001#32 &&& 0x0000FFE0#32 = 0#32)) (by decide)) (fld_zero _ _ 16 16 (and_zero_of _ _ _ (HForm.bits_within f) (by decide : 0xFFFF0001#32 &&& 0x0000FFE0#32 = 0#32)) (by decide)) (by decide) (or_ne_zero 0x00000014#32 f.bits 0x0000001F#32 (and_zero_of _ _ _ (HForm.bits_within f) (by decide)) (by decide)) (congrArg _ (HForm.read_bits f _ (by decide)))

theorem subF3216 (f : HForm) : Statement (.subF3216 f) := by
  intro c rest h
  simp only [encode, enc16, Option.some.injEq] at h; subst h
  exact decode_row16 11 ⟨0x0000001F#32, 0x00000016#32, fun w => .subF3216 (HForm.read w)⟩ f.bits _ rest rfl (and_zero_of _ _ _ (HForm.bits_within f) (by decide)) (by decide) (by decide) (fld_zero _ _ 0 1 (and_zero_of _ _ _ (HForm.bits_within f) (by decide : 0xFFFF0001#32 &&& 0x0000FFE0#32 = 0#32)) (by decide)) (fld_zero _ _ 16 16 (and_zero_of _ _ _ (HForm.bits_within f) (by decide : 0xFFFF0001#32 &&& 0x0000FFE0#32 = 0#32)) (by decide)) (by decide) (or_ne_zero 0x00000016#32 f.bits 0x0000001F#32 (and_zero_of _ _ _ (HForm.bits_within f) (by decide)) (by decide)) (congrArg _ (HForm.read_bits f _ (by decide)))

theorem mulF3216 (f : HForm) : Statement (.mulF3216 f) := by
  intro c rest h
  simp only [encode, enc16, Option.some.injEq] at h; subst h
  exact decode_row16 12 ⟨0x0000001F#32, 0x00000018#32, fun w => .mulF3216 (HForm.read w)⟩ f.bits _ rest rfl (and_zero_of _ _ _ (HForm.bits_within f) (by decide)) (by decide) (by decide) (fld_zero _ _ 0 1 (and_zero_of _ _ _ (HForm.bits_within f) (by decide : 0xFFFF0001#32 &&& 0x0000FFE0#32 = 0#32)) (by decide)) (fld_zero _ _ 16 16 (and_zero_of _ _ _ (HForm.bits_within f) (by decide : 0xFFFF0001#32 &&& 0x0000FFE0#32 = 0#32)) (by decide)) (by decide) (or_ne_zero 0x00000018#32 f.bits 0x0000001F#32 (and_zero_of _ _ _ (HForm.bits_within f) (by decide)) (by decide)) (congrArg _ (HForm.read_bits f _ (by decide)))

theorem minF3216 (f : HForm) : Statement (.minF3216 f) := by
  intro c rest h
  simp only [encode, enc16, Option.some.injEq] at h; subst h
  exact decode_row16 13 ⟨0x0000001F#32, 0x0000001A#32, fun w => .minF3216 (HForm.read w)⟩ f.bits _ rest rfl (and_zero_of _ _ _ (HForm.bits_within f) (by decide)) (by decide) (by decide) (fld_zero _ _ 0 1 (and_zero_of _ _ _ (HForm.bits_within f) (by decide : 0xFFFF0001#32 &&& 0x0000FFE0#32 = 0#32)) (by decide)) (fld_zero _ _ 16 16 (and_zero_of _ _ _ (HForm.bits_within f) (by decide : 0xFFFF0001#32 &&& 0x0000FFE0#32 = 0#32)) (by decide)) (by decide) (or_ne_zero 0x0000001A#32 f.bits 0x0000001F#32 (and_zero_of _ _ _ (HForm.bits_within f) (by decide)) (by decide)) (congrArg _ (HForm.read_bits f _ (by decide)))

theorem maxF3216 (f : HForm) : Statement (.maxF3216 f) := by
  intro c rest h
  simp only [encode, enc16, Option.some.injEq] at h; subst h
  exact decode_row16 14 ⟨0x0000001F#32, 0x0000001C#32, fun w => .maxF3216 (HForm.read w)⟩ f.bits _ rest rfl (and_zero_of _ _ _ (HForm.bits_within f) (by decide)) (by decide) (by decide) (fld_zero _ _ 0 1 (and_zero_of _ _ _ (HForm.bits_within f) (by decide : 0xFFFF0001#32 &&& 0x0000FFE0#32 = 0#32)) (by decide)) (fld_zero _ _ 16 16 (and_zero_of _ _ _ (HForm.bits_within f) (by decide : 0xFFFF0001#32 &&& 0x0000FFE0#32 = 0#32)) (by decide)) (by decide) (or_ne_zero 0x0000001C#32 f.bits 0x0000001F#32 (and_zero_of _ _ _ (HForm.bits_within f) (by decide)) (by decide)) (congrArg _ (HForm.read_bits f _ (by decide)))

theorem addi16 (i : BitVec 5) (d : BitVec 6) : Statement (.addi16 i d) := by
  intro c rest h
  simp only [encode, enc16, Option.some.injEq] at h; subst h
  exact decode_row16 15 ⟨0x0000001F#32, 0x0000001E#32, fun w => .addi16 (fld w 11 5) (fld w 5 6)⟩ (put 11 i ||| put 5 d) _ rest rfl (by simp only [BitVec.and_or_distrib_right, put_and 11 i 0x0000001F#32 (by decide), put_and 5 d 0x0000001F#32 (by decide), BitVec.or_zero]) (by decide) (by decide) (fld_zero _ 0xFFFF0001#32 0 1 (by simp only [BitVec.and_or_distrib_right, put_and 11 i 0xFFFF0001#32 (by decide), put_and 5 d 0xFFFF0001#32 (by decide), BitVec.or_zero]) (by decide)) (fld_zero _ 0xFFFF0001#32 16 16 (by simp only [BitVec.and_or_distrib_right, put_and 11 i 0xFFFF0001#32 (by decide), put_and 5 d 0xFFFF0001#32 (by decide), BitVec.or_zero]) (by decide)) (by decide) (or_ne_zero 0x0000001E#32 (put 11 i ||| put 5 d) 0x0000001F#32 (by simp only [BitVec.and_or_distrib_right, put_and 11 i 0x0000001F#32 (by decide), put_and 5 d 0x0000001F#32 (by decide), BitVec.or_zero]) (by decide)) (by simp only [fld_or, fld_put 11 i (by decide), fld_put_apart 11 5 5 d (by decide), fld_put_apart 5 11 6 i (by decide), fld_put 5 d (by decide), show fld 0x0000001E#32 11 5 = 0#5 by decide, show fld 0x0000001E#32 5 6 = 0#6 by decide, BitVec.zero_or, BitVec.or_zero])

theorem addI32 (f : RForm) : Statement (.addI32 f) := by
  intro c rest h
  simp only [encode, enc32, Option.some.injEq] at h; subst h
  exact decode_row32 0 ⟨0x000000FF#32, 0x00000001#32, fun w => .addI32 (RForm.read w)⟩ f.bits _ rest rfl (and_zero_of _ _ _ (RForm.bits_within f) (by decide)) (by decide) (by decide) (congrArg _ (RForm.read_bits f _ (by decide)))

theorem subI32 (f : RForm) : Statement (.subI32 f) := by
  intro c rest h
  simp only [encode, enc32, Option.some.injEq] at h; subst h
  exact decode_row32 1 ⟨0x000000FF#32, 0x00000003#32, fun w => .subI32 (RForm.read w)⟩ f.bits _ rest rfl (and_zero_of _ _ _ (RForm.bits_within f) (by decide)) (by decide) (by decide) (congrArg _ (RForm.read_bits f _ (by decide)))

theorem mulI32 (f : RForm) : Statement (.mulI32 f) := by
  intro c rest h
  simp only [encode, enc32, Option.some.injEq] at h; subst h
  exact decode_row32 2 ⟨0x000000FF#32, 0x00000005#32, fun w => .mulI32 (RForm.read w)⟩ f.bits _ rest rfl (and_zero_of _ _ _ (RForm.bits_within f) (by decide)) (by decide) (by decide) (congrArg _ (RForm.read_bits f _ (by decide)))

theorem mulhiI32 (f : RForm) : Statement (.mulhiI32 f) := by
  intro c rest h
  simp only [encode, enc32, Option.some.injEq] at h; subst h
  exact decode_row32 3 ⟨0x000000FF#32, 0x00000007#32, fun w => .mulhiI32 (RForm.read w)⟩ f.bits _ rest rfl (and_zero_of _ _ _ (RForm.bits_within f) (by decide)) (by decide) (by decide) (congrArg _ (RForm.read_bits f _ (by decide)))

theorem mulhiN32 (f : RForm) : Statement (.mulhiN32 f) := by
  intro c rest h
  simp only [encode, enc32, Option.some.injEq] at h; subst h
  exact decode_row32 4 ⟨0x000000FF#32, 0x00000009#32, fun w => .mulhiN32 (RForm.read w)⟩ f.bits _ rest rfl (and_zero_of _ _ _ (RForm.bits_within f) (by decide)) (by decide) (by decide) (congrArg _ (RForm.read_bits f _ (by decide)))

theorem madI32 (f : RForm) : Statement (.madI32 f) := by
  intro c rest h
  simp only [encode, enc32, Option.some.injEq] at h; subst h
  exact decode_row32 5 ⟨0x000000FF#32, 0x0000000B#32, fun w => .madI32 (RForm.read w)⟩ f.bits _ rest rfl (and_zero_of _ _ _ (RForm.bits_within f) (by decide)) (by decide) (by decide) (congrArg _ (RForm.read_bits f _ (by decide)))

theorem minI32 (f : RForm) : Statement (.minI32 f) := by
  intro c rest h
  simp only [encode, enc32, Option.some.injEq] at h; subst h
  exact decode_row32 6 ⟨0x000000FF#32, 0x0000000D#32, fun w => .minI32 (RForm.read w)⟩ f.bits _ rest rfl (and_zero_of _ _ _ (RForm.bits_within f) (by decide)) (by decide) (by decide) (congrArg _ (RForm.read_bits f _ (by decide)))

theorem maxI32 (f : RForm) : Statement (.maxI32 f) := by
  intro c rest h
  simp only [encode, enc32, Option.some.injEq] at h; subst h
  exact decode_row32 7 ⟨0x000000FF#32, 0x0000000F#32, fun w => .maxI32 (RForm.read w)⟩ f.bits _ rest rfl (and_zero_of _ _ _ (RForm.bits_within f) (by decide)) (by decide) (by decide) (congrArg _ (RForm.read_bits f _ (by decide)))

theorem minN32 (f : RForm) : Statement (.minN32 f) := by
  intro c rest h
  simp only [encode, enc32, Option.some.injEq] at h; subst h
  exact decode_row32 8 ⟨0x000000FF#32, 0x00000011#32, fun w => .minN32 (RForm.read w)⟩ f.bits _ rest rfl (and_zero_of _ _ _ (RForm.bits_within f) (by decide)) (by decide) (by decide) (congrArg _ (RForm.read_bits f _ (by decide)))

theorem maxN32 (f : RForm) : Statement (.maxN32 f) := by
  intro c rest h
  simp only [encode, enc32, Option.some.injEq] at h; subst h
  exact decode_row32 9 ⟨0x000000FF#32, 0x00000013#32, fun w => .maxN32 (RForm.read w)⟩ f.bits _ rest rfl (and_zero_of _ _ _ (RForm.bits_within f) (by decide)) (by decide) (by decide) (congrArg _ (RForm.read_bits f _ (by decide)))

theorem and (f : RForm) : Statement (.and f) := by
  intro c rest h
  simp only [encode, enc32, Option.some.injEq] at h; subst h
  exact decode_row32 10 ⟨0x000000FF#32, 0x00000015#32, fun w => .and (RForm.read w)⟩ f.bits _ rest rfl (and_zero_of _ _ _ (RForm.bits_within f) (by decide)) (by decide) (by decide) (congrArg _ (RForm.read_bits f _ (by decide)))

theorem or (f : RForm) : Statement (.or f) := by
  intro c rest h
  simp only [encode, enc32, Option.some.injEq] at h; subst h
  exact decode_row32 11 ⟨0x000000FF#32, 0x00000017#32, fun w => .or (RForm.read w)⟩ f.bits _ rest rfl (and_zero_of _ _ _ (RForm.bits_within f) (by decide)) (by decide) (by decide) (congrArg _ (RForm.read_bits f _ (by decide)))

theorem xor (f : RForm) : Statement (.xor f) := by
  intro c rest h
  simp only [encode, enc32, Option.some.injEq] at h; subst h
  exact decode_row32 12 ⟨0x000000FF#32, 0x00000019#32, fun w => .xor (RForm.read w)⟩ f.bits _ rest rfl (and_zero_of _ _ _ (RForm.bits_within f) (by decide)) (by decide) (by decide) (congrArg _ (RForm.read_bits f _ (by decide)))

theorem andn (f : RForm) : Statement (.andn f) := by
  intro c rest h
  simp only [encode, enc32, Option.some.injEq] at h; subst h
  exact decode_row32 13 ⟨0x000000FF#32, 0x0000001B#32, fun w => .andn (RForm.read w)⟩ f.bits _ rest rfl (and_zero_of _ _ _ (RForm.bits_within f) (by decide)) (by decide) (by decide) (congrArg _ (RForm.read_bits f _ (by decide)))

theorem shl (f : RForm) : Statement (.shl f) := by
  intro c rest h
  simp only [encode, enc32, Option.some.injEq] at h; subst h
  exact decode_row32 14 ⟨0x000000FF#32, 0x0000001D#32, fun w => .shl (RForm.read w)⟩ f.bits _ rest rfl (and_zero_of _ _ _ (RForm.bits_within f) (by decide)) (by decide) (by decide) (congrArg _ (RForm.read_bits f _ (by decide)))

theorem shrN32 (f : RForm) : Statement (.shrN32 f) := by
  intro c rest h
  simp only [encode, enc32, Option.some.injEq] at h; subst h
  exact decode_row32 15 ⟨0x000000FF#32, 0x0000001F#32, fun w => .shrN32 (RForm.read w)⟩ f.bits _ rest rfl (and_zero_of _ _ _ (RForm.bits_within f) (by decide)) (by decide) (by decide) (congrArg _ (RForm.read_bits f _ (by decide)))

theorem shrI32 (f : RForm) : Statement (.shrI32 f) := by
  intro c rest h
  simp only [encode, enc32, Option.some.injEq] at h; subst h
  exact decode_row32 16 ⟨0x000000FF#32, 0x00000021#32, fun w => .shrI32 (RForm.read w)⟩ f.bits _ rest rfl (and_zero_of _ _ _ (RForm.bits_within f) (by decide)) (by decide) (by decide) (congrArg _ (RForm.read_bits f _ (by decide)))

theorem rotl (f : RForm) : Statement (.rotl f) := by
  intro c rest h
  simp only [encode, enc32, Option.some.injEq] at h; subst h
  exact decode_row32 17 ⟨0x000000FF#32, 0x00000023#32, fun w => .rotl (RForm.read w)⟩ f.bits _ rest rfl (and_zero_of _ _ _ (RForm.bits_within f) (by decide)) (by decide) (by decide) (congrArg _ (RForm.read_bits f _ (by decide)))

theorem add64 (f : RForm) : Statement (.add64 f) := by
  intro c rest h
  simp only [encode, enc32, Option.some.injEq] at h; subst h
  exact decode_row32 18 ⟨0x000000FF#32, 0x00000025#32, fun w => .add64 (RForm.read w)⟩ f.bits _ rest rfl (and_zero_of _ _ _ (RForm.bits_within f) (by decide)) (by decide) (by decide) (congrArg _ (RForm.read_bits f _ (by decide)))

theorem sub64 (f : RForm) : Statement (.sub64 f) := by
  intro c rest h
  simp only [encode, enc32, Option.some.injEq] at h; subst h
  exact decode_row32 19 ⟨0x000000FF#32, 0x00000027#32, fun w => .sub64 (RForm.read w)⟩ f.bits _ rest rfl (and_zero_of _ _ _ (RForm.bits_within f) (by decide)) (by decide) (by decide) (congrArg _ (RForm.read_bits f _ (by decide)))

theorem mad64 (f : RForm) : Statement (.mad64 f) := by
  intro c rest h
  simp only [encode, enc32, Option.some.injEq] at h; subst h
  exact decode_row32 20 ⟨0x000000FF#32, 0x00000029#32, fun w => .mad64 (RForm.read w)⟩ f.bits _ rest rfl (and_zero_of _ _ _ (RForm.bits_within f) (by decide)) (by decide) (by decide) (congrArg _ (RForm.read_bits f _ (by decide)))

theorem sel (f : RForm) : Statement (.sel f) := by
  intro c rest h
  simp only [encode, enc32, Option.some.injEq] at h; subst h
  exact decode_row32 21 ⟨0x000000FF#32, 0x0000002B#32, fun w => .sel (RForm.read w)⟩ f.bits _ rest rfl (and_zero_of _ _ _ (RForm.bits_within f) (by decide)) (by decide) (by decide) (congrArg _ (RForm.read_bits f _ (by decide)))

theorem cmpI32 (f : CmpForm) : Statement (.cmpI32 f) := by
  intro c rest h
  simp only [encode, enc32, Option.some.injEq] at h; subst h
  exact decode_row32 22 ⟨0x000000FF#32, 0x0000002D#32, fun w => .cmpI32 (CmpForm.read w)⟩ f.bits _ rest rfl (and_zero_of _ _ _ (CmpForm.bits_within f) (by decide)) (by decide) (by decide) (congrArg _ (CmpForm.read_bits f _ (by decide)))

theorem cmpN32 (f : CmpForm) : Statement (.cmpN32 f) := by
  intro c rest h
  simp only [encode, enc32, Option.some.injEq] at h; subst h
  exact decode_row32 23 ⟨0x000000FF#32, 0x0000002F#32, fun w => .cmpN32 (CmpForm.read w)⟩ f.bits _ rest rfl (and_zero_of _ _ _ (CmpForm.bits_within f) (by decide)) (by decide) (by decide) (congrArg _ (CmpForm.read_bits f _ (by decide)))

theorem mov (f : UForm) : Statement (.mov f) := by
  intro c rest h
  simp only [encode, enc32, Option.some.injEq] at h; subst h
  exact decode_row32 24 ⟨0xFE0000FF#32, 0x00000031#32, fun w => .mov (UForm.read w)⟩ f.bits _ rest rfl (and_zero_of _ _ _ (UForm.bits_within f) (by decide)) (by decide) (by decide) (congrArg _ (UForm.read_bits f _ (by decide)))

theorem not (f : UForm) : Statement (.not f) := by
  intro c rest h
  simp only [encode, enc32, Option.some.injEq] at h; subst h
  exact decode_row32 25 ⟨0xFE0000FF#32, 0x10000031#32, fun w => .not (UForm.read w)⟩ f.bits _ rest rfl (and_zero_of _ _ _ (UForm.bits_within f) (by decide)) (by decide) (by decide) (congrArg _ (UForm.read_bits f _ (by decide)))

theorem neg (f : UForm) : Statement (.neg f) := by
  intro c rest h
  simp only [encode, enc32, Option.some.injEq] at h; subst h
  exact decode_row32 26 ⟨0xFE0000FF#32, 0x20000031#32, fun w => .neg (UForm.read w)⟩ f.bits _ rest rfl (and_zero_of _ _ _ (UForm.bits_within f) (by decide)) (by decide) (by decide) (congrArg _ (UForm.read_bits f _ (by decide)))

theorem abs (f : UForm) : Statement (.abs f) := by
  intro c rest h
  simp only [encode, enc32, Option.some.injEq] at h; subst h
  exact decode_row32 27 ⟨0xFE0000FF#32, 0x30000031#32, fun w => .abs (UForm.read w)⟩ f.bits _ rest rfl (and_zero_of _ _ _ (UForm.bits_within f) (by decide)) (by decide) (by decide) (congrArg _ (UForm.read_bits f _ (by decide)))

theorem popc (f : UForm) : Statement (.popc f) := by
  intro c rest h
  simp only [encode, enc32, Option.some.injEq] at h; subst h
  exact decode_row32 28 ⟨0xFE0000FF#32, 0x40000031#32, fun w => .popc (UForm.read w)⟩ f.bits _ rest rfl (and_zero_of _ _ _ (UForm.bits_within f) (by decide)) (by decide) (by decide) (congrArg _ (UForm.read_bits f _ (by decide)))

theorem clz (f : UForm) : Statement (.clz f) := by
  intro c rest h
  simp only [encode, enc32, Option.some.injEq] at h; subst h
  exact decode_row32 29 ⟨0xFE0000FF#32, 0x50000031#32, fun w => .clz (UForm.read w)⟩ f.bits _ rest rfl (and_zero_of _ _ _ (UForm.bits_within f) (by decide)) (by decide) (by decide) (congrArg _ (UForm.read_bits f _ (by decide)))

theorem ctz (f : UForm) : Statement (.ctz f) := by
  intro c rest h
  simp only [encode, enc32, Option.some.injEq] at h; subst h
  exact decode_row32 30 ⟨0xFE0000FF#32, 0x60000031#32, fun w => .ctz (UForm.read w)⟩ f.bits _ rest rfl (and_zero_of _ _ _ (UForm.bits_within f) (by decide)) (by decide) (by decide) (congrArg _ (UForm.read_bits f _ (by decide)))

theorem brev (f : UForm) : Statement (.brev f) := by
  intro c rest h
  simp only [encode, enc32, Option.some.injEq] at h; subst h
  exact decode_row32 31 ⟨0xFE0000FF#32, 0x70000031#32, fun w => .brev (UForm.read w)⟩ f.bits _ rest rfl (and_zero_of _ _ _ (UForm.bits_within f) (by decide)) (by decide) (by decide) (congrArg _ (UForm.read_bits f _ (by decide)))

theorem sextW8 (f : UForm) : Statement (.sextW8 f) := by
  intro c rest h
  simp only [encode, enc32, Option.some.injEq] at h; subst h
  exact decode_row32 32 ⟨0xFE0000FF#32, 0x80000031#32, fun w => .sextW8 (UForm.read w)⟩ f.bits _ rest rfl (and_zero_of _ _ _ (UForm.bits_within f) (by decide)) (by decide) (by decide) (congrArg _ (UForm.read_bits f _ (by decide)))

theorem sextW16 (f : UForm) : Statement (.sextW16 f) := by
  intro c rest h
  simp only [encode, enc32, Option.some.injEq] at h; subst h
  exact decode_row32 33 ⟨0xFE0000FF#32, 0x90000031#32, fun w => .sextW16 (UForm.read w)⟩ f.bits _ rest rfl (and_zero_of _ _ _ (UForm.bits_within f) (by decide)) (by decide) (by decide) (congrArg _ (UForm.read_bits f _ (by decide)))

theorem zextW8 (f : UForm) : Statement (.zextW8 f) := by
  intro c rest h
  simp only [encode, enc32, Option.some.injEq] at h; subst h
  exact decode_row32 34 ⟨0xFE0000FF#32, 0xA0000031#32, fun w => .zextW8 (UForm.read w)⟩ f.bits _ rest rfl (and_zero_of _ _ _ (UForm.bits_within f) (by decide)) (by decide) (by decide) (congrArg _ (UForm.read_bits f _ (by decide)))

theorem zextW16 (f : UForm) : Statement (.zextW16 f) := by
  intro c rest h
  simp only [encode, enc32, Option.some.injEq] at h; subst h
  exact decode_row32 35 ⟨0xFE0000FF#32, 0xB0000031#32, fun w => .zextW16 (UForm.read w)⟩ f.bits _ rest rfl (and_zero_of _ _ _ (UForm.bits_within f) (by decide)) (by decide) (by decide) (congrArg _ (UForm.read_bits f _ (by decide)))

theorem pget (nw : BitVec 1) (d : BitVec 6) (g : BitVec 3) : Statement (.pget nw d g) := by
  intro c rest h
  simp only [encode, enc32, Option.some.injEq] at h; subst h
  exact decode_row32 36 ⟨0xFFFC00FF#32, 0xC1100031#32, fun w => .pget (fld w 17 1) (fld w 11 6) (fld w 8 3)⟩ (put 17 nw ||| put 11 d ||| put 8 g) _ rest rfl (by simp only [BitVec.and_or_distrib_right, put_and 17 nw 0xFFFC00FF#32 (by decide), put_and 11 d 0xFFFC00FF#32 (by decide), put_and 8 g 0xFFFC00FF#32 (by decide), BitVec.or_zero]) (by decide) (by decide) (by simp only [fld_or, fld_put 17 nw (by decide), fld_put_apart 17 11 1 d (by decide), fld_put_apart 17 8 1 g (by decide), fld_put_apart 11 17 6 nw (by decide), fld_put 11 d (by decide), fld_put_apart 11 8 6 g (by decide), fld_put_apart 8 17 3 nw (by decide), fld_put_apart 8 11 3 d (by decide), fld_put 8 g (by decide), show fld 0xC1100031#32 17 1 = 0#1 by decide, show fld 0xC1100031#32 11 6 = 0#6 by decide, show fld 0xC1100031#32 8 3 = 0#3 by decide, BitVec.zero_or, BitVec.or_zero])

theorem pset (a : BitVec 7) (g : BitVec 3) : Statement (.pset a g) := by
  intro c rest h
  simp only [encode, enc32, Option.some.injEq] at h; subst h
  exact decode_row32 37 ⟨0xFE03F8FF#32, 0xD0000031#32, fun w => .pset (fld w 18 7) (fld w 8 3)⟩ (put 18 a ||| put 8 g) _ rest rfl (by simp only [BitVec.and_or_distrib_right, put_and 18 a 0xFE03F8FF#32 (by decide), put_and 8 g 0xFE03F8FF#32 (by decide), BitVec.or_zero]) (by decide) (by decide) (by simp only [fld_or, fld_put 18 a (by decide), fld_put_apart 18 8 7 g (by decide), fld_put_apart 8 18 3 a (by decide), fld_put 8 g (by decide), show fld 0xD0000031#32 18 7 = 0#7 by decide, show fld 0xD0000031#32 8 3 = 0#3 by decide, BitVec.zero_or, BitVec.or_zero])

theorem rdtick (nw : BitVec 1) (d : BitVec 6) (g : BitVec 3) : Statement (.rdtick nw d g) := by
  intro c rest h
  simp only [encode, enc32, Option.some.injEq] at h; subst h
  exact decode_row32 38 ⟨0xFFFC00FF#32, 0xE1100031#32, fun w => .rdtick (fld w 17 1) (fld w 11 6) (fld w 8 3)⟩ (put 17 nw ||| put 11 d ||| put 8 g) _ rest rfl (by simp only [BitVec.and_or_distrib_right, put_and 17 nw 0xFFFC00FF#32 (by decide), put_and 11 d 0xFFFC00FF#32 (by decide), put_and 8 g 0xFFFC00FF#32 (by decide), BitVec.or_zero]) (by decide) (by decide) (by simp only [fld_or, fld_put 17 nw (by decide), fld_put_apart 17 11 1 d (by decide), fld_put_apart 17 8 1 g (by decide), fld_put_apart 11 17 6 nw (by decide), fld_put 11 d (by decide), fld_put_apart 11 8 6 g (by decide), fld_put_apart 8 17 3 nw (by decide), fld_put_apart 8 11 3 d (by decide), fld_put 8 g (by decide), show fld 0xE1100031#32 17 1 = 0#1 by decide, show fld 0xE1100031#32 11 6 = 0#6 by decide, show fld 0xE1100031#32 8 3 = 0#3 by decide, BitVec.zero_or, BitVec.or_zero])

theorem rdtickHi (nw : BitVec 1) (d : BitVec 6) (g : BitVec 3) : Statement (.rdtickHi nw d g) := by
  intro c rest h
  simp only [encode, enc32, Option.some.injEq] at h; subst h
  exact decode_row32 39 ⟨0xFFFC00FF#32, 0xE3100031#32, fun w => .rdtickHi (fld w 17 1) (fld w 11 6) (fld w 8 3)⟩ (put 17 nw ||| put 11 d ||| put 8 g) _ rest rfl (by simp only [BitVec.and_or_distrib_right, put_and 17 nw 0xFFFC00FF#32 (by decide), put_and 11 d 0xFFFC00FF#32 (by decide), put_and 8 g 0xFFFC00FF#32 (by decide), BitVec.or_zero]) (by decide) (by decide) (by simp only [fld_or, fld_put 17 nw (by decide), fld_put_apart 17 11 1 d (by decide), fld_put_apart 17 8 1 g (by decide), fld_put_apart 11 17 6 nw (by decide), fld_put 11 d (by decide), fld_put_apart 11 8 6 g (by decide), fld_put_apart 8 17 3 nw (by decide), fld_put_apart 8 11 3 d (by decide), fld_put 8 g (by decide), show fld 0xE3100031#32 17 1 = 0#1 by decide, show fld 0xE3100031#32 11 6 = 0#6 by decide, show fld 0xE3100031#32 8 3 = 0#3 by decide, BitVec.zero_or, BitVec.or_zero])

theorem rdid (which : BitVec 3) (nw : BitVec 1) (d : BitVec 6) (g : BitVec 3) : Statement (.rdid which nw d g) := by
  intro c rest h
  simp only [encode, enc32, Option.some.injEq] at h; subst h
  exact decode_row32 40 ⟨0xF1FC00FF#32, 0xF1100031#32, fun w => .rdid (fld w 25 3) (fld w 17 1) (fld w 11 6) (fld w 8 3)⟩ (put 25 which ||| put 17 nw ||| put 11 d ||| put 8 g) _ rest rfl (by simp only [BitVec.and_or_distrib_right, put_and 25 which 0xF1FC00FF#32 (by decide), put_and 17 nw 0xF1FC00FF#32 (by decide), put_and 11 d 0xF1FC00FF#32 (by decide), put_and 8 g 0xF1FC00FF#32 (by decide), BitVec.or_zero]) (by decide) (by decide) (by simp only [fld_or, fld_put 25 which (by decide), fld_put_apart 25 17 3 nw (by decide), fld_put_apart 25 11 3 d (by decide), fld_put_apart 25 8 3 g (by decide), fld_put_apart 17 25 1 which (by decide), fld_put 17 nw (by decide), fld_put_apart 17 11 1 d (by decide), fld_put_apart 17 8 1 g (by decide), fld_put_apart 11 25 6 which (by decide), fld_put_apart 11 17 6 nw (by decide), fld_put 11 d (by decide), fld_put_apart 11 8 6 g (by decide), fld_put_apart 8 25 3 which (by decide), fld_put_apart 8 17 3 nw (by decide), fld_put_apart 8 11 3 d (by decide), fld_put 8 g (by decide), show fld 0xF1100031#32 25 3 = 0#3 by decide, show fld 0xF1100031#32 17 1 = 0#1 by decide, show fld 0xF1100031#32 11 6 = 0#6 by decide, show fld 0xF1100031#32 8 3 = 0#3 by decide, BitVec.zero_or, BitVec.or_zero])

theorem bfeI32 (f : RForm) : Statement (.bfeI32 f) := by
  intro c rest h
  simp only [encode, enc32, Option.some.injEq] at h; subst h
  exact decode_row32 41 ⟨0x000000FF#32, 0x00000033#32, fun w => .bfeI32 (RForm.read w)⟩ f.bits _ rest rfl (and_zero_of _ _ _ (RForm.bits_within f) (by decide)) (by decide) (by decide) (congrArg _ (RForm.read_bits f _ (by decide)))

theorem bfeN32 (f : RForm) : Statement (.bfeN32 f) := by
  intro c rest h
  simp only [encode, enc32, Option.some.injEq] at h; subst h
  exact decode_row32 42 ⟨0x000000FF#32, 0x00000035#32, fun w => .bfeN32 (RForm.read w)⟩ f.bits _ rest rfl (and_zero_of _ _ _ (RForm.bits_within f) (by decide)) (by decide) (by decide) (congrArg _ (RForm.read_bits f _ (by decide)))

theorem bfi (f : RForm) : Statement (.bfi f) := by
  intro c rest h
  simp only [encode, enc32, Option.some.injEq] at h; subst h
  exact decode_row32 43 ⟨0x000000FF#32, 0x00000037#32, fun w => .bfi (RForm.read w)⟩ f.bits _ rest rfl (and_zero_of _ _ _ (RForm.bits_within f) (by decide)) (by decide) (by decide) (congrArg _ (RForm.read_bits f _ (by decide)))

theorem pand (f : PlogForm) : Statement (.pand f) := by
  intro c rest h
  simp only [encode, enc32, Option.some.injEq] at h; subst h
  exact decode_row32 44 ⟨0xFD01C0FF#32, 0x00000039#32, fun w => .pand (PlogForm.read w)⟩ f.bits _ rest rfl (and_zero_of _ _ _ (PlogForm.bits_within f) (by decide)) (by decide) (by decide) (congrArg _ (PlogForm.read_bits f _ (by decide)))

theorem por (f : PlogForm) : Statement (.por f) := by
  intro c rest h
  simp only [encode, enc32, Option.some.injEq] at h; subst h
  exact decode_row32 45 ⟨0xFD01C0FF#32, 0x10000039#32, fun w => .por (PlogForm.read w)⟩ f.bits _ rest rfl (and_zero_of _ _ _ (PlogForm.bits_within f) (by decide)) (by decide) (by decide) (congrArg _ (PlogForm.read_bits f _ (by decide)))

theorem pxor (f : PlogForm) : Statement (.pxor f) := by
  intro c rest h
  simp only [encode, enc32, Option.some.injEq] at h; subst h
  exact decode_row32 46 ⟨0xFD01C0FF#32, 0x20000039#32, fun w => .pxor (PlogForm.read w)⟩ f.bits _ rest rfl (and_zero_of _ _ _ (PlogForm.bits_within f) (by decide)) (by decide) (by decide) (congrArg _ (PlogForm.read_bits f _ (by decide)))

theorem pandn (f : PlogForm) : Statement (.pandn f) := by
  intro c rest h
  simp only [encode, enc32, Option.some.injEq] at h; subst h
  exact decode_row32 47 ⟨0xFD01C0FF#32, 0x30000039#32, fun w => .pandn (PlogForm.read w)⟩ f.bits _ rest rfl (and_zero_of _ _ _ (PlogForm.bits_within f) (by decide)) (by decide) (by decide) (congrArg _ (PlogForm.read_bits f _ (by decide)))

theorem pnot (f : PlogUForm) : Statement (.pnot f) := by
  intro c rest h
  simp only [encode, enc32, Option.some.injEq] at h; subst h
  exact decode_row32 48 ⟨0xFDE1C0FF#32, 0x40000039#32, fun w => .pnot (PlogUForm.read w)⟩ f.bits _ rest rfl (and_zero_of _ _ _ (PlogUForm.bits_within f) (by decide)) (by decide) (by decide) (congrArg _ (PlogUForm.read_bits f _ (by decide)))

theorem pmov (f : PlogUForm) : Statement (.pmov f) := by
  intro c rest h
  simp only [encode, enc32, Option.some.injEq] at h; subst h
  exact decode_row32 49 ⟨0xFDE1C0FF#32, 0x50000039#32, fun w => .pmov (PlogUForm.read w)⟩ f.bits _ rest rfl (and_zero_of _ _ _ (PlogUForm.bits_within f) (by decide)) (by decide) (by decide) (congrArg _ (PlogUForm.read_bits f _ (by decide)))

theorem addi (i : BitVec 11) (a : BitVec 7) (d : BitVec 6) : Statement (.addi i a d) := by
  intro c rest h
  simp only [encode, enc32, Option.some.injEq] at h; subst h
  exact decode_row32 50 ⟨0x000000FF#32, 0x0000003B#32, fun w => .addi (fld w 21 11) (fld w 14 7) (fld w 8 6)⟩ (put 21 i ||| put 14 a ||| put 8 d) _ rest rfl (by simp only [BitVec.and_or_distrib_right, put_and 21 i 0x000000FF#32 (by decide), put_and 14 a 0x000000FF#32 (by decide), put_and 8 d 0x000000FF#32 (by decide), BitVec.or_zero]) (by decide) (by decide) (by simp only [fld_or, fld_put 21 i (by decide), fld_put_apart 21 14 11 a (by decide), fld_put_apart 21 8 11 d (by decide), fld_put_apart 14 21 7 i (by decide), fld_put 14 a (by decide), fld_put_apart 14 8 7 d (by decide), fld_put_apart 8 21 6 i (by decide), fld_put_apart 8 14 6 a (by decide), fld_put 8 d (by decide), show fld 0x0000003B#32 21 11 = 0#11 by decide, show fld 0x0000003B#32 14 7 = 0#7 by decide, show fld 0x0000003B#32 8 6 = 0#6 by decide, BitVec.zero_or, BitVec.or_zero])

theorem andi (i : BitVec 11) (a : BitVec 7) (d : BitVec 6) : Statement (.andi i a d) := by
  intro c rest h
  simp only [encode, enc32, Option.some.injEq] at h; subst h
  exact decode_row32 51 ⟨0x000000FF#32, 0x0000003D#32, fun w => .andi (fld w 21 11) (fld w 14 7) (fld w 8 6)⟩ (put 21 i ||| put 14 a ||| put 8 d) _ rest rfl (by simp only [BitVec.and_or_distrib_right, put_and 21 i 0x000000FF#32 (by decide), put_and 14 a 0x000000FF#32 (by decide), put_and 8 d 0x000000FF#32 (by decide), BitVec.or_zero]) (by decide) (by decide) (by simp only [fld_or, fld_put 21 i (by decide), fld_put_apart 21 14 11 a (by decide), fld_put_apart 21 8 11 d (by decide), fld_put_apart 14 21 7 i (by decide), fld_put 14 a (by decide), fld_put_apart 14 8 7 d (by decide), fld_put_apart 8 21 6 i (by decide), fld_put_apart 8 14 6 a (by decide), fld_put 8 d (by decide), show fld 0x0000003D#32 21 11 = 0#11 by decide, show fld 0x0000003D#32 14 7 = 0#7 by decide, show fld 0x0000003D#32 8 6 = 0#6 by decide, BitVec.zero_or, BitVec.or_zero])

theorem ldi (i : BitVec 16) (d : BitVec 6) : Statement (.ldi i d) := by
  intro c rest h
  simp only [encode, enc32, Option.some.injEq] at h; subst h
  exact decode_row32 52 ⟨0x0000C0FF#32, 0x0000003F#32, fun w => .ldi (fld w 16 16) (fld w 8 6)⟩ (put 16 i ||| put 8 d) _ rest rfl (by simp only [BitVec.and_or_distrib_right, put_and 16 i 0x0000C0FF#32 (by decide), put_and 8 d 0x0000C0FF#32 (by decide), BitVec.or_zero]) (by decide) (by decide) (by simp only [fld_or, fld_put 16 i (by decide), fld_put_apart 16 8 16 d (by decide), fld_put_apart 8 16 6 i (by decide), fld_put 8 d (by decide), show fld 0x0000003F#32 16 16 = 0#16 by decide, show fld 0x0000003F#32 8 6 = 0#6 by decide, BitVec.zero_or, BitVec.or_zero])

theorem ldiHi (i : BitVec 16) (d : BitVec 6) : Statement (.ldiHi i d) := by
  intro c rest h
  simp only [encode, enc32, Option.some.injEq] at h; subst h
  exact decode_row32 53 ⟨0x0000C0FF#32, 0x0000803F#32, fun w => .ldiHi (fld w 16 16) (fld w 8 6)⟩ (put 16 i ||| put 8 d) _ rest rfl (by simp only [BitVec.and_or_distrib_right, put_and 16 i 0x0000C0FF#32 (by decide), put_and 8 d 0x0000C0FF#32 (by decide), BitVec.or_zero]) (by decide) (by decide) (by simp only [fld_or, fld_put 16 i (by decide), fld_put_apart 16 8 16 d (by decide), fld_put_apart 8 16 6 i (by decide), fld_put 8 d (by decide), show fld 0x0000803F#32 16 16 = 0#16 by decide, show fld 0x0000803F#32 8 6 = 0#6 by decide, BitVec.zero_or, BitVec.or_zero])

theorem addF32 (f : RForm) : Statement (.addF32 f) := by
  intro c rest h
  simp only [encode, enc32, Option.some.injEq] at h; subst h
  exact decode_row32 54 ⟨0x000000FF#32, 0x00000041#32, fun w => .addF32 (RForm.read w)⟩ f.bits _ rest rfl (and_zero_of _ _ _ (RForm.bits_within f) (by decide)) (by decide) (by decide) (congrArg _ (RForm.read_bits f _ (by decide)))

theorem subF32 (f : RForm) : Statement (.subF32 f) := by
  intro c rest h
  simp only [encode, enc32, Option.some.injEq] at h; subst h
  exact decode_row32 55 ⟨0x000000FF#32, 0x00000043#32, fun w => .subF32 (RForm.read w)⟩ f.bits _ rest rfl (and_zero_of _ _ _ (RForm.bits_within f) (by decide)) (by decide) (by decide) (congrArg _ (RForm.read_bits f _ (by decide)))

theorem mulF32 (f : RForm) : Statement (.mulF32 f) := by
  intro c rest h
  simp only [encode, enc32, Option.some.injEq] at h; subst h
  exact decode_row32 56 ⟨0x000000FF#32, 0x00000045#32, fun w => .mulF32 (RForm.read w)⟩ f.bits _ rest rfl (and_zero_of _ _ _ (RForm.bits_within f) (by decide)) (by decide) (by decide) (congrArg _ (RForm.read_bits f _ (by decide)))

theorem fmaF32 (f : RForm) : Statement (.fmaF32 f) := by
  intro c rest h
  simp only [encode, enc32, Option.some.injEq] at h; subst h
  exact decode_row32 57 ⟨0x000000FF#32, 0x00000047#32, fun w => .fmaF32 (RForm.read w)⟩ f.bits _ rest rfl (and_zero_of _ _ _ (RForm.bits_within f) (by decide)) (by decide) (by decide) (congrArg _ (RForm.read_bits f _ (by decide)))

theorem minF32 (f : RForm) : Statement (.minF32 f) := by
  intro c rest h
  simp only [encode, enc32, Option.some.injEq] at h; subst h
  exact decode_row32 58 ⟨0x000000FF#32, 0x00000049#32, fun w => .minF32 (RForm.read w)⟩ f.bits _ rest rfl (and_zero_of _ _ _ (RForm.bits_within f) (by decide)) (by decide) (by decide) (congrArg _ (RForm.read_bits f _ (by decide)))

theorem maxF32 (f : RForm) : Statement (.maxF32 f) := by
  intro c rest h
  simp only [encode, enc32, Option.some.injEq] at h; subst h
  exact decode_row32 59 ⟨0x000000FF#32, 0x0000004B#32, fun w => .maxF32 (RForm.read w)⟩ f.bits _ rest rfl (and_zero_of _ _ _ (RForm.bits_within f) (by decide)) (by decide) (by decide) (congrArg _ (RForm.read_bits f _ (by decide)))

theorem divF32 (f : RForm) : Statement (.divF32 f) := by
  intro c rest h
  simp only [encode, enc32, Option.some.injEq] at h; subst h
  exact decode_row32 60 ⟨0x000000FF#32, 0x0000004D#32, fun w => .divF32 (RForm.read w)⟩ f.bits _ rest rfl (and_zero_of _ _ _ (RForm.bits_within f) (by decide)) (by decide) (by decide) (congrArg _ (RForm.read_bits f _ (by decide)))

theorem cmpF32 (f : CmpForm) : Statement (.cmpF32 f) := by
  intro c rest h
  simp only [encode, enc32, Option.some.injEq] at h; subst h
  exact decode_row32 61 ⟨0x000000FF#32, 0x0000004F#32, fun w => .cmpF32 (CmpForm.read w)⟩ f.bits _ rest rfl (and_zero_of _ _ _ (CmpForm.bits_within f) (by decide)) (by decide) (by decide) (congrArg _ (CmpForm.read_bits f _ (by decide)))

theorem negF32 (f : UForm) : Statement (.negF32 f) := by
  intro c rest h
  simp only [encode, enc32, Option.some.injEq] at h; subst h
  exact decode_row32 62 ⟨0xFE0000FF#32, 0x00000051#32, fun w => .negF32 (UForm.read w)⟩ f.bits _ rest rfl (and_zero_of _ _ _ (UForm.bits_within f) (by decide)) (by decide) (by decide) (congrArg _ (UForm.read_bits f _ (by decide)))

theorem absF32 (f : UForm) : Statement (.absF32 f) := by
  intro c rest h
  simp only [encode, enc32, Option.some.injEq] at h; subst h
  exact decode_row32 63 ⟨0xFE0000FF#32, 0x10000051#32, fun w => .absF32 (UForm.read w)⟩ f.bits _ rest rfl (and_zero_of _ _ _ (UForm.bits_within f) (by decide)) (by decide) (by decide) (congrArg _ (UForm.read_bits f _ (by decide)))

theorem rintNeF32 (f : UForm) : Statement (.rintNeF32 f) := by
  intro c rest h
  simp only [encode, enc32, Option.some.injEq] at h; subst h
  exact decode_row32 64 ⟨0xFE0000FF#32, 0x20000051#32, fun w => .rintNeF32 (UForm.read w)⟩ f.bits _ rest rfl (and_zero_of _ _ _ (UForm.bits_within f) (by decide)) (by decide) (by decide) (congrArg _ (UForm.read_bits f _ (by decide)))

theorem rintZF32 (f : UForm) : Statement (.rintZF32 f) := by
  intro c rest h
  simp only [encode, enc32, Option.some.injEq] at h; subst h
  exact decode_row32 65 ⟨0xFE0000FF#32, 0x30000051#32, fun w => .rintZF32 (UForm.read w)⟩ f.bits _ rest rfl (and_zero_of _ _ _ (UForm.bits_within f) (by decide)) (by decide) (by decide) (congrArg _ (UForm.read_bits f _ (by decide)))

theorem rintUpF32 (f : UForm) : Statement (.rintUpF32 f) := by
  intro c rest h
  simp only [encode, enc32, Option.some.injEq] at h; subst h
  exact decode_row32 66 ⟨0xFE0000FF#32, 0x40000051#32, fun w => .rintUpF32 (UForm.read w)⟩ f.bits _ rest rfl (and_zero_of _ _ _ (UForm.bits_within f) (by decide)) (by decide) (by decide) (congrArg _ (UForm.read_bits f _ (by decide)))

theorem rintDnF32 (f : UForm) : Statement (.rintDnF32 f) := by
  intro c rest h
  simp only [encode, enc32, Option.some.injEq] at h; subst h
  exact decode_row32 67 ⟨0xFE0000FF#32, 0x50000051#32, fun w => .rintDnF32 (UForm.read w)⟩ f.bits _ rest rfl (and_zero_of _ _ _ (UForm.bits_within f) (by decide)) (by decide) (by decide) (congrArg _ (UForm.read_bits f _ (by decide)))

theorem rcpF32 (f : UForm) : Statement (.rcpF32 f) := by
  intro c rest h
  simp only [encode, enc32, Option.some.injEq] at h; subst h
  exact decode_row32 68 ⟨0xFE0000FF#32, 0x60000051#32, fun w => .rcpF32 (UForm.read w)⟩ f.bits _ rest rfl (and_zero_of _ _ _ (UForm.bits_within f) (by decide)) (by decide) (by decide) (congrArg _ (UForm.read_bits f _ (by decide)))

theorem rsqrtF32 (f : UForm) : Statement (.rsqrtF32 f) := by
  intro c rest h
  simp only [encode, enc32, Option.some.injEq] at h; subst h
  exact decode_row32 69 ⟨0xFE0000FF#32, 0x70000051#32, fun w => .rsqrtF32 (UForm.read w)⟩ f.bits _ rest rfl (and_zero_of _ _ _ (UForm.bits_within f) (by decide)) (by decide) (by decide) (congrArg _ (UForm.read_bits f _ (by decide)))

theorem sqrtF32 (f : UForm) : Statement (.sqrtF32 f) := by
  intro c rest h
  simp only [encode, enc32, Option.some.injEq] at h; subst h
  exact decode_row32 70 ⟨0xFE0000FF#32, 0x80000051#32, fun w => .sqrtF32 (UForm.read w)⟩ f.bits _ rest rfl (and_zero_of _ _ _ (UForm.bits_within f) (by decide)) (by decide) (by decide) (congrArg _ (UForm.read_bits f _ (by decide)))

theorem exp2F32 (f : UForm) : Statement (.exp2F32 f) := by
  intro c rest h
  simp only [encode, enc32, Option.some.injEq] at h; subst h
  exact decode_row32 71 ⟨0xFE0000FF#32, 0x90000051#32, fun w => .exp2F32 (UForm.read w)⟩ f.bits _ rest rfl (and_zero_of _ _ _ (UForm.bits_within f) (by decide)) (by decide) (by decide) (congrArg _ (UForm.read_bits f _ (by decide)))

theorem log2F32 (f : UForm) : Statement (.log2F32 f) := by
  intro c rest h
  simp only [encode, enc32, Option.some.injEq] at h; subst h
  exact decode_row32 72 ⟨0xFE0000FF#32, 0xA0000051#32, fun w => .log2F32 (UForm.read w)⟩ f.bits _ rest rfl (and_zero_of _ _ _ (UForm.bits_within f) (by decide)) (by decide) (by decide) (congrArg _ (UForm.read_bits f _ (by decide)))

theorem sinF32 (f : UForm) : Statement (.sinF32 f) := by
  intro c rest h
  simp only [encode, enc32, Option.some.injEq] at h; subst h
  exact decode_row32 73 ⟨0xFE0000FF#32, 0xB0000051#32, fun w => .sinF32 (UForm.read w)⟩ f.bits _ rest rfl (and_zero_of _ _ _ (UForm.bits_within f) (by decide)) (by decide) (by decide) (congrArg _ (UForm.read_bits f _ (by decide)))

theorem cosF32 (f : UForm) : Statement (.cosF32 f) := by
  intro c rest h
  simp only [encode, enc32, Option.some.injEq] at h; subst h
  exact decode_row32 74 ⟨0xFE0000FF#32, 0xC0000051#32, fun w => .cosF32 (UForm.read w)⟩ f.bits _ rest rfl (and_zero_of _ _ _ (UForm.bits_within f) (by decide)) (by decide) (by decide) (congrArg _ (UForm.read_bits f _ (by decide)))

theorem sinpiF32 (f : UForm) : Statement (.sinpiF32 f) := by
  intro c rest h
  simp only [encode, enc32, Option.some.injEq] at h; subst h
  exact decode_row32 75 ⟨0xFE0000FF#32, 0xD0000051#32, fun w => .sinpiF32 (UForm.read w)⟩ f.bits _ rest rfl (and_zero_of _ _ _ (UForm.bits_within f) (by decide)) (by decide) (by decide) (congrArg _ (UForm.read_bits f _ (by decide)))

theorem cospiF32 (f : UForm) : Statement (.cospiF32 f) := by
  intro c rest h
  simp only [encode, enc32, Option.some.injEq] at h; subst h
  exact decode_row32 76 ⟨0xFE0000FF#32, 0xE0000051#32, fun w => .cospiF32 (UForm.read w)⟩ f.bits _ rest rfl (and_zero_of _ _ _ (UForm.bits_within f) (by decide)) (by decide) (by decide) (congrArg _ (UForm.read_bits f _ (by decide)))

theorem fclassF32 (f : UForm) : Statement (.fclassF32 f) := by
  intro c rest h
  simp only [encode, enc32, Option.some.injEq] at h; subst h
  exact decode_row32 77 ⟨0xFE0000FF#32, 0xF0000051#32, fun w => .fclassF32 (UForm.read w)⟩ f.bits _ rest rfl (and_zero_of _ _ _ (UForm.bits_within f) (by decide)) (by decide) (by decide) (congrArg _ (UForm.read_bits f _ (by decide)))

theorem cvtF16F32 (f : CvtForm) : Statement (.cvtF16F32 f) := by
  intro c rest h
  simp only [encode, enc32, Option.some.injEq] at h; subst h
  exact decode_row32 78 ⟨0xF00000FF#32, 0x00000053#32, fun w => .cvtF16F32 (CvtForm.read w)⟩ f.bits _ rest rfl (and_zero_of _ _ _ (CvtForm.bits_within f) (by decide)) (by decide) (by decide) (congrArg _ (CvtForm.read_bits f _ (by decide)))

theorem cvtBf16F32 (f : CvtForm) : Statement (.cvtBf16F32 f) := by
  intro c rest h
  simp only [encode, enc32, Option.some.injEq] at h; subst h
  exact decode_row32 79 ⟨0xF00000FF#32, 0x10000053#32, fun w => .cvtBf16F32 (CvtForm.read w)⟩ f.bits _ rest rfl (and_zero_of _ _ _ (CvtForm.bits_within f) (by decide)) (by decide) (by decide) (congrArg _ (CvtForm.read_bits f _ (by decide)))

theorem cvtF32F16 (f : CvtForm) : Statement (.cvtF32F16 f) := by
  intro c rest h
  simp only [encode, enc32, Option.some.injEq] at h; subst h
  exact decode_row32 80 ⟨0xF00000FF#32, 0x20000053#32, fun w => .cvtF32F16 (CvtForm.read w)⟩ f.bits _ rest rfl (and_zero_of _ _ _ (CvtForm.bits_within f) (by decide)) (by decide) (by decide) (congrArg _ (CvtForm.read_bits f _ (by decide)))

theorem cvtF32Bf16 (f : CvtForm) : Statement (.cvtF32Bf16 f) := by
  intro c rest h
  simp only [encode, enc32, Option.some.injEq] at h; subst h
  exact decode_row32 81 ⟨0xF00000FF#32, 0x30000053#32, fun w => .cvtF32Bf16 (CvtForm.read w)⟩ f.bits _ rest rfl (and_zero_of _ _ _ (CvtForm.bits_within f) (by decide)) (by decide) (by decide) (congrArg _ (CvtForm.read_bits f _ (by decide)))

theorem cvtI32F32 (f : CvtForm) : Statement (.cvtI32F32 f) := by
  intro c rest h
  simp only [encode, enc32, Option.some.injEq] at h; subst h
  exact decode_row32 82 ⟨0xF00000FF#32, 0x40000053#32, fun w => .cvtI32F32 (CvtForm.read w)⟩ f.bits _ rest rfl (and_zero_of _ _ _ (CvtForm.bits_within f) (by decide)) (by decide) (by decide) (congrArg _ (CvtForm.read_bits f _ (by decide)))

theorem cvtN32F32 (f : CvtForm) : Statement (.cvtN32F32 f) := by
  intro c rest h
  simp only [encode, enc32, Option.some.injEq] at h; subst h
  exact decode_row32 83 ⟨0xF00000FF#32, 0x50000053#32, fun w => .cvtN32F32 (CvtForm.read w)⟩ f.bits _ rest rfl (and_zero_of _ _ _ (CvtForm.bits_within f) (by decide)) (by decide) (by decide) (congrArg _ (CvtForm.read_bits f _ (by decide)))

theorem cvtF32I32 (f : CvtForm) : Statement (.cvtF32I32 f) := by
  intro c rest h
  simp only [encode, enc32, Option.some.injEq] at h; subst h
  exact decode_row32 84 ⟨0xF00000FF#32, 0x60000053#32, fun w => .cvtF32I32 (CvtForm.read w)⟩ f.bits _ rest rfl (and_zero_of _ _ _ (CvtForm.bits_within f) (by decide)) (by decide) (by decide) (congrArg _ (CvtForm.read_bits f _ (by decide)))

theorem cvtF32N32 (f : CvtForm) : Statement (.cvtF32N32 f) := by
  intro c rest h
  simp only [encode, enc32, Option.some.injEq] at h; subst h
  exact decode_row32 85 ⟨0xF00000FF#32, 0x70000053#32, fun w => .cvtF32N32 (CvtForm.read w)⟩ f.bits _ rest rfl (and_zero_of _ _ _ (CvtForm.bits_within f) (by decide)) (by decide) (by decide) (congrArg _ (CvtForm.read_bits f _ (by decide)))

theorem cvtI8F32 (f : CvtForm) : Statement (.cvtI8F32 f) := by
  intro c rest h
  simp only [encode, enc32, Option.some.injEq] at h; subst h
  exact decode_row32 86 ⟨0xF00000FF#32, 0x80000053#32, fun w => .cvtI8F32 (CvtForm.read w)⟩ f.bits _ rest rfl (and_zero_of _ _ _ (CvtForm.bits_within f) (by decide)) (by decide) (by decide) (congrArg _ (CvtForm.read_bits f _ (by decide)))

theorem cvtF32I8 (f : CvtForm) : Statement (.cvtF32I8 f) := by
  intro c rest h
  simp only [encode, enc32, Option.some.injEq] at h; subst h
  exact decode_row32 87 ⟨0xF00000FF#32, 0x90000053#32, fun w => .cvtF32I8 (CvtForm.read w)⟩ f.bits _ rest rfl (and_zero_of _ _ _ (CvtForm.bits_within f) (by decide)) (by decide) (by decide) (congrArg _ (CvtForm.read_bits f _ (by decide)))

theorem cvtI8I32 (f : CvtForm) : Statement (.cvtI8I32 f) := by
  intro c rest h
  simp only [encode, enc32, Option.some.injEq] at h; subst h
  exact decode_row32 88 ⟨0xF00000FF#32, 0xA0000053#32, fun w => .cvtI8I32 (CvtForm.read w)⟩ f.bits _ rest rfl (and_zero_of _ _ _ (CvtForm.bits_within f) (by decide)) (by decide) (by decide) (congrArg _ (CvtForm.read_bits f _ (by decide)))

theorem cvtBf16F16 (f : CvtForm) : Statement (.cvtBf16F16 f) := by
  intro c rest h
  simp only [encode, enc32, Option.some.injEq] at h; subst h
  exact decode_row32 89 ⟨0xF00000FF#32, 0xB0000053#32, fun w => .cvtBf16F16 (CvtForm.read w)⟩ f.bits _ rest rfl (and_zero_of _ _ _ (CvtForm.bits_within f) (by decide)) (by decide) (by decide) (congrArg _ (CvtForm.read_bits f _ (by decide)))

theorem cvtF16Bf16 (f : CvtForm) : Statement (.cvtF16Bf16 f) := by
  intro c rest h
  simp only [encode, enc32, Option.some.injEq] at h; subst h
  exact decode_row32 90 ⟨0xF00000FF#32, 0xC0000053#32, fun w => .cvtF16Bf16 (CvtForm.read w)⟩ f.bits _ rest rfl (and_zero_of _ _ _ (CvtForm.bits_within f) (by decide)) (by decide) (by decide) (congrArg _ (CvtForm.read_bits f _ (by decide)))

theorem addH2 (f : RForm) : Statement (.addH2 f) := by
  intro c rest h
  simp only [encode, enc32, Option.some.injEq] at h; subst h
  exact decode_row32 91 ⟨0x000000FF#32, 0x00000055#32, fun w => .addH2 (RForm.read w)⟩ f.bits _ rest rfl (and_zero_of _ _ _ (RForm.bits_within f) (by decide)) (by decide) (by decide) (congrArg _ (RForm.read_bits f _ (by decide)))

theorem mulH2 (f : RForm) : Statement (.mulH2 f) := by
  intro c rest h
  simp only [encode, enc32, Option.some.injEq] at h; subst h
  exact decode_row32 92 ⟨0x000000FF#32, 0x00000057#32, fun w => .mulH2 (RForm.read w)⟩ f.bits _ rest rfl (and_zero_of _ _ _ (RForm.bits_within f) (by decide)) (by decide) (by decide) (congrArg _ (RForm.read_bits f _ (by decide)))

theorem fmaH2 (f : RForm) : Statement (.fmaH2 f) := by
  intro c rest h
  simp only [encode, enc32, Option.some.injEq] at h; subst h
  exact decode_row32 93 ⟨0x000000FF#32, 0x00000059#32, fun w => .fmaH2 (RForm.read w)⟩ f.bits _ rest rfl (and_zero_of _ _ _ (RForm.bits_within f) (by decide)) (by decide) (by decide) (congrArg _ (RForm.read_bits f _ (by decide)))

theorem addBh2 (f : RForm) : Statement (.addBh2 f) := by
  intro c rest h
  simp only [encode, enc32, Option.some.injEq] at h; subst h
  exact decode_row32 94 ⟨0x000000FF#32, 0x0000005B#32, fun w => .addBh2 (RForm.read w)⟩ f.bits _ rest rfl (and_zero_of _ _ _ (RForm.bits_within f) (by decide)) (by decide) (by decide) (congrArg _ (RForm.read_bits f _ (by decide)))

theorem mulBh2 (f : RForm) : Statement (.mulBh2 f) := by
  intro c rest h
  simp only [encode, enc32, Option.some.injEq] at h; subst h
  exact decode_row32 95 ⟨0x000000FF#32, 0x0000005D#32, fun w => .mulBh2 (RForm.read w)⟩ f.bits _ rest rfl (and_zero_of _ _ _ (RForm.bits_within f) (by decide)) (by decide) (by decide) (congrArg _ (RForm.read_bits f _ (by decide)))

theorem fmaBh2 (f : RForm) : Statement (.fmaBh2 f) := by
  intro c rest h
  simp only [encode, enc32, Option.some.injEq] at h; subst h
  exact decode_row32 96 ⟨0x000000FF#32, 0x0000005F#32, fun w => .fmaBh2 (RForm.read w)⟩ f.bits _ rest rfl (and_zero_of _ _ _ (RForm.bits_within f) (by decide)) (by decide) (by decide) (congrArg _ (RForm.read_bits f _ (by decide)))

theorem dot2Bh (f : RForm) : Statement (.dot2Bh f) := by
  intro c rest h
  simp only [encode, enc32, Option.some.injEq] at h; subst h
  exact decode_row32 97 ⟨0x000000FF#32, 0x00000061#32, fun w => .dot2Bh (RForm.read w)⟩ f.bits _ rest rfl (and_zero_of _ _ _ (RForm.bits_within f) (by decide)) (by decide) (by decide) (congrArg _ (RForm.read_bits f _ (by decide)))

theorem dot2H (f : RForm) : Statement (.dot2H f) := by
  intro c rest h
  simp only [encode, enc32, Option.some.injEq] at h; subst h
  exact decode_row32 98 ⟨0x000000FF#32, 0x00000063#32, fun w => .dot2H (RForm.read w)⟩ f.bits _ rest rfl (and_zero_of _ _ _ (RForm.bits_within f) (by decide)) (by decide) (by decide) (congrArg _ (RForm.read_bits f _ (by decide)))

theorem scaleF32 (f : RForm) : Statement (.scaleF32 f) := by
  intro c rest h
  simp only [encode, enc32, Option.some.injEq] at h; subst h
  exact decode_row32 99 ⟨0x000000FF#32, 0x00000065#32, fun w => .scaleF32 (RForm.read w)⟩ f.bits _ rest rfl (and_zero_of _ _ _ (RForm.bits_within f) (by decide)) (by decide) (by decide) (congrArg _ (RForm.read_bits f _ (by decide)))

theorem sincosF32 (f : UForm) : Statement (.sincosF32 f) := by
  intro c rest h
  simp only [encode, enc32, Option.some.injEq] at h; subst h
  exact decode_row32 100 ⟨0xFE0000FF#32, 0x88000067#32, fun w => .sincosF32 (UForm.read w)⟩ f.bits _ rest rfl (and_zero_of _ _ _ (UForm.bits_within f) (by decide)) (by decide) (by decide) (congrArg _ (UForm.read_bits f _ (by decide)))

theorem dsdecDs8 (f : DsdecForm) : Statement (.dsdecDs8 f) := by
  intro c rest h
  simp only [encode, enc32, Option.some.injEq] at h; subst h
  exact decode_row32 101 ⟨0x080000FF#32, 0x00000069#32, fun w => .dsdecDs8 (DsdecForm.read w)⟩ f.bits _ rest rfl (and_zero_of _ _ _ (DsdecForm.bits_within f) (by decide)) (by decide) (by decide) (congrArg _ (DsdecForm.read_bits f _ (by decide)))

theorem dsdecDs4 (f : DsdecForm) : Statement (.dsdecDs4 f) := by
  intro c rest h
  simp only [encode, enc32, Option.some.injEq] at h; subst h
  exact decode_row32 102 ⟨0x080000FF#32, 0x08000069#32, fun w => .dsdecDs4 (DsdecForm.read w)⟩ f.bits _ rest rfl (and_zero_of _ _ _ (DsdecForm.bits_within f) (by decide)) (by decide) (by decide) (congrArg _ (DsdecForm.read_bits f _ (by decide)))

theorem dsencDs8 (f : DsencForm) : Statement (.dsencDs8 f) := by
  intro c rest h
  simp only [encode, enc32, Option.some.injEq] at h; subst h
  exact decode_row32 103 ⟨0x0E0000FF#32, 0x0000006B#32, fun w => .dsencDs8 (DsencForm.read w)⟩ f.bits _ rest rfl (and_zero_of _ _ _ (DsencForm.bits_within f) (by decide)) (by decide) (by decide) (congrArg _ (DsencForm.read_bits f _ (by decide)))

theorem dsencDs4 (f : DsencForm) : Statement (.dsencDs4 f) := by
  intro c rest h
  simp only [encode, enc32, Option.some.injEq] at h; subst h
  exact decode_row32 104 ⟨0x0E0000FF#32, 0x0800006B#32, fun w => .dsencDs4 (DsencForm.read w)⟩ f.bits _ rest rfl (and_zero_of _ _ _ (DsencForm.bits_within f) (by decide)) (by decide) (by decide) (congrArg _ (DsencForm.read_bits f _ (by decide)))

theorem lget (f : RForm) : Statement (.lget f) := by
  intro c rest h
  simp only [encode, enc32, Option.some.injEq] at h; subst h
  exact decode_row32 105 ⟨0x000000FF#32, 0x00000081#32, fun w => .lget (RForm.read w)⟩ f.bits _ rest rfl (and_zero_of _ _ _ (RForm.bits_within f) (by decide)) (by decide) (by decide) (congrArg _ (RForm.read_bits f _ (by decide)))

theorem lgetX (f : RForm) : Statement (.lgetX f) := by
  intro c rest h
  simp only [encode, enc32, Option.some.injEq] at h; subst h
  exact decode_row32 106 ⟨0x000000FF#32, 0x00000083#32, fun w => .lgetX (RForm.read w)⟩ f.bits _ rest rfl (and_zero_of _ _ _ (RForm.bits_within f) (by decide)) (by decide) (by decide) (congrArg _ (RForm.read_bits f _ (by decide)))

theorem lgetSub (f : RForm) : Statement (.lgetSub f) := by
  intro c rest h
  simp only [encode, enc32, Option.some.injEq] at h; subst h
  exact decode_row32 107 ⟨0x000000FF#32, 0x00000085#32, fun w => .lgetSub (RForm.read w)⟩ f.bits _ rest rfl (and_zero_of _ _ _ (RForm.bits_within f) (by decide)) (by decide) (by decide) (congrArg _ (RForm.read_bits f _ (by decide)))

theorem lgetAdd (f : RForm) : Statement (.lgetAdd f) := by
  intro c rest h
  simp only [encode, enc32, Option.some.injEq] at h; subst h
  exact decode_row32 108 ⟨0x000000FF#32, 0x00000087#32, fun w => .lgetAdd (RForm.read w)⟩ f.bits _ rest rfl (and_zero_of _ _ _ (RForm.bits_within f) (by decide)) (by decide) (by decide) (congrArg _ (RForm.read_bits f _ (by decide)))

theorem swp (f : RForm) : Statement (.swp f) := by
  intro c rest h
  simp only [encode, enc32, Option.some.injEq] at h; subst h
  exact decode_row32 109 ⟨0x000000FF#32, 0x00000089#32, fun w => .swp (RForm.read w)⟩ f.bits _ rest rfl (and_zero_of _ _ _ (RForm.bits_within f) (by decide)) (by decide) (by decide) (congrArg _ (RForm.read_bits f _ (by decide)))

theorem pollAny (q : BitVec 3) (nw : BitVec 1) (p : BitVec 3) (g : BitVec 3) : Statement (.pollAny q nw p g) := by
  intro c rest h
  simp only [encode, enc32, Option.some.injEq] at h; subst h
  exact decode_row32 110 ⟨0xFFE1C0FF#32, 0x0000008B#32, fun w => .pollAny (fld w 18 3) (fld w 17 1) (fld w 11 3) (fld w 8 3)⟩ (put 18 q ||| put 17 nw ||| put 11 p ||| put 8 g) _ rest rfl (by simp only [BitVec.and_or_distrib_right, put_and 18 q 0xFFE1C0FF#32 (by decide), put_and 17 nw 0xFFE1C0FF#32 (by decide), put_and 11 p 0xFFE1C0FF#32 (by decide), put_and 8 g 0xFFE1C0FF#32 (by decide), BitVec.or_zero]) (by decide) (by decide) (by simp only [fld_or, fld_put 18 q (by decide), fld_put_apart 18 17 3 nw (by decide), fld_put_apart 18 11 3 p (by decide), fld_put_apart 18 8 3 g (by decide), fld_put_apart 17 18 1 q (by decide), fld_put 17 nw (by decide), fld_put_apart 17 11 1 p (by decide), fld_put_apart 17 8 1 g (by decide), fld_put_apart 11 18 3 q (by decide), fld_put_apart 11 17 3 nw (by decide), fld_put 11 p (by decide), fld_put_apart 11 8 3 g (by decide), fld_put_apart 8 18 3 q (by decide), fld_put_apart 8 17 3 nw (by decide), fld_put_apart 8 11 3 p (by decide), fld_put 8 g (by decide), show fld 0x0000008B#32 18 3 = 0#3 by decide, show fld 0x0000008B#32 17 1 = 0#1 by decide, show fld 0x0000008B#32 11 3 = 0#3 by decide, show fld 0x0000008B#32 8 3 = 0#3 by decide, BitVec.zero_or, BitVec.or_zero])

theorem pollAll (q : BitVec 3) (nw : BitVec 1) (p : BitVec 3) (g : BitVec 3) : Statement (.pollAll q nw p g) := by
  intro c rest h
  simp only [encode, enc32, Option.some.injEq] at h; subst h
  exact decode_row32 111 ⟨0xFFE1C0FF#32, 0x1000008B#32, fun w => .pollAll (fld w 18 3) (fld w 17 1) (fld w 11 3) (fld w 8 3)⟩ (put 18 q ||| put 17 nw ||| put 11 p ||| put 8 g) _ rest rfl (by simp only [BitVec.and_or_distrib_right, put_and 18 q 0xFFE1C0FF#32 (by decide), put_and 17 nw 0xFFE1C0FF#32 (by decide), put_and 11 p 0xFFE1C0FF#32 (by decide), put_and 8 g 0xFFE1C0FF#32 (by decide), BitVec.or_zero]) (by decide) (by decide) (by simp only [fld_or, fld_put 18 q (by decide), fld_put_apart 18 17 3 nw (by decide), fld_put_apart 18 11 3 p (by decide), fld_put_apart 18 8 3 g (by decide), fld_put_apart 17 18 1 q (by decide), fld_put 17 nw (by decide), fld_put_apart 17 11 1 p (by decide), fld_put_apart 17 8 1 g (by decide), fld_put_apart 11 18 3 q (by decide), fld_put_apart 11 17 3 nw (by decide), fld_put 11 p (by decide), fld_put_apart 11 8 3 g (by decide), fld_put_apart 8 18 3 q (by decide), fld_put_apart 8 17 3 nw (by decide), fld_put_apart 8 11 3 p (by decide), fld_put 8 g (by decide), show fld 0x1000008B#32 18 3 = 0#3 by decide, show fld 0x1000008B#32 17 1 = 0#1 by decide, show fld 0x1000008B#32 11 3 = 0#3 by decide, show fld 0x1000008B#32 8 3 = 0#3 by decide, BitVec.zero_or, BitVec.or_zero])

theorem pollMask (q : BitVec 3) (nw : BitVec 1) (d : BitVec 6) (g : BitVec 3) : Statement (.pollMask q nw d g) := by
  intro c rest h
  simp only [encode, enc32, Option.some.injEq] at h; subst h
  exact decode_row32 112 ⟨0xFFE000FF#32, 0x2000008B#32, fun w => .pollMask (fld w 18 3) (fld w 17 1) (fld w 11 6) (fld w 8 3)⟩ (put 18 q ||| put 17 nw ||| put 11 d ||| put 8 g) _ rest rfl (by simp only [BitVec.and_or_distrib_right, put_and 18 q 0xFFE000FF#32 (by decide), put_and 17 nw 0xFFE000FF#32 (by decide), put_and 11 d 0xFFE000FF#32 (by decide), put_and 8 g 0xFFE000FF#32 (by decide), BitVec.or_zero]) (by decide) (by decide) (by simp only [fld_or, fld_put 18 q (by decide), fld_put_apart 18 17 3 nw (by decide), fld_put_apart 18 11 3 d (by decide), fld_put_apart 18 8 3 g (by decide), fld_put_apart 17 18 1 q (by decide), fld_put 17 nw (by decide), fld_put_apart 17 11 1 d (by decide), fld_put_apart 17 8 1 g (by decide), fld_put_apart 11 18 6 q (by decide), fld_put_apart 11 17 6 nw (by decide), fld_put 11 d (by decide), fld_put_apart 11 8 6 g (by decide), fld_put_apart 8 18 3 q (by decide), fld_put_apart 8 17 3 nw (by decide), fld_put_apart 8 11 3 d (by decide), fld_put 8 g (by decide), show fld 0x2000008B#32 18 3 = 0#3 by decide, show fld 0x2000008B#32 17 1 = 0#1 by decide, show fld 0x2000008B#32 11 6 = 0#6 by decide, show fld 0x2000008B#32 8 3 = 0#3 by decide, BitVec.zero_or, BitVec.or_zero])

theorem pollFirst (nw : BitVec 1) (p : BitVec 3) (g : BitVec 3) : Statement (.pollFirst nw p g) := by
  intro c rest h
  simp only [encode, enc32, Option.some.injEq] at h; subst h
  exact decode_row32 113 ⟨0xFFFDC0FF#32, 0x3000008B#32, fun w => .pollFirst (fld w 17 1) (fld w 11 3) (fld w 8 3)⟩ (put 17 nw ||| put 11 p ||| put 8 g) _ rest rfl (by simp only [BitVec.and_or_distrib_right, put_and 17 nw 0xFFFDC0FF#32 (by decide), put_and 11 p 0xFFFDC0FF#32 (by decide), put_and 8 g 0xFFFDC0FF#32 (by decide), BitVec.or_zero]) (by decide) (by decide) (by simp only [fld_or, fld_put 17 nw (by decide), fld_put_apart 17 11 1 p (by decide), fld_put_apart 17 8 1 g (by decide), fld_put_apart 11 17 3 nw (by decide), fld_put 11 p (by decide), fld_put_apart 11 8 3 g (by decide), fld_put_apart 8 17 3 nw (by decide), fld_put_apart 8 11 3 p (by decide), fld_put 8 g (by decide), show fld 0x3000008B#32 17 1 = 0#1 by decide, show fld 0x3000008B#32 11 3 = 0#3 by decide, show fld 0x3000008B#32 8 3 = 0#3 by decide, BitVec.zero_or, BitVec.or_zero])

theorem pollSame (f : UForm) : Statement (.pollSame f) := by
  intro c rest h
  simp only [encode, enc32, Option.some.injEq] at h; subst h
  exact decode_row32 114 ⟨0xFE0000FF#32, 0x4000008B#32, fun w => .pollSame (UForm.read w)⟩ f.bits _ rest rfl (and_zero_of _ _ _ (UForm.bits_within f) (by decide)) (by decide) (by decide) (congrArg _ (UForm.read_bits f _ (by decide)))

theorem pollCount (q : BitVec 3) (nw : BitVec 1) (d : BitVec 6) (g : BitVec 3) : Statement (.pollCount q nw d g) := by
  intro c rest h
  simp only [encode, enc32, Option.some.injEq] at h; subst h
  exact decode_row32 115 ⟨0xFFE000FF#32, 0x5000008B#32, fun w => .pollCount (fld w 18 3) (fld w 17 1) (fld w 11 6) (fld w 8 3)⟩ (put 18 q ||| put 17 nw ||| put 11 d ||| put 8 g) _ rest rfl (by simp only [BitVec.and_or_distrib_right, put_and 18 q 0xFFE000FF#32 (by decide), put_and 17 nw 0xFFE000FF#32 (by decide), put_and 11 d 0xFFE000FF#32 (by decide), put_and 8 g 0xFFE000FF#32 (by decide), BitVec.or_zero]) (by decide) (by decide) (by simp only [fld_or, fld_put 18 q (by decide), fld_put_apart 18 17 3 nw (by decide), fld_put_apart 18 11 3 d (by decide), fld_put_apart 18 8 3 g (by decide), fld_put_apart 17 18 1 q (by decide), fld_put 17 nw (by decide), fld_put_apart 17 11 1 d (by decide), fld_put_apart 17 8 1 g (by decide), fld_put_apart 11 18 6 q (by decide), fld_put_apart 11 17 6 nw (by decide), fld_put 11 d (by decide), fld_put_apart 11 8 6 g (by decide), fld_put_apart 8 18 3 q (by decide), fld_put_apart 8 17 3 nw (by decide), fld_put_apart 8 11 3 d (by decide), fld_put 8 g (by decide), show fld 0x5000008B#32 18 3 = 0#3 by decide, show fld 0x5000008B#32 17 1 = 0#1 by decide, show fld 0x5000008B#32 11 6 = 0#6 by decide, show fld 0x5000008B#32 8 3 = 0#3 by decide, BitVec.zero_or, BitVec.or_zero])

theorem bcast (f : RForm) : Statement (.bcast f) := by
  intro c rest h
  simp only [encode, enc32, Option.some.injEq] at h; subst h
  exact decode_row32 116 ⟨0x000000FF#32, 0x0000008D#32, fun w => .bcast (RForm.read w)⟩ f.bits _ rest rfl (and_zero_of _ _ _ (RForm.bits_within f) (by decide)) (by decide) (by decide) (congrArg _ (RForm.read_bits f _ (by decide)))

theorem ldW8 (f : LdForm) : Statement (.ldW8 f) := by
  intro c rest h
  simp only [encode, enc32, Option.some.injEq] at h; subst h
  exact decode_row32 117 ⟨0x1E0000FF#32, 0x00000091#32, fun w => .ldW8 (LdForm.read w)⟩ f.bits _ rest rfl (and_zero_of _ _ _ (LdForm.bits_within f) (by decide)) (by decide) (by decide) (congrArg _ (LdForm.read_bits f _ (by decide)))

theorem ldW16 (f : LdForm) : Statement (.ldW16 f) := by
  intro c rest h
  simp only [encode, enc32, Option.some.injEq] at h; subst h
  exact decode_row32 118 ⟨0x1E0000FF#32, 0x00000093#32, fun w => .ldW16 (LdForm.read w)⟩ f.bits _ rest rfl (and_zero_of _ _ _ (LdForm.bits_within f) (by decide)) (by decide) (by decide) (congrArg _ (LdForm.read_bits f _ (by decide)))

theorem ldW32 (f : LdForm) : Statement (.ldW32 f) := by
  intro c rest h
  simp only [encode, enc32, Option.some.injEq] at h; subst h
  exact decode_row32 119 ⟨0x1E0000FF#32, 0x00000095#32, fun w => .ldW32 (LdForm.read w)⟩ f.bits _ rest rfl (and_zero_of _ _ _ (LdForm.bits_within f) (by decide)) (by decide) (by decide) (congrArg _ (LdForm.read_bits f _ (by decide)))

theorem ldW64 (f : LdForm) : Statement (.ldW64 f) := by
  intro c rest h
  simp only [encode, enc32, Option.some.injEq] at h; subst h
  exact decode_row32 120 ⟨0x1E0000FF#32, 0x00000097#32, fun w => .ldW64 (LdForm.read w)⟩ f.bits _ rest rfl (and_zero_of _ _ _ (LdForm.bits_within f) (by decide)) (by decide) (by decide) (congrArg _ (LdForm.read_bits f _ (by decide)))

theorem ldW128 (f : LdForm) : Statement (.ldW128 f) := by
  intro c rest h
  simp only [encode, enc32, Option.some.injEq] at h; subst h
  exact decode_row32 121 ⟨0x1E0000FF#32, 0x00000099#32, fun w => .ldW128 (LdForm.read w)⟩ f.bits _ rest rfl (and_zero_of _ _ _ (LdForm.bits_within f) (by decide)) (by decide) (by decide) (congrArg _ (LdForm.read_bits f _ (by decide)))

theorem ldX8 (f : LdForm) : Statement (.ldX8 f) := by
  intro c rest h
  simp only [encode, enc32, Option.some.injEq] at h; subst h
  exact decode_row32 122 ⟨0x1E0000FF#32, 0x0000009B#32, fun w => .ldX8 (LdForm.read w)⟩ f.bits _ rest rfl (and_zero_of _ _ _ (LdForm.bits_within f) (by decide)) (by decide) (by decide) (congrArg _ (LdForm.read_bits f _ (by decide)))

theorem ldX16 (f : LdForm) : Statement (.ldX16 f) := by
  intro c rest h
  simp only [encode, enc32, Option.some.injEq] at h; subst h
  exact decode_row32 123 ⟨0x1E0000FF#32, 0x0000009D#32, fun w => .ldX16 (LdForm.read w)⟩ f.bits _ rest rfl (and_zero_of _ _ _ (LdForm.bits_within f) (by decide)) (by decide) (by decide) (congrArg _ (LdForm.read_bits f _ (by decide)))

theorem stW8 (f : StForm) : Statement (.stW8 f) := by
  intro c rest h
  simp only [encode, enc32, Option.some.injEq] at h; subst h
  exact decode_row32 124 ⟨0x00003FFF#32, 0x0000009F#32, fun w => .stW8 (StForm.read w)⟩ f.bits _ rest rfl (and_zero_of _ _ _ (StForm.bits_within f) (by decide)) (by decide) (by decide) (congrArg _ (StForm.read_bits f _ (by decide)))

theorem stW16 (f : StForm) : Statement (.stW16 f) := by
  intro c rest h
  simp only [encode, enc32, Option.some.injEq] at h; subst h
  exact decode_row32 125 ⟨0x00003FFF#32, 0x000000A1#32, fun w => .stW16 (StForm.read w)⟩ f.bits _ rest rfl (and_zero_of _ _ _ (StForm.bits_within f) (by decide)) (by decide) (by decide) (congrArg _ (StForm.read_bits f _ (by decide)))

theorem stW32 (f : StForm) : Statement (.stW32 f) := by
  intro c rest h
  simp only [encode, enc32, Option.some.injEq] at h; subst h
  exact decode_row32 126 ⟨0x00003FFF#32, 0x000000A3#32, fun w => .stW32 (StForm.read w)⟩ f.bits _ rest rfl (and_zero_of _ _ _ (StForm.bits_within f) (by decide)) (by decide) (by decide) (congrArg _ (StForm.read_bits f _ (by decide)))

theorem stW64 (f : StForm) : Statement (.stW64 f) := by
  intro c rest h
  simp only [encode, enc32, Option.some.injEq] at h; subst h
  exact decode_row32 127 ⟨0x00003FFF#32, 0x000000A5#32, fun w => .stW64 (StForm.read w)⟩ f.bits _ rest rfl (and_zero_of _ _ _ (StForm.bits_within f) (by decide)) (by decide) (by decide) (congrArg _ (StForm.read_bits f _ (by decide)))

theorem stW128 (f : StForm) : Statement (.stW128 f) := by
  intro c rest h
  simp only [encode, enc32, Option.some.injEq] at h; subst h
  exact decode_row32 128 ⟨0x00003FFF#32, 0x000000A7#32, fun w => .stW128 (StForm.read w)⟩ f.bits _ rest rfl (and_zero_of _ _ _ (StForm.bits_within f) (by decide)) (by decide) (by decide) (congrArg _ (StForm.read_bits f _ (by decide)))

theorem ldsp (a : BitVec 7) (width : BitVec 2) (d : BitVec 6) : Statement (.ldsp a width d) := by
  intro c rest h
  simp only [encode, enc32, Option.some.injEq] at h; subst h
  exact decode_row32 129 ⟨0xFE00C0FF#32, 0x000000A9#32, fun w => .ldsp (fld w 18 7) (fld w 16 2) (fld w 8 6)⟩ (put 18 a ||| put 16 width ||| put 8 d) _ rest rfl (by simp only [BitVec.and_or_distrib_right, put_and 18 a 0xFE00C0FF#32 (by decide), put_and 16 width 0xFE00C0FF#32 (by decide), put_and 8 d 0xFE00C0FF#32 (by decide), BitVec.or_zero]) (by decide) (by decide) (by simp only [fld_or, fld_put 18 a (by decide), fld_put_apart 18 16 7 width (by decide), fld_put_apart 18 8 7 d (by decide), fld_put_apart 16 18 2 a (by decide), fld_put 16 width (by decide), fld_put_apart 16 8 2 d (by decide), fld_put_apart 8 18 6 a (by decide), fld_put_apart 8 16 6 width (by decide), fld_put 8 d (by decide), show fld 0x000000A9#32 18 7 = 0#7 by decide, show fld 0x000000A9#32 16 2 = 0#2 by decide, show fld 0x000000A9#32 8 6 = 0#6 by decide, BitVec.zero_or, BitVec.or_zero])

theorem stsp (data : BitVec 7) (a : BitVec 7) (width : BitVec 2) : Statement (.stsp data a width) := by
  intro c rest h
  simp only [encode, enc32, Option.some.injEq] at h; subst h
  exact decode_row32 130 ⟨0x0000FFFF#32, 0x000000AB#32, fun w => .stsp (fld w 25 7) (fld w 18 7) (fld w 16 2)⟩ (put 25 data ||| put 18 a ||| put 16 width) _ rest rfl (by simp only [BitVec.and_or_distrib_right, put_and 25 data 0x0000FFFF#32 (by decide), put_and 18 a 0x0000FFFF#32 (by decide), put_and 16 width 0x0000FFFF#32 (by decide), BitVec.or_zero]) (by decide) (by decide) (by simp only [fld_or, fld_put 25 data (by decide), fld_put_apart 25 18 7 a (by decide), fld_put_apart 25 16 7 width (by decide), fld_put_apart 18 25 7 data (by decide), fld_put 18 a (by decide), fld_put_apart 18 16 7 width (by decide), fld_put_apart 16 25 2 data (by decide), fld_put_apart 16 18 2 a (by decide), fld_put 16 width (by decide), show fld 0x000000AB#32 25 7 = 0#7 by decide, show fld 0x000000AB#32 18 7 = 0#7 by decide, show fld 0x000000AB#32 16 2 = 0#2 by decide, BitVec.zero_or, BitVec.or_zero])

theorem atomW32 (f : AtomForm) : Statement (.atomW32 f) := by
  intro c rest h
  simp only [encode, enc32, Option.some.injEq] at h; subst h
  exact decode_row32 131 ⟨0x000000FF#32, 0x000000AD#32, fun w => .atomW32 (AtomForm.read w)⟩ f.bits _ rest rfl (and_zero_of _ _ _ (AtomForm.bits_within f) (by decide)) (by decide) (by decide) (congrArg _ (AtomForm.read_bits f _ (by decide)))

theorem atomW64 (f : AtomForm) : Statement (.atomW64 f) := by
  intro c rest h
  simp only [encode, enc32, Option.some.injEq] at h; subst h
  exact decode_row32 132 ⟨0x000000FF#32, 0x000000AF#32, fun w => .atomW64 (AtomForm.read w)⟩ f.bits _ rest rfl (and_zero_of _ _ _ (AtomForm.bits_within f) (by decide)) (by decide) (by decide) (congrArg _ (AtomForm.read_bits f _ (by decide)))

theorem red (f : RedForm) : Statement (.red f) := by
  intro c rest h
  simp only [encode, enc32, Option.some.injEq] at h; subst h
  exact decode_row32 133 ⟨0x00003EFF#32, 0x000000B1#32, fun w => .red (RedForm.read w)⟩ f.bits _ rest rfl (and_zero_of _ _ _ (RedForm.bits_within f) (by decide)) (by decide) (by decide) (congrArg _ (RedForm.read_bits f _ (by decide)))

theorem fence (sc : BitVec 3) (g : BitVec 3) : Statement (.fence sc g) := by
  intro c rest h
  simp only [encode, enc32, Option.some.injEq] at h; subst h
  exact decode_row32 134 ⟨0xF1FFF8FF#32, 0x011000B3#32, fun w => .fence (fld w 25 3) (fld w 8 3)⟩ (put 25 sc ||| put 8 g) _ rest rfl (by simp only [BitVec.and_or_distrib_right, put_and 25 sc 0xF1FFF8FF#32 (by decide), put_and 8 g 0xF1FFF8FF#32 (by decide), BitVec.or_zero]) (by decide) (by decide) (by simp only [fld_or, fld_put 25 sc (by decide), fld_put_apart 25 8 3 g (by decide), fld_put_apart 8 25 3 sc (by decide), fld_put 8 g (by decide), show fld 0x011000B3#32 25 3 = 0#3 by decide, show fld 0x011000B3#32 8 3 = 0#3 by decide, BitVec.zero_or, BitVec.or_zero])

theorem acqSteal (sc : BitVec 3) (a : BitVec 7) (g : BitVec 3) : Statement (.acqSteal sc a g) := by
  intro c rest h
  simp only [encode, enc32, Option.some.injEq] at h; subst h
  exact decode_row32 135 ⟨0xF003F8FF#32, 0x100000B3#32, fun w => .acqSteal (fld w 25 3) (fld w 18 7) (fld w 8 3)⟩ (put 25 sc ||| put 18 a ||| put 8 g) _ rest rfl (by simp only [BitVec.and_or_distrib_right, put_and 25 sc 0xF003F8FF#32 (by decide), put_and 18 a 0xF003F8FF#32 (by decide), put_and 8 g 0xF003F8FF#32 (by decide), BitVec.or_zero]) (by decide) (by decide) (by simp only [fld_or, fld_put 25 sc (by decide), fld_put_apart 25 18 3 a (by decide), fld_put_apart 25 8 3 g (by decide), fld_put_apart 18 25 7 sc (by decide), fld_put 18 a (by decide), fld_put_apart 18 8 7 g (by decide), fld_put_apart 8 25 3 sc (by decide), fld_put_apart 8 18 3 a (by decide), fld_put 8 g (by decide), show fld 0x100000B3#32 25 3 = 0#3 by decide, show fld 0x100000B3#32 18 7 = 0#7 by decide, show fld 0x100000B3#32 8 3 = 0#3 by decide, BitVec.zero_or, BitVec.or_zero])

theorem pgreq (k : BitVec 7) (j : BitVec 6) (g : BitVec 3) : Statement (.pgreq k j g) := by
  intro c rest h
  simp only [encode, enc32, Option.some.injEq] at h; subst h
  exact decode_row32 136 ⟨0xFE0200FF#32, 0x200000B3#32, fun w => .pgreq (fld w 18 7) (fld w 11 6) (fld w 8 3)⟩ (put 18 k ||| put 11 j ||| put 8 g) _ rest rfl (by simp only [BitVec.and_or_distrib_right, put_and 18 k 0xFE0200FF#32 (by decide), put_and 11 j 0xFE0200FF#32 (by decide), put_and 8 g 0xFE0200FF#32 (by decide), BitVec.or_zero]) (by decide) (by decide) (by simp only [fld_or, fld_put 18 k (by decide), fld_put_apart 18 11 7 j (by decide), fld_put_apart 18 8 7 g (by decide), fld_put_apart 11 18 6 k (by decide), fld_put 11 j (by decide), fld_put_apart 11 8 6 g (by decide), fld_put_apart 8 18 3 k (by decide), fld_put_apart 8 11 3 j (by decide), fld_put 8 g (by decide), show fld 0x200000B3#32 18 7 = 0#7 by decide, show fld 0x200000B3#32 11 6 = 0#6 by decide, show fld 0x200000B3#32 8 3 = 0#3 by decide, BitVec.zero_or, BitVec.or_zero])

theorem prefetch (lvl : BitVec 3) (k : BitVec 7) (g : BitVec 3) : Statement (.prefetch lvl k g) := by
  intro c rest h
  simp only [encode, enc32, Option.some.injEq] at h; subst h
  exact decode_row32 137 ⟨0xF003F8FF#32, 0x300000B3#32, fun w => .prefetch (fld w 25 3) (fld w 18 7) (fld w 8 3)⟩ (put 25 lvl ||| put 18 k ||| put 8 g) _ rest rfl (by simp only [BitVec.and_or_distrib_right, put_and 25 lvl 0xF003F8FF#32 (by decide), put_and 18 k 0xF003F8FF#32 (by decide), put_and 8 g 0xF003F8FF#32 (by decide), BitVec.or_zero]) (by decide) (by decide) (by simp only [fld_or, fld_put 25 lvl (by decide), fld_put_apart 25 18 3 k (by decide), fld_put_apart 25 8 3 g (by decide), fld_put_apart 18 25 7 lvl (by decide), fld_put 18 k (by decide), fld_put_apart 18 8 7 g (by decide), fld_put_apart 8 25 3 lvl (by decide), fld_put_apart 8 18 3 k (by decide), fld_put 8 g (by decide), show fld 0x300000B3#32 25 3 = 0#3 by decide, show fld 0x300000B3#32 18 7 = 0#7 by decide, show fld 0x300000B3#32 8 3 = 0#3 by decide, BitVec.zero_or, BitVec.or_zero])

theorem wbspan (mode : BitVec 3) (k : BitVec 7) (d : BitVec 6) (g : BitVec 3) : Statement (.wbspan mode k d g) := by
  intro c rest h
  simp only [encode, enc32, Option.some.injEq] at h; subst h
  exact decode_row32 138 ⟨0xF00200FF#32, 0x400000B3#32, fun w => .wbspan (fld w 25 3) (fld w 18 7) (fld w 11 6) (fld w 8 3)⟩ (put 25 mode ||| put 18 k ||| put 11 d ||| put 8 g) _ rest rfl (by simp only [BitVec.and_or_distrib_right, put_and 25 mode 0xF00200FF#32 (by decide), put_and 18 k 0xF00200FF#32 (by decide), put_and 11 d 0xF00200FF#32 (by decide), put_and 8 g 0xF00200FF#32 (by decide), BitVec.or_zero]) (by decide) (by decide) (by simp only [fld_or, fld_put 25 mode (by decide), fld_put_apart 25 18 3 k (by decide), fld_put_apart 25 11 3 d (by decide), fld_put_apart 25 8 3 g (by decide), fld_put_apart 18 25 7 mode (by decide), fld_put 18 k (by decide), fld_put_apart 18 11 7 d (by decide), fld_put_apart 18 8 7 g (by decide), fld_put_apart 11 25 6 mode (by decide), fld_put_apart 11 18 6 k (by decide), fld_put 11 d (by decide), fld_put_apart 11 8 6 g (by decide), fld_put_apart 8 25 3 mode (by decide), fld_put_apart 8 18 3 k (by decide), fld_put_apart 8 11 3 d (by decide), fld_put 8 g (by decide), show fld 0x400000B3#32 25 3 = 0#3 by decide, show fld 0x400000B3#32 18 7 = 0#7 by decide, show fld 0x400000B3#32 11 6 = 0#6 by decide, show fld 0x400000B3#32 8 3 = 0#3 by decide, BitVec.zero_or, BitVec.or_zero])

theorem invspan (k : BitVec 7) (d : BitVec 6) (g : BitVec 3) : Statement (.invspan k d g) := by
  intro c rest h
  simp only [encode, enc32, Option.some.injEq] at h; subst h
  exact decode_row32 139 ⟨0xFE0200FF#32, 0x500000B3#32, fun w => .invspan (fld w 18 7) (fld w 11 6) (fld w 8 3)⟩ (put 18 k ||| put 11 d ||| put 8 g) _ rest rfl (by simp only [BitVec.and_or_distrib_right, put_and 18 k 0xFE0200FF#32 (by decide), put_and 11 d 0xFE0200FF#32 (by decide), put_and 8 g 0xFE0200FF#32 (by decide), BitVec.or_zero]) (by decide) (by decide) (by simp only [fld_or, fld_put 18 k (by decide), fld_put_apart 18 11 7 d (by decide), fld_put_apart 18 8 7 g (by decide), fld_put_apart 11 18 6 k (by decide), fld_put 11 d (by decide), fld_put_apart 11 8 6 g (by decide), fld_put_apart 8 18 3 k (by decide), fld_put_apart 8 11 3 d (by decide), fld_put 8 g (by decide), show fld 0x500000B3#32 18 7 = 0#7 by decide, show fld 0x500000B3#32 11 6 = 0#6 by decide, show fld 0x500000B3#32 8 3 = 0#3 by decide, BitVec.zero_or, BitVec.or_zero])

theorem cp (f : CopyForm) : Statement (.cp f) := by
  intro c rest h
  simp only [encode, enc32, Option.some.injEq] at h; subst h
  exact decode_row32 140 ⟨0x000000FF#32, 0x000000C1#32, fun w => .cp (CopyForm.read w)⟩ f.bits _ rest rfl (and_zero_of _ _ _ (CopyForm.bits_within f) (by decide)) (by decide) (by decide) (congrArg _ (CopyForm.read_bits f _ (by decide)))

theorem cpg (f : CopyForm) : Statement (.cpg f) := by
  intro c rest h
  simp only [encode, enc32, Option.some.injEq] at h; subst h
  exact decode_row32 141 ⟨0x000000FF#32, 0x000000C3#32, fun w => .cpg (CopyForm.read w)⟩ f.bits _ rest rfl (and_zero_of _ _ _ (CopyForm.bits_within f) (by decide)) (by decide) (by decide) (congrArg _ (CopyForm.read_bits f _ (by decide)))

theorem cpm (d : BitVec 7) (sc : BitVec 7) (i : BitVec 4) : Statement (.cpm d sc i) := by
  intro c rest h
  simp only [encode, enc32, Option.some.injEq] at h; subst h
  exact decode_row32 142 ⟨0x00003FFF#32, 0x000000C5#32, fun w => .cpm (fld w 25 7) (fld w 18 7) (fld w 14 4)⟩ (put 25 d ||| put 18 sc ||| put 14 i) _ rest rfl (by simp only [BitVec.and_or_distrib_right, put_and 25 d 0x00003FFF#32 (by decide), put_and 18 sc 0x00003FFF#32 (by decide), put_and 14 i 0x00003FFF#32 (by decide), BitVec.or_zero]) (by decide) (by decide) (by simp only [fld_or, fld_put 25 d (by decide), fld_put_apart 25 18 7 sc (by decide), fld_put_apart 25 14 7 i (by decide), fld_put_apart 18 25 7 d (by decide), fld_put 18 sc (by decide), fld_put_apart 18 14 7 i (by decide), fld_put_apart 14 25 4 d (by decide), fld_put_apart 14 18 4 sc (by decide), fld_put 14 i (by decide), show fld 0x000000C5#32 25 7 = 0#7 by decide, show fld 0x000000C5#32 18 7 = 0#7 by decide, show fld 0x000000C5#32 14 4 = 0#4 by decide, BitVec.zero_or, BitVec.or_zero])

theorem qpop (q : BitVec 4) (nw : BitVec 1) (d : BitVec 6) (g : BitVec 3) : Statement (.qpop q nw d g) := by
  intro c rest h
  simp only [encode, enc32, Option.some.injEq] at h; subst h
  exact decode_row32 143 ⟨0xFFC000FF#32, 0x000000C7#32, fun w => .qpop (fld w 18 4) (fld w 17 1) (fld w 11 6) (fld w 8 3)⟩ (put 18 q ||| put 17 nw ||| put 11 d ||| put 8 g) _ rest rfl (by simp only [BitVec.and_or_distrib_right, put_and 18 q 0xFFC000FF#32 (by decide), put_and 17 nw 0xFFC000FF#32 (by decide), put_and 11 d 0xFFC000FF#32 (by decide), put_and 8 g 0xFFC000FF#32 (by decide), BitVec.or_zero]) (by decide) (by decide) (by simp only [fld_or, fld_put 18 q (by decide), fld_put_apart 18 17 4 nw (by decide), fld_put_apart 18 11 4 d (by decide), fld_put_apart 18 8 4 g (by decide), fld_put_apart 17 18 1 q (by decide), fld_put 17 nw (by decide), fld_put_apart 17 11 1 d (by decide), fld_put_apart 17 8 1 g (by decide), fld_put_apart 11 18 6 q (by decide), fld_put_apart 11 17 6 nw (by decide), fld_put 11 d (by decide), fld_put_apart 11 8 6 g (by decide), fld_put_apart 8 18 3 q (by decide), fld_put_apart 8 17 3 nw (by decide), fld_put_apart 8 11 3 d (by decide), fld_put 8 g (by decide), show fld 0x000000C7#32 18 4 = 0#4 by decide, show fld 0x000000C7#32 17 1 = 0#1 by decide, show fld 0x000000C7#32 11 6 = 0#6 by decide, show fld 0x000000C7#32 8 3 = 0#3 by decide, BitVec.zero_or, BitVec.or_zero])

theorem qrel (q : BitVec 4) (g : BitVec 3) : Statement (.qrel q g) := by
  intro c rest h
  simp only [encode, enc32, Option.some.injEq] at h; subst h
  exact decode_row32 144 ⟨0xFFC3F8FF#32, 0x100000C7#32, fun w => .qrel (fld w 18 4) (fld w 8 3)⟩ (put 18 q ||| put 8 g) _ rest rfl (by simp only [BitVec.and_or_distrib_right, put_and 18 q 0xFFC3F8FF#32 (by decide), put_and 8 g 0xFFC3F8FF#32 (by decide), BitVec.or_zero]) (by decide) (by decide) (by simp only [fld_or, fld_put 18 q (by decide), fld_put_apart 18 8 4 g (by decide), fld_put_apart 8 18 3 q (by decide), fld_put 8 g (by decide), show fld 0x100000C7#32 18 4 = 0#4 by decide, show fld 0x100000C7#32 8 3 = 0#3 by decide, BitVec.zero_or, BitVec.or_zero])

theorem qstat (q : BitVec 4) (nw : BitVec 1) (d : BitVec 6) (g : BitVec 3) : Statement (.qstat q nw d g) := by
  intro c rest h
  simp only [encode, enc32, Option.some.injEq] at h; subst h
  exact decode_row32 145 ⟨0xFFC000FF#32, 0x200000C7#32, fun w => .qstat (fld w 18 4) (fld w 17 1) (fld w 11 6) (fld w 8 3)⟩ (put 18 q ||| put 17 nw ||| put 11 d ||| put 8 g) _ rest rfl (by simp only [BitVec.and_or_distrib_right, put_and 18 q 0xFFC000FF#32 (by decide), put_and 17 nw 0xFFC000FF#32 (by decide), put_and 11 d 0xFFC000FF#32 (by decide), put_and 8 g 0xFFC000FF#32 (by decide), BitVec.or_zero]) (by decide) (by decide) (by simp only [fld_or, fld_put 18 q (by decide), fld_put_apart 18 17 4 nw (by decide), fld_put_apart 18 11 4 d (by decide), fld_put_apart 18 8 4 g (by decide), fld_put_apart 17 18 1 q (by decide), fld_put 17 nw (by decide), fld_put_apart 17 11 1 d (by decide), fld_put_apart 17 8 1 g (by decide), fld_put_apart 11 18 6 q (by decide), fld_put_apart 11 17 6 nw (by decide), fld_put 11 d (by decide), fld_put_apart 11 8 6 g (by decide), fld_put_apart 8 18 3 q (by decide), fld_put_apart 8 17 3 nw (by decide), fld_put_apart 8 11 3 d (by decide), fld_put 8 g (by decide), show fld 0x200000C7#32 18 4 = 0#4 by decide, show fld 0x200000C7#32 17 1 = 0#1 by decide, show fld 0x200000C7#32 11 6 = 0#6 by decide, show fld 0x200000C7#32 8 3 = 0#3 by decide, BitVec.zero_or, BitVec.or_zero])

theorem cwait (f : CwaitForm) : Statement (.cwait f) := by
  intro c rest h
  simp only [encode, enc32, Option.some.injEq] at h; subst h
  exact decode_row32 146 ⟨0xFC0000FF#32, 0x300000C7#32, fun w => .cwait (CwaitForm.read w)⟩ f.bits _ rest rfl (and_zero_of _ _ _ (CwaitForm.bits_within f) (by decide)) (by decide) (by decide) (congrArg _ (CwaitForm.read_bits f _ (by decide)))

theorem ctest (f : CtestForm) : Statement (.ctest f) := by
  intro c rest h
  simp only [encode, enc32, Option.some.injEq] at h; subst h
  exact decode_row32 147 ⟨0xFE0000FF#32, 0x400000C7#32, fun w => .ctest (CtestForm.read w)⟩ f.bits _ rest rfl (and_zero_of _ _ _ (CtestForm.bits_within f) (by decide)) (by decide) (by decide) (congrArg _ (CtestForm.read_bits f _ (by decide)))

theorem cclr (cb : BitVec 4) (g : BitVec 3) : Statement (.cclr cb g) := by
  intro c rest h
  simp only [encode, enc32, Option.some.injEq] at h; subst h
  exact decode_row32 148 ⟨0xFFC3F8FF#32, 0x500000C7#32, fun w => .cclr (fld w 18 4) (fld w 8 3)⟩ (put 18 cb ||| put 8 g) _ rest rfl (by simp only [BitVec.and_or_distrib_right, put_and 18 cb 0xFFC3F8FF#32 (by decide), put_and 8 g 0xFFC3F8FF#32 (by decide), BitVec.or_zero]) (by decide) (by decide) (by simp only [fld_or, fld_put 18 cb (by decide), fld_put_apart 18 8 4 g (by decide), fld_put_apart 8 18 3 cb (by decide), fld_put 8 g (by decide), show fld 0x500000C7#32 18 4 = 0#4 by decide, show fld 0x500000C7#32 8 3 = 0#3 by decide, BitVec.zero_or, BitVec.or_zero])

theorem fset (z : BitVec 1) (fl : BitVec 5) (g : BitVec 3) : Statement (.fset z fl g) := by
  intro c rest h
  simp only [encode, enc32, Option.some.injEq] at h; subst h
  exact decode_row32 149 ⟨0xFD83F8FF#32, 0x600000C7#32, fun w => .fset (fld w 25 1) (fld w 18 5) (fld w 8 3)⟩ (put 25 z ||| put 18 fl ||| put 8 g) _ rest rfl (by simp only [BitVec.and_or_distrib_right, put_and 25 z 0xFD83F8FF#32 (by decide), put_and 18 fl 0xFD83F8FF#32 (by decide), put_and 8 g 0xFD83F8FF#32 (by decide), BitVec.or_zero]) (by decide) (by decide) (by simp only [fld_or, fld_put 25 z (by decide), fld_put_apart 25 18 1 fl (by decide), fld_put_apart 25 8 1 g (by decide), fld_put_apart 18 25 5 z (by decide), fld_put 18 fl (by decide), fld_put_apart 18 8 5 g (by decide), fld_put_apart 8 25 3 z (by decide), fld_put_apart 8 18 3 fl (by decide), fld_put 8 g (by decide), show fld 0x600000C7#32 25 1 = 0#1 by decide, show fld 0x600000C7#32 18 5 = 0#5 by decide, show fld 0x600000C7#32 8 3 = 0#3 by decide, BitVec.zero_or, BitVec.or_zero])

theorem fwait (z : BitVec 1) (fl : BitVec 5) (g : BitVec 3) : Statement (.fwait z fl g) := by
  intro c rest h
  simp only [encode, enc32, Option.some.injEq] at h; subst h
  exact decode_row32 150 ⟨0xFD83F8FF#32, 0x700000C7#32, fun w => .fwait (fld w 25 1) (fld w 18 5) (fld w 8 3)⟩ (put 25 z ||| put 18 fl ||| put 8 g) _ rest rfl (by simp only [BitVec.and_or_distrib_right, put_and 25 z 0xFD83F8FF#32 (by decide), put_and 18 fl 0xFD83F8FF#32 (by decide), put_and 8 g 0xFD83F8FF#32 (by decide), BitVec.or_zero]) (by decide) (by decide) (by simp only [fld_or, fld_put 25 z (by decide), fld_put_apart 25 18 1 fl (by decide), fld_put_apart 25 8 1 g (by decide), fld_put_apart 18 25 5 z (by decide), fld_put 18 fl (by decide), fld_put_apart 18 8 5 g (by decide), fld_put_apart 8 25 3 z (by decide), fld_put_apart 8 18 3 fl (by decide), fld_put 8 g (by decide), show fld 0x700000C7#32 25 1 = 0#1 by decide, show fld 0x700000C7#32 18 5 = 0#5 by decide, show fld 0x700000C7#32 8 3 = 0#3 by decide, BitVec.zero_or, BitVec.or_zero])

theorem qrv (nw : BitVec 1) (d : BitVec 6) (g : BitVec 3) : Statement (.qrv nw d g) := by
  intro c rest h
  simp only [encode, enc32, Option.some.injEq] at h; subst h
  exact decode_row32 151 ⟨0xFFFC00FF#32, 0x811000C7#32, fun w => .qrv (fld w 17 1) (fld w 11 6) (fld w 8 3)⟩ (put 17 nw ||| put 11 d ||| put 8 g) _ rest rfl (by simp only [BitVec.and_or_distrib_right, put_and 17 nw 0xFFFC00FF#32 (by decide), put_and 11 d 0xFFFC00FF#32 (by decide), put_and 8 g 0xFFFC00FF#32 (by decide), BitVec.or_zero]) (by decide) (by decide) (by simp only [fld_or, fld_put 17 nw (by decide), fld_put_apart 17 11 1 d (by decide), fld_put_apart 17 8 1 g (by decide), fld_put_apart 11 17 6 nw (by decide), fld_put 11 d (by decide), fld_put_apart 11 8 6 g (by decide), fld_put_apart 8 17 3 nw (by decide), fld_put_apart 8 11 3 d (by decide), fld_put 8 g (by decide), show fld 0x811000C7#32 17 1 = 0#1 by decide, show fld 0x811000C7#32 11 6 = 0#6 by decide, show fld 0x811000C7#32 8 3 = 0#3 by decide, BitVec.zero_or, BitVec.or_zero])

theorem qsv (a : BitVec 7) (d : BitVec 6) (g : BitVec 3) : Statement (.qsv a d g) := by
  intro c rest h
  simp only [encode, enc32, Option.some.injEq] at h; subst h
  exact decode_row32 152 ⟨0xFE0200FF#32, 0x900000C7#32, fun w => .qsv (fld w 18 7) (fld w 11 6) (fld w 8 3)⟩ (put 18 a ||| put 11 d ||| put 8 g) _ rest rfl (by simp only [BitVec.and_or_distrib_right, put_and 18 a 0xFE0200FF#32 (by decide), put_and 11 d 0xFE0200FF#32 (by decide), put_and 8 g 0xFE0200FF#32 (by decide), BitVec.or_zero]) (by decide) (by decide) (by simp only [fld_or, fld_put 18 a (by decide), fld_put_apart 18 11 7 d (by decide), fld_put_apart 18 8 7 g (by decide), fld_put_apart 11 18 6 a (by decide), fld_put 11 d (by decide), fld_put_apart 11 8 6 g (by decide), fld_put_apart 8 18 3 a (by decide), fld_put_apart 8 11 3 d (by decide), fld_put 8 g (by decide), show fld 0x900000C7#32 18 7 = 0#7 by decide, show fld 0x900000C7#32 11 6 = 0#6 by decide, show fld 0x900000C7#32 8 3 = 0#3 by decide, BitVec.zero_or, BitVec.or_zero])

theorem bput (f : BputForm) : Statement (.bput f) := by
  intro c rest h
  simp only [encode, enc32, Option.some.injEq] at h; subst h
  exact decode_row32 153 ⟨0x000000FF#32, 0x000000C9#32, fun w => .bput (BputForm.read w)⟩ f.bits _ rest rfl (and_zero_of _ _ _ (BputForm.bits_within f) (by decide)) (by decide) (by decide) (congrArg _ (BputForm.read_bits f _ (by decide)))

theorem bcount (h : BitVec 4) (nw : BitVec 1) (d : BitVec 6) (g : BitVec 3) : Statement (.bcount h nw d g) := by
  intro c rest h
  simp only [encode, enc32, Option.some.injEq] at h; subst h
  exact decode_row32 154 ⟨0xFFC000FF#32, 0x000000CB#32, fun w => .bcount (fld w 18 4) (fld w 17 1) (fld w 11 6) (fld w 8 3)⟩ (put 18 h ||| put 17 nw ||| put 11 d ||| put 8 g) _ rest rfl (by simp only [BitVec.and_or_distrib_right, put_and 18 h 0xFFC000FF#32 (by decide), put_and 17 nw 0xFFC000FF#32 (by decide), put_and 11 d 0xFFC000FF#32 (by decide), put_and 8 g 0xFFC000FF#32 (by decide), BitVec.or_zero]) (by decide) (by decide) (by simp only [fld_or, fld_put 18 h (by decide), fld_put_apart 18 17 4 nw (by decide), fld_put_apart 18 11 4 d (by decide), fld_put_apart 18 8 4 g (by decide), fld_put_apart 17 18 1 h (by decide), fld_put 17 nw (by decide), fld_put_apart 17 11 1 d (by decide), fld_put_apart 17 8 1 g (by decide), fld_put_apart 11 18 6 h (by decide), fld_put_apart 11 17 6 nw (by decide), fld_put 11 d (by decide), fld_put_apart 11 8 6 g (by decide), fld_put_apart 8 18 3 h (by decide), fld_put_apart 8 17 3 nw (by decide), fld_put_apart 8 11 3 d (by decide), fld_put 8 g (by decide), show fld 0x000000CB#32 18 4 = 0#4 by decide, show fld 0x000000CB#32 17 1 = 0#1 by decide, show fld 0x000000CB#32 11 6 = 0#6 by decide, show fld 0x000000CB#32 8 3 = 0#3 by decide, BitVec.zero_or, BitVec.or_zero])

theorem bshare (h : BitVec 4) (nw : BitVec 1) (d : BitVec 6) (g : BitVec 3) : Statement (.bshare h nw d g) := by
  intro c rest h
  simp only [encode, enc32, Option.some.injEq] at h; subst h
  exact decode_row32 155 ⟨0xFFC000FF#32, 0x100000CB#32, fun w => .bshare (fld w 18 4) (fld w 17 1) (fld w 11 6) (fld w 8 3)⟩ (put 18 h ||| put 17 nw ||| put 11 d ||| put 8 g) _ rest rfl (by simp only [BitVec.and_or_distrib_right, put_and 18 h 0xFFC000FF#32 (by decide), put_and 17 nw 0xFFC000FF#32 (by decide), put_and 11 d 0xFFC000FF#32 (by decide), put_and 8 g 0xFFC000FF#32 (by decide), BitVec.or_zero]) (by decide) (by decide) (by simp only [fld_or, fld_put 18 h (by decide), fld_put_apart 18 17 4 nw (by decide), fld_put_apart 18 11 4 d (by decide), fld_put_apart 18 8 4 g (by decide), fld_put_apart 17 18 1 h (by decide), fld_put 17 nw (by decide), fld_put_apart 17 11 1 d (by decide), fld_put_apart 17 8 1 g (by decide), fld_put_apart 11 18 6 h (by decide), fld_put_apart 11 17 6 nw (by decide), fld_put 11 d (by decide), fld_put_apart 11 8 6 g (by decide), fld_put_apart 8 18 3 h (by decide), fld_put_apart 8 17 3 nw (by decide), fld_put_apart 8 11 3 d (by decide), fld_put 8 g (by decide), show fld 0x100000CB#32 18 4 = 0#4 by decide, show fld 0x100000CB#32 17 1 = 0#1 by decide, show fld 0x100000CB#32 11 6 = 0#6 by decide, show fld 0x100000CB#32 8 3 = 0#3 by decide, BitVec.zero_or, BitVec.or_zero])

theorem biter (h : BitVec 4) (nw : BitVec 1) (d : BitVec 6) (g : BitVec 3) : Statement (.biter h nw d g) := by
  intro c rest h
  simp only [encode, enc32, Option.some.injEq] at h; subst h
  exact decode_row32 156 ⟨0xFFC000FF#32, 0x200000CB#32, fun w => .biter (fld w 18 4) (fld w 17 1) (fld w 11 6) (fld w 8 3)⟩ (put 18 h ||| put 17 nw ||| put 11 d ||| put 8 g) _ rest rfl (by simp only [BitVec.and_or_distrib_right, put_and 18 h 0xFFC000FF#32 (by decide), put_and 17 nw 0xFFC000FF#32 (by decide), put_and 11 d 0xFFC000FF#32 (by decide), put_and 8 g 0xFFC000FF#32 (by decide), BitVec.or_zero]) (by decide) (by decide) (by simp only [fld_or, fld_put 18 h (by decide), fld_put_apart 18 17 4 nw (by decide), fld_put_apart 18 11 4 d (by decide), fld_put_apart 18 8 4 g (by decide), fld_put_apart 17 18 1 h (by decide), fld_put 17 nw (by decide), fld_put_apart 17 11 1 d (by decide), fld_put_apart 17 8 1 g (by decide), fld_put_apart 11 18 6 h (by decide), fld_put_apart 11 17 6 nw (by decide), fld_put 11 d (by decide), fld_put_apart 11 8 6 g (by decide), fld_put_apart 8 18 3 h (by decide), fld_put_apart 8 17 3 nw (by decide), fld_put_apart 8 11 3 d (by decide), fld_put 8 g (by decide), show fld 0x200000CB#32 18 4 = 0#4 by decide, show fld 0x200000CB#32 17 1 = 0#1 by decide, show fld 0x200000CB#32 11 6 = 0#6 by decide, show fld 0x200000CB#32 8 3 = 0#3 by decide, BitVec.zero_or, BitVec.or_zero])

theorem bnext (k : BitVec 7) (nw : BitVec 1) (d : BitVec 6) (g : BitVec 3) : Statement (.bnext k nw d g) := by
  intro c rest h
  simp only [encode, enc32, Option.some.injEq] at h; subst h
  exact decode_row32 157 ⟨0xFE0000FF#32, 0x300000CB#32, fun w => .bnext (fld w 18 7) (fld w 17 1) (fld w 11 6) (fld w 8 3)⟩ (put 18 k ||| put 17 nw ||| put 11 d ||| put 8 g) _ rest rfl (by simp only [BitVec.and_or_distrib_right, put_and 18 k 0xFE0000FF#32 (by decide), put_and 17 nw 0xFE0000FF#32 (by decide), put_and 11 d 0xFE0000FF#32 (by decide), put_and 8 g 0xFE0000FF#32 (by decide), BitVec.or_zero]) (by decide) (by decide) (by simp only [fld_or, fld_put 18 k (by decide), fld_put_apart 18 17 7 nw (by decide), fld_put_apart 18 11 7 d (by decide), fld_put_apart 18 8 7 g (by decide), fld_put_apart 17 18 1 k (by decide), fld_put 17 nw (by decide), fld_put_apart 17 11 1 d (by decide), fld_put_apart 17 8 1 g (by decide), fld_put_apart 11 18 6 k (by decide), fld_put_apart 11 17 6 nw (by decide), fld_put 11 d (by decide), fld_put_apart 11 8 6 g (by decide), fld_put_apart 8 18 3 k (by decide), fld_put_apart 8 17 3 nw (by decide), fld_put_apart 8 11 3 d (by decide), fld_put 8 g (by decide), show fld 0x300000CB#32 18 7 = 0#7 by decide, show fld 0x300000CB#32 17 1 = 0#1 by decide, show fld 0x300000CB#32 11 6 = 0#6 by decide, show fld 0x300000CB#32 8 3 = 0#3 by decide, BitVec.zero_or, BitVec.or_zero])

theorem bdrain (k : BitVec 7) (nw : BitVec 1) (d : BitVec 6) (g : BitVec 3) : Statement (.bdrain k nw d g) := by
  intro c rest h
  simp only [encode, enc32, Option.some.injEq] at h; subst h
  exact decode_row32 158 ⟨0xFE0000FF#32, 0x400000CB#32, fun w => .bdrain (fld w 18 7) (fld w 17 1) (fld w 11 6) (fld w 8 3)⟩ (put 18 k ||| put 17 nw ||| put 11 d ||| put 8 g) _ rest rfl (by simp only [BitVec.and_or_distrib_right, put_and 18 k 0xFE0000FF#32 (by decide), put_and 17 nw 0xFE0000FF#32 (by decide), put_and 11 d 0xFE0000FF#32 (by decide), put_and 8 g 0xFE0000FF#32 (by decide), BitVec.or_zero]) (by decide) (by decide) (by simp only [fld_or, fld_put 18 k (by decide), fld_put_apart 18 17 7 nw (by decide), fld_put_apart 18 11 7 d (by decide), fld_put_apart 18 8 7 g (by decide), fld_put_apart 17 18 1 k (by decide), fld_put 17 nw (by decide), fld_put_apart 17 11 1 d (by decide), fld_put_apart 17 8 1 g (by decide), fld_put_apart 11 18 6 k (by decide), fld_put_apart 11 17 6 nw (by decide), fld_put 11 d (by decide), fld_put_apart 11 8 6 g (by decide), fld_put_apart 8 18 3 k (by decide), fld_put_apart 8 17 3 nw (by decide), fld_put_apart 8 11 3 d (by decide), fld_put 8 g (by decide), show fld 0x400000CB#32 18 7 = 0#7 by decide, show fld 0x400000CB#32 17 1 = 0#1 by decide, show fld 0x400000CB#32 11 6 = 0#6 by decide, show fld 0x400000CB#32 8 3 = 0#3 by decide, BitVec.zero_or, BitVec.or_zero])

theorem bgrow (h : BitVec 4) (d : BitVec 6) (g : BitVec 3) : Statement (.bgrow h d g) := by
  intro c rest h
  simp only [encode, enc32, Option.some.injEq] at h; subst h
  exact decode_row32 159 ⟨0xFFC200FF#32, 0x500000CB#32, fun w => .bgrow (fld w 18 4) (fld w 11 6) (fld w 8 3)⟩ (put 18 h ||| put 11 d ||| put 8 g) _ rest rfl (by simp only [BitVec.and_or_distrib_right, put_and 18 h 0xFFC200FF#32 (by decide), put_and 11 d 0xFFC200FF#32 (by decide), put_and 8 g 0xFFC200FF#32 (by decide), BitVec.or_zero]) (by decide) (by decide) (by simp only [fld_or, fld_put 18 h (by decide), fld_put_apart 18 11 4 d (by decide), fld_put_apart 18 8 4 g (by decide), fld_put_apart 11 18 6 h (by decide), fld_put 11 d (by decide), fld_put_apart 11 8 6 g (by decide), fld_put_apart 8 18 3 h (by decide), fld_put_apart 8 11 3 d (by decide), fld_put 8 g (by decide), show fld 0x500000CB#32 18 4 = 0#4 by decide, show fld 0x500000CB#32 11 6 = 0#6 by decide, show fld 0x500000CB#32 8 3 = 0#3 by decide, BitVec.zero_or, BitVec.or_zero])

theorem mmx (f : MmxForm) : Statement (.mmx f) := by
  intro c rest h
  simp only [encode, enc32, Option.some.injEq] at h; subst h
  exact decode_row32 160 ⟨0x000000FF#32, 0x000000D1#32, fun w => .mmx (MmxForm.read w)⟩ f.bits _ rest rfl (and_zero_of _ _ _ (MmxForm.bits_within f) (by decide)) (by decide) (by decide) (congrArg _ (MmxForm.read_bits f _ (by decide)))

theorem mzero (cb : BitVec 4) (tile : BitVec 2) (ms : BitVec 2) : Statement (.mzero cb tile ms) := by
  intro c rest h
  simp only [encode, enc32, Option.some.injEq] at h; subst h
  exact decode_row32 161 ⟨0xFFFC03FF#32, 0x000000D3#32, fun w => .mzero (fld w 14 4) (fld w 12 2) (fld w 10 2)⟩ (put 14 cb ||| put 12 tile ||| put 10 ms) _ rest rfl (by simp only [BitVec.and_or_distrib_right, put_and 14 cb 0xFFFC03FF#32 (by decide), put_and 12 tile 0xFFFC03FF#32 (by decide), put_and 10 ms 0xFFFC03FF#32 (by decide), BitVec.or_zero]) (by decide) (by decide) (by simp only [fld_or, fld_put 14 cb (by decide), fld_put_apart 14 12 4 tile (by decide), fld_put_apart 14 10 4 ms (by decide), fld_put_apart 12 14 2 cb (by decide), fld_put 12 tile (by decide), fld_put_apart 12 10 2 ms (by decide), fld_put_apart 10 14 2 cb (by decide), fld_put_apart 10 12 2 tile (by decide), fld_put 10 ms (by decide), show fld 0x000000D3#32 14 4 = 0#4 by decide, show fld 0x000000D3#32 12 2 = 0#2 by decide, show fld 0x000000D3#32 10 2 = 0#2 by decide, BitVec.zero_or, BitVec.or_zero])

theorem mzeroBias (f : MtileForm) : Statement (.mzeroBias f) := by
  intro c rest h
  simp only [encode, enc32, Option.some.injEq] at h; subst h
  exact decode_row32 162 ⟨0x01FC03FF#32, 0x000001D3#32, fun w => .mzeroBias (MtileForm.read w)⟩ f.bits _ rest rfl (and_zero_of _ _ _ (MtileForm.bits_within f) (by decide)) (by decide) (by decide) (congrArg _ (MtileForm.read_bits f _ (by decide)))

theorem mld (f : MldForm) : Statement (.mld f) := by
  intro c rest h
  simp only [encode, enc32, Option.some.injEq] at h; subst h
  exact decode_row32 163 ⟨0x01FC00FF#32, 0x000000D5#32, fun w => .mld (MldForm.read w)⟩ f.bits _ rest rfl (and_zero_of _ _ _ (MldForm.bits_within f) (by decide)) (by decide) (by decide) (congrArg _ (MldForm.read_bits f _ (by decide)))

theorem mst (f : MtileForm) : Statement (.mst f) := by
  intro c rest h
  simp only [encode, enc32, Option.some.injEq] at h; subst h
  exact decode_row32 164 ⟨0x01FC03FF#32, 0x000000D7#32, fun w => .mst (MtileForm.read w)⟩ f.bits _ rest rfl (and_zero_of _ _ _ (MtileForm.bits_within f) (by decide)) (by decide) (by decide) (congrArg _ (MtileForm.read_bits f _ (by decide)))

theorem mscan (a : BitVec 7) (cb : BitVec 4) (ms : BitVec 2) : Statement (.mscan a cb ms) := by
  intro c rest h
  simp only [encode, enc32, Option.some.injEq] at h; subst h
  exact decode_row32 165 ⟨0x01FC33FF#32, 0x000000D9#32, fun w => .mscan (fld w 25 7) (fld w 14 4) (fld w 10 2)⟩ (put 25 a ||| put 14 cb ||| put 10 ms) _ rest rfl (by simp only [BitVec.and_or_distrib_right, put_and 25 a 0x01FC33FF#32 (by decide), put_and 14 cb 0x01FC33FF#32 (by decide), put_and 10 ms 0x01FC33FF#32 (by decide), BitVec.or_zero]) (by decide) (by decide) (by simp only [fld_or, fld_put 25 a (by decide), fld_put_apart 25 14 7 cb (by decide), fld_put_apart 25 10 7 ms (by decide), fld_put_apart 14 25 4 a (by decide), fld_put 14 cb (by decide), fld_put_apart 14 10 4 ms (by decide), fld_put_apart 10 25 2 a (by decide), fld_put_apart 10 14 2 cb (by decide), fld_put 10 ms (by decide), show fld 0x000000D9#32 25 7 = 0#7 by decide, show fld 0x000000D9#32 14 4 = 0#4 by decide, show fld 0x000000D9#32 10 2 = 0#2 by decide, BitVec.zero_or, BitVec.or_zero])

theorem bra (off : BitVec 21) (g : BitVec 3) : Statement (.bra off g) := by
  intro c rest h
  simp only [encode, enc32, Option.some.injEq] at h; subst h
  exact decode_row32 166 ⟨0x000000FF#32, 0x000000E1#32, fun w => .bra (fld w 11 21) (fld w 8 3)⟩ (put 11 off ||| put 8 g) _ rest rfl (by simp only [BitVec.and_or_distrib_right, put_and 11 off 0x000000FF#32 (by decide), put_and 8 g 0x000000FF#32 (by decide), BitVec.or_zero]) (by decide) (by decide) (by simp only [fld_or, fld_put 11 off (by decide), fld_put_apart 11 8 21 g (by decide), fld_put_apart 8 11 3 off (by decide), fld_put 8 g (by decide), show fld 0x000000E1#32 11 21 = 0#21 by decide, show fld 0x000000E1#32 8 3 = 0#3 by decide, BitVec.zero_or, BitVec.or_zero])

theorem call (off : BitVec 21) (g : BitVec 3) : Statement (.call off g) := by
  intro c rest h
  simp only [encode, enc32, Option.some.injEq] at h; subst h
  exact decode_row32 167 ⟨0x000000FF#32, 0x000000E3#32, fun w => .call (fld w 11 21) (fld w 8 3)⟩ (put 11 off ||| put 8 g) _ rest rfl (by simp only [BitVec.and_or_distrib_right, put_and 11 off 0x000000FF#32 (by decide), put_and 8 g 0x000000FF#32 (by decide), BitVec.or_zero]) (by decide) (by decide) (by simp only [fld_or, fld_put 11 off (by decide), fld_put_apart 11 8 21 g (by decide), fld_put_apart 8 11 3 off (by decide), fld_put 8 g (by decide), show fld 0x000000E3#32 11 21 = 0#21 by decide, show fld 0x000000E3#32 8 3 = 0#3 by decide, BitVec.zero_or, BitVec.or_zero])

theorem jmpi (k : BitVec 7) (g : BitVec 3) : Statement (.jmpi k g) := by
  intro c rest h
  simp only [encode, enc32, Option.some.injEq] at h; subst h
  exact decode_row32 168 ⟨0xFE03F8FF#32, 0x000000E5#32, fun w => .jmpi (fld w 18 7) (fld w 8 3)⟩ (put 18 k ||| put 8 g) _ rest rfl (by simp only [BitVec.and_or_distrib_right, put_and 18 k 0xFE03F8FF#32 (by decide), put_and 8 g 0xFE03F8FF#32 (by decide), BitVec.or_zero]) (by decide) (by decide) (by simp only [fld_or, fld_put 18 k (by decide), fld_put_apart 18 8 7 g (by decide), fld_put_apart 8 18 3 k (by decide), fld_put 8 g (by decide), show fld 0x000000E5#32 18 7 = 0#7 by decide, show fld 0x000000E5#32 8 3 = 0#3 by decide, BitVec.zero_or, BitVec.or_zero])

theorem calli (k : BitVec 7) (g : BitVec 3) : Statement (.calli k g) := by
  intro c rest h
  simp only [encode, enc32, Option.some.injEq] at h; subst h
  exact decode_row32 169 ⟨0xFE03F8FF#32, 0x100000E5#32, fun w => .calli (fld w 18 7) (fld w 8 3)⟩ (put 18 k ||| put 8 g) _ rest rfl (by simp only [BitVec.and_or_distrib_right, put_and 18 k 0xFE03F8FF#32 (by decide), put_and 8 g 0xFE03F8FF#32 (by decide), BitVec.or_zero]) (by decide) (by decide) (by simp only [fld_or, fld_put 18 k (by decide), fld_put_apart 18 8 7 g (by decide), fld_put_apart 8 18 3 k (by decide), fld_put 8 g (by decide), show fld 0x100000E5#32 18 7 = 0#7 by decide, show fld 0x100000E5#32 8 3 = 0#3 by decide, BitVec.zero_or, BitVec.or_zero])

theorem ret (g : BitVec 3) : Statement (.ret g) := by
  intro c rest h
  simp only [encode, enc32, Option.some.injEq] at h; subst h
  exact decode_row32 170 ⟨0xFFFFF8FF#32, 0x211000E5#32, fun w => .ret (fld w 8 3)⟩ (put 8 g) _ rest rfl (put_and 8 g 0xFFFFF8FF#32 (by decide)) (by decide) (by decide) (by show Instr.ret _ = Instr.ret _; rw [fld_or, fld_put 8 g (by decide)]; exact congrArg _ (BitVec.zero_or))

theorem exit (g : BitVec 3) : Statement (.exit g) := by
  intro c rest h
  simp only [encode, enc32, Option.some.injEq] at h; subst h
  exact decode_row32 171 ⟨0xFFFFF8FF#32, 0x311000E5#32, fun w => .exit (fld w 8 3)⟩ (put 8 g) _ rest rfl (put_and 8 g 0xFFFFF8FF#32 (by decide)) (by decide) (by decide) (by show Instr.exit _ = Instr.exit _; rw [fld_or, fld_put 8 g (by decide)]; exact congrArg _ (BitVec.zero_or))

theorem yield (g : BitVec 3) : Statement (.yield g) := by
  intro c rest h
  simp only [encode, enc32, Option.some.injEq] at h; subst h
  exact decode_row32 172 ⟨0xFFFFF8FF#32, 0x411000E5#32, fun w => .yield (fld w 8 3)⟩ (put 8 g) _ rest rfl (put_and 8 g 0xFFFFF8FF#32 (by decide)) (by decide) (by decide) (by show Instr.yield _ = Instr.yield _; rw [fld_or, fld_put 8 g (by decide)]; exact congrArg _ (BitVec.zero_or))

theorem nop (g : BitVec 3) : Statement (.nop g) := by
  intro c rest h
  simp only [encode, enc32, Option.some.injEq] at h; subst h
  exact decode_row32 173 ⟨0xFFFFF8FF#32, 0x511000E5#32, fun w => .nop (fld w 8 3)⟩ (put 8 g) _ rest rfl (put_and 8 g 0xFFFFF8FF#32 (by decide)) (by decide) (by decide) (by show Instr.nop _ = Instr.nop _; rw [fld_or, fld_put 8 g (by decide)]; exact congrArg _ (BitVec.zero_or))

theorem trap (a : BitVec 7) (g : BitVec 3) : Statement (.trap a g) := by
  intro c rest h
  simp only [encode, enc32, Option.some.injEq] at h; subst h
  exact decode_row32 174 ⟨0xFE03F8FF#32, 0x600000E5#32, fun w => .trap (fld w 18 7) (fld w 8 3)⟩ (put 18 a ||| put 8 g) _ rest rfl (by simp only [BitVec.and_or_distrib_right, put_and 18 a 0xFE03F8FF#32 (by decide), put_and 8 g 0xFE03F8FF#32 (by decide), BitVec.or_zero]) (by decide) (by decide) (by simp only [fld_or, fld_put 18 a (by decide), fld_put_apart 18 8 7 g (by decide), fld_put_apart 8 18 3 a (by decide), fld_put 8 g (by decide), show fld 0x600000E5#32 18 7 = 0#7 by decide, show fld 0x600000E5#32 8 3 = 0#3 by decide, BitVec.zero_or, BitVec.or_zero])

theorem brk (g : BitVec 3) : Statement (.brk g) := by
  intro c rest h
  simp only [encode, enc32, Option.some.injEq] at h; subst h
  exact decode_row32 175 ⟨0xFFFFF8FF#32, 0x711000E5#32, fun w => .brk (fld w 8 3)⟩ (put 8 g) _ rest rfl (put_and 8 g 0xFFFFF8FF#32 (by decide)) (by decide) (by decide) (by show Instr.brk _ = Instr.brk _; rw [fld_or, fld_put 8 g (by decide)]; exact congrArg _ (BitVec.zero_or))

theorem meetPost (sc : BitVec 3) (i : BitVec 4) (nw : BitVec 1) (d : BitVec 6) (g : BitVec 3) : Statement (.meetPost sc i nw d g) := by
  intro c rest h
  simp only [encode, enc32, Option.some.injEq] at h; subst h
  exact decode_row32 176 ⟨0xF1C000FF#32, 0x000000E7#32, fun w => .meetPost (fld w 25 3) (fld w 18 4) (fld w 17 1) (fld w 11 6) (fld w 8 3)⟩ (put 25 sc ||| put 18 i ||| put 17 nw ||| put 11 d ||| put 8 g) _ rest rfl (by simp only [BitVec.and_or_distrib_right, put_and 25 sc 0xF1C000FF#32 (by decide), put_and 18 i 0xF1C000FF#32 (by decide), put_and 17 nw 0xF1C000FF#32 (by decide), put_and 11 d 0xF1C000FF#32 (by decide), put_and 8 g 0xF1C000FF#32 (by decide), BitVec.or_zero]) (by decide) (by decide) (by simp only [fld_or, fld_put 25 sc (by decide), fld_put_apart 25 18 3 i (by decide), fld_put_apart 25 17 3 nw (by decide), fld_put_apart 25 11 3 d (by decide), fld_put_apart 25 8 3 g (by decide), fld_put_apart 18 25 4 sc (by decide), fld_put 18 i (by decide), fld_put_apart 18 17 4 nw (by decide), fld_put_apart 18 11 4 d (by decide), fld_put_apart 18 8 4 g (by decide), fld_put_apart 17 25 1 sc (by decide), fld_put_apart 17 18 1 i (by decide), fld_put 17 nw (by decide), fld_put_apart 17 11 1 d (by decide), fld_put_apart 17 8 1 g (by decide), fld_put_apart 11 25 6 sc (by decide), fld_put_apart 11 18 6 i (by decide), fld_put_apart 11 17 6 nw (by decide), fld_put 11 d (by decide), fld_put_apart 11 8 6 g (by decide), fld_put_apart 8 25 3 sc (by decide), fld_put_apart 8 18 3 i (by decide), fld_put_apart 8 17 3 nw (by decide), fld_put_apart 8 11 3 d (by decide), fld_put 8 g (by decide), show fld 0x000000E7#32 25 3 = 0#3 by decide, show fld 0x000000E7#32 18 4 = 0#4 by decide, show fld 0x000000E7#32 17 1 = 0#1 by decide, show fld 0x000000E7#32 11 6 = 0#6 by decide, show fld 0x000000E7#32 8 3 = 0#3 by decide, BitVec.zero_or, BitVec.or_zero])

theorem meetAwait (sc : BitVec 3) (i : BitVec 4) (k : BitVec 6) (g : BitVec 3) : Statement (.meetAwait sc i k g) := by
  intro c rest h
  simp only [encode, enc32, Option.some.injEq] at h; subst h
  exact decode_row32 177 ⟨0xF1C200FF#32, 0x100000E7#32, fun w => .meetAwait (fld w 25 3) (fld w 18 4) (fld w 11 6) (fld w 8 3)⟩ (put 25 sc ||| put 18 i ||| put 11 k ||| put 8 g) _ rest rfl (by simp only [BitVec.and_or_distrib_right, put_and 25 sc 0xF1C200FF#32 (by decide), put_and 18 i 0xF1C200FF#32 (by decide), put_and 11 k 0xF1C200FF#32 (by decide), put_and 8 g 0xF1C200FF#32 (by decide), BitVec.or_zero]) (by decide) (by decide) (by simp only [fld_or, fld_put 25 sc (by decide), fld_put_apart 25 18 3 i (by decide), fld_put_apart 25 11 3 k (by decide), fld_put_apart 25 8 3 g (by decide), fld_put_apart 18 25 4 sc (by decide), fld_put 18 i (by decide), fld_put_apart 18 11 4 k (by decide), fld_put_apart 18 8 4 g (by decide), fld_put_apart 11 25 6 sc (by decide), fld_put_apart 11 18 6 i (by decide), fld_put 11 k (by decide), fld_put_apart 11 8 6 g (by decide), fld_put_apart 8 25 3 sc (by decide), fld_put_apart 8 18 3 i (by decide), fld_put_apart 8 11 3 k (by decide), fld_put 8 g (by decide), show fld 0x100000E7#32 25 3 = 0#3 by decide, show fld 0x100000E7#32 18 4 = 0#4 by decide, show fld 0x100000E7#32 11 6 = 0#6 by decide, show fld 0x100000E7#32 8 3 = 0#3 by decide, BitVec.zero_or, BitVec.or_zero])

theorem meetJoin (sc : BitVec 3) (i : BitVec 4) (g : BitVec 3) : Statement (.meetJoin sc i g) := by
  intro c rest h
  simp only [encode, enc32, Option.some.injEq] at h; subst h
  exact decode_row32 178 ⟨0xF1C3F8FF#32, 0x200000E7#32, fun w => .meetJoin (fld w 25 3) (fld w 18 4) (fld w 8 3)⟩ (put 25 sc ||| put 18 i ||| put 8 g) _ rest rfl (by simp only [BitVec.and_or_distrib_right, put_and 25 sc 0xF1C3F8FF#32 (by decide), put_and 18 i 0xF1C3F8FF#32 (by decide), put_and 8 g 0xF1C3F8FF#32 (by decide), BitVec.or_zero]) (by decide) (by decide) (by simp only [fld_or, fld_put 25 sc (by decide), fld_put_apart 25 18 3 i (by decide), fld_put_apart 25 8 3 g (by decide), fld_put_apart 18 25 4 sc (by decide), fld_put 18 i (by decide), fld_put_apart 18 8 4 g (by decide), fld_put_apart 8 25 3 sc (by decide), fld_put_apart 8 18 3 i (by decide), fld_put 8 g (by decide), show fld 0x200000E7#32 25 3 = 0#3 by decide, show fld 0x200000E7#32 18 4 = 0#4 by decide, show fld 0x200000E7#32 8 3 = 0#3 by decide, BitVec.zero_or, BitVec.or_zero])

theorem waitu (f : WaituForm) : Statement (.waitu f) := by
  intro c rest h
  simp only [encode, enc32, Option.some.injEq] at h; subst h
  exact decode_row32 179 ⟨0x000000FF#32, 0x000000E9#32, fun w => .waitu (WaituForm.read w)⟩ f.bits _ rest rfl (and_zero_of _ _ _ (WaituForm.bits_within f) (by decide)) (by decide) (by decide) (congrArg _ (WaituForm.read_bits f _ (by decide)))

theorem wqenter (h : BitVec 4) (g : BitVec 3) : Statement (.wqenter h g) := by
  intro c rest h
  simp only [encode, enc32, Option.some.injEq] at h; subst h
  exact decode_row32 180 ⟨0xFFC3F8FF#32, 0x000000EB#32, fun w => .wqenter (fld w 18 4) (fld w 8 3)⟩ (put 18 h ||| put 8 g) _ rest rfl (by simp only [BitVec.and_or_distrib_right, put_and 18 h 0xFFC3F8FF#32 (by decide), put_and 8 g 0xFFC3F8FF#32 (by decide), BitVec.or_zero]) (by decide) (by decide) (by simp only [fld_or, fld_put 18 h (by decide), fld_put_apart 18 8 4 g (by decide), fld_put_apart 8 18 3 h (by decide), fld_put 8 g (by decide), show fld 0x000000EB#32 18 4 = 0#4 by decide, show fld 0x000000EB#32 8 3 = 0#3 by decide, BitVec.zero_or, BitVec.or_zero])

theorem wqwait (k : BitVec 3) (h : BitVec 4) (d : BitVec 6) (g : BitVec 3) : Statement (.wqwait k h d g) := by
  intro c rest h
  simp only [encode, enc32, Option.some.injEq] at h; subst h
  exact decode_row32 181 ⟨0xFE0200FF#32, 0x100000EB#32, fun w => .wqwait (fld w 22 3) (fld w 18 4) (fld w 11 6) (fld w 8 3)⟩ (put 22 k ||| put 18 h ||| put 11 d ||| put 8 g) _ rest rfl (by simp only [BitVec.and_or_distrib_right, put_and 22 k 0xFE0200FF#32 (by decide), put_and 18 h 0xFE0200FF#32 (by decide), put_and 11 d 0xFE0200FF#32 (by decide), put_and 8 g 0xFE0200FF#32 (by decide), BitVec.or_zero]) (by decide) (by decide) (by simp only [fld_or, fld_put 22 k (by decide), fld_put_apart 22 18 3 h (by decide), fld_put_apart 22 11 3 d (by decide), fld_put_apart 22 8 3 g (by decide), fld_put_apart 18 22 4 k (by decide), fld_put 18 h (by decide), fld_put_apart 18 11 4 d (by decide), fld_put_apart 18 8 4 g (by decide), fld_put_apart 11 22 6 k (by decide), fld_put_apart 11 18 6 h (by decide), fld_put 11 d (by decide), fld_put_apart 11 8 6 g (by decide), fld_put_apart 8 22 3 k (by decide), fld_put_apart 8 18 3 h (by decide), fld_put_apart 8 11 3 d (by decide), fld_put 8 g (by decide), show fld 0x100000EB#32 22 3 = 0#3 by decide, show fld 0x100000EB#32 18 4 = 0#4 by decide, show fld 0x100000EB#32 11 6 = 0#6 by decide, show fld 0x100000EB#32 8 3 = 0#3 by decide, BitVec.zero_or, BitVec.or_zero])

theorem wqleave (h : BitVec 4) (g : BitVec 3) : Statement (.wqleave h g) := by
  intro c rest h
  simp only [encode, enc32, Option.some.injEq] at h; subst h
  exact decode_row32 182 ⟨0xFFC3F8FF#32, 0x200000EB#32, fun w => .wqleave (fld w 18 4) (fld w 8 3)⟩ (put 18 h ||| put 8 g) _ rest rfl (by simp only [BitVec.and_or_distrib_right, put_and 18 h 0xFFC3F8FF#32 (by decide), put_and 8 g 0xFFC3F8FF#32 (by decide), BitVec.or_zero]) (by decide) (by decide) (by simp only [fld_or, fld_put 18 h (by decide), fld_put_apart 18 8 4 g (by decide), fld_put_apart 8 18 3 h (by decide), fld_put 8 g (by decide), show fld 0x200000EB#32 18 4 = 0#4 by decide, show fld 0x200000EB#32 8 3 = 0#3 by decide, BitVec.zero_or, BitVec.or_zero])

theorem perform (f : PerformForm) : Statement (.perform f) := by
  intro c rest h
  simp only [encode, enc32, Option.some.injEq] at h; subst h
  exact decode_row32 183 ⟨0xF00000FF#32, 0x000000ED#32, fun w => .perform (PerformForm.read w)⟩ f.bits _ rest rfl (and_zero_of _ _ _ (PerformForm.bits_within f) (by decide)) (by decide) (by decide) (congrArg _ (PerformForm.read_bits f _ (by decide)))

theorem hpush (f : HpushForm) : Statement (.hpush f) := by
  intro c rest h
  simp only [encode, enc32, Option.some.injEq] at h; subst h
  exact decode_row32 184 ⟨0xFC0000FF#32, 0x100000ED#32, fun w => .hpush (HpushForm.read w)⟩ f.bits _ rest rfl (and_zero_of _ _ _ (HpushForm.bits_within f) (by decide)) (by decide) (by decide) (congrArg _ (HpushForm.read_bits f _ (by decide)))

theorem hpop (g : BitVec 3) : Statement (.hpop g) := by
  intro c rest h
  simp only [encode, enc32, Option.some.injEq] at h; subst h
  exact decode_row32 185 ⟨0xFFFFF8FF#32, 0x211000ED#32, fun w => .hpop (fld w 8 3)⟩ (put 8 g) _ rest rfl (put_and 8 g 0xFFFFF8FF#32 (by decide)) (by decide) (by decide) (by show Instr.hpop _ = Instr.hpop _; rw [fld_or, fld_put 8 g (by decide)]; exact congrArg _ (BitVec.zero_or))

theorem resume (a : BitVec 7) (k : BitVec 6) (g : BitVec 3) : Statement (.resume a k g) := by
  intro c rest h
  simp only [encode, enc32, Option.some.injEq] at h; subst h
  exact decode_row32 186 ⟨0xFE0200FF#32, 0x300000ED#32, fun w => .resume (fld w 18 7) (fld w 11 6) (fld w 8 3)⟩ (put 18 a ||| put 11 k ||| put 8 g) _ rest rfl (by simp only [BitVec.and_or_distrib_right, put_and 18 a 0xFE0200FF#32 (by decide), put_and 11 k 0xFE0200FF#32 (by decide), put_and 8 g 0xFE0200FF#32 (by decide), BitVec.or_zero]) (by decide) (by decide) (by simp only [fld_or, fld_put 18 a (by decide), fld_put_apart 18 11 7 k (by decide), fld_put_apart 18 8 7 g (by decide), fld_put_apart 11 18 6 a (by decide), fld_put 11 k (by decide), fld_put_apart 11 8 6 g (by decide), fld_put_apart 8 18 3 a (by decide), fld_put_apart 8 11 3 k (by decide), fld_put 8 g (by decide), show fld 0x300000ED#32 18 7 = 0#7 by decide, show fld 0x300000ED#32 11 6 = 0#6 by decide, show fld 0x300000ED#32 8 3 = 0#3 by decide, BitVec.zero_or, BitVec.or_zero])

theorem resumeM (a : BitVec 7) (k : BitVec 6) (g : BitVec 3) : Statement (.resumeM a k g) := by
  intro c rest h
  simp only [encode, enc32, Option.some.injEq] at h; subst h
  exact decode_row32 187 ⟨0xFE0200FF#32, 0x400000ED#32, fun w => .resumeM (fld w 18 7) (fld w 11 6) (fld w 8 3)⟩ (put 18 a ||| put 11 k ||| put 8 g) _ rest rfl (by simp only [BitVec.and_or_distrib_right, put_and 18 a 0xFE0200FF#32 (by decide), put_and 11 k 0xFE0200FF#32 (by decide), put_and 8 g 0xFE0200FF#32 (by decide), BitVec.or_zero]) (by decide) (by decide) (by simp only [fld_or, fld_put 18 a (by decide), fld_put_apart 18 11 7 k (by decide), fld_put_apart 18 8 7 g (by decide), fld_put_apart 11 18 6 a (by decide), fld_put 11 k (by decide), fld_put_apart 11 8 6 g (by decide), fld_put_apart 8 18 3 a (by decide), fld_put_apart 8 11 3 k (by decide), fld_put 8 g (by decide), show fld 0x400000ED#32 18 7 = 0#7 by decide, show fld 0x400000ED#32 11 6 = 0#6 by decide, show fld 0x400000ED#32 8 3 = 0#3 by decide, BitVec.zero_or, BitVec.or_zero])

theorem abandon (k : BitVec 6) (g : BitVec 3) : Statement (.abandon k g) := by
  intro c rest h
  simp only [encode, enc32, Option.some.injEq] at h; subst h
  exact decode_row32 188 ⟨0xFFFE00FF#32, 0x511000ED#32, fun w => .abandon (fld w 11 6) (fld w 8 3)⟩ (put 11 k ||| put 8 g) _ rest rfl (by simp only [BitVec.and_or_distrib_right, put_and 11 k 0xFFFE00FF#32 (by decide), put_and 8 g 0xFFFE00FF#32 (by decide), BitVec.or_zero]) (by decide) (by decide) (by simp only [fld_or, fld_put 11 k (by decide), fld_put_apart 11 8 6 g (by decide), fld_put_apart 8 11 3 k (by decide), fld_put 8 g (by decide), show fld 0x511000ED#32 11 6 = 0#6 by decide, show fld 0x511000ED#32 8 3 = 0#3 by decide, BitVec.zero_or, BitVec.or_zero])

theorem ade (a : BitVec 7) (b : BitVec 7) (cb : BitVec 4) (mode : BitVec 2) : Statement (.ade a b cb mode) := by
  intro c rest h
  simp only [encode, enc32, Option.some.injEq] at h; subst h
  exact decode_row32 189 ⟨0x00003CFF#32, 0x000000F1#32, fun w => .ade (fld w 25 7) (fld w 18 7) (fld w 14 4) (fld w 8 2)⟩ (put 25 a ||| put 18 b ||| put 14 cb ||| put 8 mode) _ rest rfl (by simp only [BitVec.and_or_distrib_right, put_and 25 a 0x00003CFF#32 (by decide), put_and 18 b 0x00003CFF#32 (by decide), put_and 14 cb 0x00003CFF#32 (by decide), put_and 8 mode 0x00003CFF#32 (by decide), BitVec.or_zero]) (by decide) (by decide) (by simp only [fld_or, fld_put 25 a (by decide), fld_put_apart 25 18 7 b (by decide), fld_put_apart 25 14 7 cb (by decide), fld_put_apart 25 8 7 mode (by decide), fld_put_apart 18 25 7 a (by decide), fld_put 18 b (by decide), fld_put_apart 18 14 7 cb (by decide), fld_put_apart 18 8 7 mode (by decide), fld_put_apart 14 25 4 a (by decide), fld_put_apart 14 18 4 b (by decide), fld_put 14 cb (by decide), fld_put_apart 14 8 4 mode (by decide), fld_put_apart 8 25 2 a (by decide), fld_put_apart 8 18 2 b (by decide), fld_put_apart 8 14 2 cb (by decide), fld_put 8 mode (by decide), show fld 0x000000F1#32 25 7 = 0#7 by decide, show fld 0x000000F1#32 18 7 = 0#7 by decide, show fld 0x000000F1#32 14 4 = 0#4 by decide, show fld 0x000000F1#32 8 2 = 0#2 by decide, BitVec.zero_or, BitVec.or_zero])

theorem dload (cb : BitVec 4) (g : BitVec 3) : Statement (.dload cb g) := by
  intro c rest h
  simp only [encode, enc32, Option.some.injEq] at h; subst h
  exact decode_row32 190 ⟨0xFFC3F8FF#32, 0x000000F3#32, fun w => .dload (fld w 18 4) (fld w 8 3)⟩ (put 18 cb ||| put 8 g) _ rest rfl (by simp only [BitVec.and_or_distrib_right, put_and 18 cb 0xFFC3F8FF#32 (by decide), put_and 8 g 0xFFC3F8FF#32 (by decide), BitVec.or_zero]) (by decide) (by decide) (by simp only [fld_or, fld_put 18 cb (by decide), fld_put_apart 18 8 4 g (by decide), fld_put_apart 8 18 3 cb (by decide), fld_put 8 g (by decide), show fld 0x000000F3#32 18 4 = 0#4 by decide, show fld 0x000000F3#32 8 3 = 0#3 by decide, BitVec.zero_or, BitVec.or_zero])

theorem drun (cb : BitVec 4) (g : BitVec 3) : Statement (.drun cb g) := by
  intro c rest h
  simp only [encode, enc32, Option.some.injEq] at h; subst h
  exact decode_row32 191 ⟨0xFFC3F8FF#32, 0x100000F3#32, fun w => .drun (fld w 18 4) (fld w 8 3)⟩ (put 18 cb ||| put 8 g) _ rest rfl (by simp only [BitVec.and_or_distrib_right, put_and 18 cb 0xFFC3F8FF#32 (by decide), put_and 8 g 0xFFC3F8FF#32 (by decide), BitVec.or_zero]) (by decide) (by decide) (by simp only [fld_or, fld_put 18 cb (by decide), fld_put_apart 18 8 4 g (by decide), fld_put_apart 8 18 3 cb (by decide), fld_put 8 g (by decide), show fld 0x100000F3#32 18 4 = 0#4 by decide, show fld 0x100000F3#32 8 3 = 0#3 by decide, BitVec.zero_or, BitVec.or_zero])

theorem coll (f : CollForm) : Statement (.coll f) := by
  intro c rest h
  simp only [encode, enc32, Option.some.injEq] at h; subst h
  exact decode_row32 192 ⟨0x000020FF#32, 0x000000F5#32, fun w => .coll (CollForm.read w)⟩ f.bits _ rest rfl (and_zero_of _ _ _ (CollForm.bits_within f) (by decide)) (by decide) (by decide) (congrArg _ (CollForm.read_bits f _ (by decide)))

theorem qsend (a : BitVec 7) (g : BitVec 3) : Statement (.qsend a g) := by
  intro c rest h
  simp only [encode, enc32, Option.some.injEq] at h; subst h
  exact decode_row32 193 ⟨0xFE03F8FF#32, 0x000000F9#32, fun w => .qsend (fld w 18 7) (fld w 8 3)⟩ (put 18 a ||| put 8 g) _ rest rfl (by simp only [BitVec.and_or_distrib_right, put_and 18 a 0xFE03F8FF#32 (by decide), put_and 8 g 0xFE03F8FF#32 (by decide), BitVec.or_zero]) (by decide) (by decide) (by simp only [fld_or, fld_put 18 a (by decide), fld_put_apart 18 8 7 g (by decide), fld_put_apart 8 18 3 a (by decide), fld_put 8 g (by decide), show fld 0x000000F9#32 18 7 = 0#7 by decide, show fld 0x000000F9#32 8 3 = 0#3 by decide, BitVec.zero_or, BitVec.or_zero])

theorem qrecv (d : BitVec 6) (g : BitVec 3) : Statement (.qrecv d g) := by
  intro c rest h
  simp only [encode, enc32, Option.some.injEq] at h; subst h
  exact decode_row32 194 ⟨0xFFFE00FF#32, 0x031000F9#32, fun w => .qrecv (fld w 11 6) (fld w 8 3)⟩ (put 11 d ||| put 8 g) _ rest rfl (by simp only [BitVec.and_or_distrib_right, put_and 11 d 0xFFFE00FF#32 (by decide), put_and 8 g 0xFFFE00FF#32 (by decide), BitVec.or_zero]) (by decide) (by decide) (by simp only [fld_or, fld_put 11 d (by decide), fld_put_apart 11 8 6 g (by decide), fld_put_apart 8 11 3 d (by decide), fld_put 8 g (by decide), show fld 0x031000F9#32 11 6 = 0#6 by decide, show fld 0x031000F9#32 8 3 = 0#3 by decide, BitVec.zero_or, BitVec.or_zero])

theorem ctFset (k : BitVec 5) (g : BitVec 3) : Statement (.ctFset k g) := by
  intro c rest h
  simp only [encode, enc32, Option.some.injEq] at h; subst h
  exact decode_row32 195 ⟨0xFF83F8FF#32, 0x040000F9#32, fun w => .ctFset (fld w 18 5) (fld w 8 3)⟩ (put 18 k ||| put 8 g) _ rest rfl (by simp only [BitVec.and_or_distrib_right, put_and 18 k 0xFF83F8FF#32 (by decide), put_and 8 g 0xFF83F8FF#32 (by decide), BitVec.or_zero]) (by decide) (by decide) (by simp only [fld_or, fld_put 18 k (by decide), fld_put_apart 18 8 5 g (by decide), fld_put_apart 8 18 3 k (by decide), fld_put 8 g (by decide), show fld 0x040000F9#32 18 5 = 0#5 by decide, show fld 0x040000F9#32 8 3 = 0#3 by decide, BitVec.zero_or, BitVec.or_zero])

theorem fclr (k : BitVec 5) (g : BitVec 3) : Statement (.fclr k g) := by
  intro c rest h
  simp only [encode, enc32, Option.some.injEq] at h; subst h
  exact decode_row32 196 ⟨0xFF83F8FF#32, 0x060000F9#32, fun w => .fclr (fld w 18 5) (fld w 8 3)⟩ (put 18 k ||| put 8 g) _ rest rfl (by simp only [BitVec.and_or_distrib_right, put_and 18 k 0xFF83F8FF#32 (by decide), put_and 8 g 0xFF83F8FF#32 (by decide), BitVec.or_zero]) (by decide) (by decide) (by simp only [fld_or, fld_put 18 k (by decide), fld_put_apart 18 8 5 g (by decide), fld_put_apart 8 18 3 k (by decide), fld_put 8 g (by decide), show fld 0x060000F9#32 18 5 = 0#5 by decide, show fld 0x060000F9#32 8 3 = 0#3 by decide, BitVec.zero_or, BitVec.or_zero])

theorem ctFwait (k : BitVec 5) (z : BitVec 1) (g : BitVec 3) : Statement (.ctFwait k z g) := by
  intro c rest h
  simp only [encode, enc32, Option.some.injEq] at h; subst h
  exact decode_row32 197 ⟨0xFF83F0FF#32, 0x080000F9#32, fun w => .ctFwait (fld w 18 5) (fld w 11 1) (fld w 8 3)⟩ (put 18 k ||| put 11 z ||| put 8 g) _ rest rfl (by simp only [BitVec.and_or_distrib_right, put_and 18 k 0xFF83F0FF#32 (by decide), put_and 11 z 0xFF83F0FF#32 (by decide), put_and 8 g 0xFF83F0FF#32 (by decide), BitVec.or_zero]) (by decide) (by decide) (by simp only [fld_or, fld_put 18 k (by decide), fld_put_apart 18 11 5 z (by decide), fld_put_apart 18 8 5 g (by decide), fld_put_apart 11 18 1 k (by decide), fld_put 11 z (by decide), fld_put_apart 11 8 1 g (by decide), fld_put_apart 8 18 3 k (by decide), fld_put_apart 8 11 3 z (by decide), fld_put 8 g (by decide), show fld 0x080000F9#32 18 5 = 0#5 by decide, show fld 0x080000F9#32 11 1 = 0#1 by decide, show fld 0x080000F9#32 8 3 = 0#3 by decide, BitVec.zero_or, BitVec.or_zero])

theorem gset (a : BitVec 7) (k : BitVec 4) (g : BitVec 3) : Statement (.gset a k g) := by
  intro c rest h
  simp only [encode, enc32, Option.some.injEq] at h; subst h
  exact decode_row32 198 ⟨0xFE0380FF#32, 0x0A0000F9#32, fun w => .gset (fld w 18 7) (fld w 11 4) (fld w 8 3)⟩ (put 18 a ||| put 11 k ||| put 8 g) _ rest rfl (by simp only [BitVec.and_or_distrib_right, put_and 18 a 0xFE0380FF#32 (by decide), put_and 11 k 0xFE0380FF#32 (by decide), put_and 8 g 0xFE0380FF#32 (by decide), BitVec.or_zero]) (by decide) (by decide) (by simp only [fld_or, fld_put 18 a (by decide), fld_put_apart 18 11 7 k (by decide), fld_put_apart 18 8 7 g (by decide), fld_put_apart 11 18 4 a (by decide), fld_put 11 k (by decide), fld_put_apart 11 8 4 g (by decide), fld_put_apart 8 18 3 a (by decide), fld_put_apart 8 11 3 k (by decide), fld_put 8 g (by decide), show fld 0x0A0000F9#32 18 7 = 0#7 by decide, show fld 0x0A0000F9#32 11 4 = 0#4 by decide, show fld 0x0A0000F9#32 8 3 = 0#3 by decide, BitVec.zero_or, BitVec.or_zero])

theorem gclr (k : BitVec 4) (g : BitVec 3) : Statement (.gclr k g) := by
  intro c rest h
  simp only [encode, enc32, Option.some.injEq] at h; subst h
  exact decode_row32 199 ⟨0xFFFF80FF#32, 0x0D1000F9#32, fun w => .gclr (fld w 11 4) (fld w 8 3)⟩ (put 11 k ||| put 8 g) _ rest rfl (by simp only [BitVec.and_or_distrib_right, put_and 11 k 0xFFFF80FF#32 (by decide), put_and 8 g 0xFFFF80FF#32 (by decide), BitVec.or_zero]) (by decide) (by decide) (by simp only [fld_or, fld_put 11 k (by decide), fld_put_apart 11 8 4 g (by decide), fld_put_apart 8 11 3 k (by decide), fld_put 8 g (by decide), show fld 0x0D1000F9#32 11 4 = 0#4 by decide, show fld 0x0D1000F9#32 8 3 = 0#3 by decide, BitVec.zero_or, BitVec.or_zero])

theorem grd (k : BitVec 4) (g : BitVec 3) : Statement (.grd k g) := by
  intro c rest h
  simp only [encode, enc32, Option.some.injEq] at h; subst h
  exact decode_row32 200 ⟨0xFFFF80FF#32, 0x0F1000F9#32, fun w => .grd (fld w 11 4) (fld w 8 3)⟩ (put 11 k ||| put 8 g) _ rest rfl (by simp only [BitVec.and_or_distrib_right, put_and 11 k 0xFFFF80FF#32 (by decide), put_and 8 g 0xFFFF80FF#32 (by decide), BitVec.or_zero]) (by decide) (by decide) (by simp only [fld_or, fld_put 11 k (by decide), fld_put_apart 11 8 4 g (by decide), fld_put_apart 8 11 3 k (by decide), fld_put 8 g (by decide), show fld 0x0F1000F9#32 11 4 = 0#4 by decide, show fld 0x0F1000F9#32 8 3 = 0#3 by decide, BitVec.zero_or, BitVec.or_zero])

theorem launch (a : BitVec 7) (d : BitVec 6) (g : BitVec 3) : Statement (.launch a d g) := by
  intro c rest h
  simp only [encode, enc32, Option.some.injEq] at h; subst h
  exact decode_row32 201 ⟨0xFE0200FF#32, 0x100000F9#32, fun w => .launch (fld w 18 7) (fld w 11 6) (fld w 8 3)⟩ (put 18 a ||| put 11 d ||| put 8 g) _ rest rfl (by simp only [BitVec.and_or_distrib_right, put_and 18 a 0xFE0200FF#32 (by decide), put_and 11 d 0xFE0200FF#32 (by decide), put_and 8 g 0xFE0200FF#32 (by decide), BitVec.or_zero]) (by decide) (by decide) (by simp only [fld_or, fld_put 18 a (by decide), fld_put_apart 18 11 7 d (by decide), fld_put_apart 18 8 7 g (by decide), fld_put_apart 11 18 6 a (by decide), fld_put 11 d (by decide), fld_put_apart 11 8 6 g (by decide), fld_put_apart 8 18 3 a (by decide), fld_put_apart 8 11 3 d (by decide), fld_put 8 g (by decide), show fld 0x100000F9#32 18 7 = 0#7 by decide, show fld 0x100000F9#32 11 6 = 0#6 by decide, show fld 0x100000F9#32 8 3 = 0#3 by decide, BitVec.zero_or, BitVec.or_zero])

theorem tdset (k : BitVec 7) (d : BitVec 6) (g : BitVec 3) : Statement (.tdset k d g) := by
  intro c rest h
  simp only [encode, enc32, Option.some.injEq] at h; subst h
  exact decode_row32 202 ⟨0xFE0200FF#32, 0x120000F9#32, fun w => .tdset (fld w 18 7) (fld w 11 6) (fld w 8 3)⟩ (put 18 k ||| put 11 d ||| put 8 g) _ rest rfl (by simp only [BitVec.and_or_distrib_right, put_and 18 k 0xFE0200FF#32 (by decide), put_and 11 d 0xFE0200FF#32 (by decide), put_and 8 g 0xFE0200FF#32 (by decide), BitVec.or_zero]) (by decide) (by decide) (by simp only [fld_or, fld_put 18 k (by decide), fld_put_apart 18 11 7 d (by decide), fld_put_apart 18 8 7 g (by decide), fld_put_apart 11 18 6 k (by decide), fld_put 11 d (by decide), fld_put_apart 11 8 6 g (by decide), fld_put_apart 8 18 3 k (by decide), fld_put_apart 8 11 3 d (by decide), fld_put 8 g (by decide), show fld 0x120000F9#32 18 7 = 0#7 by decide, show fld 0x120000F9#32 11 6 = 0#6 by decide, show fld 0x120000F9#32 8 3 = 0#3 by decide, BitVec.zero_or, BitVec.or_zero])

theorem qinit (q : BitVec 4) (d : BitVec 6) (g : BitVec 3) : Statement (.qinit q d g) := by
  intro c rest h
  simp only [encode, enc32, Option.some.injEq] at h; subst h
  exact decode_row32 203 ⟨0xFFC200FF#32, 0x140000F9#32, fun w => .qinit (fld w 18 4) (fld w 11 6) (fld w 8 3)⟩ (put 18 q ||| put 11 d ||| put 8 g) _ rest rfl (by simp only [BitVec.and_or_distrib_right, put_and 18 q 0xFFC200FF#32 (by decide), put_and 11 d 0xFFC200FF#32 (by decide), put_and 8 g 0xFFC200FF#32 (by decide), BitVec.or_zero]) (by decide) (by decide) (by simp only [fld_or, fld_put 18 q (by decide), fld_put_apart 18 11 4 d (by decide), fld_put_apart 18 8 4 g (by decide), fld_put_apart 11 18 6 q (by decide), fld_put 11 d (by decide), fld_put_apart 11 8 6 g (by decide), fld_put_apart 8 18 3 q (by decide), fld_put_apart 8 11 3 d (by decide), fld_put 8 g (by decide), show fld 0x140000F9#32 18 4 = 0#4 by decide, show fld 0x140000F9#32 11 6 = 0#6 by decide, show fld 0x140000F9#32 8 3 = 0#3 by decide, BitVec.zero_or, BitVec.or_zero])

theorem meetinit (sc : BitVec 3) (i : BitVec 4) (d : BitVec 6) (g : BitVec 3) : Statement (.meetinit sc i d g) := by
  intro c rest h
  simp only [encode, enc32, Option.some.injEq] at h; subst h
  exact decode_row32 204 ⟨0xFE0200FF#32, 0x160000F9#32, fun w => .meetinit (fld w 22 3) (fld w 18 4) (fld w 11 6) (fld w 8 3)⟩ (put 22 sc ||| put 18 i ||| put 11 d ||| put 8 g) _ rest rfl (by simp only [BitVec.and_or_distrib_right, put_and 22 sc 0xFE0200FF#32 (by decide), put_and 18 i 0xFE0200FF#32 (by decide), put_and 11 d 0xFE0200FF#32 (by decide), put_and 8 g 0xFE0200FF#32 (by decide), BitVec.or_zero]) (by decide) (by decide) (by simp only [fld_or, fld_put 22 sc (by decide), fld_put_apart 22 18 3 i (by decide), fld_put_apart 22 11 3 d (by decide), fld_put_apart 22 8 3 g (by decide), fld_put_apart 18 22 4 sc (by decide), fld_put 18 i (by decide), fld_put_apart 18 11 4 d (by decide), fld_put_apart 18 8 4 g (by decide), fld_put_apart 11 22 6 sc (by decide), fld_put_apart 11 18 6 i (by decide), fld_put 11 d (by decide), fld_put_apart 11 8 6 g (by decide), fld_put_apart 8 22 3 sc (by decide), fld_put_apart 8 18 3 i (by decide), fld_put_apart 8 11 3 d (by decide), fld_put 8 g (by decide), show fld 0x160000F9#32 22 3 = 0#3 by decide, show fld 0x160000F9#32 18 4 = 0#4 by decide, show fld 0x160000F9#32 11 6 = 0#6 by decide, show fld 0x160000F9#32 8 3 = 0#3 by decide, BitVec.zero_or, BitVec.or_zero])

theorem ctRdtick (d : BitVec 6) (g : BitVec 3) : Statement (.ctRdtick d g) := by
  intro c rest h
  simp only [encode, enc32, Option.some.injEq] at h; subst h
  exact decode_row32 205 ⟨0xFFFE00FF#32, 0x191000F9#32, fun w => .ctRdtick (fld w 11 6) (fld w 8 3)⟩ (put 11 d ||| put 8 g) _ rest rfl (by simp only [BitVec.and_or_distrib_right, put_and 11 d 0xFFFE00FF#32 (by decide), put_and 8 g 0xFFFE00FF#32 (by decide), BitVec.or_zero]) (by decide) (by decide) (by simp only [fld_or, fld_put 11 d (by decide), fld_put_apart 11 8 6 g (by decide), fld_put_apart 8 11 3 d (by decide), fld_put 8 g (by decide), show fld 0x191000F9#32 11 6 = 0#6 by decide, show fld 0x191000F9#32 8 3 = 0#3 by decide, BitVec.zero_or, BitVec.or_zero])

theorem ctRdid (which : BitVec 3) (d : BitVec 6) (g : BitVec 3) : Statement (.ctRdid which d g) := by
  intro c rest h
  simp only [encode, enc32, Option.some.injEq] at h; subst h
  exact decode_row32 206 ⟨0xFFE200FF#32, 0x1A0000F9#32, fun w => .ctRdid (fld w 18 3) (fld w 11 6) (fld w 8 3)⟩ (put 18 which ||| put 11 d ||| put 8 g) _ rest rfl (by simp only [BitVec.and_or_distrib_right, put_and 18 which 0xFFE200FF#32 (by decide), put_and 11 d 0xFFE200FF#32 (by decide), put_and 8 g 0xFFE200FF#32 (by decide), BitVec.or_zero]) (by decide) (by decide) (by simp only [fld_or, fld_put 18 which (by decide), fld_put_apart 18 11 3 d (by decide), fld_put_apart 18 8 3 g (by decide), fld_put_apart 11 18 6 which (by decide), fld_put 11 d (by decide), fld_put_apart 11 8 6 g (by decide), fld_put_apart 8 18 3 which (by decide), fld_put_apart 8 11 3 d (by decide), fld_put 8 g (by decide), show fld 0x1A0000F9#32 18 3 = 0#3 by decide, show fld 0x1A0000F9#32 11 6 = 0#6 by decide, show fld 0x1A0000F9#32 8 3 = 0#3 by decide, BitVec.zero_or, BitVec.or_zero])

theorem bmake (a : BitVec 7) (d : BitVec 6) (g : BitVec 3) : Statement (.bmake a d g) := by
  intro c rest h
  simp only [encode, enc32, Option.some.injEq] at h; subst h
  exact decode_row32 207 ⟨0xFE0200FF#32, 0x1C0000F9#32, fun w => .bmake (fld w 18 7) (fld w 11 6) (fld w 8 3)⟩ (put 18 a ||| put 11 d ||| put 8 g) _ rest rfl (by simp only [BitVec.and_or_distrib_right, put_and 18 a 0xFE0200FF#32 (by decide), put_and 11 d 0xFE0200FF#32 (by decide), put_and 8 g 0xFE0200FF#32 (by decide), BitVec.or_zero]) (by decide) (by decide) (by simp only [fld_or, fld_put 18 a (by decide), fld_put_apart 18 11 7 d (by decide), fld_put_apart 18 8 7 g (by decide), fld_put_apart 11 18 6 a (by decide), fld_put 11 d (by decide), fld_put_apart 11 8 6 g (by decide), fld_put_apart 8 18 3 a (by decide), fld_put_apart 8 11 3 d (by decide), fld_put 8 g (by decide), show fld 0x1C0000F9#32 18 7 = 0#7 by decide, show fld 0x1C0000F9#32 11 6 = 0#6 by decide, show fld 0x1C0000F9#32 8 3 = 0#3 by decide, BitVec.zero_or, BitVec.or_zero])

theorem bseal (a : BitVec 7) (d : BitVec 6) (g : BitVec 3) : Statement (.bseal a d g) := by
  intro c rest h
  simp only [encode, enc32, Option.some.injEq] at h; subst h
  exact decode_row32 208 ⟨0xFE0200FF#32, 0x1E0000F9#32, fun w => .bseal (fld w 18 7) (fld w 11 6) (fld w 8 3)⟩ (put 18 a ||| put 11 d ||| put 8 g) _ rest rfl (by simp only [BitVec.and_or_distrib_right, put_and 18 a 0xFE0200FF#32 (by decide), put_and 11 d 0xFE0200FF#32 (by decide), put_and 8 g 0xFE0200FF#32 (by decide), BitVec.or_zero]) (by decide) (by decide) (by simp only [fld_or, fld_put 18 a (by decide), fld_put_apart 18 11 7 d (by decide), fld_put_apart 18 8 7 g (by decide), fld_put_apart 11 18 6 a (by decide), fld_put 11 d (by decide), fld_put_apart 11 8 6 g (by decide), fld_put_apart 8 18 3 a (by decide), fld_put_apart 8 11 3 d (by decide), fld_put 8 g (by decide), show fld 0x1E0000F9#32 18 7 = 0#7 by decide, show fld 0x1E0000F9#32 11 6 = 0#6 by decide, show fld 0x1E0000F9#32 8 3 = 0#3 by decide, BitVec.zero_or, BitVec.or_zero])

theorem bfree (a : BitVec 7) (d : BitVec 6) (g : BitVec 3) : Statement (.bfree a d g) := by
  intro c rest h
  simp only [encode, enc32, Option.some.injEq] at h; subst h
  exact decode_row32 209 ⟨0xFE0200FF#32, 0x200000F9#32, fun w => .bfree (fld w 18 7) (fld w 11 6) (fld w 8 3)⟩ (put 18 a ||| put 11 d ||| put 8 g) _ rest rfl (by simp only [BitVec.and_or_distrib_right, put_and 18 a 0xFE0200FF#32 (by decide), put_and 11 d 0xFE0200FF#32 (by decide), put_and 8 g 0xFE0200FF#32 (by decide), BitVec.or_zero]) (by decide) (by decide) (by simp only [fld_or, fld_put 18 a (by decide), fld_put_apart 18 11 7 d (by decide), fld_put_apart 18 8 7 g (by decide), fld_put_apart 11 18 6 a (by decide), fld_put 11 d (by decide), fld_put_apart 11 8 6 g (by decide), fld_put_apart 8 18 3 a (by decide), fld_put_apart 8 11 3 d (by decide), fld_put 8 g (by decide), show fld 0x200000F9#32 18 7 = 0#7 by decide, show fld 0x200000F9#32 11 6 = 0#6 by decide, show fld 0x200000F9#32 8 3 = 0#3 by decide, BitVec.zero_or, BitVec.or_zero])

theorem tret (k : BitVec 3) (a : BitVec 7) (d : BitVec 6) (g : BitVec 3) : Statement (.tret k a d g) := by
  intro c rest h
  simp only [encode, enc32, Option.some.injEq] at h; subst h
  exact decode_row32 210 ⟨0xF00200FF#32, 0x000000FB#32, fun w => .tret (fld w 25 3) (fld w 18 7) (fld w 11 6) (fld w 8 3)⟩ (put 25 k ||| put 18 a ||| put 11 d ||| put 8 g) _ rest rfl (by simp only [BitVec.and_or_distrib_right, put_and 25 k 0xF00200FF#32 (by decide), put_and 18 a 0xF00200FF#32 (by decide), put_and 11 d 0xF00200FF#32 (by decide), put_and 8 g 0xF00200FF#32 (by decide), BitVec.or_zero]) (by decide) (by decide) (by simp only [fld_or, fld_put 25 k (by decide), fld_put_apart 25 18 3 a (by decide), fld_put_apart 25 11 3 d (by decide), fld_put_apart 25 8 3 g (by decide), fld_put_apart 18 25 7 k (by decide), fld_put 18 a (by decide), fld_put_apart 18 11 7 d (by decide), fld_put_apart 18 8 7 g (by decide), fld_put_apart 11 25 6 k (by decide), fld_put_apart 11 18 6 a (by decide), fld_put 11 d (by decide), fld_put_apart 11 8 6 g (by decide), fld_put_apart 8 25 3 k (by decide), fld_put_apart 8 18 3 a (by decide), fld_put_apart 8 11 3 d (by decide), fld_put 8 g (by decide), show fld 0x000000FB#32 25 3 = 0#3 by decide, show fld 0x000000FB#32 18 7 = 0#7 by decide, show fld 0x000000FB#32 11 6 = 0#6 by decide, show fld 0x000000FB#32 8 3 = 0#3 by decide, BitVec.zero_or, BitVec.or_zero])

theorem cxsave (d : BitVec 6) (g : BitVec 3) : Statement (.cxsave d g) := by
  intro c rest h
  simp only [encode, enc32, Option.some.injEq] at h; subst h
  exact decode_row32 211 ⟨0xFFFE00FF#32, 0x111000FB#32, fun w => .cxsave (fld w 11 6) (fld w 8 3)⟩ (put 11 d ||| put 8 g) _ rest rfl (by simp only [BitVec.and_or_distrib_right, put_and 11 d 0xFFFE00FF#32 (by decide), put_and 8 g 0xFFFE00FF#32 (by decide), BitVec.or_zero]) (by decide) (by decide) (by simp only [fld_or, fld_put 11 d (by decide), fld_put_apart 11 8 6 g (by decide), fld_put_apart 8 11 3 d (by decide), fld_put 8 g (by decide), show fld 0x111000FB#32 11 6 = 0#6 by decide, show fld 0x111000FB#32 8 3 = 0#3 by decide, BitVec.zero_or, BitVec.or_zero])

theorem cxload (a : BitVec 7) (d : BitVec 6) (g : BitVec 3) : Statement (.cxload a d g) := by
  intro c rest h
  simp only [encode, enc32, Option.some.injEq] at h; subst h
  exact decode_row32 212 ⟨0xFE0200FF#32, 0x200000FB#32, fun w => .cxload (fld w 18 7) (fld w 11 6) (fld w 8 3)⟩ (put 18 a ||| put 11 d ||| put 8 g) _ rest rfl (by simp only [BitVec.and_or_distrib_right, put_and 18 a 0xFE0200FF#32 (by decide), put_and 11 d 0xFE0200FF#32 (by decide), put_and 8 g 0xFE0200FF#32 (by decide), BitVec.or_zero]) (by decide) (by decide) (by simp only [fld_or, fld_put 18 a (by decide), fld_put_apart 18 11 7 d (by decide), fld_put_apart 18 8 7 g (by decide), fld_put_apart 11 18 6 a (by decide), fld_put 11 d (by decide), fld_put_apart 11 8 6 g (by decide), fld_put_apart 8 18 3 a (by decide), fld_put_apart 8 11 3 d (by decide), fld_put 8 g (by decide), show fld 0x200000FB#32 18 7 = 0#7 by decide, show fld 0x200000FB#32 11 6 = 0#6 by decide, show fld 0x200000FB#32 8 3 = 0#3 by decide, BitVec.zero_or, BitVec.or_zero])

theorem genset (d : BitVec 6) (g : BitVec 3) : Statement (.genset d g) := by
  intro c rest h
  simp only [encode, enc32, Option.some.injEq] at h; subst h
  exact decode_row32 213 ⟨0xFFFE00FF#32, 0x311000FB#32, fun w => .genset (fld w 11 6) (fld w 8 3)⟩ (put 11 d ||| put 8 g) _ rest rfl (by simp only [BitVec.and_or_distrib_right, put_and 11 d 0xFFFE00FF#32 (by decide), put_and 8 g 0xFFFE00FF#32 (by decide), BitVec.or_zero]) (by decide) (by decide) (by simp only [fld_or, fld_put 11 d (by decide), fld_put_apart 11 8 6 g (by decide), fld_put_apart 8 11 3 d (by decide), fld_put 8 g (by decide), show fld 0x311000FB#32 11 6 = 0#6 by decide, show fld 0x311000FB#32 8 3 = 0#3 by decide, BitVec.zero_or, BitVec.or_zero])

theorem xinv (a : BitVec 7) (d : BitVec 6) (g : BitVec 3) : Statement (.xinv a d g) := by
  intro c rest h
  simp only [encode, enc32, Option.some.injEq] at h; subst h
  exact decode_row32 214 ⟨0xFE0200FF#32, 0x400000FB#32, fun w => .xinv (fld w 18 7) (fld w 11 6) (fld w 8 3)⟩ (put 18 a ||| put 11 d ||| put 8 g) _ rest rfl (by simp only [BitVec.and_or_distrib_right, put_and 18 a 0xFE0200FF#32 (by decide), put_and 11 d 0xFE0200FF#32 (by decide), put_and 8 g 0xFE0200FF#32 (by decide), BitVec.or_zero]) (by decide) (by decide) (by simp only [fld_or, fld_put 18 a (by decide), fld_put_apart 18 11 7 d (by decide), fld_put_apart 18 8 7 g (by decide), fld_put_apart 11 18 6 a (by decide), fld_put 11 d (by decide), fld_put_apart 11 8 6 g (by decide), fld_put_apart 8 18 3 a (by decide), fld_put_apart 8 11 3 d (by decide), fld_put 8 g (by decide), show fld 0x400000FB#32 18 7 = 0#7 by decide, show fld 0x400000FB#32 11 6 = 0#6 by decide, show fld 0x400000FB#32 8 3 = 0#3 by decide, BitVec.zero_or, BitVec.or_zero])

theorem rdsr (a : BitVec 7) (d : BitVec 6) (g : BitVec 3) : Statement (.rdsr a d g) := by
  intro c rest h
  simp only [encode, enc32, Option.some.injEq] at h; subst h
  exact decode_row32 215 ⟨0xFE0200FF#32, 0x500000FB#32, fun w => .rdsr (fld w 18 7) (fld w 11 6) (fld w 8 3)⟩ (put 18 a ||| put 11 d ||| put 8 g) _ rest rfl (by simp only [BitVec.and_or_distrib_right, put_and 18 a 0xFE0200FF#32 (by decide), put_and 11 d 0xFE0200FF#32 (by decide), put_and 8 g 0xFE0200FF#32 (by decide), BitVec.or_zero]) (by decide) (by decide) (by simp only [fld_or, fld_put 18 a (by decide), fld_put_apart 18 11 7 d (by decide), fld_put_apart 18 8 7 g (by decide), fld_put_apart 11 18 6 a (by decide), fld_put 11 d (by decide), fld_put_apart 11 8 6 g (by decide), fld_put_apart 8 18 3 a (by decide), fld_put_apart 8 11 3 d (by decide), fld_put 8 g (by decide), show fld 0x500000FB#32 18 7 = 0#7 by decide, show fld 0x500000FB#32 11 6 = 0#6 by decide, show fld 0x500000FB#32 8 3 = 0#3 by decide, BitVec.zero_or, BitVec.or_zero])

theorem wrsr (h : BitVec 1) (a : BitVec 7) (nw : BitVec 6) (g : BitVec 3) : Statement (.wrsr h a nw g) := by
  intro c rest h
  simp only [encode, enc32, Option.some.injEq] at h; subst h
  exact decode_row32 216 ⟨0xFC0200FF#32, 0x600000FB#32, fun w => .wrsr (fld w 25 1) (fld w 18 7) (fld w 11 6) (fld w 8 3)⟩ (put 25 h ||| put 18 a ||| put 11 nw ||| put 8 g) _ rest rfl (by simp only [BitVec.and_or_distrib_right, put_and 25 h 0xFC0200FF#32 (by decide), put_and 18 a 0xFC0200FF#32 (by decide), put_and 11 nw 0xFC0200FF#32 (by decide), put_and 8 g 0xFC0200FF#32 (by decide), BitVec.or_zero]) (by decide) (by decide) (by simp only [fld_or, fld_put 25 h (by decide), fld_put_apart 25 18 1 a (by decide), fld_put_apart 25 11 1 nw (by decide), fld_put_apart 25 8 1 g (by decide), fld_put_apart 18 25 7 h (by decide), fld_put 18 a (by decide), fld_put_apart 18 11 7 nw (by decide), fld_put_apart 18 8 7 g (by decide), fld_put_apart 11 25 6 h (by decide), fld_put_apart 11 18 6 a (by decide), fld_put 11 nw (by decide), fld_put_apart 11 8 6 g (by decide), fld_put_apart 8 25 3 h (by decide), fld_put_apart 8 18 3 a (by decide), fld_put_apart 8 11 3 nw (by decide), fld_put 8 g (by decide), show fld 0x600000FB#32 25 1 = 0#1 by decide, show fld 0x600000FB#32 18 7 = 0#7 by decide, show fld 0x600000FB#32 11 6 = 0#6 by decide, show fld 0x600000FB#32 8 3 = 0#3 by decide, BitVec.zero_or, BitVec.or_zero])

theorem tickstop (a : BitVec 7) (d : BitVec 6) (g : BitVec 3) : Statement (.tickstop a d g) := by
  intro c rest h
  simp only [encode, enc32, Option.some.injEq] at h; subst h
  exact decode_row32 217 ⟨0xFE0200FF#32, 0x700000FB#32, fun w => .tickstop (fld w 18 7) (fld w 11 6) (fld w 8 3)⟩ (put 18 a ||| put 11 d ||| put 8 g) _ rest rfl (by simp only [BitVec.and_or_distrib_right, put_and 18 a 0xFE0200FF#32 (by decide), put_and 11 d 0xFE0200FF#32 (by decide), put_and 8 g 0xFE0200FF#32 (by decide), BitVec.or_zero]) (by decide) (by decide) (by simp only [fld_or, fld_put 18 a (by decide), fld_put_apart 18 11 7 d (by decide), fld_put_apart 18 8 7 g (by decide), fld_put_apart 11 18 6 a (by decide), fld_put 11 d (by decide), fld_put_apart 11 8 6 g (by decide), fld_put_apart 8 18 3 a (by decide), fld_put_apart 8 11 3 d (by decide), fld_put 8 g (by decide), show fld 0x700000FB#32 18 7 = 0#7 by decide, show fld 0x700000FB#32 11 6 = 0#6 by decide, show fld 0x700000FB#32 8 3 = 0#3 by decide, BitVec.zero_or, BitVec.or_zero])

theorem dgrd (k : BitVec 3) (a : BitVec 7) (d : BitVec 6) (g : BitVec 3) : Statement (.dgrd k a d g) := by
  intro c rest h
  simp only [encode, enc32, Option.some.injEq] at h; subst h
  exact decode_row32 218 ⟨0xF00200FF#32, 0x800000FB#32, fun w => .dgrd (fld w 25 3) (fld w 18 7) (fld w 11 6) (fld w 8 3)⟩ (put 25 k ||| put 18 a ||| put 11 d ||| put 8 g) _ rest rfl (by simp only [BitVec.and_or_distrib_right, put_and 25 k 0xF00200FF#32 (by decide), put_and 18 a 0xF00200FF#32 (by decide), put_and 11 d 0xF00200FF#32 (by decide), put_and 8 g 0xF00200FF#32 (by decide), BitVec.or_zero]) (by decide) (by decide) (by simp only [fld_or, fld_put 25 k (by decide), fld_put_apart 25 18 3 a (by decide), fld_put_apart 25 11 3 d (by decide), fld_put_apart 25 8 3 g (by decide), fld_put_apart 18 25 7 k (by decide), fld_put 18 a (by decide), fld_put_apart 18 11 7 d (by decide), fld_put_apart 18 8 7 g (by decide), fld_put_apart 11 25 6 k (by decide), fld_put_apart 11 18 6 a (by decide), fld_put 11 d (by decide), fld_put_apart 11 8 6 g (by decide), fld_put_apart 8 25 3 k (by decide), fld_put_apart 8 18 3 a (by decide), fld_put_apart 8 11 3 d (by decide), fld_put 8 g (by decide), show fld 0x800000FB#32 25 3 = 0#3 by decide, show fld 0x800000FB#32 18 7 = 0#7 by decide, show fld 0x800000FB#32 11 6 = 0#6 by decide, show fld 0x800000FB#32 8 3 = 0#3 by decide, BitVec.zero_or, BitVec.or_zero])

theorem halt (g : BitVec 3) : Statement (.halt g) := by
  intro c rest h
  simp only [encode, enc32, Option.some.injEq] at h; subst h
  exact decode_row32 219 ⟨0xFFFFF8FF#32, 0x911000FB#32, fun w => .halt (fld w 8 3)⟩ (put 8 g) _ rest rfl (put_and 8 g 0xFFFFF8FF#32 (by decide)) (by decide) (by decide) (by show Instr.halt _ = Instr.halt _; rw [fld_or, fld_put 8 g (by decide)]; exact congrArg _ (BitVec.zero_or))

theorem unassignedEncoding (w : Word) : Statement (.unassignedEncoding w) := by
  intro c rest h; simp [encode] at h

theorem formWarp (core : Nat) : Statement (.formWarp core) := by
  intro c rest h; simp [encode] at h

theorem entryAged (core : Nat) (ws : Nat) (n : Nat) : Statement (.entryAged core ws n) := by
  intro c rest h; simp [encode] at h

theorem storeLeaveQueue (core : Nat) (hw : Nat) : Statement (.storeLeaveQueue core hw) := by
  intro c rest h; simp [encode] at h

theorem homeWrite (src : HomeWriteSrc) : Statement (.homeWrite src) := by
  intro c rest h; simp [encode] at h

theorem homeRead (n : Nat) : Statement (.homeRead n) := by
  intro c rest h; simp [encode] at h

theorem loadReply (core : Nat) (n : Nat) : Statement (.loadReply core n) := by
  intro c rest h; simp [encode] at h

theorem atomicAtHome (n : Nat) : Statement (.atomicAtHome n) := by
  intro c rest h; simp [encode] at h

theorem atomicReply (n : Nat) : Statement (.atomicReply n) := by
  intro c rest h; simp [encode] at h

theorem staleRejectRetry (n : Nat) : Statement (.staleRejectRetry n) := by
  intro c rest h; simp [encode] at h

theorem heldEntryResend (core : Nat) (hw : Nat) : Statement (.heldEntryResend core hw) := by
  intro c rest h; simp [encode] at h

theorem errorReply (n : Nat) : Statement (.errorReply n) := by
  intro c rest h; simp [encode] at h

theorem waitArrive (n : Nat) : Statement (.waitArrive n) := by
  intro c rest h; simp [encode] at h

theorem fallbackSweep (stack : Nat) (slice : Nat) : Statement (.fallbackSweep stack slice) := by
  intro c rest h; simp [encode] at h

theorem waitDeadline (n : Nat) : Statement (.waitDeadline n) := by
  intro c rest h; simp [encode] at h

theorem waitCancel (n : Nat) : Statement (.waitCancel n) := by
  intro c rest h; simp [encode] at h

theorem waitReply (n : Nat) : Statement (.waitReply n) := by
  intro c rest h; simp [encode] at h

theorem evictedWake (n : Nat) : Statement (.evictedWake n) := by
  intro c rest h; simp [encode] at h

theorem stealPromotion (n : Nat) : Statement (.stealPromotion n) := by
  intro c rest h; simp [encode] at h

theorem stealAck (n : Nat) : Statement (.stealAck n) := by
  intro c rest h; simp [encode] at h

theorem barrierArrival (n : Nat) : Statement (.barrierArrival n) := by
  intro c rest h; simp [encode] at h

theorem staithePut (n : Nat) : Statement (.staithePut n) := by
  intro c rest h; simp [encode] at h

theorem staitheDrain (n : Nat) : Statement (.staitheDrain n) := by
  intro c rest h; simp [encode] at h

theorem staitheSnapshot (n : Nat) : Statement (.staitheSnapshot n) := by
  intro c rest h; simp [encode] at h

theorem staitheNext (n : Nat) : Statement (.staitheNext n) := by
  intro c rest h; simp [encode] at h

theorem staitheCount (n : Nat) : Statement (.staitheCount n) := by
  intro c rest h; simp [encode] at h

theorem staitheGrow (n : Nat) : Statement (.staitheGrow n) := by
  intro c rest h; simp [encode] at h

theorem staitheMake (n : Nat) : Statement (.staitheMake n) := by
  intro c rest h; simp [encode] at h

theorem staitheSeal (n : Nat) : Statement (.staitheSeal n) := by
  intro c rest h; simp [encode] at h

theorem staitheFree (n : Nat) : Statement (.staitheFree n) := by
  intro c rest h; simp [encode] at h

theorem lengthsmanEnter (n : Nat) : Statement (.lengthsmanEnter n) := by
  intro c rest h; simp [encode] at h

theorem lengthsmanWait (n : Nat) : Statement (.lengthsmanWait n) := by
  intro c rest h; simp [encode] at h

theorem lengthsmanLeave (n : Nat) : Statement (.lengthsmanLeave n) := by
  intro c rest h; simp [encode] at h

theorem bagReply (n : Nat) : Statement (.bagReply n) := by
  intro c rest h; simp [encode] at h

theorem copyAccept (core : Nat) : Statement (.copyAccept core) := by
  intro c rest h; simp [encode] at h

theorem copyStart (core : Nat) : Statement (.copyStart core) := by
  intro c rest h; simp [encode] at h

theorem copyComplete (core : Nat) (n : Nat) : Statement (.copyComplete core n) := by
  intro c rest h; simp [encode] at h

theorem guardResolve (core : Nat) : Statement (.guardResolve core) := by
  intro c rest h; simp [encode] at h

theorem matrixAccept (core : Nat) : Statement (.matrixAccept core) := by
  intro c rest h; simp [encode] at h

theorem reservationAging (quad : Nat) (n : Nat) : Statement (.reservationAging quad n) := by
  intro c rest h; simp [encode] at h

theorem groupForm (quad : Nat) (n : Nat) : Statement (.groupForm quad n) := by
  intro c rest h; simp [encode] at h

theorem matrixGrant (quad : Nat) : Statement (.matrixGrant quad) := by
  intro c rest h; simp [encode] at h

theorem matrixComplete (quad : Nat) (n : Nat) : Statement (.matrixComplete quad n) := by
  intro c rest h; simp [encode] at h

theorem adeAccept (stack : Nat) : Statement (.adeAccept stack) := by
  intro c rest h; simp [encode] at h

theorem adeStart (stack : Nat) : Statement (.adeStart stack) := by
  intro c rest h; simp [encode] at h

theorem adeComplete (stack : Nat) : Statement (.adeComplete stack) := by
  intro c rest h; simp [encode] at h

theorem dloadApply (seq : Nat) : Statement (.dloadApply seq) := by
  intro c rest h; simp [encode] at h

theorem drunStart (seq : Nat) : Statement (.drunStart seq) := by
  intro c rest h; simp [encode] at h

theorem delfOperation (seq : Nat) : Statement (.delfOperation seq) := by
  intro c rest h; simp [encode] at h

theorem drunComplete (seq : Nat) : Statement (.drunComplete seq) := by
  intro c rest h; simp [encode] at h

theorem channelSelfRefresh (seq : Nat) : Statement (.channelSelfRefresh seq) := by
  intro c rest h; simp [encode] at h

theorem collStart (n : Nat) : Statement (.collStart n) := by
  intro c rest h; simp [encode] at h

theorem collComplete (n : Nat) : Statement (.collComplete n) := by
  intro c rest h; simp [encode] at h

theorem collWatchdog (n : Nat) : Statement (.collWatchdog n) := by
  intro c rest h; simp [encode] at h

theorem haltStatus (rep : PeerReport) : Statement (.haltStatus rep) := by
  intro c rest h; simp [encode] at h

theorem placeLaunch (ctx : Nat) : Statement (.placeLaunch ctx) := by
  intro c rest h; simp [encode] at h

theorem launchComplete (ctx : Nat) (n : Nat) : Statement (.launchComplete ctx n) := by
  intro c rest h; simp [encode] at h

theorem runaway (core : Nat) (ws : Nat) : Statement (.runaway core ws) := by
  intro c rest h; simp [encode] at h

theorem switchRequest (core : Nat) : Statement (.switchRequest core) := by
  intro c rest h; simp [encode] at h

theorem evictWorkgroup (core : Nat) (ws : Nat) : Statement (.evictWorkgroup core ws) := by
  intro c rest h; simp [encode] at h

theorem logicalCoreSwitch (core : Nat) : Statement (.logicalCoreSwitch core) := by
  intro c rest h; simp [encode] at h

theorem ctTakeEvent (core : Nat) : Statement (.ctTakeEvent core) := by
  intro c rest h; simp [encode] at h

theorem startRequest (ctx : Nat) (lcore : Nat) : Statement (.startRequest ctx lcore) := by
  intro c rest h; simp [encode] at h

theorem removeContext (ctx : Nat) (cause : Nat) : Statement (.removeContext ctx cause) := by
  intro c rest h; simp [encode] at h

theorem removalStep (ctx : Nat) : Statement (.removalStep ctx) := by
  intro c rest h; simp [encode] at h

theorem removalStall (ctx : Nat) : Statement (.removalStall ctx) := by
  intro c rest h; simp [encode] at h

theorem wayQuarantine (stack : Nat) (slice : Nat) (way : Nat) : Statement (.wayQuarantine stack slice way) := by
  intro c rest h; simp [encode] at h

theorem warmReset (die : Nat) : Statement (.warmReset die) := by
  intro c rest h; simp [encode] at h

theorem resetStep (die : Nat) : Statement (.resetStep die) := by
  intro c rest h; simp [encode] at h

theorem switchoutTimeout (die : Nat) (ctx : Nat) : Statement (.switchoutTimeout die ctx) := by
  intro c rest h; simp [encode] at h

theorem packageFatal (cause : Nat) : Statement (.packageFatal cause) := by
  intro c rest h; simp [encode] at h

theorem tickstopFire : Statement (.tickstopFire) := by
  intro c rest h; simp [encode] at h

theorem counterUpdate : Statement .counterUpdate := by
  intro c rest h; simp [encode] at h

theorem linkRetrain (link : Nat) : Statement (.linkRetrain link) := by
  intro c rest h; simp [encode] at h

theorem linkWatchdog (n : Nat) : Statement (.linkWatchdog n) := by
  intro c rest h; simp [encode] at h

theorem peerAccess (req : PeerReq) : Statement (.peerAccess req) := by
  intro c rest h; simp [encode] at h

theorem putWindowWrite (fn : Nat) (off : Nat) (data : Option (List Word)) : Statement (.putWindowWrite fn off data) := by
  intro c rest h; simp [encode] at h

theorem memoryWindowAccess (req : HostAccess) : Statement (.memoryWindowAccess req) := by
  intro c rest h; simp [encode] at h

theorem interruptPageStore (n : Nat) : Statement (.interruptPageStore n) := by
  intro c rest h; simp [encode] at h

theorem unboundVfRequest (fn : Nat) : Statement (.unboundVfRequest fn) := by
  intro c rest h; simp [encode] at h

theorem registerPageWrite (fn : Nat) (acc : PageAccess) : Statement (.registerPageWrite fn acc) := by
  intro c rest h; simp [encode] at h

theorem errorInjectRequest (req : Injection) : Statement (.errorInjectRequest req) := by
  intro c rest h; simp [encode] at h

theorem errorInjectFire (n : Nat) : Statement (.errorInjectFire n) := by
  intro c rest h; simp [encode] at h

theorem boot : Statement (.boot) := by
  intro c rest h; simp [encode] at h

theorem attestation (req : PfRequest) : Statement (.attestation req) := by
  intro c rest h; simp [encode] at h

theorem createContext (spec : ContextSpec) : Statement (.createContext spec) := by
  intro c rest h; simp [encode] at h

theorem assignCore (core : Nat) (ctx : Nat) : Statement (.assignCore core ctx) := by
  intro c rest h; simp [encode] at h

theorem tableWrite (gfn : Nat) (entry : TableEntry) : Statement (.tableWrite gfn entry) := by
  intro c rest h; simp [encode] at h

theorem bindVf (fn : Nat) (ctx : Nat) : Statement (.bindVf fn ctx) := by
  intro c rest h; simp [encode] at h

theorem debugResume (ctx : Nat) : Statement (.debugResume ctx) := by
  intro c rest h; simp [encode] at h

theorem powerSample : Statement (.powerSample) := by
  intro c rest h; simp [encode] at h

theorem droop (die : Nat) : Statement (.droop die) := by
  intro c rest h; simp [encode] at h

theorem retainEntry (die : Nat) : Statement (.retainEntry die) := by
  intro c rest h; simp [encode] at h

theorem stallSample (core : Nat) : Statement (.stallSample core) := by
  intro c rest h; simp [encode] at h

theorem scrub (place : EccPlace) (n : Nat) : Statement (.scrub place n) := by
  intro c rest h; simp [encode] at h

theorem failedFlit (link : Nat) : Statement (.failedFlit link) := by
  intro c rest h; simp [encode] at h

theorem writeAcknowledgement (core : Nat) (hw : Nat) : Statement (.writeAcknowledgement core hw) := by
  intro c rest h; simp [encode] at h

theorem remapWrite (ctx : Nat) (lcore : Nat) (pcore : Nat) : Statement (.remapWrite ctx lcore pcore) := by
  intro c rest h; simp [encode] at h

theorem sequencerAssign (seq : Nat) (ctx : Nat) : Statement (.sequencerAssign seq ctx) := by
  intro c rest h; simp [encode] at h

theorem channelSelfRefreshExit (seq : Nat) : Statement (.channelSelfRefreshExit seq) := by
  intro c rest h; simp [encode] at h

theorem powerCapSet (watts : Nat) : Statement (.powerCapSet watts) := by
  intro c rest h; simp [encode] at h

theorem putSlotBind (fn : Nat) (slot : Nat) (addr : Nat) : Statement (.putSlotBind fn slot addr) := by
  intro c rest h; simp [encode] at h

end Sys2Proof.Laws.RoundTrip

set_option Elab.async true
end

