-- ==== Sys2Proof/Certificates/Slice0/Obligations.lean ====
section
/-! DEFINITION. The statements. Each says which rule of the spec it formalises; where it rests on the model's own choice, it names the log entry. -/

open Sys2Proof Sys2Proof.Machine Sys2Proof.Claims

/-- R38, R39, R208: each 16-bit integer form issues from any ready state, writes its result to d and latch b0 (or to s(d)), goes on by 2 bytes, and changes nothing else.
R56, R60, R208: each two-source integer instruction issues from any ready state, writes its result, goes on by 4 bytes, and changes nothing else.
R43, R56, R60: `mad.i32` and `bfi` read the old d before they write it.
R57, R43, R45, R208: the 64-bit pair instructions write v(d):v(d+1), low word first, and latch b0 receives the low word; in the control stream each operand is one register.
R62, R208: each one-source instruction of the iun group issues from any ready state, writes its result, and changes nothing else. -/
def Obligations.IntegerResults : Prop :=
  (∀ (s : State) (f : HForm) (imm : BitVec 5),
  (∀ p ∈ halfTable f, OneRegister s p.1 f.uses 0 2 0 f.d (fun e l => p.2 32 (e.reg l f.d.toNat) (e.operand .int l f.src))
    (fun e => p.2 64 (e.r.reg f.d.toNat) (e.operand f.src))) ∧
  OneRegister s (.addi16 imm f.d) { regs := [f.d.toNat] } 0 2 0 f.d (fun e l => BitVec.ofInt 32 ((e.reg l f.d.toNat).toInt + imm.toInt))
    (fun e => BitVec.ofInt 64 ((e.r.reg f.d.toNat).toInt + imm.toInt))) ∧
  (∀ (s : State) (f : RForm), ∀ p ∈ twoTable f,
  OneRegister s p.1 f.uses 0 4 f.n f.d (fun e l => p.2 32 (e.operand .int l f.a) (e.operand .int l f.b))
    (fun e => p.2 64 (e.operand f.a) (e.operand f.b))) ∧
  (∀ (s : State) (f : RForm), ∀ p ∈ threeTable f,
  OneRegister s p.1 f.uses3 0 4 f.n f.d (fun e l => p.2 32 (e.reg l f.d.toNat) (e.operand .int l f.a) (e.operand .int l f.b))
    (fun e => p.2 64 (e.r.reg f.d.toNat) (e.operand f.a) (e.operand f.b))) ∧
  (∀ (s : State) (f : RForm), ∀ p ∈ pairTable f,
  (∀ e, readyVec s e p.1 (f.usesPair p.2.1) = true → Completes p.1 s (fun t => LaneDone s t e (e.issueSet f.g) 0 4 (fun l =>
    let v := p.2.2 (e.regPair l f.d.toNat) (e.pair l f.a) (e.pair l f.b)
    (if f.n = 0 then [(f.d.toNat, v.lo), (f.d.toNat + 1, v.hi)] else [], v.lo)))) ∧
  (∀ e, readyCt s e p.1 (f.usesPair p.2.1) = true →
    Completes p.1 s (fun t => CtDone s t e 4 f.d.toNat (p.2.2 (e.r.reg f.d.toNat) (e.operand f.a) (e.operand f.b))))) ∧
  (∀ (s : State) (f : UForm), ∀ p ∈ oneTable f,
  OneRegister s p.1 f.uses 0 4 f.n f.d (fun e l => p.2 32 (e.operand .int l f.a)) (fun e => p.2 64 (e.operand f.a)))

/-- R59, R61: `sel` for every thread of the warp, whatever its predicates; the immediates. -/
def Obligations.SelectAndImmediates : Prop := ∀ (s : State) (f : RForm) (imm : BitVec 11) (half : BitVec 16),
  OneRegister s (.sel f) { f.uses with g := 0, preds := true } 0 4 f.n f.d
    (fun e l => if (e.thread l).pred f.g.toNat then e.operand .int l f.a else e.operand .int l f.b)
    (fun e => if e.cr.flag f.g.toNat then e.operand f.a else e.operand f.b) ∧
  OneRegister s (.addi imm f.a f.d) { regs := codeRegs f.a ++ [f.d.toNat], lat := codeLat f.a } 0 4 0 f.d
    (fun e l => BitVec.ofInt 32 ((e.operand .int l f.a).toInt + imm.toInt)) (fun e => BitVec.ofInt 64 ((e.operand f.a).toInt + imm.toInt)) ∧
  OneRegister s (.andi imm f.a f.d) { regs := codeRegs f.a ++ [f.d.toNat], lat := codeLat f.a } 0 4 0 f.d
    (fun e l => e.operand .int l f.a &&& BitVec.ofInt 32 imm.toInt) (fun e => e.operand f.a &&& BitVec.ofInt 64 imm.toInt) ∧
  OneRegister s (.ldi half f.d) { regs := [f.d.toNat] } 0 4 0 f.d (fun _ _ => BitVec.ofInt 32 half.toInt) (fun _ => BitVec.ofInt 64 half.toInt) ∧
  OneRegister s (.ldiHi half f.d) { regs := [f.d.toNat] } 0 4 0 f.d
    (fun e l => BitVec.ofNat 32 (half.toNat * 65536 + (e.reg l f.d.toNat).toNat % 65536))
    (fun e => BitVec.ofNat 64 ((e.r.reg f.d.toNat).toNat / 2 ^ 32 * 2 ^ 32 + half.toNat * 65536 + (e.r.reg f.d.toNat).toNat % 65536))

/-- R58, R65, R208: the integer compares and the predicate operations write one predicate (flag) and no register; latch b0 receives the condition; p0 and f0 are never written.
R62: `pget` reads p0-p7 (f0-f7) as a mask with bit 0 set; `pset` writes p1-p7 (f1-f7) from bits 1 to 7, latch b0 receives sA, and no register is written. -/
def Obligations.ComparesAndPredicates : Prop :=
  (∀ (s : State) (f : CmpForm) (l2 : PlogForm) (l1 : PlogUForm),
  OneBit s (.cmpI32 f) f.uses f.n f.p (fun e l => intHolds f.c.toNat (e.operand .int l f.a).toInt (e.operand .int l f.b).toInt)
    (fun e => intHolds f.c.toNat (e.operand f.a).toInt (e.operand f.b).toInt) ∧
  OneBit s (.cmpN32 f) f.uses f.n f.p (fun e l => intHolds f.c.toNat (e.operand .int l f.a).toNat (e.operand .int l f.b).toNat)
    (fun e => intHolds f.c.toNat (e.operand f.a).toNat (e.operand f.b).toNat) ∧
  (∀ p ∈ plogTable l2, OneBit s p.1 { g := l2.g, preds := true } l2.w l2.p
    (fun e l => (p.2 ((e.thread l).pred l2.f.toNat) ((e.thread l).pred l2.s.toNat)) != (l2.c == 1))
    (fun e => (p.2 (e.cr.flag l2.f.toNat) (e.cr.flag l2.s.toNat)) != (l2.c == 1))) ∧
  (∀ p ∈ plogTableU l1, OneBit s p.1 { g := l1.g, preds := true } l1.w l1.p (fun e l => (p.2 ((e.thread l).pred l1.f.toNat)) != (l1.c == 1))
    (fun e => (p.2 (e.cr.flag l1.f.toNat)) != (l1.c == 1)))) ∧
  (∀ (s : State) (n : BitVec 1) (d : BitVec 6) (a : BitVec 7) (g : BitVec 3),
  OneRegister s (.pget n d g) { g := g, regs := destRegs n d, preds := true } 0 4 n d
    (fun e l => ((List.range 8).map (fun k => if (e.thread l).pred k then (2 : Word) ^ k else 0)).sum)
    (fun e => ((List.range 8).map (fun k => if e.cr.flag k then (2 : DWord) ^ k else 0)).sum) ∧
  (∀ e, readyVec s e (.pset a g) { g := g, regs := codeRegs a, lat := codeLat a, preds := true } = true →
    Completes (.pset a g) s (fun t => (t.core e.c).regs = (s.core e.c).regs ∧ LatchesAt t e (e.issueSet g) 0 (fun l => e.operand .int l a) ∧
      (∀ l ∈ e.issueSet g, (∀ m ∈ e.lanes, m.tid = l.tid → m = l) → ∀ k, k < 8 →
        (t.thread e.c e.ws l.tid).pred k = (k == 0 || (e.operand .int l a).getLsbD k)) ∧
      (∀ ws tid, (ws ≠ e.ws ∨ ∀ l ∈ e.issueSet g, l.tid ≠ tid) → (t.thread e.c ws tid).preds = (s.thread e.c ws tid).preds) ∧
      WarpOnly (s.core e.c) (t.core e.c) e.k e.ws ∧ OnlyCore s t e.c ∧ MemKept s t)) ∧
  (∀ e, readyCt s e (.pset a g) { g := g, regs := codeRegs a, lat := codeLat a, preds := true } = true →
    let met := fun (p : Park) => (List.range' 1 7).any (fun k => Park.awaitsFlag k ((e.operand a).getLsbD k) p)
    noneAway s e.c met →
    Completes (.pset a g) s (fun t => (∀ k, (t.core e.c).flag k = (if 1 ≤ k ∧ k < 8 then (e.operand a).getLsbD k else (s.core e.c).flag k)) ∧
      (t.core e.c).ct = { (s.core e.c).ct with cur := ctNext e e.r 4 } ∧
      (∀ ws tid, t.thread e.c ws tid = leftPark met true (s.thread e.c ws tid)) ∧
      t.core e.c = { s.core e.c with flags := (t.core e.c).flags, ct := (t.core e.c).ct, wgs := (t.core e.c).wgs } ∧ OnlyCore s t e.c ∧ MemKept s t)))

/-- R242, R243, R246, R247, R38: each float instruction of two or three sources issues from any ready warp, writes the rounded result to d and to its latch (b1; b2 for `div.f32`), and changes nothing else.
R249, R250, R251, R252, R253: the one-source float instructions, the conversions and `sincos.f32` issue from any ready warp, write their result to d and latch b2, and change nothing else.
R254, R228-R232: the decoders and encoders of DS8 and DS4 read the block scale from the old d[7:0] and the code table of their descriptor, write d and latch b2, and change nothing else. -/
def Obligations.FloatResults : Prop :=
  (∀ (s : State) (h : HForm) (f : RForm),
  (∀ p ∈ floatHalfTable h, OneLane s p.1 h.uses 1 2 0 h.d
    (fun e l => BitVec.ofNat 32 (p.2 (e.reg l h.d.toNat).toNat (e.operand .f32 l h.src).toNat))) ∧
  (∀ p ∈ floatTable f, OneLane s p.1 f.uses p.2.2.1 4 f.n f.d
    (fun e l => BitVec.ofNat 32 (p.2.2.2 (e.operand p.2.1 l f.a).toNat (e.operand p.2.1 l f.b).toNat))) ∧
  (∀ p ∈ fusedTable f, OneLane s p.1 f.uses3 1 4 f.n f.d
    (fun e l => BitVec.ofNat 32 (p.2.2 (e.operand p.2.1 l f.a).toNat (e.operand p.2.1 l f.b).toNat (e.reg l f.d.toNat).toNat))) ∧
  OneLane s (.scaleF32 f) f.uses 1 4 f.n f.d
    (fun e l => BitVec.ofNat 32 (Fmt.f32.scale (e.operand .f32 l f.a).toNat (e.operand .int l f.b).toInt))) ∧
  (∀ (s : State) (f : UForm) (c : CvtForm),
  (∀ p ∈ floatOneTable f, OneLane s p.1 f.uses 2 4 f.n f.d (fun e l => BitVec.ofNat 32 (p.2 (e.operand .f32 l f.a).toNat))) ∧
  (∀ p ∈ cvtTable c, OneLane s p.1 c.uses 2 4 c.n c.d (fun e l => p.2.2 (Rnd.ofAux c.r) (e.operand p.2.1 l c.a))) ∧
  (∀ e, readyVec s e (.sincosF32 f) { f.uses with regs := codeRegs f.a ++ [f.d.toNat, f.d.toNat + 1] } = true →
    Completes (.sincosF32 f) s (fun t => LaneDone s t e (e.issueSet f.g) 2 4 (fun l =>
      let sn : Word := BitVec.ofNat 32 (radianBits false (e.operand .f32 l f.a).toNat)
      let cs : Word := BitVec.ofNat 32 (radianBits true (e.operand .f32 l f.a).toNat)
      (if f.n = 0 then [(f.d.toNat, sn), (f.d.toNat + 1, cs)] else [], sn))))) ∧
  (∀ (s : State) (f : DsdecForm) (k : DsencForm),
  (∀ p ∈ dsdecTable f, OneLane s p.1 { g := f.g, regs := codeRegs f.a ++ destRegs f.n f.d, also := [f.d.toNat], lat := codeLat f.a } 2 4 f.n f.d
    (fun e l => BitVec.ofNat 32 (p.2 (s.codeTable e.x f.t.toNat) ((e.reg l f.d.toNat).toNat % 256) (e.operand .int l f.a).toNat))) ∧
  (∀ p ∈ dsencTable k, OneLane s p.1 { g := k.g, regs := codeRegs k.a ++ destRegs k.n k.d, also := [k.d.toNat], lat := codeLat k.a } 2 4 k.n k.d
    (fun e l => BitVec.ofNat 32 (p.2 (s.codeTable e.x k.t.toNat) ((e.reg l k.d.toNat).toNat % 256) (e.operand .f32 l k.a).toNat))))

/-- R245: `cmp.f32` writes one predicate, latch b0 receives 1 or 0, and -0 equals +0; a NaN makes only `.ne` and `.un` true.
R244: the special operands of FP32 addition, subtraction, multiplication, fused multiply-add, minimum, maximum and division; no other operands give a NaN. -/
def Obligations.FloatComparesAndSpecialOperands : Prop :=
  (∀ (s : State) (f : CmpForm) (e : Env), readyVec s e (.cmpF32 f) f.uses = true →
  Completes (.cmpF32 f) s (fun t => PredDone s t e (e.issueSet f.g) (if f.n = 0 then f.p.toNat else 0) (fun l =>
    let a := (e.operand .f32 l f.a).toNat
    let b := (e.operand .f32 l f.b).toNat
    let nan := (Fmt.f32.unpack a).isNaN || (Fmt.f32.unpack b).isNaN
    let less := fun (x y : Nat) => decide (Fmt.f32.rank x < Fmt.f32.rank y) && !(decide (x % 2 ^ 31 = 0) && decide (y % 2 ^ 31 = 0))
    match f.c.toNat with
    | 0 => !nan && !less a b && !less b a
    | 1 => nan || less a b || less b a
    | 2 => !nan && less a b
    | 3 => !nan && !less b a
    | 4 => !nan && less b a
    | 5 => !nan && !less a b
    | 6 => nan
    | _ => !nan))) ∧
  (∀ a b c : Nat, a < 2 ^ 32 → b < 2 ^ 32 → c < 2 ^ 32 →
  let nan := Fmt.f32.canonNaN
  let isNaN := patternNaN .f32
  let isInf := patternInf .f32
  let zero := patternZero .f32
  let neg := patternNeg .f32
  let noProduct := isInf a ∧ zero b ∨ zero a ∧ isInf b
  let anyNaN := isNaN a ∨ isNaN b
  nan = 0x7FC00000 ∧ isNaN nan ∧
  (anyNaN → Fmt.f32.add a b = nan ∧ Fmt.f32.sub a b = nan ∧ Fmt.f32.mul a b = nan ∧ Fmt.f32.div a b = nan ∧
    Fmt.f32.fma a b c = nan ∧ Fmt.f32.min a b = nan ∧ Fmt.f32.max a b = nan) ∧
  (isNaN c → Fmt.f32.fma a b c = nan) ∧
  (isInf a ∧ isInf b ∧ neg a ≠ neg b → Fmt.f32.add a b = nan) ∧
  (isInf a ∧ isInf b ∧ neg a = neg b → Fmt.f32.sub a b = nan) ∧
  (noProduct → Fmt.f32.mul a b = nan ∧ Fmt.f32.fma a b c = nan) ∧
  (¬anyNaN → ¬noProduct → isInf a ∨ isInf b → isInf c → (neg c ↔ neg a = neg b) → Fmt.f32.fma a b c = nan) ∧
  (isInf a ∧ isInf b ∨ zero a ∧ zero b → Fmt.f32.div a b = nan) ∧
  (¬ isNaN a ∧ ¬ isInf a ∧ ¬ zero a ∧ zero b → Fmt.f32.div a b = (if neg a ≠ neg b then 2 ^ 31 else 0) + 0x7F800000) ∧
  (¬ isNaN a ∧ ¬ isInf a ∧ isInf b → Fmt.f32.div a b = if neg a ≠ neg b then 2 ^ 31 else 0) ∧
  (¬anyNaN → ¬isNaN (Fmt.f32.min a b) ∧ ¬isNaN (Fmt.f32.max a b) ∧
    (¬(isInf a ∧ isInf b ∧ neg a ≠ neg b) → ¬isNaN (Fmt.f32.add a b)) ∧ (¬(isInf a ∧ isInf b ∧ neg a = neg b) → ¬isNaN (Fmt.f32.sub a b)) ∧
    (¬noProduct → ¬isNaN (Fmt.f32.mul a b)) ∧ (¬(isInf a ∧ isInf b ∨ zero a ∧ zero b) → ¬isNaN (Fmt.f32.div a b)) ∧
    (¬noProduct → ¬isNaN c → ¬((isInf a ∨ isInf b) ∧ isInf c ∧ (neg c ↔ neg a = neg b)) → ¬isNaN (Fmt.f32.fma a b c))))

/-- R226 (round to nearest, ties to even, and overflow to the infinity): rounding to FP32 keeps the sign and gives no NaN; a value at or beyond 2^128 - 2^103 gives the infinity, and no other does; every other gives a finite pattern no farther from the exact value than any other finite pattern, and an even one where a pattern of another value is as near. -/
def Obligations.RoundsToNearest : Prop := ∀ (neg : Bool) (m : Nat) (e : Int),
  let x := valueOf (.fin neg m e)
  let r := Fmt.f32.round .ne neg m e false
  r < 2 ^ 32 ∧ ¬ patternNaN .f32 r ∧ patternNeg .f32 r = neg ∧
  (patternInf .f32 r ↔ (2 : ℚ) ^ 128 - 2 ^ 103 ≤ |x|) ∧
  (¬ patternInf .f32 r → ∀ q, q < 2 ^ 32 → ¬ patternInf .f32 q → ¬ patternNaN .f32 q →
    |valueOf (Fmt.f32.unpack r) - x| ≤ |valueOf (Fmt.f32.unpack q) - x| ∧
    (|valueOf (Fmt.f32.unpack r) - x| = |valueOf (Fmt.f32.unpack q) - x| → valueOf (Fmt.f32.unpack q) ≠ valueOf (Fmt.f32.unpack r) → r % 2 = 0))

/-- R66, R68: a lane exchange of an assembled warp gives each thread of the issue set the sA value of the lane it names in its own home warp, or its own where no participant stands there, and changes nothing else.
R67: a formed warp that reaches a lane exchange without every participant of its home warps does not issue it: the warp dissolves, no register, latch of another warp or memory byte changes, and the instruction has no other effect.
R69: the poll group reduces over the issue set of each home warp separately; b0 receives the result. -/
def Obligations.LaneExchangesAndPolls : Prop :=
  (∀ (s : State) (f : RForm),
  (∀ p ∈ ([(.lget f, fun _ n => (n : Int)), (.lgetX f, fun l n => ((Nat.xor l n : Nat) : Int)), (.lgetSub f, fun l n => (l : Int) - n),
      (.lgetAdd f, fun l n => (l : Int) + n)] : List (Instr × (Nat → Nat → Int))),
    ∀ e, readyExchange s e p.1 f.uses = true → Completes p.1 s (fun t => LaneDone s t e (e.issueSet f.g) 0 4 (fun l =>
      let v := fromLane e f.a l (p.2 l.lane ((e.operand .int l f.b).toNat % 32)); (oneReg f.n f.d v, v)))) ∧
  (∀ e, readyExchange s e (.swp f) f.uses = true → Completes (.swp f) s (fun t => LaneDone s t e (e.issueSet f.g) 0 4 (fun l =>
      let m := (e.operand .int l f.b).toNat % 32
      let j := Nat.xor l.lane (2 ^ m)
      let v := if 4 < m then e.operand .int l f.a
        else if !l.lane.testBit m && (e.lanes.any (fun x => x.hw == l.hw && decide ((x.lane : Int) = j))) then
          fromLane e f.a l j ^^^ 0x80000000 else fromLane e f.a l j
      (oneReg f.n f.d v, v)))) ∧
  (∀ e, readyExchange s e (.bcast f) f.uses = true → Completes (.bcast f) s (fun t => LaneDone s t e (e.issueSet f.g) 0 4 (fun l =>
      let n := (((sameWarp (e.issueSet f.g) l).head?).map (fun m => (e.operand .int m f.b).toNat % 32)).getD 0
      let v := fromLane e f.a l n; (oneReg f.n f.d v, v))))) ∧
  (∀ (s : State) (e : Env) (i : Instr), isExchange i = true → Instr.wf .vec i = true →
  s.issuer = some (.vec e.c e.k) → s.env e.c e.k = some e → s.mayIssue e.c = true → e.g.state = .resident → e.owing = [] →
  s.exchangeReady e = false →
  exec i s = .next (s.dissolve e.c e.k) ∧ ((s.dissolve e.c e.k).core e.c).warp e.k = none ∧
    ((s.dissolve e.c e.k).core e.c).regs = (s.core e.c).regs ∧ OnlyCore s (s.dissolve e.c e.k) e.c ∧ MemKept s (s.dissolve e.c e.k)) ∧
  (∀ (s : State) (q p g : BitVec 3) (n : BitVec 1) (d : BitVec 6) (f : UForm),
  let p' := if n = 0 then p.toNat else 0
  (∀ e, readyExchange s e (.pollAny q n p g) { g := g, preds := true } = true → Completes (.pollAny q n p g) s (fun t =>
    PredDone s t e (e.issueSet g) p' (fun l => (sameWarp (e.issueSet g) l).any (fun m => (e.thread m).pred q.toNat)))) ∧
  (∀ e, readyExchange s e (.pollAll q n p g) { g := g, preds := true } = true → Completes (.pollAll q n p g) s (fun t =>
    PredDone s t e (e.issueSet g) p' (fun l => (sameWarp (e.issueSet g) l).all (fun m => (e.thread m).pred q.toNat)))) ∧
  (∀ e, readyExchange s e (.pollFirst n p g) { g := g, preds := true } = true → Completes (.pollFirst n p g) s (fun t =>
    PredDone s t e (e.issueSet g) p' (fun l => (sameWarp (e.issueSet g) l).head? == some l))) ∧
  (∀ e, readyExchange s e (.pollMask q n d g) { g := g, regs := destRegs n d, preds := true } = true → Completes (.pollMask q n d g) s (fun t =>
    LaneDone s t e (e.issueSet g) 0 4 (fun l =>
      let v : Word := maskOf (((sameWarp (e.issueSet g) l).filter (fun m => (e.thread m).pred q.toNat)).map (·.lane)); (oneReg n d v, v)))) ∧
  (∀ e, readyExchange s e (.pollCount q n d g) { g := g, regs := destRegs n d, preds := true } = true → Completes (.pollCount q n d g) s (fun t =>
    LaneDone s t e (e.issueSet g) 0 4 (fun l =>
      let v : Word := BitVec.ofNat 32 ((sameWarp (e.issueSet g) l).filter (fun m => (e.thread m).pred q.toNat)).length; (oneReg n d v, v)))) ∧
  (∀ e, readyExchange s e (.pollSame f) f.uses = true → Completes (.pollSame f) s (fun t =>
    LaneDone s t e (e.issueSet f.g) 0 4 (fun l =>
      let v : Word := maskOf (((sameWarp (e.issueSet f.g) l).filter (fun m => e.operand .int m f.a == e.operand .int l f.a)).map (·.lane))
      (oneReg f.n f.d v, v)))))

/-- R91, R93, R94, R171: a load whose checks pass leaves one pending result for each thread of the issue set (its destination, width, extension and acquire scope): with the bytes of the queued store that covers it, with the refusal of an absent page, or with nothing yet, its request sent; it goes on, and writes no register, flag or byte of memory; a thread whose load is at pod scope or to a peer window stays parked for the reply. A load of the control thread the same behind its empty queue, and `.phys` (R95) at the physical address of its base pair in supervisor mode.
R25, R396: a queued store covers a later load of its home warp, which takes its bytes; with no overlapping entry the queue says nothing; a partial overlap, a held entry, or one that is no store makes the load wait; a held span, drain or page request holds back its words. -/
def Obligations.LoadsArePending : Prop :=
  (∀ (s : State) (f : LdForm), ∀ p ∈ loadTable f,
  (∀ e, readyVec s e p.1 (loadUses f p.2.1) = true → e.cr.inFlight e.k < 16 →
    (∀ l ∈ e.issueSet 0, accessOk s e (e.base l f.n) p.2.1 permR false true false ∧ (e.thread l).loadHold = 0 ∧
      e.cr.homeUnread (Who.inWarp l.hw) = false) →
    let met := fun (l : Lane) => s.planLoad e.c l.hw (e.base l f.n) p.2.1
    let new := loadOfLane s e f (wordOf p.1).1 p.2.1 p.2.2 s.nextId
    let remote := fun (l : Lane) => decide (l ∈ e.issueSet 0) && s.remoteAt e.c e.x (e.base l f.n) (acquireScope f)
    ((∃ l ∈ e.issueSet 0, met l = .wait) → Completes p.1 s (fun t => Waits s t e)) ∧
    ((∀ l ∈ e.issueSet 0, met l ≠ .wait) → Completes p.1 s (fun t => QueueFrame s t e.c ∧ (t.core e.c).ct = (s.core e.c).ct ∧
      QueuesGain s t e.c (fun _ => []) ∧
      ThreadsBy s t e (fun l x =>
        goneOnBy e (remote l) { x with loadHold := x.loadHold + (if l ∈ e.issueSet 0 ∧ acquireScope f ≠ 0 then 1 else 0) }) ∧
      LoadsGain s t e.c ((e.issueSet 0).map (fun l => (met l).load (new l) f.o.toNat f.s.toNat)) ∧
      t.net = s.net ++ (e.issueSet 0).flatMap (fun l => (met l).asks (new l) e.c (s.coreCtx e.c) l.hw s.tick)))) ∧
  (∀ e, readyCt s e p.1 (loadUses f p.2.1) = true → e.cr.queue ctQueue = [] → e.cr.ct.loadHold = 0 → e.cr.homeUnread Who.isCt = false →
    let hold := if acquireScope f = 0 then 0 else 1
    (f.s = 6 → s.physTrap e (e.base f.n) p.2.1 = none → NoErrors s → Completes p.1 s (fun t => QueueFrame s t e.c ∧ QueuesGain s t e.c (fun _ => []) ∧
      CtGoesOnBy s t e false 0 ∧ t.net = s.net ∧
      ∃ v poison, LoadsGain s t e.c [{ loadOfCt s e f p.1 p.2.1 p.2.2 false with pa := (e.base f.n).toNat, data := some v, poison := poison }])) ∧
    (f.s ≠ 6 → accessOkCt s e (e.base f.n) p.2.1 permR false true false →
      let met := s.planLoad e.c ctQueue (e.base f.n) p.2.1
      let remote := s.remoteAt e.c e.x (e.base f.n) (acquireScope f)
      let new := loadOfCt s e f p.1 p.2.1 p.2.2 remote
      (met = .wait → exec p.1 s = .next s) ∧
      (met ≠ .wait → Completes p.1 s (fun t => QueueFrame s t e.c ∧ QueuesGain s t e.c (fun _ => []) ∧ CtGoesOnBy s t e remote hold ∧
        LoadsGain s t e.c [met.load new f.o.toNat f.s.toNat] ∧ t.net = s.net ++ met.asks new e.c (s.coreCtx e.c) ctQueue s.tick))))) ∧
  (∀ (q : List Entry) (pa size : Nat), 0 < size →
  ((∀ x ∈ q, x.overlaps pa size = false) → forward q pa size = .clear) ∧
  (∀ (a b : List Entry) (y : Entry) (n : Nat) (data : BitVec 128) (sc : Nat) (own phys : Bool), q = a ++ y :: b →
    y.kind = .store n data sc own phys → (∀ x ∈ a ++ y :: b, x.overlaps pa size = true → x.isHeld = false ∧ ∃ n d sc o p, x.kind = .store n d sc o p) →
    (∀ x ∈ b, x.overlaps pa size = false) →
    (y.pa ≤ pa ∧ pa + size ≤ y.pa + n → forward q pa size = .value (data.toNat / 2 ^ (8 * (pa - y.pa)) % 2 ^ (8 * size))) ∧
    (y.overlaps pa size = true → ¬ (y.pa ≤ pa ∧ pa + size ≤ y.pa + n) → forward q pa size = .wait)) ∧
  (∀ x ∈ q, x.overlaps pa size = true → (x.isHeld = true ∨ ∀ n data sc own phys, x.kind ≠ .store n data sc own phys) → forward q pa size = .wait) ∧
  (∀ x : Entry, x.isHeld = true → ((∃ m v, x.kind = .span size m v) ∨ (size = 128 ∧ ∃ id, x.kind = .drain id) ∨ (size = 8 ∧ ∃ d, x.kind = .pgreq d)) →
    x.overlaps x.pa size = true))

/-- R92, R94, R25: a store whose checks pass and whose page is resident enters the store queue of its home warp, in increasing home lane, with its address, data and release scope; nothing else changes: no byte of memory before the queue drains. While a queue it needs is full it does not issue, and nothing changes. A store of the control thread enters queue 48, with `.phys` (R95) at the physical address.
R90, R92: what a store of a thread that does not re-execute stores, and where: its base pair v(2n):v(2n+1), and the low bytes of its data registers, low word first.
R99, R101, R102, R171: an atomic or `red` whose checks pass and whose page is resident enters the store queue with its operation and operands; an atomic also leaves a pending result for its destination, `red` none; a thread whose atomic is to a peer window stays parked for the reply; nothing else changes. -/
def Obligations.StoresAndAtomicsEnterTheQueue : Prop :=
  (∀ (s : State) (f : StForm), ∀ p ∈ storeTable f,
  (∀ e, readyVec s e p.1 (storeUses f p.2) = true →
    (∀ l ∈ e.issueSet 0, accessOk s e (stAddr f p.2 e l) p.2 permW false false true ∧ (s.residentAt e.c e.x (stAddr f p.2 e l)).isSome) →
    (e.cr.roomFor (e.issueSet 0) = false → Completes p.1 s (fun t => Waits s t e)) ∧
    (e.cr.roomFor (e.issueSet 0) = true → Completes p.1 s (fun t => QueueFrame s t e.c ∧ ThreadsBy s t e (fun _ => goneOn e 4) ∧ LoadsGain s t e.c [] ∧
      (t.core e.c).ct = (s.core e.c).ct ∧
      QueuesGain s t e.c (fun hw => ((e.issueSet 0).filter (·.hw = hw)).map (fun l =>
        { kind := .store p.2 (stData f p.2 e l) (releaseScope f) false false, who := e.who l, pc := e.pc, va := stAddr f p.2 e l,
          pa := (s.residentAt e.c e.x (stAddr f p.2 e l)).getD 0, gen := (s.ctx e.x).gen }))))) ∧
  (∀ e, readyCt s e p.1 (storeUses f p.2) = true →
    (if f.s = 6 then s.physTrap e (e.base f.n) p.2 = none ∧ s.isHeader (e.base f.n).toNat = false
      else accessOkCt s e (e.base f.n) p.2 permW false false true ∧ (s.residentAt e.c e.x (e.base f.n)).isSome) →
    (e.cr.room ctQueue 1 = false → exec p.1 s = .next s) ∧
    (e.cr.room ctQueue 1 = true → Completes p.1 s (fun t => QueueFrame s t e.c ∧ CtGoesOnBy s t e false 0 ∧ LoadsGain s t e.c [] ∧
      QueuesGain s t e.c (fun hw => if hw = ctQueue then
        [{ kind := .store p.2 (stDataCt f p.2 e) (releaseScope f) false (f.s == 6), who := e.who, pc := e.r.pc, va := e.base f.n,
           pa := if f.s = 6 then (e.base f.n).toNat else (s.residentAt e.c e.x (e.base f.n)).getD 0, gen := (s.ctx e.x).gen, run := e.r.serial }]
        else []))))) ∧
  (∀ (f : StForm) (e : Env) (l : Lane) (size : Nat), size ∈ [1, 2, 4, 8, 16] → e.captured l = none →
  stAddr f size e l = dword (e.reg l (2 * f.n.toNat)) (e.reg l (2 * f.n.toNat + 1)) ∧
  (f.t.toNat ≤ 63 → ∀ i, i < size → (stData f size e l).toNat / 2 ^ (8 * i) % 256 =
    (e.reg l (f.t.toNat + i / 4)).toNat / 2 ^ (8 * (i % 4)) % 256)) ∧
  (∀ (s : State) (f : AtomForm) (r : RedForm),
  ∀ i u b n op upd ord w64 dest, (i, u, b, n, op, upd, ord, w64, dest) ∈ atomTable f r →
  let size := if w64 then 8 else 4
  let ps := atomParts b n op w64 (dest.getD 0)
  let need := if dest.isSome then permRW else permW
  let scope := if ord && dest.isSome then 4 else 0
  (∀ e, readyVec s e i u = true →
    let va := fun l => BitVec.ofNat 64 (e.sourceNat l ps 1)
    let remote := fun (l : Lane) => decide (l ∈ e.issueSet 0) && dest.isSome && s.remoteAt e.c e.x (va l) 0
    (∀ l ∈ e.issueSet 0, accessOk s e (va l) size need true true true ∧ (s.residentAt e.c e.x (va l)).isSome) →
    (e.cr.roomFor (e.issueSet 0) = false → Completes i s (fun t => Waits s t e)) ∧
    (e.cr.roomFor (e.issueSet 0) = true → Completes i s (fun t => QueueFrame s t e.c ∧ (t.core e.c).ct = (s.core e.c).ct ∧
      ThreadsBy s t e (fun l x =>
        goneOnBy e (remote l) { x with loadHold := x.loadHold + (if l ∈ e.issueSet 0 ∧ scope ≠ 0 then 1 else 0) }) ∧
      QueuesGain s t e.c (fun hw => ((e.issueSet 0).filter (·.hw = hw)).map (fun l =>
        { kind := .atomic op w64 upd ord (e.atomV l ps b op) (BitVec.ofNat 64 (e.sourceNat l ps 2)) dest, who := e.who l, pc := e.pc, va := va l,
          pa := (s.residentAt e.c e.x (va l)).getD 0, gen := (s.ctx e.x).gen, id := s.nextId })) ∧
      LoadsGain s t e.c (match dest with
        | none => []
        | some d => (e.issueSet 0).map (fun l =>
            oldValue s (e.who l) e.x e.pc i (va l) ((s.residentAt e.c e.x (va l)).getD 0) size scope d (remote l)))))) ∧
  (∀ e, readyCt s e i u = true → accessOkCt s e (e.base n) size need true true true → (s.residentAt e.c e.x (e.base n)).isSome →
    let remote := dest.isSome && s.remoteAt e.c e.x (e.base n) 0
    let cut := fun (v : DWord) => if w64 then v else v.lo.setWidth 64
    (e.cr.room ctQueue 1 = false → exec i s = .next s) ∧
    (e.cr.room ctQueue 1 = true → Completes i s (fun t => QueueFrame s t e.c ∧ CtGoesOnBy s t e remote (if scope = 0 then 0 else 1) ∧
      QueuesGain s t e.c (fun hw => if hw = ctQueue then
        [{ kind := .atomic op w64 upd ord (cut (e.atomOperand op b)) (cut (e.r.reg (dest.getD 0))) dest, who := e.who, pc := e.r.pc,
           va := e.base n, pa := (s.residentAt e.c e.x (e.base n)).getD 0, gen := (s.ctx e.x).gen, run := e.r.serial }] else []) ∧
      LoadsGain s t e.c (match dest with
        | none => []
        | some d => [oldValue s e.who e.x e.r.pc i (e.base n) ((s.residentAt e.c e.x (e.base n)).getD 0) size scope d remote])))))

/-- R91, R311, R323: a load of a warp with a lane whose address is non-canonical, misaligned or not permitted takes no access: the lanes that fail trap at the instruction, ADDR before ALIGN.
R374, R375: a load whose checks pass and which a watchpoint covers traps WATCH, the lanes that it covers with the watchpoints' mask in info0, unless a return from that trap lets it pass once.
R91, R311: which check an address fails: 0x0F (ADDR) when bits [63:47] are not all equal, 0x06 (ALIGN) when it is no multiple of the size, 0x0F when its page is mapped without the permission. -/
def Obligations.AccessesTrap : Prop :=
  (∀ (s : State) (f : LdForm), ∀ p ∈ loadTable f, ∀ e, readyVec s e p.1 (loadUses f p.2.1) = true → trapReady s e →
  let bad := (e.issueSet 0).filter (fun l => (s.accessTrap e.c e.x (e.base l f.n) p.2.1 permR false).isSome)
  let mask := fun (l : Lane) => e.cr.watchMask (e.base l f.n) p.2.1 true false
  let seen := (e.issueSet 0).filter (fun l => !(e.thread l).watched && mask l != 0)
  (bad ≠ [] → Completes p.1 s (fun t => TrapTaken s t e p.1
    (if bad.any (fun l => s.accessTrap e.c e.x (e.base l f.n) p.2.1 permR false == some 0x0F) then 0x0F else 0x06) e.pc bad (fun _ => 0))) ∧
  (bad = [] → seen ≠ [] → Completes p.1 s (fun t => TrapTaken s t e p.1 0x08 e.pc seen (fun l => BitVec.ofNat 32 (mask l))))) ∧
  (∀ (s : State) (c x : Nat) (va : DWord) (align : Nat) (need : BitVec 3),
  ((va.toNat / 2 ^ 47 ≠ 0 ∧ va.toNat / 2 ^ 47 ≠ 2 ^ 17 - 1) → s.accessTrap c x va align need false = some 0x0F) ∧
  ((va.toNat / 2 ^ 47 = 0 ∨ va.toNat / 2 ^ 47 = 2 ^ 17 - 1) → va.toNat % align ≠ 0 → s.accessTrap c x va align need false = some 0x06) ∧
  ((va.toNat / 2 ^ 47 = 0 ∨ va.toNat / 2 ^ 47 = 2 ^ 17 - 1) → va.toNat % align = 0 → ∀ t, s.xlate c x va = some t →
    (t.perm &&& need ≠ need → s.accessTrap c x va align need false = some 0x0F) ∧
    (t.perm &&& need = need → s.isHeader t.pa = false → s.accessTrap c x va align need false = none)) ∧
  ((va.toNat / 2 ^ 47 = 0 ∨ va.toNat / 2 ^ 47 = 2 ^ 17 - 1) → va.toNat % align = 0 → s.xlate c x va = none →
    s.accessTrap c x va align need false = none))

/-- R97, R98: `ldsp` loads words of the scratchpad into successive registers, the first to latch b3; `stsp` writes them there, and every other byte of the scratchpad and all of memory stays. -/
def Obligations.ScratchpadAccesses : Prop := ∀ (s : State) (a data : BitVec 7) (width : BitVec 2) (d : BitVec 6),
  let n := 2 ^ width.toNat
  (∀ e, readyVec s e (.ldsp a width d) { regs := codeRegs a ++ span d.toNat n, lat := codeLat a, b3 := true } = true → d.toNat + n ≤ 64 →
    (∀ l ∈ e.issueSet 0, (e.operand .int l a).toNat < 0x80000 ∧ (e.operand .int l a).toNat % (4 * n) = 0) →
    Completes (.ldsp a width d) s (fun t => LaneDone s t e (e.issueSet 0) 3 4 (fun l =>
      ((List.range n).map (fun j => (d.toNat + j, e.cr.scratch.word ((e.operand .int l a).toNat + 4 * j))),
        e.cr.scratch.word (e.operand .int l a).toNat)))) ∧
  (∀ e, readyCt s e (.ldsp a width d) { regs := codeRegs a ++ span d.toNat n, lat := codeLat a, b3 := true } = true →
    (e.operand a).lo.toNat < 0x80000 → (e.operand a).lo.toNat % (4 * n) = 0 →
    let v := fun i => BitVec.ofNat 64 (e.cr.scratch.readN ((e.operand a).lo.toNat + 8 * i) (4 * min n 2))
    Completes (.ldsp a width d) s (fun t => (n ≤ 2 → CtDone s t e 4 d.toNat (v 0)) ∧
      (n = 4 → CtDone s t { e with r := e.r.setReg d.toNat (v 0) } 4 (d.toNat + 1) (v 1)))) ∧
  (∀ e, readyVec s e (.stsp data a width) { regs := wideRegs data n ++ codeRegs a, lat := codeLat data ++ codeLat a } = true →
    (∀ l ∈ e.issueSet 0, (e.operand .int l a).toNat < 0x80000 ∧ (e.operand .int l a).toNat % (4 * n) = 0) →
    Completes (.stsp data a width) s (fun t =>
      (∀ x, (∀ l ∈ e.issueSet 0, x < (e.operand .int l a).toNat ∨ (e.operand .int l a).toNat + 4 * n ≤ x) →
        (t.core e.c).scratch.read x = (s.core e.c).scratch.read x) ∧
      (∀ l ∈ e.issueSet 0, (∀ m ∈ e.issueSet 0, m ≠ l → (e.operand .int m a).toNat ≠ (e.operand .int l a).toNat) → data.toNat ≤ 63 →
        ∀ j, j < n → (t.core e.c).scratch.word ((e.operand .int l a).toNat + 4 * j) = e.reg l (data.toNat + j)) ∧
      (t.core e.c).regs = (s.core e.c).regs ∧
      (∀ ws tid, (t.thread e.c ws tid).preds = (s.thread e.c ws tid).preds ∧ (t.thread e.c ws tid).sp = (s.thread e.c ws tid).sp) ∧
      OnlyCore s t e.c ∧ MemKept s t)) ∧
  (∀ e, readyCt s e (.stsp data a width) { regs := wideRegs data n ++ codeRegs a, lat := codeLat data ++ codeLat a } = true →
    (e.operand a).lo.toNat < 0x80000 → (e.operand a).lo.toNat % (4 * n) = 0 → n ≤ 4 →
    Completes (.stsp data a width) s (fun t =>
      (t.core e.c).scratch.readN (e.operand a).lo.toNat (4 * n) = (e.operand data).toNat % 2 ^ (32 * n) +
        (if n = 4 ∧ data.toNat ≤ 31 then 2 ^ 64 * (e.r.reg (data.toNat + 1)).toNat else 0) ∧
      (∀ x, (x < (e.operand a).lo.toNat ∨ (e.operand a).lo.toNat + 4 * n ≤ x) → (t.core e.c).scratch.read x = (s.core e.c).scratch.read x) ∧
      t.core e.c = { s.core e.c with scratch := (t.core e.c).scratch, ct := { (s.core e.c).ct with cur := ctNext e e.r 4 } } ∧
      OnlyCore s t e.c ∧ MemKept s t))

/-- R104, R397: `fence` enters the store queue of each thread of the issue set, and the thread's later loads wait for one more acquire.
R108: `wbspan` and `invspan` enter the store queue for each thread with a length and a resident page; a thread with neither does nothing; `invspan` holds the thread's later loads. -/
def Obligations.FencesAndSpansEnterTheQueue : Prop :=
  (∀ (s : State) (sc g : BitVec 3),
  (∀ e, readyVec s e (.fence sc g) { g := g } = true → e.cr.roomFor (e.issueSet g) = true → Completes (.fence sc g) s (fun t =>
    QueueFrame s t e.c ∧ LoadsGain s t e.c [] ∧ (t.core e.c).ct = (s.core e.c).ct ∧
    ThreadsBy s t e (fun l x => { goneOn e 4 x with loadHold := x.loadHold + (if l ∈ e.issueSet g then 1 else 0) }) ∧
    QueuesGain s t e.c (fun hw => ((e.issueSet g).filter (·.hw = hw)).map (fun l =>
      plainEntry (.fence sc.toNat) (e.who l) e.pc 0 0 (s.ctx e.x).gen)))) ∧
  (∀ e, readyCt s e (.fence sc g) { g := g } = true → e.cr.room ctQueue 1 = true → Completes (.fence sc g) s (fun t =>
    QueueFrame s t e.c ∧ LoadsGain s t e.c [] ∧ CtGoesOn s t e 4 ∧ (t.core e.c).ct.loadHold = (s.core e.c).ct.loadHold + 1 ∧
    QueuesGain s t e.c (fun hw => if hw = ctQueue then [plainEntry (.fence sc.toNat) e.who e.r.pc 0 0 (s.ctx e.x).gen] else [])))) ∧
  (∀ (s : State) (mode g : BitVec 3) (k : BitVec 7) (d : BitVec 6),
  ∀ p ∈ ([(.wbspan mode k d g, mode == 1, false), (.invspan k d g, false, true)] : List (Instr × Bool × Bool)),
  let u : Uses := { g := g, regs := span k.toNat 2 ++ [d.toNat] }
  (∀ e, readyVec s e p.1 u = true →
    let a := fun l => e.regPair l k.toNat
    let n := fun l => (e.reg l d.toNat).toNat
    let live := (e.issueSet g).filter (fun l => decide (n l ≠ 0) && (s.residentAt e.c e.x (a l)).isSome)
    (∀ l ∈ e.issueSet g, spanTrap (a l) (n l) = none ∧ e.cr.watchMask (a l) (n l) false true = 0) → e.cr.roomFor live = true →
    Completes p.1 s (fun t => QueueFrame s t e.c ∧ LoadsGain s t e.c [] ∧
      ThreadsBy s t e (fun l x => { goneOn e 4 x with loadHold := x.loadHold + (if l ∈ live ∧ p.2.2 then 1 else 0) }) ∧
      QueuesGain s t e.c (fun hw => (live.filter (·.hw = hw)).map (fun l =>
        plainEntry (.span (n l) p.2.1 p.2.2) (e.who l) e.pc (a l) ((s.residentAt e.c e.x (a l)).getD 0) (s.ctx e.x).gen)))) ∧
  (∀ e, readyCt s e p.1 u = true → spanTrap (e.r.reg k.toNat) (e.r.reg d.toNat).toNat = none →
    e.cr.watchMask (e.r.reg k.toNat) (e.r.reg d.toNat).toNat false true = 0 → e.cr.room ctQueue 1 = true →
    Completes p.1 s (fun t => QueueFrame s t e.c ∧ LoadsGain s t e.c [] ∧ CtGoesOn s t e 4 ∧
      QueuesGain s t e.c (fun hw => match s.residentAt e.c e.x (e.r.reg k.toNat) with
        | none => []
        | some pa => if hw = ctQueue ∧ (e.r.reg d.toNat).toNat ≠ 0 then
            [{ plainEntry (.span (e.r.reg d.toNat).toNat p.2.1 p.2.2) e.who e.r.pc (e.r.reg k.toNat) pa (s.ctx e.x).gen with run := e.r.serial }]
          else []))))

/-- R105: `acq.steal` against the issuer's own logical core acts as a fence; against a resident victim elsewhere it sends a promotion there and holds the thread's later loads; against one that is not resident it only acquires. -/
def Obligations.StealsAreAsked : Prop := ∀ (s : State) (sc g : BitVec 3) (a : BitVec 7),
  let i : Instr := .acqSteal sc a g
  let u : Uses := { g := g, regs := codeRegs a, lat := codeLat a }
  (∀ e, readyVec s e i u = true → (∀ l ∈ e.issueSet g, (e.operand .int l a).toNat < (s.ctx e.x).grid) →
    ((∀ l ∈ e.issueSet g, e.cr.lcore = some (e.operand .int l a).toNat) → e.cr.roomFor (e.issueSet g) = true → Completes i s (fun t =>
      QueueFrame s t e.c ∧ LoadsGain s t e.c [] ∧
      ThreadsBy s t e (fun l x => { goneOn e 4 x with loadHold := x.loadHold + (if l ∈ e.issueSet g then 1 else 0) }) ∧
      QueuesGain s t e.c (fun hw => ((e.issueSet g).filter (·.hw = hw)).map (fun l =>
        plainEntry (.fence sc.toNat) (e.who l) e.pc 0 0 (s.ctx e.x).gen)))) ∧
    ((∀ l ∈ e.issueSet g, e.cr.lcore ≠ some (e.operand .int l a).toNat ∧ s.isResident e.x (e.operand .int l a).toNat = true) → Completes i s (fun t =>
      QueueFrame s t e.c ∧ LoadsGain s t e.c [] ∧ QueuesGain s t e.c (fun _ => []) ∧
      ThreadsBy s t e (fun l x => { goneOn e 4 x with loadHold := x.loadHold + (if l ∈ e.issueSet g then 1 else 0) }) ∧
      t.net = s.net ++ (e.issueSet g).map (fun l =>
        let p := s.placedAt e.x (e.operand .int l a).toNat
        { who := e.who l, ctx := e.x, gen := (s.ctx e.x).gen, va := e.pc, pa := 0, req := .steal p (stealScope sc.toNat e.c p) none, hw := l.hw,
          since := s.tick }))) ∧
    ((∀ l ∈ e.issueSet g, e.cr.lcore ≠ some (e.operand .int l a).toNat ∧ s.isResident e.x (e.operand .int l a).toNat = false) → Completes i s (fun t =>
      ReadFrame s t e.c ∧ MemKept s t ∧ LoadsGain s t e.c [] ∧ ThreadsBy s t e (fun _ => goneOn e 4) ∧
      (2 ≤ sc.toNat → e.issueSet g ≠ [] → noL1 (t.core e.c) e.x)))) ∧
  (∀ e, readyCt s e i u = true → (e.operand a).toNat < (s.ctx e.x).grid → e.cr.room ctQueue 1 = true → Completes i s (fun t =>
    CtGoesOn s t e 4 ∧ LoadsGain s t e.c [] ∧
    (e.cr.lcore = some (e.operand a).toNat → QueueFrame s t e.c ∧
      QueuesGain s t e.c (fun hw => if hw = ctQueue then [plainEntry (.fence sc.toNat) e.who e.r.pc 0 0 (s.ctx e.x).gen] else [])) ∧
    (e.cr.lcore ≠ some (e.operand a).toNat → s.isResident e.x (e.operand a).toNat = true → QueueFrame s t e.c ∧
      let p := s.placedAt e.x (e.operand a).toNat
      t.net = s.net ++ [{ who := e.who, ctx := e.x, gen := (s.ctx e.x).gen, va := e.r.pc, pa := 0, req := .steal p (stealScope sc.toNat e.c p) none,
                          hw := ctQueue, since := s.tick }]) ∧
    (e.cr.lcore ≠ some (e.operand a).toNat → s.isResident e.x (e.operand a).toNat = false → ReadFrame s t e.c ∧ MemKept s t ∧
      (2 ≤ sc.toNat → noL1 (t.core e.c) e.x))))

/-- R106: `pgreq` enters the store queue with the page and the address of its completion word; R107: `prefetch` writes no register, flag or byte of memory, whatever its address. -/
def Obligations.PageRequestsAndPrefetches : Prop := ∀ (s : State) (k : BitVec 7) (j : BitVec 6) (g lvl : BitVec 3),
  let i : Instr := .pgreq k j g
  let u : Uses := { g := g, regs := span k.toNat 2 ++ span j.toNat 2 }
  let ps : List Part := [.regs k.toNat 2, .regs j.toNat 2]
  (∀ e, readyVec s e i u = true → e.cr.roomFor (e.issueSet g) = true →
    let a := fun l => BitVec.ofNat 64 (e.sourceNat l ps 0)
    let d := fun l => BitVec.ofNat 64 (e.sourceNat l ps 1)
    (∀ l ∈ e.issueSet g, canonical (a l) = true ∧ accessOk s e (d l) 4 permW false true false ∧ (s.residentAt e.c e.x (d l)).isSome) →
    Completes i s (fun t => QueueFrame s t e.c ∧ LoadsGain s t e.c [] ∧ ThreadsBy s t e (fun _ => goneOn e 4) ∧
      QueuesGain s t e.c (fun hw => ((e.issueSet g).filter (·.hw = hw)).map (fun l =>
        plainEntry (.pgreq (d l)) (e.who l) e.pc (a l) ((s.residentAt e.c e.x (d l)).getD 0) (s.ctx e.x).gen)))) ∧
  (∀ e, readyCt s e i u = true → e.cr.room ctQueue 1 = true → canonical (e.r.reg k.toNat) = true →
    accessOkCt s e (e.r.reg j.toNat) 4 permW false true false → (s.residentAt e.c e.x (e.r.reg j.toNat)).isSome →
    Completes i s (fun t => QueueFrame s t e.c ∧ LoadsGain s t e.c [] ∧ CtGoesOn s t e 4 ∧
      QueuesGain s t e.c (fun hw => if hw = ctQueue then [{ plainEntry (.pgreq (e.r.reg j.toNat)) e.who e.r.pc (e.r.reg k.toNat)
        ((s.residentAt e.c e.x (e.r.reg j.toNat)).getD 0) (s.ctx e.x).gen with run := e.r.serial }] else []))) ∧
  (NoErrors s →
    (∀ e, readyVec s e (.prefetch lvl k g) { g := g, regs := span k.toNat 2 } = true → Completes (.prefetch lvl k g) s (fun t =>
      ReadFrame s t e.c ∧ LoadsGain s t e.c [] ∧ ThreadsBy s t e (fun _ => goneOn e 4))) ∧
    (∀ e, readyCt s e (.prefetch lvl k g) { g := g, regs := span k.toNat 2 } = true → Completes (.prefetch lvl k g) s (fun t =>
      ReadFrame s t e.c ∧ LoadsGain s t e.c [] ∧ CtGoesOn s t e 4)))

/-- R109, R110, R211: an engine command is posted once, by the lowest-lane thread of the issue set, through its home warp's store queue, with the argument slots v56-v63 (s24-s31 of a control thread, with its guard), taken as it issues (the model's choice, assumption 56); nothing else changes, and an empty issue set posts nothing. -/
def Obligations.EngineCommandsArePosted : Prop := ∀ (s : State) (c : CopyForm) (m : MmxForm) (t' : MtileForm) (l' : MldForm) (k : CollForm)
  (a b : BitVec 7) (bar : BitVec 4) (x y : BitVec 2) (g : BitVec 3), ∀ p ∈ postTable c m t' l' k a b bar x y g,
  let u : Uses := { g := p.2.1, regs := argRegs s.issuer }
  (∀ e, readyVec s e p.1 u = true →
    ((∃ l, (e.issueSet p.2.1).head? = some l ∧ e.cr.room l.hw 1 = false) → Completes p.1 s (fun t => Waits s t e)) ∧
    ((∀ l, (e.issueSet p.2.1).head? = some l → e.cr.room l.hw 1 = true) → Completes p.1 s (fun t =>
      QueueFrame s t e.c ∧ LoadsGain s t e.c [] ∧ ThreadsBy s t e (fun _ => goneOn e 4) ∧ (t.core e.c).ct = (s.core e.c).ct ∧
      QueuesGain s t e.c (fun hw => match e.issueSet p.2.1 with
        | [] => []
        | l :: _ => if hw = l.hw then [plainEntry (.command (p.2.2.command s.nextId (e.who l) e.c e.x (s.ctx e.x).gen e.g.launch
            ((List.range 8).map (fun j => e.reg l (56 + j))) none e.g.prio s.tick)) (e.who l) e.pc 0 0 (s.ctx e.x).gen] else [])))) ∧
  (∀ e, readyCt s e p.1 u = true →
    let n := e.r.run.launch?.getD 0
    (e.cr.room ctQueue 1 = false → exec p.1 s = .next s) ∧
    (e.cr.room ctQueue 1 = true → Completes p.1 s (fun t =>
      QueueFrame s t e.c ∧ LoadsGain s t e.c [] ∧ CtGoesOnBy s t e false 0 ∧
      QueuesGain s t e.c (fun hw => if hw = ctQueue then
        [{ plainEntry (.command (p.2.2.command s.nextId e.who e.c e.x (s.ctx e.x).gen n ((List.range 8).map (fun j => (e.r.reg (24 + j)).lo)) e.r.grd
          (((s.launch e.x n).map (·.prio)).getD 0) s.tick)) e.who e.r.pc 0 0 (s.ctx e.x).gen with run := e.r.serial }] else []))))

/-- R119, R120, R32: `qpop` takes the next filled slot of a circular buffer, `qrel` releases the oldest popped one once the threads' stores have drained, `qstat` reads the counters; `qpop` of an empty buffer parks. With an empty issue set the warp only goes on. -/
def Obligations.CircularBuffersMove : Prop := ∀ (s : State) (q : BitVec 4) (n : BitVec 1) (d : BitVec 6) (g : BitVec 3),
  (∀ e, readyVec s e (.qpop q n d g) { g := g, regs := destRegs n d } = true → e.issueSet g = [] → Completes (.qpop q n d g) s (fun t => GoesOn s t e)) ∧
  (∀ e, readyVec s e (.qrel q g) { g := g } = true → e.issueSet g = [] → Completes (.qrel q g) s (fun t => GoesOn s t e)) ∧
  (∀ e, readyVec s e (.qpop q n d g) { g := g, regs := destRegs n d } = true → e.issueSet g ≠ [] →
    let b := e.cr.cbuf q.toNat
    (b.filled = 0 → Completes (.qpop q n d g) s (fun t => Parks s t e (e.issueSet g) (fun _ => .qpop q.toNat))) ∧
    (b.filled ≠ 0 → Completes (.qpop q n d g) s (fun t =>
      (t.core e.c).cbuf q.toNat = { b with pop := (b.pop + 1) % b.count, filled := b.filled - 1, popped := b.popped + 1 } ∧
      (∀ j, j ≠ q.toNat → (t.core e.c).cbuf j = (s.core e.c).cbuf j) ∧
      RegsAt s t e.c (e.issueSet g) (fun _ => oneReg n d (slotWord b)) ∧ ThreadsBy s t e (fun _ => goneOn e 4) ∧
      CoreFrame s t e.c (fun z y => { y with cbufs := z.cbufs })))) ∧
  (∀ e, readyCt s e (.qpop q n d g) { g := g, regs := destRegs n d } = true →
    let b := e.cr.cbuf q.toNat
    (b.filled = 0 → Completes (.qpop q n d g) s (fun t => ParksCt s t e (.qpop q.toNat))) ∧
    (b.filled ≠ 0 → Completes (.qpop q n d g) s (fun t =>
      (t.core e.c).cbuf q.toNat = { b with pop := (b.pop + 1) % b.count, filled := b.filled - 1, popped := b.popped + 1 } ∧
      (t.core e.c).ct.cur.reg d.toNat = (slotWord b).setWidth 64 ∧ (t.core e.c).regs = (s.core e.c).regs ∧
      CoreFrame s t e.c (fun z y => { y with cbufs := z.cbufs })))) ∧
  (∀ e, readyVec s e (.qrel q g) { g := g } = true → e.issueSet g ≠ [] → (∀ l ∈ e.issueSet g, e.cr.queue l.hw = []) →
    let b := e.cr.cbuf q.toNat
    Completes (.qrel q g) s (fun t =>
      (t.core e.c).cbuf q.toNat = (if b.popped = 0 then b else { b with rel := (b.rel + 1) % b.count, free := b.free + 1, popped := b.popped - 1 }) ∧
      (∀ j, j ≠ q.toNat → (t.core e.c).cbuf j = (s.core e.c).cbuf j) ∧ (t.core e.c).regs = (s.core e.c).regs ∧
      ThreadsBy s t e (fun _ => goneOn e 4) ∧ CoreFrame s t e.c (fun z y => { y with cbufs := z.cbufs }))) ∧
  (∀ e, readyCt s e (.qrel q g) { g := g } = true → e.cr.queue ctQueue = [] →
    let b := e.cr.cbuf q.toNat
    Completes (.qrel q g) s (fun t =>
      (t.core e.c).cbuf q.toNat = (if b.popped = 0 then b else { b with rel := (b.rel + 1) % b.count, free := b.free + 1, popped := b.popped - 1 }) ∧
      (t.core e.c).regs = (s.core e.c).regs ∧ CtGoesOn s t e 4 ∧ CoreFrame s t e.c (fun z y => { y with cbufs := z.cbufs }))) ∧
  OneRegister s (.qstat q n d g) { g := g, regs := destRegs n d, b3 := true } 3 4 n d
    (fun e _ => BitVec.ofNat 32 ((e.cr.cbuf q.toNat).filled * 65536 + (e.cr.cbuf q.toNat).free))
    (fun e => (BitVec.ofNat 32 ((e.cr.cbuf q.toNat).filled * 65536 + (e.cr.cbuf q.toNat).free) : Word).setWidth 64)

/-- R121: `cwait` with no command left to wait for gives the barrier's status, its predicate and an acquire; the threads that have not waited yet park while a command of theirs is left, and those that have stay to issue it again; threads of several home warps wait for the commands in the queues of all of them (the model's choice, assumption 69), and which commands a wait takes in is read as assumption 23 says; `ctest` gives the status with bit 30 where a command is left; `cclr` clears the error phase and the first code, but for a completion that faulted in the same tick (R115).
R121, R206: `cwait.e` in the error phase raises ENGINE_ERR with the first code: a thread with a handler enters it, threads with none trap UNHANDLED_EFFECT at the instruction, and so does the control thread. -/
def Obligations.CompletionBarriersAreWaited : Prop := ∀ (s : State) (f : CwaitForm) (h : CtestForm) (cb : BitVec 4) (g : BitVec 3),
  let u : Uses := { g := f.g, regs := destRegs f.w f.d, preds := f.k != 0 }
  let v : Uses := { g := h.g, regs := destRegs h.w h.d, preds := h.k != 0, b3 := true }
  (∀ e, readyVec s e (.cwait f) u = true →
    let b := e.cr.cbar f.c.toNat
    let fresh := (e.issueSet f.g).filter (fun l => (e.captured l).isNone)
    let left := if fresh = [] then [] else waitsFor s e.c f.c.toNat (fresh.flatMap (fun m => e.cr.queue m.hw))
    (left ≠ [] → Completes (.cwait f) s (fun t => ParksBut s t e fresh (e.issueSet f.g) (e.issueSet f.g) (fun _ => .cwait f.c.toNat left))) ∧
    (e.issueSet f.g = [] → Completes (.cwait f) s (fun t => GoesOn s t e)) ∧
    (left = [] → e.issueSet f.g ≠ [] → (b.error = false ∨ f.e = 0) → Completes (.cwait f) s (fun t =>
      RegsAt s t e.c (e.issueSet f.g) (fun _ => oneReg f.w f.d (barStatus b)) ∧
      ThreadsBy s t e (fun l x => goneOn e 4 (reachedAt (e.issueSet f.g) l (if l ∈ e.issueSet f.g then x.setPred f.k.toNat (barStatus b == 0) else x))) ∧
      noL1 (t.core e.c) e.x ∧ CoreFrame s t e.c (fun z y => { y with l1 := z.l1 }))) ∧
    (left = [] → b.error = true → f.e = 1 → 64 ≤ e.g.nregs → e.issueSet f.g ≠ [] → (∀ l ∈ e.issueSet f.g, (e.thread l).frames = []) → trapReady s e →
      Completes (.cwait f) s (fun t => TrapTaken s t e (.cwait f) 0x0A e.pc (e.issueSet f.g) (fun _ => 6))) ∧
    (∀ l n fr st, left = [] → b.error = true → f.e = 1 → e.issueSet f.g = [l] → HandlerReady s e l 6 n fr → s.stageOf e.g = some st →
      Completes (.cwait f) s (fun t => HandlerEntered s t e l st 6 (BitVec.ofNat 32 b.code) fr))) ∧
  (∀ e, readyCt s e (.cwait f) u = true →
    let b := e.cr.cbar f.c.toNat
    let left := if e.r.waited then [] else waitsFor s e.c f.c.toNat (e.cr.queue ctQueue)
    (left ≠ [] → Completes (.cwait f) s (fun t => ParksCt s t e (.cwait f.c.toNat left))) ∧
    (left = [] → b.error = true → f.e = 1 → trapReadyCt s e →
      Completes (.cwait f) s (fun t => TrapTakenCt s t e 0x0A e.r.pc 6 (BitVec.ofNat 64 (b.code % 2 ^ 32)))) ∧
    (left = [] → (b.error = false ∨ f.e = 0) → noneAway s e.c (Park.awaitsFlag f.k.toNat (barStatus b == 0)) → Completes (.cwait f) s (fun t =>
      (t.core e.c).ct.cur.reg f.d.toNat = (barStatus b).setWidth 64 ∧
      (∀ j, (t.core e.c).flag j = (if j = f.k.toNat ∧ j ≠ 0 then barStatus b == 0 else (s.core e.c).flag j)) ∧
      (∀ ws tid, t.thread e.c ws tid = leftPark (Park.awaitsFlag f.k.toNat (barStatus b == 0)) true (s.thread e.c ws tid)) ∧
      noL1 (t.core e.c) e.x ∧ (t.core e.c).regs = (s.core e.c).regs ∧
      CoreFrame s t e.c (fun z y => { y with l1 := z.l1, flags := z.flags })))) ∧
  (∀ e, readyVec s e (.ctest h) v = true →
    let left := s.awaited e.c h.c.toNat ((e.issueSet h.g).flatMap (fun m => e.cr.queue m.hw))
    let w := barStatus (e.cr.cbar h.c.toNat) ||| (if left = [] then 0 else 0x40000000)
    Completes (.ctest h) s (fun t => RegsAt s t e.c (e.issueSet h.g) (fun _ => oneReg h.w h.d w) ∧ LatchesAt t e (e.issueSet h.g) 3 (fun _ => w) ∧
      ThreadsBy s t e (fun l x => goneOn e 4 (if l ∈ e.issueSet h.g then x.setPred h.k.toNat (w == 0) else x)) ∧
      (left = [] → e.issueSet h.g ≠ [] → noL1 (t.core e.c) e.x) ∧ CoreFrame s t e.c (fun z y => { y with l1 := z.l1 }))) ∧
  (∀ e, readyCt s e (.ctest h) v = true →
    let left := s.awaited e.c h.c.toNat (e.cr.queue ctQueue)
    let w := barStatus (e.cr.cbar h.c.toNat) ||| (if left = [] then 0 else 0x40000000)
    noneAway s e.c (Park.awaitsFlag h.k.toNat (w == 0)) →
    Completes (.ctest h) s (fun t => (∀ ws tid, t.thread e.c ws tid = leftPark (Park.awaitsFlag h.k.toNat (w == 0)) true (s.thread e.c ws tid)) ∧
      (t.core e.c).ct.cur.reg h.d.toNat = w.setWidth 64 ∧
      (∀ j, (t.core e.c).flag j = (if j = h.k.toNat ∧ j ≠ 0 then w == 0 else (s.core e.c).flag j)) ∧
      (t.core e.c).regs = (s.core e.c).regs ∧ CoreFrame s t e.c (fun z y => { y with l1 := z.l1, flags := z.flags }))) ∧
  (∀ e, readyVec s e (.cclr cb g) { g := g } = true → e.issueSet g = [] → Completes (.cclr cb g) s (fun t => GoesOn s t e)) ∧
  (∀ e, readyVec s e (.cclr cb g) { g := g } = true → e.issueSet g ≠ [] → Completes (.cclr cb g) s (fun t =>
    (t.core e.c).cbar cb.toNat = barCleared (e.cr.cbar cb.toNat) s.tick ∧
    (∀ j, j ≠ cb.toNat → (t.core e.c).cbar j = (s.core e.c).cbar j) ∧ (t.core e.c).regs = (s.core e.c).regs ∧
    ThreadsBy s t e (fun _ => goneOn e 4) ∧ CoreFrame s t e.c (fun z y => { y with cbars := z.cbars }))) ∧
  (∀ e, readyCt s e (.cclr cb g) { g := g } = true → Completes (.cclr cb g) s (fun t =>
    (t.core e.c).cbar cb.toNat = barCleared (e.cr.cbar cb.toNat) s.tick ∧ CtGoesOn s t e 4 ∧
    (t.core e.c).regs = (s.core e.c).regs ∧ CoreFrame s t e.c (fun z y => { y with cbars := z.cbars })))

/-- R122, R210: `fset` and `fclr` write one flag once the issuer's stores have drained, and wake the threads that wait for its value, in a workgroup that is away too, which becomes runnable; a flag that the control thread has written in the same tick keeps its value against a lane's `fset`; a wait for a value the flag has does not block, and any other parks. f0 is never written.
R122, R210, R32: the two 16-entry queues between the lanes and the control thread: an entry goes in at the end and comes out at the front, to every thread of the issue set; a send to a full queue and a receive from an empty one park, and the other side's next entry or room lets them go.
R211, R212: `gset` resolves a guard slot to whether its source is not 0, `gclr` makes it unresolved, and `grd` places the next instruction under one. -/
def Obligations.FlagsQueuesAndGuards : Prop :=
  (∀ (s : State) (z : BitVec 1) (k : BitVec 5) (g : BitVec 3),
  (∀ e, readyVec s e (.fset z k g) { g := g } = true → e.issueSet g = [] → Completes (.fset z k g) s (fun t => GoesOn s t e)) ∧
  (∀ e, readyVec s e (.fset z k g) { g := g } = true → e.issueSet g ≠ [] →
    let late := SMap.get none k.toNat e.cr.flagAt == some s.tick
    let met := fun (p : Park) => !late && Park.awaitsFlag k.toNat (z == 0) p
    ((∃ l ∈ e.issueSet g, e.cr.queue l.hw ≠ []) → Completes (.fset z k g) s (fun t => Waits s t e)) ∧
    ((∀ l ∈ e.issueSet g, e.cr.queue l.hw = []) → noneAway s e.c met → Completes (.fset z k g) s (fun t =>
      (∀ j, (t.core e.c).flag j = (if j = k.toNat ∧ j ≠ 0 ∧ late = false then z == 0 else (s.core e.c).flag j)) ∧
      (∀ l ∈ e.lanes, (∀ m ∈ e.lanes, m.tid = l.tid → m = l) →
        t.thread e.c e.ws l.tid = goneOn e 4 (leftPark met true (s.thread e.c e.ws l.tid))) ∧
      (∀ ws tid, (ws ≠ e.ws ∨ ∀ l ∈ e.lanes, l.tid ≠ tid) → t.thread e.c ws tid = leftPark met true (s.thread e.c ws tid)) ∧
      (t.core e.c).regs = (s.core e.c).regs ∧ CoreFrame s t e.c (fun a y => { y with flags := a.flags })))) ∧
  (∀ e, readyVec s e (.fwait z k g) { g := g } = true →
    let wait := (e.issueSet g).filter (fun l => (e.captured l).isNone && e.cr.flag k.toNat != (z == 0))
    (wait = [] → Completes (.fwait z k g) s (fun t => ThreadsBy s t e (fun l x => goneOn e 4 (reachedAt (e.issueSet g) l x)) ∧
      (t.core e.c).regs = (s.core e.c).regs ∧
      (t.core e.c).warp e.k = none ∧ WarpOnly (s.core e.c) (t.core e.c) e.k e.ws ∧ OnlyCore s t e.c ∧ MemKept s t)) ∧
    (wait ≠ [] → Completes (.fwait z k g) s (fun t => ParksBut s t e wait [] (e.issueSet g) (fun _ => .flag k.toNat (z == 0))))) ∧
  (∀ p ∈ ([(.ctFset k g, true), (.fclr k g, false)] : List (Instr × Bool)), ∀ e, readyCt s e p.1 { g := g } = true →
    (e.cr.queue ctQueue ≠ [] → exec p.1 s = .next s) ∧
    (e.cr.queue ctQueue = [] → Completes p.1 s (fun t =>
      (∀ j, (t.core e.c).flag j = (if j = k.toNat ∧ j ≠ 0 then p.2 else (s.core e.c).flag j)) ∧
      SMap.get none k.toNat (t.core e.c).flagAt = some s.tick ∧ CtGoesOn s t e 4 ∧ (t.core e.c).regs = (s.core e.c).regs ∧
      (∀ ws x tid, (s.core e.c).wg ws = some x → x.state ≠ .resident → (x.thread tid).live = true → Park.awaitsFlag k.toNat p.2 (x.thread tid).park = true →
        ∃ y, (t.core e.c).wg ws = some y ∧ (y.thread tid).park = .none ∧ (y.thread tid).woken = true ∧
          (x.state = .evictedWaiting → y.state = .evictedRunnable)) ∧
      (noneAway s e.c (Park.awaitsFlag k.toNat p.2) →
        (∀ ws tid, t.thread e.c ws tid = leftPark (Park.awaitsFlag k.toNat p.2) true (s.thread e.c ws tid)) ∧
        CoreFrame s t e.c (fun a y => { y with flags := a.flags, flagAt := a.flagAt }))))) ∧
  (∀ e, readyCt s e (.ctFwait k z g) { g := g, preds := true } = true →
    (e.r.waited = true ∨ e.cr.flag k.toNat = (z == 0) → Completes (.ctFwait k z g) s (fun t => CtGoesOn s t e 4 ∧
      t.core e.c = { s.core e.c with ct := (t.core e.c).ct } ∧ OnlyCore s t e.c ∧ MemKept s t)) ∧
    (e.r.waited = false → e.cr.flag k.toNat ≠ (z == 0) → Completes (.ctFwait k z g) s (fun t => ParksCt s t e (.flag k.toNat (z == 0)))))) ∧
  (∀ (s : State) (n : BitVec 1) (d : BitVec 6) (a : BitVec 7) (g : BitVec 3),
  (∀ e, readyVec s e (.qrv n d g) { g := g, regs := destPair n d } = true → e.issueSet g = [] → Completes (.qrv n d g) s (fun t => GoesOn s t e)) ∧
  (∀ e, readyVec s e (.qsv a d g) { g := g, regs := codeRegs a ++ [d.toNat], lat := codeLat a } = true → e.issueSet g = [] →
    Completes (.qsv a d g) s (fun t => GoesOn s t e)) ∧
  (∀ e, readyVec s e (.qrv n d g) { g := g, regs := destPair n d } = true → e.issueSet g ≠ [] →
    (e.cr.toLane = [] → Completes (.qrv n d g) s (fun t => Parks s t e (e.issueSet g) (fun _ => .qrv))) ∧
    (∀ v rest, e.cr.toLane = v :: rest → Completes (.qrv n d g) s (fun t => (t.core e.c).toLane = rest ∧
      RegsAt s t e.c (e.issueSet g) (fun _ => if n = 0 then [(d.toNat, v.lo), (d.toNat + 1, v.hi)] else []) ∧
      ThreadsBy s t e (fun _ => goneOn e 4) ∧ (t.core e.c).ct = ctReleased (s.core e.c).ct .qsv ∧
      CoreFrame s t e.c (fun z y => { y with toLane := z.toLane })))) ∧
  (∀ e, readyVec s e (.qsv a d g) { g := g, regs := codeRegs a ++ [d.toNat], lat := codeLat a } = true → ∀ l, (e.issueSet g).head? = some l →
    let ps : List Part := [.code a 1, .regs d.toNat 1]
    let ws := e.sources l ps
    let v := dword ((ws.getD 0 []).getD 0 0) ((ws.getD 1 []).getD 0 0)
    (e.captured l = none → v = dword (e.operand .int l a) (e.reg l d.toNat)) ∧
    ((∃ m ∈ e.issueSet g, e.cr.queue m.hw ≠ []) → Completes (.qsv a d g) s (fun t => Waits s t e)) ∧
    ((∀ m ∈ e.issueSet g, e.cr.queue m.hw = []) → 16 ≤ e.cr.toCt.length → Completes (.qsv a d g) s (fun t =>
      ThreadsBy s t e (fun m x => if m ∈ e.issueSet g then { parkedAt .qsv x with capture := some { pc := e.pc, words := e.captureOf m ps } }
        else goneOn e 4 x) ∧
      (t.core e.c).warp e.k = none ∧ (t.core e.c).regs = (s.core e.c).regs ∧ WarpOnly (s.core e.c) (t.core e.c) e.k e.ws ∧ OnlyCore s t e.c ∧
      MemKept s t)) ∧
    ((∀ m ∈ e.issueSet g, e.cr.queue m.hw = []) → e.cr.toCt.length < 16 → Completes (.qsv a d g) s (fun t =>
      (t.core e.c).toCt = e.cr.toCt ++ [v] ∧ (t.core e.c).regs = (s.core e.c).regs ∧ ThreadsBy s t e (fun _ => goneOn e 4) ∧
      (t.core e.c).ct = ctReleased (s.core e.c).ct .qrv ∧ CoreFrame s t e.c (fun z y => { y with toCt := z.toCt })))) ∧
  (∀ e, readyCt s e (.qsend a g) { g := g, regs := codeRegs a } = true →
    (e.cr.queue ctQueue ≠ [] → exec (.qsend a g) s = .next s) ∧
    (e.cr.queue ctQueue = [] → 16 ≤ e.cr.toLane.length → Completes (.qsend a g) s (fun t => ParksCt s t e .qsv)) ∧
    (e.cr.queue ctQueue = [] → e.cr.toLane.length < 16 → noneAway s e.c (· == .qrv) → Completes (.qsend a g) s (fun t =>
      (t.core e.c).toLane = e.cr.toLane ++ [e.operand a] ∧
      CtGoesOn s t e 4 ∧ (∀ ws tid, t.thread e.c ws tid = leftPark (· == .qrv) false (s.thread e.c ws tid)) ∧
      (t.core e.c).regs = (s.core e.c).regs ∧ CoreFrame s t e.c (fun z y => { y with toLane := z.toLane })))) ∧
  (∀ e, readyCt s e (.qrecv d g) { g := g, regs := [d.toNat] } = true →
    (e.cr.toCt = [] → Completes (.qrecv d g) s (fun t => ParksCt s t e .qrv)) ∧
    (∀ v rest, e.cr.toCt = v :: rest → noneAway s e.c (· == .qsv) → Completes (.qrecv d g) s (fun t => (t.core e.c).toCt = rest ∧
      (t.core e.c).ct = { (s.core e.c).ct with cur := ctNext e (e.r.setReg d.toNat v) 4 } ∧
      (∀ ws tid, t.thread e.c ws tid = leftPark (· == .qsv) false (s.thread e.c ws tid)) ∧
      (t.core e.c).regs = (s.core e.c).regs ∧ CoreFrame s t e.c (fun z y => { y with toCt := z.toCt }))))) ∧
  (∀ (s : State) (a : BitVec 7) (k : BitVec 4) (g : BitVec 3),
  (∀ e, readyCt s e (.gset a k g) { g := g, regs := codeRegs a } = true → Completes (.gset a k g) s (fun t =>
    (∀ j, (t.core e.c).guardSlot j = if j = k.toNat then some (decide (e.operand a ≠ 0)) else (s.core e.c).guardSlot j) ∧
    (∀ j, SMap.get 0 j (t.core e.c).guardWait = if j = k.toNat then storesWait (e.cr.queue ctQueue) else SMap.get 0 j e.cr.guardWait) ∧
    CtGoesOn s t e 4 ∧ (t.core e.c).regs = (s.core e.c).regs ∧
    CoreFrame s t e.c (fun z y => { y with guards := z.guards, guardWait := z.guardWait }))) ∧
  (∀ e, readyCt s e (.gclr k g) { g := g } = true → Completes (.gclr k g) s (fun t =>
    (∀ j, (t.core e.c).guardSlot j = if j = k.toNat then none else (s.core e.c).guardSlot j) ∧
    (∀ j, SMap.get 0 j (t.core e.c).guardWait = if j = k.toNat then 0 else SMap.get 0 j e.cr.guardWait) ∧ CtGoesOn s t e 4 ∧
    (t.core e.c).regs = (s.core e.c).regs ∧ CoreFrame s t e.c (fun z y => { y with guards := z.guards, guardWait := z.guardWait }))) ∧
  (∀ e, readyCt s e (.grd k g) { g := g } = true → Completes (.grd k g) s (fun t =>
    (t.core e.c).ct = { (s.core e.c).ct with cur := { (ctNext e (s.core e.c).ct.cur 4) with grd := some k.toNat } } ∧
    t.core e.c = { s.core e.c with ct := (t.core e.c).ct } ∧ OnlyCore s t e.c ∧ MemKept s t)))

/-- R63, R64, R216: `rdtick`, `rdtick.hi` and `rdid` write the tick's halves or an identity, zero-extended, to each thread of the issue set, in a launch that neither records nor replays; the control thread's forms write the whole tick, or its identity, and count as one more read of the prologues of its launch on its logical core, which share their count (the model's choice, assumptions 21 and 37).
R288, R289: a recorded read takes the true value and enters it in the buffer with its key while the buffer has room; a replayed one gives the value of the entry with its key. -/
def Obligations.TicksAndIdentitiesAreRead : Prop :=
  (∀ (s : State) (n : BitVec 1) (d : BitVec 6) (g w : BitVec 3),
  (∀ p ∈ ([(.rdtick n d g, fun _ _ => s.tick.lo), (.rdtickHi n d g, fun _ _ => s.tick.hi),
           (.rdid w n d g, fun e l => BitVec.ofNat 32 (identityOf s e.x e.c l.hw e.g.launch w.toNat))] : List (Instr × (Env → Lane → Word))),
    ∀ e, readyVec s e p.1 { g := g, regs := destRegs n d } = true → noRecord s e.x e.g.launch → Completes p.1 s (fun t =>
      RegsAt s t e.c (e.issueSet g) (fun l => oneReg n d (p.2 e l)) ∧ LatchesAt t e (e.issueSet g) 0 (p.2 e) ∧
      ThreadsBy s t e (fun l x => goneOn e 4 { x with recSeq := x.recSeq + (if l ∈ e.issueSet g then 1 else 0) }) ∧
      WarpOnly (s.core e.c) (t.core e.c) e.k e.ws ∧ OnlyCore s t e.c ∧ MemKept s t)) ∧
  (∀ p ∈ ([(.ctRdtick d g, fun _ => s.tick), (.ctRdid w d g, fun e => BitVec.ofNat 64 (identityCtOf s e w.toNat))] : List (Instr × (CEnv → DWord))),
    ∀ e, readyCt s e p.1 { g := g, regs := [d.toNat] } = true → (∀ k, e.r.run.launch? = some k → noRecord s e.x k) → Completes p.1 s (fun t =>
      t.core e.c = { s.core e.c with ct := { (s.core e.c).ct with
        cur := ctNext e (e.r.setReg d.toNat (p.2 e)) 4 } } ∧
      (∀ j, j ≠ e.c → t.core j = s.core j) ∧ t = { s with cores := t.cores, ctxs := t.ctxs } ∧ MemKept s t ∧
      (∀ y, t.ctx y = { s.ctx y with launches := (t.ctx y).launches }) ∧
      ∀ y n, t.launch y n = (s.launch y n).map (fun l => if y = e.x ∧ e.r.run.launch? = some n then
        { l with ctReads := SMap.set 0 (e.cr.lcore.getD 0) (s.ctReads e.x n (e.cr.lcore.getD 0) + 1) l.ctReads } else l)))) ∧
  (∀ (s : State) (x n : Nat) (key seq : Word) (v : DWord) (l : Launch), s.launch x n = some l →
  (l.detMode = 0 → s.recordedRead x n key seq v = (v, s)) ∧
  (l.detMode = 1 → (s.recordedRead x n key seq v).1 = v ∧
    (64 + 16 * l.count + 16 * (((s.devLoad x l.recBase).getD 0).toNat + 1) ≤ l.recSize → (s.recordedRead x n key seq v).2 =
      (s.devStores x (l.recBase + BitVec.ofNat 64 (64 + 16 * l.count + 16 * ((s.devLoad x l.recBase).getD 0).toNat)) [v.lo, v.hi, seq, key]).devStore x
        l.recBase ((s.devLoad x l.recBase).getD 0 + 1))) ∧
  (l.detMode = 2 → ∀ i < l.recN, let a := l.recBase + BitVec.ofNat 64 (64 + 16 * l.count + 16 * i)
    s.devLoad x (a + 8) = some seq → s.devLoad x (a + 12) = some key →
    (∀ j < i, let b := l.recBase + BitVec.ofNat 64 (64 + 16 * l.count + 16 * j)
      s.devLoad x (b + 8) ≠ some seq ∨ s.devLoad x (b + 12) ≠ some key) →
    (s.recordedRead x n key seq v).1 = dword ((s.devLoad x a).getD 0) ((s.devLoad x (a + 4)).getD 0)))

/-- R135-R138, R140: `bcount`, `bshare`, `biter` and `bnext` of a bound bag send one request for each thread of the issue set to the bag's home, with a pending result for each destination, and the thread goes on; a `bnext` holds its later loads for its reply. -/
def Obligations.BagQueriesAreAsked : Prop := ∀ (s : State) (h : BitVec 4) (k : BitVec 7) (n : BitVec 1) (d : BitVec 6) (g : BitVec 3),
  ∀ p ∈ bagTable h k n d g,
  let (i, u, slot, req, dv, dc, hold) := p
  (∀ e, readyVec s e i u = true →
    let hd := fun l => s.slotHeader e.x e.g.launch (slotBy h slot (fun j => e.reg l j))
    (slot = none → ∀ l ∈ e.issueSet g, hd l ≠ 0) → Completes i s (fun t =>
      QueueFrame s t e.c ∧ QueuesGain s t e.c (fun _ => []) ∧
      ThreadsBy s t e (fun l x => { goneOn e 4 x with loadHold := x.loadHold + (if l ∈ e.issueSet g ∧ hold then 1 else 0) }) ∧
      (e.x = s.coreCtx e.c → LoadsGain s t e.c ((e.issueSet g).flatMap (fun l => dv.map (fun q =>
        { bagLoad s i (e.who l) e.x e.pc (hd l) q.1 q.2 (if hold ∧ q.2 = 8 then 4 else 0) with late := hold && q.2 == 12 })))) ∧
      t.net = s.net ++ (e.issueSet g).map (fun l => bagRequest s (e.who l) e.x (hd l) (req (fun j => e.reg l j)) (some s.nextId)))) ∧
  (∀ e, readyCt s e i u = true →
    let hd := s.slotHeaderCt e (slotBy h slot (fun j => (e.r.reg j).lo))
    (slot = none → hd ≠ 0) → Completes i s (fun t =>
      QueueFrame s t e.c ∧ QueuesGain s t e.c (fun _ => []) ∧ CtGoesOn s t e 4 ∧
      (t.core e.c).ct.loadHold = (s.core e.c).ct.loadHold + (if hold then 1 else 0) ∧
      LoadsGain s t e.c (dc.map (fun q => bagLoad s i e.who e.x e.r.pc hd q.1 q.2 (if hold ∧ q.2 = 8 then 4 else 0))) ∧
      t.net = s.net ++ [bagRequest s e.who e.x hd (req (fun j => (e.r.reg j).lo)) (some s.nextId)]))

/-- R133: `bput` enters the store queue with its key and record and holds its thread; R141: `bdrain` enters the store queue with the record's address and a pending result; R142: `bgrow` sends its target to the bag's home and holds its thread.
R192, R193: `wqenter` registers each thread of the issue set that is not registered with the slot's work bag, `wqleave` deregisters each that is, and `wqwait` of registered threads on a share of the bag sends their waits to the Lengthsman and holds them. -/
def Obligations.BagWritesAndWorkersAreAsked : Prop :=
  (∀ (s : State) (f : BputForm) (h : BitVec 4) (k : BitVec 7) (n : BitVec 1) (d : BitVec 6) (g : BitVec 3),
  (∀ e, readyVec s e (.bput f) { regs := codeRegs f.k ++ span f.r.toNat (2 * 2 ^ f.z.toNat), lat := codeLat f.k } = true →
    let hd := s.slotHeader e.x e.g.launch f.h.toNat
    hd ≠ 0 → (∀ b, s.bagAt e.x hd = some b → b.size = f.z.toNat ∧ ∀ i < b.shareCount * b.stride / 65536, ∀ t,
      s.walk e.x (b.area + BitVec.ofNat 64 (65536 * i)) = some t → t.grants permW = true) → e.cr.watchMask hd 4 true true = 0 →
    (e.cr.roomFor (e.issueSet 0) = false → Completes (.bput f) s (fun t => Waits s t e)) ∧
    (e.cr.roomFor (e.issueSet 0) = true → Completes (.bput f) s (fun t => QueueFrame s t e.c ∧ LoadsGain s t e.c [] ∧
      ThreadsTo s t e (fun l x => if l ∈ e.issueSet 0 then
        { parkedAt (.staithe f.s.toNat) x with capture := some { pc := e.pc, words := e.captureOf l (putParts f) } } else goneOn e 4 x) ∧
      QueuesGain s t e.c (fun hw => ((e.issueSet 0).filter (·.hw = hw)).map (fun l =>
        let ws := e.sources l (putParts f)
        plainEntry (.put s.nextId hd ((ws.getD 0 []).getD 0 0) (ws.getD 1 [])) (e.who l) e.pc hd (s.bagHome e.c e.x hd) (s.ctx e.x).gen))))) ∧
  (let i : Instr := .bdrain k n d g
   let u : Uses := { g := g, regs := span k.toNat 2 ++ destRegs n d, b3 := true }
   (∀ e, readyVec s e i u = true → e.x = s.coreCtx e.c →
     let a := fun l => BitVec.ofNat 64 (e.sourceNat l [.regs k.toNat 2] 0)
     (∀ l ∈ e.issueSet g, e.cr.watchMask (a l) (s.recordSize e.x (a l)) true true = 0) →
     (e.cr.roomFor (e.issueSet g) = false → Completes i s (fun t => Waits s t e)) ∧
     (e.cr.roomFor (e.issueSet g) = true → Completes i s (fun t => QueueFrame s t e.c ∧ ThreadsBy s t e (fun _ => goneOn e 4) ∧
       LoadsGain s t e.c ((e.issueSet g).map (fun l => bagLoad s i (e.who l) e.x e.pc (a l) (destOf n d) 4 0)) ∧
       QueuesGain s t e.c (fun hw => ((e.issueSet g).filter (·.hw = hw)).map (fun l =>
         plainEntry (.drain s.nextId) (e.who l) e.pc (a l) ((s.residentAt e.c e.x (a l)).getD 0) (s.ctx e.x).gen))))) ∧
   (∀ e, readyCt s e i u = true →
     let a := e.r.reg k.toNat
     e.cr.watchMask a (s.recordSize e.x a) true true = 0 →
     (e.cr.room ctQueue 1 = false → exec i s = .next s) ∧
     (e.cr.room ctQueue 1 = true → Completes i s (fun t => QueueFrame s t e.c ∧ CtGoesOnBy s t e false 0 ∧
       LoadsGain s t e.c [bagLoad s i e.who e.x e.r.pc a (destOf n d) 8 0] ∧
       QueuesGain s t e.c (fun hw => if hw = ctQueue then
         [{ plainEntry (.drain s.nextId) e.who e.r.pc a ((s.residentAt e.c e.x a).getD 0) (s.ctx e.x).gen with run := e.r.serial }] else []))))) ∧
  (let i : Instr := .bgrow h d g
   (∀ e, readyVec s e i { g := g, regs := [d.toNat] } = true →
     let hd := s.slotHeader e.x e.g.launch h.toNat
     hd ≠ 0 → Completes i s (fun t => QueueFrame s t e.c ∧ LoadsGain s t e.c [] ∧ QueuesGain s t e.c (fun _ => []) ∧
       ThreadsTo s t e (fun l x => if l ∈ e.issueSet g then
         { parkedAt (.staithe 0) x with capture := some { pc := e.pc, words := e.captureOf l [.regs d.toNat 1] } } else goneOn e 4 x) ∧
       t.net = s.net ++ (e.issueSet g).map (fun l =>
         bagRequest s (e.who l) e.x hd (.grow (BitVec.ofNat 32 (e.sourceNat l [.regs d.toNat 1] 0))) (some s.nextId)))) ∧
   (∀ e, readyCt s e i { g := g, regs := [d.toNat] } = true →
     let hd := s.slotHeaderCt e h.toNat
     hd ≠ 0 → (e.r.waited = true → Completes i s (fun t => CtGoesOn s t e 4 ∧ t.core e.c = { s.core e.c with ct := (t.core e.c).ct } ∧ OnlyCore s t e.c)) ∧
       (e.r.waited = false → Completes i s (fun t =>
         (t.core e.c).ct = { (s.core e.c).ct with cur := { (s.core e.c).ct.cur with park := .staithe 0, begun := true } } ∧ QueueFrame s t e.c ∧
         t.net = s.net ++ [bagRequest s e.who e.x hd (.grow (e.r.reg d.toNat).lo) none]))))) ∧
  (∀ (s : State) (h : BitVec 4) (k : BitVec 3) (d : BitVec 6) (g : BitVec 3),
  let bit : BitVec 16 := BitVec.twoPow 16 h.toNat
  (∀ e, readyVec s e (.wqenter h g) { g := g } = true → workBag h e s = true →
    let new := (e.issueSet g).filter (fun l => !(e.thread l).regmask.getLsbD h.toNat)
    let hd := s.slotHeader e.x e.g.launch h.toNat
    Completes (.wqenter h g) s (fun t => QueueFrame s t e.c ∧ LoadsGain s t e.c [] ∧ QueuesGain s t e.c (fun _ => []) ∧
      ThreadsBy s t e (fun l x => goneOn e 4 (if l ∈ new then { x with regmask := x.regmask ||| bit } else x)) ∧
      t.net = s.net ++ new.map (fun l => bagRequest s (e.who l) e.x hd .enter (some s.nextId)))) ∧
  (∀ e, readyVec s e (.wqleave h g) { g := g } = true → workBag h e s = true → e.cr.lcore.isSome →
    let old := (e.issueSet g).filter (fun l => (e.thread l).regmask.getLsbD h.toNat)
    let hd := s.slotHeader e.x e.g.launch h.toNat
    Completes (.wqleave h g) s (fun t => QueueFrame s t e.c ∧ LoadsGain s t e.c [] ∧ QueuesGain s t e.c (fun _ => []) ∧
      ThreadsBy s t e (fun l x => goneOn e 4 (if l ∈ old then { x with regmask := x.regmask &&& ~~~bit } else x)) ∧
      t.net = s.net ++ old.map (fun l => bagRequest s (e.who l) e.x hd .leave (some s.nextId)))) ∧
  (∀ e, readyVec s e (.wqwait k h d g) { g := g, regs := [d.toNat], preds := k != 0 } = true → workBag h e s = true →
    let hd := s.slotHeader e.x e.g.launch h.toNat
    (∀ b, s.bagAt e.x hd = some b → ∀ l ∈ e.issueSet g, (e.thread l).regmask.getLsbD h.toNat = true ∧ (e.reg l d.toNat).toNat < 2 ^ b.logb) →
    Completes (.wqwait k h d g) s (fun t => QueueFrame s t e.c ∧ LoadsGain s t e.c [] ∧ QueuesGain s t e.c (fun _ => []) ∧
      ThreadsTo s t e (fun l x => if l ∈ e.issueSet g then parkedAt (.wqwait h.toNat k.toNat) x else goneOn e 4 x) ∧
      t.net = s.net ++ (e.issueSet g).map (fun l => bagRequest s (e.who l) e.x hd (.await (e.reg l d.toNat)) (some s.nextId)))))

/-- R174, R178-R180, R377: `bra` and `jmpi` send the threads of the issue set to their targets, which path signatures take in, and end the run; `nop` and `yield` only go on. A return pops the control thread's return stack, a call pushes it.
R176, R177, R179: a call of a thread stores its return PC at its stack pointer less 16, through its home warp's store queue, and goes to the target one call deeper; a return goes to the PC its frame holds, 16 bytes up and one call shallower: to the value the thread's own queue forwards where it does. -/
def Obligations.ControlFlowGoesOn : Prop :=
  (∀ (s : State) (off : BitVec 21) (k : BitVec 7) (g : BitVec 3),
  (∀ p ∈ ([(.bra off g, { g := g }, fun e _ => pc48 (e.pc + (off.signExtend 64) * 2)),
           (.jmpi k g, { g := g, regs := span k.toNat 2 }, fun e l => e.regPair l k.toNat)] : List (Instr × Uses × (Env → Lane → DWord))),
    ∀ e, readyVec s e p.1 p.2.1 = true → noTrace s e.x e.g.launch → (∀ a b, p.1 = .jmpi a b → ∀ l ∈ e.issueSet g, goodTarget (p.2.2 e l)) →
    Completes p.1 s (fun t => ThreadsTo s t e (fun l x => if l ∈ e.issueSet g then goneTo e (p.2.2 e l) x else goneOn e 4 x) ∧
      (t.core e.c).regs = (s.core e.c).regs ∧ WarpOnly (s.core e.c) (t.core e.c) e.k e.ws ∧ OnlyCore s t e.c ∧ MemKept s t)) ∧
  (∀ e, readyCt s e (.bra off g) { g := g } = true → Completes (.bra off g) s (fun t =>
    CtGoesTo s t e (pc48 (e.r.pc + (off.signExtend 64) * 2)) e.r.rstack)) ∧
  (∀ e, readyCt s e (.jmpi k g) { g := g, regs := span k.toNat 2 } = true → goodTarget (e.r.reg k.toNat) →
    Completes (.jmpi k g) s (fun t => CtGoesTo s t e (e.r.reg k.toNat) e.r.rstack)) ∧
  (∀ e, readyCt s e (.call off g) { g := g } = true → e.r.rstack.length < 16 → Completes (.call off g) s (fun t =>
    CtGoesTo s t e (pc48 (e.r.pc + (off.signExtend 64) * 2)) (pc48 (e.r.pc + 4) :: e.r.rstack))) ∧
  (∀ e, readyCt s e (.calli k g) { g := g, regs := span k.toNat 2 } = true → e.r.rstack.length < 16 → goodTarget (e.r.reg k.toNat) →
    Completes (.calli k g) s (fun t => CtGoesTo s t e (e.r.reg k.toNat) (pc48 (e.r.pc + 4) :: e.r.rstack))) ∧
  (∀ e a rest, readyCt s e (.ret g) { g := g } = true → e.r.rstack = a :: rest → Completes (.ret g) s (fun t => CtGoesTo s t e a rest)) ∧
  (∀ e, readyVec s e (.nop g) { g := g } = true → Completes (.nop g) s (fun t => ThreadsAt s t e 4 ∧ (t.core e.c).regs = (s.core e.c).regs ∧
    WarpOnly (s.core e.c) (t.core e.c) e.k e.ws ∧ OnlyCore s t e.c ∧ MemKept s t)) ∧
  (∀ e, readyVec s e (.yield g) { g := g } = true → Completes (.yield g) s (fun t =>
    ThreadsTo s t e (fun l x => if l ∈ e.issueSet g then
      { goneOn e 4 x with reached := true, park := if e.g.evict then .yield else .none } else goneOn e 4 x) ∧
    (t.core e.c).regs = (s.core e.c).regs ∧ WarpOnly (s.core e.c) (t.core e.c) e.k e.ws ∧ OnlyCore s t e.c ∧ MemKept s t)) ∧
  (∀ e, readyCt s e (.nop g) { g := g } = true → Completes (.nop g) s (fun t => CtGoesTo s t e (pc48 (e.r.pc + 4)) e.r.rstack)) ∧
  (∀ e, readyCt s e (.yield g) { g := g } = true →
    (e.cr.switch = true ∧ e.r.waited = false → Completes (.yield g) s (fun t => ParksCt s t e .yield)) ∧
    (e.cr.switch = false ∨ e.r.waited = true → Completes (.yield g) s (fun t => CtGoesTo s t e (pc48 (e.r.pc + 4)) e.r.rstack)))) ∧
  (∀ (s : State) (off : BitVec 21) (k : BitVec 7) (g : BitVec 3),
  (∀ p ∈ ([(.call off g, { g := g }, fun e _ => pc48 (e.pc + (off.signExtend 64) * 2)),
           (.calli k g, { g := g, regs := span k.toNat 2 }, fun e l => BitVec.ofNat 64 (e.sourceNat l [.regs k.toNat 2] 0))] :
        List (Instr × Uses × (Env → Lane → DWord))),
    ∀ e, readyVec s e p.1 p.2.1 = true → noTrace s e.x e.g.launch →
    (∀ l ∈ e.issueSet g, (∀ a b, p.1 = .calli a b → goodTarget (p.2.2 e l)) ∧ (e.thread l).depth ≠ 255 ∧
      accessOk s e ((e.thread l).sp - 16) 16 permW false true true ∧ (s.residentAt e.c e.x ((e.thread l).sp - 16)).isSome) →
    (e.cr.roomFor (e.issueSet g) = false → Completes p.1 s (fun t => Waits s t e)) ∧
    (e.cr.roomFor (e.issueSet g) = true → Completes p.1 s (fun t => QueueFrame s t e.c ∧ LoadsGain s t e.c [] ∧
      ThreadsTo s t e (fun l x => if l ∈ e.issueSet g then
        { goneTo e (p.2.2 e l) x with sp := x.sp - 16, depth := x.depth + 1 } else goneOn e 4 x) ∧
      QueuesGain s t e.c (fun hw => ((e.issueSet g).filter (·.hw = hw)).map (fun l =>
        ({ kind := .store 16 ((pc48 (e.pc + 4)).setWidth 128) 0 true false, who := e.who l, pc := e.pc, va := (e.thread l).sp - 16,
           pa := (s.residentAt e.c e.x ((e.thread l).sp - 16)).getD 0, gen := (s.ctx e.x).gen } : Entry)))))) ∧
  (∀ (e : Env) l, e.captured l = none → BitVec.ofNat 64 (e.sourceNat l [.regs k.toNat 2] 0) = e.regPair l k.toNat) ∧
  (∀ e, readyVec s e (.ret g) { g := g } = true → noTrace s e.x e.g.launch →
    (∀ l ∈ e.issueSet g, (e.thread l).depth ≠ 0 ∧ accessOk s e (e.thread l).sp 8 permR false true true) →
    ∀ s1 ls, s.readFrames e (e.issueSet g) = some (s1, ls) →
    (∀ q ∈ ls, q.2.isAbsent = false ∧ q.2.poison = none ∧ goodTarget q.2.pc) → NoErrors s →
    Completes (.ret g) s (fun t => ReadFrame s t e.c ∧ LoadsGain s t e.c [] ∧
      ThreadsTo s t e (fun l x => match ls.find? (fun q => q.1 == l) with
        | some q => { goneTo e q.2.pc x with sp := x.sp + 16, depth := x.depth - 1 }
        | none => goneOn e 4 x))) ∧
  (∀ e l v p, readyVec s e (.ret g) { g := g } = true → noTrace s e.x e.g.launch → e.x = s.coreCtx e.c → e.issueSet g = [l] →
    (e.thread l).depth ≠ 0 → accessOk s e (e.thread l).sp 8 permR false true true → s.residentAt e.c e.x (e.thread l).sp = some p →
    e.cr.homeUnread (Who.inWarp l.hw) = false → forward (s.nowQueue e.c l.hw) p 8 = .value v → goodTarget (BitVec.ofNat 64 v) →
    Completes (.ret g) s (fun t => ThreadsTo s t e (fun m x => if m = l then
      { goneTo e (BitVec.ofNat 64 v) x with sp := x.sp + 16, depth := x.depth - 1 } else goneOn e 4 x))))

/-- R24, R102, R170, R179, R192: `exit` ends the threads of the issue set, whatever they are registered with or record; others of the workgroup go on, and a workgroup with none left and its store queues drained leaves its slot, counted by its launch, with those of its results whose data is known in their registers and its record in the save area cleared (R329). R180, R324: the control thread's routine ends: with nothing queued it goes back to the interrupted one, or idles; with a trap or start event queued it idles for that. R170: a prologue that ends is done. -/
def Obligations.ThreadsExit : Prop := ∀ (s : State) (g : BitVec 3),
  (∀ e, readyVec s e (.exit g) { g := g } = true → Completes (.exit g) s (fun t =>
      (∀ l ∈ e.issueSet g, (t.thread e.c e.ws l.tid).live = false) ∧ (t.core e.c).warp e.k = none ∧
      ((∀ l ∈ e.issueSet g, (e.thread l).regmask = 0) → (∀ l, s.launch e.x e.g.launch = some l → l.path = 0) →
        ((∃ x, (∀ l ∈ e.issueSet g, l.tid ≠ x) ∧ (s.thread e.c e.ws x).live = true) →
          OnlyCore s t e.c ∧ MemKept s t ∧ (t.core e.c).regs = (s.core e.c).regs ∧ ThreadsBy s t e (fun l x => if l ∈ e.issueSet g then
            { goneOn e 4 x with live := false, park := .none, loadHold := 0, effect := none, poison := none } else goneOn e 4 x)) ∧
        (SMap.wf {} e.g.threads = true → (∀ x ∈ e.g.threads, x.2.live = true → ∃ l ∈ e.issueSet g, l.tid = x.1) →
          (∀ hw ∈ span e.g.hw e.g.warps, e.cr.queue hw = []) →
          let rec_ := s.saveArea (s.coreCtx e.c) (e.cr.lcore.getD 0) + saveWg e.ws
          (t.core e.c).wg e.ws = none ∧ (∀ j, j ≠ e.ws → (t.core e.c).wg j = (s.core e.c).wg j) ∧
          (∀ l, s.launch e.x e.g.launch = some l → ∃ m, t.launch e.x e.g.launch = some m ∧ m.finished = l.finished + 1) ∧
          (s.saveAreaOk (s.coreCtx e.c) (s.saveArea (s.coreCtx e.c) (e.cr.lcore.getD 0)) = true → t.homeWord rec_ = 0) ∧
          (∀ a, a / 4 ≠ rec_ / 4 → t.homeWord a = s.homeWord a) ∧
          ((∀ p ∈ e.cr.loads, p.data.isSome = true → p.dest = none) → (t.core e.c).regs = (s.core e.c).regs) ∧
          (∀ p ∈ e.cr.loads, ∀ lc hw tid d, p.who = .lane e.c lc hw e.ws tid → e.cr.lcore = some lc → p.dest = some d → p.data.isSome = true →
            (∀ q ∈ e.cr.loads, q = p ∨ q.data = none ∨ q.dest = none ∨ q.who.hw ≠ hw) →
            ∀ j, j < p.words.length → d + j < 64 → (t.core e.c).reg hw (d + j) (tid % 32) = p.words.getD j 0))))) ∧
  (∀ e, readyCt s e (.exit g) { g := g } = true → Completes (.exit g) s (fun t =>
    (e.cr.ct.pending.any CtEvent.first = false →
      (t.core e.c).ct.cur = e.cr.ct.saved.head?.getD {} ∧ (t.core e.c).ct.saved = e.cr.ct.saved.tail) ∧
    (e.cr.ct.pending.any CtEvent.first = true → (t.core e.c).ct.cur = {} ∧ (t.core e.c).ct.saved = e.cr.ct.saved) ∧
    (∀ n stage l, e.r.run = .prologue n stage → s.launch e.x n = some l → (e.cr.lcore.getD 0, stage, false) ∈ l.prologues →
      ∃ m, t.launch e.x n = some m ∧ (e.cr.lcore.getD 0, stage, true) ∈ m.prologues) ∧
    (∀ j, j ≠ e.c → t.core j = s.core j) ∧ MemKept s t ∧ t.net = s.net))

/-- R53, R179, R321, R323, R324, R330: `trap` and `brk` of a lane or of a control thread in user mode, and a word that names no instruction, take their trap: the saved PC is the next instruction's for the first two, the word's own for the last. In supervisor mode a trap of the control thread removes its context (R322). -/
def Obligations.TrapsAreTaken : Prop := ∀ (s : State) (a : BitVec 7) (w : Word) (g : BitVec 3),
  (∀ p ∈ ([(.trap a g, { g := g, regs := codeRegs a, lat := codeLat a }, 0x0B, fun e l => e.operand .int l a), (.brk g, { g := g }, 0x0C, fun _ _ => 0)] :
      List (Instr × Uses × Nat × (Env → Lane → Word))),
    ∀ e, readyVec s e p.1 p.2.1 = true →
      (e.issueSet g = [] → Completes p.1 s (fun t => ThreadsAt s t e 4 ∧ (t.core e.c).regs = (s.core e.c).regs ∧ OnlyCore s t e.c ∧ MemKept s t)) ∧
      (e.issueSet g ≠ [] → trapReady s e → Completes p.1 s (fun t => TrapTaken s t e p.1 p.2.2.1 (pc48 (e.pc + 4)) (e.issueSet g) (p.2.2.2 e)))) ∧
  (∀ p ∈ ([(.trap a g, { g := g, regs := codeRegs a, lat := codeLat a }, 0x0B, fun e => e.operand a), (.brk g, { g := g }, 0x0C, fun _ => 0)] :
      List (Instr × Uses × Nat × (CEnv → DWord))),
    ∀ e, readyCt s e p.1 p.2.1 = true →
      (trapReadyCt s e → Completes p.1 s (fun t => TrapTakenCt s t e p.2.2.1 (pc48 (e.r.pc + 4)) (p.2.2.2 e) 0)) ∧
      (e.r.super = true → (s.ctx e.x).removal = 0 → Completes p.1 s (fun t => RemovalBegun t e.x p.2.2.1))) ∧
  (let i : Instr := .unassignedEncoding w
   let code := if w.setWidth 16 = (0 : BitVec 16) then 2 else if w = 0xFFFFFFFF then 3 else 1
   (∀ e, s.issuer = some (.vec e.c e.k) → s.env e.c e.k = some e → s.mayIssue e.c = true → e.g.state = .resident → e.owing = [] → trapReady s e →
     Completes i s (fun t => TrapTaken s t e i code e.pc e.lanes (fun _ => 0))) ∧
   (∀ e, s.issuer = some (.ct e.c) → s.cenv e.c = e → (s.ctPc e.c).isSome → e.r.poison = none → e.r.effect = none → trapReadyCt s e →
     Completes i s (fun t => TrapTakenCt s t e (if w.setWidth 16 ≠ (0 : BitVec 16) ∧ w ≠ 0xFFFFFFFF ∧ w.toNat % 256 = 0xFB then 7 else code) e.r.pc 0 0)))

/-- R200-R202, R205, R377: a thread that performs an effect of its stage's table writes its record, names its frame armed, hidden and handled under a new serial, receives the effect's id, argument and token in v61-v63, and goes to the frame's handler at the depth of its push; every other thread of the warp goes on. With no frame for the effect it traps UNHANDLED_EFFECT.
R202-R205, R395: a thread that resumes with a live one-shot token of its top frame goes to the PC its record holds at the depth and stack pointer of its perform, with the value in the perform's destination, and the token dies; with a continuation token its live registers and predicates come back too, and the token stays. `abandon` pops the frame and goes to its exit. Frames below the four highest are read from their images in the stack (R197), and written there again where they change. A token that is not live traps TOKEN_STALE. -/
def Obligations.EffectsArePerformedAndResumed : Prop :=
  (∀ (s : State) (f : PerformForm),
  let i : Instr := .perform f
  let u : Uses := { g := f.g, regs := codeRegs f.a ++ destRegs f.w f.d, lat := codeLat f.a }
  ∀ e l, readyVec s e i u = true → e.x = s.coreCtx e.c → noTrace s e.x e.g.launch → e.issueSet f.g = [l] → 64 ≤ e.g.nregs →
  ∀ st id, s.stageOf e.g = some st → (st.effects[f.e.toNat]?.getD 0).toNat = id → 32 ≤ id → id ≠ 255 →
  let x := e.thread l
  let dw : Word := BitVec.ofNat 32 (f.d.toNat + 64 * f.w.toNat)
  let handles := fun (q : Frame) => q.hide == 0 && (q.eff.toNat == id || q.eff.toNat == 255)
  (x.frames.length ≤ 4 ∨ (x.frames.take 4).any handles = true → s.framesUntil e.c l.hw x.frames (fun _ q => handles q) = .frames x.frames s) ∧
  ∀ fs s1, s.framesUntil e.c l.hw x.frames (fun _ q => handles q) = .frames fs s1 →
  (∀ n fr, fs.findIdx? handles = some n → fs[n]? = some fr →
    let live := s.liveRegs e.g fr.name.toNat
    let rec_ : List Word := if fr.multi then
        [(pc48 (e.pc + 4)).lo, (pc48 (e.pc + 4)).hi, x.sp.lo, x.sp.hi, dw, (x.preds ||| 1).setWidth 32] ++ live.map (e.reg l)
      else [(pc48 (e.pc + 4)).lo, (pc48 (e.pc + 4)).hi, dw, 0]
    let at_ := if fr.multi then fr.record else x.sp - 16
    let token : Word := BitVec.ofNat 32 ((fs.length - 1 - n) * 2 ^ 24 + (fr.serial + 1).toNat * 256 + (if fr.multi then 128 else 0))
    let new := fs.zipIdx.map (fun p => if p.2 < n then { p.1 with hide := p.1.hide + 1 }
      else if p.2 = n then { p.1 with serial := p.1.serial + 1, armed := true, handling := true, pdepth := x.depth,
                                      ptop := BitVec.ofNat 6 (fs.length - 1), record := at_, want := none, remote := false, hide := p.1.hide + 1 }
      else p.1)
    let images := deepWrites fs new
    e.cr.room l.hw 1 = true → e.cr.owes (e.who l) ([61, 62, 63] ++ (if fr.multi then live else [])) = false → ownOk s1 e.c e.x at_ rec_ → (∀ q ∈ images, ownOk s1 e.c e.x q.1 q.2) → Completes i s (fun t =>
      WarpFrame s1 t e.c ∧
      QueuesGain s1 t e.c (fun hw => if hw = l.hw then
        images.flatMap (fun q => ownEntries s1 e.c e.x (e.who l) (pc48 (e.pc + 4)) q.1 q.2 true) ++ ownEntries s1 e.c e.x (e.who l) (pc48 (e.pc + 4)) at_ rec_ else []) ∧
      RegsAt s t e.c [l] (fun _ => [(61, BitVec.ofNat 32 id), (62, e.operand .int l f.a), (63, token)]) ∧ (t.core e.c).warp e.k = none ∧
      (∀ m ∈ e.lanes, m ≠ l → (∀ q ∈ e.lanes, q.tid = m.tid → q = m) → t.thread e.c e.ws m.tid = goneOn e 4 (s.thread e.c e.ws m.tid)) ∧
      ((∀ q ∈ e.lanes, q.tid = l.tid → q = l) →
        let y := t.thread e.c e.ws l.tid
        y.pc = pc48 (st.entry + ((st.handlers[fr.name.toNat]?.getD (0xFFFFFFFF, 0, 0)).1.signExtend 64) * 2) ∧ y.depth = fr.cdepth ∧
        y.sp = (if fr.multi then x.sp else at_) ∧ y.psig = x.psig.rotateLeft 1 ^^^ y.pc ∧ y.preds = x.preds ∧ y.live = x.live ∧
        y.frames = new))) ∧
  (fs.findIdx? handles = none → trapReady s e → Completes i s (fun t => TrapTaken s t e i 0x0A e.pc [l] (fun _ => BitVec.ofNat 32 id)))) ∧
  (∀ (s : State) (a : BitVec 7) (k : BitVec 6) (g : BitVec 3),
  ∀ e l, noTrace s e.x e.g.launch → e.issueSet g = [l] →
  let x := e.thread l
  let u : Uses := { g := g, regs := codeRegs a ++ [k.toNat], lat := codeLat a }
  (∀ fr rest ws s1, readyVec s e (.resume a k g) u = true → x.frames = fr :: rest → fr.armed = true → fr.multi = false → fr.handling = true →
    fr.hide = 1 → fr.ptop.toNat = rest.length → fr.want = none → fr.remote = false → x.sp = fr.record → rest.length < 64 →
    e.reg l k.toNat = BitVec.ofNat 32 (rest.length * 2 ^ 24 + fr.serial.toNat * 256) →
    s.readRec e.c l.hw fr.record 4 = .words ws s1 → goodTarget (dword (ws.getD 0 0) (ws.getD 1 0)) →
    ((ws.getD 2 0).getLsbD 6 = true ∨ (ws.getD 2 0).toNat % 64 < e.g.nregs) →
    ((ws.getD 2 0).getLsbD 6 = true ∨ e.cr.owes (e.who l) [(ws.getD 2 0).toNat % 64] = false) →
    Completes (.resume a k g) s (fun t => (t.core e.c).warp e.k = none ∧
      RegsAt s t e.c [l] (fun _ => if (ws.getD 2 0).getLsbD 6 then [] else [((ws.getD 2 0).toNat % 64, e.operand .int l a)]) ∧
      ((∀ q ∈ e.lanes, q.tid = l.tid → q = l) →
        let y := t.thread e.c e.ws l.tid
        y.pc = dword (ws.getD 0 0) (ws.getD 1 0) ∧ y.depth = fr.pdepth ∧ y.sp = fr.record + 16 ∧ y.capture = none ∧ y.preds = x.preds ∧
        y.frames = { fr with armed := false, handling := false, hide := 0 } :: rest))) ∧
  (∀ fr rest ws s1, readyVec s e (.resumeM a k g) u = true → x.frames = fr :: rest → fr.armed = true → fr.multi = true → fr.handling = true →
    fr.hide = 1 → fr.ptop.toNat = rest.length → rest.length < 64 →
    e.reg l k.toNat = BitVec.ofNat 32 (rest.length * 2 ^ 24 + fr.serial.toNat * 256 + 128) →
    let live := s.liveRegs e.g fr.name.toNat
    s.readRec e.c l.hw fr.record (6 + live.length) = .words ws s1 → goodTarget (dword (ws.getD 0 0) (ws.getD 1 0)) →
    canonical (dword (ws.getD 2 0) (ws.getD 3 0)) = true → (dword (ws.getD 2 0) (ws.getD 3 0)).toNat % 16 = 0 →
    ((ws.getD 4 0).getLsbD 6 = true ∨ (ws.getD 4 0).toNat % 64 < e.g.nregs) → (∀ r ∈ live, r < e.g.nregs) →
    e.cr.owes (e.who l) (live ++ (if (ws.getD 4 0).getLsbD 6 then [] else [(ws.getD 4 0).toNat % 64])) = false →
    Completes (.resumeM a k g) s (fun t => (t.core e.c).warp e.k = none ∧
      ((∀ q ∈ e.lanes, q.tid = l.tid → q = l) →
        let y := t.thread e.c e.ws l.tid
        y.pc = dword (ws.getD 0 0) (ws.getD 1 0) ∧ y.depth = fr.pdepth ∧ y.sp = dword (ws.getD 2 0) (ws.getD 3 0) ∧
        y.preds = (ws.getD 5 0).setWidth 8 ||| 1 ∧ y.frames = { fr with handling := false, hide := 0 } :: rest) ∧
      ((ws.getD 4 0).getLsbD 6 = false → (t.core e.c).reg l.hw ((ws.getD 4 0).toNat % 64) l.lane = e.operand .int l a) ∧
      ∀ j r, live[j]? = some r → (ws.getD 4 0).getLsbD 6 = true ∨ r ≠ (ws.getD 4 0).toNat % 64 → (t.core e.c).reg l.hw r l.lane = ws.getD (6 + j) 0)) ∧
  (∀ fs s1 fr rest n st, readyVec s e (.abandon k g) { g := g, regs := [k.toNat] } = true →
    s.framesTo e.c l.hw x.frames (n + 4) = .frames fs s1 → fs.drop n = fr :: rest → fr.armed = true →
    fs.length = x.frames.length → rest.length < 64 → s.stageOf e.g = some st → (∀ q ∈ fs, q.remote = false) →
    (x.watched = true ∨ ∀ a ∈ reloads fs (n + 1), e.cr.watchMask a.1 a.2 true true = 0) →
    e.reg l k.toNat = BitVec.ofNat 32 (rest.length * 2 ^ 24 + fr.serial.toNat * 256 + (if fr.multi then 128 else 0)) →
    Completes (.abandon k g) s (fun t => (t.core e.c).warp e.k = none ∧ (t.core e.c).regs = (s.core e.c).regs ∧
      (x.frames.length ≤ 4 → WarpOnly (s.core e.c) (t.core e.c) e.k e.ws ∧ OnlyCore s t e.c) ∧
      ((∀ q ∈ e.lanes, q.tid = l.tid → q = l) →
        let y := t.thread e.c e.ws l.tid
        y.pc = pc48 (st.entry + ((st.handlers[fr.name.toNat]?.getD (0xFFFFFFFF, 0, 0)).2.1.signExtend 64) * 2) ∧ y.depth = fr.cdepth ∧ y.sp = fr.sp0 ∧
        y.frames = rest))) ∧
  (x.frames.length ≤ 4 → ∀ n, s.framesTo e.c l.hw x.frames n = .frames x.frames s) ∧
  (∀ p ∈ ([(.resume a k g, u), (.resumeM a k g, u), (.abandon k g, { g := g, regs := [k.toNat] })] : List (Instr × Uses)),
    readyVec s e p.1 p.2 = true →
    x.frames.length ≤ (e.reg l k.toNat).toNat / 2 ^ 24 ∨ x.frames.length ≤ 4 ∧ (∀ fr ∈ x.frames, fr.armed = false) → trapReady s e →
    Completes p.1 s (fun t => TrapTaken s t e p.1 9 e.pc [l] (fun _ => 0))))

/-- R197-R199: `hpush` pushes a frame for each thread of the issue set whose top four frames leave room on chip, below a reservation for a `.multi` one; `hpop` pops the top frame where it is neither hidden nor handling, restores its stack pointer, and reads the frame that comes on chip from the stack; it traps ILLEGAL where there is none. A push with four frames on chip writes the image of the lowest of them to the 32 bytes below the stack pointer, through its queue (R198). -/
def Obligations.HandlerFramesAreKept : Prop := ∀ (s : State) (f : HpushForm) (g : BitVec 3),
  (∀ e, readyVec s e (.hpush f) { g := f.g } = true →
    let live := s.liveRegs e.g f.h.toNat
    let size := if f.m = 1 then (24 + 4 * live.length + 15) / 16 * 16 else 0
    (∀ l ∈ e.issueSet f.g, (e.thread l).frames.length < 64 ∧ (e.thread l).onChip < 4 ∧ (s.handler e.g f.h.toNat).1 ≠ 0xFFFFFFFF ∧
      (f.m = 1 → ∀ k ∈ live, k < e.g.nregs) ∧ s.stackPages e.c e.x ((e.thread l).sp - BitVec.ofNat 64 size) size = true) →
    Completes (.hpush f) s (fun t => (t.core e.c).regs = (s.core e.c).regs ∧ WarpOnly (s.core e.c) (t.core e.c) e.k e.ws ∧ OnlyCore s t e.c ∧
      ThreadsBy s t e (fun l x => goneOn e 4 (if l ∈ e.issueSet f.g then
        let fr : Frame := { eff := f.e7 ++ f.e, serial := x.serialC, multi := f.m == 1, armed := false, name := f.h, cdepth := x.depth, pdepth := 0,
                            ptop := 0, hide := 0, handling := false, sp0 := x.sp,
                            record := if f.m = 1 then x.sp - BitVec.ofNat 64 size else 0 }
        { x with frames := fr :: x.frames, onChip := min 4 (x.frames.length + 1), serialC := x.serialC + 1, sp := x.sp - BitVec.ofNat 64 size }
        else x)))) ∧
  (∀ e, readyVec s e (.hpush f) { g := f.g } = true → e.x = s.coreCtx e.c →
    let live := s.liveRegs e.g f.h.toNat
    let size := if f.m = 1 then (24 + 4 * live.length + 15) / 16 * 16 else 0
    let image := fun (l : Lane) => ((e.thread l).frames.getD 3 default).image
    (∀ l ∈ e.issueSet f.g, (e.thread l).frames.length < 64 ∧ (e.thread l).onChip = 4 ∧ (s.handler e.g f.h.toNat).1 ≠ 0xFFFFFFFF ∧
      (f.m = 1 → ∀ k ∈ live, k < e.g.nregs) ∧ s.stackPages e.c e.x ((e.thread l).sp - 32 - BitVec.ofNat 64 size) (size + 32) = true ∧
      ownOk s e.c e.x ((e.thread l).sp - 32) (image l) ∧ e.cr.watchMask ((e.thread l).sp - 32) 32 true true = 0) →
    e.cr.roomFor (e.issueSet f.g) = true →
    Completes (.hpush f) s (fun t => (t.core e.c).regs = (s.core e.c).regs ∧ WarpFrame s t e.c ∧
      QueuesGain s t e.c (fun hw => ((e.issueSet f.g).filter (·.hw = hw)).flatMap (fun l =>
        ownEntries s e.c e.x (e.who l) e.pc ((e.thread l).sp - 32) (image l))) ∧
      ThreadsBy s t e (fun l x => goneOn e 4 (if l ∈ e.issueSet f.g then
        let a := x.sp - 32 - BitVec.ofNat 64 size
        let fr : Frame := { eff := f.e7 ++ f.e, serial := x.serialC, multi := f.m == 1, armed := false, name := f.h, cdepth := x.depth, pdepth := 0,
                            ptop := 0, hide := 0, handling := false, sp0 := x.sp, record := if f.m = 1 then a else 0 }
        { x with frames := fr :: x.frames, onChip := min 4 (x.frames.length + 1), serialC := x.serialC + 1, sp := a } else x)))) ∧
  (∀ e, readyVec s e (.hpop g) { g := g } = true →
    ((∀ l ∈ e.issueSet g, (e.thread l).frames.length ≤ 4 ∧ ∃ fr rest, (e.thread l).frames = fr :: rest ∧ fr.hide = 0 ∧ fr.handling = false) →
      Completes (.hpop g) s (fun t => (t.core e.c).regs = (s.core e.c).regs ∧ WarpOnly (s.core e.c) (t.core e.c) e.k e.ws ∧ OnlyCore s t e.c ∧
        ThreadsBy s t e (fun l x => goneOn e 4 (if l ∈ e.issueSet g then
          { x with frames := x.frames.tail, onChip := min 4 (x.frames.length - 1), sp := (x.frames.head?.map (·.sp0)).getD x.sp } else x)))) ∧
    (∀ l fr rest fs s1, e.issueSet g = [l] → (e.thread l).frames = fr :: rest → fr.hide = 0 → fr.handling = false →
      s.framesTo e.c l.hw (e.thread l).frames 4 = .frames fs s1 →
      ((e.thread l).watched = true ∨ ∀ a ∈ reloads fs 1, e.cr.watchMask a.1 a.2 true true = 0) → Completes (.hpop g) s (fun t => (t.core e.c).regs = (s.core e.c).regs ∧
        ((∀ q ∈ e.lanes, q.tid = l.tid → q = l) → t.thread e.c e.ws l.tid =
          goneOn e 4 { s.thread e.c e.ws l.tid with frames := fs.tail, onChip := min 4 fs.tail.length, sp := fr.sp0 }))) ∧
    ((∀ l ∈ e.issueSet g, (e.thread l).frames.length ≤ 4) → ∀ bad, bad ≠ [] → (e.issueSet g).filter (fun l => match (e.thread l).frames with
        | [] => true
        | fr :: _ => fr.hide != 0 || fr.handling) = bad → trapReady s e →
      Completes (.hpop g) s (fun t => TrapTaken s t e (.hpop g) 1 e.pc bad (fun _ => 0))))

/-- R181-R183: `meet.post` enters the store queues and is one batch of arrivals with a pending token for each thread; `meet.await` passes the threads whose token the phase has left, which acquire, and parks the others; `meet.join` parks every thread of the issue set behind its arrival.
R182: a batch of arrivals that reaches a barrier adds to its count; every time the count reaches an expected count that is not 0 it is taken off and the phase turns. -/
def Obligations.MeetsAtBarriers : Prop :=
  (∀ (s : State) (sc : BitVec 3) (b : BitVec 4) (n : BitVec 1) (d k : BitVec 6) (g : BitVec 3),
  let batch := fun (e : Env) => match e.issueSet g with
    | [] => []
    | l :: _ => [arriveMsg s (e.who l) e.x sc.toNat b.toNat (e.issueSet g).length s.nextId]
  let arrivals := fun (e : Env) (hw : Nat) => ((e.issueSet g).filter (·.hw = hw)).map (fun l =>
    plainEntry (.arrive s.nextId sc.toNat) (e.who l) e.pc 0 0 (s.ctx e.x).gen)
  let arrivalCt := fun (e : CEnv) (hw : Nat) => if hw = ctQueue then
    [{ plainEntry (.arrive s.nextId sc.toNat) e.who e.r.pc 0 0 (s.ctx e.x).gen with run := e.r.serial }] else []
  (let i : Instr := .meetPost sc b n d g
   let u : Uses := { g := g, regs := destRegs n d, b3 := true }
   (∀ e, readyVec s e i u = true → e.cr.roomFor (e.issueSet g) = true → Completes i s (fun t => QueueFrame s t e.c ∧
     QueuesGain s t e.c (arrivals e) ∧ t.net = s.net ++ batch e ∧ ThreadsBy s t e (fun _ => goneOn e 4) ∧
     LoadsGain s t e.c ((e.issueSet g).map (fun l => tokenLoad s (e.who l) e.x i s.nextId e.pc 4 (destOf n d) none)))) ∧
   (∀ e, readyCt s e i u = true → e.cr.room ctQueue 1 = true → Completes i s (fun t => QueueFrame s t e.c ∧ QueuesGain s t e.c (arrivalCt e) ∧
     t.net = s.net ++ [arriveMsg s e.who e.x sc.toNat b.toNat 1 s.nextId] ∧ CtGoesOn s t e 4 ∧
     LoadsGain s t e.c [tokenLoad s e.who e.x i s.nextId e.r.pc 8 (destOf n d) none]))) ∧
  (let i : Instr := .meetAwait sc b k g
   (∀ e, readyVec s e i { g := g, regs := [k.toNat] } = true →
     let phase := (s.barrier e.c e.cr.lcId e.x sc.toNat b.toNat).phase
     let waits := fun l => l ∈ e.issueSet g ∧ (e.reg l k.toNat).getLsbD 0 = phase
     Completes i s (fun t => ReadFrame s t e.c ∧ MemKept s t ∧ LoadsGain s t e.c [] ∧
       ThreadsTo s t e (fun l x => if waits l then parkedAt (.barrier sc.toNat b.toNat phase) x else goneOn e 4 (reachedAt (e.issueSet g) l x)) ∧
       (2 ≤ sc.toNat → (∃ l ∈ e.issueSet g, ¬waits l) → noL1 (t.core e.c) e.x))) ∧
   (∀ e, readyCt s e i { g := g, regs := [k.toNat] } = true →
     let phase := (s.barrier e.c e.cr.lcId e.x sc.toNat b.toNat).phase
     (e.r.waited = true ∨ (e.r.reg k.toNat).getLsbD 0 ≠ phase → Completes i s (fun t => ReadFrame s t e.c ∧ MemKept s t ∧ LoadsGain s t e.c [] ∧
       CtGoesOn s t e 4 ∧ (2 ≤ sc.toNat → noL1 (t.core e.c) e.x))) ∧
     (e.r.waited = false → (e.r.reg k.toNat).getLsbD 0 = phase → Completes i s (fun t => ParksCt s t e (.barrier sc.toNat b.toNat phase))))) ∧
  (let i : Instr := .meetJoin sc b g
   (∀ e, readyVec s e i { g := g } = true → e.cr.roomFor (e.issueSet g) = true → Completes i s (fun t => QueueFrame s t e.c ∧
     QueuesGain s t e.c (arrivals e) ∧ t.net = s.net ++ batch e ∧ LoadsGain s t e.c [] ∧
     ThreadsTo s t e (fun l x => if l ∈ e.issueSet g then parkedAt (.joining sc.toNat b.toNat s.nextId) x else goneOn e 4 x))) ∧
   (∀ e, readyCt s e i { g := g } = true →
     (e.r.waited = true → Completes i s (fun t => CtGoesOn s t e 4 ∧ t.core e.c = { s.core e.c with ct := (t.core e.c).ct } ∧ OnlyCore s t e.c)) ∧
     (e.r.waited = false → e.cr.room ctQueue 1 = true → Completes i s (fun t => QueueFrame s t e.c ∧ QueuesGain s t e.c (arrivalCt e) ∧
       t.net = s.net ++ [arriveMsg s e.who e.x sc.toNat b.toNat 1 s.nextId] ∧ LoadsGain s t e.c [] ∧
       (t.core e.c).ct.cur = { (s.core e.c).ct.cur with park := .joining sc.toNat b.toNat s.nextId, begun := true }))))) ∧
  (∀ (s : State) (c lc x sc b n batch : Nat), 1 ≤ sc →
  let w := s.barrier c lc x sc b
  let t := s.arriveAt c lc x sc b n batch
  let v := t.barrier c lc x sc b
  v.expected = w.expected ∧
  (w.expected = 0 → v.arrived = w.arrived + n ∧ v.phase = w.phase) ∧
  (w.expected ≠ 0 → v.arrived < w.expected ∧ v.arrived + w.expected * ((w.arrived + n) / w.expected) = w.arrived + n ∧
    (v.phase = w.phase ↔ (w.arrived + n) / w.expected % 2 = 0)))

/-- R184, R185: `waitu` on resident words registers one wait for each thread, in increasing home lane, with its operand and deadline; each enters its thread's store queue, and the thread parks on it. A wait that is over lets the control thread go on. -/
def Obligations.WaitsAreRegistered : Prop := ∀ (s : State) (f : WaituForm),
  let i : Instr := .waitu f
  let u : Uses := { regs := codeRegs f.p ++ baseRegs f.n, lat := codeLat f.p, preds := f.t != 0 }
  (∀ e, readyVec s e i u = true → e.cr.roomFor e.lanes = true →
    let a := fun l => BitVec.ofNat 64 (e.sourceNat l (waituParts f) 1)
    (∀ l ∈ e.lanes, s.waitTrap e.c e.x (a l) = none ∧ e.cr.watchMask (a l) 4 true true = 0 ∧ (s.residentAt e.c e.x (a l)).isSome) →
    let w := fun l => newWait f (s.nextId + e.lanes.idxOf l) s (e.who l) e.x e.pc (a l) ((s.residentAt e.c e.x (a l)).getD 0)
      (BitVec.ofNat 32 (e.sourceNat l (waituParts f) 0))
    Completes i s (fun t => QueueFrame s t e.c ∧ LoadsGain s t e.c [] ∧ t.net = s.net ∧ t.waits = s.waits ++ e.lanes.map w ∧
      ThreadsTo s t e (fun l x => { parkedAt (.waitu (s.nextId + e.lanes.idxOf l)) x with
        capture := some { pc := e.pc, words := e.captureOf l (waituParts f) } }) ∧
      QueuesGain s t e.c (fun hw => (e.lanes.filter (·.hw = hw)).map (fun l =>
        plainEntry (.wait (w l).id) (e.who l) e.pc (a l) (w l).pa (s.ctx e.x).gen)))) ∧
  (∀ e, readyCt s e i u = true →
    (e.r.waited = true → Completes i s (fun t => CtGoesOn s t e 4 ∧ t.core e.c = { s.core e.c with ct := (t.core e.c).ct } ∧ OnlyCore s t e.c)) ∧
    (e.r.waited = false → e.cr.room ctQueue 1 = true →
      let a := e.base f.n
      s.waitTrap e.c e.x a = none → e.cr.watchMask a 4 true true = 0 → ∀ p, s.residentAt e.c e.x a = some p →
      let w := newWait f s.nextId s e.who e.x e.r.pc a p (e.operand f.p).lo
      Completes i s (fun t => QueueFrame s t e.c ∧ LoadsGain s t e.c [] ∧ t.net = s.net ∧ t.waits = s.waits ++ [w] ∧
        (t.core e.c).ct.cur = { (s.core e.c).ct.cur with park := .waitu s.nextId, begun := true } ∧
        QueuesGain s t e.c (fun hw => if hw = ctQueue then [plainEntry (.wait s.nextId) e.who e.r.pc a p (s.ctx e.x).gen] else []))))

/-- R214, R215: `tdset` sets a tensor descriptor from the 64 bytes at its address once the thread's queue has drained; `qinit` sets a circular buffer up with every slot free, and parks while an accepted command aims at it; `meetinit` sets a barrier's expected count, which may complete phases. -/
def Obligations.DescriptorsBuffersAndBarriersAreSet : Prop := ∀ (s : State) (k : BitVec 7) (q b : BitVec 4) (d : BitVec 6) (sc g : BitVec 3),
  (∀ e x, readyCt s e (.tdset k d g) { g := g, regs := [d.toNat] } = true → e.cr.queue ctQueue = [] →
    let a := e.r.reg d.toNat
    canonical a = true → a.toNat % 64 = 0 → s.xlate e.c e.x a = some x → x.grants permR = true → s.ownsFrame e.x x.pa = true →
    (∀ i < 16, isWindowPa (x.pa + 4 * i) = false) →
    Completes (.tdset k d g) s (fun t =>
      (∀ j, t.desc e.x j = if j = k.toNat then Descriptor.ofWords ((List.range 16).map (fun i => s.homeWord (x.pa + 4 * i))) else s.desc e.x j) ∧
      CtGoesOn s t e 4 ∧ (∀ c, t.core c = { s.core c with ct := (t.core c).ct }) ∧ MemKept s t ∧ t.net = s.net)) ∧
  (∀ e, readyCt s e (.qinit q d g) { g := g, regs := [d.toNat] } = true →
    let w := (e.r.reg d.toNat).toNat
    let size := w / 2 ^ 48
    let count := w / 2 ^ 32 % 2 ^ 16
    let base := w % 2 ^ 19
    w / 2 ^ 19 % 2 ^ 13 = 0 → 1 ≤ size → 1 ≤ count → base % 16 = 0 → base + 16 * size * count ≤ 0x80000 →
    ((∃ m ∈ e.cr.copyQ, m.toQueue = true ∧ m.bar = q.toNat ∧ m.phase ≠ .posted) → Completes (.qinit q d g) s (fun t => ParksCt s t e .qinit)) ∧
    ((∀ m ∈ e.cr.copyQ, m.toQueue = true → m.bar = q.toNat → m.phase = .posted) → Completes (.qinit q d g) s (fun t =>
      (∀ j, (t.core e.c).cbuf j = if j = q.toNat then { base := base, size := 16 * size, count := count, free := count } else (s.core e.c).cbuf j) ∧
      CtGoesOn s t e 4 ∧ (t.core e.c).regs = (s.core e.c).regs ∧ CoreFrame s t e.c (fun z y => { y with cbufs := z.cbufs })))) ∧
  (∀ e, readyCt s e (.meetinit sc b d g) { g := g, regs := [d.toNat] } = true →
    let n := (e.r.reg d.toNat).toNat
    let w := s.barrier e.c e.cr.lcId e.x sc.toNat b.toNat
    n ≤ 65535 → Completes (.meetinit sc b d g) s (fun t =>
      t.barrier e.c e.cr.lcId e.x sc.toNat b.toNat = { expected := n, arrived := if n = 0 then w.arrived else w.arrived % n,
                                                       phase := if n ≠ 0 ∧ w.arrived / n % 2 = 1 then !w.phase else w.phase } ∧
      CtGoesOn s t e 4 ∧ (t.core e.c).regs = (s.core e.c).regs ∧
      (n = 0 ∨ w.arrived < n → (∀ c, (t.core c).wgs = (s.core c).wgs) ∧ MemKept s t ∧ t.net = s.net)))

/-- R217, R218: `bmake`, `bseal` and `bfree` enter the control thread's queue with their address and a pending result.
R159, R163, R164, R213: `launch` in supervisor mode, with its packet aligned, its queue drained and its release made, writes the first code of R163 that applies; a legal packet is accepted as the context's next launch, another changes none. In user mode it traps PRIV; where the release meets an error the effect has no handler in supervisor mode, and the context's removal begins.
The check of a packet answers 0 where no code's condition applies, and else the first that does. -/
def Obligations.BagsAndLaunchesAreManaged : Prop :=
  (∀ (s : State) (a : BitVec 7) (d : BitVec 6) (g : BitVec 3),
  ∀ p ∈ ([(.bmake a d g, 0, true), (.bseal a d g, 1, false), (.bfree a d g, 2, false)] : List (Instr × Nat × Bool)),
  ∀ e, readyCt s e p.1 { g := g, regs := [a.toNat, d.toNat] } = true → e.cr.room ctQueue 1 = true →
  let v := e.r.reg a.toNat
  (p.2.2 = true → canonical v = true ∧ v.toNat % 32 = 0) → Completes p.1 s (fun t => QueueFrame s t e.c ∧ CtGoesOn s t e 4 ∧ t.net = s.net ∧
    LoadsGain s t e.c [bagLoad s p.1 e.who e.x e.r.pc v (some d.toNat) 8 0] ∧
    QueuesGain s t e.c (fun hw => if hw = ctQueue then
      [{ plainEntry (.bagOp p.2.1 s.nextId) e.who e.r.pc v ((s.residentAt e.c e.x v).getD 0) (s.ctx e.x).gen with run := e.r.serial }] else []))) ∧
  (∀ (s : State) (a : BitVec 7) (d : BitVec 6) (g : BitVec 3),
  ∀ e, readyCt s e (.launch a d g) { g := g, regs := [a.toNat, d.toNat] } = true →
  let p := e.r.reg a.toNat
  let r := s.releaseNow e.x (dieOf e.c)
  (e.r.super = true → canonical p = true → p.toNat % 128 = 0 → e.cr.queue ctQueue = [] → r.2 = true →
    (∀ ws, r.1.tableWords e.x p false 32 = some ws →
      let k : Packet := { ws := ws }
      let code := r.1.checkLaunch e.x k (r.1.readTables e.x k)
      Completes (.launch a d g) s (fun t => (t.core e.c).ct.cur.reg d.toNat = BitVec.ofNat 64 code ∧ (t.core e.c).ct.cur.pc = pc48 (e.r.pc + 4) ∧
        (code = 0 → (t.ctx e.x).launches = (s.ctx e.x).launches ++ [r.1.launchOf e.x (e.cr.lcore.getD 0) k (r.1.readTables e.x k)] ∧
          (t.ctx e.x).accepted = (s.ctx e.x).accepted + 1) ∧
        (code ≠ 0 → (t.ctx e.x).launches = (s.ctx e.x).launches ∧ (t.ctx e.x).accepted = (s.ctx e.x).accepted) ∧ (t.core e.c).regs = (s.core e.c).regs ∧ (t.core e.c).wgs = (s.core e.c).wgs)) ∧
    (r.1.tableWords e.x p false 32 = none → Completes (.launch a d g) s (fun t => (t.core e.c).ct.cur.reg d.toNat = 4 ∧
      (t.ctx e.x).launches = (s.ctx e.x).launches ∧ (t.ctx e.x).accepted = (s.ctx e.x).accepted))) ∧
  (e.r.super = true → canonical p = true → p.toNat % 128 = 0 → e.cr.queue ctQueue = [] → r.2 = false → (r.1.ctx e.x).removal = 0 →
    Completes (.launch a d g) s (fun t => RemovalBegun t e.x 0x0A)) ∧
  (trapReadyCt s e → Completes (.launch a d g) s (fun t => TrapTakenCt s t e 7 e.r.pc 0 0))) ∧
  (∀ (s : State) (x : Nat) (p : Packet) (t : Tables), firstFailure 11 (s.checkLaunch x p t) (launchFails s x p t))

/-- R335: `tret` on a slot that holds nothing trapped writes 1 and changes nothing else; on a trapped prologue it writes 0 and the prologue goes on at its saved PC, or after the instruction with `.skip`; after a REMOTE_ERR of an entry held at the head of its queue a retry sends the entry again and a skip discards it, and both go on at the saved PC; with `.kill` the prologue is over. On a trapped workgroup with no replays and a thread that lives it writes 0, the workgroup is resident, and its trapped threads stand at the saved PC, or after the instruction with `.skip`. A save area that breaks R326 removes the context.
R332, R336: `cxsave` with a logical core current requests the switch and holds the control thread until it is out, then writes 0; with none current it writes 1. `cxload` writes 1 with one current, 2 for one that is not remapped here, and else makes the logical core current and writes 0. -/
def Obligations.TrapsReturnAndLogicalCoresAreSaved : Prop :=
  (∀ (s : State) (m : BitVec 3) (a : BitVec 7) (d : BitVec 6) (g : BitVec 3),
  ∀ e, readyCt s e (.tret m a d g) { g := g, regs := codeRegs a ++ [d.toNat] } = true →
  let slot := (e.operand a).toNat
  let base := s.saveArea e.x (e.cr.lcore.getD 0)
  ((slot ≤ 5 → ∀ w, e.cr.wg slot = some w → w.state ≠ .trapped) → (slot = 6 → e.cr.ct.trapped = []) →
    Completes (.tret m a d g) s (fun t => CtDone s t e 4 d.toNat 1)) ∧
  (slot = 6 ∧ e.cr.ct.trapped ≠ [] ∨ (∃ w, slot ≤ 5 ∧ e.cr.wg slot = some w ∧ w.state = .trapped) → s.saveAreaOk e.x base = false →
    (s.ctx e.x).removal = 0 → Completes (.tret m a d g) s (fun t => RemovalBegun t e.x 0x10)) ∧
  (∀ r rest, slot = 6 → e.cr.ct.trapped = r :: rest → s.saveAreaOk e.x base = true →
    let pc := s.prologuePc base r
    let next := { r with pc := pc, park := .none, waited := false, watched := r.watched && decide (m = 0), remote := false, frame := [] }
    let back := fun (n : CtRegs) (t : State) => (t.core e.c).ct.cur.reg d.toNat = 0 ∧ (t.core e.c).ct.trapped = rest ∧
      (t.core e.c).ct.saved = n :: (s.core e.c).ct.saved ∧ (t.core e.c).regs = (s.core e.c).regs ∧ OnlyCore s t e.c ∧ MemKept s t
    (m = 0 → r.remote = false → Completes (.tret m a d g) s (back next)) ∧
    (m = 1 → r.remote = false → Completes (.tret m a d g) s
      (back { next with pc := pc48 (pc + BitVec.ofNat 64 (s.lengthAt e.c e.x pc)), grd := none })) ∧
    (m = 0 → r.remote = true → e.cr.lcore ≠ none → ∀ q, s.heldHead e.c ctQueue e.who = some q → Completes (.tret m a d g) s (fun t => back next t ∧
      (t.core e.c).queue ctQueue = { q with phase := .queued } :: (e.cr.queue ctQueue).tail)) ∧
    (m = 1 → r.remote = true → e.cr.lcore ≠ none → ∀ q, s.heldHead e.c ctQueue e.who = some q → q.more = false → Completes (.tret m a d g) s (fun t =>
      (t.core e.c).ct.cur.reg d.toNat = 0 ∧ (t.core e.c).ct.trapped = rest ∧ (t.core e.c).ct.saved = next :: (s.core e.c).ct.saved ∧
      entriesOf ((t.core e.c).queue ctQueue) = entriesOf (e.cr.queue ctQueue).tail)) ∧
    (m = 2 → ∀ n stage, r.run = .prologue n stage → Completes (.tret m a d g) s (fun t => (t.core e.c).ct.cur.reg d.toNat = 0 ∧
      (t.core e.c).ct.trapped = rest ∧ (t.core e.c).ct.saved = (s.core e.c).ct.saved ∧ MemKept s t ∧
      let past := fun (p : Nat × Nat × Bool) => if p.1 = e.cr.lcore.getD 0 ∧ p.2.1 = stage then (p.1, p.2.1, true) else p
      (t.ctx e.x).launches = (s.ctx e.x).launches.map (fun l => if l.index = n then { l with prologues := l.prologues.map past } else l)))) ∧
  (∀ w, slot ≤ 5 → e.cr.wg slot = some w → w.state = .trapped → (m = 0 ∨ m = 1) → s.saveAreaOk e.x base = true → (∃ k < 8, e.cr.warp k = none) →
    NoErrors s → (∀ v ∈ s.waits, v.evicted = false) →
    (∃ tid < 32 * w.warps, (s.homeWord (base + saveThread (w.hw + tid / 32) (tid % 32) + 0x14)).getLsbD 0 = true) →
    let fr := s.trapFrameAt (base + saveWg slot + saveFrame)
    fr.reps = [] → Completes (.tret m a d g) s (fun t => (t.core e.c).ct.cur.reg d.toNat = 0 ∧ ∃ v, (t.core e.c).wg slot = some v ∧
      v.state = .resident ∧ ∀ kv ∈ fr.thr, fr.tmask.getLsbD kv.1 = true → (∀ kw ∈ fr.thr, kw.2 = kv.2 → kw = kv) →
        (v.thread kv.2).pc = pc48 (fr.pc + (if m = 0 then 0 else if fr.len32 then 4 else 2))))) ∧
  (∀ (s : State) (a : BitVec 7) (d : BitVec 6) (g : BitVec 3),
  (∀ e, readyCt s e (.cxsave d g) { g := g, regs := [d.toNat] } = true →
    (e.r.waited = true → Completes (.cxsave d g) s (fun t => CtDone s t e 4 d.toNat 0)) ∧
    (e.r.waited = false → e.cr.lcore = none → Completes (.cxsave d g) s (fun t => CtDone s t e 4 d.toNat 1)) ∧
    (e.r.waited = false → e.cr.lcore ≠ none → Completes (.cxsave d g) s (fun t => (t.core e.c).switch = true ∧
      (t.core e.c).ct.cur = { (s.core e.c).ct.cur with park := .switch, begun := true } ∧
      (∀ ws w, (s.core e.c).wg ws = some w → (t.core e.c).wg ws = some (if w.state = .resident then { w with evict := true } else w)) ∧
      (t.core e.c).regs = (s.core e.c).regs ∧ OnlyCore s t e.c ∧ MemKept s t))) ∧
  (∀ e, readyCt s e (.cxload a d g) { g := g, regs := codeRegs a ++ [d.toNat] } = true →
    let l := (e.operand a).toNat
    (e.cr.lcore ≠ none → Completes (.cxload a d g) s (fun t => CtDone s t e 4 d.toNat 1)) ∧
    (e.cr.lcore = none → ((s.ctx e.x).grid ≤ l ∨ s.placedAt e.x l ≠ e.c) → Completes (.cxload a d g) s (fun t => CtDone s t e 4 d.toNat 2)) ∧
    (e.cr.lcore = none → l < (s.ctx e.x).grid → s.placedAt e.x l = e.c → s.saveAreaOk e.x (s.saveArea e.x l) = true →
      s.unpoisoned (s.saveArea e.x l) saveBytes = true → Completes (.cxload a d g) s (fun t =>
        (t.core e.c).lcore = some l ∧ (t.core e.c).ct.cur.reg d.toNat = 0 ∧ (t.core e.c).switch = false))))

/-- R337-R340, R294: the other privileged instructions. `genset` gives the next generation and retires the monitor entries of older ones; `xinv` leaves no copy of its lines, whose dirty words have reached memory, where no error and no poisoned word lies in the way; `rdsr` and `wrsr` read and write a system register, which stores a value outside its range as the nearest limit; `tickstop` arms a stop at a tick to come; `dgrd` reads a digest; `halt` halts the context and tells the packages that hold a rank of its collectives. Where debugging is off the last ones, and `wrsr` of a register that is not written, trap in supervisor mode, which removes the context (R322). -/
def Obligations.SystemInstructionsAct : Prop := ∀ (s : State) (a n : BitVec 7) (m : BitVec 3) (h : BitVec 1) (d : BitVec 6) (g : BitVec 3),
  (∀ e, readyCt s e (.genset d g) { g := g, regs := [d.toNat] } = true → e.cr.queue ctQueue = [] →
    let v := (s.ctx e.x).gen + 1
    s.stragglers e.x v = false → (s.releaseNow e.x (dieOf e.c)).2 = true → Completes (.genset d g) s (fun t =>
      (t.ctx e.x).gen = v ∧ (t.core e.c).ct.cur.reg d.toNat = v.setWidth 64 ∧ (t.core e.c).regs = (s.core e.c).regs ∧
      (∀ k, ∀ q ∈ (t.stack k).monitor.flatMap (·.2) ++ (t.stack k).spilled ++ (t.stack k).fallback,
        q.ctx = e.x → q.gen = v ∨ q.waiters.flatMap (·.waits) = []))) ∧
  (∀ e, readyCt s e (.xinv a d g) { g := g, regs := codeRegs a ++ [d.toNat] } = true →
    let p := (e.r.reg a.toNat).toNat
    let c := (e.r.reg d.toNat).toNat
    1 ≤ c → c ≤ 512 → p % 128 = 0 → p % 65536 + 128 * c ≤ 65536 → isWindowPa p = false → s.ownsFrame e.x p = true → s.homeDown p = false →
    NoErrors s → (∀ line, p / 128 ≤ line → line < p / 128 + c → (s.llcLine (line * 128)).dirty &&& (s.llcLine (line * 128)).poison = 0) →
    Completes (.xinv a d g) s (fun t => CtGoesOn s t e 4 ∧ (t.core e.c).regs = (s.core e.c).regs ∧
      ∀ line, p / 128 ≤ line → line < p / 128 + c → t.llcLine (line * 128) = {} ∧
        (∀ j, ((t.die j).line (line * 128)).valid = 0) ∧ (∀ j, ∀ q ∈ (t.core j).l1, q.pline = line → q.valid = 0) ∧
        ∀ i < 32, let b := line * 128 + 4 * i
          (s.dirtyDies b = [] → t.mem.word b = s.homeWord b) ∧
          ∀ j w, s.dirtyDies b = [j] → (s.die j).lostAt b = false → (s.die j).word b = some w → t.mem.word b = w)) ∧
  (∀ e, readyCt s e (.rdsr n d g) { g := g, regs := [d.toNat] } = true → Completes (.rdsr n d g) s (fun t =>
    CtDone s t e 4 d.toNat (s.sysReg e.c e.x n.toNat))) ∧
  (∀ e, readyCt s e (.wrsr h a d g) { g := g, regs := codeRegs a } = true →
    let r := h.toNat * 64 + d.toNat
    let v := storedValue r (e.operand a)
    (isWritable r = true → r ≠ 0x14 → Completes (.wrsr h a d g) s (fun t => t.sysReg e.c e.x r = v ∧ CtGoesOn s t e 4 ∧
      (∀ k, k ≠ r → t.sysReg e.c e.x k = s.sysReg e.c e.x k) ∧ (t.core e.c).regs = (s.core e.c).regs ∧ MemKept s t ∧
      t = { s with cores := t.cores, ctxs := t.ctxs })) ∧
    (isWritable r = false → (s.ctx e.x).removal = 0 → Completes (.wrsr h a d g) s (fun t => RemovalBegun t e.x 7))) ∧
  (∀ e, readyCt s e (.tickstop a d g) { g := g, regs := codeRegs a ++ [d.toNat] } = true →
    let v := e.r.reg a.toNat
    (((s.ctx e.x).reg 0x1C).getLsbD 0 = true → v.toNat ≤ s.tick.toNat → Completes (.tickstop a d g) s (fun t => CtDone s t e 4 d.toNat 1)) ∧
    (((s.ctx e.x).reg 0x1C).getLsbD 0 = true → s.tick.toNat < v.toNat → Completes (.tickstop a d g) s (fun t => t.armed = some v ∧
      (t.core e.c).ct.cur.reg d.toNat = 0 ∧ t = { s with cores := t.cores, armed := some v } ∧ (t.core e.c).regs = (s.core e.c).regs)) ∧
    (((s.ctx e.x).reg 0x1C).getLsbD 0 = false → (s.ctx e.x).removal = 0 → Completes (.tickstop a d g) s (fun t => RemovalBegun t e.x 7))) ∧
  (∀ e, readyCt s e (.dgrd m a d g) { g := g, regs := codeRegs a ++ [d.toNat] } = true →
    (m ≠ 0 → Completes (.dgrd m a d g) s (fun t => CtDone s t e 4 d.toNat e.cr.ct.ldigest)) ∧
    (m = 0 → ∀ w l, (e.operand a).toNat ≤ 5 → e.cr.wg (e.operand a).toNat = some w → s.launch e.x w.launch = some l →
      Completes (.dgrd m a d g) s (fun t => CtDone s t e 4 d.toNat (if l.detMode = 0 then 0 else w.digest)))) ∧
  (∀ e, readyCt s e (.halt g) { g := g } = true →
    (((s.ctx e.x).reg 0x1C).getLsbD 1 = true → Completes (.halt g) s (fun t => (t.ctx e.x).halted = true ∧ (t.ctx e.x).haltedAt = s.tick ∧
      CtGoesOn s t e 4 ∧ (∀ x, x ≠ e.x → t.ctx x = s.ctx x) ∧ (t.core e.c).regs = (s.core e.c).regs ∧ MemKept s t ∧
      t.out = s.out ++ (s.rankPackages e.x).map (fun p => .haltStatus p e.x .halted))) ∧
    (((s.ctx e.x).reg 0x1C).getLsbD 1 = false → (s.ctx e.x).removal = 0 → Completes (.halt g) s (fun t => RemovalBegun t e.x 7))) ∧
  (∀ p ∈ ([(0x15, 16, 24), (0x16, 70000, 35000000), (0x1A, 7000, 35000000), (0x24, 0, 2 ^ 48 - 1), (0x2B, 0, 2 ^ 48 - 1)] : List (Nat × Nat × Nat)),
    ∀ v : DWord, (storedValue p.1 v).toNat = max p.2.1 (min p.2.2 v.toNat))

/-- R25, R76, R81, R82, R96: the head of a store queue leaves: a store of whole words below package scope enters the die's L2, dirty, and the queue moves up; a byte or halfword merges into its word there, or travels to its home; a store at package or pod scope, and a physical one, first has the dirty words of its context written back, then travels; a store that travelled is applied at its home, where no other copy remains; a dirty word of a die is written back; an acknowledged store leaves; one held for a mapping is sent again once its page is mapped.
R102, R104, R106, R108, R133, R141, R182, R185, R217, R218: an atomic and a drain travel and wait; a put, a wait, a bag's make, seal and free travel and leave; a fence makes its acquire; a span writes its dirty words back, and with `.mem` to memory; an arrival counts down its batch; a page request of a resident page writes its word; a command enters its engine's queue. -/
def Obligations.StoresLeaveAndArrive : Prop :=
  (∀ (s : State) (c hw : Nat) (q : Entry) (qs : List Entry),
  (Leaves s c hw q qs →
    let done := Completes (.storeLeaveQueue c hw) s
    let sent := fun (req : Req) (load : Option Nat) (pa : Nat) => done (fun t => HeadSent s t c hw q qs (entryMsg s c hw q req load pa))
    let gone := fun (m : Msg) => noSteals s → done (fun t => HeadGone s t c hw qs { m with hw := hw })
    let request := fun (h : DWord) (req : Req) (id : Nat) => gone (bagRequest s q.who (s.coreCtx c) h req (some id))
    (∀ size data scope own phys, q.kind = .store size data scope own phys → isMemory q.pa →
      (phys = true ∨ 4 ≤ scope ∨ s.activeLine q.pa = true → sent (.store size data) none q.pa) ∧
      (phys = false → scope < 4 → s.activeLine q.pa = false → s.ownsFrame (s.coreCtx c) q.pa = true → s.homeDown q.pa = false → NoErrors s →
        ((size = 4 ∨ size = 8 ∨ size = 16) → q.pa % size = 0 → done (fun t =>
          entriesOf ((t.core c).queue hw) = entriesOf qs ∧ (t.core c).regs = (s.core c).regs ∧ SeenKeptBut s t (dieOf c) q.pa (q.pa + size) ∧
          ∀ i < size / 4, (t.die (dieOf c)).word (q.pa + 4 * i) = some (BitVec.ofNat 32 (data.toNat / 2 ^ (32 * i))) ∧
            (t.die (dieOf c)).dirtyAt (q.pa + 4 * i) = true)) ∧
        ((size = 1 ∨ size = 2) → q.pa % size = 0 →
          ((s.die (dieOf c)).word q.pa = none → sent (.store size data) none q.pa) ∧
          (∀ w, (s.die (dieOf c)).word q.pa = some w → done (fun t => entriesOf ((t.core c).queue hw) = entriesOf qs ∧
            (t.core c).regs = (s.core c).regs ∧ (t.die (dieOf c)).dirtyAt q.pa = true ∧
            ∃ v, (t.die (dieOf c)).word q.pa = some v ∧ ∀ i < 4, byteOf v i =
              if q.pa % 4 ≤ i ∧ i < q.pa % 4 + size then data.toNat / 2 ^ (8 * (i - q.pa % 4)) % 256 else byteOf w i))))) ∧
    (∀ op w64 upd ord v k dest, q.kind = .atomic op w64 upd ord v k dest → sent (.atomic op w64 upd v k) (dest.map (fun _ => 0)) q.pa) ∧
    (∀ id, q.kind = .drain id → ∀ b p, s.recordSlot (s.coreCtx c) q.va = some (b, p) → sent .drain (some id) b.headerPa) ∧
    (∀ id h key ws, q.kind = .put id h key ws → request h (.put key ws) id) ∧
    (∀ id, q.kind = .wait id → (s.die (dieOf c)).dirtyAt q.pa = false → gone (entryMsg s c hw q (.wait id) none q.pa)) ∧
    (∀ id, q.kind = .bagOp 1 id → request q.va .seal id) ∧
    (∀ id, q.kind = .bagOp 2 id → request q.va .free id) ∧
    (∀ id ws, q.kind = .bagOp 0 id → s.tableWords (s.coreCtx c) q.va false 8 = some ws → request (dword (ws.getD 0 0) (ws.getD 1 0)) (.make ws) id) ∧
    (∀ id, q.kind = .bagOp 0 id → s.tableWords (s.coreCtx c) q.va false 8 = none → done (fun t => (t.core c).queue hw = qs ∧
      (t.core c).loads = filled (s.core c).loads id q.who (some 3))) ∧
    (∀ scope, q.kind = .fence scope → done (fun t => (t.core c).queue hw = qs ∧ (t.core c).regs = (s.core c).regs ∧
      (2 ≤ scope → noL1 (t.core c) (s.coreCtx c)))) ∧
    (∀ len mem inv, q.kind = .span len mem inv → NoErrors s → (inv = true → s.isHere q.who = true) →
      (∀ a ∈ wordsAt q.pa len, (s.die (dieOf c)).dirtyAt a = true → s.homeDown a = false) → done (fun t =>
        entriesOf ((t.core c).queue hw) = entriesOf qs ∧ (t.core c).regs = (s.core c).regs ∧
        ∀ a ∈ wordsAt q.pa len, ∀ w, (s.die (dieOf c)).word a = some w →
          (inv = true → (t.die (dieOf c)).word a = none) ∧
          ((s.die (dieOf c)).dirtyAt a = true → (s.die (dieOf c)).lostAt a = false → t.homeWord a = w ∧ (t.die (dieOf c)).dirtyAt a = false ∧
            (mem = true → t.mem.word a = w)))) ∧
    (∀ batch scope, q.kind = .arrive batch scope → noSteals s → done (fun t => (t.core c).queue hw = qs ∧ (t.core c).regs = (s.core c).regs ∧
      t.net = s.net.map (fun m => match m.req with
        | .arrive sc id n left => if m.load = some batch then { m with req := .arrive sc id n (left - 1) } else m
        | _ => m))) ∧
    (∀ word p a, q.kind = .pgreq word → s.walk (s.coreCtx c) q.va = some p → s.ownsFrame (s.coreCtx c) p.pa = true → s.homeDown q.pa = false →
      s.walk (s.coreCtx c) word = some a → a.grants permW = true → s.isHeader a.pa = false → isWindowPa a.pa = false → s.homeDown a.pa = false →
      done (fun t => entriesOf ((t.core c).queue hw) = entriesOf qs ∧ (t.core c).regs = (s.core c).regs ∧ t.homeWord a.pa = 1)) ∧
    (∀ m, q.kind = .command m → (m.op.isCopy = true → ((s.core c).copyQ.filter (fun d => d.phase != .started)).length < 16 →
        done (fun t => (t.core c).queue hw = qs ∧ (t.core c).copyQ = (s.core c).copyQ ++ [m])) ∧
      (m.op.isCopy = false → m.op.isShared = false → s.tableLoad (quadOf c) < 32 →
        done (fun t => (t.core c).queue hw = qs ∧ (t.core c).matQ = (s.core c).matQ ++ [m])) ∧
      (∀ b, m.op = .ade b → (∃ a b c d e, m.who = .lane a b c d e) → (s.stack (s.adeStack m)).ade.length < 64 →
        done (fun t => (t.core c).queue hw = qs ∧ (t.stack (s.adeStack m)).ade = (s.stack (s.adeStack m)).ade ++ [m])))) ∧
  ((s.core c).queue hw = q :: qs → noFinish s c qs → q.phase = .queued → (s.core c).blocked hw q = false → q.gen = (s.ctx (s.coreCtx c)).gen →
    (5 ≤ q.kind.release → s.peerWritesOut (s.coreCtx c) = false) → s.releaseWords c q ≠ [] → (∀ w ∈ s.releaseWords c q, s.homeDown (4 * w) = false) →
    Completes (.storeLeaveQueue c hw) s (fun t => (t.core c).queue hw = { q with phase := .releasing (s.releaseWords c q) } :: qs ∧ OnlyCore s t c ∧
      (t.core c).regs = (s.core c).regs ∧ MemKept s t)) ∧
  (4 ≤ q.kind.release → s.releaseWords c q = s.dirtyWords (s.coreCtx c) (dieOf c))) ∧
  (∀ (s : State) (c hw n : Nat),
  (∀ m size data, Asked s n m → m.req = .store size data → s.writeWaits m.pa = false → isWindowPa m.pa = false → NoErrors s →
    (size = 4 ∨ size = 8 ∨ size = 16) → m.pa % size = 0 →
    Completes (.homeWrite (.message n)) s (fun t => repliedWith t n (.value 0) ∧ t.net.length ≥ s.net.length ∧
      (∀ i < size / 4, t.homeWord (m.pa + 4 * i) = BitVec.ofNat 32 (data.toNat / 2 ^ (32 * i)) ∧ ∀ d, (t.die d).word (m.pa + 4 * i) = none) ∧
      ∀ a, a % 4 = 0 → (a < m.pa ∨ m.pa + size ≤ a) → t.homeWord a = s.homeWord a)) ∧
  (∀ m size data, Asked s n m → m.req = .store size data → s.writeWaits m.pa = false → isWindowPa m.pa = false → soundWord s m.pa →
    (size = 1 ∨ size = 2) → m.pa % size = 0 →
    Completes (.homeWrite (.message n)) s (fun t => repliedWith t n (.value 0) ∧
      (∀ i < 4, byteOf (t.homeWord m.pa) i =
        if m.pa % 4 ≤ i ∧ i < m.pa % 4 + size then data.toNat / 2 ^ (8 * (i - m.pa % 4)) % 256 else byteOf (s.homeWord m.pa) i) ∧
      ∀ d, (t.die d).word m.pa = none)) ∧
  (∀ d word w, (s.die d).word (4 * word) = some w → (s.die d).dirtyAt (4 * word) = true → (s.die d).lostAt (4 * word) = false →
    s.homeDown (4 * word) = false → s.writeWaits (4 * word) = false → NoErrors s →
    Completes (.homeWrite (.dirtyWord d word)) s (fun t => t.homeWord (4 * word) = w ∧ (t.die d).word (4 * word) = some w ∧
      (t.die d).dirtyAt (4 * word) = false ∧ ∀ a, a % 4 = 0 → a ≠ 4 * word → t.homeWord a = s.homeWord a)) ∧
  (∀ q qs size data scope own phys m, (s.core c).queue hw = q :: qs → noFinish s c qs → q.phase = .sent →
    q.kind = .store size data scope own phys →
    s.net.findIdx? (fun m => m.hw = hw && m.who == q.who && m.reply.isSome && m.req == .store size data) = some n → Replied s n m (.value 0) →
    Completes (.writeAcknowledgement c hw) s (fun t => (t.core c).queue hw = qs ∧ t.net.length + 1 = s.net.length ∧ MemKept s t ∧
      (t.core c).regs = (s.core c).regs)) ∧
  (∀ q qs, (s.core c).queue hw = q :: qs → q.phase = .held 0 → (s.core c).queueSaved hw = false → s.again c (s.coreCtx c) q.va 0 ≠ .absent →
    Completes (.heldEntryResend c hw) s (fun t => (t.core c).queue hw = { q with phase := .queued } :: qs ∧ MemKept s t ∧ t.net = s.net ∧
      (t.core c).regs = (s.core c).regs ∧ OnlyCore s t c)))

/-- R78, R80, R91, R93, R96, R157, R171, R345, R353, R396: a load at its home reads past its die's dirty copy, a plain one what its L1, its die's L2 or its home holds. A result that is due reaches its thread's registers, a byte or halfword extended as its instruction says, and its predicates; a load that was refused writes zeros and clears them; poison is owed to the thread; an acquire empties the L1; a thread parked for the result goes on, and a control thread's result reaches its register. A stale request is retranslated and sent again, a load of a page that is absent is refused and a store held, and a wait registers anew. A request to a die that is down is answered: a load is refused, a store held with code 5, whose thread takes REMOTE_ERR; the answer to a context that is being removed is discarded. -/
def Obligations.LoadsReturn : Prop := ∀ (s : State) (c n : Nat),
  (∀ m id size p, Asked s n m → m.req = .load c id size → isWindowPa m.pa = false → NoErrors s → m.pa % size = 0 →
    (size = 1 ∨ size = 2 ∨ size = 4 ∨ size = 8 ∨ size = 16) →
    (∀ a ∈ wordsAt m.pa size, s.poisoned a = false ∧ (s.die (dieOf c)).lostAt a = false) →
    (s.core c).readsBefore id m = false → (s.core c).loads.find? (fun p => p.id = id && p.who == m.who && p.data.isNone) = some p →
    (p.kind ≠ .plain → Completes (.homeRead n) s (fun t => SeenKept s t (dieOf c) ∧ (t.core c).regs = (s.core c).regs ∧
      ∃ v : BitVec 128, (t.core c).loads = filled (s.core c).loads id m.who (some v) ∧ v.toNat < 2 ^ (8 * size) ∧
        ∀ i < size, v.toNat / 2 ^ (8 * i) % 256 = byteOf (s.freshWord (dieOf c) (m.pa + i)) ((m.pa + i) % 4))) ∧
    (p.kind = .plain → size = 4 → s.memBad m.pa = false → Completes (.homeRead n) s (fun t => SeenKept s t (dieOf c) ∧
      (t.core c).regs = (s.core c).regs ∧
      ∃ w : Word, (t.core c).loads = filled (s.core c).loads id m.who (some (w.setWidth 128)) ∧
        ((∃ e ∈ (s.core c).l1, e.ctx = m.ctx ∧ e.gen = m.gen ∧ e.valid.getLsbD (widx m.pa) = true ∧ w = SMap.get 0 (widx m.pa) e.data) ∨
          (s.die (dieOf c)).word m.pa = some w ∨ w = s.freshWord (dieOf c) m.pa)))) ∧
  (∀ p, (s.core c).loads[n]? = some p → p.data ≠ none → (p.isLoad = true → ∀ q ∈ (s.core c).loads.take n, q.isLoad = true → q.who ≠ p.who) →
    let words := max 1 (p.size / 4)
    (∀ hw ws tid, laneHere s p.who c hw ws tid →
      let word := fun (k : Nat) => match p.data with
        | some (some v) =>
          if p.size < 4 ∧ p.signed = true then BitVec.ofInt 32 (BitVec.ofNat (8 * p.size) v.toNat).toInt
          else BitVec.ofNat 32 (v.toNat % 2 ^ (8 * p.size) / 2 ^ (32 * k))
        | _ => 0
      (∀ d, p.scope = 0 → p.poison = none → p.remote = false → p.dest = some d →
        (p.size = 1 ∨ p.size = 2 ∨ p.size = 4 ∨ p.size = 8 ∨ p.size = 16) → d + words ≤ 64 →
        Completes (.loadReply c n) s (fun t => (t.core c).loads.map notLate = ((s.core c).loads.eraseIdx n).map notLate ∧ MemKept s t ∧ t.net = s.net ∧
          (∀ h k lane, k < 64 → lane < 32 → (t.core c).reg h k lane =
            if h = hw ∧ lane = tid % 32 ∧ d ≤ k ∧ k < d + words then word (k - d) else (s.core c).reg h k lane) ∧
          (∀ j, (t.thread c ws tid).pred j = if p.pred ≠ 0 ∧ p.pred ≤ j ∧ j < p.pred + words ∧ j ≤ 7 then p.ok else (s.thread c ws tid).pred j) ∧
          (∀ u x, (u ≠ ws ∨ x ≠ tid) → t.thread c u x = s.thread c u x))) ∧
      (∀ i, p.scope = 0 → p.poison = some i → p.remote = false → (s.thread c ws tid).live = true → (s.thread c ws tid).park = .none →
        Completes (.loadReply c n) s (fun t => (t.thread c ws tid).poison = some (wordOfAccess p.va i) ∧ MemKept s t ∧ t.net = s.net)) ∧
      (2 ≤ p.scope → p.poison = none → p.remote = false → p.record = none →
        Completes (.loadReply c n) s (fun t => noL1 (t.core c) (s.coreCtx c) ∧ t.net = s.net ∧
          (t.thread c ws tid).loadHold = (s.thread c ws tid).loadHold - 1)) ∧
      (p.scope = 0 → p.poison = none → p.remote = true → (s.thread c ws tid).park = .remote → Completes (.loadReply c n) s (fun t =>
        (t.thread c ws tid).park = .none ∧ (t.thread c ws tid).pc = (s.thread c ws tid).pc ∧ MemKept s t ∧ t.net = s.net))) ∧
    (∀ lc d v, p.who = .ct c lc → (s.core c).lcore = some lc → p.warp = some (s.core c).ct.cur.tag → p.scope = 0 → p.poison = none → p.remote = false →
      p.data = some (some v) → p.dest = some d → p.pred = 0 → (p.size = 1 ∨ p.size = 2 ∨ p.size = 4 ∨ p.size = 8) →
      Completes (.loadReply c n) s (fun t => (t.core c).ct.cur = (s.core c).ct.cur.setReg d
        (if p.signed then BitVec.ofInt 64 (BitVec.ofNat (8 * p.size) v.toNat).toInt else BitVec.ofNat 64 (v.toNat % 2 ^ (8 * p.size))) ∧
        (t.core c).regs = (s.core c).regs ∧ MemKept s t ∧ t.net = s.net))) ∧
  (∀ m, s.net[n]? = some m → m.reply = none → genOlder (s.ctx m.ctx).gen m.gen = true →
    let gen := (s.ctx m.ctx).gen
    let y := s.core m.who.core
    ((∃ size data, m.req = .store size data ∧ s.isPhys m = false) ∨ (∃ op w64 upd v k, m.req = .atomic op w64 upd v k) →
      (∀ pa, s.again m.who.core m.ctx m.va m.need = .at_ pa → Completes (.staleRejectRetry n) s (fun t =>
        t.net[n]? = some { m with pa := pa, gen := gen } ∧ MemKept s t ∧ (t.core m.who.core).regs = y.regs ∧
        ∀ q qs, y.queue m.hw = q :: qs → q.phase = .sent → q.who = m.who →
          (t.core m.who.core).queue m.hw = { q with pa := pa, gen := gen } :: qs)) ∧
      (s.again m.who.core m.ctx m.va m.need = .absent → ∀ q qs, y.queue m.hw = q :: qs → Completes (.staleRejectRetry n) s (fun t =>
        ∃ r, (t.core m.who.core).queue m.hw = { q with phase := .held 0 } :: r ∧ entriesOf r = entriesOf qs))) ∧
    (∀ d id size, m.req = .load d id size →
      (∀ pa, s.again m.who.core m.ctx m.va permR = .at_ pa → Completes (.staleRejectRetry n) s (fun t =>
        t.net[n]? = some { m with pa := pa, gen := gen } ∧ MemKept s t ∧ (t.core d).regs = (s.core d).regs ∧
        (t.core d).loads = (s.core d).loads.map (fun p => if p.id = id ∧ p.who = m.who ∧ p.data = none then { p with pa := pa, gen := gen } else p))) ∧
      (s.again m.who.core m.ctx m.va permR = .absent → Completes (.staleRejectRetry n) s (fun t => t.net = s.net.eraseIdx n ∧ MemKept s t ∧
        (t.core d).loads = filled (s.core d).loads id m.who none ∧ (t.core d).regs = (s.core d).regs))) ∧
    (∀ id w a, m.req = .wait id → s.waits.find? (·.id = id) = some w → w.id = id → s.xlate w.who.core w.ctx w.va = some a →
      s.ownsFrame w.ctx a.pa = true → a.grants permRW = true → Completes (.staleRejectRetry n) s (fun t =>
        (∃ r, t.net = s.net.eraseIdx n ++ [r] ∧ r.req = .wait id ∧ r.who = w.who ∧ r.pa = a.pa ∧ r.gen = (s.ctx w.ctx).gen ∧ r.reply = none) ∧
        MemKept s t ∧ t.cores = s.cores))) ∧
  (∀ m, s.net[n]? = some m → m.reply = none → isWindowPa m.pa = false → s.homeDown m.pa = true →
    (∀ id p, m.req = .load c id 4 → (s.ctx m.ctx).removal = 0 →
      (s.core c).loads.find? (fun p => p.id = id && p.who == m.who && p.data.isNone) = some p → p.kind ≠ .plain →
      (s.die (dieOf c)).dirtyAt (wordAddr m.pa) = false → Completes (.errorReply n) s (fun t =>
        (t.core c).loads = filled (s.core c).loads id m.who none ∧ (t.core c).regs = (s.core c).regs)) ∧
    (∀ q qs size data hw ws tid, m.req = .store size data → (s.ctx m.ctx).removal = 0 →
      (s.core c).queue m.hw = q :: qs → q.who = m.who → laneHere s m.who c hw ws tid → (s.thread c ws tid).live = true →
      (s.thread c ws tid).park = .none → (s.thread c ws tid).effect = none → Completes (.errorReply n) s (fun t =>
        (∃ r, (t.core c).queue m.hw = { q with phase := .held 5 } :: r ∧ entriesOf r = entriesOf qs) ∧
        (t.thread c ws tid).effect = some { id := effREMOTEERR, arg := 5, at_ := false })) ∧
    (∀ size data, m.req = .store size data → (s.ctx m.ctx).removal ≠ 0 → Completes (.errorReply n) s (fun t =>
      t = { s with net := s.net.eraseIdx n })))

/-- R100-R102, R147: an atomic on a word at its home gives the new value of its operation in one step, and answers with the old one; its reply takes its entry off the queue and gives the pending result its data, or, where that ends its workgroup, its register. -/
def Obligations.AtomicsAtTheirHome : Prop := ∀ (s : State) (n : Nat),
  (∀ (m : Msg) (op : BitVec 4) (upd : Bool) (v k : Word), Asked s n m → m.req = .atomic op false upd (v.setWidth 64) (k.setWidth 64) → op.toNat ≤ 13 →
    s.writeWaits m.pa = false → isWindowPa m.pa = false → m.pa % 4 = 0 → soundWord s m.pa →
    Completes (.atomicAtHome n) s (fun t => repliedWith t n (.value ((s.homeWord m.pa).setWidth 64)) ∧
      t.homeWord m.pa = atomWord op.toNat (s.homeWord m.pa) v k ∧ (∀ a, a % 4 = 0 → a ≠ m.pa → t.homeWord a = s.homeWord a) ∧
      (upd = false → ∀ d, (t.die d).word m.pa = none))) ∧
  (∀ m op w64 upd v k q qs p x c hw ws tid, Replied s n m (.value x) → m.req = .atomic op w64 upd v k → m.load ≠ none →
    laneHere s m.who c hw ws tid → (s.core c).queue m.hw = q :: qs → q.phase = .sent →
    (s.core c).loads.find? (fun p => p.kind == .atomic && p.who == m.who && p.data.isNone && p.va == q.va) = some p →
    (noFinish s c qs → Completes (.atomicReply n) s (fun t => (t.core c).queue m.hw = qs ∧ t.net.length + 1 = s.net.length ∧ MemKept s t ∧
      (t.core c).regs = (s.core c).regs ∧ ∃ u, u ∈ (t.core c).loads ∧ u = { p with data := some (some (x.setWidth 128)), poison := none })) ∧
    (∀ g d, qs = [] → m.hw = hw → (s.core c).wgs = [(ws, some g)] → g.started = true → g.hw ≤ hw → hw < g.hw + g.warps →
      (∀ kv ∈ g.threads, kv.2.live = false) → (∀ h, h ≠ hw → (s.core c).queue h = []) → (s.core c).loads = [p] → p.dest = some d → d < 64 →
      p.size = 4 → p.signed = false → Completes (.atomicReply n) s (fun t => (t.core c).wg ws = none ∧ (t.core c).queue hw = [] ∧
        (t.core c).reg hw d (tid % 32) = x.setWidth 32)))

/-- R185, R186, R188: a wait that reaches its home is answered where the word meets its condition, and is registered there otherwise; one that would have to go to a full fallback region waits; a sweep takes the fallback entries of its slice that a logged write since their registration or the current value satisfies.
R184: the conditions of a wait on a word and its operand. -/
def Obligations.WaitsAtTheirHome : Prop :=
  (∀ (s : State) (n stack slice : Nat),
  (∀ m id w, Asked s n m → m.req = .wait id → s.waits.find? (·.id = id) = some w → isWindowPa m.pa = false → soundWord s m.pa →
    (waitCond w.cmp (s.homeWord m.pa) w.x false = true → Completes (.waitArrive n) s (fun t => repliedWith t n (.waited true) ∧ MemKept s t ∧
      t.waits = s.waits ∧ t.cores = s.cores)) ∧
    (waitCond w.cmp (s.homeWord m.pa) w.x false = false →
      (s.registerWaits { w with pa := m.pa, gen := m.gen } = false → Completes (.waitArrive n) s (fun t => t.net = s.net.eraseIdx n ∧
        (t.stack (homeStack m.pa)).holdsWait id = true ∧ t.waits = s.waits ∧ t.cores = s.cores ∧ MemKept s t)) ∧
      (s.registerWaits { w with pa := m.pa, gen := m.gen } = true → Completes (.waitArrive n) s (fun t => t = s)))) ∧
  Completes (.fallbackSweep stack slice) s (fun t =>
    let hit := fun (e : MonEntry) => homeSlice (4 * e.word) = slice ∧
      ((∃ p ∈ ((s.stack stack).wlog.filter (·.1 = e.word)).drop e.seen, waitCond e.cmp p.2 e.x true = true) ∨
        waitCond e.cmp (s.homeWord (4 * e.word)) e.x false = true)
    (∀ e, e ∈ (t.stack stack).fallback ↔ ∃ d ∈ (s.stack stack).fallback, ¬hit d ∧ e = if homeSlice (4 * d.word) = slice then { d with seen := 0 } else d) ∧
    (∀ p ∈ (t.stack stack).wlog, homeSlice (4 * p.1) ≠ slice) ∧ MemKept s t ∧ t.cores = s.cores ∧ t.waits = s.waits ∧
    ∀ e ∈ (s.stack stack).fallback, hit e → ∀ w ∈ e.waiters, ∀ id ∈ w.waits, (s.waits.find? (·.id = id)).isSome →
      ∃ m ∈ t.net, m.req = .wait id ∧ m.reply = some (.waited true))) ∧
  (∀ (w x : Word) (written : Bool),
  (waitCond 0 w x written = true ↔ w = x) ∧ (waitCond 1 w x written = true ↔ w ≠ x) ∧
  (waitCond 2 w x written = true ↔ w.toInt < x.toInt) ∧ (waitCond 3 w x written = true ↔ x.toInt ≤ w.toInt) ∧
  (waitCond 4 w x written = true ↔ w.toNat < x.toNat) ∧ (waitCond 5 w x written = true ↔ x.toNat ≤ w.toNat) ∧
  (waitCond 6 w x written = written) ∧ (waitCond 7 w x written = true ↔ w &&& x = x))

/-- R185, R189, R190: at its deadline a wait's cancel goes to its home; applied there first it frees the record, or takes the wait that waits there for room, and answers TIMEOUT, and one that comes late does nothing; a TRUE reply sends a thread on its core past its wait, with an acquire and its predicate set, a TIMEOUT clears the predicate; a reply for an evicted thread marks it woken in its record, and makes its workgroup runnable. -/
def Obligations.WaitsEnd : Prop := ∀ (s : State) (n : Nat),
  (∀ w d, s.waits.find? (·.id = n) = some w → w.deadline = some d → d.toNat ≤ s.tick.toNat → w.canceled = false →
    (∀ kv ∈ s.cores, ∀ q ∈ kv.2.queues, ∀ e ∈ q.2, e.kind ≠ .wait n) →
    Completes (.waitDeadline n) s (fun t => (∃ m, t.net = s.net ++ [m] ∧ m.req = .cancel n ∧ m.pa = w.pa ∧ m.who = w.who ∧ m.reply = none) ∧
      t.waits = s.waits.map (fun v => if v.id = n then { v with canceled := true } else v) ∧ t.cores = s.cores ∧ MemKept s t)) ∧
  (∀ m id w, s.net[n]? = some m → m.reply = none → m.req = .cancel id → s.waits.find? (·.id = id) = some w → isWindowPa m.pa = false →
    s.homeDown m.pa = false →
    let timesOut := Completes (.waitCancel n) s (fun t => (∀ k, (t.stack k).holdsWait id = false) ∧
      (∃ r ∈ t.net, r.req = .wait id ∧ r.who = w.who ∧ r.reply = some (.waited false)) ∧ t.cores = s.cores ∧ MemKept s t)
    ((∀ o ∈ s.net, o.req = .wait id → o.reply ≠ none) →
      ((∃ kv ∈ s.hbm, kv.2.holdsWait id = true) ∨ w.evicted = true → timesOut) ∧
      ((∀ kv ∈ s.hbm, kv.2.holdsWait id = false) → w.evicted = false → Completes (.waitCancel n) s (fun t => t = { s with net := s.net.eraseIdx n }))) ∧
    (∀ k o, s.net.findIdx? (fun o => o.req == .wait id && o.reply.isNone) = some k → s.net[k]? = some o → isWindowPa o.pa = false →
      s.applicable o = true → soundWord s o.pa → waitCond w.cmp (s.homeWord o.pa) w.x false = false → timesOut)) ∧
  (∀ m id w c hw ws tid, s.net[n]? = some m → m.req = .wait id → s.waits.find? (·.id = id) = some w → laneHere s w.who c hw ws tid →
    (m.reply = some (.waited true) → Completes (.waitReply n) s (fun t =>
      let x := s.thread c ws tid
      let y := t.thread c ws tid
      y.pc = pc48 (x.pc + 4) ∧ y.park = .none ∧ (w.st ≠ 0 → w.st ≤ 7 → y.pred w.st = true) ∧ (∀ k, k ≠ w.st → y.pred k = x.pred k) ∧
      t.waits = s.waits.filter (·.id ≠ id) ∧ (2 ≤ w.scope → noL1 (t.core c) (s.coreCtx c)) ∧ (t.core c).regs = (s.core c).regs ∧
      (∀ u z, (u ≠ ws ∨ z ≠ tid) → t.thread c u z = s.thread c u z) ∧ MemKept s t)) ∧
    (m.reply = some (.waited false) → w.st ≠ 0 → w.st ≤ 7 → Completes (.waitReply n) s (fun t =>
      let x := s.thread c ws tid
      let y := t.thread c ws tid
      y.pc = pc48 (x.pc + 4) ∧ y.park = .none ∧ y.pred w.st = false ∧ (∀ k, k ≠ w.st → y.pred k = x.pred k) ∧ (t.core c).l1 = (s.core c).l1 ∧
      t.waits = s.waits.filter (·.id ≠ id) ∧ (t.core c).regs = (s.core c).regs ∧ MemKept s t))) ∧
  (∀ m id w c lc hw ws tid g, s.net[n]? = some m → m.req = .wait id → m.reply = some (.waited true) → s.waits.find? (·.id = id) = some w →
    w.who = .lane c lc hw ws tid → s.findWg c lc ws = some g → g.state = .evictedWaiting →
    s.saveAreaOk g.ctx (s.saveArea g.ctx lc) = true → Completes (.evictedWake n) s (fun t =>
      (∃ v, t.findWg c lc ws = some v ∧ v.state = .evictedRunnable ∧ (v.thread tid).woken = true ∧ (v.thread tid).park = .none ∧
        (1 < w.scope → ∃ sc, (v.thread tid).acquire = some sc ∧ w.scope ≤ sc)) ∧
      (t.homeWord (s.recordAt g.ctx lc hw tid + 0x24)).getLsbD 8 = true ∧ t.waits = s.waits.filter (·.id ≠ id)))

/-- R105, R182: a promotion takes note of what its victim's queues hold, and is acknowledged once that has left; the issuer then acquires and holds its later loads no longer; a batch whose releases are done arrives at its barrier. -/
def Obligations.PromotionsAndArrivals : Prop := ∀ (s : State) (n : Nat),
  (∀ m v sc, s.net[n]? = some m → m.reply = none →
    (m.req = .steal v sc none → Completes (.stealPromotion n) s (fun t =>
      (∃ l, t.net = s.net.set n { m with req := .steal v sc (some l) } ∧ (∀ q k, (q, k) ∈ l → k ≠ 0) ∧
        ∀ q, (s.core v).queue q ≠ [] → (q, ((s.core v).queue q).length) ∈ l) ∧ t = { s with net := t.net })) ∧
    (m.req = .steal v sc (some []) → (sc < 4 ∨ s.dirtyWords m.ctx (dieOf v) = []) → Completes (.stealPromotion n) s (fun t => repliedWith t n (.value 0) ∧ t = { s with net := t.net }))) ∧
  (∀ m v sc l c hw ws tid, Replied s n m (.value 0) → m.req = .steal v sc l → laneHere s m.who c hw ws tid → m.ctx = s.coreCtx c →
    Completes (.stealAck n) s (fun t => t.net = s.net.eraseIdx n ∧ (t.thread c ws tid).loadHold = (s.thread c ws tid).loadHold - 1 ∧
      (2 ≤ sc → noL1 (t.core c) m.ctx) ∧ (t.core c).regs = (s.core c).regs ∧ MemKept s t)) ∧
  (∀ m sc b k, s.net[n]? = some m → m.reply = none → m.req = .arrive sc b k 0 →
    let w := s.barrier m.who.core m.who.lcore m.ctx sc b
    Completes (.barrierArrival n) s (fun t =>
      let v := t.barrier m.who.core m.who.lcore m.ctx sc b
      v.expected = w.expected ∧ v.arrived = (if w.expected = 0 then w.arrived + k else (w.arrived + k) % w.expected) ∧
      (v.phase = w.phase ↔ w.expected = 0 ∨ (w.arrived + k) / w.expected % 2 = 0)))

/-- R126, R128, R129, R133, R141: a put at its home Staithe is refused by a sealed or quiescent bag, answered FULL where no share it may take has room, and placed otherwise: a work bag in the share of its key, another in the hashed share unless that is full or too far above the least loaded, at a free slot; a drain frees the slot at whose first byte it names, and is charged to its thread in a work bag. The header page follows. Where no live bag has the header a put is refused, a cursor starts done or steps malformed, a count is 0 or all ones, and growth does nothing.
R136-R138, R142: a snapshot gives a cursor over a share's slots up to its capacity and the share's serial; a step gives the next live record that is old enough for the cursor, 0 at the end, 1 for a cursor that is malformed or too old; a count gives the bag's or the share's; growth within the limit raises the capacity, beyond it replies RESERVE. -/
def Obligations.RequestsAtTheStaithe : Prop :=
  (∀ (s : State) (n : Nat) (m : Msg), atHome s n m →
  (∀ key words b, m.req = .put key words → s.bagAt m.ctx m.va = some b →
    let no := (b.sealed = true ∧ b.work = false) ∨ b.quiescent = true ∨ (b.work = true ∧ b.sealed = true ∧ ∀ w ∈ b.workers, w.who = m.who → w.member = false)
    let hash := if b.logb = 0 then 0 else ((key * 0x9E3779B1) >>> (32 - b.logb)).toNat
    let near := b.countOf hash < b.cap ∧ ∀ i < 2 ^ b.logb, b.countOf hash ≤ b.countOf i + b.thresh
    (no → Completes (.staithePut n) s (fun t => repliedWith t n .refused ∧ OnlyNet s t)) ∧
    (¬no → (b.work = true → b.cap ≤ b.countOf (key.toNat % 2 ^ b.logb)) → (b.work = false → ∀ i < 2 ^ b.logb, b.cap ≤ b.countOf i) → b.logb ≤ 12 →
      Completes (.staithePut n) s (fun t => repliedWith t n (.full b.cap) ∧ OnlyNet s t)) ∧
    (∀ k, ¬no → b.logb ≤ 12 → b.headerPa % 4 = 0 → k < 2 ^ b.logb → b.countOf k < b.cap → (∃ j < b.cap, ¬slotTaken b k j) →
      (if b.work then k = key.toNat % 2 ^ b.logb else (near → k = hash) ∧ (¬near → ∀ i < 2 ^ b.logb, b.countOf i < b.cap →
        b.countOf k < b.countOf i ∨ (b.countOf k = b.countOf i ∧ k ≤ i))) →
      Completes (.staithePut n) s (fun t => repliedWith t n .placed ∧
        t.homeWord b.headerPa = BitVec.ofNat 32 (b.total + 1) ∧
        ∃ v j, t.bagAt m.ctx m.va = some v ∧ v.total = b.total + 1 ∧ j < b.cap ∧ ¬slotTaken b k j ∧ slotTaken v k j ∧
          ((∀ r ∈ (b.share k).rows, r.1 ≠ key) → ∀ i < j, slotTaken b k i) ∧ (∀ i, v.countOf i = if i = k then b.countOf k + 1 else b.countOf i) ∧
          (∀ i w, words[i]? = some w → (b.slotPa k j + 4 * i + 4 ≤ b.headerPa ∨ b.headerPa + 65536 ≤ b.slotPa k j + 4 * i) →
            t.homeWord (b.slotPa k j + 4 * i) = w) ∧
          ((∀ i < words.length, b.slotPa k j + 4 * i + 4 ≤ b.headerPa ∨ b.headerPa + 65536 ≤ b.slotPa k j + 4 * i) → HeaderSound s b → HeaderAt t v)))) ∧
  (s.bagAt m.ctx m.va = none →
    (∀ key words, m.req = .put key words → Completes (.staithePut n) s (fun t => OnlyNet s t ∧ repliedWith t n .refused)) ∧
    (∀ slot share, m.req = .snapshot slot share → Completes (.staitheSnapshot n) s (fun t => OnlyNet s t ∧
      ∃ c0 c1 c2, c1.toNat / 65536 = c1.toNat % 65536 ∧ repliedWith t n (.cursor 0 c0 c1 c2))) ∧
    (∀ c0 c1 c2, m.req = .next c0 c1 c2 → Completes (.staitheNext n) s (fun t => OnlyNet s t ∧
      repliedWith t n (.cursor 1 c0 (BitVec.ofNat 32 (c1.toNat % 65536 * 65537)) c2))) ∧
    (∀ share, m.req = .count share → Completes (.staitheCount n) s (fun t => OnlyNet s t ∧
      repliedWith t n (.value (if share.isNone then 0 else 0xFFFFFFFF)))) ∧
    (∀ target, m.req = .grow target → Completes (.staitheGrow n) s (fun t => OnlyNet s t ∧ repliedWith t n (.value 0)))) ∧
  (m.req = .drain → s.recordSlot m.ctx m.va = none → Completes (.staitheDrain n) s (fun t => repliedWith t n (.value 0) ∧ OnlyNet s t)) ∧
  (∀ b k j, m.req = .drain → s.recordSlot m.ctx m.va = some (b, k, j) → Completes (.staitheDrain n) s (fun t => repliedWith t n (.value 1) ∧
    ∃ v, t.bagAt m.ctx b.header = some v ∧ v.total = b.total - 1 ∧ ¬slotTaken v k j ∧ (∀ i, v.countOf i = if i = k then b.countOf k - 1 else b.countOf i) ∧
      v.claimed = (if b.work then b.claimed + 1 else b.claimed) ∧ (HeaderSound s b → s.bagAt m.ctx b.header = some b → HeaderAt t v)))) ∧
  (∀ (s : State) (n : Nat) (m : Msg) (b : Bag), atHome s n m → s.bagAt m.ctx m.va = some b →
  (∀ slot share, m.req = .snapshot slot share → share.toNat < 2 ^ b.logb → Completes (.staitheSnapshot n) s (fun t => OnlyNet s t ∧ repliedWith t n
    (.cursor 0 (BitVec.ofNat 32 (slot * 2 ^ 28 + share.toNat)) (BitVec.ofNat 32 b.cap) (b.share share.toNat).serial))) ∧
  (∀ slot share, m.req = .snapshot slot share → 2 ^ b.logb ≤ share.toNat → b.cap < 65536 → Completes (.staitheSnapshot n) s (fun t => OnlyNet s t ∧
    ∃ c0 c1 c2, c1.toNat / 65536 = c1.toNat % 65536 ∧ repliedWith t n (.cursor 0 c0 c1 c2))) ∧
  (∀ c0 c1 c2, m.req = .next c0 c1 c2 →
    let k := c0.toNat % 4096
    let lim := c1.toNat % 65536
    let from_ := c1.toNat / 65536
    let good := m.va ≠ 0 ∧ c0.toNat / 4096 % 65536 = 0 ∧ k < 2 ^ b.logb ∧ from_ ≤ lim ∧ ((b.share k).serial - c2).toNat < 2 ^ 30
    let live := fun (j : Nat) => ∃ q, SMap.get none j (b.share k).slots = some q ∧ 1 ≤ (c2 - q).toNat ∧ (c2 - q).toNat < 2 ^ 31
    let ended : Word := BitVec.ofNat 32 (lim * 65537)
    (¬good → Completes (.staitheNext n) s (fun t => OnlyNet s t ∧ repliedWith t n (.cursor 1 c0 ended c2))) ∧
    (good → (∀ j, from_ ≤ j → j < lim → ¬live j) → Completes (.staitheNext n) s (fun t => OnlyNet s t ∧ repliedWith t n (.cursor 0 c0 ended c2))) ∧
    (∀ j, good → from_ ≤ j → j < lim → live j → (∀ i, from_ ≤ i → i < j → ¬live i) → Completes (.staitheNext n) s (fun t =>
      t = { s with net := t.net, cores := t.cores } ∧ (∀ c, (t.core c).regs = (s.core c).regs) ∧
      repliedWith t n (.cursor (b.slotAddr k j) c0 (BitVec.ofNat 32 ((j + 1) * 65536 + lim)) c2)))) ∧
  (m.req = .count none → Completes (.staitheCount n) s (fun t => OnlyNet s t ∧ repliedWith t n (.value ((BitVec.ofNat 32 b.total).setWidth 64)))) ∧
  (∀ k, m.req = .count (some k) → Completes (.staitheCount n) s (fun t => OnlyNet s t ∧
    repliedWith t n (.value (if k.toNat < 2 ^ b.logb then (BitVec.ofNat 32 (b.countOf k.toNat)).setWidth 64 else 0xFFFFFFFF)))) ∧
  (∀ target, m.req = .grow target →
    (target.toNat ≤ b.cap → Completes (.staitheGrow n) s (fun t => OnlyNet s t ∧ repliedWith t n (.value 0))) ∧
    (b.cap < target.toNat → target.toNat ≤ b.limit → b.limit < 65536 → Completes (.staitheGrow n) s (fun t => repliedWith t n (.value 0) ∧
      t.bagAt m.ctx m.va = some { b with cap := target.toNat } ∧ t.homeWord (b.headerPa + 8) = BitVec.ofNat 32 (target.toNat * 65536 + b.limit) ∧
      (HeaderSound s b → HeaderAt t { b with cap := target.toNat }))) ∧
    (b.cap < target.toNat → b.limit < target.toNat → Completes (.staitheGrow n) s (fun t => OnlyNet s t ∧ repliedWith t n (.reserve b.limit)))))

/-- R192, R193, R217, R218: the check of a bag descriptor answers 0 where no code's condition applies, and else the first that does; a Staithe makes a bag that passes every check, on the frames of its pages, and writes its header page, or answers the code; it seals a live bag, and frees one that no launch names; the Lengthsman registers, deregisters and parks workers, and at quiescence answers every parked one FALSE. The header page follows. -/
def Obligations.BagsAndWorkersAtTheirHome : Prop :=
  (∀ (s : State) (x : Nat) (ws : List Word), firstFailure 6 (s.checkBag x ws).1 (bagFails s x ws) ∧
    ∀ b, s.checkBag x ws = (0, b) → b = placedBag s x (bagOfWords x ws)) ∧
  ∀ (s : State) (n : Nat) (m : Msg), atHome s n m →
  (∀ ws b, m.req = .make ws → s.checkBag m.ctx ws = (0, b) → Completes (.staitheMake n) s (fun t => repliedWith t n (.value 0) ∧
    t.bagAt m.ctx b.header = some b ∧ ∀ i < 16384, t.homeWord (b.headerPa + 4 * i) = b.headerWord (4 * i))) ∧
  (∀ ws k b, m.req = .make ws → s.checkBag m.ctx ws = (k + 1, b) → Completes (.staitheMake n) s (fun t => OnlyNet s t ∧
    repliedWith t n (.value (BitVec.ofNat 64 (k + 1))))) ∧
  (∀ b, m.req = .seal → s.bagAt m.ctx m.va = some b → Completes (.staitheSeal n) s (fun t => repliedWith t n (.value 0) ∧
    ∃ v, t.bagAt m.ctx m.va = some v ∧ v.sealed = true ∧ v.total = b.total ∧ (HeaderSound s b → HeaderAt t v))) ∧
  (m.req = .seal → s.bagAt m.ctx m.va = none → Completes (.staitheSeal n) s (fun t => OnlyNet s t ∧ repliedWith t n (.value 1))) ∧
  (m.req = .free → (∀ l ∈ (s.ctx m.ctx).launches, l.state ≠ .done → m.va ∈ l.bags → m.va = 0) →
    (∀ b, s.bagAt m.ctx m.va = some b → Completes (.staitheFree n) s (fun t => repliedWith t n (.value 0) ∧ t.bagAt m.ctx m.va = none ∧
      t.homeWord (b.headerPa + 4) = 0)) ∧
    (s.bagAt m.ctx m.va = none → Completes (.staitheFree n) s (fun t => OnlyNet s t ∧ repliedWith t n (.value 1)))) ∧
  (m.req = .free → (∃ l ∈ (s.ctx m.ctx).launches, l.state ≠ .done ∧ m.va ∈ l.bags ∧ m.va ≠ 0) →
    Completes (.staitheFree n) s (fun t => OnlyNet s t ∧ repliedWith t n (.value 2))) ∧
  (∀ b, s.bagAt m.ctx m.va = some b →
    (m.req = .enter → Completes (.lengthsmanEnter n) s (fun t => repliedWith t n (.value 0) ∧
      ∃ v, t.bagAt m.ctx m.va = some v ∧ v.isMember m.who = true ∧ v.claimed = b.claimed ∧ (HeaderSound s b → HeaderAt t v))) ∧
    (m.req = .leave → Completes (.lengthsmanLeave n) s (fun t => repliedWith t n (.value 0) ∧
      ∃ v, t.bagAt m.ctx m.va = some v ∧ v.isMember m.who = false ∧ v.claimed = b.claimed - claimsOf b m.who ∧ (HeaderSound s b → HeaderAt t v))) ∧
    (∀ share, m.req = .await share → b.quiescent = false →
      (0 < b.total → 0 < b.countOf share.toNat → Completes (.lengthsmanWait n) s (fun t =>
        (∃ r ∈ t.net, r.who = m.who ∧ r.req = .await 0 ∧ r.reply = some (.value 1)) ∧
        ∃ v, t.bagAt m.ctx m.va = some v ∧ v.claimed = b.claimed - claimsOf b m.who ∧ v.quiescent = false ∧ (HeaderSound s b → HeaderAt t v))) ∧
      (b.sealed = false → b.countOf share.toNat = 0 → Completes (.lengthsmanWait n) s (fun t =>
        (∀ r ∈ t.net, r ∈ s.net ∨ ∃ id, r.req = .wait id) ∧
        ∃ v, t.bagAt m.ctx m.va = some v ∧ v.claimed = b.claimed - claimsOf b m.who ∧ v.quiescent = false ∧
          (∃ w ∈ v.workers, w.who = m.who ∧ w.parked = some share.toNat) ∧ (HeaderSound s b → HeaderAt t v))) ∧
      (b.work = true → b.sealed = true → b.total = 0 → b.claimed ≤ claimsOf b m.who → b.isMember m.who = true →
        (∀ w ∈ b.workers, w.member = true → w.who = m.who ∨ w.parked.isSome) → Completes (.lengthsmanWait n) s (fun t =>
          (∃ v, t.bagAt m.ctx m.va = some v ∧ v.quiescent = true ∧ (∀ w ∈ v.workers, w.parked = none) ∧ (HeaderSound s b → HeaderAt t v)) ∧
          ∀ w ∈ b.workers, (w.who = m.who ∨ w.parked.isSome) → ∃ r ∈ t.net, r.who = w.who ∧ r.req = .await 0 ∧ r.reply = some (.value 0)))))

/-- R133, R136-R138, R141, R142, R193, R206, R217, R218: a Staithe's reply reaches its thread: a put goes on with its predicate telling PLACED from REFUSED; a wait of a worker goes on with the reply in its predicate; a count reaches its register; growth goes on. FULL raises BAG_FULL with the capacity, and RESERVE raises BAG_RESERVE with the limit, at the held thread, unless a store queue has no room for it, and of a control thread the effect waits at its core. A drain's reply lets the next store of its home warp leave, and its result, those of a snapshot and a cursor's step, and those of a control thread's make, seal and free are delivered; entering and leaving are over. -/
def Obligations.BagRepliesReachThreads : Prop := ∀ (s : State) (n : Nat) (m : Msg) (r : Reply), Replied s n m r →
  (∀ c hw ws tid, laneHere s m.who c hw ws tid →
    let x := s.thread c ws tid
    let gone := fun (k : Nat) (v : Bool) => Completes (.bagReply n) s (fun t =>
      let y := t.thread c ws tid
      t.net = s.net.eraseIdx n ∧ y.pc = pc48 (x.pc + 4) ∧ y.park = .none ∧ (k ≠ 0 → k ≤ 7 → y.pred k = v) ∧ (∀ j, j ≠ k → y.pred j = x.pred j) ∧
      (t.core c).regs = (s.core c).regs ∧ (∀ u z, (u ≠ ws ∨ z ≠ tid) → t.thread c u z = s.thread c u z) ∧ MemKept s t)
    let raises := fun (id : Nat) (arg : Word) => Completes (.bagReply n) s (fun t =>
      t = ((s.dropMsg n).raiseHeld m.who id arg (s.instrOf m.who)).getD s)
    (∀ key words k, m.req = .put key words → x.park = .staithe k → (r = .placed → gone k true) ∧ (r = .refused → gone k false)) ∧
    (∀ key words cap, m.req = .put key words → r = .full cap → raises 1 (BitVec.ofNat 32 cap)) ∧
    (∀ share h k v, m.req = .await share → x.park = .wqwait h k → r = .value v → gone k (v != 0)) ∧
    (∀ target v, m.req = .grow target → x.park = .staithe 0 → r = .value v → gone 0 true) ∧
    (∀ target limit, m.req = .grow target → r = .reserve limit → raises 5 (BitVec.ofNat 32 limit)) ∧
    (∀ share v p d, m.req = .count share → r = .value v →
      (s.core c).loads.filter (fun p => p.kind == .bag && p.who == m.who && some p.id == m.load) = [p] → p.dest = some d → p.size = 4 → p.pred = 0 →
      p.scope = 0 → p.signed = false → p.remote = false → p.poison = none → p.record = none → d < 64 → Completes (.bagReply n) s (fun t => t.net = s.net.eraseIdx n ∧ p ∉ (t.core c).loads ∧
        (∀ h j lane, j < 64 → lane < 32 → (t.core c).reg h j lane = if h = hw ∧ j = d ∧ lane = tid % 32 then v.setWidth 32 else (s.core c).reg h j lane) ∧
        (∀ u z, t.thread c u z = s.thread c u z) ∧ MemKept s t))) ∧
  (∀ c lc, m.who = .ct c lc →
    let raised := fun (id : Nat) (arg : Nat) => Completes (.bagReply n) s (fun t =>
      t = (s.dropMsg n).modCtOf c lc (fun x => x.raise x.cur.tag id (BitVec.ofNat 32 arg)) ∧
      ((s.core c).lcore = some lc → (t.core c).ct.cur = { (s.core c).ct.cur with effect := some (id, BitVec.ofNat 32 arg), park := .none }))
    let gone := Completes (.bagReply n) s (fun t => t = (s.dropMsg n).modCtOf c lc (fun x =>
      { x with cur := { x.cur with park := .none, waited := true } }))
    (∀ key words cap, m.req = .put key words → r = .full cap → raised 1 cap) ∧ (∀ target limit, m.req = .grow target → r = .reserve limit → raised 5 limit) ∧
    (∀ target v, m.req = .grow target → r = .value v → gone)) ∧
  (∀ v, m.req = .drain → r = .value v → Completes (.bagReply n) s (fun t =>
    t = (((s.dropMsg n).dropHead m.who.core m.hw).completeBag m [v.toNat]).finishAfter m.who.core m.hw)) ∧
  (∀ vals, resultsOf m.req r = some vals → Completes (.bagReply n) s (fun t => t = (s.dropMsg n).completeBag m vals)) ∧
  (∀ v, (m.req = .enter ∨ m.req = .leave) → r = .value v → Completes (.bagReply n) s (fun t => t = s.dropMsg n))

/-- R19, R21, R22, R164: a free issue context takes the warp that forms next: at each home lane the thread of the lowest home warp of the entry; those threads leave the frontier, and their launch's stage has begun on the core. An entry whose age reaches 4,096 is aged, unless a lane exchange stands at its key (R5), returns on chip, and at most 32 entries stay there. -/
def Obligations.WarpsFormFromTheFrontier : Prop := ∀ (s : State) (c ws n : Nat),
  (∀ a k, let u := s.ripen c
    s.mayIssue c = true → u.chooseForm c = some a → k < 8 → (s.core c).warp k = none → (∀ j < k, ((s.core c).warp j).isSome) →
    Completes (.formWarp c) s (fun t =>
      (t.core c).warp k = some { ws := a.ws, lanes := a.lanes, run := 0, latches := [], last := s.tick } ∧ (∀ j, j ≠ k → (t.core c).warp j = (s.core c).warp j) ∧
      (u.atExchange c a.g.ctx a.f.pc = false → ∀ i < 32, SMap.get none i a.lanes =
        ((List.range 8).find? (fun h => a.f.mask.getLsbD (32 * h + i))).map (fun h => 32 * h + i)) ∧
      (∃ g, (t.core c).wg a.ws = some g ∧ g.threads = a.g.threads ∧ g.forms = a.g.forms + 1 ∧
        ∀ i tid, SMap.get none i a.lanes = some tid → tid < 256 →
          (∀ j f, a.g.frontier[j]? = some f → j ≠ a.n → f.mask.getLsbD tid = false) → ∀ f ∈ g.frontier, f.mask.getLsbD tid = false) ∧
      (∀ j, j ≠ a.ws → (t.core c).wg j = (u.core c).wg j) ∧ (t.core c).regs = (s.core c).regs ∧ (∀ j, j ≠ c → t.core j = s.core j) ∧
      (∀ l ∈ (t.ctx a.g.ctx).launches, l.index = a.g.launch → (((s.core c).lcore.getD 0, a.g.stage) : Nat × Nat) ∈ l.begun) ∧ MemKept s t)) ∧
  (∀ g f, (s.core c).wg ws = some g → g.state = .resident → g.frontier[n]? = some f → f.aged = false → 4096 ≤ (s.ageClock g - f.since).toNat →
    (s.atExchange c g.ctx f.pc = true → Completes (.entryAged c ws n) s (fun t => t = s)) ∧
    (s.atExchange c g.ctx f.pc = false → (g.frontier.filter (fun e => !e.spilled)).length ≤ 32 →
      Completes (.entryAged c ws n) s (fun t => ∃ g', (t.core c).wg ws = some g' ∧ g'.frontier[n]? = some { f with spilled := false, aged := true } ∧
        (g'.frontier.filter (fun e => !e.spilled)).length ≤ 32 ∧ g'.threads = g.threads ∧ (∀ u, u ≠ ws → (t.core c).wg u = (s.core c).wg u) ∧ OnlyCore s t c)))

/-- R33, R111-R115, R117, R121, R212, R236: a copy engine accepts its oldest command with its descriptors captured and its barrier counted, a void descriptor, a box past an extent, or unlike element sizes giving it code 5, and a window of a core not owned 2; starts the oldest accepted one, which stays what it was, while fewer than four are in transfer and its circular buffer has a free slot; moves its elements, stopping only where no word that it reads or writes is part moved, and completes it, a fault being recorded in the barrier; a guarded command goes on or completes undone as its guard says. -/
def Obligations.CopyEnginesWork : Prop := ∀ (s : State) (c n : Nat) (m : Command), (s.core c).copyQ[n]? = some m → m.core = c →
  let y := s.core c
  (y.copyQ.findIdx? (fun d => d.phase == .posted) = some n → m.toQueue = true ∨ (y.cbar m.bar).outstanding < 65535 → NoErrors s →
    Completes (.copyAccept c) s (fun t => ∃ d, (t.core c).copyQ = y.copyQ.set n d ∧ Captured s m d [m.tidA, m.tidB] ∧
      (let into := s.desc m.ctx m.tidA
       let from_ := s.desc m.ctx m.tidB
       let e0 := m.slotNat 5
       let e1 := m.slotNat 4
       let fits := m.slotNat 3 + e0 ≤ into.extField 0 ∧ m.slotNat 2 + e1 ≤ into.extField 1 ∧ m.slotNat 1 + e0 ≤ from_.extField 0 ∧
         m.slotNat 0 + e1 ≤ from_.extField 1 ∧ into.extField 2 = from_.extField 2 ∧ into.extField 3 = from_.extField 3 ∧ fmtBits into.fmt = fmtBits from_.fmt
       let low := fun (v : Descriptor) (o0 o1 : Nat) => ∀ i j k l, i < e0 → j < e1 → k < v.extField 2 → l < v.extField 3 →
         v.base.toNat + v.offset { c0 := o0 + i, c1 := o1 + j, c2 := k, c3 := l } + v.bytes ≤ 0x80000
       m.op = .cp false → m.toQueue = false → m.fault = 0 → into.invalid = false → from_.invalid = false → staticExtents into → staticExtents from_ → into.four = false →
         from_.four = false → e0 ≠ 0 → e1 ≠ 0 → from_.bkind = 1 →
         (¬fits → d.fault = 5) ∧
         (fits → low from_ (m.slotNat 1) (m.slotNat 0) → into.bkind = 1 → low into (m.slotNat 3) (m.slotNat 2) → d.fault = 0) ∧
         (fits → low from_ (m.slotNat 1) (m.slotNat 0) → into.bkind = 2 →
           (∃ i j off, i < e0 ∧ j < e1 ∧ 0 < into.extField 2 ∧ 0 < into.extField 3 ∧
             placeOf (into.base.toNat + into.offset { c0 := m.slotNat 3 + i, c1 := m.slotNat 2 + j }) = .onchip off ∧
             (s.core (windowSlot off).1).owner ≠ some m.ctx) → d.fault = 2)) ∧
      (t.core c).cbar m.bar = (if m.toQueue then y.cbar m.bar else oneMore (y.cbar m.bar)) ∧ (t.core c).regs = y.regs ∧
      (staticExtents (s.desc m.ctx m.tidA) → staticExtents (s.desc m.ctx m.tidB) → OnlyCore s t c) ∧ MemKept s t)) ∧
  (y.copyQ.findIdx? (fun d => d.phase != .started) = some n → m.phase = .accepted → m.guard = none →
    (y.copyQ.filter (fun d => d.phase == .started)).length < 4 → (m.toQueue = true → (y.cbuf m.bar).free ≠ 0) →
    Completes (.copyStart c) s (fun t => ∃ d, (t.core c).copyQ = y.copyQ.set n d ∧
      d = { m with phase := .started, slot := d.slot, descs := d.descs, dyn := d.dyn, fault := d.fault } ∧ (m.fault ≠ 0 → d.fault = m.fault ∧ d.descs = m.descs) ∧
      (m.toQueue = true → d.slot = some (y.cbuf m.bar).fill ∧ (m.fault = 0 → (∀ w, m.op ≠ .cpg w) →
          d.descs = m.descs.set 0 ((m.desc 0).withBase ((y.cbuf m.bar).base + (y.cbuf m.bar).fill * (y.cbuf m.bar).size))) ∧
        (t.core c).cbuf m.bar = { y.cbuf m.bar with free := (y.cbuf m.bar).free - 1, fill := ((y.cbuf m.bar).fill + 1) % (y.cbuf m.bar).count }) ∧
      (m.toQueue = false → d.descs = m.descs ∧ d.slot = none ∧ ((∀ w, m.op ≠ .cpg w) → d.fault = m.fault ∧ d.dyn = m.dyn) ∧
        (∀ w, m.op = .cpg w → m.fault = 0 → d.dyn = m.dyn ++ [s.gatherCount m] ∧ (65535 < s.gatherCount m → d.fault = 5) ∧
          (m.ext 0 1 < m.slotNat 2 + s.gatherCount m → d.fault = 5)) ∧ ∀ b, (t.core c).cbuf b = y.cbuf b) ∧
      (t.core c).regs = y.regs ∧ OnlyCore s t c ∧ MemKept s t)) ∧
  (m.phase = .started → m.toQueue = false → m.fault ≠ 0 → Completes (.copyComplete c n) s (fun t => (t.core c).copyQ = y.copyQ.eraseIdx n ∧
    (t.core c).cbar m.bar = barAfter (y.cbar m.bar) s.tick m.fault ∧ MemKept s t)) ∧
  (let left := m.copyCount - m.step
   m.phase = .started → m.fault = 0 → (∀ k ≤ left, (s.copyRun m m.step k).2 = none) → Completes (.copyComplete c n) s (fun t =>
    ∃ k ≤ left, let u := (s.copyRun m m.step k).1
      (k = left ∨ k = 0 ∨ s.copyCut m (m.step + k) = true) ∧
      t = (if k = left then u.endCopy c n m 0 else u.modCore c fun y => { y with copyQ := setNth y.copyQ n { m with step := m.step + k } }))) ∧
  (∀ f, let left := m.copyCount - m.step
   m.phase = .started → m.fault = 0 → 0 < left → s.copyOne m m.step = .error f → NoErrors s → m.toQueue = false → Completes (.copyComplete c n) s (fun t =>
    ((t.core c).copyQ = y.copyQ ∨ (t.core c).copyQ = y.copyQ.eraseIdx n ∧ (t.core c).cbar m.bar = barAfter (y.cbar m.bar) s.tick f) ∧ MemKept s t)) ∧
  (∀ k, m.op = .cp false → (m.desc 0).bkind = 1 → (m.desc 1).bkind = 1 → (m.desc 0).fmt = 0 → (m.desc 1).fmt = 0 →
    let at_ := nthOf { c0 := 0 } m.boxDims k
    let from_ := (m.desc 1).base.toNat + (m.desc 1).offset { c0 := m.slotNat 1 + at_.c0, c1 := m.slotNat 0 + at_.c1, c2 := at_.c2, c3 := at_.c3 }
    let into := (m.desc 0).base.toNat + (m.desc 0).offset { c0 := m.slotNat 3 + at_.c0, c1 := m.slotNat 2 + at_.c1, c2 := at_.c2, c3 := at_.c3 }
    m.slotNat 0 + at_.c1 < m.ext 1 1 → from_ % 4 = 0 → into % 4 = 0 → from_ < 0x80000 → into < 0x80000 → ∃ u, s.copyOne m k = .ok u ∧ (u.core c).scratch.word into = y.scratch.word from_ ∧
      (∀ a, a % 4 = 0 → a ≠ into → (u.core c).scratch.word a = y.scratch.word a) ∧ OnlyCore s u c ∧ MemKept s u) ∧
  (∀ k v, y.copyQ.findIdx? (fun d => d.phase != .started) = some n → m.phase = .accepted → m.guard = some k → y.guardNow k = some v → y.holdQ = [] →
    (∀ d ∈ (s.quad (quadOf c)).table, d.core ≠ c) → m.toQueue = false → Completes (.guardResolve c) s (fun t =>
      (v = true → (t.core c).copyQ = y.copyQ.set n { m with guard := none } ∧ OnlyCore s t c) ∧
      (v = false → (t.core c).copyQ = y.copyQ.eraseIdx n ∧
        (t.core c).cbar m.bar = { y.cbar m.bar with outstanding := (y.cbar m.bar).outstanding - 1 }) ∧ MemKept s t))

/-- R169, R238-R240, R257-R263, R268-R270: the reservation table of a quad accepts a core's oldest matrix command, raises one that has waited 1,024 ticks, forms groups of agreeing members, and grants the entry of highest effective priority, the earliest among equals; a granted command that may retire zeroes its tile or gives every row a vector, loads it, writes it out narrowed, scans a vector for its live elements, or makes a pass for an operation or every member of a group, whose sum is rounded once for each element, or, on integers, kept modulo 2^32; after its last pass it completes. -/
def Obligations.MatrixEnginesWork : Prop := ∀ (s : State) (q n : Nat) (m : Command),
  (∀ c rest, (s.core c).matQ = m :: rest → m.core = c → m.phase = .posted → s.posterHere m = true → (m.toQueue = true ∨ ((s.core c).cbar m.bar).outstanding < 65535) →
    (s.quad (quadOf c)).table.length < 32 → (∀ d ∈ (s.quad (quadOf c)).table, d.core = c → d.ms = m.ms → d.op.holdsStream = false) → NoErrors s → Completes (.matrixAccept c) s (fun t =>
      ∃ d, (t.quad (quadOf c)).table = (s.quad (quadOf c)).table ++ [d] ∧ Captured s m d m.matrixTids ∧ d.since = s.tick ∧
        (let a := s.desc m.ctx m.tidA
         let b := s.desc m.ctx m.tidB
         m.op = .mmx 0 → a.invalid = false → b.invalid = false → staticExtents a → staticExtents b →
          (2 < a.rank ∨ 2 < b.rank ∨ pairOk a.fmt b.fmt = false ∨ 128 < m.slotNat 3 ∨ 128 < m.slotNat 4 ∨ m.slotNat 7 ≠ 0 ∨ a.bkind = 3 ∨ b.bkind = 3 ∨
            a.extField (1 - a.kdim) < m.slotNat 0 + m.slotNat 3 ∨ a.extField a.kdim < m.slotNat 1 + m.slotNat 5 ∨ b.extField b.kdim < m.slotNat 1 + m.slotNat 5 ∨
            b.extField (1 - b.kdim) < m.slotNat 2 + m.slotNat 4) → d.fault = 5) ∧ (t.core c).matQ = rest ∧
        (t.core c).cbar m.bar = (if m.toQueue then (s.core c).cbar m.bar else oneMore ((s.core c).cbar m.bar)) ∧ MemKept s t)) ∧
  ((s.quad q).table[n]? = some m →
    let tb := (s.quad q).table
    (m.phase = .accepted → m.since.toNat + 1024 ≤ s.tick.toNat → Completes (.reservationAging q n) s (fun t =>
      (t.quad q).table = tb.set n { m with prio := m.prio + 1, since := m.since + 1024 } ∧ t.cores = s.cores ∧ MemKept s t)) ∧
    (∀ is, 2 ≤ m.mode → m.phase = .accepted → m.formed = false → groupOf q tb m = some is → n ∈ is → Completes (.groupForm q n) s (fun t =>
      (∀ i d, tb[i]? = some d → (t.quad q).table[i]? = some (if i ∈ is then
        { d with formed := true, slot := some m.id, fault := if groupAgrees (is.filterMap (fun i => tb[i]?)) && pairsAll (is.filterMap (fun i => tb[i]?)) d then 0 else 5 } else d)) ∧
      t.cores = s.cores ∧ MemKept s t)) ∧
    (m.mode < 2 → s.grantable tb n m = true → (∀ i d, tb[i]? = some d → i ≠ n → s.grantableAll tb i d = true →
        d.mode < 2 ∧ (s.effPrio d < s.effPrio m ∨ (s.effPrio d = s.effPrio m ∧ n < i))) → Completes (.matrixGrant q) s (fun t =>
      (∀ i d, tb[i]? = some d → (t.quad q).table[i]? = some (if i = n then { d with phase := .started } else d)) ∧ t.cores = s.cores ∧ MemKept s t)) ∧
    (m.phase = .started → retiresFirst tb m = true → m.toQueue = false →
      let bar := { (s.core m.core).cbar m.bar with outstanding := ((s.core m.core).cbar m.bar).outstanding - 1 }
      (m.fault = 0 → m.op = .mzero → Completes (.matrixComplete q n) s (fun t => (∀ d ∈ (t.quad q).table, d.id ≠ m.id) ∧ (t.core m.core).cbar m.bar = bar ∧
        ∀ k i j, i < 128 → j < 128 → t.tileWord m.core k i j = if k = m.tile then 0 else s.tileWord m.core k i j)) ∧
      (m.fault ≠ 0 → m.formed = false → Completes (.matrixComplete q n) s (fun t => (∀ d ∈ (t.quad q).table, d.id ≠ m.id) ∧
        (t.core m.core).cbar m.bar = barAfter ((s.core m.core).cbar m.bar) s.tick m.fault ∧
        (t.core m.core).tiles = (s.core m.core).tiles)) ∧
      (∀ bits : Nat → Nat → Nat, m.fault = 0 → m.op = .mst → NoErrors s → (m.desc 0).bkind ≠ 2 → m.slotNat 0 + m.tileBox.1 ≤ 128 → m.slotNat 1 + m.tileBox.2 ≤ 128 →
        m.tile < 4 → (∀ r k, r < m.tileBox.1 → k < m.tileBox.2 →
          s.readElem m false (m.desc 0) { c0 := m.slotNat 3 + k, c1 := m.slotNat 2 + r } = .ok (bits r k)) →
        Completes (.matrixComplete q n) s (fun t => (t.core m.core).cbar m.bar = bar ∧ ∀ r k, r < m.tileBox.1 → k < m.tileBox.2 →
          t.tileWord m.core m.tile (m.slotNat 0 + r) (m.slotNat 1 + k) = widenElem (m.desc 0).fmt (bits r k))) ∧
      (∀ bits : Nat → Nat, m.fault = 0 → m.op = .mzeroBias → NoErrors s →
        (∀ j < 128, s.readElem m false (m.desc 0) { c0 := m.slotNat 0 + j, c1 := m.slotNat 1 } = .ok (bits j)) →
        Completes (.matrixComplete q n) s (fun t => (t.core m.core).cbar m.bar = bar ∧ ∀ i j, i < 128 → j < 128 →
          t.tileWord m.core m.tile i j = widenElem (m.desc 0).fmt (bits j))) ∧
      (∀ rnd, m.fault = 0 → m.op = .mld rnd → (m.desc 0).bkind = 1 → (m.desc 0).fmt < 5 → (m.desc 0).base.toNat % (m.desc 0).bytes = 0 →
        (m.desc 0).stride 1 % (m.desc 0).bytes = 0 →
        let at_ := fun (r k : Nat) => (m.desc 0).base.toNat + (m.desc 0).offset { c0 := m.slotNat 3 + k, c1 := m.slotNat 2 + r }
        (∀ r k, r < m.tileBox.1 → k < m.tileBox.2 → at_ r k < 0x80000 ∧ ∀ u v, u < m.tileBox.1 → v < m.tileBox.2 → at_ u v = at_ r k → u = r ∧ v = k) →
        Completes (.matrixComplete q n) s (fun t => (t.core m.core).cbar m.bar = bar ∧ (t.core m.core).tiles = (s.core m.core).tiles ∧
          ∀ r k, r < m.tileBox.1 → k < m.tileBox.2 → (t.core m.core).scratch.readN (at_ r k) (m.desc 0).bytes =
            narrowElem (m.desc 0).fmt (mldRnd rnd) (s.tileWord m.core m.tile (m.slotNat 0 + r) (m.slotNat 1 + k)) % 2 ^ fmtBits (m.desc 0).fmt)) ∧
      (m.fault = 0 → m.op = .mscan → scanBad m = false →
        let d := m.desc 0
        let val := fun (k : Nat) => (s.core m.core).scratch.readN (d.base.toNat + k * d.bytes) d.bytes
        let live := (span (m.slotNat 0) m.scanExt).filter (fun k => if d.fmt ≤ 2 then val k % 2 ^ (fmtBits d.fmt - 1) != 0 else val k != 0)
        Completes (.matrixComplete q n) s (fun t => (t.core m.core).cbar m.bar = bar ∧ (t.core m.core).scratch.readN (m.slotNat 4) 4 = live.length ∧
          ∀ i k, live[i]? = some k → (t.core m.core).scratch.readN (m.slotNat 2 + 2 * i) 2 = k ∧
            (t.core m.core).scratch.readN (m.slotNat 3 + d.bytes * i) d.bytes = val k)) ∧
      (m.fault = 0 → m.isMmx = true → m.mode ≤ 1 → m.passes (passDepth (m.desc 0).fmt (m.desc 1).fmt) ≤ m.step → Completes (.matrixComplete q n) s (fun t =>
        (∀ d ∈ (t.quad q).table, d.id ≠ m.id) ∧ (t.core m.core).cbar m.bar = bar ∧ ∀ k, (t.core k).tiles = (s.core k).tiles)) ∧
      (m.fault = 0 → m.isMmx = true → m.mode ≤ 1 → NoErrors s → m.mnk.1 ≤ 128 → m.mnk.2.1 ≤ (if m.mode = 1 then 256 else 128) → 0 < m.mnk.1 → 0 < m.mnk.2.1 →
        let depth := passDepth (m.desc 0).fmt (m.desc 1).fmt
        let k0 := m.step * depth
        let deep := min depth (m.mnk.2.2 - k0)
        let a := fun (i k : Nat) => (m.desc 0).kCoord (m.slotNat 1 + k0 + k) (m.slotNat 0 + i)
        let b := fun (k j : Nat) => (m.desc 1).kCoord (m.slotNat 1 + (k0 + k)) (m.slotNat 2 + j)
        let old := fun (i j : Nat) => s.passWord (m.column j).1 m.tile i (m.column j).2
        let gives := fun (word : Nat → Nat → Word) => Completes (.matrixComplete q n) s (fun t =>
          (∀ i j, i < m.mnk.1 → j < m.mnk.2.1 → t.tileWord (m.column j).1 m.tile i (m.column j).2 = word i j) ∧
          (t.core m.core).cbar m.bar = (s.core m.core).cbar m.bar ∧ MemKept s t)
        m.step < ceilDiv m.mnk.2.2 depth →
        (∀ av bv : Nat → Nat → FVal, (m.desc 0).fmt ≠ 3 → (∀ i k, i < m.mnk.1 → k < deep → s.elemValue m (m.desc 0) (a i k) = .ok (av i k)) →
          (∀ k j, k < deep → j < m.mnk.2.1 → s.elemValue m (m.desc 1) (b k j) = .ok (bv k j)) → gives (fun i j => BitVec.ofNat 32
            (Fmt.f32.sumNe (Fmt.f32.unpack (old i j).toNat :: (List.range deep).map (fun k => FVal.mul (av i k) (bv k j)))))) ∧
        (∀ av bv : Nat → Nat → Int, (m.desc 0).fmt = 3 → (∀ i k, i < m.mnk.1 → k < deep → s.elemInt m (m.desc 0) (a i k) = .ok (av i k)) →
          (∀ k j, k < deep → j < m.mnk.2.1 → s.elemInt m (m.desc 1) (b k j) = .ok (bv k j)) →
          gives (fun i j => old i j + BitVec.ofInt 32 ((List.range deep).map (fun k => av i k * bv k j)).sum))))) ∧
  (let tb := (s.quad q).table
   let ms := membersOf tb m
   let on := ms.filter (fun d => d.fault = 0 && d.passes (groupDepth ms) ≠ 0)
   let k0 := m.step * groupDepth ms
   let deep := min (groupDepth ms) (m.mnk.2.2 - k0)
   ∀ (av : Command → Nat → Nat → FVal) (bv : Nat → Nat → FVal), tb[n]? = some m → m.phase = .started → m.isMmx = true → 2 ≤ m.mode → m.fault = 0 →
    m.formed = true → (∀ d ∈ ms, retiresFirst tb d = true) → m ∈ on → m.step < m.passes (groupDepth ms) → NoErrors s → (on.map (·.core)).Nodup →
    (∀ d ∈ on, d.mnk.2 = m.mnk.2 ∧ (d.desc 0).fmt ≠ 3 ∧ (d.desc 0).bkind ≠ 2 ∧ d.mnk.1 ≤ 128 ∧ d.mnk.2.1 ≤ 128 ∧ d.mode = m.mode) →
    (∀ d ∈ on, ∀ i k, i < d.mnk.1 → k < deep → s.elemValue d (d.desc 0) ((d.desc 0).kCoord (d.slotNat 1 + k0 + k) (d.slotNat 0 + i)) = .ok (av d i k)) →
    (∀ k j, k < deep → j < m.mnk.2.1 → let o := bSource ms (on.headD m) (k0 + k) j
      s.elemValue o.1 (o.1.desc 1) o.2 = .ok (bv k j)) →
    Completes (.matrixComplete q n) s (fun t => ∀ d ∈ on, ∀ i j, i < d.mnk.1 → j < m.mnk.2.1 → t.tileWord d.core d.tile i j = BitVec.ofNat 32
      (Fmt.f32.sumNe (Fmt.f32.unpack (s.passWord d.core d.tile i j).toNat :: (List.range deep).map (fun k => FVal.mul (av d i k) (bv k j))))))

/-- R272-R276: a stack's attention engine accepts its oldest posted command with its descriptors captured, one whose slots or descriptors break R273 and R274 failing with 5, and sends one whose key another stack homes to that stack's queue, before what its core posted later; starts the oldest; ends one that has done its heads, one with a fault under its code, one whose stack is down under 6; and goes on head by head.
R278-R285: a Delf sequencer's `dload` puts a valid program in place of the old, and fails an invalid one with 5; its `drun` starts with a full mask and no carry on its region; each operation writes its destination plane, in a group or special, on all lanes, addition and subtraction the carry; `loop` and `endl` run their body as often as it says; at `stop` the run completes. An assignment clears the program of a sequencer that runs nothing; in self-refresh a run parks, and goes on where it stood. -/
def Obligations.NearMemoryEnginesWork : Prop :=
  (∀ (s : State) (k n : Nat) (m : Command) (rest : List Command), m.toQueue = false →
  let bar := (s.core m.core).cbar m.bar
  (∀ a b, (s.stack k).ade.findIdx? (fun d => d.phase == .posted) = some n → (s.stack k).ade[n]? = some m → s.adeStack m ≠ k →
    (s.stack (s.adeStack m)).ade.length < 64 → (s.stack (s.adeStack m)).ade = a ++ b →
    let later := fun (d : Command) => d.core = m.core ∧ d.phase = .posted ∧ m.id < d.id
    (∀ d ∈ a, ¬later d) → (∀ d, b.head? = some d → later d) →
    Completes (.adeAccept k) s (fun t => (t.stack k).ade = (s.stack k).ade.eraseIdx n ∧ (t.stack (s.adeStack m)).ade = a ++ m :: b ∧ t.cores = s.cores ∧ MemKept s t)) ∧
  ((s.stack k).ade.findIdx? (fun d => d.phase == .posted) = some n → (s.stack k).ade[n]? = some m → s.adeStack m = k → bar.outstanding < 65535 → NoErrors s →
    (∀ kv ∈ s.hbm, kv.1 ≠ k → ∀ d ∈ kv.2.ade, d.core = m.core → d.phase = .posted → d.id < m.id → s.adeStack d ≠ k) →
    Completes (.adeAccept k) s (fun t => ∃ d, (t.stack k).ade = (s.stack k).ade.set n d ∧
      (let slots := m.slotNat 0 ≤ 127 ∧ m.slotNat 1 ≤ 127 ∧ m.slotNat 7 = 0
       let x := s.desc m.ctx m.tidA
       let y := s.desc m.ctx m.tidB
       let v := s.desc m.ctx (m.slotNat 0)
       let o := s.desc m.ctx (m.slotNat 1)
       let heads := if m.slotNat 4 = 0 then x.extField 1 - m.slotNat 3 else m.slotNat 4
       let tokens := if m.slotNat 2 = 0 then y.extField 1 else m.slotNat 2
       (¬slots → d = { m with phase := .accepted, mine := s.ownedCores m.ctx, fault := 5 }) ∧
       (slots → Captured s m d m.adeTids) ∧
       (slots → x.invalid = false → y.invalid = false → v.invalid = false → o.invalid = false → staticExtents x → staticExtents y → staticExtents v → staticExtents o →
         (x.fmt ≠ 2 ∨ x.rank ≠ 2 ∨ x.extField 0 < 1 ∨ 256 < x.extField 0 ∨ (x.bkind ≠ 0 ∧ x.bkind ≠ 1) ∨ x.extField 1 < m.slotNat 3 + heads ∨
          x.extField 1 % y.extField 2 ≠ 0 ∨ (∃ z ∈ [y, v], z.fmt ≠ 2 ∨ z.rank ≠ 3 ∨ z.bkind ≠ 0 ∨ z.extField 0 ≠ x.extField 0 ∨ z.extField 1 < tokens) ∨
          v.extField 2 ≠ y.extField 2 ∨ o.fmt ≠ (if m.op = .ade true then 2 else 0) ∨ o.rank ≠ 2 ∨ o.extField 0 ≠ x.extField 0 ∨
          o.extField 1 < m.slotNat 3 + heads ∨ o.bkind = 3) → d.fault = 5)) ∧
      (t.core m.core).cbar m.bar = oneMore bar ∧ MemKept s t)) ∧
  ((s.stack k).ade = m :: rest →
    (m.phase = .accepted → Completes (.adeStart k) s (fun t => (t.stack k).ade = { m with phase := .started, step := 0 } :: rest ∧ t.cores = s.cores ∧ MemKept s t)) ∧
    (m.phase = .started →
      let ends := fun (code : Nat) => Completes (.adeComplete k) s (fun t => (t.stack k).ade = rest ∧ (t.core m.core).cbar m.bar = barAfter bar s.tick code ∧ MemKept s t)
      (m.fault ≠ 0 → ends m.fault) ∧
      (m.fault = 0 → s.dieDown k = true → ends 6) ∧
      (m.fault = 0 → s.dieDown k = false → m.heads ≤ m.step → ends 0) ∧
      (∀ f, m.fault = 0 → s.dieDown k = false → m.step < m.heads → NoErrors s → s.adeHead m k (m.slotNat 3 + m.step) = .error f → f ≠ 0 → ends f) ∧
      (∀ out, m.fault = 0 → s.dieDown k = false → m.step < m.heads → NoErrors s → s.adeHead m k (m.slotNat 3 + m.step) = .ok out → (m.desc 3).bkind = 1 →
        (∀ i < out.length, (m.desc 3).base.toNat + (m.desc 3).offset { c0 := i, c1 := m.slotNat 3 + m.step } < 0x80000) → (m.desc 3).fmt = 0 →
        (m.desc 3).base.toNat % 4 = 0 → (m.desc 3).stride 1 % 4 = 0 →
        Completes (.adeComplete k) s (fun t => (t.stack k).ade = { m with step := m.step + 1 } :: rest ∧ MemKept s t ∧
          ∀ i x, out[i]? = some x → x < 2 ^ 32 →
            (t.core m.core).scratch.word ((m.desc 3).base.toNat + (m.desc 3).offset { c0 := i, c1 := m.slotNat 3 + m.step }) = BitVec.ofNat 32 x))))) ∧
  (∀ (s : State) (q : Nat) (m : Command) (rest : List Command),
  let z := s.seq q
  let bar := (s.core m.core).cbar m.bar
  let counted := s.countAccepted m
  let mayRun := m.slotNat 0 ≤ 511 ∧ z.ctx = some m.ctx ∧ s.dieDown (q / 32) = false ∧ (s.die (q / 32)).reset = 0
  (z.queue = m :: rest → m.toQueue = false → z.parked = false → bar.outstanding < 65535 → mayRun →
    (∀ ws, m.op = .dload → m.slotNat 4 % 4 = 0 → 4 ≤ m.slotNat 4 → m.slotNat 4 ≤ 4096 → m.slotNat 2 % 4 = 0 → NoErrors s →
      counted.progWords m (m.slotNat 2 + 2 ^ 32 * m.slotNat 3) (m.slotNat 4 / 4) = .ok ws → Completes (.dloadApply q) s (fun t =>
        (t.seq q).prog = (if progBad ws then z.prog else ws) ∧ (t.seq q).tag = (if progBad ws then z.tag else m.slots.getD 1 0) ∧
        (t.seq q).queue = rest ∧ (t.core m.core).cbar m.bar = barAfter (oneMore bar) s.tick (if progBad ws then 5 else 0) ∧ MemKept s t)) ∧
    (m.op = .dload → (m.slotNat 4 % 4 ≠ 0 ∨ m.slotNat 4 < 4 ∨ 4096 < m.slotNat 4 ∨ m.slotNat 2 % 4 ≠ 0) → Completes (.dloadApply q) s (fun t =>
        (t.seq q).prog = z.prog ∧ (t.seq q).tag = z.tag ∧ (t.seq q).queue = rest ∧ (t.core m.core).cbar m.bar = barAfter (oneMore bar) s.tick 5 ∧ MemKept s t)) ∧
    (∀ f, m.op = .drun → m.phase = .posted → counted.runRegion q m = .error f → f ≠ 0 → Completes (.drunStart q) s (fun t =>
      (t.seq q).queue = rest ∧ (t.seq q).region = [] ∧ (t.core m.core).cbar m.bar = barAfter (oneMore bar) s.tick f ∧ MemKept s t)) ∧
    (∀ region, m.op = .drun → m.phase = .posted → counted.runRegion q m = .ok region → Completes (.drunStart q) s (fun t =>
      (t.seq q).queue = { m with phase := .started } :: rest ∧ (t.seq q).region = region ∧ (t.seq q).pc = 0 ∧ (t.seq q).prog = z.prog ∧
      (∀ i < 256, specialWord (t.seq q).c i = 0 ∧ specialWord (t.seq q).m i = 0xFFFFFFFF ∧ specialWord (t.seq q).t i = 0) ∧
      (t.core m.core).cbar m.bar = oneMore bar))) ∧
  (∀ u, z.current = some (m, u) → m.toQueue = false →
    let ends := fun (code : Nat) => Completes (.delfOperation q) s (fun t => (t.core m.core).cbar m.bar = barAfter bar s.tick code ∧ (t.seq q).region = [] ∧ MemKept s t)
    let at_ := fun (g p : Nat) => s.planeWords z g (if u.ix ∧ g ≤ 3 then (p + z.iter) % 32 else p)
    let a := fun (i : Nat) => (at_ u.ag u.ap).getD i 0
    let b := fun (i : Nat) => (at_ u.bg u.bp).getD i 0
    let c := fun (i : Nat) => specialWord z.c i
    let word := fun (i : Nat) => planeOp u.op (a i) (b i) ((at_ u.dg u.dp).getD i 0) (c i) (specialWord z.m i)
    let into := SMap.get 0 u.dg z.region + 1024 * (if u.ix then (u.dp + z.iter) % 32 else u.dp)
    let carried := fun (t : State) => (u.op = 7 → ∀ i < 256, specialWord (t.seq q).c i = (a i &&& b i) ||| (a i &&& c i) ||| (b i &&& c i)) ∧
      (u.op = 8 → ∀ i < 256, specialWord (t.seq q).c i = (a i &&& ~~~b i) ||| (a i &&& c i) ||| (~~~b i &&& c i))
    (u.op = 0 → Completes (.drunComplete q) s (fun t => (t.seq q).queue = z.queue.tail ∧ (t.seq q).region = [] ∧ (t.seq q).prog = z.prog ∧
      (t.core m.core).cbar m.bar = barAfter bar s.tick 0 ∧ MemKept s t)) ∧
    (u.op ≠ 0 → s.dieDown (q / 32) = true → ends 6) ∧
    (∀ f, u.op ≠ 0 → s.dieDown (q / 32) = false → s.runRegion q m = .error f → f ≠ 0 → ends f) ∧
    (u.moves = true → s.dieDown (q / 32) = false → s.runRegion q m = .ok z.region → NoErrors s → s.microPoisoned z u = true → ends 3) ∧
    (u.moves = true → s.dieDown (q / 32) = false → s.runRegion q m = .ok z.region → NoErrors s → s.microPoisoned z u = false →
      (u.dg ≤ 3 → Completes (.delfOperation q) s (fun t => (t.seq q).pc = z.pc + 1 ∧ (t.seq q).iter = z.iter ∧ (t.seq q).queue = z.queue ∧
        (∀ i < 256, t.homeWord (into + 4 * i) = word i) ∧ carried t ∧ (u.op ≠ 7 → u.op ≠ 8 → (t.seq q).c = z.c) ∧ (t.seq q).m = z.m ∧ (t.seq q).t = z.t ∧
        t.cores = s.cores ∧ ∀ w, w % 4 = 0 → (∀ i < 256, w / 4 ≠ (into + 4 * i) / 4) → t.homeWord w = s.homeWord w)) ∧
      (u.dg = 4 → (u.dp = 0 ∨ u.dp = 1 ∨ u.dp = 4) → Completes (.delfOperation q) s (fun t => t = { s with seqs := t.seqs } ∧ (t.seq q).pc = z.pc + 1 ∧
        (t.seq q).iter = z.iter ∧ (t.seq q).queue = z.queue ∧ carried t ∧ ∀ i < 256,
          (u.op ≠ 7 → u.op ≠ 8 → specialWord (t.seq q).c i = if u.dp = 0 then word i else c i) ∧
          specialWord (t.seq q).m i = (if u.dp = 1 then word i else specialWord z.m i) ∧
          specialWord (t.seq q).t i = if u.dp = 4 then word i else specialWord z.t i))) ∧
    (s.dieDown (q / 32) = false → s.runRegion q m = .ok z.region →
      (u.op = 9 → Completes (.delfOperation q) s (fun t => t = { s with seqs := t.seqs } ∧ t.seq q = { z with pc := z.pc + 1, iter := 0 })) ∧
      (∀ l w, u.op = 10 → l < z.pc → z.prog[l]? = some w → (Micro.ofWord w).op = 9 → (∀ j v, l < j → j < z.pc → z.prog[j]? = some v → (Micro.ofWord v).op ≠ 9) →
        Completes (.delfOperation q) s (fun t => t = { s with seqs := t.seqs } ∧
          t.seq q = (if z.iter < (Micro.ofWord w).dp then { z with pc := l + 1, iter := z.iter + 1 } else { z with pc := z.pc + 1, iter := 0 }))))) ∧
  (∀ x, q ≤ 511 → z.ctx ≠ some x → (∀ d r, z.queue = d :: r → ¬(d.op = .drun ∧ d.phase = .started)) → Completes (.sequencerAssign q x) s (fun t =>
    t = { s with seqs := t.seqs } ∧ (t.seq q).ctx = some x ∧ (t.seq q).prog = [] ∧ (t.seq q).tag = 0 ∧ (t.seq q).queue = z.queue ∧ ∀ k, k ≠ q → t.seq k = s.seq k)) ∧
  (∀ x d r, z.queue = d :: r → d.op = .drun → d.phase = .started → Completes (.sequencerAssign q x) s (fun t => t = s)) ∧
  (z.parked = false → Completes (.channelSelfRefresh q) s (fun t => t = { s with seqs := t.seqs } ∧ (t.seq q).parked = true ∧ (t.seq q).prog = z.prog ∧
    (t.seq q).queue = z.queue ∧ (z.current.isSome → (t.seq q).saved = some (z.c, z.m, z.t, z.pc, z.iter)))) ∧
  (z.parked = true → Completes (.channelSelfRefreshExit q) s (fun t => t = { s with seqs := t.seqs } ∧ (t.seq q).parked = false ∧ (t.seq q).queue = z.queue ∧
    ∀ c u v pc it, z.saved = some (c, u, v, pc, it) → (t.seq q).c = c ∧ (t.seq q).m = u ∧ (t.seq q).t = v ∧ (t.seq q).pc = pc ∧ (t.seq q).iter = it)))

/-- R156, R219, R220, R226, R367: a collective takes its next participant's command, its descriptors captured and its source read, a void descriptor giving it 5; it completes once every rank here has entered and none is halted: under the code of a failed check for each participant, and else with each destination written with the result of its kind. A participant incomplete beyond its watchdog while a rank is halted ends with 6, and what is left then ends so too; another package's halt, resumption and expiry are noted. Integers reduce modulo 2^32 or to the extreme, floats in rank order in FP32, a NaN canonical, and FP16 and BF16 are rounded once more at the end. -/
def Obligations.CollectivesComplete : Prop :=
  (∀ (s : State) (n : Nat) (k : Coll), s.colls[n]? = some k →
  let x := s.ctx k.ctx
  let bar := fun (m : Command) => (s.core m.core).cbar m.bar
  (∀ i r m, k.parts.findIdx? (fun p => p.2.phase == .posted) = some i → k.parts[i]? = some (r, m) → x.halted = false →
    m.toQueue = false → (bar m).outstanding < 65535 → NoErrors s → Completes (.collStart n) s (fun t =>
      ∃ d dat, t.colls = s.colls.set n { k with parts := k.parts.set i (r, d), data := SMap.set [] r dat k.data } ∧
        d = { m with phase := .started, since := s.tick, mine := d.mine, descs := d.descs, dyn := d.dyn, fault := d.fault } ∧
        ((s.desc m.ctx m.tidA).invalid = true → m.fault = 0 → d.fault = 5) ∧
        (m.fault = 0 → staticExtents (s.desc m.ctx m.tidA) → staticExtents (s.desc m.ctx m.tidB) → (s.desc m.ctx m.tidA).invalid = false →
          (s.desc m.ctx m.tidB).invalid = false → d.descs = [s.desc m.ctx m.tidA, s.desc m.ctx m.tidB] ∧
          d.dyn = (List.range 4).map (s.desc m.ctx m.tidA).extField ++ (List.range 4).map (s.desc m.ctx m.tidB).extField) ∧
        (d.fault = 0 → dat.length = d.count 1 ∧
          ∀ i w, dat[i]? = some w → t.readElem d false (d.desc 1) (nthOf { c0 := 0 } (d.whole 1) i) = .ok w.toNat) ∧
        (t.core m.core).cbar m.bar = oneMore (bar m))) ∧
  ((x.halted = true ∨ ∃ p ∈ x.peersHalted, p.1 ∈ (SMap.get [] k.group x.groups).map (·.1)) → Completes (.collComplete n) s (fun t => t = s)) ∧
  (s.collReady k = true → x.halted = false → (∀ p ∈ x.peersHalted, p.1 ∉ (SMap.get [] k.group x.groups).map (·.1)) → (∀ p ∈ k.parts, p.2.toQueue = false) →
    (k.parts.map (·.2.core)).Nodup →
    (let code := if k.ended then 6 else s.collCode k
     code ≠ 0 → Completes (.collComplete n) s (fun t => t.colls = s.colls.eraseIdx n ∧ MemKept s t ∧
      ∀ p ∈ k.parts, (t.core p.2.core).cbar p.2.bar = barAfter (bar p.2) s.tick code)) ∧
    (k.ended = false → s.collCode k = 0 → (∀ r < s.ranks k, s.isLocalRank k r = true) → (∀ p ∈ k.parts, (p.2.desc 0).bkind ≤ 1) → NoErrors s →
      let res := fun (p : Nat × Command) (i : Nat) => collResult (fun q j => (SMap.get [] q k.data).getD j 0) (s.ranks k) p.1 p.2 i
      let at_ := fun (p : Nat × Command) (i : Nat) => (p.2.desc 0).base.toNat + (p.2.desc 0).offset (nthOf { c0 := 0 } (p.2.whole 0) i)
      let words := fun (p : Nat × Command) => (p.2.desc 0).fmt = (p.2.desc 1).fmt ∧ ((p.2.desc 0).fmt = 0 ∨ (p.2.desc 0).fmt = 4) ∧
        ∀ i < p.2.count 0, at_ p i % 4 = 0 ∧ ∀ j < p.2.count 0, at_ p j = at_ p i → j = i
      Completes (.collComplete n) s (fun t => t.colls = s.colls.eraseIdx n ∧
        (∀ p ∈ k.parts, (p.2.desc 0).bkind = 1 → words p → (∀ i < p.2.count 0, at_ p i < 0x80000) →
          (t.core p.2.core).cbar p.2.bar = barAfter (bar p.2) s.tick 0 ∧
          ∀ i < p.2.count 0, (t.core p.2.core).scratch.word (at_ p i) = BitVec.ofNat 32 (res p i)) ∧
        (∀ p (pa : Nat → Nat), k.parts = [p] → (p.2.desc 0).bkind = 0 → words p →
          (∀ i < p.2.count 0, s.engineXlate p.2 (at_ p i) permW = .ok (pa i) ∧ pa i % 4 = 0 ∧ isWindowPa (pa i) = false ∧ s.isHeader (pa i) = false ∧
            s.homeDown (pa i) = false ∧ ∀ j < p.2.count 0, pa j = pa i → j = i) →
          (t.core p.2.core).cbar p.2.bar = barAfter (bar p.2) s.tick 0 ∧ ∀ i < p.2.count 0, t.homeWord (pa i) = BitVec.ofNat 32 (res p i))))) ∧
  (let wd := (x.reg 0x1D).toNat % 2 ^ 32
   let expired := fun (p : Nat × Command) => p.2.phase = .started ∧ ∃ h ∈ s.collHalts k, max h.2.toNat p.2.since.toNat + wd ≤ s.tick.toNat
   wd ≠ 0 → (∃ p ∈ k.parts, expired p) → (∀ p ∈ k.parts, p.2.toQueue = false) → (k.parts.map (·.2.core)).Nodup → Completes (.collWatchdog n) s (fun t =>
    ∃ left : List (Nat × Command), left.Sublist k.parts ∧ (∀ p ∈ k.parts, p ∈ left ↔ ¬expired p) ∧
      t.colls = (if left = [] then s.colls.eraseIdx n else s.colls.set n { k with parts := left, ended := true }) ∧
      ∀ p ∈ k.parts, expired p → (t.core p.2.core).cbar p.2.bar = barAfter (bar p.2) s.tick 6))) ∧
  (∀ (s : State) (pkg x : Nat),
    let known := ∃ h ∈ (s.ctx x).peersHalted, h.1 = pkg
    (¬known → Completes (.haltStatus ⟨pkg, x, .halted⟩) s (fun t => t = s.modCtx x fun y => { y with peersHalted := (pkg, s.tick) :: y.peersHalted })) ∧
    (known → Completes (.haltStatus ⟨pkg, x, .halted⟩) s (fun t => t = s)) ∧
    (¬known → Completes (.haltStatus ⟨pkg, x, .resumed⟩) s (fun t => t = s)) ∧
    (known → Completes (.haltStatus ⟨pkg, x, .resumed⟩) s (fun t => t = { s with ctxs := t.ctxs, net := t.net } ∧
      (t.ctx x).peersHalted = (s.ctx x).peersHalted.filter (·.1 ≠ pkg) ∧ (∀ z, z ≠ x → t.ctx z = s.ctx z) ∧
      ∀ (i : Nat) (m : Msg), s.net[i]? = some m → ∃ m' : Msg, t.net[i]? = some m' ∧ m' = { m with since := m'.since } ∧ ((m.ctx ≠ x ∨ m.reply.isSome) → m' = m))) ∧
    Completes (.haltStatus ⟨pkg, x, .expired⟩) s (fun (t : State) => t = { s with colls := t.colls } ∧ t.colls.length = s.colls.length ∧
      ∀ (i : Nat) (k : Coll), s.colls[i]? = some k →
        t.colls[i]? = some (if k.ctx = x ∧ pkg ∈ (SMap.get [] k.group (s.ctx x).groups).map (·.1) then { k with ended := true } else k))) ∧
  (∀ xs : List Word, reduceRanks 4 0 xs = (xs.map (·.toNat)).sum % 2 ^ 32) ∧
  (∀ (w : Word) (ws : List Word), (∀ v ∈ w :: ws, v.toInt ≤ (BitVec.ofNat 32 (reduceRanks 4 1 (w :: ws))).toInt) ∧ (∃ v ∈ w :: ws, v.toNat = reduceRanks 4 1 (w :: ws)) ∧
    (∀ v ∈ w :: ws, (BitVec.ofNat 32 (reduceRanks 4 2 (w :: ws))).toInt ≤ v.toInt) ∧ ∃ v ∈ w :: ws, v.toNat = reduceRanks 4 2 (w :: ws)) ∧
  (∀ (w : Word) (ws : List Word), reduceRanks 0 0 (w :: ws) =
    ws.foldl (fun acc v => Fmt.f32.add acc v.toNat) (if 0x7F800000 < w.toNat % 2 ^ 31 then 0x7FC00000 else w.toNat)) ∧
  (∀ (f : Nat) (w : Word) (ws : List Word), f = 1 ∨ f = 2 →
    let wide := fun (v : Word) => Fmt.f32.pack .ne ((collFmt f).unpack v.toNat)
    reduceRanks f 0 (w :: ws) = (collFmt f).pack .ne (Fmt.f32.unpack (ws.foldl (fun acc v => Fmt.f32.add acc (wide v)) (wide w))))

/-- R17, R164, R166, R170, R172, R293: the oldest launch not yet placed is placed whole once every slot its map names is free, its threads at the stage's entry with their stacks; a launch that is done leaves its context and its completion word is written, once that word's home takes it (assumption 61); a workgroup whose live threads have all blocked counts anew, and one that reaches the quantum removes its context; a remap entry is written at once where its logical core is not current. -/
def Obligations.LaunchesArePlacedAndComplete : Prop := ∀ (s : State) (x n c ws : Nat),
  (∀ l, (s.ctx x).launches.find? (fun l => l.state == .accepted) = some l → (s.ctx x).alive = true → (s.ctx x).removal = 0 → l.serial = false →
    (∀ p ∈ l.place, s.hasPlace x p.1 = true ∧ slotsFree (s.wgsOf x p.1) l.warps p.2.1 p.2.2 = true) → Completes (.placeLaunch x) s (fun t =>
      (t.ctx x).launches = (s.ctx x).launches.map (fun k => if k.index = l.index then
        { k with placedN := l.placedN + l.place.length, state := if l.placedN + l.place.length = k.count then .placed else .accepted } else k) ∧
      (∀ lc hw slot y, l.place = [(lc, hw, slot)] → s.cores.find? (fun kv => kv.2.owner = some x && kv.2.lcore = some lc) = some (c, y) →
        ∃ g, (t.core c).wg slot = some g ∧ g.state = .resident ∧ g.started = true ∧ g.hw = hw ∧ g.warps = l.warps ∧ g.launch = l.index ∧
          ∀ tid < 32 * l.warps, (g.thread tid).live = true ∧ (g.thread tid).sp = l.stack + BitVec.ofNat 64 ((tid + 1) * l.stackb) ∧
            (g.thread tid).pc = ((l.stages[l.stageAt 0]?).map (·.entry)).getD 0))) ∧
  (∀ l, (s.ctx x).launches[n]? = some l → s.launchDone x l = true → (s.ctx x).removal = 0 → s.vaDown x l.done = false → (s.releaseAll x).2 = true → l.detMode = 0 →
    Completes (.launchComplete x n) s (fun t => (∀ k ∈ (t.ctx x).launches, k.index ≠ l.index) ∧
      (∀ a, s.walk x l.done = some a → a.grants permW = true → s.ownsFrame x a.pa = true → isWindowPa a.pa = false → a.pa % 4 = 0 → s.isHeader a.pa = false →
        NoErrors s → t.homeWord a.pa = 1) ∧
      ∃ u : State, (u.ctx x).launches = (s.ctx x).launches.filter (·.index ≠ l.index) ∧ t = (u.devStore x l.done 1).settleRemap x)) ∧
  (∀ l, (s.ctx x).launches[n]? = some l → s.launchDone x l = true → (s.ctx x).removal = 0 → s.vaDown x l.done = true →
    Completes (.launchComplete x n) s (fun t => t = s)) ∧
  (∀ g, (s.core c).wg ws = some g → g.state = .resident → s.mayIssue c = true →
    let blocked := g.rest = true ∨ ∀ p ∈ g.threads, p.2.live = true → p.2.park ≠ .none ∨ p.2.reached = true ∨ s.isHeld c g p.1 = true
    (blocked → Completes (.runaway c ws) s (fun t => OnlyCore s t c ∧ ∃ g', (t.core c).wg ws = some g' ∧ g'.runaway = s.tick ∧
      (∀ p ∈ g'.threads, p.2.reached = false) ∧ g'.frontier = g.frontier)) ∧
    (¬blocked → ((s.ctx g.ctx).reg 0x16).toNat ≤ (s.tick - g.runaway).toNat → (s.ctx g.ctx).removal = 0 →
      Completes (.runaway c ws) s (fun t => RemovalBegun t g.ctx trapRUNAWAY ∧ t.cores = s.cores))) ∧
  (∀ lc p, lc < (s.ctx x).grid → p < 512 → (s.ctx x).alive = true → (s.ctx x).remapQ = [] → Completes (.remapWrite x lc p) s (fun t =>
    (s.remapHeld x = false → s.isCurrent x lc = false → (t.ctx x).remap = SMap.insert lc p (s.ctx x).remap ∧ (t.ctx x).remapQ = []) ∧
    (s.remapHeld x = true ∨ s.isCurrent x lc = true → (t.ctx x).remap = (s.ctx x).remap ∧ (t.ctx x).remapQ = [(lc, p)]) ∧
    t.cores = s.cores ∧ MemKept s t))

/-- R166, R190, R207, R324-R329, R331, R332: a logical core that has had its slice, with another runnable, is asked to leave; a workgroup whose threads have all blocked is evicted, runnable where one yields, its record, frontier, registers and threads in the save area; a logical core that may leave does, its scratchpad and tiles saved; the next one becomes current; the control thread takes its oldest event that it may, in supervisor mode at the handler, with source, code, trap frame and logical core in s1 to s4; a start request queues a start event, and is refused while the routine runs. -/
def Obligations.LogicalCoresAndEventsSwitch : Prop := ∀ (s : State) (c ws x l : Nat),
  let y := s.core c
  (s.mayIssue c = true → y.switch = false → y.lcore.isSome → (s.nextCore c).isSome →
    max ((s.ctx (s.coreCtx c)).reg 0x1A).toNat (2 * y.swtime.toNat) ≤ (s.tick - y.since).toNat → Completes (.switchRequest c) s (fun t =>
      (t.core c).switch = true ∧ (∀ g, y.wg ws = some g → g.state = .resident → (t.core c).wg ws = some { g with evict := true }) ∧ OnlyCore s t c ∧ MemKept s t)) ∧
  (∀ g, y.wg ws = some g → g.state = .resident → g.evict = true → s.atBlocking c g = true → y.queuesIdle g = true → s.grantedTo c ws = false →
    s.saveAreaOk (s.coreCtx c) (s.saveArea (s.coreCtx c) (y.lcore.getD 0)) = true → (s.releaseNow (s.coreCtx c) (dieOf c)).2 = true →
    Completes (.evictWorkgroup c ws) s (fun t =>
      let kind : WgState := if g.threads.any (fun p => p.2.live && p.2.park == .yield) then .evictedRunnable else .evictedWaiting
      let base := s.saveArea (s.coreCtx c) (y.lcore.getD 0)
      let record := base + saveWg ws
      (t.core c).wg ws = some { g with evict := false, state := kind } ∧
      (NoErrors s → SMap.wf 0 y.regs = true → ws < 6 → g.warps ≤ 8 → g.hw + g.warps ≤ 48 → g.frontier.length ≤ 256 →
        t.homeWord record = BitVec.ofNat 32 (kind.code + g.warps * 16 + g.hw * 256) ∧ t.homeWord (record + 4) = BitVec.ofNat 32 g.launch ∧
        t.homeWord (record + 8) = BitVec.ofNat 32 g.stage ∧ t.homeDword (record + 0x10) = g.digest ∧
        t.homeWord (record + 0x18) = BitVec.ofNat 32 g.frontier.length ∧ (∀ i f, g.frontier[i]? = some f → t.homeDword (record + 0x100 + 48 * i) = f.pc) ∧
        (∀ h k lane, h < g.warps → k < 64 → lane < 32 → t.homeWord (base + saveRegs + 4 * regKey (g.hw + h) k lane) = y.reg (g.hw + h) k lane) ∧
        ∀ tid < 32 * g.warps, let a := base + saveThread (g.hw + tid / 32) (tid % 32)
          let r := g.thread tid
          t.homeDword a = r.pc ∧ t.homeDword (a + 8) = r.sp ∧ t.homeWord (a + 0x10) = r.sseq ∧ (t.homeWord (a + 0x14)).getLsbD 0 = r.live ∧
            t.homeDword (a + 0x18) = r.psig))) ∧
  (s.mayIssue c = true → y.switch = true → y.ct.cur.park ≠ .switch → y.lcore = some l → s.noArrival c = true → s.mayLeave c = true →
    s.saveAreaOk (s.coreCtx c) (s.saveArea (s.coreCtx c) l) = true → Completes (.logicalCoreSwitch c) s (fun t =>
      let base := s.saveArea (s.coreCtx c) l
      (t.core c).lcore = none ∧ (t.core c).switch = false ∧ (t.core c).wgs = [] ∧ (t.core c).queues = [] ∧ (t.core c).ct.cur.run = .idle ∧
      (∃ v, SMap.get none l (t.core c).saved = some v ∧ v.wgs = y.wgs ∧ v.cbars = y.cbars ∧ v.flags = y.flags ∧ v.ct = y.ct ∧ v.queues = y.queues ∧ v.sys = y.sys) ∧
      (y.scratch.wf = true → ∀ a < 0x80000, a % 4 = 0 → t.homeWord (base + a) = y.scratch.word a) ∧
      (SMap.wf 0 y.tiles = true → ∀ i < 0x10000, t.homeWord (base + saveTiles + 4 * i) = SMap.get 0 i y.tiles))) ∧
  (s.mayIssue c = true → y.switch = false → y.lcore = none → y.ct.cur.run = .idle →
    let u := s.settleRemap (s.coreCtx c)
    u.nextCore c = some l → u.saveAreaOk (s.coreCtx c) (u.saveArea (s.coreCtx c) l) = true → u.unpoisoned (u.saveArea (s.coreCtx c) l) saveBytes = true →
    Completes (.logicalCoreSwitch c) s (fun t => (t.core c).lcore = some l ∧ (t.core c).since = s.tick ∧ (t.core c).switch = false)) ∧
  (∀ ev rest, s.mayIssue c = true → y.lcore.isSome → y.ct.pending = ev :: rest →
    let base := s.saveArea (s.coreCtx c) (y.lcore.getD 0)
    let old := if y.ct.cur.run = .idle then y.ct.saved else { y.ct.cur with park := .none } :: y.ct.saved
    let took := fun (t : State) (r : CtRegs) => (t.core c).ct.cur = r ∧ (t.core c).ct.pending = rest ∧ (t.core c).ct.saved = old ∧ (t.core c).regs = y.regs
    let handler := fun (r : CtRegs) (source code frame : Nat) => r.super = true ∧ r.run = .supervisor ∧ r.pc = (s.ctx (s.coreCtx c)).reg 0x19 ∧ r.rstack = [] ∧
      r.reg 1 = BitVec.ofNat 64 source ∧ r.reg 2 = BitVec.ofNat 64 code ∧ r.reg 3 = BitVec.ofNat 64 frame ∧ r.reg 4 = BitVec.ofNat 64 (y.lcore.getD 0)
    (∀ source code, ev = .trap source code → source ≠ 6 → y.ct.cur.run ≠ .supervisor → Completes (.ctTakeEvent c) s (fun t => ∃ r, took t r ∧ MemKept s t ∧
      handler r source code.toNat (if source ≤ 5 then base + saveWg source + saveFrame else base + saveCtFrame))) ∧
    (∀ code, ev = .trap 6 code → y.ct.cur.run ≠ .supervisor → s.saveAreaOk (s.coreCtx c) base = true → Completes (.ctTakeEvent c) s (fun t =>
      ∃ r, took t r ∧ handler r 6 code.toNat (base + saveCtFrame) ∧ (NoErrors s → ∀ f i w, y.ct.trapped.head? = some f → f.frame[i]? = some w →
        t.homeWord (base + saveCtFrame + 4 * i) = w))) ∧
    (∀ code, ev = .trap 6 code → y.ct.cur.run ≠ .supervisor → s.saveAreaOk (s.coreCtx c) base = false → (s.ctx (s.coreCtx c)).removal = 0 →
      Completes (.ctTakeEvent c) s (fun t => RemovalBegun t (s.coreCtx c) trapENGINEFATAL)) ∧
    (ev = .start → y.ct.cur.run ≠ .supervisor → Completes (.ctTakeEvent c) s (fun t => ∃ r, took t r ∧ MemKept s t ∧ r.super = true ∧ r.run = .resident ∧
      r.pc = (s.ctx (s.coreCtx c)).reg 0x1F ∧ r.rstack = [] ∧ r.reg 1 = 8 ∧ r.reg 2 = 0 ∧ r.reg 3 = 0 ∧ r.reg 4 = BitVec.ofNat 64 (y.lcore.getD 0))) ∧
    (∀ done buffer, ev = .digest done buffer → y.ct.cur.run ≠ .supervisor → s.saveAreaOk (s.coreCtx c) base = true → Completes (.ctTakeEvent c) s (fun t =>
      ∃ r, took t r ∧ handler r 7 trapDIGEST (base + saveCtFrame) ∧ (NoErrors s → t.homeWord (base + saveCtFrame) = BitVec.ofNat 32 trapDIGEST ∧
        t.homeDword (base + saveCtFrame + 16) = done ∧ t.homeDword (base + saveCtFrame + 24) = buffer))) ∧
    (∀ k stage, ev = .prologue k stage → (y.ct.cur.run = .idle ∧ y.ct.saved = []) ∨
        (y.ct.cur.run = .resident ∧ y.ct.cur.park ≠ .none ∧ y.ct.cur.park ≠ .switch) → Completes (.ctTakeEvent c) s (fun t =>
      ∃ r, took t r ∧ MemKept s t ∧ r.super = false ∧ r.run = .prologue k stage ∧ r.rstack = [] ∧ (∀ i, r.reg i = 0) ∧
        r.pc = (((s.launch (s.coreCtx c) k).bind (·.stages[stage]?)).map (·.prologue)).getD 0)) ∧
    (y.ct.cur.run = .supervisor → (∀ e ∈ ev :: rest, ∀ k stage, e ≠ .prologue k stage) → Completes (.ctTakeEvent c) s (fun t => t = s))) ∧
  (s.cores.find? (fun kv => kv.2.owner = some x && kv.2.lcore = some l) = some (c, y) → (s.ctx x).alive = true → (s.ctx x).removal = 0 → l < (s.ctx x).grid →
    s.hasPlace x l = true → y.ct.hasResident = false → Completes (.startRequest x l) s (fun t =>
      (t.core c).ct = { y.ct with pending := y.ct.pending ++ [.start] } ∧ OnlyCore s t c ∧ MemKept s t)) ∧
  (s.cores.find? (fun kv => kv.2.owner = some x && kv.2.lcore = some l) = some (c, y) → y.ct.hasResident = true ∨ (s.ctx x).removal ≠ 0 →
    Completes (.startRequest x l) s (fun t => t = s))

/-- R346-R349: a context that is removed goes through nine steps, each of which ends what it names at once (assumption 38): what stands on its cores is discarded; its matrix commands, copies, commands in the stacks and collectives end with 7; its requests to Staithes, its monitor entries and its lines go; last its generation moves on, the completion words of its launches take 2, and it lives no more. A step that lasts too long resets each die that holds what it has yet to end (a collective's poster's die, assumption 62); a way with 64 corrected errors leaves service.
R351-R356, R376: a die's warm reset ends the commands of its stack with 6 and asks its logical cores to leave, and takes its steps one by one, or leaves the die offline where a test fails; a context that does not leave in time, or whose saved state lies on the die's stack, is removed. A fatal error stops every clock at the next tick with a dump of the cores; an armed stop gates them at its tick; the lifetime counters are kept every 2^32 ticks and can be read. -/
def Obligations.ContextsAreRemovedAndDiesReset : Prop :=
  (∀ (s : State) (x cause : Nat),
  ((s.ctx x).alive = true → (s.ctx x).removal = 0 → Completes (.removeContext x cause) s (fun t => RemovalBegun t x cause ∧ t.cores = s.cores ∧ MemKept s t)) ∧
  (∀ k, (s.ctx x).removal = k → 1 ≤ k → k ≤ 9 → (k = 9 → ∀ l ∈ (s.ctx x).launches, s.vaDown x l.done = false) → Completes (.removalStep x) s (fun t =>
    (k ≤ 8 → (t.ctx x).removal = k + 1) ∧
    (k = 1 → (∀ c, (s.core c).owner = some x → (t.core c).wgs = [] ∧ (t.core c).warps = [] ∧ (t.core c).queues = [] ∧ (t.core c).loads = [] ∧
      (t.core c).saved = [] ∧ (t.core c).ct.cur.run = .idle ∧ (t.core c).ct.pending = [] ∧ (t.core c).lcore = none ∧ (t.core c).owner = some x) ∧
      (∀ w ∈ t.waits, w.ctx ≠ x) ∧ ∀ m ∈ t.net, m.ctx = x → ¬(isWindowPa m.pa = true ∧ s.windowKind m.pa = 1)) ∧
    (k = 2 → (∀ q, ∀ m ∈ (t.quad q).table, m.ctx ≠ x) ∧ (∀ c, ∀ m ∈ (t.core c).matQ, m.ctx ≠ x) ∧
      (∀ q, ∀ m ∈ (s.quad q).table, m.ctx = x → EndedWith s t m 7) ∧ ∀ c, ∀ m ∈ (s.core c).matQ, m.ctx = x → EndedWith s t m 7) ∧
    (k = 3 → ∀ c, (∀ m ∈ (t.core c).copyQ ++ (t.core c).holdQ, m.ctx ≠ x) ∧ ∀ m ∈ (s.core c).copyQ ++ (s.core c).holdQ, m.ctx = x → EndedWith s t m 7) ∧
    (k = 4 → (∀ j, (∀ m ∈ (t.stack j).ade, m.ctx ≠ x) ∧ ∀ m ∈ (s.stack j).ade, m.ctx = x → EndedWith s t m 7) ∧
      ∀ q, (∀ m ∈ (t.seq q).queue, m.ctx ≠ x) ∧ (∀ m ∈ (s.seq q).queue, m.ctx = x → EndedWith s t m 7)) ∧
    (k = 5 → (∀ g ∈ t.colls, g.ctx ≠ x) ∧ ∀ g ∈ s.colls, g.ctx = x → ∀ p ∈ g.parts, EndedWith s t p.2 7) ∧
    (k = 6 → ∀ m ∈ t.net, m.ctx = x → m.req.isBag = false) ∧
    (k = 7 → ∀ j, (∀ e ∈ (t.stack j).spilled, e.ctx ≠ x) ∧ (∀ e ∈ (t.stack j).fallback, e.ctx ≠ x) ∧ ∀ p ∈ (t.stack j).monitor, ∀ e ∈ p.2, e.ctx ≠ x) ∧
    (k = 8 → (∀ c, noL1 (t.core c) x) ∧ (∀ m ∈ t.net, m.ctx ≠ x) ∧ (∀ e ∈ t.llc, e.2.owner ≠ x) ∧
      ∀ d line, s.frameOwner (line * 128) = some x → SMap.get {} line (t.die d).l2 = {}) ∧
    (k = 9 → (t.ctx x).alive = false ∧ (t.ctx x).removed = true ∧ (t.ctx x).launches = [] ∧ (t.ctx x).gen = (s.ctx x).gen + 1 ∧
      (∀ c, ∀ e ∈ (t.core c).tlb, e.ctx ≠ x) ∧
      ∀ l a, (s.ctx x).launches = [l] → (s.ctx x).lost = [] → (s.modCtx x fun y => { y with gen := y.gen + 1 }).walk x l.done = some a →
        a.grants permW = true → isWindowPa a.pa = false → a.pa % 4 = 0 → s.isHeader a.pa = false → s.homeDown a.pa = false → NoErrors s →
          t.homeWord a.pa = 2))) ∧
  (1 ≤ (s.ctx x).removal → (s.ctx x).removal ≤ 9 → 16777216 ≤ (s.tick - (s.ctx x).began).toNat →
    Completes (.removalStall x) s (fun t => ∀ d < 16, (s.die d).reset = 0 → (s.die d).offline = false →
      (t.die d).reset = if d ∈ s.stalledDies x (s.ctx x).removal then 1 else 0)) ∧
  (∀ stack slice way, 64 ≤ (s.recentErrors (wayKey stack slice way)).length → (stack, slice, way) ∉ s.quarant →
    (s.quarant.filter (fun q => q.1 = stack && q.2.1 = slice)).length < 4 → Completes (.wayQuarantine stack slice way) s (fun t =>
      t.quarant = s.quarant ++ [(stack, slice, way)] ∧ t.cores = s.cores))) ∧
  (∀ (s : State) (d x : Nat),
  (d < 16 → (s.die d).reset = 0 → (s.die d).offline = false → Completes (.warmReset d) s (fun t => (t.die d).reset = 1 ∧
    (∀ m ∈ (s.stack d).ade, m.phase ≠ .posted → EndedWith s t m 6) ∧ (∀ m ∈ (t.stack d).ade, m.phase = .posted) ∧
    ∀ c, dieOf c = d → (s.core c).lcore.isSome → (t.core c).switch = true)) ∧
  (∀ k, (s.die d).reset = k → 1 ≤ k → k ≤ 6 → (k = 1 → s.savedOn d = [] ∧ ∀ kv ∈ s.cores, dieOf kv.1 = d → kv.2.lcore = none) → Completes (.resetStep d) s (fun t =>
    (k ≤ 3 → (t.die d).reset = k + 1) ∧
    (k = 4 ∨ k = 5 → (t.die d).reset = k + 1 ∨ ((t.die d).offline = true ∧ (t.die d).reset = 0)) ∧
    (k = 3 → (t.stack d).refresh = true) ∧
    (k = 4 → ∀ c, dieOf c = d → (t.core c).regs = [] ∧ (t.core c).scratch = [] ∧ (t.core c).owner = (s.core c).owner) ∧
    (k = 5 → (t.die d).reset = 6 → SMap.get 0 (18 + d) t.links = 0) ∧
    (k = 6 → (t.die d).reset = 0 ∧ (t.die d).power = 0 ∧ (t.die d).bars = [] ∧ (t.stack d).refresh = false ∧ ∀ q, q / 8 = d → (t.quad q).bars = []))) ∧
  ((s.die d).reset = 1 → (x ∈ s.savedOn d ∨ ∃ kv ∈ s.cores, dieOf kv.1 = d ∧ kv.2.owner = some x ∧ kv.2.lcore.isSome ∧
      (4194304 ≤ (s.tick - (s.die d).began).toNat ∨ homeStack (s.saveArea x (kv.2.lcore.getD 0)) = d)) → (s.ctx x).removal = 0 → Completes (.switchoutTimeout d x) s (fun t => RemovalBegun t x 0x40 ∧ t.cores = s.cores)) ∧
  (∀ cause, Completes (.packageFatal cause) s (fun t => t.stopped = true ∧ t.tick = s.tick + 1 ∧ t.armed = none ∧ t.fatal = none ∧
    (∃ r, t.dump = some r ∧ r.stop = s.tick + 1 ∧ r.cause = cause ∧ (∀ k < 16, r.dies.getLsbD k = !s.dieDown k) ∧ (s.dumpBase % 128 = 0 → NoErrors s →
      t.homeDword s.dumpBase = s.tick + 1 ∧ (t.homeWord (s.dumpBase + 8)).toNat = cause % 256 ∧ t.homeWord (s.dumpBase + 12) = r.dies.setWidth 32 ∧
        ∀ c, c < 512 → s.dieDown (dieOf c) = false → (s.core c).lcore.isSome → (∀ kv ∈ s.cores, kv.2.lcore.isSome → kv = (c, s.core c)) → (s.core c).wgs = [] →
          (s.core c).scratch.wf = true → ∀ a < 0x80000, a % 4 = 0 →
            t.homeWord (s.dumpBase + 0x100000 + 0x19C000 * c + a) = (s.core c).scratch.word a)))) ∧
  (∀ cause, s.fatal = some cause → exec .tickstopFire s = exec (.packageFatal cause) s) ∧
  (∀ a, s.fatal = none → s.armed = some a → a.toNat < s.tick.toNat → Completes .tickstopFire s (fun t => t = { s with stopped := true, tick := a, armed := none })) ∧
  (∀ a, s.fatal = none → s.armed = some a → s.tick.toNat ≤ a.toNat → Completes .tickstopFire s (fun t => t = s)) ∧
  (2 ^ 32 ≤ (s.tick - s.flashed).toNat → Completes (.counterUpdate) s (fun t => t = { s with flash := s.counters, flashed := s.tick })) ∧
  ∀ k, Completes (.attestation (.counter k)) s (fun t => t = { s with out := s.out ++ [.counter k (SMap.get 0 k s.flash)] }))

/-- R126, R309, R345, R348, R353, R365, R367: an access of another package that is well formed is answered with the code of its check, or performed at its home: a load answers the data, a store of words writes them, an atomic answers the old word and leaves the new one, a `red` leaves it and answers none, and a wait answers at once where it holds and is registered where it does not; a link that has no answer in 2^24 ticks gives 4, while the context is not halted there; a failed flit is replayed and counted, and after 16 the link retrains or goes down.
R341, R360-R364: a function with no context completes what it is asked with Unsupported Request; a put-window write becomes a put of its slot's bag, or is counted as malformed, and a read gives zero; a read of the memory window returns the bytes at their homes, and a write leaves them there, or one that may not be made completes with Completer Abort; a write to the register page changes nothing and a read gives its field; a store of a vector to an interrupt page raises it; an injection is kept until its tick, then inverts the bits of the copy that holds the word. -/
def Obligations.PeersAndHostAreServed : Prop :=
  (∀ (s : State) (req : PeerReq) (n link : Nat),
  (peerFormed req = true →
    ((s.ctx req.ctx).alive = false → s.peerPlace req = .error 6) ∧
    ((s.ctx req.ctx).alive = true → (s.ctx req.ctx).removal = 0 → s.walk req.ctx req.va = none → s.peerPlace req = .error 1) ∧
    (∀ code, s.peerPlace req = .error code → Completes (.peerAccess req) s (fun t => (∃ l, t.out = l ++ [.peerReply req.pkg code 0]) ∧
      (∀ c, (t.core c).regs = (s.core c).regs))) ∧
    (∀ pa, s.peerPlace req = .ok pa → NoErrors s → (∀ a ∈ wordsAt pa req.size, s.poisoned a = false) →
      (req.kind = .load → Completes (.peerAccess req) s (fun t =>
        t = { s with out := s.out ++ [.peerReply req.pkg 0 (BitVec.ofNat 128 (s.homeData pa req.size))] })) ∧
      (req.kind = .store → 4 ≤ req.size → pa % req.size = 0 → Completes (.peerAccess req) s (fun t =>
        t.out = s.out ++ [.peerReply req.pkg 0 0] ∧
        (∀ i < req.size / 4, t.homeWord (pa + 4 * i) = BitVec.ofNat 32 (req.data.toNat / 2 ^ (32 * i))) ∧
        ∀ a, a % 4 = 0 → (a < pa ∨ pa + req.size ≤ a) → t.homeWord a = s.homeWord a)) ∧
      (∀ op upd back, (req.kind = .atomic op upd ∧ back = (s.homeWord pa).setWidth 128) ∨ (req.kind = .red op upd ∧ back = 0) → op.toNat ≤ 13 → req.size = 4 →
        pa % 4 = 0 → s.dirtyDies pa = [] → Completes (.peerAccess req) s (fun t =>
          t.out = s.out ++ [.peerReply req.pkg 0 back] ∧
          t.homeWord pa = atomWord op.toNat (s.homeWord pa) (req.data.setWidth 32) ((req.data >>> 64).setWidth 32) ∧
          (upd = false → ∀ d, (t.die d).word pa = none) ∧ ∀ a, a % 4 = 0 → a ≠ pa → t.homeWord a = s.homeWord a)) ∧
      (∀ cmp, req.kind = .wait cmp → s.dirtyDies pa = [] →
        (waitCond cmp (s.homeWord pa) (req.data.setWidth 32) false = true → Completes (.peerAccess req) s (fun t =>
          t = { s with out := s.out ++ [.peerReply req.pkg 0 1] })) ∧
        (waitCond cmp (s.homeWord pa) (req.data.setWidth 32) false = false → Completes (.peerAccess req) s (fun t => t.out = s.out ∧ MemKept s t ∧
          ∃ w ∈ t.waits, w.who = .device ∧ w.ctx = req.ctx ∧ w.pa = pa ∧ w.cmp = cmp ∧ w.x = req.data.setWidth 32 ∧ w.st = req.pkg))))) ∧
  (∀ m, s.net[n]? = some m → m.reply = none → isWindowPa m.pa = true → s.windowKind m.pa = 1 → 2 ^ 24 ≤ (s.tick - m.since).toNat →
    let halted := ∃ h ∈ (s.ctx m.ctx).peersHalted, h.1 = bitsOf (s.windowTarget m.pa).2 29 21
    (¬halted → Completes (.linkWatchdog n) s (fun t => repliedWith t n (.error 4) ∧ OnlyNet s t)) ∧
    (halted → Completes (.linkWatchdog n) s (fun t => t = s))) ∧
  (link < 34 → SMap.get 0 link s.links < 16 → Completes (.failedFlit link) s (fun t =>
    (SMap.get 0 link t.links = SMap.get 0 link s.links + 1 ∨ SMap.get 0 link t.links = 1) ∧
    SMap.get 0 (Counter.replays link).key t.counters = SMap.get 0 (Counter.replays link).key s.counters + 1 ∧ t.cores = s.cores ∧ MemKept s t)) ∧
  (link < 34 → SMap.get 0 link s.links = 16 → Completes (.linkRetrain link) s (fun t => (SMap.get 0 link t.links = 0 ∨ SMap.get 0 link t.links = linkDown) ∧
    SMap.get 0 (Counter.retrains link).key t.counters = SMap.get 0 (Counter.retrains link).key s.counters + 1 ∧ t.cores = s.cores ∧ MemKept s t))) ∧
  (∀ (s : State) (fn off n : Nat) (data : List Word) (req : HostAccess) (inj : Injection),
  let aborted := fun (unsupported : Bool) (f : Nat) (t : State) => t = { s with out := s.out ++ [.abort f unsupported] }
  let gives := fun (bs : List Byte) (t : State) => t = { s with out := s.out ++ [.readData fn bs] }
  (∀ w d, (s.vf fn).ctx = none → ∀ i ∈ [Instr.unboundVfRequest fn, .registerPageWrite fn ⟨off, w⟩, .putWindowWrite fn off d], Completes i s (aborted true fn)) ∧
  (∀ x, (s.vf fn).ctx = some x →
    (∀ w, Completes (.registerPageWrite fn ⟨off, some w⟩) s (fun t => t = s)) ∧
    (∀ v : Word, v = (if off = 0 then BitVec.ofNat 32 (x % 4096) else if off = 8 then (s.vf fn).putok else if off = 12 then (s.vf fn).putfull
        else if off = 16 then (s.vf fn).putref else if off = 20 then (s.vf fn).putbad else 0) → off ≠ 4 →
      Completes (.registerPageWrite fn ⟨off, none⟩) s (gives (leBytes 4 v.toNat))) ∧
    (∀ v : Word, (∀ k < 32, v.getLsbD k = (decide (k < 16) && (SMap.get none k (s.vf fn).slots).isSome)) →
      Completes (.registerPageWrite fn ⟨4, none⟩) s (gives (leBytes 4 v.toNat))) ∧
    Completes (.putWindowWrite fn off none) s (gives [0, 0, 0, 0]) ∧
    (∀ header key rest, off < 0x100000 → SMap.get none (off / 65536) (s.vf fn).slots = some header → data = key :: rest →
      (s.putFits x off (4 * data.length) header = true → (s.ctx x).removal ≤ 6 → Completes (.putWindowWrite fn off (some data)) s (fun t => OnlyNet s t ∧
        ∃ m, t.net = s.net ++ [m] ∧ m.req = .put key data ∧ m.who = .device ∧ m.ctx = x ∧ m.va = header ∧ m.reply = none)) ∧
      (s.putFits x off (4 * data.length) header = true → 6 < (s.ctx x).removal → Completes (.putWindowWrite fn off (some data)) s (fun t => t = s)) ∧
      (s.putFits x off (4 * data.length) header = false → Completes (.putWindowWrite fn off (some data)) s (fun t => t = { s with vfs := t.vfs } ∧
        t.vf fn = { s.vf fn with putbad := (s.vf fn).putbad + 1 }))) ∧
    (0x100000 ≤ off ∨ SMap.get none (off / 65536) (s.vf fn).slots = none → Completes (.putWindowWrite fn off (some data)) s (fun t => t = { s with vfs := t.vfs } ∧
        t.vf fn = { s.vf fn with putbad := (s.vf fn).putbad + 1 }))) ∧
  ((s.vf req.fn).ctx = none → Completes (.memoryWindowAccess req) s (aborted true req.fn)) ∧
  (∀ x, (s.vf req.fn).ctx = some x →
    let len := (req.write.map List.length).getD req.len
    let at_ := fun (i : Nat) => s.hostPlace x (if req.write.isSome then permW else permR) ((s.vf req.fn).base + BitVec.ofNat 64 (req.off + i))
    let byte := fun (t : State) (a : Nat) => BitVec.ofNat 8 ((t.homeWord a).toNat / 2 ^ (8 * (a % 4)))
    ((∃ i < len, at_ i = none) ∨ 8 < (s.ctx x).removal ∨ 2 ^ (s.vf req.fn).winBits < req.off + len → Completes (.memoryWindowAccess req) s (aborted false req.fn)) ∧
    (∀ pas : List Nat, pas.length = len → (∀ i < len, at_ i = pas[i]?) → (s.ctx x).removal ≤ 8 → req.off + len ≤ 2 ^ (s.vf req.fn).winBits → len ≤ 4096 → NoErrors s →
      (∀ a ∈ pas, s.poisoned a = false ∧ ∀ d, (s.die d).lostAt a = false) →
      (req.write = none → Completes (.memoryWindowAccess req) s (fun t => t.out = s.out ++ [.readData req.fn (pas.map (byte t))] ∧
        ((∀ a ∈ pas, s.dirtyDies a = []) → t = { s with out := s.out ++ [.readData req.fn (pas.map (byte s))] }))) ∧
      (∀ bs, req.write = some bs → pas.Nodup → Completes (.memoryWindowAccess req) s (fun t => (∀ (i a : Nat), pas[i]? = some a → bs[i]? = some (byte t a)) ∧
        (∀ a, (∀ b ∈ pas, b / 4 ≠ a / 4) → t.homeWord a = s.homeWord a) ∧ ∀ c, (t.core c).regs = (s.core c).regs)))) ∧
  (∀ ep f v size, s.out[n]? = some (.pageStore ep f off size v) → Completes (.interruptPageStore n) s (fun t =>
    t = { s with out := if off = 0 ∧ size = 4 ∧ v < 32 then s.out.set n (.interrupt ep f v) else s.out.eraseIdx n })) ∧
  (1 ≤ popc inj.bits → popc inj.bits ≤ 2 → s.tick.toNat < inj.tick.toNat → Completes (.errorInjectRequest inj) s (fun t =>
    t = { s with inject := s.inject ++ [inj] })) ∧
  (s.inject[n]? = some inj → inj.tick.toNat ≤ s.tick.toNat → Completes (.errorInjectFire n) s (fun t => t.inject = s.inject.eraseIdx n ∧ MemKept s t ∧
    (if (s.llcLine inj.pa).valid.getLsbD (widx inj.pa) then
      SMap.get 0 (widx inj.pa) (t.llcLine inj.pa).flips = SMap.get 0 (widx inj.pa) (s.llcLine inj.pa).flips ^^^ inj.bits
     else SMap.get 0 (wordAddr inj.pa) t.dramFlip = SMap.get 0 (wordAddr inj.pa) s.dramFlip ^^^ inj.bits))))

/-- R305, R308, R315, R340, R347, R360, R362, R367-R369: at boot each X-die runs the first of its two images whose signatures verify and whose version its fuses take, and Fellos starts where neither stays in recovery (assumption 74); boot of a package that has run is a cold reset, which keeps what non-volatile storage and the fuses hold; a report answers an attestation with the measurements, the fuse counter and the nonce; a context is created with its ways and its launch bag, or not at all; a vacant core is given out zeroed; a table entry is written, unless it would take a live bag's page away, give a table's frame to a context, or bring back a retired frame; a function is bound with the launch bag in its slot 0; a halted context goes on. What Fellos refuses, and a function's first slot and counters, are the model's (assumption 40).
R341, R345, R346, R370, R371, R373: the power is sampled every 65,536 ticks and the throttle moves by one step, up above the cap or 105 °C on a die and else down, with every excursion counted (what a sample measures, and a counter for the package's own excursions, are the model's: assumptions 1, 6, 41); a droop is counted; a die idle for 2^20 ticks retains; the cap is set within its bounds; a core due for a sample takes one; a scrub corrects single-bit errors of a line and leaves its data; an error of a core's state charges its owner. -/
def Obligations.FellosActsAndSamples : Prop :=
  (∀ (s : State) (x c fn nonce : Nat),
  (let fresh := s.booted = false ∧ s.stopped = false
   Completes .boot s (fun t => t.stopped = false ∧ t.tick = s.tick ∧
    (∀ d < 2, (t.xdie d).fuse = (s.xdie d).fuse ∧ (t.xdie d).images.length = 2 ∧
      (let good := fun (i : Image) => i.rsa = true ∧ i.slh = true ∧ (s.xdie d).fuse ≤ i.version
       ((t.xdie d).recovery = true ↔ ∀ i ∈ (t.xdie d).images, ¬good i) ∧
       ∀ k, (t.xdie d).running = some k ↔ (∃ i, (t.xdie d).images[k]? = some i ∧ good i) ∧ ∀ j i, j < k → (t.xdie d).images[j]? = some i → ¬good i)) ∧
    (t.booted = true ↔ (t.xdie 0).recovery = false ∧ (t.xdie 1).recovery = false) ∧
    (fresh → (∀ k, (t.ctx k).alive = (s.ctx k).alive) ∧ ∀ k, (t.core k).regs = (s.core k).regs) ∧
    (¬fresh → t.retired = s.retired ∧ t.quarant = s.quarant ∧ t.counters = s.flash ∧ (∀ k, (t.ctx k).alive = false) ∧
      ∀ k, (t.core k).owner = none ∧ (t.core k).regs = []))) ∧
  (∀ d < 2, Completes (.attestation (.attest d nonce)) s (fun t => ∃ rsa slh,
    t = { s with out := s.out ++ [.attestation d ((s.xdie d).images.map (·.measure)) (s.xdie d).fuse nonce rsa slh] })) ∧
  (∀ d, 2 ≤ d → Completes (.attestation (.attest d nonce)) s (fun t => t = s)) ∧
  (∀ spec : ContextSpec, spec.ctx < 4096 → s.booted = true → (s.ctx spec.ctx).alive = false → ((s.ctx spec.ctx).removal = 0 ∨ (s.ctx spec.ctx).removal = 10) →
    (∀ kv ∈ s.cores, kv.2.owner ≠ some spec.ctx) →
    let r := (created s spec).checkBag spec.ctx (bagWords spec)
    (r.1 ≠ 0 → Completes (.createContext spec) s (fun t => t = s)) ∧
    (r.1 = 0 → NoErrors s → Completes (.createContext spec) s (fun t =>
      (∃ y : Context, t.ctx spec.ctx = { (created s spec).ctx spec.ctx with removal := y.removal, cause := y.cause, began := y.began, lost := y.lost }) ∧
      t.bagAt spec.ctx spec.launchBag = some r.2 ∧
      r.2.size = 4 ∧ r.2.logb = 0 ∧ r.2.work = false ∧ r.2.cap = spec.cap.toNat ∧ r.2.limit = spec.limit.toNat ∧
      (∀ i < 16384, t.homeWord (r.2.headerPa + 4 * i) = r.2.headerWord (4 * i)) ∧ ∀ k, (t.core k).regs = (s.core k).regs))) ∧
  (c < 512 → s.booted = true → s.vacant c = true → x < 4096 → (s.ctx x).alive = true → Completes (.assignCore c x) s (fun t =>
    t.core c = { owner := some x } ∧ OnlyCore s t c)) ∧
  (∀ g e base, frameBase g = some base → s.booted = true → g ∉ s.retired → (s.ientry g).retired = false → e.anchor = none → s.entryAddr g % 4 = 0 →
    s.isTableFrame base = false → Completes (.tableWrite g e) s (fun t =>
      let written := ∀ i (h : i < 4), t.mem.word (s.entryAddr g + 4 * i) = e.words[i]
      (t = s ∨ written) ∧ ((∀ b ∈ s.bags, b.freed = true) → written))) ∧
  (∀ g e base, let new := IEntry.ofWords e.words[0] e.words[1] e.words[2] e.words[3]
    frameBase g = some base → (s.isTableFrame base = true ∧ new.owned = true) ∨ ((g ∈ s.retired ∨ (s.ientry g).retired = true) ∧ new.retired = false) →
    Completes (.tableWrite g e) s (fun t => t = s)) ∧
  (fn < 512 →
    (x < 4096 → (s.ctx x).alive = true → Completes (.bindVf fn x) s (fun t => t = { s with vfs := t.vfs } ∧ (t.vf fn).ctx = some x ∧
      16 ≤ (t.vf fn).winBits ∧ (t.vf fn).winBits ≤ 40 ∧
      SMap.get none 0 (t.vf fn).slots = some (s.ctx x).launchBag ∧ (t.vf fn).putok = 0 ∧ (t.vf fn).putbad = 0 ∧ ∀ k, k ≠ fn → t.vf k = s.vf k)) ∧
    (4096 ≤ x → Completes (.bindVf fn x) s (fun t => t = { s with vfs := t.vfs } ∧ t.vf fn = {}))) ∧
  (∀ slot addr, (s.vf fn).ctx.isSome → 1 ≤ slot → slot < 16 → Completes (.putSlotBind fn slot addr) s (fun t => t = { s with vfs := t.vfs } ∧
    ∀ k, SMap.get none k (t.vf fn).slots = if k = slot then some (BitVec.ofNat 64 addr) else SMap.get none k (s.vf fn).slots)) ∧
  ((s.ctx x).halted = true → Completes (.debugResume x) s (fun t => (t.ctx x).halted = false ∧ t.colls = s.colls ∧
    (∃ l, t.out = s.out ++ l ∧ ∀ k ∈ s.colls, k.ctx = x → ∀ p ∈ SMap.get [] k.group (s.ctx x).groups, p.1 ≠ s.pkg.toNat → Outbound.haltStatus p.1 x .resumed ∈ l) ∧
    (∀ k, k ≠ x → t.ctx k = s.ctx k) ∧ ∀ k, (t.core k).regs = (s.core k).regs ∧ (t.core k).queues = (s.core k).queues))) ∧
  (∀ (s : State) (d c w line : Nat),
  (65536 ≤ (s.tick - s.sampled).toNat → Completes .powerSample s (fun t => t.sampled = s.tick ∧
    t.throttle = (if s.powerCap < s.watts ∨ ∃ k < 16, 105 < s.celsius k then min 15 (s.throttle + 1) else s.throttle - 1) ∧
    (∀ k < 16, SMap.get 0 (Counter.thermal k).key t.counters = SMap.get 0 (Counter.thermal k).key s.counters + (if 105 < s.celsius k then 1 else 0)) ∧
    t.cores = s.cores ∧ t.ctxs = s.ctxs ∧ MemKept s t)) ∧
  ((s.tick - s.sampled).toNat < 65536 → Completes .powerSample s (fun t => t = s)) ∧
  (d < 16 → Completes (.droop d) s (fun t => t = { s with counters := t.counters } ∧
    SMap.get 0 (Counter.droops d).key t.counters = SMap.get 0 (Counter.droops d).key s.counters + 1)) ∧
  (d < 16 → (s.die d).power ≤ 1 → (s.die d).offline = false → 2 ^ 20 ≤ (s.tick - (s.die d).idle).toNat → (∀ kv ∈ s.cores, dieOf kv.1 = d → kv.2.active = false) →
    Completes (.retainEntry d) s (fun t => t.die d = { s.die d with power := 2 } ∧ (∀ k, k ≠ d → t.die k = s.die k) ∧ t = { s with dies := t.dies })) ∧
  (1500 ≤ w → w ≤ 4500 → Completes (.powerCapSet w) s (fun t => t = { s with powerCap := w })) ∧
  (w < 1500 ∨ 4500 < w → Completes (.powerCapSet w) s (fun t => t = s)) ∧
  (((s.core c).sysReg 0x20).toNat ≠ 0 → (s.core c).lcore.isSome → ((s.core c).sysReg 0x20).toNat ≤ (s.tick - (s.core c).sampled).toNat →
    Completes (.stallSample c) s (fun t => (t.core c).sampled = s.tick ∧ (t.core c).regs = (s.core c).regs ∧
      (∀ hw, entriesOf ((t.core c).queue hw) = entriesOf ((s.core c).queue hw)) ∧ (t.core c).ct = (s.core c).ct)) ∧
  (∀ stack, homeStack (line * 128) = stack → (∀ i < 32, popc (SMap.get 0 i (SMap.get ({} : LlcLine) line s.llc).flips) ≤ 1) → Completes (.scrub (.llc stack) line) s (fun t =>
    (∀ i < 32, (SMap.get ({} : LlcLine) line s.llc).valid.getLsbD i = true → SMap.get 0 i (SMap.get ({} : LlcLine) line t.llc).flips = 0) ∧
    (SMap.get ({} : LlcLine) line t.llc).data = (SMap.get ({} : LlcLine) line s.llc).data ∧
    (SMap.get ({} : LlcLine) line t.llc).valid = (SMap.get ({} : LlcLine) line s.llc).valid ∧ MemKept s t ∧ t.cores = s.cores ∧ t.ctxs = s.ctxs)) ∧
  (∀ x, (s.core c).owner = some x → (s.ctx x).alive = true → (s.ctx x).removal = 0 → Completes (.scrub .core c) s (fun t =>
    RemovalBegun t x causeEngineFatal ∧ t.cores = s.cores ∧ MemKept s t)) ∧
  (Completes (.scrub .l1 c) s (fun t => (t.core c).l1 = [] ∧ MemKept s t)) ∧ Completes (.scrub .tlb c) s (fun t => (t.core c).tlb = [] ∧ MemKept s t))

/-- R34, R37, R38, R40, R42, R53: words that the spec writes out, and words written from its formats, decode to their instructions; a zero halfword, all ones and an unassigned major are refused under their names. -/
def Obligations.WordsDecode : Prop :=  (∀ p ∈ ([(0x00100895, .ldW32 { p := 0, n := 1, o := 0, s := 0, d := 8 }), (0x0400063F, .ldi 0x400 6),
      (0x902115E9, .waitu { p := 72, n := 2, c := 0, s := 4, t := 2, m := 5 }), (0xFFFFA1E1, .bra 0x1FFFF4 1),
      (0x01280031, .mov { a := 74, n := 0, d := 0, g := 0 }), (0x4001453B, .addi 512 5 5), (0x1234863F, .ldiHi 0x1234 6),
      (0xC020882D, .cmpI32 { b := 96, a := 8, n := 0, c := 2, p := 1, g := 0 }), (0x102001B1, .red { b := 8, n := 2, o := 0, u := 0, r := 0, w := 1 }),
      (0x2008388B, .pollMask 2 0 7 0), (0x240800E7, .meetJoin 2 2 0), (0x13FE10ED, .hpush { m := 1, e := 127, e7 := 1, h := 2, g := 0 }),
      (0x202418FB, .cxload 9 3 0)] : List (Word × Instr)), decode32 p.1 = .ok p.2) ∧
  (∀ p ∈ ([(0x0894, .addF3216 { b := 1, d := 4 }), (0x0010, .shrN3216 { b := 0, d := 0 }), (0x1000, .mov16 { b := 2, d := 0 })] : List (Half × Instr)),
    decode16 p.1 = .ok p.2) ∧
  decode16 0 = .error .zeroWord ∧ decode32 0xFFFFFFFF = .error .allOnes ∧ decode32 0x0000006D = .error .unassignedMajor

/-- R34, R37-R46: decoding the bytes of an encoded instruction gives the instruction back, every operand at every value, and leaves the bytes behind it; the integer forms have an encoding at every operand, but for the 16-bit `mov v0, v0`, which would be the zero halfword. -/
def Obligations.DecodeReadsWhatEncodeWrites : Prop :=  (∀ (i : Instr) (c : Code) (rest : List Byte), encode i = some c → decode (c.bytes ++ rest) = .ok (i, rest)) ∧
  (∀ f, ∀ p ∈ twoTable f, encode p.1 ≠ none) ∧ (∀ f, ∀ p ∈ threeTable f, encode p.1 ≠ none) ∧ (∀ f, ∀ p ∈ oneTable f, encode p.1 ≠ none) ∧
  (∀ f, ∀ p ∈ halfTable f, encode p.1 = none → p.1 = .mov16 f ∧ f.b = 0 ∧ f.d = 0) ∧ (∀ f, encode (.mov16 f) = none ↔ f.b = 0 ∧ f.d = 0)

/-- R34, R40, R53: a word that decodes is the encoding of the instruction it decodes to: no bit of it is dropped. -/
def Obligations.NoBitIsDropped : Prop :=  (∀ (w : Word) (i : Instr), decode32 w = .ok i → encode i = some (.word w)) ∧
  (∀ (h : Half) (i : Instr), decode16 h = .ok i → encode i = some (.half h))

/-- R34, R36: a step of a party that may issue fetches at its PC and performs the instruction that the bytes decode to, then ends its part, which the model counts as a step (log entry 4); one whose part is not due waits; bytes that decode to none trap; an event is performed, a stall sample on what holds as it begins (R373). The control of the clocks moves at once after an error that no context owns (R355), and once an armed stop's tick has ended (R376); with every clock gated only a cold reset is (R2). A part whose writes must wait for a sweep (R188) has not happened. At the end of a part the tick count has not gone back from where its instruction or event left it (R64); only a stop that fires late sets it, to the armed tick. -/
def Obligations.StepsRunWhatIsDecoded : Prop := ∀ (s u : State) (c k : Nat) (bytes rest : List Byte) (i : Instr) (x : Nat) (pc : DWord),
  let begun := fun (m : Turn) => { s with turn := none, issuer := some m }
  let after := fun (m : Turn) (o : Host.Outcome State Fault Refusal) => finishOutcome (notedOutcome (begun m) o)
  let turn := fun (m : Turn) => ((s.fatal ≠ none ∧ s.stopped = true) ∨ (s.fatal = none ∧ ∀ t, s.armed = some t → s.tick.toNat ≤ t.toNat)) ∧
    s.turn.getD (Config.turn s.steps) = m
  let moves := fun (m : Turn) => s.stopped = false ∧ turn m ∧ (begun m).mayMove m = true
  let fetches := fun (m : Turn) => moves m ∧
    ((m = .vec c k ∧ (begun m).vecPc c k = some (x, pc)) ∨ (m = .ct c ∧ (begun m).ctPc c = some (x, pc))) ∧ (begun m).fetch c x pc = .code bytes u
  (s.stopped = true → s.mover ≠ .event .boot → step s = .fault .clocksStopped) ∧
  (turn (.event .boot) → step s = after (.event .boot) (exec .boot (begun (.event .boot)))) ∧
  (∀ m, fetches m → decode bytes = .ok (i, rest) → step s = after m (exec i u)) ∧
  (∀ m r, fetches m → decode bytes = .error r → step s = after m (exec (.unassignedEncoding (BitVec.ofNat 32 (ofBytes bytes))) u)) ∧
  (moves (.event i) → (∀ n, i ≠ .stallSample n) → step s = after (.event i) (exec i (begun (.event i)))) ∧
  (moves (.event (.stallSample c)) → ∃ p, step s = after (.event (.stallSample c)) (exec (.stallSample c) { (begun (.event (.stallSample c))) with probe := p })) ∧
  (∀ m, s.stopped = false → turn m → (begun m).mayMove m = false → step s = after m (.next (begun m))) ∧
  (s.stopped = false → (s.fatal ≠ none ∨ ∃ t, s.armed = some t ∧ t.toNat < s.tick.toNat) →
    step s = after (.event .tickstopFire) (exec .tickstopFire (begun (.event .tickstopFire)))) ∧
  (∀ m t, (begun m).overflows t = true → after m (.next t) = after m (.next (begun m))) ∧
  (∀ m t, (begun m).overflows t = false → ∃ v, after m (.next t) = .next v ∧ v.steps = t.steps + 1 ∧ v.issuer = none ∧ v.mem = t.mem ∧
    (t.stopped = true → v.tick = t.tick) ∧ t.tick.toNat ≤ v.tick.toNat ∧
    ∀ c, (v.core c).regs = (t.core c).regs ∧ (v.core c).queues = (t.core c).queues ∧ (v.core c).ct = (t.core c).ct ∧ ∀ ws tid, (v.thread c ws tid).pc = (t.thread c ws tid).pc)

/-- R34-R36: a fetch whose page is mapped executable and owned, is no window, has a home that takes requests and no error, gives the halfword at its home, one that a core has fetched there, or one that a write of the word replaced, under the context's generation (log entry 8), and the first where the last two are none; and a second halfword behind it where bit 0 of the first is 1. It changes no register and no memory. Without a translation, execute permission or an owned frame there is no fetch. -/
def Obligations.FetchReadsTheHome : Prop := ∀ (s : State) (c x : Nat) (pc : DWord),
  let olds := fun (s : State) (a : DWord) (t : Xlat) => s.oldHalves x (s.ctx x).gen (a.toNat / 2) ++ s.pastHalves x (s.ctx x).gen t.pa
  let good := fun (s : State) (a : DWord) (t : Xlat) => canonical a = true ∧ s.xlate c x a = some t ∧ t.grants permX = true ∧ s.ownsFrame x t.pa = true ∧
    isWindowPa t.pa = false ∧ s.homeDown t.pa = false ∧ s.poisoned t.pa = false ∧ NoErrors s
  let half := fun (s : State) (t : Xlat) => BitVec.ofNat 16 ((s.homeWord t.pa).toNat / 2 ^ (8 * (t.pa % 4)))
  let kept := fun (u : State) => MemKept s u ∧ ∀ k, (u.core k).regs = (s.core k).regs
  (canonical pc = false ∨ s.xlate c x pc = none → s.fetch c x pc = .absent) ∧
  (∀ t, s.xlate c x pc = some t → (t.grants permX = false ∨ s.ownsFrame x t.pa = false) → s.fetch c x pc = .absent) ∧
  (∀ t n, good s pc t → ∃ h u, s.fetchHalf c x pc n = .half h u ∧ kept u ∧ (h = half s t ∨ h ∈ olds s pc t)) ∧
  (∀ t, good s pc t → olds s pc t = [] → ∃ u, s.fetchHalf c x pc 0 = .half (half s t) u ∧ kept u ∧
    ((half s t).getLsbD 0 = false → s.fetch c x pc = .code (halfBytes (half s t)) u) ∧
    ((half s t).getLsbD 0 = true → ∀ t', good u (pc48 (pc + 2)) t' → olds u (pc48 (pc + 2)) t' = [] →
      ∃ u', s.fetch c x pc = .code (halfBytes (half s t) ++ halfBytes (half u t')) u' ∧ kept u'))

/-- R49, R53, R54, R322: in the vector stream a form that breaks a field rule, or that the stream has not, traps ILLEGAL at its own PC for its whole warp; in user mode a control thread's instruction of the sys major traps PRIV, another ill-formed one ILLEGAL; in supervisor mode an ill-formed one removes the context. One that its false guard flag skips does nothing but go on to the next. -/
def Obligations.IllFormedAndPrivilegedFormsTrap : Prop := ∀ (s : State),
  (∀ i : Instr, encode i ≠ none →
    (∀ e, s.issuer = some (.vec e.c e.k) → s.env e.c e.k = some e → s.mayIssue e.c = true → e.g.state = .resident → e.owing = [] → Instr.wf .vec i = false →
      trapReady s e → Completes i s (fun t => TrapTaken s t e i 1 e.pc e.lanes (fun _ => 0))) ∧
    (∀ e, s.issuer = some (.ct e.c) → s.cenv e.c = e → s.mayIssue e.c = true → e.r.run ≠ .idle → e.r.park = .none → e.r.poison = none →
      e.r.effect = none →
      (isSys i = true → trapReadyCt s e → Completes i s (fun t => TrapTakenCt s t e 7 e.r.pc 0 0)) ∧
      (isSys i = false → Instr.wf .ctl i = false → trapReadyCt s e → Completes i s (fun t => TrapTakenCt s t e 1 e.r.pc 0 0)) ∧
      (Instr.wf .ctl i = false → e.r.super = true → (s.ctx e.x).removal = 0 → Completes i s (fun t => RemovalBegun t e.x 1)))) ∧
  (∀ f u m n o b r a k d j fl z w off g, ∀ p ∈ guardedCt f u m n o b r a k d j fl z w off g, ∀ e, skipsCt s e p.1 p.2 → Completes p.1 s (fun t =>
    (t.core e.c).ct = { (s.core e.c).ct with cur := ctNext e e.r 4 } ∧ t.core e.c = { s.core e.c with ct := (t.core e.c).ct } ∧ OnlyCore s t e.c ∧ MemKept s t))

/-- R41: the value of a source code: registers, latches, lane, thread and workgroup numbers, logical core, argument address, small immediates; in the control stream registers and what is common. A base pair is the low words of its two registers. -/
def Obligations.SourceCodes : Prop := ∀ (e : Env) (c : CEnv) (l : Lane) (k : BitVec 7) (n : BitVec 5),
  (k.toNat ≤ 63 → e.operand .int l k = e.reg l k.toNat) ∧
  (64 ≤ k.toNat → k.toNat ≤ 67 → ∀ v, e.latch l (k.toNat - 64) = some v → e.operand .int l k = v) ∧
  (k = 68 → e.operand .int l k = 0 ∧ c.operand k = 0) ∧ (k = 69 → e.operand .int l k = BitVec.ofNat 32 l.lane) ∧
  (k = 70 → e.operand .int l k = BitVec.ofNat 32 l.tid) ∧ (k = 71 → e.operand .int l k = BitVec.ofNat 32 e.g.index) ∧
  (k = 72 → e.operand .int l k = 1 ∧ c.operand k = 1) ∧
  (k = 73 → e.operand .int l k = BitVec.ofNat 32 (e.cr.lcore.getD 0) ∧ c.operand k = BitVec.ofNat 64 (c.cr.lcore.getD 0)) ∧
  (k = 74 → e.operand .int l k = e.args.lo) ∧ (k = 75 → e.operand .int l k = e.args.hi) ∧
  (80 ≤ k.toNat → e.operand .int l k = BitVec.ofInt 32 ((k.toNat : Int) - 96) ∧ c.operand k = BitVec.ofInt 64 ((k.toNat : Int) - 96)) ∧
  (80 ≤ k.toNat → e.operand .f32 l k = BitVec.ofNat 32 (Fmt.f32.pack .ne (FVal.ofInt ((k.toNat : Int) - 96)))) ∧
  (k.toNat ≤ 31 → c.operand k = c.r.reg k.toNat) ∧
  e.base l n = dword (e.reg l (2 * n.toNat)) (e.reg l (2 * n.toNat + 1)) ∧
  c.base n = dword ((c.r.reg (2 * n.toNat)).setWidth 32) ((c.r.reg (2 * n.toNat + 1)).setWidth 32)

/-- R73, R76, R80, R81, R147, R182, R187, R305, R308, R315, R351, R371: a word written at its home reads back and no L2 keeps another copy of it; nor does any L1, also one whose die's L2 has given up the line, which is the model's choice, as is the recall of dirty copies before it (log entry 51); every other word of a memory without errors is as before. At reset no context lives, every frame is unowned, every core is unowned and zero, every barrier starts anew, and the power cap stands at its default; memory that nothing has written reads as zero, which is the model's choice (log entry 2), as are the zero registers (log entry 1). -/
def Obligations.HomesReadBackAndResetLeaves : Prop :=  (∀ (s : State) (pa : Nat) (w : Word), (s.storeHome pa w).homeWord pa = w ∧ (∀ d, ((s.storeHome pa w).die d).word pa = none) ∧
    (∀ c, ∀ l ∈ ((s.storeHome pa w).core c).l1, l.pline = lineOf pa → l.valid.getLsbD (widx pa) = false) ∧
    (NoErrors s → ∀ a, a / 4 ≠ pa / 4 → (s.storeHome pa w).homeWord a = s.homeWord a) ∧ ∀ c, ((s.storeHome pa w).core c).regs = (s.core c).regs) ∧
  (let s := State.reset
   (∀ x, (s.ctx x).alive = false) ∧ (∀ g, (s.ientry g).owned = false) ∧
   (∀ c, (s.core c).owner = none ∧ (∀ hw k l, (s.core c).reg hw k l = 0) ∧ ∀ b, (SMap.get {} b (s.core c).bars).expected = 0 ∧
      (SMap.get {} b (s.core c).bars).arrived = 0 ∧ (SMap.get {} b (s.core c).bars).phase = false) ∧
   (∀ a, s.homeWord a = 0) ∧ s.powerCap = 4500 ∧ s.tick = 0 ∧ s.net = [] ∧ s.waits = [] ∧ s.mem.wf = true)

/-- The model's memory is a list with one canonical form (log entry 2): every step keeps it, from every state that has it. -/
def Obligations.MemoryStaysCanonical : Prop :=  ∀ s t : State, s.mem.wf = true → step s = .next t → t.mem.wf = true
end

