-- ==== Sys2Proof/Laws/SMap.lean ====
section
/-! SUPPORT. What sparse maps and memory do: a read after a write, and the canonical form kept. -/

namespace Sys2Proof.Machine

/-! ### Reading what was written -/

@[simp] theorem SMap.get_nil {α : Type} (d : α) (k : Nat) : SMap.get d k [] = d := rfl

theorem SMap.get_cons {α : Type} (d : α) (k : Nat) (p : Nat × α) (m : SMap α) :
    SMap.get d k (p :: m) = if p.1 = k then p.2 else SMap.get d k m := rfl

@[simp] theorem SMap.get_insert {α : Type} (d : α) (k j : Nat) (v : α) (m : SMap α) :
    SMap.get d j (SMap.insert k v m) = if j = k then v else SMap.get d j m := by
  induction m with
  | nil => simp [SMap.insert, SMap.get, eq_comm]
  | cons p m ih =>
    obtain ⟨k', v'⟩ := p
    by_cases h : k < k'
    · simp [SMap.insert, h, SMap.get, eq_comm]
    · by_cases e : k = k'
      · subst e; by_cases hj : j = k
        · simp [SMap.insert, SMap.get, hj]
        · have : ¬ k = j := fun x => hj x.symm
          simp [SMap.insert, SMap.get, hj, this]
      · have : k' ≠ k := fun x => e x.symm
        by_cases hj : j = k
        · subst hj; simp [SMap.insert, h, e, SMap.get, this, ih]
        · simp [SMap.insert, h, e, SMap.get, ih, hj]

@[simp] theorem SMap.get_erase {α : Type} (d : α) (k j : Nat) (m : SMap α) :
    SMap.get d j (SMap.erase k m) = if j = k then d else SMap.get d j m := by
  induction m with
  | nil => simp [SMap.erase]
  | cons p m ih =>
    obtain ⟨k', v'⟩ := p
    by_cases e : k' = k
    · subst e; by_cases hj : j = k'
      · subst hj; simpa [SMap.erase] using ih
      · have : ¬ k' = j := fun x => hj x.symm
        simp [SMap.erase, SMap.get, ih, hj, this]
    · by_cases hj : j = k
      · subst hj; simp [SMap.erase, e, SMap.get, ih]
      · simp [SMap.erase, e, SMap.get, ih, hj]

/-- A read after a write: the value written at its key, and what was there at every other. -/
@[simp] theorem SMap.get_set {α : Type} [DecidableEq α] (d : α) (k j : Nat) (v : α) (m : SMap α) :
    SMap.get d j (SMap.set d k v m) = if j = k then v else SMap.get d j m := by
  unfold SMap.set; split
  · next h => subst h; simp
  · simp

theorem SMap.get_set_same {α : Type} [DecidableEq α] (d : α) (k : Nat) (v : α) (m : SMap α) :
    SMap.get d k (SMap.set d k v m) = v := by simp

theorem SMap.get_set_ne {α : Type} [DecidableEq α] (d : α) {k j : Nat} (h : j ≠ k) (v : α) (m : SMap α) :
    SMap.get d j (SMap.set d k v m) = SMap.get d j m := by simp [h]

/-- Another key reads alike, under any default. -/
theorem SMap.get_set_other {α : Type} [DecidableEq α] (d d' : α) {k j : Nat} (h : j ≠ k) (v : α) (m : SMap α) :
    SMap.get d' j (SMap.set d k v m) = SMap.get d' j m := by
  unfold SMap.set; split <;> simp [h]

/-! ### The canonical form -/

theorem SMap.risingFrom_mono {α : Type} {lo hi : Nat} (h : lo ≤ hi) {m : SMap α} :
    SMap.risingFrom hi m = true → SMap.risingFrom lo m = true := by
  cases m with
  | nil => simp [SMap.risingFrom]
  | cons p m => simp only [SMap.risingFrom, Bool.and_eq_true, decide_eq_true_eq]; exact fun x => ⟨h.trans x.1, x.2⟩

theorem SMap.risingFrom_insert {α : Type} {lo k : Nat} {v : α} {m : SMap α} (hk : lo ≤ k) (h : SMap.risingFrom lo m = true) :
    SMap.risingFrom lo (SMap.insert k v m) = true := by
  induction m generalizing lo with
  | nil => simp [SMap.insert, SMap.risingFrom, hk]
  | cons p m ih =>
    obtain ⟨k', v'⟩ := p
    simp only [SMap.risingFrom, Bool.and_eq_true, decide_eq_true_eq] at h
    by_cases a : k < k'
    · simp only [SMap.insert, a, if_true, SMap.risingFrom, Bool.and_eq_true, decide_eq_true_eq]
      exact ⟨hk, by omega, h.2⟩
    · by_cases e : k = k'
      · subst e; simp [SMap.insert, SMap.risingFrom, hk, h.2]
      · simp only [SMap.insert, a, e, if_false, SMap.risingFrom, Bool.and_eq_true, decide_eq_true_eq]
        exact ⟨h.1, ih (by omega) h.2⟩

theorem SMap.risingFrom_erase {α : Type} {lo k : Nat} {m : SMap α} (h : SMap.risingFrom lo m = true) :
    SMap.risingFrom lo (SMap.erase k m) = true := by
  induction m generalizing lo with
  | nil => rfl
  | cons p m ih =>
    obtain ⟨k', v'⟩ := p
    simp only [SMap.risingFrom, Bool.and_eq_true, decide_eq_true_eq] at h
    by_cases e : k' = k
    · simp only [SMap.erase, e, if_true]; exact SMap.risingFrom_mono (by omega) (ih h.2)
    · simp only [SMap.erase, e, if_false, SMap.risingFrom, Bool.and_eq_true, decide_eq_true_eq]; exact ⟨h.1, ih h.2⟩

theorem SMap.risingFrom_filter {α : Type} {lo : Nat} {m : SMap α} (p : Nat × α → Bool) (h : SMap.risingFrom lo m = true) :
    SMap.risingFrom lo (m.filter p) = true := by
  induction m generalizing lo with
  | nil => rfl
  | cons q m ih =>
    obtain ⟨k', v'⟩ := q
    simp only [SMap.risingFrom, Bool.and_eq_true, decide_eq_true_eq] at h
    by_cases e : p (k', v') = true
    · simp only [List.filter_cons, e, if_true, SMap.risingFrom, Bool.and_eq_true, decide_eq_true_eq]; exact ⟨h.1, ih h.2⟩
    · simp only [List.filter_cons, e]; exact SMap.risingFrom_mono (by omega) (ih h.2)

theorem SMap.mem_insert {α : Type} {k : Nat} {v : α} {m : SMap α} {q : Nat × α} (h : q ∈ SMap.insert k v m) :
    q = (k, v) ∨ q ∈ m := by
  induction m with
  | nil => simpa [SMap.insert] using h
  | cons p m ih =>
    obtain ⟨k', v'⟩ := p
    by_cases a : k < k'
    · simpa [SMap.insert, a] using h
    · by_cases e : k = k'
      · subst e; simp only [SMap.insert, Nat.lt_irrefl, if_false, if_true, List.mem_cons] at h ⊢; rcases h with h | h
        · exact .inl h
        · exact .inr (.inr h)
      · simp only [SMap.insert, a, e, if_false, List.mem_cons] at h ⊢
        rcases h with h | h
        · exact .inr (.inl h)
        · exact (ih h).imp id .inr

theorem SMap.mem_erase {α : Type} {k : Nat} {m : SMap α} {q : Nat × α} (h : q ∈ SMap.erase k m) : q ∈ m := by
  induction m with
  | nil => exact h
  | cons p m ih =>
    obtain ⟨k', v'⟩ := p
    by_cases e : k' = k
    · simp only [SMap.erase, e, if_true] at h; exact List.mem_cons_of_mem _ (ih h)
    · simp only [SMap.erase, e, if_false, List.mem_cons] at h
      rcases h with h | h
      · exact h ▸ List.mem_cons_self
      · exact List.mem_cons_of_mem _ (ih h)

theorem SMap.wf_iff {α : Type} [DecidableEq α] (d : α) (m : SMap α) :
    SMap.wf d m = true ↔ SMap.risingFrom 0 m = true ∧ ∀ q ∈ m, q.2 ≠ d := by simp [SMap.wf]

/-- A write keeps the canonical form. -/
theorem SMap.wf_set {α : Type} [DecidableEq α] {d : α} {m : SMap α} (k : Nat) (v : α) (h : SMap.wf d m = true) :
    SMap.wf d (SMap.set d k v m) = true := by
  rw [SMap.wf_iff] at h ⊢
  unfold SMap.set; split
  · exact ⟨SMap.risingFrom_erase h.1, fun q hq => h.2 q (SMap.mem_erase hq)⟩
  · next e => exact ⟨SMap.risingFrom_insert (Nat.zero_le _) h.1, fun q hq => (SMap.mem_insert hq).elim (fun x => x ▸ e) (h.2 q)⟩

/-- Leaving entries out keeps the canonical form. -/
theorem SMap.wf_filter {α : Type} [DecidableEq α] {d : α} {m : SMap α} (p : Nat × α → Bool) (h : SMap.wf d m = true) :
    SMap.wf d (m.filter p) = true := by
  rw [SMap.wf_iff] at h ⊢
  exact ⟨SMap.risingFrom_filter p h.1, fun q hq => h.2 q (List.mem_of_mem_filter hq)⟩

/-- Two maps in canonical form that read alike at every key are one map. -/
theorem SMap.ext_get {α : Type} [DecidableEq α] {d : α} : ∀ {m n : SMap α}, SMap.wf d m = true → SMap.wf d n = true →
    (∀ k, SMap.get d k m = SMap.get d k n) → m = n := by
  have low : ∀ {m : SMap α} {lo k : Nat}, SMap.risingFrom lo m = true → k < lo → SMap.get d k m = d := by
    intro m
    induction m with
    | nil => intros; rfl
    | cons p m ih =>
      intro lo k h hk
      simp only [SMap.risingFrom, Bool.and_eq_true, decide_eq_true_eq] at h
      rw [SMap.get_cons, if_neg (by omega)]; exact ih h.2 (by omega)
  have go : ∀ {m n : SMap α} {lo : Nat}, SMap.risingFrom lo m = true → SMap.risingFrom lo n = true → (∀ q ∈ m, q.2 ≠ d) →
      (∀ q ∈ n, q.2 ≠ d) → (∀ k, SMap.get d k m = SMap.get d k n) → m = n := by
    intro m
    induction m with
    | nil =>
      intro n lo _ _ _ hn h
      cases n with
      | nil => rfl
      | cons p n => exact absurd (by simpa [SMap.get_cons] using (h p.1).symm) (hn p List.mem_cons_self)
    | cons p m ih =>
      intro n lo hm hn vm vn h
      cases n with
      | nil => exact absurd (by simpa [SMap.get_cons] using h p.1) (vm p List.mem_cons_self)
      | cons q n =>
        simp only [SMap.risingFrom, Bool.and_eq_true, decide_eq_true_eq] at hm hn
        rcases Nat.lt_trichotomy p.1 q.1 with c | c | c
        · have := h p.1
          rw [SMap.get_cons, if_pos rfl, SMap.get_cons, if_neg (by omega), low hn.2 (by omega)] at this
          exact absurd this (vm p List.mem_cons_self)
        · have e := h p.1
          rw [SMap.get_cons, if_pos rfl, SMap.get_cons, if_pos c.symm] at e
          have pq : p = q := Prod.ext c e
          subst pq
          congr 1
          refine ih hm.2 hn.2 (fun x hx => vm x (List.mem_cons_of_mem _ hx)) (fun x hx => vn x (List.mem_cons_of_mem _ hx)) fun k => ?_
          by_cases hk : k ≤ p.1
          · rw [low hm.2 (by omega), low hn.2 (by omega)]
          · have := h k
            rwa [SMap.get_cons, if_neg (by omega), SMap.get_cons, if_neg (by omega)] at this
        · have := h q.1
          rw [SMap.get_cons, if_neg (by omega), SMap.get_cons, if_pos rfl, low hm.2 (by omega)] at this
          exact absurd this.symm (vn q List.mem_cons_self)
  intro m n hm hn h
  rw [SMap.wf_iff] at hm hn
  exact go hm.1 hn.1 hm.2 hn.2 h

/-! ### Memory -/

@[simp] theorem Memory.read_write (m : Memory) (a b : Nat) (v : Byte) :
    (m.write a v).read b = if b = a then v else m.read b := SMap.get_set _ _ _ _ _

theorem Memory.write_wf {m : Memory} (a : Nat) (v : Byte) (h : m.wf = true) : (m.write a v).wf = true := SMap.wf_set a v h

theorem Memory.writeBytes_wf {m : Memory} (bs : List Byte) (a : Nat) (h : m.wf = true) : (m.writeBytes a bs).wf = true := by
  induction bs generalizing m a with
  | nil => exact h
  | cons b bs ih => exact ih (a + 1) (Memory.write_wf a b h)

theorem Memory.setWord_wf {m : Memory} (a : Nat) (w : Word) (h : m.wf = true) : (m.setWord a w).wf = true :=
  Memory.writeBytes_wf _ _ h

theorem Memory.dropRange_wf {m : Memory} (a n : Nat) (h : m.wf = true) : (m.dropRange a n).wf = true := SMap.wf_filter _ h

/-- Bytes written from an address on: those read back there, all else as before. -/
theorem Memory.read_writeBytes (m : Memory) (bs : List Byte) (a b : Nat) :
    (m.writeBytes a bs).read b = if a ≤ b ∧ b < a + bs.length then bs.getD (b - a) 0 else m.read b := by
  induction bs generalizing m a with
  | nil => simp [Memory.writeBytes]
  | cons c bs ih =>
    rw [Memory.writeBytes, ih, List.length_cons]
    by_cases h : b = a
    · subst h; simp
    · by_cases k : a + 1 ≤ b ∧ b < a + 1 + bs.length
      · have e : b - a = (b - (a + 1)) + 1 := by omega
        rw [if_pos k, if_pos (by omega), e, List.getD_cons_succ]
      · rw [if_neg k, if_neg (by omega)]; simp [h]

/-- A word write changes no byte outside the word. -/
theorem Memory.read_setWord_outside (m : Memory) (a b : Nat) (w : Word) (h : b < a ∨ a + 4 ≤ b) :
    (m.setWord a w).read b = m.read b := by
  rw [Memory.setWord, Memory.read_writeBytes, if_neg]; simp [leBytes]; omega

end Sys2Proof.Machine
end

