-- ==== Sys2Proof/Laws/State.lean ====
section
/-! SUPPORT. One lemma for each field of each record update of the state: true by unfolding, so that no proof unfolds an update. -/

namespace Sys2Proof.Machine

/-! ### `State.setCore` -/

@[simp] theorem State.setCore_turn (s : State) (c : Nat) (x : Core) : (s.setCore c x).turn = s.turn := rfl
@[simp] theorem State.setCore_issuer (s : State) (c : Nat) (x : Core) : (s.setCore c x).issuer = s.issuer := rfl
@[simp] theorem State.setCore_steps (s : State) (c : Nat) (x : Core) : (s.setCore c x).steps = s.steps := rfl
@[simp] theorem State.setCore_tick (s : State) (c : Nat) (x : Core) : (s.setCore c x).tick = s.tick := rfl
@[simp] theorem State.setCore_issuedAt (s : State) (c : Nat) (x : Core) : (s.setCore c x).issuedAt = s.issuedAt := rfl
@[simp] theorem State.setCore_ctAt (s : State) (c : Nat) (x : Core) : (s.setCore c x).ctAt = s.ctAt := rfl
@[simp] theorem State.setCore_formedAt (s : State) (c : Nat) (x : Core) : (s.setCore c x).formedAt = s.formedAt := rfl
@[simp] theorem State.setCore_booted (s : State) (c : Nat) (x : Core) : (s.setCore c x).booted = s.booted := rfl
@[simp] theorem State.setCore_stopped (s : State) (c : Nat) (x : Core) : (s.setCore c x).stopped = s.stopped := rfl
@[simp] theorem State.setCore_armed (s : State) (c : Nat) (x : Core) : (s.setCore c x).armed = s.armed := rfl
@[simp] theorem State.setCore_dump (s : State) (c : Nat) (x : Core) : (s.setCore c x).dump = s.dump := rfl
@[simp] theorem State.setCore_fatal (s : State) (c : Nat) (x : Core) : (s.setCore c x).fatal = s.fatal := rfl
@[simp] theorem State.setCore_probe (s : State) (c : Nat) (x : Core) : (s.setCore c x).probe = s.probe := rfl
@[simp] theorem State.setCore_pkg (s : State) (c : Nat) (x : Core) : (s.setCore c x).pkg = s.pkg := rfl
@[simp] theorem State.setCore_mem (s : State) (c : Nat) (x : Core) : (s.setCore c x).mem = s.mem := rfl
@[simp] theorem State.setCore_past (s : State) (c : Nat) (x : Core) : (s.setCore c x).past = s.past := rfl
@[simp] theorem State.setCore_dramBad (s : State) (c : Nat) (x : Core) : (s.setCore c x).dramBad = s.dramBad := rfl
@[simp] theorem State.setCore_dramFlip (s : State) (c : Nat) (x : Core) : (s.setCore c x).dramFlip = s.dramFlip := rfl
@[simp] theorem State.setCore_llc (s : State) (c : Nat) (x : Core) : (s.setCore c x).llc = s.llc := rfl
@[simp] theorem State.setCore_quads (s : State) (c : Nat) (x : Core) : (s.setCore c x).quads = s.quads := rfl
@[simp] theorem State.setCore_dies (s : State) (c : Nat) (x : Core) : (s.setCore c x).dies = s.dies := rfl
@[simp] theorem State.setCore_hbm (s : State) (c : Nat) (x : Core) : (s.setCore c x).hbm = s.hbm := rfl
@[simp] theorem State.setCore_seqs (s : State) (c : Nat) (x : Core) : (s.setCore c x).seqs = s.seqs := rfl
@[simp] theorem State.setCore_ctxs (s : State) (c : Nat) (x : Core) : (s.setCore c x).ctxs = s.ctxs := rfl
@[simp] theorem State.setCore_bags (s : State) (c : Nat) (x : Core) : (s.setCore c x).bags = s.bags := rfl
@[simp] theorem State.setCore_net (s : State) (c : Nat) (x : Core) : (s.setCore c x).net = s.net := rfl
@[simp] theorem State.setCore_waits (s : State) (c : Nat) (x : Core) : (s.setCore c x).waits = s.waits := rfl
@[simp] theorem State.setCore_nextId (s : State) (c : Nat) (x : Core) : (s.setCore c x).nextId = s.nextId := rfl
@[simp] theorem State.setCore_colls (s : State) (c : Nat) (x : Core) : (s.setCore c x).colls = s.colls := rfl
@[simp] theorem State.setCore_fellos (s : State) (c : Nat) (x : Core) : (s.setCore c x).fellos = s.fellos := rfl
@[simp] theorem State.setCore_quarant (s : State) (c : Nat) (x : Core) : (s.setCore c x).quarant = s.quarant := rfl
@[simp] theorem State.setCore_corrected (s : State) (c : Nat) (x : Core) : (s.setCore c x).corrected = s.corrected := rfl
@[simp] theorem State.setCore_retired (s : State) (c : Nat) (x : Core) : (s.setCore c x).retired = s.retired := rfl
@[simp] theorem State.setCore_counters (s : State) (c : Nat) (x : Core) : (s.setCore c x).counters = s.counters := rfl
@[simp] theorem State.setCore_flash (s : State) (c : Nat) (x : Core) : (s.setCore c x).flash = s.flash := rfl
@[simp] theorem State.setCore_flashed (s : State) (c : Nat) (x : Core) : (s.setCore c x).flashed = s.flashed := rfl
@[simp] theorem State.setCore_errlog (s : State) (c : Nat) (x : Core) : (s.setCore c x).errlog = s.errlog := rfl
@[simp] theorem State.setCore_inject (s : State) (c : Nat) (x : Core) : (s.setCore c x).inject = s.inject := rfl
@[simp] theorem State.setCore_vfs (s : State) (c : Nat) (x : Core) : (s.setCore c x).vfs = s.vfs := rfl
@[simp] theorem State.setCore_out (s : State) (c : Nat) (x : Core) : (s.setCore c x).out = s.out := rfl
@[simp] theorem State.setCore_links (s : State) (c : Nat) (x : Core) : (s.setCore c x).links = s.links := rfl
@[simp] theorem State.setCore_xdies (s : State) (c : Nat) (x : Core) : (s.setCore c x).xdies = s.xdies := rfl
@[simp] theorem State.setCore_powerCap (s : State) (c : Nat) (x : Core) : (s.setCore c x).powerCap = s.powerCap := rfl
@[simp] theorem State.setCore_throttle (s : State) (c : Nat) (x : Core) : (s.setCore c x).throttle = s.throttle := rfl
@[simp] theorem State.setCore_sampled (s : State) (c : Nat) (x : Core) : (s.setCore c x).sampled = s.sampled := rfl
@[simp] theorem State.setCore_at_quad (s : State) (c : Nat) (x : Core) (j : Nat) : (s.setCore c x).quad j = s.quad j := rfl
@[simp] theorem State.setCore_at_die (s : State) (c : Nat) (x : Core) (j : Nat) : (s.setCore c x).die j = s.die j := rfl
@[simp] theorem State.setCore_at_stack (s : State) (c : Nat) (x : Core) (j : Nat) : (s.setCore c x).stack j = s.stack j := rfl
@[simp] theorem State.setCore_at_seq (s : State) (c : Nat) (x : Core) (j : Nat) : (s.setCore c x).seq j = s.seq j := rfl
@[simp] theorem State.setCore_at_ctx (s : State) (c : Nat) (x : Core) (j : Nat) : (s.setCore c x).ctx j = s.ctx j := rfl

/-! ### `State.modCore` -/

@[simp] theorem State.modCore_turn (s : State) (c : Nat) (f : Core → Core) : (s.modCore c f).turn = s.turn := rfl
@[simp] theorem State.modCore_issuer (s : State) (c : Nat) (f : Core → Core) : (s.modCore c f).issuer = s.issuer := rfl
@[simp] theorem State.modCore_steps (s : State) (c : Nat) (f : Core → Core) : (s.modCore c f).steps = s.steps := rfl
@[simp] theorem State.modCore_tick (s : State) (c : Nat) (f : Core → Core) : (s.modCore c f).tick = s.tick := rfl
@[simp] theorem State.modCore_issuedAt (s : State) (c : Nat) (f : Core → Core) : (s.modCore c f).issuedAt = s.issuedAt := rfl
@[simp] theorem State.modCore_ctAt (s : State) (c : Nat) (f : Core → Core) : (s.modCore c f).ctAt = s.ctAt := rfl
@[simp] theorem State.modCore_formedAt (s : State) (c : Nat) (f : Core → Core) : (s.modCore c f).formedAt = s.formedAt := rfl
@[simp] theorem State.modCore_booted (s : State) (c : Nat) (f : Core → Core) : (s.modCore c f).booted = s.booted := rfl
@[simp] theorem State.modCore_stopped (s : State) (c : Nat) (f : Core → Core) : (s.modCore c f).stopped = s.stopped := rfl
@[simp] theorem State.modCore_armed (s : State) (c : Nat) (f : Core → Core) : (s.modCore c f).armed = s.armed := rfl
@[simp] theorem State.modCore_dump (s : State) (c : Nat) (f : Core → Core) : (s.modCore c f).dump = s.dump := rfl
@[simp] theorem State.modCore_fatal (s : State) (c : Nat) (f : Core → Core) : (s.modCore c f).fatal = s.fatal := rfl
@[simp] theorem State.modCore_probe (s : State) (c : Nat) (f : Core → Core) : (s.modCore c f).probe = s.probe := rfl
@[simp] theorem State.modCore_pkg (s : State) (c : Nat) (f : Core → Core) : (s.modCore c f).pkg = s.pkg := rfl
@[simp] theorem State.modCore_mem (s : State) (c : Nat) (f : Core → Core) : (s.modCore c f).mem = s.mem := rfl
@[simp] theorem State.modCore_past (s : State) (c : Nat) (f : Core → Core) : (s.modCore c f).past = s.past := rfl
@[simp] theorem State.modCore_dramBad (s : State) (c : Nat) (f : Core → Core) : (s.modCore c f).dramBad = s.dramBad := rfl
@[simp] theorem State.modCore_dramFlip (s : State) (c : Nat) (f : Core → Core) : (s.modCore c f).dramFlip = s.dramFlip := rfl
@[simp] theorem State.modCore_llc (s : State) (c : Nat) (f : Core → Core) : (s.modCore c f).llc = s.llc := rfl
@[simp] theorem State.modCore_quads (s : State) (c : Nat) (f : Core → Core) : (s.modCore c f).quads = s.quads := rfl
@[simp] theorem State.modCore_dies (s : State) (c : Nat) (f : Core → Core) : (s.modCore c f).dies = s.dies := rfl
@[simp] theorem State.modCore_hbm (s : State) (c : Nat) (f : Core → Core) : (s.modCore c f).hbm = s.hbm := rfl
@[simp] theorem State.modCore_seqs (s : State) (c : Nat) (f : Core → Core) : (s.modCore c f).seqs = s.seqs := rfl
@[simp] theorem State.modCore_ctxs (s : State) (c : Nat) (f : Core → Core) : (s.modCore c f).ctxs = s.ctxs := rfl
@[simp] theorem State.modCore_bags (s : State) (c : Nat) (f : Core → Core) : (s.modCore c f).bags = s.bags := rfl
@[simp] theorem State.modCore_net (s : State) (c : Nat) (f : Core → Core) : (s.modCore c f).net = s.net := rfl
@[simp] theorem State.modCore_waits (s : State) (c : Nat) (f : Core → Core) : (s.modCore c f).waits = s.waits := rfl
@[simp] theorem State.modCore_nextId (s : State) (c : Nat) (f : Core → Core) : (s.modCore c f).nextId = s.nextId := rfl
@[simp] theorem State.modCore_colls (s : State) (c : Nat) (f : Core → Core) : (s.modCore c f).colls = s.colls := rfl
@[simp] theorem State.modCore_fellos (s : State) (c : Nat) (f : Core → Core) : (s.modCore c f).fellos = s.fellos := rfl
@[simp] theorem State.modCore_quarant (s : State) (c : Nat) (f : Core → Core) : (s.modCore c f).quarant = s.quarant := rfl
@[simp] theorem State.modCore_corrected (s : State) (c : Nat) (f : Core → Core) : (s.modCore c f).corrected = s.corrected := rfl
@[simp] theorem State.modCore_retired (s : State) (c : Nat) (f : Core → Core) : (s.modCore c f).retired = s.retired := rfl
@[simp] theorem State.modCore_counters (s : State) (c : Nat) (f : Core → Core) : (s.modCore c f).counters = s.counters := rfl
@[simp] theorem State.modCore_flash (s : State) (c : Nat) (f : Core → Core) : (s.modCore c f).flash = s.flash := rfl
@[simp] theorem State.modCore_flashed (s : State) (c : Nat) (f : Core → Core) : (s.modCore c f).flashed = s.flashed := rfl
@[simp] theorem State.modCore_errlog (s : State) (c : Nat) (f : Core → Core) : (s.modCore c f).errlog = s.errlog := rfl
@[simp] theorem State.modCore_inject (s : State) (c : Nat) (f : Core → Core) : (s.modCore c f).inject = s.inject := rfl
@[simp] theorem State.modCore_vfs (s : State) (c : Nat) (f : Core → Core) : (s.modCore c f).vfs = s.vfs := rfl
@[simp] theorem State.modCore_out (s : State) (c : Nat) (f : Core → Core) : (s.modCore c f).out = s.out := rfl
@[simp] theorem State.modCore_links (s : State) (c : Nat) (f : Core → Core) : (s.modCore c f).links = s.links := rfl
@[simp] theorem State.modCore_xdies (s : State) (c : Nat) (f : Core → Core) : (s.modCore c f).xdies = s.xdies := rfl
@[simp] theorem State.modCore_powerCap (s : State) (c : Nat) (f : Core → Core) : (s.modCore c f).powerCap = s.powerCap := rfl
@[simp] theorem State.modCore_throttle (s : State) (c : Nat) (f : Core → Core) : (s.modCore c f).throttle = s.throttle := rfl
@[simp] theorem State.modCore_sampled (s : State) (c : Nat) (f : Core → Core) : (s.modCore c f).sampled = s.sampled := rfl
@[simp] theorem State.modCore_at_quad (s : State) (c : Nat) (f : Core → Core) (j : Nat) : (s.modCore c f).quad j = s.quad j := rfl
@[simp] theorem State.modCore_at_die (s : State) (c : Nat) (f : Core → Core) (j : Nat) : (s.modCore c f).die j = s.die j := rfl
@[simp] theorem State.modCore_at_stack (s : State) (c : Nat) (f : Core → Core) (j : Nat) : (s.modCore c f).stack j = s.stack j := rfl
@[simp] theorem State.modCore_at_seq (s : State) (c : Nat) (f : Core → Core) (j : Nat) : (s.modCore c f).seq j = s.seq j := rfl
@[simp] theorem State.modCore_at_ctx (s : State) (c : Nat) (f : Core → Core) (j : Nat) : (s.modCore c f).ctx j = s.ctx j := rfl

/-! ### `State.modQuad` -/

@[simp] theorem State.modQuad_turn (s : State) (k : Nat) (f : Quad → Quad) : (s.modQuad k f).turn = s.turn := rfl
@[simp] theorem State.modQuad_issuer (s : State) (k : Nat) (f : Quad → Quad) : (s.modQuad k f).issuer = s.issuer := rfl
@[simp] theorem State.modQuad_steps (s : State) (k : Nat) (f : Quad → Quad) : (s.modQuad k f).steps = s.steps := rfl
@[simp] theorem State.modQuad_tick (s : State) (k : Nat) (f : Quad → Quad) : (s.modQuad k f).tick = s.tick := rfl
@[simp] theorem State.modQuad_issuedAt (s : State) (k : Nat) (f : Quad → Quad) : (s.modQuad k f).issuedAt = s.issuedAt := rfl
@[simp] theorem State.modQuad_ctAt (s : State) (k : Nat) (f : Quad → Quad) : (s.modQuad k f).ctAt = s.ctAt := rfl
@[simp] theorem State.modQuad_formedAt (s : State) (k : Nat) (f : Quad → Quad) : (s.modQuad k f).formedAt = s.formedAt := rfl
@[simp] theorem State.modQuad_booted (s : State) (k : Nat) (f : Quad → Quad) : (s.modQuad k f).booted = s.booted := rfl
@[simp] theorem State.modQuad_stopped (s : State) (k : Nat) (f : Quad → Quad) : (s.modQuad k f).stopped = s.stopped := rfl
@[simp] theorem State.modQuad_armed (s : State) (k : Nat) (f : Quad → Quad) : (s.modQuad k f).armed = s.armed := rfl
@[simp] theorem State.modQuad_dump (s : State) (k : Nat) (f : Quad → Quad) : (s.modQuad k f).dump = s.dump := rfl
@[simp] theorem State.modQuad_fatal (s : State) (k : Nat) (f : Quad → Quad) : (s.modQuad k f).fatal = s.fatal := rfl
@[simp] theorem State.modQuad_probe (s : State) (k : Nat) (f : Quad → Quad) : (s.modQuad k f).probe = s.probe := rfl
@[simp] theorem State.modQuad_pkg (s : State) (k : Nat) (f : Quad → Quad) : (s.modQuad k f).pkg = s.pkg := rfl
@[simp] theorem State.modQuad_mem (s : State) (k : Nat) (f : Quad → Quad) : (s.modQuad k f).mem = s.mem := rfl
@[simp] theorem State.modQuad_past (s : State) (k : Nat) (f : Quad → Quad) : (s.modQuad k f).past = s.past := rfl
@[simp] theorem State.modQuad_dramBad (s : State) (k : Nat) (f : Quad → Quad) : (s.modQuad k f).dramBad = s.dramBad := rfl
@[simp] theorem State.modQuad_dramFlip (s : State) (k : Nat) (f : Quad → Quad) : (s.modQuad k f).dramFlip = s.dramFlip := rfl
@[simp] theorem State.modQuad_llc (s : State) (k : Nat) (f : Quad → Quad) : (s.modQuad k f).llc = s.llc := rfl
@[simp] theorem State.modQuad_cores (s : State) (k : Nat) (f : Quad → Quad) : (s.modQuad k f).cores = s.cores := rfl
@[simp] theorem State.modQuad_dies (s : State) (k : Nat) (f : Quad → Quad) : (s.modQuad k f).dies = s.dies := rfl
@[simp] theorem State.modQuad_hbm (s : State) (k : Nat) (f : Quad → Quad) : (s.modQuad k f).hbm = s.hbm := rfl
@[simp] theorem State.modQuad_seqs (s : State) (k : Nat) (f : Quad → Quad) : (s.modQuad k f).seqs = s.seqs := rfl
@[simp] theorem State.modQuad_ctxs (s : State) (k : Nat) (f : Quad → Quad) : (s.modQuad k f).ctxs = s.ctxs := rfl
@[simp] theorem State.modQuad_bags (s : State) (k : Nat) (f : Quad → Quad) : (s.modQuad k f).bags = s.bags := rfl
@[simp] theorem State.modQuad_net (s : State) (k : Nat) (f : Quad → Quad) : (s.modQuad k f).net = s.net := rfl
@[simp] theorem State.modQuad_waits (s : State) (k : Nat) (f : Quad → Quad) : (s.modQuad k f).waits = s.waits := rfl
@[simp] theorem State.modQuad_nextId (s : State) (k : Nat) (f : Quad → Quad) : (s.modQuad k f).nextId = s.nextId := rfl
@[simp] theorem State.modQuad_colls (s : State) (k : Nat) (f : Quad → Quad) : (s.modQuad k f).colls = s.colls := rfl
@[simp] theorem State.modQuad_fellos (s : State) (k : Nat) (f : Quad → Quad) : (s.modQuad k f).fellos = s.fellos := rfl
@[simp] theorem State.modQuad_quarant (s : State) (k : Nat) (f : Quad → Quad) : (s.modQuad k f).quarant = s.quarant := rfl
@[simp] theorem State.modQuad_corrected (s : State) (k : Nat) (f : Quad → Quad) : (s.modQuad k f).corrected = s.corrected := rfl
@[simp] theorem State.modQuad_retired (s : State) (k : Nat) (f : Quad → Quad) : (s.modQuad k f).retired = s.retired := rfl
@[simp] theorem State.modQuad_counters (s : State) (k : Nat) (f : Quad → Quad) : (s.modQuad k f).counters = s.counters := rfl
@[simp] theorem State.modQuad_flash (s : State) (k : Nat) (f : Quad → Quad) : (s.modQuad k f).flash = s.flash := rfl
@[simp] theorem State.modQuad_flashed (s : State) (k : Nat) (f : Quad → Quad) : (s.modQuad k f).flashed = s.flashed := rfl
@[simp] theorem State.modQuad_errlog (s : State) (k : Nat) (f : Quad → Quad) : (s.modQuad k f).errlog = s.errlog := rfl
@[simp] theorem State.modQuad_inject (s : State) (k : Nat) (f : Quad → Quad) : (s.modQuad k f).inject = s.inject := rfl
@[simp] theorem State.modQuad_vfs (s : State) (k : Nat) (f : Quad → Quad) : (s.modQuad k f).vfs = s.vfs := rfl
@[simp] theorem State.modQuad_out (s : State) (k : Nat) (f : Quad → Quad) : (s.modQuad k f).out = s.out := rfl
@[simp] theorem State.modQuad_links (s : State) (k : Nat) (f : Quad → Quad) : (s.modQuad k f).links = s.links := rfl
@[simp] theorem State.modQuad_xdies (s : State) (k : Nat) (f : Quad → Quad) : (s.modQuad k f).xdies = s.xdies := rfl
@[simp] theorem State.modQuad_powerCap (s : State) (k : Nat) (f : Quad → Quad) : (s.modQuad k f).powerCap = s.powerCap := rfl
@[simp] theorem State.modQuad_throttle (s : State) (k : Nat) (f : Quad → Quad) : (s.modQuad k f).throttle = s.throttle := rfl
@[simp] theorem State.modQuad_sampled (s : State) (k : Nat) (f : Quad → Quad) : (s.modQuad k f).sampled = s.sampled := rfl
@[simp] theorem State.modQuad_at_core (s : State) (k : Nat) (f : Quad → Quad) (j : Nat) : (s.modQuad k f).core j = s.core j := rfl
@[simp] theorem State.modQuad_at_die (s : State) (k : Nat) (f : Quad → Quad) (j : Nat) : (s.modQuad k f).die j = s.die j := rfl
@[simp] theorem State.modQuad_at_stack (s : State) (k : Nat) (f : Quad → Quad) (j : Nat) : (s.modQuad k f).stack j = s.stack j := rfl
@[simp] theorem State.modQuad_at_seq (s : State) (k : Nat) (f : Quad → Quad) (j : Nat) : (s.modQuad k f).seq j = s.seq j := rfl
@[simp] theorem State.modQuad_at_ctx (s : State) (k : Nat) (f : Quad → Quad) (j : Nat) : (s.modQuad k f).ctx j = s.ctx j := rfl

/-! ### `State.modDie` -/

@[simp] theorem State.modDie_turn (s : State) (k : Nat) (f : Die → Die) : (s.modDie k f).turn = s.turn := rfl
@[simp] theorem State.modDie_issuer (s : State) (k : Nat) (f : Die → Die) : (s.modDie k f).issuer = s.issuer := rfl
@[simp] theorem State.modDie_steps (s : State) (k : Nat) (f : Die → Die) : (s.modDie k f).steps = s.steps := rfl
@[simp] theorem State.modDie_tick (s : State) (k : Nat) (f : Die → Die) : (s.modDie k f).tick = s.tick := rfl
@[simp] theorem State.modDie_issuedAt (s : State) (k : Nat) (f : Die → Die) : (s.modDie k f).issuedAt = s.issuedAt := rfl
@[simp] theorem State.modDie_ctAt (s : State) (k : Nat) (f : Die → Die) : (s.modDie k f).ctAt = s.ctAt := rfl
@[simp] theorem State.modDie_formedAt (s : State) (k : Nat) (f : Die → Die) : (s.modDie k f).formedAt = s.formedAt := rfl
@[simp] theorem State.modDie_booted (s : State) (k : Nat) (f : Die → Die) : (s.modDie k f).booted = s.booted := rfl
@[simp] theorem State.modDie_stopped (s : State) (k : Nat) (f : Die → Die) : (s.modDie k f).stopped = s.stopped := rfl
@[simp] theorem State.modDie_armed (s : State) (k : Nat) (f : Die → Die) : (s.modDie k f).armed = s.armed := rfl
@[simp] theorem State.modDie_dump (s : State) (k : Nat) (f : Die → Die) : (s.modDie k f).dump = s.dump := rfl
@[simp] theorem State.modDie_fatal (s : State) (k : Nat) (f : Die → Die) : (s.modDie k f).fatal = s.fatal := rfl
@[simp] theorem State.modDie_probe (s : State) (k : Nat) (f : Die → Die) : (s.modDie k f).probe = s.probe := rfl
@[simp] theorem State.modDie_pkg (s : State) (k : Nat) (f : Die → Die) : (s.modDie k f).pkg = s.pkg := rfl
@[simp] theorem State.modDie_mem (s : State) (k : Nat) (f : Die → Die) : (s.modDie k f).mem = s.mem := rfl
@[simp] theorem State.modDie_past (s : State) (k : Nat) (f : Die → Die) : (s.modDie k f).past = s.past := rfl
@[simp] theorem State.modDie_dramBad (s : State) (k : Nat) (f : Die → Die) : (s.modDie k f).dramBad = s.dramBad := rfl
@[simp] theorem State.modDie_dramFlip (s : State) (k : Nat) (f : Die → Die) : (s.modDie k f).dramFlip = s.dramFlip := rfl
@[simp] theorem State.modDie_llc (s : State) (k : Nat) (f : Die → Die) : (s.modDie k f).llc = s.llc := rfl
@[simp] theorem State.modDie_cores (s : State) (k : Nat) (f : Die → Die) : (s.modDie k f).cores = s.cores := rfl
@[simp] theorem State.modDie_quads (s : State) (k : Nat) (f : Die → Die) : (s.modDie k f).quads = s.quads := rfl
@[simp] theorem State.modDie_hbm (s : State) (k : Nat) (f : Die → Die) : (s.modDie k f).hbm = s.hbm := rfl
@[simp] theorem State.modDie_seqs (s : State) (k : Nat) (f : Die → Die) : (s.modDie k f).seqs = s.seqs := rfl
@[simp] theorem State.modDie_ctxs (s : State) (k : Nat) (f : Die → Die) : (s.modDie k f).ctxs = s.ctxs := rfl
@[simp] theorem State.modDie_bags (s : State) (k : Nat) (f : Die → Die) : (s.modDie k f).bags = s.bags := rfl
@[simp] theorem State.modDie_net (s : State) (k : Nat) (f : Die → Die) : (s.modDie k f).net = s.net := rfl
@[simp] theorem State.modDie_waits (s : State) (k : Nat) (f : Die → Die) : (s.modDie k f).waits = s.waits := rfl
@[simp] theorem State.modDie_nextId (s : State) (k : Nat) (f : Die → Die) : (s.modDie k f).nextId = s.nextId := rfl
@[simp] theorem State.modDie_colls (s : State) (k : Nat) (f : Die → Die) : (s.modDie k f).colls = s.colls := rfl
@[simp] theorem State.modDie_fellos (s : State) (k : Nat) (f : Die → Die) : (s.modDie k f).fellos = s.fellos := rfl
@[simp] theorem State.modDie_quarant (s : State) (k : Nat) (f : Die → Die) : (s.modDie k f).quarant = s.quarant := rfl
@[simp] theorem State.modDie_corrected (s : State) (k : Nat) (f : Die → Die) : (s.modDie k f).corrected = s.corrected := rfl
@[simp] theorem State.modDie_retired (s : State) (k : Nat) (f : Die → Die) : (s.modDie k f).retired = s.retired := rfl
@[simp] theorem State.modDie_counters (s : State) (k : Nat) (f : Die → Die) : (s.modDie k f).counters = s.counters := rfl
@[simp] theorem State.modDie_flash (s : State) (k : Nat) (f : Die → Die) : (s.modDie k f).flash = s.flash := rfl
@[simp] theorem State.modDie_flashed (s : State) (k : Nat) (f : Die → Die) : (s.modDie k f).flashed = s.flashed := rfl
@[simp] theorem State.modDie_errlog (s : State) (k : Nat) (f : Die → Die) : (s.modDie k f).errlog = s.errlog := rfl
@[simp] theorem State.modDie_inject (s : State) (k : Nat) (f : Die → Die) : (s.modDie k f).inject = s.inject := rfl
@[simp] theorem State.modDie_vfs (s : State) (k : Nat) (f : Die → Die) : (s.modDie k f).vfs = s.vfs := rfl
@[simp] theorem State.modDie_out (s : State) (k : Nat) (f : Die → Die) : (s.modDie k f).out = s.out := rfl
@[simp] theorem State.modDie_links (s : State) (k : Nat) (f : Die → Die) : (s.modDie k f).links = s.links := rfl
@[simp] theorem State.modDie_xdies (s : State) (k : Nat) (f : Die → Die) : (s.modDie k f).xdies = s.xdies := rfl
@[simp] theorem State.modDie_powerCap (s : State) (k : Nat) (f : Die → Die) : (s.modDie k f).powerCap = s.powerCap := rfl
@[simp] theorem State.modDie_throttle (s : State) (k : Nat) (f : Die → Die) : (s.modDie k f).throttle = s.throttle := rfl
@[simp] theorem State.modDie_sampled (s : State) (k : Nat) (f : Die → Die) : (s.modDie k f).sampled = s.sampled := rfl
@[simp] theorem State.modDie_at_core (s : State) (k : Nat) (f : Die → Die) (j : Nat) : (s.modDie k f).core j = s.core j := rfl
@[simp] theorem State.modDie_at_quad (s : State) (k : Nat) (f : Die → Die) (j : Nat) : (s.modDie k f).quad j = s.quad j := rfl
@[simp] theorem State.modDie_at_stack (s : State) (k : Nat) (f : Die → Die) (j : Nat) : (s.modDie k f).stack j = s.stack j := rfl
@[simp] theorem State.modDie_at_seq (s : State) (k : Nat) (f : Die → Die) (j : Nat) : (s.modDie k f).seq j = s.seq j := rfl
@[simp] theorem State.modDie_at_ctx (s : State) (k : Nat) (f : Die → Die) (j : Nat) : (s.modDie k f).ctx j = s.ctx j := rfl

/-! ### `State.modStack` -/

@[simp] theorem State.modStack_turn (s : State) (k : Nat) (f : Stack → Stack) : (s.modStack k f).turn = s.turn := rfl
@[simp] theorem State.modStack_issuer (s : State) (k : Nat) (f : Stack → Stack) : (s.modStack k f).issuer = s.issuer := rfl
@[simp] theorem State.modStack_steps (s : State) (k : Nat) (f : Stack → Stack) : (s.modStack k f).steps = s.steps := rfl
@[simp] theorem State.modStack_tick (s : State) (k : Nat) (f : Stack → Stack) : (s.modStack k f).tick = s.tick := rfl
@[simp] theorem State.modStack_issuedAt (s : State) (k : Nat) (f : Stack → Stack) : (s.modStack k f).issuedAt = s.issuedAt := rfl
@[simp] theorem State.modStack_ctAt (s : State) (k : Nat) (f : Stack → Stack) : (s.modStack k f).ctAt = s.ctAt := rfl
@[simp] theorem State.modStack_formedAt (s : State) (k : Nat) (f : Stack → Stack) : (s.modStack k f).formedAt = s.formedAt := rfl
@[simp] theorem State.modStack_booted (s : State) (k : Nat) (f : Stack → Stack) : (s.modStack k f).booted = s.booted := rfl
@[simp] theorem State.modStack_stopped (s : State) (k : Nat) (f : Stack → Stack) : (s.modStack k f).stopped = s.stopped := rfl
@[simp] theorem State.modStack_armed (s : State) (k : Nat) (f : Stack → Stack) : (s.modStack k f).armed = s.armed := rfl
@[simp] theorem State.modStack_dump (s : State) (k : Nat) (f : Stack → Stack) : (s.modStack k f).dump = s.dump := rfl
@[simp] theorem State.modStack_fatal (s : State) (k : Nat) (f : Stack → Stack) : (s.modStack k f).fatal = s.fatal := rfl
@[simp] theorem State.modStack_probe (s : State) (k : Nat) (f : Stack → Stack) : (s.modStack k f).probe = s.probe := rfl
@[simp] theorem State.modStack_pkg (s : State) (k : Nat) (f : Stack → Stack) : (s.modStack k f).pkg = s.pkg := rfl
@[simp] theorem State.modStack_mem (s : State) (k : Nat) (f : Stack → Stack) : (s.modStack k f).mem = s.mem := rfl
@[simp] theorem State.modStack_past (s : State) (k : Nat) (f : Stack → Stack) : (s.modStack k f).past = s.past := rfl
@[simp] theorem State.modStack_dramBad (s : State) (k : Nat) (f : Stack → Stack) : (s.modStack k f).dramBad = s.dramBad := rfl
@[simp] theorem State.modStack_dramFlip (s : State) (k : Nat) (f : Stack → Stack) : (s.modStack k f).dramFlip = s.dramFlip := rfl
@[simp] theorem State.modStack_llc (s : State) (k : Nat) (f : Stack → Stack) : (s.modStack k f).llc = s.llc := rfl
@[simp] theorem State.modStack_cores (s : State) (k : Nat) (f : Stack → Stack) : (s.modStack k f).cores = s.cores := rfl
@[simp] theorem State.modStack_quads (s : State) (k : Nat) (f : Stack → Stack) : (s.modStack k f).quads = s.quads := rfl
@[simp] theorem State.modStack_dies (s : State) (k : Nat) (f : Stack → Stack) : (s.modStack k f).dies = s.dies := rfl
@[simp] theorem State.modStack_seqs (s : State) (k : Nat) (f : Stack → Stack) : (s.modStack k f).seqs = s.seqs := rfl
@[simp] theorem State.modStack_ctxs (s : State) (k : Nat) (f : Stack → Stack) : (s.modStack k f).ctxs = s.ctxs := rfl
@[simp] theorem State.modStack_bags (s : State) (k : Nat) (f : Stack → Stack) : (s.modStack k f).bags = s.bags := rfl
@[simp] theorem State.modStack_net (s : State) (k : Nat) (f : Stack → Stack) : (s.modStack k f).net = s.net := rfl
@[simp] theorem State.modStack_waits (s : State) (k : Nat) (f : Stack → Stack) : (s.modStack k f).waits = s.waits := rfl
@[simp] theorem State.modStack_nextId (s : State) (k : Nat) (f : Stack → Stack) : (s.modStack k f).nextId = s.nextId := rfl
@[simp] theorem State.modStack_colls (s : State) (k : Nat) (f : Stack → Stack) : (s.modStack k f).colls = s.colls := rfl
@[simp] theorem State.modStack_fellos (s : State) (k : Nat) (f : Stack → Stack) : (s.modStack k f).fellos = s.fellos := rfl
@[simp] theorem State.modStack_quarant (s : State) (k : Nat) (f : Stack → Stack) : (s.modStack k f).quarant = s.quarant := rfl
@[simp] theorem State.modStack_corrected (s : State) (k : Nat) (f : Stack → Stack) : (s.modStack k f).corrected = s.corrected := rfl
@[simp] theorem State.modStack_retired (s : State) (k : Nat) (f : Stack → Stack) : (s.modStack k f).retired = s.retired := rfl
@[simp] theorem State.modStack_counters (s : State) (k : Nat) (f : Stack → Stack) : (s.modStack k f).counters = s.counters := rfl
@[simp] theorem State.modStack_flash (s : State) (k : Nat) (f : Stack → Stack) : (s.modStack k f).flash = s.flash := rfl
@[simp] theorem State.modStack_flashed (s : State) (k : Nat) (f : Stack → Stack) : (s.modStack k f).flashed = s.flashed := rfl
@[simp] theorem State.modStack_errlog (s : State) (k : Nat) (f : Stack → Stack) : (s.modStack k f).errlog = s.errlog := rfl
@[simp] theorem State.modStack_inject (s : State) (k : Nat) (f : Stack → Stack) : (s.modStack k f).inject = s.inject := rfl
@[simp] theorem State.modStack_vfs (s : State) (k : Nat) (f : Stack → Stack) : (s.modStack k f).vfs = s.vfs := rfl
@[simp] theorem State.modStack_out (s : State) (k : Nat) (f : Stack → Stack) : (s.modStack k f).out = s.out := rfl
@[simp] theorem State.modStack_links (s : State) (k : Nat) (f : Stack → Stack) : (s.modStack k f).links = s.links := rfl
@[simp] theorem State.modStack_xdies (s : State) (k : Nat) (f : Stack → Stack) : (s.modStack k f).xdies = s.xdies := rfl
@[simp] theorem State.modStack_powerCap (s : State) (k : Nat) (f : Stack → Stack) : (s.modStack k f).powerCap = s.powerCap := rfl
@[simp] theorem State.modStack_throttle (s : State) (k : Nat) (f : Stack → Stack) : (s.modStack k f).throttle = s.throttle := rfl
@[simp] theorem State.modStack_sampled (s : State) (k : Nat) (f : Stack → Stack) : (s.modStack k f).sampled = s.sampled := rfl
@[simp] theorem State.modStack_at_core (s : State) (k : Nat) (f : Stack → Stack) (j : Nat) : (s.modStack k f).core j = s.core j := rfl
@[simp] theorem State.modStack_at_quad (s : State) (k : Nat) (f : Stack → Stack) (j : Nat) : (s.modStack k f).quad j = s.quad j := rfl
@[simp] theorem State.modStack_at_die (s : State) (k : Nat) (f : Stack → Stack) (j : Nat) : (s.modStack k f).die j = s.die j := rfl
@[simp] theorem State.modStack_at_seq (s : State) (k : Nat) (f : Stack → Stack) (j : Nat) : (s.modStack k f).seq j = s.seq j := rfl
@[simp] theorem State.modStack_at_ctx (s : State) (k : Nat) (f : Stack → Stack) (j : Nat) : (s.modStack k f).ctx j = s.ctx j := rfl

/-! ### `State.modSeq` -/

@[simp] theorem State.modSeq_turn (s : State) (k : Nat) (f : Sequencer → Sequencer) : (s.modSeq k f).turn = s.turn := rfl
@[simp] theorem State.modSeq_issuer (s : State) (k : Nat) (f : Sequencer → Sequencer) : (s.modSeq k f).issuer = s.issuer := rfl
@[simp] theorem State.modSeq_steps (s : State) (k : Nat) (f : Sequencer → Sequencer) : (s.modSeq k f).steps = s.steps := rfl
@[simp] theorem State.modSeq_tick (s : State) (k : Nat) (f : Sequencer → Sequencer) : (s.modSeq k f).tick = s.tick := rfl
@[simp] theorem State.modSeq_issuedAt (s : State) (k : Nat) (f : Sequencer → Sequencer) : (s.modSeq k f).issuedAt = s.issuedAt := rfl
@[simp] theorem State.modSeq_ctAt (s : State) (k : Nat) (f : Sequencer → Sequencer) : (s.modSeq k f).ctAt = s.ctAt := rfl
@[simp] theorem State.modSeq_formedAt (s : State) (k : Nat) (f : Sequencer → Sequencer) : (s.modSeq k f).formedAt = s.formedAt := rfl
@[simp] theorem State.modSeq_booted (s : State) (k : Nat) (f : Sequencer → Sequencer) : (s.modSeq k f).booted = s.booted := rfl
@[simp] theorem State.modSeq_stopped (s : State) (k : Nat) (f : Sequencer → Sequencer) : (s.modSeq k f).stopped = s.stopped := rfl
@[simp] theorem State.modSeq_armed (s : State) (k : Nat) (f : Sequencer → Sequencer) : (s.modSeq k f).armed = s.armed := rfl
@[simp] theorem State.modSeq_dump (s : State) (k : Nat) (f : Sequencer → Sequencer) : (s.modSeq k f).dump = s.dump := rfl
@[simp] theorem State.modSeq_fatal (s : State) (k : Nat) (f : Sequencer → Sequencer) : (s.modSeq k f).fatal = s.fatal := rfl
@[simp] theorem State.modSeq_probe (s : State) (k : Nat) (f : Sequencer → Sequencer) : (s.modSeq k f).probe = s.probe := rfl
@[simp] theorem State.modSeq_pkg (s : State) (k : Nat) (f : Sequencer → Sequencer) : (s.modSeq k f).pkg = s.pkg := rfl
@[simp] theorem State.modSeq_mem (s : State) (k : Nat) (f : Sequencer → Sequencer) : (s.modSeq k f).mem = s.mem := rfl
@[simp] theorem State.modSeq_past (s : State) (k : Nat) (f : Sequencer → Sequencer) : (s.modSeq k f).past = s.past := rfl
@[simp] theorem State.modSeq_dramBad (s : State) (k : Nat) (f : Sequencer → Sequencer) : (s.modSeq k f).dramBad = s.dramBad := rfl
@[simp] theorem State.modSeq_dramFlip (s : State) (k : Nat) (f : Sequencer → Sequencer) : (s.modSeq k f).dramFlip = s.dramFlip := rfl
@[simp] theorem State.modSeq_llc (s : State) (k : Nat) (f : Sequencer → Sequencer) : (s.modSeq k f).llc = s.llc := rfl
@[simp] theorem State.modSeq_cores (s : State) (k : Nat) (f : Sequencer → Sequencer) : (s.modSeq k f).cores = s.cores := rfl
@[simp] theorem State.modSeq_quads (s : State) (k : Nat) (f : Sequencer → Sequencer) : (s.modSeq k f).quads = s.quads := rfl
@[simp] theorem State.modSeq_dies (s : State) (k : Nat) (f : Sequencer → Sequencer) : (s.modSeq k f).dies = s.dies := rfl
@[simp] theorem State.modSeq_hbm (s : State) (k : Nat) (f : Sequencer → Sequencer) : (s.modSeq k f).hbm = s.hbm := rfl
@[simp] theorem State.modSeq_ctxs (s : State) (k : Nat) (f : Sequencer → Sequencer) : (s.modSeq k f).ctxs = s.ctxs := rfl
@[simp] theorem State.modSeq_bags (s : State) (k : Nat) (f : Sequencer → Sequencer) : (s.modSeq k f).bags = s.bags := rfl
@[simp] theorem State.modSeq_net (s : State) (k : Nat) (f : Sequencer → Sequencer) : (s.modSeq k f).net = s.net := rfl
@[simp] theorem State.modSeq_waits (s : State) (k : Nat) (f : Sequencer → Sequencer) : (s.modSeq k f).waits = s.waits := rfl
@[simp] theorem State.modSeq_nextId (s : State) (k : Nat) (f : Sequencer → Sequencer) : (s.modSeq k f).nextId = s.nextId := rfl
@[simp] theorem State.modSeq_colls (s : State) (k : Nat) (f : Sequencer → Sequencer) : (s.modSeq k f).colls = s.colls := rfl
@[simp] theorem State.modSeq_fellos (s : State) (k : Nat) (f : Sequencer → Sequencer) : (s.modSeq k f).fellos = s.fellos := rfl
@[simp] theorem State.modSeq_quarant (s : State) (k : Nat) (f : Sequencer → Sequencer) : (s.modSeq k f).quarant = s.quarant := rfl
@[simp] theorem State.modSeq_corrected (s : State) (k : Nat) (f : Sequencer → Sequencer) : (s.modSeq k f).corrected = s.corrected := rfl
@[simp] theorem State.modSeq_retired (s : State) (k : Nat) (f : Sequencer → Sequencer) : (s.modSeq k f).retired = s.retired := rfl
@[simp] theorem State.modSeq_counters (s : State) (k : Nat) (f : Sequencer → Sequencer) : (s.modSeq k f).counters = s.counters := rfl
@[simp] theorem State.modSeq_flash (s : State) (k : Nat) (f : Sequencer → Sequencer) : (s.modSeq k f).flash = s.flash := rfl
@[simp] theorem State.modSeq_flashed (s : State) (k : Nat) (f : Sequencer → Sequencer) : (s.modSeq k f).flashed = s.flashed := rfl
@[simp] theorem State.modSeq_errlog (s : State) (k : Nat) (f : Sequencer → Sequencer) : (s.modSeq k f).errlog = s.errlog := rfl
@[simp] theorem State.modSeq_inject (s : State) (k : Nat) (f : Sequencer → Sequencer) : (s.modSeq k f).inject = s.inject := rfl
@[simp] theorem State.modSeq_vfs (s : State) (k : Nat) (f : Sequencer → Sequencer) : (s.modSeq k f).vfs = s.vfs := rfl
@[simp] theorem State.modSeq_out (s : State) (k : Nat) (f : Sequencer → Sequencer) : (s.modSeq k f).out = s.out := rfl
@[simp] theorem State.modSeq_links (s : State) (k : Nat) (f : Sequencer → Sequencer) : (s.modSeq k f).links = s.links := rfl
@[simp] theorem State.modSeq_xdies (s : State) (k : Nat) (f : Sequencer → Sequencer) : (s.modSeq k f).xdies = s.xdies := rfl
@[simp] theorem State.modSeq_powerCap (s : State) (k : Nat) (f : Sequencer → Sequencer) : (s.modSeq k f).powerCap = s.powerCap := rfl
@[simp] theorem State.modSeq_throttle (s : State) (k : Nat) (f : Sequencer → Sequencer) : (s.modSeq k f).throttle = s.throttle := rfl
@[simp] theorem State.modSeq_sampled (s : State) (k : Nat) (f : Sequencer → Sequencer) : (s.modSeq k f).sampled = s.sampled := rfl
@[simp] theorem State.modSeq_at_core (s : State) (k : Nat) (f : Sequencer → Sequencer) (j : Nat) : (s.modSeq k f).core j = s.core j := rfl
@[simp] theorem State.modSeq_at_quad (s : State) (k : Nat) (f : Sequencer → Sequencer) (j : Nat) : (s.modSeq k f).quad j = s.quad j := rfl
@[simp] theorem State.modSeq_at_die (s : State) (k : Nat) (f : Sequencer → Sequencer) (j : Nat) : (s.modSeq k f).die j = s.die j := rfl
@[simp] theorem State.modSeq_at_stack (s : State) (k : Nat) (f : Sequencer → Sequencer) (j : Nat) : (s.modSeq k f).stack j = s.stack j := rfl
@[simp] theorem State.modSeq_at_ctx (s : State) (k : Nat) (f : Sequencer → Sequencer) (j : Nat) : (s.modSeq k f).ctx j = s.ctx j := rfl

/-! ### `State.modCtx` -/

@[simp] theorem State.modCtx_turn (s : State) (k : Nat) (f : Context → Context) : (s.modCtx k f).turn = s.turn := rfl
@[simp] theorem State.modCtx_issuer (s : State) (k : Nat) (f : Context → Context) : (s.modCtx k f).issuer = s.issuer := rfl
@[simp] theorem State.modCtx_steps (s : State) (k : Nat) (f : Context → Context) : (s.modCtx k f).steps = s.steps := rfl
@[simp] theorem State.modCtx_tick (s : State) (k : Nat) (f : Context → Context) : (s.modCtx k f).tick = s.tick := rfl
@[simp] theorem State.modCtx_issuedAt (s : State) (k : Nat) (f : Context → Context) : (s.modCtx k f).issuedAt = s.issuedAt := rfl
@[simp] theorem State.modCtx_ctAt (s : State) (k : Nat) (f : Context → Context) : (s.modCtx k f).ctAt = s.ctAt := rfl
@[simp] theorem State.modCtx_formedAt (s : State) (k : Nat) (f : Context → Context) : (s.modCtx k f).formedAt = s.formedAt := rfl
@[simp] theorem State.modCtx_booted (s : State) (k : Nat) (f : Context → Context) : (s.modCtx k f).booted = s.booted := rfl
@[simp] theorem State.modCtx_stopped (s : State) (k : Nat) (f : Context → Context) : (s.modCtx k f).stopped = s.stopped := rfl
@[simp] theorem State.modCtx_armed (s : State) (k : Nat) (f : Context → Context) : (s.modCtx k f).armed = s.armed := rfl
@[simp] theorem State.modCtx_dump (s : State) (k : Nat) (f : Context → Context) : (s.modCtx k f).dump = s.dump := rfl
@[simp] theorem State.modCtx_fatal (s : State) (k : Nat) (f : Context → Context) : (s.modCtx k f).fatal = s.fatal := rfl
@[simp] theorem State.modCtx_probe (s : State) (k : Nat) (f : Context → Context) : (s.modCtx k f).probe = s.probe := rfl
@[simp] theorem State.modCtx_pkg (s : State) (k : Nat) (f : Context → Context) : (s.modCtx k f).pkg = s.pkg := rfl
@[simp] theorem State.modCtx_mem (s : State) (k : Nat) (f : Context → Context) : (s.modCtx k f).mem = s.mem := rfl
@[simp] theorem State.modCtx_past (s : State) (k : Nat) (f : Context → Context) : (s.modCtx k f).past = s.past := rfl
@[simp] theorem State.modCtx_dramBad (s : State) (k : Nat) (f : Context → Context) : (s.modCtx k f).dramBad = s.dramBad := rfl
@[simp] theorem State.modCtx_dramFlip (s : State) (k : Nat) (f : Context → Context) : (s.modCtx k f).dramFlip = s.dramFlip := rfl
@[simp] theorem State.modCtx_llc (s : State) (k : Nat) (f : Context → Context) : (s.modCtx k f).llc = s.llc := rfl
@[simp] theorem State.modCtx_cores (s : State) (k : Nat) (f : Context → Context) : (s.modCtx k f).cores = s.cores := rfl
@[simp] theorem State.modCtx_quads (s : State) (k : Nat) (f : Context → Context) : (s.modCtx k f).quads = s.quads := rfl
@[simp] theorem State.modCtx_dies (s : State) (k : Nat) (f : Context → Context) : (s.modCtx k f).dies = s.dies := rfl
@[simp] theorem State.modCtx_hbm (s : State) (k : Nat) (f : Context → Context) : (s.modCtx k f).hbm = s.hbm := rfl
@[simp] theorem State.modCtx_seqs (s : State) (k : Nat) (f : Context → Context) : (s.modCtx k f).seqs = s.seqs := rfl
@[simp] theorem State.modCtx_bags (s : State) (k : Nat) (f : Context → Context) : (s.modCtx k f).bags = s.bags := rfl
@[simp] theorem State.modCtx_net (s : State) (k : Nat) (f : Context → Context) : (s.modCtx k f).net = s.net := rfl
@[simp] theorem State.modCtx_waits (s : State) (k : Nat) (f : Context → Context) : (s.modCtx k f).waits = s.waits := rfl
@[simp] theorem State.modCtx_nextId (s : State) (k : Nat) (f : Context → Context) : (s.modCtx k f).nextId = s.nextId := rfl
@[simp] theorem State.modCtx_colls (s : State) (k : Nat) (f : Context → Context) : (s.modCtx k f).colls = s.colls := rfl
@[simp] theorem State.modCtx_fellos (s : State) (k : Nat) (f : Context → Context) : (s.modCtx k f).fellos = s.fellos := rfl
@[simp] theorem State.modCtx_quarant (s : State) (k : Nat) (f : Context → Context) : (s.modCtx k f).quarant = s.quarant := rfl
@[simp] theorem State.modCtx_corrected (s : State) (k : Nat) (f : Context → Context) : (s.modCtx k f).corrected = s.corrected := rfl
@[simp] theorem State.modCtx_retired (s : State) (k : Nat) (f : Context → Context) : (s.modCtx k f).retired = s.retired := rfl
@[simp] theorem State.modCtx_counters (s : State) (k : Nat) (f : Context → Context) : (s.modCtx k f).counters = s.counters := rfl
@[simp] theorem State.modCtx_flash (s : State) (k : Nat) (f : Context → Context) : (s.modCtx k f).flash = s.flash := rfl
@[simp] theorem State.modCtx_flashed (s : State) (k : Nat) (f : Context → Context) : (s.modCtx k f).flashed = s.flashed := rfl
@[simp] theorem State.modCtx_errlog (s : State) (k : Nat) (f : Context → Context) : (s.modCtx k f).errlog = s.errlog := rfl
@[simp] theorem State.modCtx_inject (s : State) (k : Nat) (f : Context → Context) : (s.modCtx k f).inject = s.inject := rfl
@[simp] theorem State.modCtx_vfs (s : State) (k : Nat) (f : Context → Context) : (s.modCtx k f).vfs = s.vfs := rfl
@[simp] theorem State.modCtx_out (s : State) (k : Nat) (f : Context → Context) : (s.modCtx k f).out = s.out := rfl
@[simp] theorem State.modCtx_links (s : State) (k : Nat) (f : Context → Context) : (s.modCtx k f).links = s.links := rfl
@[simp] theorem State.modCtx_xdies (s : State) (k : Nat) (f : Context → Context) : (s.modCtx k f).xdies = s.xdies := rfl
@[simp] theorem State.modCtx_powerCap (s : State) (k : Nat) (f : Context → Context) : (s.modCtx k f).powerCap = s.powerCap := rfl
@[simp] theorem State.modCtx_throttle (s : State) (k : Nat) (f : Context → Context) : (s.modCtx k f).throttle = s.throttle := rfl
@[simp] theorem State.modCtx_sampled (s : State) (k : Nat) (f : Context → Context) : (s.modCtx k f).sampled = s.sampled := rfl
@[simp] theorem State.modCtx_at_core (s : State) (k : Nat) (f : Context → Context) (j : Nat) : (s.modCtx k f).core j = s.core j := rfl
@[simp] theorem State.modCtx_at_quad (s : State) (k : Nat) (f : Context → Context) (j : Nat) : (s.modCtx k f).quad j = s.quad j := rfl
@[simp] theorem State.modCtx_at_die (s : State) (k : Nat) (f : Context → Context) (j : Nat) : (s.modCtx k f).die j = s.die j := rfl
@[simp] theorem State.modCtx_at_stack (s : State) (k : Nat) (f : Context → Context) (j : Nat) : (s.modCtx k f).stack j = s.stack j := rfl
@[simp] theorem State.modCtx_at_seq (s : State) (k : Nat) (f : Context → Context) (j : Nat) : (s.modCtx k f).seq j = s.seq j := rfl

/-! ### `State.modWg` -/

@[simp] theorem State.modWg_turn (s : State) (c ws : Nat) (f : Workgroup → Workgroup) : (s.modWg c ws f).turn = s.turn := rfl
@[simp] theorem State.modWg_issuer (s : State) (c ws : Nat) (f : Workgroup → Workgroup) : (s.modWg c ws f).issuer = s.issuer := rfl
@[simp] theorem State.modWg_steps (s : State) (c ws : Nat) (f : Workgroup → Workgroup) : (s.modWg c ws f).steps = s.steps := rfl
@[simp] theorem State.modWg_tick (s : State) (c ws : Nat) (f : Workgroup → Workgroup) : (s.modWg c ws f).tick = s.tick := rfl
@[simp] theorem State.modWg_issuedAt (s : State) (c ws : Nat) (f : Workgroup → Workgroup) : (s.modWg c ws f).issuedAt = s.issuedAt := rfl
@[simp] theorem State.modWg_ctAt (s : State) (c ws : Nat) (f : Workgroup → Workgroup) : (s.modWg c ws f).ctAt = s.ctAt := rfl
@[simp] theorem State.modWg_formedAt (s : State) (c ws : Nat) (f : Workgroup → Workgroup) : (s.modWg c ws f).formedAt = s.formedAt := rfl
@[simp] theorem State.modWg_booted (s : State) (c ws : Nat) (f : Workgroup → Workgroup) : (s.modWg c ws f).booted = s.booted := rfl
@[simp] theorem State.modWg_stopped (s : State) (c ws : Nat) (f : Workgroup → Workgroup) : (s.modWg c ws f).stopped = s.stopped := rfl
@[simp] theorem State.modWg_armed (s : State) (c ws : Nat) (f : Workgroup → Workgroup) : (s.modWg c ws f).armed = s.armed := rfl
@[simp] theorem State.modWg_dump (s : State) (c ws : Nat) (f : Workgroup → Workgroup) : (s.modWg c ws f).dump = s.dump := rfl
@[simp] theorem State.modWg_fatal (s : State) (c ws : Nat) (f : Workgroup → Workgroup) : (s.modWg c ws f).fatal = s.fatal := rfl
@[simp] theorem State.modWg_probe (s : State) (c ws : Nat) (f : Workgroup → Workgroup) : (s.modWg c ws f).probe = s.probe := rfl
@[simp] theorem State.modWg_pkg (s : State) (c ws : Nat) (f : Workgroup → Workgroup) : (s.modWg c ws f).pkg = s.pkg := rfl
@[simp] theorem State.modWg_mem (s : State) (c ws : Nat) (f : Workgroup → Workgroup) : (s.modWg c ws f).mem = s.mem := rfl
@[simp] theorem State.modWg_past (s : State) (c ws : Nat) (f : Workgroup → Workgroup) : (s.modWg c ws f).past = s.past := rfl
@[simp] theorem State.modWg_dramBad (s : State) (c ws : Nat) (f : Workgroup → Workgroup) : (s.modWg c ws f).dramBad = s.dramBad := rfl
@[simp] theorem State.modWg_dramFlip (s : State) (c ws : Nat) (f : Workgroup → Workgroup) : (s.modWg c ws f).dramFlip = s.dramFlip := rfl
@[simp] theorem State.modWg_llc (s : State) (c ws : Nat) (f : Workgroup → Workgroup) : (s.modWg c ws f).llc = s.llc := rfl
@[simp] theorem State.modWg_quads (s : State) (c ws : Nat) (f : Workgroup → Workgroup) : (s.modWg c ws f).quads = s.quads := rfl
@[simp] theorem State.modWg_dies (s : State) (c ws : Nat) (f : Workgroup → Workgroup) : (s.modWg c ws f).dies = s.dies := rfl
@[simp] theorem State.modWg_hbm (s : State) (c ws : Nat) (f : Workgroup → Workgroup) : (s.modWg c ws f).hbm = s.hbm := rfl
@[simp] theorem State.modWg_seqs (s : State) (c ws : Nat) (f : Workgroup → Workgroup) : (s.modWg c ws f).seqs = s.seqs := rfl
@[simp] theorem State.modWg_ctxs (s : State) (c ws : Nat) (f : Workgroup → Workgroup) : (s.modWg c ws f).ctxs = s.ctxs := rfl
@[simp] theorem State.modWg_bags (s : State) (c ws : Nat) (f : Workgroup → Workgroup) : (s.modWg c ws f).bags = s.bags := rfl
@[simp] theorem State.modWg_net (s : State) (c ws : Nat) (f : Workgroup → Workgroup) : (s.modWg c ws f).net = s.net := rfl
@[simp] theorem State.modWg_waits (s : State) (c ws : Nat) (f : Workgroup → Workgroup) : (s.modWg c ws f).waits = s.waits := rfl
@[simp] theorem State.modWg_nextId (s : State) (c ws : Nat) (f : Workgroup → Workgroup) : (s.modWg c ws f).nextId = s.nextId := rfl
@[simp] theorem State.modWg_colls (s : State) (c ws : Nat) (f : Workgroup → Workgroup) : (s.modWg c ws f).colls = s.colls := rfl
@[simp] theorem State.modWg_fellos (s : State) (c ws : Nat) (f : Workgroup → Workgroup) : (s.modWg c ws f).fellos = s.fellos := rfl
@[simp] theorem State.modWg_quarant (s : State) (c ws : Nat) (f : Workgroup → Workgroup) : (s.modWg c ws f).quarant = s.quarant := rfl
@[simp] theorem State.modWg_corrected (s : State) (c ws : Nat) (f : Workgroup → Workgroup) : (s.modWg c ws f).corrected = s.corrected := rfl
@[simp] theorem State.modWg_retired (s : State) (c ws : Nat) (f : Workgroup → Workgroup) : (s.modWg c ws f).retired = s.retired := rfl
@[simp] theorem State.modWg_counters (s : State) (c ws : Nat) (f : Workgroup → Workgroup) : (s.modWg c ws f).counters = s.counters := rfl
@[simp] theorem State.modWg_flash (s : State) (c ws : Nat) (f : Workgroup → Workgroup) : (s.modWg c ws f).flash = s.flash := rfl
@[simp] theorem State.modWg_flashed (s : State) (c ws : Nat) (f : Workgroup → Workgroup) : (s.modWg c ws f).flashed = s.flashed := rfl
@[simp] theorem State.modWg_errlog (s : State) (c ws : Nat) (f : Workgroup → Workgroup) : (s.modWg c ws f).errlog = s.errlog := rfl
@[simp] theorem State.modWg_inject (s : State) (c ws : Nat) (f : Workgroup → Workgroup) : (s.modWg c ws f).inject = s.inject := rfl
@[simp] theorem State.modWg_vfs (s : State) (c ws : Nat) (f : Workgroup → Workgroup) : (s.modWg c ws f).vfs = s.vfs := rfl
@[simp] theorem State.modWg_out (s : State) (c ws : Nat) (f : Workgroup → Workgroup) : (s.modWg c ws f).out = s.out := rfl
@[simp] theorem State.modWg_links (s : State) (c ws : Nat) (f : Workgroup → Workgroup) : (s.modWg c ws f).links = s.links := rfl
@[simp] theorem State.modWg_xdies (s : State) (c ws : Nat) (f : Workgroup → Workgroup) : (s.modWg c ws f).xdies = s.xdies := rfl
@[simp] theorem State.modWg_powerCap (s : State) (c ws : Nat) (f : Workgroup → Workgroup) : (s.modWg c ws f).powerCap = s.powerCap := rfl
@[simp] theorem State.modWg_throttle (s : State) (c ws : Nat) (f : Workgroup → Workgroup) : (s.modWg c ws f).throttle = s.throttle := rfl
@[simp] theorem State.modWg_sampled (s : State) (c ws : Nat) (f : Workgroup → Workgroup) : (s.modWg c ws f).sampled = s.sampled := rfl
@[simp] theorem State.modWg_at_quad (s : State) (c ws : Nat) (f : Workgroup → Workgroup) (j : Nat) : (s.modWg c ws f).quad j = s.quad j := rfl
@[simp] theorem State.modWg_at_die (s : State) (c ws : Nat) (f : Workgroup → Workgroup) (j : Nat) : (s.modWg c ws f).die j = s.die j := rfl
@[simp] theorem State.modWg_at_stack (s : State) (c ws : Nat) (f : Workgroup → Workgroup) (j : Nat) : (s.modWg c ws f).stack j = s.stack j := rfl
@[simp] theorem State.modWg_at_seq (s : State) (c ws : Nat) (f : Workgroup → Workgroup) (j : Nat) : (s.modWg c ws f).seq j = s.seq j := rfl
@[simp] theorem State.modWg_at_ctx (s : State) (c ws : Nat) (f : Workgroup → Workgroup) (j : Nat) : (s.modWg c ws f).ctx j = s.ctx j := rfl

/-! ### `State.modThread` -/

@[simp] theorem State.modThread_turn (s : State) (c ws t : Nat) (f : Thread → Thread) : (s.modThread c ws t f).turn = s.turn := rfl
@[simp] theorem State.modThread_issuer (s : State) (c ws t : Nat) (f : Thread → Thread) : (s.modThread c ws t f).issuer = s.issuer := rfl
@[simp] theorem State.modThread_steps (s : State) (c ws t : Nat) (f : Thread → Thread) : (s.modThread c ws t f).steps = s.steps := rfl
@[simp] theorem State.modThread_tick (s : State) (c ws t : Nat) (f : Thread → Thread) : (s.modThread c ws t f).tick = s.tick := rfl
@[simp] theorem State.modThread_issuedAt (s : State) (c ws t : Nat) (f : Thread → Thread) : (s.modThread c ws t f).issuedAt = s.issuedAt := rfl
@[simp] theorem State.modThread_ctAt (s : State) (c ws t : Nat) (f : Thread → Thread) : (s.modThread c ws t f).ctAt = s.ctAt := rfl
@[simp] theorem State.modThread_formedAt (s : State) (c ws t : Nat) (f : Thread → Thread) : (s.modThread c ws t f).formedAt = s.formedAt := rfl
@[simp] theorem State.modThread_booted (s : State) (c ws t : Nat) (f : Thread → Thread) : (s.modThread c ws t f).booted = s.booted := rfl
@[simp] theorem State.modThread_stopped (s : State) (c ws t : Nat) (f : Thread → Thread) : (s.modThread c ws t f).stopped = s.stopped := rfl
@[simp] theorem State.modThread_armed (s : State) (c ws t : Nat) (f : Thread → Thread) : (s.modThread c ws t f).armed = s.armed := rfl
@[simp] theorem State.modThread_dump (s : State) (c ws t : Nat) (f : Thread → Thread) : (s.modThread c ws t f).dump = s.dump := rfl
@[simp] theorem State.modThread_fatal (s : State) (c ws t : Nat) (f : Thread → Thread) : (s.modThread c ws t f).fatal = s.fatal := rfl
@[simp] theorem State.modThread_probe (s : State) (c ws t : Nat) (f : Thread → Thread) : (s.modThread c ws t f).probe = s.probe := rfl
@[simp] theorem State.modThread_pkg (s : State) (c ws t : Nat) (f : Thread → Thread) : (s.modThread c ws t f).pkg = s.pkg := rfl
@[simp] theorem State.modThread_mem (s : State) (c ws t : Nat) (f : Thread → Thread) : (s.modThread c ws t f).mem = s.mem := rfl
@[simp] theorem State.modThread_past (s : State) (c ws t : Nat) (f : Thread → Thread) : (s.modThread c ws t f).past = s.past := rfl
@[simp] theorem State.modThread_dramBad (s : State) (c ws t : Nat) (f : Thread → Thread) : (s.modThread c ws t f).dramBad = s.dramBad := rfl
@[simp] theorem State.modThread_dramFlip (s : State) (c ws t : Nat) (f : Thread → Thread) : (s.modThread c ws t f).dramFlip = s.dramFlip := rfl
@[simp] theorem State.modThread_llc (s : State) (c ws t : Nat) (f : Thread → Thread) : (s.modThread c ws t f).llc = s.llc := rfl
@[simp] theorem State.modThread_quads (s : State) (c ws t : Nat) (f : Thread → Thread) : (s.modThread c ws t f).quads = s.quads := rfl
@[simp] theorem State.modThread_dies (s : State) (c ws t : Nat) (f : Thread → Thread) : (s.modThread c ws t f).dies = s.dies := rfl
@[simp] theorem State.modThread_hbm (s : State) (c ws t : Nat) (f : Thread → Thread) : (s.modThread c ws t f).hbm = s.hbm := rfl
@[simp] theorem State.modThread_seqs (s : State) (c ws t : Nat) (f : Thread → Thread) : (s.modThread c ws t f).seqs = s.seqs := rfl
@[simp] theorem State.modThread_ctxs (s : State) (c ws t : Nat) (f : Thread → Thread) : (s.modThread c ws t f).ctxs = s.ctxs := rfl
@[simp] theorem State.modThread_bags (s : State) (c ws t : Nat) (f : Thread → Thread) : (s.modThread c ws t f).bags = s.bags := rfl
@[simp] theorem State.modThread_net (s : State) (c ws t : Nat) (f : Thread → Thread) : (s.modThread c ws t f).net = s.net := rfl
@[simp] theorem State.modThread_waits (s : State) (c ws t : Nat) (f : Thread → Thread) : (s.modThread c ws t f).waits = s.waits := rfl
@[simp] theorem State.modThread_nextId (s : State) (c ws t : Nat) (f : Thread → Thread) : (s.modThread c ws t f).nextId = s.nextId := rfl
@[simp] theorem State.modThread_colls (s : State) (c ws t : Nat) (f : Thread → Thread) : (s.modThread c ws t f).colls = s.colls := rfl
@[simp] theorem State.modThread_fellos (s : State) (c ws t : Nat) (f : Thread → Thread) : (s.modThread c ws t f).fellos = s.fellos := rfl
@[simp] theorem State.modThread_quarant (s : State) (c ws t : Nat) (f : Thread → Thread) : (s.modThread c ws t f).quarant = s.quarant := rfl
@[simp] theorem State.modThread_corrected (s : State) (c ws t : Nat) (f : Thread → Thread) : (s.modThread c ws t f).corrected = s.corrected := rfl
@[simp] theorem State.modThread_retired (s : State) (c ws t : Nat) (f : Thread → Thread) : (s.modThread c ws t f).retired = s.retired := rfl
@[simp] theorem State.modThread_counters (s : State) (c ws t : Nat) (f : Thread → Thread) : (s.modThread c ws t f).counters = s.counters := rfl
@[simp] theorem State.modThread_flash (s : State) (c ws t : Nat) (f : Thread → Thread) : (s.modThread c ws t f).flash = s.flash := rfl
@[simp] theorem State.modThread_flashed (s : State) (c ws t : Nat) (f : Thread → Thread) : (s.modThread c ws t f).flashed = s.flashed := rfl
@[simp] theorem State.modThread_errlog (s : State) (c ws t : Nat) (f : Thread → Thread) : (s.modThread c ws t f).errlog = s.errlog := rfl
@[simp] theorem State.modThread_inject (s : State) (c ws t : Nat) (f : Thread → Thread) : (s.modThread c ws t f).inject = s.inject := rfl
@[simp] theorem State.modThread_vfs (s : State) (c ws t : Nat) (f : Thread → Thread) : (s.modThread c ws t f).vfs = s.vfs := rfl
@[simp] theorem State.modThread_out (s : State) (c ws t : Nat) (f : Thread → Thread) : (s.modThread c ws t f).out = s.out := rfl
@[simp] theorem State.modThread_links (s : State) (c ws t : Nat) (f : Thread → Thread) : (s.modThread c ws t f).links = s.links := rfl
@[simp] theorem State.modThread_xdies (s : State) (c ws t : Nat) (f : Thread → Thread) : (s.modThread c ws t f).xdies = s.xdies := rfl
@[simp] theorem State.modThread_powerCap (s : State) (c ws t : Nat) (f : Thread → Thread) : (s.modThread c ws t f).powerCap = s.powerCap := rfl
@[simp] theorem State.modThread_throttle (s : State) (c ws t : Nat) (f : Thread → Thread) : (s.modThread c ws t f).throttle = s.throttle := rfl
@[simp] theorem State.modThread_sampled (s : State) (c ws t : Nat) (f : Thread → Thread) : (s.modThread c ws t f).sampled = s.sampled := rfl
@[simp] theorem State.modThread_at_quad (s : State) (c ws t : Nat) (f : Thread → Thread) (j : Nat) : (s.modThread c ws t f).quad j = s.quad j := rfl
@[simp] theorem State.modThread_at_die (s : State) (c ws t : Nat) (f : Thread → Thread) (j : Nat) : (s.modThread c ws t f).die j = s.die j := rfl
@[simp] theorem State.modThread_at_stack (s : State) (c ws t : Nat) (f : Thread → Thread) (j : Nat) : (s.modThread c ws t f).stack j = s.stack j := rfl
@[simp] theorem State.modThread_at_seq (s : State) (c ws t : Nat) (f : Thread → Thread) (j : Nat) : (s.modThread c ws t f).seq j = s.seq j := rfl
@[simp] theorem State.modThread_at_ctx (s : State) (c ws t : Nat) (f : Thread → Thread) (j : Nat) : (s.modThread c ws t f).ctx j = s.ctx j := rfl

/-! ### `State.modCt` -/

@[simp] theorem State.modCt_turn (s : State) (c : Nat) (f : CtRegs → CtRegs) : (s.modCt c f).turn = s.turn := rfl
@[simp] theorem State.modCt_issuer (s : State) (c : Nat) (f : CtRegs → CtRegs) : (s.modCt c f).issuer = s.issuer := rfl
@[simp] theorem State.modCt_steps (s : State) (c : Nat) (f : CtRegs → CtRegs) : (s.modCt c f).steps = s.steps := rfl
@[simp] theorem State.modCt_tick (s : State) (c : Nat) (f : CtRegs → CtRegs) : (s.modCt c f).tick = s.tick := rfl
@[simp] theorem State.modCt_issuedAt (s : State) (c : Nat) (f : CtRegs → CtRegs) : (s.modCt c f).issuedAt = s.issuedAt := rfl
@[simp] theorem State.modCt_ctAt (s : State) (c : Nat) (f : CtRegs → CtRegs) : (s.modCt c f).ctAt = s.ctAt := rfl
@[simp] theorem State.modCt_formedAt (s : State) (c : Nat) (f : CtRegs → CtRegs) : (s.modCt c f).formedAt = s.formedAt := rfl
@[simp] theorem State.modCt_booted (s : State) (c : Nat) (f : CtRegs → CtRegs) : (s.modCt c f).booted = s.booted := rfl
@[simp] theorem State.modCt_stopped (s : State) (c : Nat) (f : CtRegs → CtRegs) : (s.modCt c f).stopped = s.stopped := rfl
@[simp] theorem State.modCt_armed (s : State) (c : Nat) (f : CtRegs → CtRegs) : (s.modCt c f).armed = s.armed := rfl
@[simp] theorem State.modCt_dump (s : State) (c : Nat) (f : CtRegs → CtRegs) : (s.modCt c f).dump = s.dump := rfl
@[simp] theorem State.modCt_fatal (s : State) (c : Nat) (f : CtRegs → CtRegs) : (s.modCt c f).fatal = s.fatal := rfl
@[simp] theorem State.modCt_probe (s : State) (c : Nat) (f : CtRegs → CtRegs) : (s.modCt c f).probe = s.probe := rfl
@[simp] theorem State.modCt_pkg (s : State) (c : Nat) (f : CtRegs → CtRegs) : (s.modCt c f).pkg = s.pkg := rfl
@[simp] theorem State.modCt_mem (s : State) (c : Nat) (f : CtRegs → CtRegs) : (s.modCt c f).mem = s.mem := rfl
@[simp] theorem State.modCt_past (s : State) (c : Nat) (f : CtRegs → CtRegs) : (s.modCt c f).past = s.past := rfl
@[simp] theorem State.modCt_dramBad (s : State) (c : Nat) (f : CtRegs → CtRegs) : (s.modCt c f).dramBad = s.dramBad := rfl
@[simp] theorem State.modCt_dramFlip (s : State) (c : Nat) (f : CtRegs → CtRegs) : (s.modCt c f).dramFlip = s.dramFlip := rfl
@[simp] theorem State.modCt_llc (s : State) (c : Nat) (f : CtRegs → CtRegs) : (s.modCt c f).llc = s.llc := rfl
@[simp] theorem State.modCt_quads (s : State) (c : Nat) (f : CtRegs → CtRegs) : (s.modCt c f).quads = s.quads := rfl
@[simp] theorem State.modCt_dies (s : State) (c : Nat) (f : CtRegs → CtRegs) : (s.modCt c f).dies = s.dies := rfl
@[simp] theorem State.modCt_hbm (s : State) (c : Nat) (f : CtRegs → CtRegs) : (s.modCt c f).hbm = s.hbm := rfl
@[simp] theorem State.modCt_seqs (s : State) (c : Nat) (f : CtRegs → CtRegs) : (s.modCt c f).seqs = s.seqs := rfl
@[simp] theorem State.modCt_ctxs (s : State) (c : Nat) (f : CtRegs → CtRegs) : (s.modCt c f).ctxs = s.ctxs := rfl
@[simp] theorem State.modCt_bags (s : State) (c : Nat) (f : CtRegs → CtRegs) : (s.modCt c f).bags = s.bags := rfl
@[simp] theorem State.modCt_net (s : State) (c : Nat) (f : CtRegs → CtRegs) : (s.modCt c f).net = s.net := rfl
@[simp] theorem State.modCt_waits (s : State) (c : Nat) (f : CtRegs → CtRegs) : (s.modCt c f).waits = s.waits := rfl
@[simp] theorem State.modCt_nextId (s : State) (c : Nat) (f : CtRegs → CtRegs) : (s.modCt c f).nextId = s.nextId := rfl
@[simp] theorem State.modCt_colls (s : State) (c : Nat) (f : CtRegs → CtRegs) : (s.modCt c f).colls = s.colls := rfl
@[simp] theorem State.modCt_fellos (s : State) (c : Nat) (f : CtRegs → CtRegs) : (s.modCt c f).fellos = s.fellos := rfl
@[simp] theorem State.modCt_quarant (s : State) (c : Nat) (f : CtRegs → CtRegs) : (s.modCt c f).quarant = s.quarant := rfl
@[simp] theorem State.modCt_corrected (s : State) (c : Nat) (f : CtRegs → CtRegs) : (s.modCt c f).corrected = s.corrected := rfl
@[simp] theorem State.modCt_retired (s : State) (c : Nat) (f : CtRegs → CtRegs) : (s.modCt c f).retired = s.retired := rfl
@[simp] theorem State.modCt_counters (s : State) (c : Nat) (f : CtRegs → CtRegs) : (s.modCt c f).counters = s.counters := rfl
@[simp] theorem State.modCt_flash (s : State) (c : Nat) (f : CtRegs → CtRegs) : (s.modCt c f).flash = s.flash := rfl
@[simp] theorem State.modCt_flashed (s : State) (c : Nat) (f : CtRegs → CtRegs) : (s.modCt c f).flashed = s.flashed := rfl
@[simp] theorem State.modCt_errlog (s : State) (c : Nat) (f : CtRegs → CtRegs) : (s.modCt c f).errlog = s.errlog := rfl
@[simp] theorem State.modCt_inject (s : State) (c : Nat) (f : CtRegs → CtRegs) : (s.modCt c f).inject = s.inject := rfl
@[simp] theorem State.modCt_vfs (s : State) (c : Nat) (f : CtRegs → CtRegs) : (s.modCt c f).vfs = s.vfs := rfl
@[simp] theorem State.modCt_out (s : State) (c : Nat) (f : CtRegs → CtRegs) : (s.modCt c f).out = s.out := rfl
@[simp] theorem State.modCt_links (s : State) (c : Nat) (f : CtRegs → CtRegs) : (s.modCt c f).links = s.links := rfl
@[simp] theorem State.modCt_xdies (s : State) (c : Nat) (f : CtRegs → CtRegs) : (s.modCt c f).xdies = s.xdies := rfl
@[simp] theorem State.modCt_powerCap (s : State) (c : Nat) (f : CtRegs → CtRegs) : (s.modCt c f).powerCap = s.powerCap := rfl
@[simp] theorem State.modCt_throttle (s : State) (c : Nat) (f : CtRegs → CtRegs) : (s.modCt c f).throttle = s.throttle := rfl
@[simp] theorem State.modCt_sampled (s : State) (c : Nat) (f : CtRegs → CtRegs) : (s.modCt c f).sampled = s.sampled := rfl
@[simp] theorem State.modCt_at_quad (s : State) (c : Nat) (f : CtRegs → CtRegs) (j : Nat) : (s.modCt c f).quad j = s.quad j := rfl
@[simp] theorem State.modCt_at_die (s : State) (c : Nat) (f : CtRegs → CtRegs) (j : Nat) : (s.modCt c f).die j = s.die j := rfl
@[simp] theorem State.modCt_at_stack (s : State) (c : Nat) (f : CtRegs → CtRegs) (j : Nat) : (s.modCt c f).stack j = s.stack j := rfl
@[simp] theorem State.modCt_at_seq (s : State) (c : Nat) (f : CtRegs → CtRegs) (j : Nat) : (s.modCt c f).seq j = s.seq j := rfl
@[simp] theorem State.modCt_at_ctx (s : State) (c : Nat) (f : CtRegs → CtRegs) (j : Nat) : (s.modCt c f).ctx j = s.ctx j := rfl

/-! ### An element after its update -/

@[simp] theorem State.modCore_core (s : State) (k j : Nat) (f : Core → Core) : (s.modCore k f).core j = if j = k then f (s.core k) else s.core j := by
  simp [State.modCore, State.core, State.setCore]

@[simp] theorem State.modQuad_quad (s : State) (k j : Nat) (f : Quad → Quad) : (s.modQuad k f).quad j = if j = k then f (s.quad k) else s.quad j := by
  simp [State.modQuad, State.quad]

@[simp] theorem State.modDie_die (s : State) (k j : Nat) (f : Die → Die) : (s.modDie k f).die j = if j = k then f (s.die k) else s.die j := by
  simp [State.modDie, State.die]

@[simp] theorem State.modStack_stack (s : State) (k j : Nat) (f : Stack → Stack) : (s.modStack k f).stack j = if j = k then f (s.stack k) else s.stack j := by
  simp [State.modStack, State.stack]

@[simp] theorem State.modSeq_seq (s : State) (k j : Nat) (f : Sequencer → Sequencer) : (s.modSeq k f).seq j = if j = k then f (s.seq k) else s.seq j := by
  simp [State.modSeq, State.seq]

@[simp] theorem State.modCtx_ctx (s : State) (k j : Nat) (f : Context → Context) : (s.modCtx k f).ctx j = if j = k then f (s.ctx k) else s.ctx j := by
  simp [State.modCtx, State.ctx]

@[simp] theorem State.setCore_core (s : State) (k j : Nat) (x : Core) : (s.setCore k x).core j = if j = k then x else s.core j := by
  simp [State.setCore, State.core]

/-! ### `Core.setWg` -/

@[simp] theorem Core.setWg_owner (y : Core) (k : Nat) (v : Option Workgroup) : (y.setWg k v).owner = y.owner := rfl
@[simp] theorem Core.setWg_lcore (y : Core) (k : Nat) (v : Option Workgroup) : (y.setWg k v).lcore = y.lcore := rfl
@[simp] theorem Core.setWg_since (y : Core) (k : Nat) (v : Option Workgroup) : (y.setWg k v).since = y.since := rfl
@[simp] theorem Core.setWg_swBegan (y : Core) (k : Nat) (v : Option Workgroup) : (y.setWg k v).swBegan = y.swBegan := rfl
@[simp] theorem Core.setWg_swtime (y : Core) (k : Nat) (v : Option Workgroup) : (y.setWg k v).swtime = y.swtime := rfl
@[simp] theorem Core.setWg_switch (y : Core) (k : Nat) (v : Option Workgroup) : (y.setWg k v).switch = y.switch := rfl
@[simp] theorem Core.setWg_warps (y : Core) (k : Nat) (v : Option Workgroup) : (y.setWg k v).warps = y.warps := rfl
@[simp] theorem Core.setWg_regs (y : Core) (k : Nat) (v : Option Workgroup) : (y.setWg k v).regs = y.regs := rfl
@[simp] theorem Core.setWg_scratch (y : Core) (k : Nat) (v : Option Workgroup) : (y.setWg k v).scratch = y.scratch := rfl
@[simp] theorem Core.setWg_tiles (y : Core) (k : Nat) (v : Option Workgroup) : (y.setWg k v).tiles = y.tiles := rfl
@[simp] theorem Core.setWg_tileOld (y : Core) (k : Nat) (v : Option Workgroup) : (y.setWg k v).tileOld = y.tileOld := rfl
@[simp] theorem Core.setWg_cbufs (y : Core) (k : Nat) (v : Option Workgroup) : (y.setWg k v).cbufs = y.cbufs := rfl
@[simp] theorem Core.setWg_cbars (y : Core) (k : Nat) (v : Option Workgroup) : (y.setWg k v).cbars = y.cbars := rfl
@[simp] theorem Core.setWg_bars (y : Core) (k : Nat) (v : Option Workgroup) : (y.setWg k v).bars = y.bars := rfl
@[simp] theorem Core.setWg_flags (y : Core) (k : Nat) (v : Option Workgroup) : (y.setWg k v).flags = y.flags := rfl
@[simp] theorem Core.setWg_flagAt (y : Core) (k : Nat) (v : Option Workgroup) : (y.setWg k v).flagAt = y.flagAt := rfl
@[simp] theorem Core.setWg_guards (y : Core) (k : Nat) (v : Option Workgroup) : (y.setWg k v).guards = y.guards := rfl
@[simp] theorem Core.setWg_guardWait (y : Core) (k : Nat) (v : Option Workgroup) : (y.setWg k v).guardWait = y.guardWait := rfl
@[simp] theorem Core.setWg_toLane (y : Core) (k : Nat) (v : Option Workgroup) : (y.setWg k v).toLane = y.toLane := rfl
@[simp] theorem Core.setWg_toCt (y : Core) (k : Nat) (v : Option Workgroup) : (y.setWg k v).toCt = y.toCt := rfl
@[simp] theorem Core.setWg_ct (y : Core) (k : Nat) (v : Option Workgroup) : (y.setWg k v).ct = y.ct := rfl
@[simp] theorem Core.setWg_queues (y : Core) (k : Nat) (v : Option Workgroup) : (y.setWg k v).queues = y.queues := rfl
@[simp] theorem Core.setWg_loads (y : Core) (k : Nat) (v : Option Workgroup) : (y.setWg k v).loads = y.loads := rfl
@[simp] theorem Core.setWg_copyQ (y : Core) (k : Nat) (v : Option Workgroup) : (y.setWg k v).copyQ = y.copyQ := rfl
@[simp] theorem Core.setWg_matQ (y : Core) (k : Nat) (v : Option Workgroup) : (y.setWg k v).matQ = y.matQ := rfl
@[simp] theorem Core.setWg_holdQ (y : Core) (k : Nat) (v : Option Workgroup) : (y.setWg k v).holdQ = y.holdQ := rfl
@[simp] theorem Core.setWg_l1 (y : Core) (k : Nat) (v : Option Workgroup) : (y.setWg k v).l1 = y.l1 := rfl
@[simp] theorem Core.setWg_tlb (y : Core) (k : Nat) (v : Option Workgroup) : (y.setWg k v).tlb = y.tlb := rfl
@[simp] theorem Core.setWg_code (y : Core) (k : Nat) (v : Option Workgroup) : (y.setWg k v).code = y.code := rfl
@[simp] theorem Core.setWg_sys (y : Core) (k : Nat) (v : Option Workgroup) : (y.setWg k v).sys = y.sys := rfl
@[simp] theorem Core.setWg_saved (y : Core) (k : Nat) (v : Option Workgroup) : (y.setWg k v).saved = y.saved := rfl
@[simp] theorem Core.setWg_sampled (y : Core) (k : Nat) (v : Option Workgroup) : (y.setWg k v).sampled = y.sampled := rfl
@[simp] theorem Core.setWg_at_warp (y : Core) (k : Nat) (v : Option Workgroup) (j : Nat) : (y.setWg k v).warp j = y.warp j := rfl
@[simp] theorem Core.setWg_at_queue (y : Core) (k : Nat) (v : Option Workgroup) (j : Nat) : (y.setWg k v).queue j = y.queue j := rfl
@[simp] theorem Core.setWg_at_reg (y : Core) (k : Nat) (v : Option Workgroup) (h1 k1 l1 : Nat) : (y.setWg k v).reg h1 k1 l1 = y.reg h1 k1 l1 := rfl

/-! ### `Core.setWarp` -/

@[simp] theorem Core.setWarp_owner (y : Core) (k : Nat) (v : Option Warp) : (y.setWarp k v).owner = y.owner := rfl
@[simp] theorem Core.setWarp_lcore (y : Core) (k : Nat) (v : Option Warp) : (y.setWarp k v).lcore = y.lcore := rfl
@[simp] theorem Core.setWarp_since (y : Core) (k : Nat) (v : Option Warp) : (y.setWarp k v).since = y.since := rfl
@[simp] theorem Core.setWarp_swBegan (y : Core) (k : Nat) (v : Option Warp) : (y.setWarp k v).swBegan = y.swBegan := rfl
@[simp] theorem Core.setWarp_swtime (y : Core) (k : Nat) (v : Option Warp) : (y.setWarp k v).swtime = y.swtime := rfl
@[simp] theorem Core.setWarp_switch (y : Core) (k : Nat) (v : Option Warp) : (y.setWarp k v).switch = y.switch := rfl
@[simp] theorem Core.setWarp_wgs (y : Core) (k : Nat) (v : Option Warp) : (y.setWarp k v).wgs = y.wgs := rfl
@[simp] theorem Core.setWarp_regs (y : Core) (k : Nat) (v : Option Warp) : (y.setWarp k v).regs = y.regs := rfl
@[simp] theorem Core.setWarp_scratch (y : Core) (k : Nat) (v : Option Warp) : (y.setWarp k v).scratch = y.scratch := rfl
@[simp] theorem Core.setWarp_tiles (y : Core) (k : Nat) (v : Option Warp) : (y.setWarp k v).tiles = y.tiles := rfl
@[simp] theorem Core.setWarp_tileOld (y : Core) (k : Nat) (v : Option Warp) : (y.setWarp k v).tileOld = y.tileOld := rfl
@[simp] theorem Core.setWarp_cbufs (y : Core) (k : Nat) (v : Option Warp) : (y.setWarp k v).cbufs = y.cbufs := rfl
@[simp] theorem Core.setWarp_cbars (y : Core) (k : Nat) (v : Option Warp) : (y.setWarp k v).cbars = y.cbars := rfl
@[simp] theorem Core.setWarp_bars (y : Core) (k : Nat) (v : Option Warp) : (y.setWarp k v).bars = y.bars := rfl
@[simp] theorem Core.setWarp_flags (y : Core) (k : Nat) (v : Option Warp) : (y.setWarp k v).flags = y.flags := rfl
@[simp] theorem Core.setWarp_flagAt (y : Core) (k : Nat) (v : Option Warp) : (y.setWarp k v).flagAt = y.flagAt := rfl
@[simp] theorem Core.setWarp_guards (y : Core) (k : Nat) (v : Option Warp) : (y.setWarp k v).guards = y.guards := rfl
@[simp] theorem Core.setWarp_guardWait (y : Core) (k : Nat) (v : Option Warp) : (y.setWarp k v).guardWait = y.guardWait := rfl
@[simp] theorem Core.setWarp_toLane (y : Core) (k : Nat) (v : Option Warp) : (y.setWarp k v).toLane = y.toLane := rfl
@[simp] theorem Core.setWarp_toCt (y : Core) (k : Nat) (v : Option Warp) : (y.setWarp k v).toCt = y.toCt := rfl
@[simp] theorem Core.setWarp_ct (y : Core) (k : Nat) (v : Option Warp) : (y.setWarp k v).ct = y.ct := rfl
@[simp] theorem Core.setWarp_queues (y : Core) (k : Nat) (v : Option Warp) : (y.setWarp k v).queues = y.queues := rfl
@[simp] theorem Core.setWarp_loads (y : Core) (k : Nat) (v : Option Warp) : (y.setWarp k v).loads = y.loads := rfl
@[simp] theorem Core.setWarp_copyQ (y : Core) (k : Nat) (v : Option Warp) : (y.setWarp k v).copyQ = y.copyQ := rfl
@[simp] theorem Core.setWarp_matQ (y : Core) (k : Nat) (v : Option Warp) : (y.setWarp k v).matQ = y.matQ := rfl
@[simp] theorem Core.setWarp_holdQ (y : Core) (k : Nat) (v : Option Warp) : (y.setWarp k v).holdQ = y.holdQ := rfl
@[simp] theorem Core.setWarp_l1 (y : Core) (k : Nat) (v : Option Warp) : (y.setWarp k v).l1 = y.l1 := rfl
@[simp] theorem Core.setWarp_tlb (y : Core) (k : Nat) (v : Option Warp) : (y.setWarp k v).tlb = y.tlb := rfl
@[simp] theorem Core.setWarp_code (y : Core) (k : Nat) (v : Option Warp) : (y.setWarp k v).code = y.code := rfl
@[simp] theorem Core.setWarp_sys (y : Core) (k : Nat) (v : Option Warp) : (y.setWarp k v).sys = y.sys := rfl
@[simp] theorem Core.setWarp_saved (y : Core) (k : Nat) (v : Option Warp) : (y.setWarp k v).saved = y.saved := rfl
@[simp] theorem Core.setWarp_sampled (y : Core) (k : Nat) (v : Option Warp) : (y.setWarp k v).sampled = y.sampled := rfl
@[simp] theorem Core.setWarp_at_wg (y : Core) (k : Nat) (v : Option Warp) (j : Nat) : (y.setWarp k v).wg j = y.wg j := rfl
@[simp] theorem Core.setWarp_at_queue (y : Core) (k : Nat) (v : Option Warp) (j : Nat) : (y.setWarp k v).queue j = y.queue j := rfl
@[simp] theorem Core.setWarp_at_reg (y : Core) (k : Nat) (v : Option Warp) (h1 k1 l1 : Nat) : (y.setWarp k v).reg h1 k1 l1 = y.reg h1 k1 l1 := rfl

/-! ### `Core.setQueue` -/

@[simp] theorem Core.setQueue_owner (y : Core) (k : Nat) (v : List Entry) : (y.setQueue k v).owner = y.owner := rfl
@[simp] theorem Core.setQueue_lcore (y : Core) (k : Nat) (v : List Entry) : (y.setQueue k v).lcore = y.lcore := rfl
@[simp] theorem Core.setQueue_since (y : Core) (k : Nat) (v : List Entry) : (y.setQueue k v).since = y.since := rfl
@[simp] theorem Core.setQueue_swBegan (y : Core) (k : Nat) (v : List Entry) : (y.setQueue k v).swBegan = y.swBegan := rfl
@[simp] theorem Core.setQueue_swtime (y : Core) (k : Nat) (v : List Entry) : (y.setQueue k v).swtime = y.swtime := rfl
@[simp] theorem Core.setQueue_switch (y : Core) (k : Nat) (v : List Entry) : (y.setQueue k v).switch = y.switch := rfl
@[simp] theorem Core.setQueue_warps (y : Core) (k : Nat) (v : List Entry) : (y.setQueue k v).warps = y.warps := rfl
@[simp] theorem Core.setQueue_wgs (y : Core) (k : Nat) (v : List Entry) : (y.setQueue k v).wgs = y.wgs := rfl
@[simp] theorem Core.setQueue_regs (y : Core) (k : Nat) (v : List Entry) : (y.setQueue k v).regs = y.regs := rfl
@[simp] theorem Core.setQueue_scratch (y : Core) (k : Nat) (v : List Entry) : (y.setQueue k v).scratch = y.scratch := rfl
@[simp] theorem Core.setQueue_tiles (y : Core) (k : Nat) (v : List Entry) : (y.setQueue k v).tiles = y.tiles := rfl
@[simp] theorem Core.setQueue_tileOld (y : Core) (k : Nat) (v : List Entry) : (y.setQueue k v).tileOld = y.tileOld := rfl
@[simp] theorem Core.setQueue_cbufs (y : Core) (k : Nat) (v : List Entry) : (y.setQueue k v).cbufs = y.cbufs := rfl
@[simp] theorem Core.setQueue_cbars (y : Core) (k : Nat) (v : List Entry) : (y.setQueue k v).cbars = y.cbars := rfl
@[simp] theorem Core.setQueue_bars (y : Core) (k : Nat) (v : List Entry) : (y.setQueue k v).bars = y.bars := rfl
@[simp] theorem Core.setQueue_flags (y : Core) (k : Nat) (v : List Entry) : (y.setQueue k v).flags = y.flags := rfl
@[simp] theorem Core.setQueue_flagAt (y : Core) (k : Nat) (v : List Entry) : (y.setQueue k v).flagAt = y.flagAt := rfl
@[simp] theorem Core.setQueue_guards (y : Core) (k : Nat) (v : List Entry) : (y.setQueue k v).guards = y.guards := rfl
@[simp] theorem Core.setQueue_guardWait (y : Core) (k : Nat) (v : List Entry) : (y.setQueue k v).guardWait = y.guardWait := rfl
@[simp] theorem Core.setQueue_toLane (y : Core) (k : Nat) (v : List Entry) : (y.setQueue k v).toLane = y.toLane := rfl
@[simp] theorem Core.setQueue_toCt (y : Core) (k : Nat) (v : List Entry) : (y.setQueue k v).toCt = y.toCt := rfl
@[simp] theorem Core.setQueue_ct (y : Core) (k : Nat) (v : List Entry) : (y.setQueue k v).ct = y.ct := rfl
@[simp] theorem Core.setQueue_loads (y : Core) (k : Nat) (v : List Entry) : (y.setQueue k v).loads = y.loads := rfl
@[simp] theorem Core.setQueue_copyQ (y : Core) (k : Nat) (v : List Entry) : (y.setQueue k v).copyQ = y.copyQ := rfl
@[simp] theorem Core.setQueue_matQ (y : Core) (k : Nat) (v : List Entry) : (y.setQueue k v).matQ = y.matQ := rfl
@[simp] theorem Core.setQueue_holdQ (y : Core) (k : Nat) (v : List Entry) : (y.setQueue k v).holdQ = y.holdQ := rfl
@[simp] theorem Core.setQueue_l1 (y : Core) (k : Nat) (v : List Entry) : (y.setQueue k v).l1 = y.l1 := rfl
@[simp] theorem Core.setQueue_tlb (y : Core) (k : Nat) (v : List Entry) : (y.setQueue k v).tlb = y.tlb := rfl
@[simp] theorem Core.setQueue_code (y : Core) (k : Nat) (v : List Entry) : (y.setQueue k v).code = y.code := rfl
@[simp] theorem Core.setQueue_sys (y : Core) (k : Nat) (v : List Entry) : (y.setQueue k v).sys = y.sys := rfl
@[simp] theorem Core.setQueue_saved (y : Core) (k : Nat) (v : List Entry) : (y.setQueue k v).saved = y.saved := rfl
@[simp] theorem Core.setQueue_sampled (y : Core) (k : Nat) (v : List Entry) : (y.setQueue k v).sampled = y.sampled := rfl
@[simp] theorem Core.setQueue_at_wg (y : Core) (k : Nat) (v : List Entry) (j : Nat) : (y.setQueue k v).wg j = y.wg j := rfl
@[simp] theorem Core.setQueue_at_warp (y : Core) (k : Nat) (v : List Entry) (j : Nat) : (y.setQueue k v).warp j = y.warp j := rfl
@[simp] theorem Core.setQueue_at_reg (y : Core) (k : Nat) (v : List Entry) (h1 k1 l1 : Nat) : (y.setQueue k v).reg h1 k1 l1 = y.reg h1 k1 l1 := rfl

/-! ### `Core.setReg` -/

@[simp] theorem Core.setReg_owner (y : Core) (h k l : Nat) (v : Word) : (y.setReg h k l v).owner = y.owner := rfl
@[simp] theorem Core.setReg_lcore (y : Core) (h k l : Nat) (v : Word) : (y.setReg h k l v).lcore = y.lcore := rfl
@[simp] theorem Core.setReg_since (y : Core) (h k l : Nat) (v : Word) : (y.setReg h k l v).since = y.since := rfl
@[simp] theorem Core.setReg_swBegan (y : Core) (h k l : Nat) (v : Word) : (y.setReg h k l v).swBegan = y.swBegan := rfl
@[simp] theorem Core.setReg_swtime (y : Core) (h k l : Nat) (v : Word) : (y.setReg h k l v).swtime = y.swtime := rfl
@[simp] theorem Core.setReg_switch (y : Core) (h k l : Nat) (v : Word) : (y.setReg h k l v).switch = y.switch := rfl
@[simp] theorem Core.setReg_warps (y : Core) (h k l : Nat) (v : Word) : (y.setReg h k l v).warps = y.warps := rfl
@[simp] theorem Core.setReg_wgs (y : Core) (h k l : Nat) (v : Word) : (y.setReg h k l v).wgs = y.wgs := rfl
@[simp] theorem Core.setReg_scratch (y : Core) (h k l : Nat) (v : Word) : (y.setReg h k l v).scratch = y.scratch := rfl
@[simp] theorem Core.setReg_tiles (y : Core) (h k l : Nat) (v : Word) : (y.setReg h k l v).tiles = y.tiles := rfl
@[simp] theorem Core.setReg_tileOld (y : Core) (h k l : Nat) (v : Word) : (y.setReg h k l v).tileOld = y.tileOld := rfl
@[simp] theorem Core.setReg_cbufs (y : Core) (h k l : Nat) (v : Word) : (y.setReg h k l v).cbufs = y.cbufs := rfl
@[simp] theorem Core.setReg_cbars (y : Core) (h k l : Nat) (v : Word) : (y.setReg h k l v).cbars = y.cbars := rfl
@[simp] theorem Core.setReg_bars (y : Core) (h k l : Nat) (v : Word) : (y.setReg h k l v).bars = y.bars := rfl
@[simp] theorem Core.setReg_flags (y : Core) (h k l : Nat) (v : Word) : (y.setReg h k l v).flags = y.flags := rfl
@[simp] theorem Core.setReg_flagAt (y : Core) (h k l : Nat) (v : Word) : (y.setReg h k l v).flagAt = y.flagAt := rfl
@[simp] theorem Core.setReg_guards (y : Core) (h k l : Nat) (v : Word) : (y.setReg h k l v).guards = y.guards := rfl
@[simp] theorem Core.setReg_guardWait (y : Core) (h k l : Nat) (v : Word) : (y.setReg h k l v).guardWait = y.guardWait := rfl
@[simp] theorem Core.setReg_toLane (y : Core) (h k l : Nat) (v : Word) : (y.setReg h k l v).toLane = y.toLane := rfl
@[simp] theorem Core.setReg_toCt (y : Core) (h k l : Nat) (v : Word) : (y.setReg h k l v).toCt = y.toCt := rfl
@[simp] theorem Core.setReg_ct (y : Core) (h k l : Nat) (v : Word) : (y.setReg h k l v).ct = y.ct := rfl
@[simp] theorem Core.setReg_queues (y : Core) (h k l : Nat) (v : Word) : (y.setReg h k l v).queues = y.queues := rfl
@[simp] theorem Core.setReg_loads (y : Core) (h k l : Nat) (v : Word) : (y.setReg h k l v).loads = y.loads := rfl
@[simp] theorem Core.setReg_copyQ (y : Core) (h k l : Nat) (v : Word) : (y.setReg h k l v).copyQ = y.copyQ := rfl
@[simp] theorem Core.setReg_matQ (y : Core) (h k l : Nat) (v : Word) : (y.setReg h k l v).matQ = y.matQ := rfl
@[simp] theorem Core.setReg_holdQ (y : Core) (h k l : Nat) (v : Word) : (y.setReg h k l v).holdQ = y.holdQ := rfl
@[simp] theorem Core.setReg_l1 (y : Core) (h k l : Nat) (v : Word) : (y.setReg h k l v).l1 = y.l1 := rfl
@[simp] theorem Core.setReg_tlb (y : Core) (h k l : Nat) (v : Word) : (y.setReg h k l v).tlb = y.tlb := rfl
@[simp] theorem Core.setReg_code (y : Core) (h k l : Nat) (v : Word) : (y.setReg h k l v).code = y.code := rfl
@[simp] theorem Core.setReg_sys (y : Core) (h k l : Nat) (v : Word) : (y.setReg h k l v).sys = y.sys := rfl
@[simp] theorem Core.setReg_saved (y : Core) (h k l : Nat) (v : Word) : (y.setReg h k l v).saved = y.saved := rfl
@[simp] theorem Core.setReg_sampled (y : Core) (h k l : Nat) (v : Word) : (y.setReg h k l v).sampled = y.sampled := rfl
@[simp] theorem Core.setReg_at_wg (y : Core) (h k l : Nat) (v : Word) (j : Nat) : (y.setReg h k l v).wg j = y.wg j := rfl
@[simp] theorem Core.setReg_at_warp (y : Core) (h k l : Nat) (v : Word) (j : Nat) : (y.setReg h k l v).warp j = y.warp j := rfl
@[simp] theorem Core.setReg_at_queue (y : Core) (h k l : Nat) (v : Word) (j : Nat) : (y.setReg h k l v).queue j = y.queue j := rfl

@[simp] theorem Core.setWg_wg (y : Core) (k j : Nat) (v : Option Workgroup) : (y.setWg k v).wg j = if j = k then v else y.wg j := by
  simp [Core.setWg, Core.wg]

@[simp] theorem Core.setWarp_warp (y : Core) (k j : Nat) (v : Option Warp) : (y.setWarp k v).warp j = if j = k then v else y.warp j := by
  simp [Core.setWarp, Core.warp]

@[simp] theorem Core.setQueue_queue (y : Core) (k j : Nat) (v : List Entry) : (y.setQueue k v).queue j = if j = k then v else y.queue j := by
  simp [Core.setQueue, Core.queue]

/-- Two places of the register file are one only for the same slot, register and lane. -/
theorem regKey_inj {h k l h' k' l' : Nat} (hk : k < 64) (hl : l < 32) (hk' : k' < 64) (hl' : l' < 32) :
    regKey h k l = regKey h' k' l' ↔ h = h' ∧ k = k' ∧ l = l' := by
  unfold regKey; omega

theorem Core.setReg_reg (y : Core) {h k l h' k' l' : Nat} (v : Word) (hk : k < 64) (hl : l < 32) (hk' : k' < 64) (hl' : l' < 32) :
    (y.setReg h k l v).reg h' k' l' = if h' = h ∧ k' = k ∧ l' = l then v else y.reg h' k' l' := by
  simp [Core.setReg, Core.reg, regKey_inj hk' hl' hk hl]

/-! ### `Workgroup.modThread` -/

@[simp] theorem Workgroup.modThread_ctx (g : Workgroup) (t : Nat) (f : Thread → Thread) : (g.modThread t f).ctx = g.ctx := rfl
@[simp] theorem Workgroup.modThread_launch (g : Workgroup) (t : Nat) (f : Thread → Thread) : (g.modThread t f).launch = g.launch := rfl
@[simp] theorem Workgroup.modThread_stage (g : Workgroup) (t : Nat) (f : Thread → Thread) : (g.modThread t f).stage = g.stage := rfl
@[simp] theorem Workgroup.modThread_index (g : Workgroup) (t : Nat) (f : Thread → Thread) : (g.modThread t f).index = g.index := rfl
@[simp] theorem Workgroup.modThread_warps (g : Workgroup) (t : Nat) (f : Thread → Thread) : (g.modThread t f).warps = g.warps := rfl
@[simp] theorem Workgroup.modThread_hw (g : Workgroup) (t : Nat) (f : Thread → Thread) : (g.modThread t f).hw = g.hw := rfl
@[simp] theorem Workgroup.modThread_nregs (g : Workgroup) (t : Nat) (f : Thread → Thread) : (g.modThread t f).nregs = g.nregs := rfl
@[simp] theorem Workgroup.modThread_prio (g : Workgroup) (t : Nat) (f : Thread → Thread) : (g.modThread t f).prio = g.prio := rfl
@[simp] theorem Workgroup.modThread_state (g : Workgroup) (t : Nat) (f : Thread → Thread) : (g.modThread t f).state = g.state := rfl
@[simp] theorem Workgroup.modThread_started (g : Workgroup) (t : Nat) (f : Thread → Thread) : (g.modThread t f).started = g.started := rfl
@[simp] theorem Workgroup.modThread_frontier (g : Workgroup) (t : Nat) (f : Thread → Thread) : (g.modThread t f).frontier = g.frontier := rfl
@[simp] theorem Workgroup.modThread_formed (g : Workgroup) (t : Nat) (f : Thread → Thread) : (g.modThread t f).formed = g.formed := rfl
@[simp] theorem Workgroup.modThread_forms (g : Workgroup) (t : Nat) (f : Thread → Thread) : (g.modThread t f).forms = g.forms := rfl
@[simp] theorem Workgroup.modThread_runaway (g : Workgroup) (t : Nat) (f : Thread → Thread) : (g.modThread t f).runaway = g.runaway := rfl
@[simp] theorem Workgroup.modThread_rest (g : Workgroup) (t : Nat) (f : Thread → Thread) : (g.modThread t f).rest = g.rest := rfl
@[simp] theorem Workgroup.modThread_digest (g : Workgroup) (t : Nat) (f : Thread → Thread) : (g.modThread t f).digest = g.digest := rfl
@[simp] theorem Workgroup.modThread_evict (g : Workgroup) (t : Nat) (f : Thread → Thread) : (g.modThread t f).evict = g.evict := rfl

@[simp] theorem Workgroup.modThread_thread (g : Workgroup) (t j : Nat) (f : Thread → Thread) :
    (g.modThread t f).thread j = if j = t then f (g.thread t) else g.thread j := by
  simp [Workgroup.modThread, Workgroup.thread]

/-! ### `CtRegs.setReg` -/

@[simp] theorem CtRegs.setReg_run (r : CtRegs) (k : Nat) (v : DWord) : (r.setReg k v).run = r.run := rfl
@[simp] theorem CtRegs.setReg_serial (r : CtRegs) (k : Nat) (v : DWord) : (r.setReg k v).serial = r.serial := rfl
@[simp] theorem CtRegs.setReg_pc (r : CtRegs) (k : Nat) (v : DWord) : (r.setReg k v).pc = r.pc := rfl
@[simp] theorem CtRegs.setReg_super (r : CtRegs) (k : Nat) (v : DWord) : (r.setReg k v).super = r.super := rfl
@[simp] theorem CtRegs.setReg_rstack (r : CtRegs) (k : Nat) (v : DWord) : (r.setReg k v).rstack = r.rstack := rfl
@[simp] theorem CtRegs.setReg_park (r : CtRegs) (k : Nat) (v : DWord) : (r.setReg k v).park = r.park := rfl
@[simp] theorem CtRegs.setReg_waited (r : CtRegs) (k : Nat) (v : DWord) : (r.setReg k v).waited = r.waited := rfl
@[simp] theorem CtRegs.setReg_watched (r : CtRegs) (k : Nat) (v : DWord) : (r.setReg k v).watched = r.watched := rfl
@[simp] theorem CtRegs.setReg_grd (r : CtRegs) (k : Nat) (v : DWord) : (r.setReg k v).grd = r.grd := rfl
@[simp] theorem CtRegs.setReg_effect (r : CtRegs) (k : Nat) (v : DWord) : (r.setReg k v).effect = r.effect := rfl
@[simp] theorem CtRegs.setReg_poison (r : CtRegs) (k : Nat) (v : DWord) : (r.setReg k v).poison = r.poison := rfl
@[simp] theorem CtRegs.setReg_begun (r : CtRegs) (k : Nat) (v : DWord) : (r.setReg k v).begun = r.begun := rfl
@[simp] theorem CtRegs.setReg_remote (r : CtRegs) (k : Nat) (v : DWord) : (r.setReg k v).remote = r.remote := rfl
@[simp] theorem CtRegs.setReg_frame (r : CtRegs) (k : Nat) (v : DWord) : (r.setReg k v).frame = r.frame := rfl

@[simp] theorem CtRegs.setReg_reg (r : CtRegs) (k j : Nat) (v : DWord) : (r.setReg k v).reg j = if j = k then v else r.reg j := by
  simp [CtRegs.setReg, CtRegs.reg]

/-! ### `Context.setReg` -/

@[simp] theorem Context.setReg_alive (x : Context) (n : Nat) (v : DWord) : (x.setReg n v).alive = x.alive := rfl
@[simp] theorem Context.setReg_removed (x : Context) (n : Nat) (v : DWord) : (x.setReg n v).removed = x.removed := rfl
@[simp] theorem Context.setReg_removal (x : Context) (n : Nat) (v : DWord) : (x.setReg n v).removal = x.removal := rfl
@[simp] theorem Context.setReg_cause (x : Context) (n : Nat) (v : DWord) : (x.setReg n v).cause = x.cause := rfl
@[simp] theorem Context.setReg_began (x : Context) (n : Nat) (v : DWord) : (x.setReg n v).began = x.began := rfl
@[simp] theorem Context.setReg_lost (x : Context) (n : Nat) (v : DWord) : (x.setReg n v).lost = x.lost := rfl
@[simp] theorem Context.setReg_halted (x : Context) (n : Nat) (v : DWord) : (x.setReg n v).halted = x.halted := rfl
@[simp] theorem Context.setReg_haltedAt (x : Context) (n : Nat) (v : DWord) : (x.setReg n v).haltedAt = x.haltedAt := rfl
@[simp] theorem Context.setReg_peersHalted (x : Context) (n : Nat) (v : DWord) : (x.setReg n v).peersHalted = x.peersHalted := rfl
@[simp] theorem Context.setReg_gen (x : Context) (n : Nat) (v : DWord) : (x.setReg n v).gen = x.gen := rfl
@[simp] theorem Context.setReg_grid (x : Context) (n : Nat) (v : DWord) : (x.setReg n v).grid = x.grid := rfl
@[simp] theorem Context.setReg_remap (x : Context) (n : Nat) (v : DWord) : (x.setReg n v).remap = x.remap := rfl
@[simp] theorem Context.setReg_remapQ (x : Context) (n : Nat) (v : DWord) : (x.setReg n v).remapQ = x.remapQ := rfl
@[simp] theorem Context.setReg_descs (x : Context) (n : Nat) (v : DWord) : (x.setReg n v).descs = x.descs := rfl
@[simp] theorem Context.setReg_pkgBars (x : Context) (n : Nat) (v : DWord) : (x.setReg n v).pkgBars = x.pkgBars := rfl
@[simp] theorem Context.setReg_podBars (x : Context) (n : Nat) (v : DWord) : (x.setReg n v).podBars = x.podBars := rfl
@[simp] theorem Context.setReg_accepted (x : Context) (n : Nat) (v : DWord) : (x.setReg n v).accepted = x.accepted := rfl
@[simp] theorem Context.setReg_launches (x : Context) (n : Nat) (v : DWord) : (x.setReg n v).launches = x.launches := rfl
@[simp] theorem Context.setReg_launchBag (x : Context) (n : Nat) (v : DWord) : (x.setReg n v).launchBag = x.launchBag := rfl
@[simp] theorem Context.setReg_groups (x : Context) (n : Nat) (v : DWord) : (x.setReg n v).groups = x.groups := rfl

@[simp] theorem Context.setReg_reg (x : Context) (n j : Nat) (v : DWord) : (x.setReg n v).reg j = if j = n then v else x.reg j := by
  by_cases h : j = n
  · subst h; simp [Context.setReg, Context.reg]
  · simp [Context.setReg, Context.reg, h, SMap.get_set_other _ _ h]

/-! ### Compound updates of a core -/

@[simp] theorem State.modWg_core (s : State) (c ws : Nat) (f : Workgroup → Workgroup) (j : Nat) :
    (s.modWg c ws f).core j = if j = c then (match (s.core c).wg ws with
      | some g => (s.core c).setWg ws (some (f g))
      | none => s.core c) else s.core j := State.modCore_core s c j _

@[simp] theorem State.modCt_core (s : State) (c : Nat) (f : CtRegs → CtRegs) (j : Nat) :
    (s.modCt c f).core j = if j = c then { s.core c with ct := { (s.core c).ct with cur := f (s.core c).ct.cur } } else s.core j := by
  simp [State.modCt]

/-- What a change of a thread leaves in its own core: all but the workgroup's record. -/
theorem State.modThread_core (s : State) (c ws t : Nat) (f : Thread → Thread) (j : Nat) :
    (s.modThread c ws t f).core j = if j = c then (match (s.core c).wg ws with
      | some g => (s.core c).setWg ws (some (g.modThread t f))
      | none => s.core c) else s.core j := State.modWg_core s c ws _ j

end Sys2Proof.Machine
end

