-- ==== Sys2Proof/Laws/Issue.lean ====
section
/-! SUPPORT. What an instruction that issues does: its own part, and what the end of an issue changes. -/

namespace Sys2Proof.Machine

open Sys2Proof.Claims

/-! ### Issue -/

theorem issue_of_readyVec {s : State} {e : Env} {i : Instr} {u : Uses} (h : readyVec s e i u = true) (vec : Env → List Lane → State → State)
    (ctl : CEnv → State → State) :
    issue i u s vec ctl = (vec e (e.issueSet u.g) (s.settleFlights e.c e.k u)).noteFlight e i (e.issueSet u.g) := by
  simp only [readyVec, Bool.and_eq_true, beq_iff_eq, List.isEmpty_iff, Bool.not_eq_true', List.all_eq_true, decide_eq_true_eq,
    Bool.or_eq_true] at h
  obtain ⟨⟨⟨⟨⟨⟨⟨⟨h1, h2⟩, h3⟩, h4⟩, h5⟩, h6⟩, h7⟩, h8⟩, h9⟩ := h
  have r : u.regs.any (fun r => decide (e.g.nregs ≤ r)) = false := by
    rw [List.any_eq_false]; intro x hx; simpa using h7 x hx
  have v : (e.issueSet u.g).filter (fun l => (e.captured l).isNone && u.lat.any (fun b => (e.latch l b).isNone)) = [] := by
    rw [List.filter_eq_nil_iff]; intro l hl hc
    rw [Bool.and_eq_true, List.any_eq_true] at hc
    rcases h9 l hl with a | a
    · rw [Option.isNone_iff_eq_none] at hc; simp [hc.1] at a
    · obtain ⟨b, hb, hn⟩ := hc.2
      have := a b hb; rw [Option.isNone_iff_eq_none] at hn; simp [hn] at this
  simp only [issue, h1, issueVec, h2, h3, h4, h5, h6, r, h8, v]; simp

theorem issue_of_readyCt {s : State} {e : CEnv} {i : Instr} {u : Uses} (h : readyCt s e i u = true) (vec : Env → List Lane → State → State)
    (ctl : CEnv → State → State) : issue i u s vec ctl = ctl e s := by
  simp only [readyCt, Bool.and_eq_true, beq_iff_eq, Bool.not_eq_true', Bool.or_eq_true, bne_iff_ne, ne_eq, Option.isNone_iff_eq_none] at h
  obtain ⟨⟨⟨⟨⟨⟨⟨⟨⟨⟨⟨h1, h2⟩, h3⟩, h4⟩, h5⟩, h6⟩, h7⟩, h8⟩, h9⟩, h10⟩, h11⟩, h12⟩ := h
  have r : (s.core e.c).ct.cur = e.r := by rw [← h2]; rfl
  have o : s.owedCt e.c = none := by unfold State.owedCt; simp only [r, h6, h7]
  have g : (e.r.grd.isSome && !isEngineCommand i) = false := by rcases h10 with a | a <;> simp [a]
  have p : (isSys i && !e.r.super) = false := by rcases h8 with a | a <;> simp [a]
  simp only [issue, h1, issueCt, h2, h3, h4, h5, o, p, h9, g, h11, h12]; simp

/-! ### The end of an issue leaves everything but the warp's own records -/

theorem onlyCore_refl (s : State) (c : Nat) : OnlyCore s s c := ⟨rfl, fun _ _ => rfl⟩

theorem onlyCore_trans {s t r : State} {c : Nat} (a : OnlyCore s t c) (b : OnlyCore t r c) : OnlyCore s r c := by
  refine ⟨?_, fun j h => (b.2 j h).trans (a.2 j h)⟩
  have x := a.1; have y := b.1
  rw [y]; rw [x]

theorem onlyCore_modCore (s : State) (c : Nat) (f : Core → Core) : OnlyCore s (s.modCore c f) c :=
  ⟨rfl, fun j h => by simp [h]⟩

theorem onlyCore_memKept {s t : State} {c : Nat} (h : OnlyCore s t c) : MemKept s t := by
  have x := h.1
  constructor
  · intro a; rw [x]
  · intro a; rw [x]; rfl

theorem warpOnly_refl (y : Core) (k ws : Nat) : WarpOnly y y k ws :=
  ⟨rfl, fun _ _ => rfl, fun _ _ => rfl, fun g h => ⟨g, h, rfl⟩, .inl rfl⟩

theorem warpOnly_trans {x y z : Core} {k ws : Nat} (a : WarpOnly x y k ws) (b : WarpOnly y z k ws) : WarpOnly x z k ws := by
  refine ⟨?_, fun j h => (b.warps j h).trans (a.warps j h), fun j h => (b.wgs j h).trans (a.wgs j h), fun g h => ?_, ?_⟩
  · have p := a.core; have q := b.core
    rw [q]; rw [p]
  · obtain ⟨g', h1, h2⟩ := a.wg g h
    obtain ⟨g'', h3, h4⟩ := b.wg g' h1
    exact ⟨g'', h3, by rw [h4, h2]⟩
  · rcases b.loads with q | q <;> rcases a.loads with p | p <;> rw [q, p]
    · exact .inl rfl
    · exact .inr rfl
    · exact .inr rfl
    · right
      rw [List.map_map]
      apply List.map_congr_left
      intro p _
      simp only [Function.comp]
      by_cases e : p.warp = some k <;> simp [e]

/-- Two states that differ in one core only, and there only in an issue context, the threads and frontier of a workgroup slot, and latches due. -/
structure SameButWarps (s t : State) (c k ws : Nat) : Prop where
  only : OnlyCore s t c
  regs : (t.core c).regs = (s.core c).regs
  rest : WarpOnly (s.core c) (t.core c) k ws

theorem SameButWarps.refl (s : State) (c k ws : Nat) : SameButWarps s s c k ws := ⟨onlyCore_refl s c, rfl, warpOnly_refl _ _ _⟩

theorem SameButWarps.trans {s t r : State} {c k ws : Nat} (a : SameButWarps s t c k ws) (b : SameButWarps t r c k ws) :
    SameButWarps s r c k ws := ⟨onlyCore_trans a.only b.only, b.regs.trans a.regs, warpOnly_trans a.rest b.rest⟩

theorem SameButWarps.modCore (s : State) (c k ws : Nat) (f : Core → Core) (hr : (f (s.core c)).regs = (s.core c).regs)
    (hc : WarpOnly (s.core c) (f (s.core c)) k ws) : SameButWarps s (s.modCore c f) c k ws :=
  ⟨onlyCore_modCore s c f, by simp [hr], by simpa using hc⟩

/-- Two states that differ in the results in the pipes of one issue context only. -/
structure FlightsOnly (s t : State) (c k : Nat) : Prop where
  only : OnlyCore s t c
  core : t.core c = { s.core c with warps := (t.core c).warps }
  warps : ∀ j, j ≠ k → (t.core c).warp j = (s.core c).warp j
  warp : ∀ w, (t.core c).warp k = some w → ∃ v, (s.core c).warp k = some v ∧ w = { v with flights := w.flights }
  kept : ∀ v, (s.core c).warp k = some v → ∃ w, (t.core c).warp k = some w

theorem flightsOnly_modCore (s : State) (c k : Nat) (f : Warp → List Flight) : FlightsOnly s (s.modCore c fun y => match y.warp k with
    | some w => y.setWarp k (some { w with flights := f w })
    | none => y) c k := by
  refine ⟨onlyCore_modCore _ _ _, ?_, fun j hj => ?_, fun w h => ?_, fun v h => ?_⟩ <;> simp only [State.modCore_core, if_true] at *
  · cases (s.core c).warp k <;> rfl
  · cases (s.core c).warp k with
    | none => rfl
    | some w => simp [Core.warp, Core.setWarp, hj]
  · cases e : (s.core c).warp k with
    | none => rw [e] at h; simp only at h; rw [e] at h; cases h
    | some v => rw [e] at h; simp [Core.warp, Core.setWarp] at h; exact ⟨v, rfl, by rw [← h]⟩
  · rw [h]; exact ⟨_, by simp [Core.warp, Core.setWarp]; rfl⟩

theorem settleFlights_only (s : State) (c k : Nat) (u : Uses) : FlightsOnly s (s.settleFlights c k u) c k := flightsOnly_modCore s c k _

theorem noteFlight_only (s : State) (e : Env) (i : Instr) (set : List Lane) : FlightsOnly s (s.noteFlight e i set) e.c e.k := by
  rw [show s.noteFlight e i set = s.modCore e.c (fun y => match y.warp e.k with
    | some w => y.setWarp e.k (some { w with flights := _ })
    | none => y) from by unfold State.noteFlight; congr 1; funext y; cases y.warp e.k <;> rfl]
  exact flightsOnly_modCore s e.c e.k _

theorem FlightsOnly.sameButWarps {s t : State} {c k : Nat} (h : FlightsOnly s t c k) (ws : Nat) : SameButWarps s t c k ws := by
  refine ⟨h.only, by rw [h.core], ⟨by rw [h.core], h.warps, fun j _ => by rw [h.core]; rfl, fun g hg => ⟨g, by rw [h.core]; exact hg, rfl⟩, .inl (by rw [h.core])⟩⟩

/-- A change of a workgroup's threads and frontier. -/
theorem SameButWarps.modWg (s : State) (c k ws : Nat) (f : Workgroup → Workgroup)
    (h : ∀ g, f g = { g with threads := (f g).threads, frontier := (f g).frontier }) : SameButWarps s (s.modWg c ws f) c k ws := by
  unfold State.modWg
  apply SameButWarps.modCore
  · cases (s.core c).wg ws <;> rfl
  · cases e : (s.core c).wg ws with
    | none => exact warpOnly_refl _ _ _
    | some g =>
      refine ⟨rfl, fun _ _ => rfl, fun j hj => ?_, fun g' hg => ?_, .inl rfl⟩
      · simp [Core.wg, Core.setWg, hj]
      · rw [e] at hg; cases hg
        exact ⟨f g, by simp [Core.wg, Core.setWg], h g⟩

theorem setWarp_same (s : State) (c k ws : Nat) (f : Warp → Option Warp) : SameButWarps s (s.modCore c fun x => match x.warp k with
      | some w => x.setWarp k (f w)
      | none => x) c k ws := by
  apply SameButWarps.modCore
  · cases (s.core c).warp k <;> rfl
  · cases (s.core c).warp k with
    | none => exact warpOnly_refl _ _ _
    | some w => exact ⟨rfl, fun j hj => by simp [Core.warp, Core.setWarp, hj], fun _ _ => rfl, fun g h => ⟨g, h, rfl⟩, .inl rfl⟩

theorem foldl_enter_same (s : State) (ls : List Lane) (g : Workgroup) :
    ls.foldl (fun g l => s.enter g l.tid) g = { g with threads := (ls.foldl (fun g l => s.enter g l.tid) g).threads,
                                                       frontier := (ls.foldl (fun g l => s.enter g l.tid) g).frontier } := by
  induction ls generalizing g with
  | nil => rfl
  | cons l ls ih => rw [List.foldl_cons, ih]; rfl

/-- A warp that dissolves touches no register, and nothing outside its core. -/
theorem dissolve_same (s : State) (c k ws : Nat) (hw : ∀ w, (s.core c).warp k = some w → w.ws = ws) :
    SameButWarps s (s.dissolve c k) c k ws := by
  unfold State.dissolve
  split
  · exact .refl s c k ws
  · next w h =>
    have hw := hw w h; subst hw
    split
    · exact .modCore s c _ _ _ rfl
        ⟨rfl, fun j hj => by simp [Core.warp, Core.setWarp, hj], fun _ _ => rfl, fun g h => ⟨g, h, rfl⟩, .inl rfl⟩
    · next g hg =>
      refine .modCore s c _ _ _ rfl ⟨rfl, fun j hj => by simp [Core.warp, Core.setWarp, Core.setWg, hj],
        fun j hj => by simp [Core.wg, Core.setWarp, Core.setWg, hj], fun g' hg' => ?_, .inr rfl⟩
      rw [hg] at hg'; cases hg'
      exact ⟨_, by simp [Core.wg, Core.setWg]; rfl, foldl_enter_same _ _ _⟩

/-- The end of an issue touches no register, and nothing outside its core. -/
theorem endIssue_same (s : State) (e : Env) (b : Bool) (hw : ∀ w, (s.core e.c).warp e.k = some w → w.ws = e.ws) :
    SameButWarps s (s.endIssue e b) e.c e.k e.ws := by
  have h := setWarp_same s e.c e.k e.ws (fun w => some { w with run := e.w.run + 1, last := s.tick })
  simp only [State.endIssue]
  split
  · refine h.trans (dissolve_same _ _ _ _ fun w hw' => ?_)
    simp only [State.modCore_core, if_true] at hw'
    cases e1 : (s.core e.c).warp e.k with
    | none => rw [e1] at hw'; rw [e1] at hw'; cases hw'
    | some x =>
      rw [e1] at hw'
      simp [Core.warp, Core.setWarp] at hw'
      rw [← hw']; exact hw x e1
  · exact h

theorem modThread_foldl_same (ls : List Lane) (f : Lane → Thread → Thread) (g : Workgroup) :
    ls.foldl (fun g l => g.modThread l.tid (f l)) g = { g with threads := (ls.foldl (fun g l => g.modThread l.tid (f l)) g).threads } := by
  induction ls generalizing g with
  | nil => rfl
  | cons l ls ih => rw [List.foldl_cons, ih]; rfl

theorem eachThread_same (s : State) (c k ws : Nat) (ls : List Lane) (f : Lane → Thread → Thread) :
    SameButWarps s (s.eachThread c ws ls f) c k ws := SameButWarps.modWg s c k ws _ fun g => by rw [modThread_foldl_same]

theorem modWg_warp (s : State) (c ws : Nat) (f : Workgroup → Workgroup) (k : Nat) :
    ((s.modWg c ws f).core c).warp k = (s.core c).warp k := by
  simp only [State.modWg_core, if_true]
  cases (s.core c).wg ws <;> rfl

theorem advance_same (s : State) (e : Env) (len : Nat) (b : Bool) (hw : ∀ w, (s.core e.c).warp e.k = some w → w.ws = e.ws) :
    SameButWarps s (s.advance e len b) e.c e.k e.ws :=
  (eachThread_same s e.c e.k e.ws e.lanes _).trans (endIssue_same _ e b fun w h => hw w (by rwa [State.eachThread, modWg_warp] at h))

/-! ### Threads -/

/-- Threads entered into a frontier keep their records. -/
theorem enter_thread (s : State) (g : Workgroup) (i j : Nat) : (s.enter g i).thread j = g.thread j := rfl

theorem foldl_enter_thread (s : State) (ls : List Lane) (g : Workgroup) (j : Nat) :
    (ls.foldl (fun g l => s.enter g l.tid) g).thread j = g.thread j := by
  induction ls generalizing g with
  | nil => rfl
  | cons l ls ih => rw [List.foldl_cons, ih]; rfl

theorem thread_of_core {s t : State} {c ws tid : Nat} (h : (t.core c).wg ws = (s.core c).wg ws) : t.thread c ws tid = s.thread c ws tid := by
  simp [State.thread, h]

theorem thread_def (s : State) (c ws tid : Nat) : s.thread c ws tid = (((s.core c).wg ws).map (·.thread tid)).getD {} := by
  unfold State.thread; cases (s.core c).wg ws <;> rfl

theorem modWg_thread (s : State) (c ws : Nat) (f : Workgroup → Workgroup) (ws' tid : Nat) :
    (s.modWg c ws f).thread c ws' tid =
      if ws' = ws then (((s.core c).wg ws).map (fun g => (f g).thread tid)).getD {} else s.thread c ws' tid := by
  rw [thread_def, thread_def]
  simp only [State.modWg_core, if_true]
  cases h : (s.core c).wg ws with
  | none => by_cases e : ws' = ws <;> simp [e, h]
  | some g => by_cases e : ws' = ws <;> simp [e]

theorem dissolve_thread (s : State) (c k ws tid : Nat) : (s.dissolve c k).thread c ws tid = s.thread c ws tid := by
  unfold State.dissolve
  split
  · rfl
  · next w _ =>
    split
    · rw [thread_def, thread_def]; simp
    · next g hg =>
      rw [thread_def, thread_def]
      simp only [State.modCore_core, if_true]
      by_cases e : ws = w.ws
      · subst e
        have : ∀ x : Core, (Core.wg { x with loads := x.loads.map (fun p => if p.warp = some k then { p with warp := none } else p) } w.ws) =
            x.wg w.ws := fun _ => rfl
        simp [Core.wg, Core.setWg] at *
        rw [hg]; simp [foldl_enter_thread]
      · simp [Core.wg, Core.setWg, Core.setWarp, e]

theorem endIssue_thread (s : State) (e : Env) (b : Bool) (ws tid : Nat) : (s.endIssue e b).thread e.c ws tid = s.thread e.c ws tid := by
  have h : (s.modCore e.c fun x => match x.warp e.k with
      | some w => x.setWarp e.k (some { w with run := e.w.run + 1, last := s.tick })
      | none => x).thread e.c ws tid = s.thread e.c ws tid := by
    apply thread_of_core; simp only [State.modCore_core, if_true]
    cases (s.core e.c).warp e.k <;> rfl
  simp only [State.endIssue]
  split
  · exact (dissolve_thread _ _ _ _ _).trans h
  · exact h

end Sys2Proof.Machine
end

