-- ==== Sys2Proof/Laws/Lane.lean ====
section
/-! SUPPORT. What an instruction of the vector stream that writes registers, a latch or a predicate leaves (`LaneDone`). -/

namespace Sys2Proof.Machine

open Sys2Proof.Claims

/-! ### The lanes of a warp -/

theorem threads_lanes (w : Warp) (hw : Nat) :
    (∀ l ∈ w.threads hw, l.lane < 32) ∧ (w.threads hw).Pairwise (fun a b => a.lane ≠ b.lane) := by
  unfold Warp.threads
  constructor
  · intro l hl
    simp only [List.mem_filterMap, List.mem_range, Option.map_eq_some_iff] at hl
    obtain ⟨a, ha, t, _, e⟩ := hl
    rw [← e]; exact ha
  · rw [List.pairwise_filterMap]
    refine List.Pairwise.imp ?_ List.nodup_range
    intro a b hab x hx y hy
    simp only [Option.map_eq_some_iff] at hx hy
    obtain ⟨_, _, e1⟩ := hx
    obtain ⟨_, _, e2⟩ := hy
    rw [← e1, ← e2]; exact hab

/-- What an environment is made of, but for the results in the warp's pipes. -/
structure EnvOf (s : State) (e : Env) : Prop where
  wg : (s.core e.c).wg e.ws = some e.g
  warp : ∃ w, (s.core e.c).warp e.k = some w ∧ w.latches = e.w.latches ∧ w.ws = e.ws
  lanes : e.lanes = e.w.threads e.g.hw

theorem envOf {s : State} {c k : Nat} {e : Env} (h : s.env c k = some e) : EnvOf s e ∧ e.c = c ∧ e.k = k := by
  unfold State.env at h
  split at h
  · cases h
  · next w hw =>
    split at h
    · cases h
    · next g hg =>
      simp only at h
      split at h
      · cases h
      · cases h
        exact ⟨⟨hg, ⟨w, hw, rfl, rfl⟩, rfl⟩, rfl, rfl⟩

/-- An instruction that issues finds its environment once the results it names have been written. -/
theorem EnvOf.settle {s t : State} {e : Env} (h : EnvOf s e) (f : FlightsOnly s t e.c e.k) : EnvOf t e := by
  obtain ⟨w, hw, h1, h2⟩ := h.warp
  obtain ⟨v, hv⟩ := f.kept w hw
  obtain ⟨w', hw', e'⟩ := f.warp v hv
  rw [hw] at hw'; cases hw'
  exact ⟨by rw [f.core]; exact h.wg, ⟨v, hv, by rw [e']; exact h1, by rw [e']; exact h2⟩, h.lanes⟩

theorem envOf_ready {s : State} {e : Env} {i : Instr} {u : Uses} (h : readyVec s e i u = true) : EnvOf s e := by
  simp only [readyVec, Bool.and_eq_true, beq_iff_eq] at h
  exact (envOf h.1.1.1.1.1.1.1.2).1

/-- A list of lanes of one warp: each below 32, no two alike. -/
def Distinct (set : List Lane) : Prop := (∀ l ∈ set, l.lane < 32) ∧ set.Pairwise (fun a b => a.lane ≠ b.lane)

theorem EnvOf.distinct {s : State} {e : Env} (h : EnvOf s e) : Distinct e.lanes := by
  rw [h.lanes]; exact threads_lanes _ _

theorem Distinct.sublist {a b : List Lane} (h : Distinct b) (s : a.Sublist b) : Distinct a :=
  ⟨fun l hl => h.1 l (s.subset hl), h.2.sublist s⟩

theorem EnvOf.distinct_set {s : State} {e : Env} (h : EnvOf s e) (g : BitVec 3) : Distinct (e.issueSet g) :=
  h.distinct.sublist List.filter_sublist

/-! ### Registers after a delivery -/

/-- The writes of one lane: register numbers below 64, no two alike. -/
def Writes (ws : List (Nat × Word)) : Prop := (∀ p ∈ ws, p.1 < 64) ∧ ws.Pairwise (fun a b => a.1 ≠ b.1)

theorem foldl_writes (ws : List (Nat × Word)) (m : SMap Word) {hw k lane h ln : Nat} (hk : k < 64) (hl : lane < 32) (hln : ln < 32)
    (hws : Writes ws) :
    SMap.get 0 (regKey hw k lane) (ws.foldl (fun m kv => SMap.set 0 (regKey h kv.1 ln) kv.2 m) m) =
      if h = hw ∧ ln = lane then (ws.lookup k).getD (SMap.get 0 (regKey hw k lane) m) else SMap.get 0 (regKey hw k lane) m := by
  induction ws generalizing m with
  | nil => simp
  | cons p ws ih =>
    have hp := hws.1 p List.mem_cons_self
    have hw' : Writes ws := ⟨fun q hq => hws.1 q (List.mem_cons_of_mem _ hq), (List.pairwise_cons.1 hws.2).2⟩
    rw [List.foldl_cons, ih _ hw', SMap.get_set]
    by_cases e : h = hw ∧ ln = lane
    · obtain ⟨e1, e2⟩ := e; subst e1; subst e2
      simp only [and_self, if_true]
      by_cases ek : k = p.1
      · subst ek
        have none : ws.lookup p.1 = none := by
          rw [List.lookup_eq_none_iff]; intro q hq
          simpa using (List.pairwise_cons.1 hws.2).1 q hq
        obtain ⟨p1, p2⟩ := p
        simp [none]
      · have : ¬ regKey h k ln = regKey h p.1 ln := by rw [regKey_inj hk hl hp hl]; simp [ek]
        obtain ⟨p1, p2⟩ := p
        rw [if_neg this, List.lookup_cons]
        have b : (k == p1) = false := by simpa using ek
        simp [b]
    · have : ¬ regKey hw k lane = regKey h p.1 ln := by
        rw [regKey_inj hk hl hp hln]; exact fun x => e ⟨x.1.symm, x.2.2.symm⟩
      rw [if_neg this, if_neg e, if_neg e]

theorem foldl_lanes (set : List Lane) (f : Lane → List (Nat × Word) × Word) (m : SMap Word) {hw k lane : Nat} (hk : k < 64) (hl : lane < 32)
    (hd : Distinct set) (hf : ∀ l ∈ set, Writes (f l).1) :
    SMap.get 0 (regKey hw k lane) ((set.map (fun l => (l, f l))).foldl
        (fun m r => r.2.1.foldl (fun m kv => SMap.set 0 (regKey r.1.hw kv.1 r.1.lane) kv.2 m) m) m) =
      ((set.find? (fun l => l.hw == hw && l.lane == lane)).bind (fun l => (f l).1.lookup k)).getD (SMap.get 0 (regKey hw k lane) m) := by
  induction set generalizing m with
  | nil => rfl
  | cons a set ih =>
    have hd' : Distinct set := hd.sublist (List.sublist_cons_self a set)
    rw [List.map_cons, List.foldl_cons, ih _ hd' (fun l h => hf l (List.mem_cons_of_mem _ h)),
      foldl_writes _ _ hk hl (hd.1 a List.mem_cons_self) (hf a List.mem_cons_self)]
    by_cases e : a.hw = hw ∧ a.lane = lane
    · have none : set.find? (fun l => l.hw == hw && l.lane == lane) = none := by
        rw [List.find?_eq_none]; intro x hx
        have := (List.pairwise_cons.1 hd.2).1 x hx
        simp only [Bool.and_eq_true, beq_iff_eq, not_and]
        intro _ c; exact this (e.2.trans c.symm)
      simp [List.find?, e, none]
    · have : (a.hw == hw && a.lane == lane) = false := by
        rw [Bool.and_eq_false_iff]; by_cases x : a.hw = hw
        · right; simpa using fun y => e ⟨x, y⟩
        · left; simpa using x
      simp [List.find?, e, this]

/-- The registers of a core once the lanes have written. -/
def regsAfter (rs : List (Lane × List (Nat × Word) × Word)) (m : SMap Word) : SMap Word :=
  rs.foldl (fun m r => r.2.1.foldl (fun m kv => SMap.set 0 (regKey r.1.hw kv.1 r.1.lane) kv.2 m) m) m

/-- The latches of a warp once the lanes have delivered to latch b. -/
def latchesAfter (b : Nat) (rs : List (Lane × List (Nat × Word) × Word)) (m : SMap Latch) : SMap Latch :=
  rs.foldl (fun m r => SMap.set none (b * 32 + r.1.lane) (some r.2.2) m) m

theorem deliver_eq (s : State) (e : Env) (b : Nat) (rs : List (Lane × List (Nat × Word) × Word)) :
    s.deliver e b rs = s.modCore e.c fun x => match x.warp e.k with
      | some w => ({ x with regs := regsAfter rs x.regs }).setWarp e.k (some { w with latches := latchesAfter b rs w.latches })
      | none => { x with regs := regsAfter rs x.regs } := rfl

theorem deliver_core (s : State) (e : Env) (b : Nat) (rs : List (Lane × List (Nat × Word) × Word)) :
    (s.deliver e b rs).core e.c = match (s.core e.c).warp e.k with
      | some w => ({ s.core e.c with regs := regsAfter rs (s.core e.c).regs }).setWarp e.k (some { w with latches := latchesAfter b rs w.latches })
      | none => { s.core e.c with regs := regsAfter rs (s.core e.c).regs } := by
  rw [deliver_eq, State.modCore_core, if_pos rfl]

theorem latchesAfter_get (b : Nat) (set : List Lane) (f : Lane → List (Nat × Word) × Word) (m : SMap Latch) (hd : Distinct set)
    (j lane : Nat) (hl : lane < 32) : SMap.get none (j * 32 + lane) (latchesAfter b (set.map (fun l => (l, f l))) m) =
      if j = b then ((set.find? (fun l => l.lane == lane)).map (fun l => some (f l).2)).getD (SMap.get none (j * 32 + lane) m)
      else SMap.get none (j * 32 + lane) m := by
  unfold latchesAfter
  induction set generalizing m with
  | nil => simp
  | cons a set ih =>
    have ha := hd.1 a List.mem_cons_self
    rw [List.map_cons, List.foldl_cons, ih _ (hd.sublist (List.sublist_cons_self a set)), SMap.get_set]
    by_cases e : j = b
    · subst e
      by_cases el : a.lane = lane
      · have none : set.find? (fun l => l.lane == lane) = none := by
          rw [List.find?_eq_none]; intro x hx
          have := (List.pairwise_cons.1 hd.2).1 x hx
          simpa [← el] using this.symm
        subst el
        simp only [if_true, none, List.find?, beq_self_eq_true, Option.map_none, Option.map_some, Option.getD_none, Option.getD_some]
      · have b2 : (a.lane == lane) = false := by simpa using el
        have : ¬ j * 32 + lane = j * 32 + a.lane := by omega
        simp only [if_true, if_neg this, List.find?, b2]
    · have : ¬ j * 32 + lane = b * 32 + a.lane := by omega
      simp only [if_neg e, if_neg this]

theorem deliver_same (s : State) (e : Env) (b : Nat) (rs : List (Lane × List (Nat × Word) × Word)) :
    OnlyCore s (s.deliver e b rs) e.c ∧ WarpOnly (s.core e.c) ((s.deliver e b rs).core e.c) e.k e.ws ∧
      ∀ ws tid, (s.deliver e b rs).thread e.c ws tid = s.thread e.c ws tid := by
  refine ⟨onlyCore_modCore _ _ _, ?_, fun ws tid => ?_⟩
  · rw [deliver_core]
    cases (s.core e.c).warp e.k with
    | none => exact ⟨rfl, fun _ _ => rfl, fun _ _ => rfl, fun g h => ⟨g, h, rfl⟩, .inl rfl⟩
    | some w => exact ⟨rfl, fun j hj => by simp [Core.warp, Core.setWarp, hj], fun _ _ => rfl, fun g h => ⟨g, h, rfl⟩, .inl rfl⟩
  · apply thread_of_core; rw [deliver_core]; cases (s.core e.c).warp e.k <;> rfl

theorem deliver_regs (s : State) (e : Env) (b : Nat) (rs : List (Lane × List (Nat × Word) × Word)) :
    ((s.deliver e b rs).core e.c).regs = regsAfter rs (s.core e.c).regs := by
  rw [deliver_core]; cases (s.core e.c).warp e.k <;> rfl

theorem deliver_warp (s : State) (e : Env) (b : Nat) (rs : List (Lane × List (Nat × Word) × Word)) (w : Warp)
    (h : (s.core e.c).warp e.k = some w) :
    ((s.deliver e b rs).core e.c).warp e.k = some { w with latches := latchesAfter b rs w.latches } := by
  rw [deliver_core, h]; simp [Core.warp, Core.setWarp]

/-! ### Going on -/

theorem eachThread_foldl (g : Workgroup) (ls : List Lane) (f : Lane → Thread → Thread) (hd : ls.Pairwise (fun a b => a.tid ≠ b.tid)) (tid : Nat) :
    (ls.foldl (fun g l => g.modThread l.tid (f l)) g).thread tid =
      match ls.find? (fun l => l.tid == tid) with
      | some l => f l (g.thread tid)
      | none => g.thread tid := by
  induction ls generalizing g with
  | nil => rfl
  | cons a ls ih =>
    rw [List.foldl_cons, ih _ (List.pairwise_cons.1 hd).2]
    by_cases e : a.tid = tid
    · have none : ls.find? (fun l => l.tid == tid) = none := by
        rw [List.find?_eq_none]; intro x hx
        have := (List.pairwise_cons.1 hd).1 x hx
        simpa [← e] using this.symm
      subst e; simp [List.find?, none]
    · have b : (a.tid == tid) = false := by simpa using e
      have e' : ¬ tid = a.tid := fun x => e x.symm
      simp only [List.find?, b, Workgroup.modThread_thread, if_neg e']

theorem eachThread_thread (s : State) (c ws : Nat) (ls : List Lane) (f : Lane → Thread → Thread) (ws' tid : Nat) :
    (s.eachThread c ws ls f).thread c ws' tid =
      if ws' = ws then (((s.core c).wg ws).map (fun g => (ls.foldl (fun g l => g.modThread l.tid (f l)) g).thread tid)).getD {}
      else s.thread c ws' tid := modWg_thread s c ws _ ws' tid

/-- Threads a change does not name are as they were. -/
theorem foldl_modThread_other (g : Workgroup) (ls : List Lane) (f : Lane → Thread → Thread) (tid : Nat) (h : ∀ l ∈ ls, l.tid ≠ tid) :
    (ls.foldl (fun g l => g.modThread l.tid (f l)) g).thread tid = g.thread tid := by
  induction ls generalizing g with
  | nil => rfl
  | cons a ls ih =>
    rw [List.foldl_cons, ih _ fun l hl => h l (List.mem_cons_of_mem _ hl), Workgroup.modThread_thread,
      if_neg fun x => h a List.mem_cons_self x.symm]

/-- A change that each lane makes the same of a thread, once made, stays. -/
theorem foldl_modThread_idem (g : Workgroup) (ls : List Lane) (f : Thread → Thread) (hf : ∀ t, f (f t) = f t) (tid : Nat)
    (h : ∃ l ∈ ls, l.tid = tid) : (ls.foldl (fun g l => g.modThread l.tid f) g).thread tid = f (g.thread tid) := by
  have key : ∀ (ls : List Lane) (g : Workgroup) (x : Thread), g.thread tid = f x →
      (ls.foldl (fun g l => g.modThread l.tid f) g).thread tid = f x := by
    intro ls
    induction ls with
    | nil => intro g x h; exact h
    | cons a ls ih =>
      intro g x h
      rw [List.foldl_cons]
      apply ih
      rw [Workgroup.modThread_thread]
      split
      · next e => rw [← e, h, hf]
      · exact h
  induction ls generalizing g with
  | nil => obtain ⟨l, hl, _⟩ := h; cases hl
  | cons a ls ih =>
    rw [List.foldl_cons]
    by_cases e : tid = a.tid
    · exact key ls _ _ (by rw [Workgroup.modThread_thread, if_pos e, e])
    · obtain ⟨l, hl, ht⟩ := h
      have hl' : l ∈ ls := by
        rcases List.mem_cons.1 hl with x | x
        · subst x; exact absurd ht.symm e
        · exact x
      rw [ih _ ⟨l, hl', ht⟩, Workgroup.modThread_thread, if_neg e]

/-- A change of one lane's thread, where no other lane of the list has that thread. -/
theorem foldl_modThread_one (g : Workgroup) (ls : List Lane) (f : Lane → Thread → Thread) (l : Lane) (hl : l ∈ ls)
    (hd : ls.Pairwise (fun a b => a ≠ b)) (h : ∀ m ∈ ls, m.tid = l.tid → m = l) :
    (ls.foldl (fun g l => g.modThread l.tid (f l)) g).thread l.tid = f l (g.thread l.tid) := by
  induction ls generalizing g with
  | nil => cases hl
  | cons a ls ih =>
    have hd' := List.pairwise_cons.1 hd
    rw [List.foldl_cons]
    rcases List.mem_cons.1 hl with x | x
    · subst x
      rw [foldl_modThread_other _ _ _ _ fun m hm e => hd'.1 m hm (h m (List.mem_cons_of_mem _ hm) e).symm, Workgroup.modThread_thread, if_pos rfl]
    · rw [ih _ x hd'.2 fun m hm => h m (List.mem_cons_of_mem _ hm), Workgroup.modThread_thread, if_neg]
      intro e
      exact hd'.1 l x (h a List.mem_cons_self e.symm)

theorem Distinct.ne {set : List Lane} (h : Distinct set) : set.Pairwise (fun a b => a ≠ b) :=
  h.2.imp fun hab e => hab (by rw [e])

/-- The threads of a warp after it has gone on. -/
theorem advance_threads (s : State) (e : Env) (len : Nat) (b : Bool) (hg : ((s.core e.c).wg e.ws).isSome) :
    ThreadsAt s (s.advance e len b) e len := by
  obtain ⟨g, hg⟩ := Option.isSome_iff_exists.1 hg
  constructor
  · intro l hl
    rw [State.advance, endIssue_thread, eachThread_thread, if_pos rfl, hg, Option.map_some, Option.getD_some,
      foldl_modThread_idem g e.lanes (fun t : Thread => { t with pc := pc48 (e.pc + BitVec.ofNat 64 len), watched := false, capture := none })
        (fun _ => rfl) _ ⟨l, hl, rfl⟩, thread_def, hg]; rfl
  · intro ws tid h
    rw [State.advance, endIssue_thread, eachThread_thread]
    split
    · next x =>
      subst x
      rcases h with h | h
      · exact absurd rfl h
      · rw [hg, Option.map_some, Option.getD_some, foldl_modThread_other _ _ _ _ h, thread_def, hg]; rfl
    · rfl

/-- The warp after it has gone on: its latches are as before, if it still stands. -/
theorem advance_warp (s : State) (e : Env) (len : Nat) (b : Bool) (w w' : Warp) (h : (s.core e.c).warp e.k = some w')
    (ht : ((s.advance e len b).core e.c).warp e.k = some w) : w.latches = w'.latches := by
  have h1 : ((s.eachThread e.c e.ws e.lanes fun _ t => { t with pc := pc48 (e.pc + BitVec.ofNat 64 len), watched := false, capture := none }).core
      e.c).warp e.k = some w' := by rw [State.eachThread, modWg_warp, h]
  unfold State.advance State.endIssue at ht
  generalize State.eachThread s e.c e.ws e.lanes _ = r at h1 ht
  have h2 : ((r.modCore e.c fun x => match x.warp e.k with
      | some w => x.setWarp e.k (some { w with run := e.w.run + 1, last := r.tick })
      | none => x).core e.c).warp e.k = some { w' with run := e.w.run + 1, last := r.tick } := by
    rw [State.modCore_core, if_pos rfl, h1]; simp [Core.warp, Core.setWarp]
  simp only at ht
  split at ht
  · exfalso
    unfold State.dissolve at ht
    split at ht
    · next x => rw [x] at ht; cases ht
    · split at ht
      · simp [Core.warp, Core.setWarp] at ht
      · simp [Core.warp, Core.setWarp, Core.setWg] at ht
  · cases h2.symm.trans ht; rfl

/-- What an instruction that writes registers leaves. -/
theorem result_spec {s : State} {e : Env} {set : List Lane} (h : EnvOf s e) (hd : Distinct set) (b len : Nat)
    (f : Lane → List (Nat × Word) × Word) (hf : ∀ l ∈ set, Writes (f l).1) : LaneDone s (s.result e set b len f) e set b len f := by
  obtain ⟨d1, d2, d3⟩ := deliver_same s e b (set.map (fun l => (l, f l)))
  obtain ⟨w0, hw0, hl0, hs0⟩ := h.warp
  have dw := deliver_warp s e b (set.map (fun l => (l, f l))) w0 hw0
  have a := advance_same (s.deliver e b (set.map (fun l => (l, f l)))) e len false fun w hw => by
    rw [dw] at hw; cases hw; exact hs0
  have hg : (((s.deliver e b (set.map (fun l => (l, f l)))).core e.c).wg e.ws).isSome := by
    obtain ⟨g, hg, _⟩ := d2.wg _ h.wg; simp [hg]
  have at_ := advance_threads (s.deliver e b (set.map (fun l => (l, f l)))) e len false hg
  have only := onlyCore_trans d1 a.only
  refine ⟨fun hw k lane hk hl => ?_, fun w hw j lane hl => ?_, ⟨fun l hl => ?_, fun ws tid h => ?_⟩, warpOnly_trans d2 a.rest, only,
    onlyCore_memKept only⟩
  · show SMap.get 0 (regKey hw k lane) ((State.advance _ _ _ _).core e.c).regs = _
    rw [a.regs, deliver_regs]
    exact foldl_lanes set f _ hk hl hd hf
  · rw [advance_warp _ e len false w _ dw hw]
    unfold latchAfter; rw [← hl0]
    exact latchesAfter_get b set f w0.latches hd j lane hl
  · exact (at_.1 l hl).trans (by rw [d3])
  · exact (at_.2 ws tid h).trans (d3 ws tid)

/-- What an instruction that writes a predicate leaves. -/
theorem predResult_spec {s : State} {e : Env} {set : List Lane} (h : EnvOf s e) (hs : set.Sublist e.lanes) (p : Nat) (f : Lane → Bool) :
    PredDone s (s.predResult e set p f) e set p f := by
  have hd := h.distinct.sublist hs
  let g0 : Lane → List (Nat × Word) × Word := fun l => ([], boolWord (f l))
  let s1 := s.deliver e 0 (set.map (fun l => (l, g0 l)))
  obtain ⟨d1, d2, d3⟩ := deliver_same s e 0 (set.map (fun l => (l, g0 l)))
  obtain ⟨w0, hw0, hl0, hs0⟩ := h.warp
  have dw := deliver_warp s e 0 (set.map (fun l => (l, g0 l))) w0 hw0
  let s2 := s1.eachThread e.c e.ws set fun l t => t.setPred p (f l)
  have b := eachThread_same s1 e.c e.k e.ws set fun l t => t.setPred p (f l)
  have bw : (s2.core e.c).warp e.k = some { w0 with latches := latchesAfter 0 (set.map (fun l => (l, g0 l))) w0.latches } := by
    rw [← dw]; exact modWg_warp _ _ _ _ _
  have a := advance_same s2 e 4 false fun w hw => by rw [bw] at hw; cases hw; exact hs0
  obtain ⟨g, hg, _⟩ := d2.wg _ h.wg
  obtain ⟨g', hg', _⟩ := b.rest.wg _ hg
  have at_ := advance_threads s2 e 4 false (by simp [s2, hg'])
  have only := onlyCore_trans d1 (onlyCore_trans b.only a.only)
  have regs0 : ∀ (ls : List Lane) (m : SMap Word), regsAfter (ls.map (fun l => (l, g0 l))) m = m := by
    intro ls; induction ls with
    | nil => intro m; rfl
    | cons x ls ih => intro m; exact ih m
  refine ⟨?_, fun w hw j lane hl => ?_, fun l hl one => ?_, fun ws tid ht => ?_, warpOnly_trans d2 (warpOnly_trans b.rest a.rest), only,
    onlyCore_memKept only⟩
  · exact a.regs.trans (b.regs.trans ((deliver_regs s e 0 _).trans (regs0 set _)))
  · rw [advance_warp _ e 4 false w _ bw hw]
    unfold latchAfter; rw [← hl0]
    exact latchesAfter_get 0 set g0 w0.latches hd j lane hl
  · refine (at_.1 l hl).trans ?_
    have : s2.thread e.c e.ws l.tid =
        if l ∈ set then (s.thread e.c e.ws l.tid).setPred p (f l) else s.thread e.c e.ws l.tid := by
      have d := d3 e.ws l.tid
      rw [thread_def, hg] at d
      show (s1.eachThread e.c e.ws set _).thread _ _ _ = _
      rw [eachThread_thread, if_pos rfl]
      show (((s1.core e.c).wg e.ws).map _).getD ({} : Thread) = _
      rw [hg, Option.map_some, Option.getD_some]
      split
      · next x => rw [foldl_modThread_one g set _ l x hd.ne fun m hm => one m (hs.subset hm), ← d]; rfl
      · next x =>
        rw [foldl_modThread_other _ _ _ _ fun m hm e => x ((one m (hs.subset hm) e) ▸ hm), ← d]; rfl
    rw [this]; rfl
  · refine (at_.2 ws tid ht).trans (.trans ?_ (d3 ws tid))
    show (s1.eachThread e.c e.ws set _).thread _ _ _ = _
    rw [eachThread_thread]
    split
    · next x =>
      subst x
      rcases ht with ht | ht
      · exact absurd rfl ht
      · rw [thread_def s1, show (s1.core e.c).wg e.ws = some g from hg, Option.map_some, Option.getD_some,
          foldl_modThread_other _ _ _ _ fun l hl => ht l (hs.subset hl)]; rfl
    · rfl

/-- What is in the pipes of the warp is no part of what an instruction leaves. -/
theorem FlightsOnly.laneDone {s s' t' t : State} {e : Env} {set : List Lane} {b len : Nat} {f : Lane → List (Nat × Word) × Word}
    (x : FlightsOnly s s' e.c e.k) (h : LaneDone s' t' e set b len f) (y : FlightsOnly t' t e.c e.k) : LaneDone s t e set b len f := by
  have sx : ∀ ws tid, s'.thread e.c ws tid = s.thread e.c ws tid := fun ws tid => thread_of_core (by rw [x.core]; rfl)
  have sy : ∀ ws tid, t.thread e.c ws tid = t'.thread e.c ws tid := fun ws tid => thread_of_core (by rw [y.core]; rfl)
  have only := onlyCore_trans x.only (onlyCore_trans h.only y.only)
  refine ⟨fun hw k lane hk hl => ?_, fun w hw j lane hl => ?_, ⟨fun l hl => ?_, fun ws tid ht => ?_⟩,
    warpOnly_trans (x.sameButWarps e.ws).rest (warpOnly_trans h.rest (y.sameButWarps e.ws).rest), only, onlyCore_memKept only⟩
  · have r := h.regs hw k lane hk hl
    rw [y.core]; unfold regAfter at r ⊢; rw [x.core] at r; exact r
  · obtain ⟨v, hv, ev⟩ := y.warp w hw
    rw [ev]; exact h.latch v hv j lane hl
  · rw [sy, h.threads.1 l hl, sx]
  · rw [sy, h.threads.2 ws tid ht, sx]

/-- See `FlightsOnly.laneDone`. -/
theorem FlightsOnly.predDone {s s' t' t : State} {e : Env} {set : List Lane} {p : Nat} {f : Lane → Bool}
    (x : FlightsOnly s s' e.c e.k) (h : PredDone s' t' e set p f) (y : FlightsOnly t' t e.c e.k) : PredDone s t e set p f := by
  have sx : ∀ ws tid, s'.thread e.c ws tid = s.thread e.c ws tid := fun ws tid => thread_of_core (by rw [x.core]; rfl)
  have sy : ∀ ws tid, t.thread e.c ws tid = t'.thread e.c ws tid := fun ws tid => thread_of_core (by rw [y.core]; rfl)
  have only := onlyCore_trans x.only (onlyCore_trans h.only y.only)
  refine ⟨?_, fun w hw j lane hl => ?_, fun l hl one => ?_, fun ws tid ht => ?_,
    warpOnly_trans (x.sameButWarps e.ws).rest (warpOnly_trans h.rest (y.sameButWarps e.ws).rest), only, onlyCore_memKept only⟩
  · have r := h.regs
    rw [x.core] at r; rw [y.core]; exact r
  · obtain ⟨v, hv, ev⟩ := y.warp w hw
    rw [ev]; exact h.latch v hv j lane hl
  · rw [sy, h.threads l hl one, sx]
  · rw [sy, h.others ws tid ht, sx]

/-- What a control-thread instruction that writes a register leaves. -/
theorem resultCt_spec {s : State} {e : CEnv} (h : s.cenv e.c = e) (len d : Nat) (v : DWord) : CtDone s (s.resultCt e len d v) e len d v := by
  have r : e.r = (s.core e.c).ct.cur := by rw [← h]; rfl
  have only : OnlyCore s (s.resultCt e len d v) e.c :=
    onlyCore_trans (t := s.modCt e.c (·.setReg d v)) (onlyCore_modCore s e.c _)
      (by unfold State.resultCt State.advanceCt; exact onlyCore_modCore _ e.c _)
  refine ⟨?_, only, onlyCore_memKept only⟩
  unfold State.resultCt State.advanceCt
  rw [State.modCore_core, if_pos rfl, State.modCt_core, if_pos rfl, r]

end Sys2Proof.Machine
end

