-- ==== Sys2Proof/Laws/Wake.lean ====
section
/-! SUPPORT. What waking the threads of a core that wait at a park leaves (`State.wakeWhere`), where every one of them is resident. -/

namespace Sys2Proof.Machine

open Sys2Proof.Claims

/-- An entry of a map in canonical form is what its key reads as, and no default. -/
theorem SMap.mem_wf {α : Type} [DecidableEq α] {d : α} {m : SMap α} (h : SMap.wf d m = true) (k : Nat) (v : α) :
    (k, v) ∈ m ↔ SMap.get d k m = v ∧ v ≠ d := by
  rw [SMap.wf_iff] at h
  obtain ⟨r, n⟩ := h
  have key : ∀ {m : SMap α} {lo : Nat}, SMap.risingFrom lo m = true → (∀ q ∈ m, q.2 ≠ d) → (∀ q ∈ m, lo ≤ q.1) ∧
      ((k, v) ∈ m ↔ SMap.get d k m = v ∧ v ≠ d) := by
    intro m
    induction m with
    | nil => intro lo _ _; exact ⟨fun _ h => (by cases h), by simpa using fun h => h.symm⟩
    | cons p m ih =>
      intro lo r n
      simp only [SMap.risingFrom, Bool.and_eq_true, decide_eq_true_eq] at r
      obtain ⟨a, b⟩ := ih r.2 fun q hq => n q (List.mem_cons_of_mem _ hq)
      refine ⟨fun q hq => ?_, ?_⟩
      · rcases List.mem_cons.1 hq with e | e
        · subst e; exact r.1
        · have := a q e; omega
      · rw [List.mem_cons, SMap.get_cons]
        by_cases e : p.1 = k
        · subst e
          rw [if_pos rfl]
          have : (p.1, v) ∉ m := fun x => by have := a _ x; simp at this
          simp only [this, or_false]
          constructor
          · intro x; exact ⟨by rw [← x], fun y => n p List.mem_cons_self (by rw [← x]; exact y)⟩
          · rintro ⟨x, _⟩; exact Prod.ext rfl x.symm
        · rw [if_neg e, ← b]
          have : (k, v) ≠ p := fun x => e (by rw [← x])
          simp [this]
  exact (key r n).2

/-- Of a core only threads and frontiers of workgroups differ, and the threads at the places listed differ by a change that, once made, stays. -/
structure Changed (s t : State) (c : Nat) (f : Thread → Thread) (l : List (Nat × Nat)) : Prop where
  only : OnlyCore s t c
  core : t.core c = { s.core c with wgs := (t.core c).wgs }
  wg : ∀ ws, ((t.core c).wg ws).map (·.state) = ((s.core c).wg ws).map (·.state)
  thread : ∀ ws tid, t.thread c ws tid = if (ws, tid) ∈ l then f (s.thread c ws tid) else s.thread c ws tid

theorem Changed.refl (s : State) (c : Nat) (f : Thread → Thread) : Changed s s c f [] := ⟨onlyCore_refl s c, rfl, fun _ => rfl, fun _ _ => rfl⟩

theorem Changed.trans {s t r : State} {c : Nat} {f : Thread → Thread} (hf : ∀ x, f (f x) = f x) {l m : List (Nat × Nat)}
    (a : Changed s t c f l) (b : Changed t r c f m) : Changed s r c f (l ++ m) := by
  refine ⟨onlyCore_trans a.only b.only, by rw [b.core, a.core], fun ws => (b.wg ws).trans (a.wg ws), fun ws tid => ?_⟩
  rw [b.thread, a.thread]
  by_cases x : (ws, tid) ∈ l <;> by_cases y : (ws, tid) ∈ m <;> simp [x, y, hf]

/-- A change of one thread of a workgroup, which may enter its frontier. -/
theorem changed_modWg (s : State) (c ws tid : Nat) (f : Thread → Thread) (k : Workgroup → Workgroup) (hg : ((s.core c).wg ws).isSome)
    (hs : ∀ g, (k g).state = g.state) (ht : ∀ g j, (k g).thread j = if j = tid then f (g.thread j) else g.thread j) :
    Changed s (s.modWg c ws k) c f [(ws, tid)] := by
  obtain ⟨g, hg⟩ := Option.isSome_iff_exists.1 hg
  refine ⟨onlyCore_modCore _ _ _, ?_, fun w => ?_, fun w j => ?_⟩
  · simp only [State.modWg_core, if_true, hg]; rfl
  · simp only [State.modWg_core, if_true, hg]
    by_cases e : w = ws
    · subst e; simp [Core.wg, Core.setWg] at *; rw [hg]; simp [hs]
    · simp [Core.wg, Core.setWg, e]
  · rw [modWg_thread]
    by_cases e : w = ws
    · subst e
      rw [if_pos rfl, hg, Option.map_some, Option.getD_some, ht, thread_def, hg]
      simp
    · simp [e]

/-- A thread whose wait is tried again, or is over. -/
def wokenAs (mark : Bool) (x : Thread) : Thread :=
  { x with park := .none, woken := false, capture := if mark then some { pc := x.pc, words := [] } else x.capture }

theorem wakes_changed (s : State) (c ws tid : Nat) (mark : Bool) (g : Workgroup) (hg : (s.core c).wg ws = some g) (hr : g.state = .resident) :
    Changed s (if mark then s.wakeDone c ws tid else s.wake c ws tid) c (wokenAs mark) [(ws, tid)] := by
  have wake : ∀ (s : State) (g : Workgroup), (s.core c).wg ws = some g → g.state = .resident →
      Changed s (s.wake c ws tid) c (wokenAs false) [(ws, tid)] := by
    intro s g hg hr
    have a := changed_modWg s c ws tid (wokenAs false) (·.modThread tid fun t => { t with park := .none, woken := false }) (by simp [hg])
      (fun _ => rfl) (fun g j => by rw [Workgroup.modThread_thread]; split <;> simp_all [wokenAs])
    have h1 : ((s.modThread c ws tid fun t => { t with park := .none, woken := false }).core c).wg ws =
        some (g.modThread tid fun t => { t with park := .none, woken := false }) := by
      unfold State.modThread
      simp only [State.modWg_core, if_true, hg]; simp [Core.wg, Core.setWg]
    have b := changed_modWg (s.modThread c ws tid fun t => { t with park := .none, woken := false }) c ws tid id
      (fun g => (s.modThread c ws tid fun t => { t with park := .none, woken := false }).enter g tid) (by simp [h1]) (fun _ => rfl)
      (fun g j => by rw [enter_thread]; simp)
    have e : s.wake c ws tid = ((s.modThread c ws tid fun t => { t with park := .none, woken := false }).toFrontier c ws tid) := by
      unfold State.wake; simp [hg, hr]
    rw [e]
    obtain ⟨w', ac⟩ : ∃ w', (s.modThread c ws tid fun t => { t with park := .none, woken := false }).core c = { s.core c with wgs := w' } := ⟨_, a.core⟩
    refine ⟨onlyCore_trans a.only b.only, b.core.trans (by rw [ac]; rfl), fun w => (b.wg w).trans (a.wg w), fun w j => ?_⟩
    exact (b.thread w j).trans (by simp only [id, ite_self]; exact a.thread w j)
  cases mark with
  | false => simpa using wake s g hg hr
  | true =>
    have a := changed_modWg s c ws tid (fun t => { t with capture := some { pc := t.pc, words := [] } })
      (·.modThread tid fun t => { t with capture := some { pc := t.pc, words := [] } }) (by simp [hg])
      (fun _ => rfl) (fun g j => by rw [Workgroup.modThread_thread]; split <;> simp_all)
    have h1 : ((s.modThread c ws tid fun t => { t with capture := some { pc := t.pc, words := [] } }).core c).wg ws =
        some (g.modThread tid fun t => { t with capture := some { pc := t.pc, words := [] } }) := by
      unfold State.modThread
      simp only [State.modWg_core, if_true, hg]; simp [Core.wg, Core.setWg]
    have b := wake _ _ h1 hr
    simp only [if_true]
    obtain ⟨w', ac⟩ : ∃ w', (s.modThread c ws tid fun t => { t with capture := some { pc := t.pc, words := [] } }).core c = { s.core c with wgs := w' } := ⟨_, a.core⟩
    refine ⟨onlyCore_trans a.only b.only, b.core.trans (by rw [ac]; rfl), fun w => (b.wg w).trans (a.wg w), fun w j => ?_⟩
    refine (b.thread w j).trans ?_
    show (if _ then wokenAs false ((s.modWg _ _ _).thread _ _ _) else (s.modWg _ _ _).thread _ _ _) = _
    rw [a.thread]
    by_cases x : (w, j) = (ws, tid) <;> simp [x, wokenAs]

theorem wakes_foldl (c : Nat) (mark : Bool) : ∀ (l : List (Nat × Nat)) (s : State),
    (∀ p ∈ l, ∃ g, (s.core c).wg p.1 = some g ∧ g.state = .resident) →
    Changed s (l.foldl (fun s w => if mark then s.wakeDone c w.1 w.2 else s.wake c w.1 w.2) s) c (wokenAs mark) l := by
  intro l
  induction l with
  | nil => intro s _; exact .refl s c _
  | cons p l ih =>
    intro s h
    obtain ⟨g, hg, hr⟩ := h p List.mem_cons_self
    have a := wakes_changed s c p.1 p.2 mark g hg hr
    have b := ih (if mark then s.wakeDone c p.1 p.2 else s.wake c p.1 p.2) fun q hq => by
      obtain ⟨g', hg', hr'⟩ := h q (List.mem_cons_of_mem _ hq)
      have := a.wg q.1
      rw [hg', Option.map_some, Option.map_eq_some_iff] at this
      obtain ⟨g'', h1, h2⟩ := this
      exact ⟨g'', h1, h2.trans hr'⟩
    rw [List.foldl_cons]
    exact a.trans (fun x => by cases mark <;> simp [wokenAs]) b

/-- The threads of a core whose park a test picks. -/
def waiting (y : Core) (p : Park → Bool) : List (Nat × Nat) :=
  y.wgs.flatMap (fun kv => match kv.2 with
    | some g => (g.threads.filter (fun t => t.2.live && p t.2.park)).map (fun t => (kv.1, t.1))
    | none => [])

theorem mem_waiting {s : State} {c : Nat} {p : Park → Bool} (h : noneAway s c p) (ws tid : Nat) :
    (ws, tid) ∈ waiting (s.core c) p ↔ (s.thread c ws tid).live = true ∧ p (s.thread c ws tid).park = true := by
  unfold waiting
  rw [List.mem_flatMap, thread_def]
  constructor
  · rintro ⟨⟨k, v⟩, hk, hm⟩
    cases v with
    | none => cases hm
    | some g =>
      obtain ⟨⟨j, t⟩, ht, e⟩ := List.mem_map.1 hm
      cases e
      have hg : (s.core c).wg k = some g := ((SMap.mem_wf h.1 _ _).1 hk).1
      rw [List.mem_filter, Bool.and_eq_true] at ht
      have e : g.thread j = t := ((SMap.mem_wf (h.2 k g hg).1 _ _).1 ht.1).1
      rw [hg, Option.map_some, Option.getD_some, e]; exact ht.2
  · intro x
    cases hg : (s.core c).wg ws with
    | none => rw [hg] at x; simp at x
    | some g =>
      rw [hg, Option.map_some, Option.getD_some] at x
      refine ⟨(ws, some g), (SMap.mem_wf h.1 _ _).2 ⟨hg, by simp⟩, List.mem_map.2 ⟨(tid, g.thread tid), List.mem_filter.2 ⟨?_, ?_⟩, rfl⟩⟩
      · refine (SMap.mem_wf (h.2 ws g hg).1 _ _).2 ⟨rfl, fun e => ?_⟩
        rw [e] at x; simp at x
      · simpa using x

/-- Waking the threads of a core that wait at a park, of whom none is trapped or evicted, where its control thread does not. -/
theorem wakeWhere_spec {s : State} {c : Nat} {p : Park → Bool} (mark : Bool) (h : noneAway s c p) (hc : p (s.core c).ct.cur.park = false) :
    OnlyCore s (s.wakeWhere c p mark) c ∧ (s.wakeWhere c p mark).core c = { s.core c with wgs := ((s.wakeWhere c p mark).core c).wgs } ∧
    ∀ ws tid, (s.wakeWhere c p mark).thread c ws tid = leftPark p mark (s.thread c ws tid) := by
  have a := wakes_foldl c mark (waiting (s.core c) p) s fun q hq => by
    have w := (mem_waiting h q.1 q.2).1 hq
    rw [thread_def] at w
    cases hg : (s.core c).wg q.1 with
    | none => rw [hg] at w; simp at w
    | some g =>
      rw [hg, Option.map_some, Option.getD_some] at w
      refine ⟨g, rfl, ?_⟩
      by_contra hr
      have := (h.2 q.1 g hg).2 hr q.2 w.1
      rw [this] at w; exact absurd w.2 (by simp)
  have e : s.wakeWhere c p mark = (waiting (s.core c) p).foldl (fun s w => if mark then s.wakeDone c w.1 w.2 else s.wake c w.1 w.2) s := by
    unfold State.wakeWhere
    show (if p ((List.foldl _ s (waiting (s.core c) p)).core c).ct.cur.park then _ else _) = _
    rw [if_neg]
    · rfl
    · rw [a.core]; simp [hc]
  rw [e]
  refine ⟨a.only, a.core, fun ws tid => ?_⟩
  rw [a.thread]
  unfold leftPark
  by_cases x : (ws, tid) ∈ waiting (s.core c) p
  · have w := (mem_waiting h ws tid).1 x
    rw [if_pos x, if_pos (by simp [w])]; rfl
  · rw [if_neg x, if_neg]
    intro y; rw [Bool.and_eq_true] at y
    exact x ((mem_waiting h ws tid).2 y)

end Sys2Proof.Machine
end

