-- ==== Sys2Proof/Laws/Shapes.lean ====
section
/-! SUPPORT. The shapes of instructions: what `issue` of a register, predicate or flag result completes with, and the integer operations on
numbers. -/

namespace Sys2Proof.Machine

open Sys2Proof.Claims

/-! ### Shapes -/

theorem writes_nil : Writes [] := ⟨fun _ h => (by cases h), List.Pairwise.nil⟩

theorem writes_oneReg (n : BitVec 1) (d : BitVec 6) (v : Word) : Writes (oneReg n d v) := by
  unfold oneReg
  split
  · exact ⟨fun p h => by simp at h; subst h; exact d.isLt, by simp⟩
  · exact writes_nil

theorem writes_one (d : BitVec 6) (v : Word) : Writes [(d.toNat, v)] := writes_oneReg 0 d v

/-- A register result of the vector stream completes. -/
theorem result_of_ready {s : State} {e : Env} {i : Instr} {u : Uses} (h : readyVec s e i u = true) (b len : Nat)
    (f : Env → List Lane → Lane → List (Nat × Word) × Word) (ctl : CEnv → State → State)
    (hx : exec i s = .next (issue i u s (fun e set s => s.result e set b len (f e set)) ctl))
    (hf : ∀ l ∈ e.issueSet u.g, Writes (f e (e.issueSet u.g) l).1) :
    Completes i s (fun t => LaneDone s t e (e.issueSet u.g) b len (f e (e.issueSet u.g))) :=
  ⟨_, hx, by
    have x := settleFlights_only s e.c e.k u
    rw [issue_of_readyVec h]
    exact x.laneDone (result_spec ((envOf_ready h).settle x) ((envOf_ready h).distinct_set u.g) b len _ hf) (noteFlight_only _ e i _)⟩

/-- A predicate result of the vector stream completes. -/
theorem predResult_of_ready {s : State} {e : Env} {i : Instr} {u : Uses} (h : readyVec s e i u = true) (p : Nat)
    (f : Env → List Lane → Lane → Bool) (ctl : CEnv → State → State)
    (hx : exec i s = .next (issue i u s (fun e set s => s.predResult e set p (f e set)) ctl)) :
    Completes i s (fun t => PredDone s t e (e.issueSet u.g) p (f e (e.issueSet u.g))) :=
  ⟨_, hx, by
    have x := settleFlights_only s e.c e.k u
    rw [issue_of_readyVec h]
    exact x.predDone (predResult_spec ((envOf_ready h).settle x) List.filter_sublist p _) (noteFlight_only _ e i _)⟩

theorem cenv_ready {s : State} {e : CEnv} {i : Instr} {u : Uses} (h : readyCt s e i u = true) : s.cenv e.c = e := by
  simp only [readyCt, Bool.and_eq_true, beq_iff_eq] at h
  exact h.1.1.1.1.1.1.1.1.1.1.2

/-- A register result of the control stream completes. -/
theorem resultCt_of_ready {s : State} {e : CEnv} {i : Instr} {u : Uses} (h : readyCt s e i u = true) (len d : Nat) (v : CEnv → DWord)
    (vec : Env → List Lane → State → State) (hx : exec i s = .next (issue i u s vec (fun e s => s.resultCt e len d (v e)))) :
    Completes i s (fun t => CtDone s t e len d (v e)) :=
  ⟨_, hx, by rw [issue_of_readyCt h]; exact resultCt_spec (cenv_ready h) len d (v e)⟩

theorem advanceCt_core (s : State) (e : CEnv) (len : Nat) : (s.advanceCt e len).core e.c = { s.core e.c with ct := { (s.core e.c).ct with
    cur := { (s.core e.c).ct.cur with pc := pc48 (e.r.pc + BitVec.ofNat 64 len), grd := none, waited := false, watched := false, begun := true } } } := by
  unfold State.advanceCt; rw [State.modCore_core, if_pos rfl]

theorem advanceCt_only (s : State) (e : CEnv) (len : Nat) : OnlyCore s (s.advanceCt e len) e.c := onlyCore_modCore _ _ _

theorem setFlag_eq (x : Core) (k : Nat) (v : Bool) : x.setFlag k v = { x with flags := (x.setFlag k v).flags } := by
  unfold Core.setFlag; split <;> rfl

theorem setFlag_ct (x : Core) (k : Nat) (v : Bool) : (x.setFlag k v).ct = x.ct := by
  unfold Core.setFlag; split <;> rfl

/-- What a control-thread instruction that writes a flag leaves. -/
theorem flagResult_spec {s : State} {e : CEnv} (h : s.cenv e.c = e) (p : Nat) (v : Bool) (hp : e.r.park = .none)
    (ha : noneAway s e.c (Park.awaitsFlag p v)) : FlagDone s (s.flagResult e p v) e p v := by
  have r : e.r = (s.core e.c).ct.cur := by rw [← h]; rfl
  have c1 : (s.modCore e.c (·.setFlag p v)).core e.c = { s.core e.c with flags := ((s.core e.c).setFlag p v).flags } := by
    rw [State.modCore_core, if_pos rfl]; exact setFlag_eq _ _ _
  have away : noneAway (s.modCore e.c (·.setFlag p v)) e.c (Park.awaitsFlag p v) := by
    unfold noneAway Core.wg; rw [c1]; exact ha
  obtain ⟨w1, w2, w3⟩ := wakeWhere_spec true away (by rw [c1]; show Park.awaitsFlag p v (s.core e.c).ct.cur.park = false; rw [← r, hp]; rfl)
  have ac := advanceCt_core (s.writeFlag e.c p v) e 4
  have wc : (s.writeFlag e.c p v).core e.c = { s.core e.c with
      flags := ((s.core e.c).setFlag p v).flags, wgs := ((s.writeFlag e.c p v).core e.c).wgs } := w2.trans (by rw [c1]; rfl)
  have only : OnlyCore s (s.flagResult e p v) e.c :=
    onlyCore_trans (onlyCore_modCore s e.c _) (onlyCore_trans w1 (advanceCt_only _ _ _))
  have fc : (s.flagResult e p v).core e.c = _ := ac
  refine ⟨?_, ?_, fun ws tid => ?_, ?_, only, onlyCore_memKept only⟩
  · rw [fc, wc]
  · rw [fc, wc]; unfold ctNext; rw [r]
  · have : (s.flagResult e p v).thread e.c ws tid = (s.writeFlag e.c p v).thread e.c ws tid := thread_of_core (by rw [fc]; rfl)
    rw [this]
    refine (w3 ws tid).trans ?_
    rw [thread_of_core (s := s) (by rw [c1]; rfl)]
  · rw [fc, wc]

/-- A flag result of the control stream completes. -/
theorem flagResult_of_ready {s : State} {e : CEnv} {i : Instr} {u : Uses} (h : readyCt s e i u = true) (p : Nat) (v : CEnv → Bool)
    (vec : Env → List Lane → State → State) (hx : exec i s = .next (issue i u s vec (fun e s => s.flagResult e p (v e))))
    (ha : noneAway s e.c (Park.awaitsFlag p (v e))) : Completes i s (fun t => FlagDone s t e p (v e)) :=
  ⟨_, hx, by
    have hp : e.r.park = .none := by
      simp only [readyCt, Bool.and_eq_true, beq_iff_eq] at h
      exact h.1.1.1.1.1.1.1.2
    rw [issue_of_readyCt h]; exact flagResult_spec (cenv_ready h) p (v e) hp ha⟩

/-- An instruction of both streams that writes one register. -/
theorem oneRegister {s : State} {i : Instr} {u : Uses} {b len : Nat} {n : BitVec 1} {d : BitVec 6} {v v' : Env → Lane → Word}
    {w w' : CEnv → DWord} (hv : ∀ e l, v e l = v' e l) (hw : ∀ e, w e = w' e)
    (hx : exec i s = .next (issue i u s (fun e set s => s.result e set b len fun l => (oneReg n d (v' e l), v' e l))
      (fun e s => s.resultCt e len d.toNat (w' e)))) : OneRegister s i u b len n d v w := by
  have e1 : v = v' := funext fun e => funext fun l => hv e l
  have e2 : w = w' := funext hw
  subst e1; subst e2
  exact ⟨fun e h => result_of_ready h b len (fun e _ l => (oneReg n d (v e l), v e l)) _ hx fun l _ => writes_oneReg _ _ _,
    fun e h => resultCt_of_ready h len d.toNat w _ hx⟩

/-- An instruction of the vector stream that writes one register. -/
theorem oneLane {s : State} {i : Instr} {u : Uses} {b len : Nat} {n : BitVec 1} {d : BitVec 6} {v v' : Env → Lane → Word}
    (hv : ∀ e l, v e l = v' e l) (ctl : CEnv → State → State)
    (hx : exec i s = .next (issue i u s (fun e set s => s.result e set b len fun l => (oneReg n d (v' e l), v' e l)) ctl)) :
    OneLane s i u b len n d v := by
  have e1 : v = v' := funext fun e => funext fun l => hv e l
  subst e1
  exact fun e h => result_of_ready h b len (fun e _ l => (oneReg n d (v e l), v e l)) _ hx fun l _ => writes_oneReg _ _ _

/-- An instruction of both streams that writes one predicate or flag. -/
theorem oneBit {s : State} {i : Instr} {u : Uses} {n : BitVec 1} {p : BitVec 3} {v v' : Env → Lane → Bool} {w w' : CEnv → Bool}
    (hv : ∀ e l, v e l = v' e l) (hw : ∀ e, w e = w' e)
    (hx : exec i s = .next (issue i u s (fun e set s => s.predResult e set (if n = 0 then p.toNat else 0) (v' e))
      (fun e s => s.flagResult e p.toNat (w' e)))) : OneBit s i u n p v w := by
  have e1 : v = v' := funext fun e => funext fun l => hv e l
  have e2 : w = w' := funext hw
  subst e1; subst e2
  exact ⟨fun e h => predResult_of_ready h _ (fun e _ => v e) _ hx, fun e h ha => flagResult_of_ready h p.toNat w _ hx ha⟩

/-! ### The integer operations on numbers -/

theorem add_int {w : Nat} (a b : BitVec w) : a + b = BitVec.ofInt w (a.toInt + b.toInt) := by
  apply BitVec.eq_of_toInt_eq; simp [BitVec.toInt_add, BitVec.toInt_ofInt]

theorem sub_int {w : Nat} (a b : BitVec w) : a - b = BitVec.ofInt w (a.toInt - b.toInt) := by
  apply BitVec.eq_of_toInt_eq; simp [BitVec.toInt_sub, BitVec.toInt_ofInt]

theorem mul_int {w : Nat} (a b : BitVec w) : a * b = BitVec.ofInt w (a.toInt * b.toInt) := by
  apply BitVec.eq_of_toInt_eq; simp [BitVec.toInt_mul, BitVec.toInt_ofInt]

theorem shlOp_nat {w : Nat} (a b : BitVec w) : shlOp a b = BitVec.ofNat w (a.toNat * 2 ^ (b.toNat % w)) := by
  apply BitVec.eq_of_toNat_eq; simp [shlOp, Nat.shiftLeft_eq]

theorem shrOp_nat {w : Nat} (a b : BitVec w) : shrOp a b = BitVec.ofNat w (a.toNat / 2 ^ (b.toNat % w)) := by
  apply BitVec.eq_of_toNat_eq
  have : a.toNat / 2 ^ (b.toNat % w) < 2 ^ w := lt_of_le_of_lt (Nat.div_le_self _ _) a.isLt
  simp [shrOp, Nat.shiftRight_eq_div_pow, Nat.mod_eq_of_lt this]

theorem sarOp_int {w : Nat} (a b : BitVec w) : sarOp a b = BitVec.ofInt w (a.toInt / 2 ^ (b.toNat % w)) := by
  simp [sarOp, BitVec.sshiftRight, Int.shiftRight_eq_div_pow]

theorem minS_int {w : Nat} (a b : BitVec w) : minS a b = if a.toInt ≤ b.toInt then a else b := by
  unfold minS; rw [BitVec.slt_eq_decide]; simp only [decide_eq_true_eq]
  split <;> split
  · rfl
  · omega
  · exact (BitVec.eq_of_toInt_eq (by omega)).symm
  · rfl

theorem maxS_int {w : Nat} (a b : BitVec w) : maxS a b = if a.toInt ≤ b.toInt then b else a := by
  unfold maxS; rw [BitVec.slt_eq_decide]; simp only [decide_eq_true_eq]
  split <;> split
  · rfl
  · omega
  · exact BitVec.eq_of_toInt_eq (by omega)
  · rfl

theorem minU_nat {w : Nat} (a b : BitVec w) : minU a b = if a.toNat ≤ b.toNat then a else b := by
  unfold minU; rw [BitVec.ult_eq_decide]; simp only [decide_eq_true_eq]
  split <;> split
  · rfl
  · omega
  · exact (BitVec.eq_of_toNat_eq (by omega)).symm
  · rfl

theorem maxU_nat {w : Nat} (a b : BitVec w) : maxU a b = if a.toNat ≤ b.toNat then b else a := by
  unfold maxU; rw [BitVec.ult_eq_decide]; simp only [decide_eq_true_eq]
  split <;> split
  · rfl
  · omega
  · exact BitVec.eq_of_toNat_eq (by omega)
  · rfl

theorem mulhiU_nat {w : Nat} (a b : BitVec w) : mulhiU a b = BitVec.ofNat w (a.toNat * b.toNat / 2 ^ w) := by
  apply BitVec.eq_of_toNat_eq
  have ha := a.isLt; have hb := b.isLt
  have h : a.toNat * b.toNat < 2 ^ (2 * w) := by
    rw [two_mul, pow_add]; exact Nat.mul_lt_mul'' ha hb
  have e1 : a.toNat % 2 ^ (2 * w) = a.toNat := Nat.mod_eq_of_lt (lt_of_lt_of_le ha (Nat.pow_le_pow_right (by decide) (by omega)))
  have e2 : b.toNat % 2 ^ (2 * w) = b.toNat := Nat.mod_eq_of_lt (lt_of_lt_of_le hb (Nat.pow_le_pow_right (by decide) (by omega)))
  simp [mulhiU, e1, e2, Nat.mod_eq_of_lt h, Nat.shiftRight_eq_div_pow]

theorem mulhiS_int {w : Nat} (a b : BitVec w) : mulhiS a b = BitVec.ofInt w (a.toInt * b.toInt / 2 ^ w) := by
  have k : a.signExtend (2 * w) * b.signExtend (2 * w) = BitVec.ofInt (2 * w) (a.toInt * b.toInt) := by
    rw [mul_int, BitVec.toInt_signExtend_of_le (by omega), BitVec.toInt_signExtend_of_le (by omega)]
  unfold mulhiS
  rw [k]
  apply BitVec.eq_of_toNat_eq
  rw [BitVec.toNat_setWidth, BitVec.toNat_ushiftRight, Nat.shiftRight_eq_div_pow]
  zify
  rw [BitVec.toNat_ofInt, BitVec.toNat_ofInt, Int.toNat_of_nonneg (Int.emod_nonneg _ (by positivity)),
    Int.toNat_of_nonneg (Int.emod_nonneg _ (by positivity))]
  push_cast
  rw [two_mul, pow_add]
  have h0 : (0 : Int) < 2 ^ w := by positivity
  generalize (2 : Int) ^ w = p at h0
  generalize a.toInt * b.toInt = x
  rw [Int.emod_def x (p * p), sub_eq_add_neg, show -(p * p * (x / (p * p))) = p * -(p * (x / (p * p))) by ring,
    Int.add_mul_ediv_left _ _ h0.ne', show x / p + -(p * (x / (p * p))) = x / p + p * -(x / (p * p)) by ring, Int.add_mul_emod_self_left]

theorem rotlOp_nat {w : Nat} (hw : 0 < w) (a b : BitVec w) :
    rotlOp a b = BitVec.ofNat w (a.toNat * 2 ^ (b.toNat % w) + a.toNat / 2 ^ (w - b.toNat % w)) := by
  have hk : b.toNat % w < w := Nat.mod_lt _ hw
  unfold rotlOp rotl
  generalize b.toNat % w = k at hk
  apply BitVec.eq_of_toNat_eq
  rw [BitVec.toNat_rotateLeft, Nat.mod_eq_of_lt hk, BitVec.toNat_ofNat, Nat.shiftRight_eq_div_pow, Nat.shiftLeft_eq]
  have h1 : a.toNat / 2 ^ (w - k) < 2 ^ k := by
    rw [Nat.div_lt_iff_lt_mul (by positivity), ← pow_add]
    exact lt_of_lt_of_eq a.isLt (by congr 1; omega)
  have h2 : a.toNat * 2 ^ k % 2 ^ w = a.toNat % 2 ^ (w - k) * 2 ^ k := by
    have : 2 ^ w = 2 ^ (w - k) * 2 ^ k := by rw [← pow_add]; congr 1; omega
    rw [this, Nat.mul_mod_mul_right]
  have h3 : a.toNat % 2 ^ (w - k) * 2 ^ k + a.toNat / 2 ^ (w - k) < 2 ^ w := by
    have : 2 ^ w = 2 ^ (w - k) * 2 ^ k := by rw [← pow_add]; congr 1; omega
    have m := Nat.mod_lt a.toNat (show 0 < 2 ^ (w - k) by positivity)
    rw [this]
    have := Nat.mul_le_mul_right (2 ^ k) (show a.toNat % 2 ^ (w - k) + 1 ≤ 2 ^ (w - k) from m)
    rw [Nat.add_mul, one_mul] at this
    omega
  rw [h2, Nat.add_mod, h2, Nat.mod_eq_of_lt (a := a.toNat / 2 ^ (w - k)) (lt_of_lt_of_le h1 (Nat.pow_le_pow_right (by decide) hk.le)),
    Nat.mod_eq_of_lt h3, mul_comm (a.toNat % 2 ^ (w - k)), ← Nat.two_pow_add_eq_or_of_lt h1]

theorem fieldOf_eq {w : Nat} (b : BitVec w) : fieldOf b = fieldAt b := by
  unfold fieldOf fieldAt bitsOf
  rw [Nat.shiftRight_eq_div_pow]
  split <;> rfl

theorem bfeU_nat {w : Nat} (a b : BitVec w) : bfeU a b = BitVec.ofNat w (a.toNat / 2 ^ (fieldAt b).1 % 2 ^ (fieldAt b).2) := by
  show zextLow (a >>> (fieldOf b).1) (fieldOf b).2 = _
  rw [fieldOf_eq, zextLow]
  apply BitVec.eq_of_toNat_eq
  simp [Nat.shiftRight_eq_div_pow]

theorem bfeS_int {w : Nat} (a b : BitVec w) :
    bfeS a b = BitVec.ofInt w (BitVec.ofNat (fieldAt b).2 (a.toNat / 2 ^ (fieldAt b).1)).toInt := by
  show sextLow (a >>> (fieldOf b).1) (fieldOf b).2 = _
  rw [fieldOf_eq, sextLow, BitVec.signExtend]
  congr 2
  apply BitVec.eq_of_toNat_eq
  simp [Nat.shiftRight_eq_div_pow]

theorem bfiOp_nat {w : Nat} (d a b : BitVec w) : bfiOp d a b =
    let m := (2 ^ (fieldAt b).2 - 1) * 2 ^ (fieldAt b).1
    (d &&& ~~~BitVec.ofNat w m) ||| (BitVec.ofNat w (a.toNat * 2 ^ (fieldAt b).1) &&& BitVec.ofNat w m) := by
  simp only [bfiOp, fieldOf_eq]
  congr 2
  apply BitVec.eq_of_toNat_eq
  simp [Nat.shiftLeft_eq]

theorem not_int {w : Nat} (a : BitVec w) : ~~~a = BitVec.ofInt w (-1 - a.toInt) := by
  have one : (1#w) = BitVec.ofInt w 1 := (BitVec.ofInt_ofNat w 1).symm
  have neg : -a = BitVec.ofInt w (-a.toInt) := by
    apply BitVec.eq_of_toInt_eq; simp [BitVec.toInt_neg, BitVec.toInt_ofInt]
  rw [BitVec.not_eq_neg_add, one, neg]
  apply BitVec.eq_of_toInt_eq
  rw [BitVec.toInt_sub]
  simp only [BitVec.toInt_ofInt, Int.bmod_sub_bmod, Int.sub_bmod_bmod]
  congr 1; ring

theorem neg_int {w : Nat} (a : BitVec w) : -a = BitVec.ofInt w (-a.toInt) := by
  apply BitVec.eq_of_toInt_eq; simp [BitVec.toInt_neg, BitVec.toInt_ofInt]

theorem absOp_int {w : Nat} (a : BitVec w) : absOp a = BitVec.ofInt w (if 0 ≤ a.toInt then a.toInt else -a.toInt) := by
  unfold absOp
  by_cases h : a.msb = true
  · have : a.toInt < 0 := by rw [BitVec.msb_eq_toInt] at h; simpa using h
    rw [if_pos h, if_neg (by omega), neg_int]
  · have : ¬ a.toInt < 0 := by rw [BitVec.msb_eq_toInt] at h; simpa using h
    rw [if_neg h, if_pos (by omega), BitVec.ofInt_toInt]

theorem popc_count {w : Nat} (a : BitVec w) : popc a = ((List.range w).filter (fun i => a.getLsbD i)).length := by
  rw [popc, List.countP_eq_length_filter]

theorem takeWhile_congr {α : Type} (l : List α) (p q : α → Bool) (h : ∀ x ∈ l, p x = q x) : l.takeWhile p = l.takeWhile q := by
  induction l with
  | nil => rfl
  | cons a l ih =>
    simp only [List.takeWhile_cons, h a List.mem_cons_self, ih fun x hx => h x (List.mem_cons_of_mem _ hx)]

theorem clz_msb {w : Nat} (a : BitVec w) : clz a = ((List.range w).takeWhile (fun i => a.getMsbD i == false)).length := by
  unfold clz
  rw [takeWhile_congr _ _ (fun i => a.getMsbD i == false)]
  intro i hi
  have : i < w := by simpa using hi
  simp [BitVec.getMsbD, this]

theorem ctz_lsb {w : Nat} (a : BitVec w) : ctz a = ((List.range w).takeWhile (fun i => a.getLsbD i == false)).length := by
  unfold ctz
  rw [takeWhile_congr _ _ (fun i => a.getLsbD i == false)]
  intro i _; simp

theorem sextLow_int {w : Nat} (a : BitVec w) (n : Nat) : sextLow a n = BitVec.ofInt w (BitVec.ofNat n a.toNat).toInt := by
  unfold sextLow BitVec.signExtend
  rw [show BitVec.setWidth n a = BitVec.ofNat n a.toNat from BitVec.eq_of_toNat_eq (by simp)]

theorem zextLow_nat {w : Nat} (a : BitVec w) (n : Nat) : zextLow a n = BitVec.ofNat w (a.toNat % 2 ^ n) := by
  apply BitVec.eq_of_toNat_eq; simp [zextLow]

theorem intCond_signed {w : Nat} (c : Nat) (a b : BitVec w) : intCond true c a b = intHolds c a.toInt b.toInt := by
  have e : (a == b) = decide (a.toInt = b.toInt) := by
    rw [Bool.eq_iff_iff, beq_iff_eq, decide_eq_true_eq, BitVec.toInt_inj]
  simp only [intCond, intHolds, bne, e, BitVec.slt_eq_decide, if_true]
  split <;> rw [Bool.eq_iff_iff] <;> simp <;> omega

theorem intCond_unsigned {w : Nat} (c : Nat) (a b : BitVec w) : intCond false c a b = intHolds c a.toNat b.toNat := by
  have e : (a == b) = decide ((a.toNat : Int) = b.toNat) := by
    rw [Bool.eq_iff_iff, beq_iff_eq, decide_eq_true_eq, Nat.cast_inj, BitVec.toNat_inj]
  simp only [intCond, intHolds, bne, e, BitVec.ult_eq_decide, if_false, Bool.false_eq_true]
  split <;> rw [Bool.eq_iff_iff] <;> simp <;> omega

end Sys2Proof.Machine
end

