-- ==== Sys2Proof/Tests/Slice0.lean ====
section
/-! SUPPORT. Tests: ill-formed terms that the checks refuse, words of the spec that decode, single steps on small states, and for each
statement states that meet its hypotheses. -/

namespace Sys2Proof.Tests

open Sys2Proof Sys2Proof.Machine Sys2Proof.Claims

set_option maxRecDepth 100000
set_option Elab.async false

/-! ### Small states -/

/-- A formed warp of one thread of core 0 moves, in context 1. Its registers v2:v3 hold the address of the mapped page, and v5 is 7. -/
def vs : State := ({ State.reset.withIssuer.withCodePage with issuer := some (.vec 0 0) }).modCore 0 fun y =>
  { y with regs := [(64, 0x10000), (160, 7)] }

/-- The control thread of core 0 moves, in supervisor mode; s2 holds the address of the mapped page, and s5 is 7. -/
def cs : State := ({ State.reset.withIssuer.withCodePage with issuer := some (.ct 0) }).modCore 0 fun y =>
  { y with ct := { y.ct with cur := { y.ct.cur with s := [(2, 0x10000), (5, 7)] } } }

/-- The control thread of core 0 moves in user mode. -/
def us : State := cs.modCore 0 fun y => { y with ct := { y.ct with cur := { y.ct.cur with super := false } } }

def ve : Env := (vs.env 0 0).getD default

def ce : CEnv := cs.cenv 0

def ue : CEnv := us.cenv 0

/-- The only lane of the warp. -/
def l0 : Lane := { lane := 0, tid := 0, hw := 0 }


/-! ### Ill-formed terms, one for each check -/

theorem test_wf_codes : codeOk .vec 76 = false ∧ codeOk .vec 75 = true ∧ codeOk .ctl 64 = false ∧ codeOk .ctl 68 = true ∧ pairCodeOk .vec 75 = false ∧
    pairCodeOk .ctl 75 = true := by decide +kernel

theorem test_wf_registers : regOk .ctl 32 = false ∧ regCodeOk 32 = false ∧ nwOk .ctl 1 = false ∧ baseOk .ctl 16 = false ∧ pairRegOk .vec 63 = false ∧
    pairRegOk .ctl 32 = false := by decide +kernel

theorem test_wf_scopes : scopeIn 6 1 5 = false ∧ meetOk 2 8 = false ∧ meetOk 1 15 = true ∧ meetOk 0 0 = false ∧ meetOk 6 0 = false ∧ meetOk 5 4 = false := by
  decide +kernel

theorem test_wf_data : laneCodeOk 64 = false ∧ laneCodeOk 74 = false ∧ dataCodeOk .vec 64 false = false ∧ dataCodeOk .ctl 31 true = false ∧
    dataCodeOk .ctl 31 false = true ∧ wideOk .ctl 31 = false := by decide +kernel

theorem test_wf_cursors : cursorOk .vec 62 = false ∧ cursorOk .ctl 30 = false ∧ bnextDestOk .vec 5 0 4 = false ∧ bnextDestOk .vec 5 0 3 = true ∧
    bnextDestOk .vec 5 1 4 = true ∧ bnextDestOk .ctl 5 0 7 = false ∧ hpushOk 7 = false ∧ hpushOk 255 = true := by decide +kernel

theorem test_wf_forms : HForm.ok .ctl ⟨28, 0⟩ = false ∧ RForm.ok .vec ⟨0, 76, 0, 0, 0⟩ = false ∧ CmpForm.ok .ctl ⟨0, 0, 1, 0, 1, 0⟩ = false ∧
    UForm.ok .ctl ⟨0, 0, 32, 0⟩ = false ∧ LdForm.ok .vec ⟨0, 0, 2, 0, 0⟩ = false ∧ LdForm.ok .vec ⟨0, 0, 0, 6, 0⟩ = false ∧
    LdForm.ok .ctl ⟨0, 0, 0, 6, 0⟩ = true ∧ StForm.ok .vec ⟨0, 0, 2, 1⟩ = false ∧ RedForm.ok .vec ⟨0, 0, 8, 0, 0, 0⟩ = false ∧
    RedForm.ok .vec ⟨0, 0, 12, 0, 0, 1⟩ = false := by decide +kernel

/-- The field rules of single instructions (R58, R62, R99, R112, R118, R132, R185, R213, R219, R253, R269, R272, R324). -/
theorem test_wf_instructions : (∀ i ∈ [Instr.cmpI32 ⟨0, 0, 0, 6, 1, 0⟩, .rdid 6 0 0 0, .cvtF16F32 ⟨5, 0, 0, 0, 0⟩, .atomW32 ⟨0, 0, 14, 0, 0, 0⟩,
      .atomW64 ⟨0, 0, 12, 0, 0, 0⟩, .ldsp 0 3 0, .stsp 0 0 3, .fence 0 0, .acqSteal 5 0 0, .prefetch 3 0 0, .wbspan 2 0 0 0, .cp ⟨0, 0, 0, 0, 2⟩,
      .cpg ⟨0, 0, 0, 0, 2⟩, .bput ⟨0, 64, 0, 0, 0⟩, .bput ⟨0, 0, 0, 0, 5⟩, .mld ⟨0, 0, 0, 0, 3⟩, .ade 0 0 0 2, .coll ⟨0, 0, 0, 4, 0⟩,
      .coll ⟨0, 0, 0, 2, 1⟩, .waitu ⟨0, 0, 0, 0, 0, 0⟩, .hpush ⟨0, 7, 0, 0, 0⟩, .qrv 0 63 0, .unassignedEncoding 0, .qsend 0 0, .halt 0],
      Instr.wf .vec i = false) ∧
    ∀ i ∈ [Instr.addF32 ⟨0, 0, 0, 0, 0⟩, .lget ⟨0, 0, 0, 0, 0⟩, .ctRdid 3 0 0, .tret 3 0 0 0, .dgrd 2 68 0 0, .dgrd 1 0 0 0, .launch 32 0 0,
      .bmake 32 0 0, .rdtick 0 0 0, .fset 0 0 0, .wqenter 0 0, .hpop 0, .ldW128 ⟨0, 0, 0, 0, 31⟩, .unassignedEncoding 0], Instr.wf .ctl i = false := by
  decide +kernel

/-! ### Words and results that the spec works out -/

/-- The worked encodings of the chapters on encoding, lane operations, memory and queues. -/
theorem test_worked_words_1 : ∀ p ∈ ([(0x0128_0031, .mov ⟨74, 0, 0, 0⟩), (0xFFE2_CB3B, .addi 0x7FF 11 11), (0xE310_2831, .rdtickHi 0 5 0),
    (0xC208_1883, .lgetX ⟨97, 2, 0, 3, 0⟩), (0x9027_00A3, .stW32 ⟨72, 2, 3, 4⟩), (0x6035_0895, .ldW32 ⟨3, 3, 2, 4, 8⟩), (0x0011_08A9, .ldsp 4 1 8),
    (0x1414_00AB, .stsp 10 5 0), (0x9020_48AD, .atomW32 ⟨72, 2, 0, 0, 1, 8⟩), (0x1220_80B1, .red ⟨9, 2, 0, 1, 0, 0⟩), (0x0910_00B3, .fence 4 0),
    (0x2010_30B3, .pgreq 4 6 0), (0x0A10_20C1, .cp ⟨5, 4, 0, 1, 0⟩), (0x0C1C_80C3, .cpg ⟨6, 7, 2, 0, 0⟩), (0x0000_20C7, .qpop 0 0 4 0), (0x1000_00C7, .qrel 0 0),
    (0x308E_00C7, .cwait ⟨0, 2, 3, 1, 0, 0⟩), (0x320A_00C7, .cwait ⟨1, 0, 2, 1, 0, 0⟩)] : List (Word × Instr)), decode32 p.1 = .ok p.2 := by decide +kernel

/-- The worked encodings of the chapters on bags, effects and the control thread, and of the worked programs. -/
theorem test_worked_words_2 : ∀ p ∈ ([(0x1030_09C9, .bput ⟨8, 12, 0, 1, 1⟩), (0x8C30_C9C9, .bput ⟨70, 12, 3, 1, 1⟩), (0x0008_18CB, .bcount 2 0 3 0),
    (0x2000_A0CB, .biter 0 0 20 0), (0x3050_80CB, .bnext 20 0 16 0), (0x4040_48CB, .bdrain 16 0 9 0), (0x5004_48CB, .bgrow 1 9 0),
    (0x0020_51ED, .perform ⟨0, 8, 0, 10, 1⟩), (0x10A0_00ED, .hpush ⟨0, 40, 0, 0, 0⟩), (0x2110_00ED, .hpop 0), (0x3111_F8ED, .resume 68 63 0),
    (0x4025_F8ED, .resumeM 9 63 0), (0x5111_F8ED, .abandon 63 0), (0x0F10_18F9, .grd 3 0), (0x0A24_18F9, .gset 9 3 0), (0x0420_00F9, .ctFset 8 0),
    (0x1018_10F9, .launch 6 2 0), (0x1214_30F9, .tdset 5 6 0), (0x1910_38F9, .ctRdtick 7 0), (0x1A00_18F9, .ctRdid 0 3 0), (0x1020_80F5, .coll ⟨8, 8, 2, 0, 0⟩),
    (0x7034_6853, .cvtF32N32 ⟨0, 13, 0, 13, 0⟩), (0x8834_7067, .sincosF32 ⟨13, 0, 14, 0⟩), (0x3020_4053, .cvtF32Bf16 ⟨0, 8, 0, 8, 0⟩),
    (0x1680_38F9, .meetinit 2 0 7 0), (0x0000_C0D3, .mzero 3 0 0), (0x0400_40D9, .mscan 2 1 0), (0x0614_C1D1, .mmx ⟨3, 5, 3, 0, 0, 1⟩),
    (0x0C01_00D5, .mld ⟨6, 4, 0, 0, 0⟩)] : List (Word × Instr)), decode32 p.1 = .ok p.2 := by decide +kernel

/-- The thread with v2 = 0xABCD1234, v9 and v4. -/
def r60 (v9 v4 : Word) : State := vs.modCore 0 fun y => { y with regs := [(64, 0xABCD1234), (128, v4), (288, v9)] }

/-- Register k of the thread after an instruction. -/
def regOf (o : Host.Outcome State Fault Refusal) (k : Nat) : Option Word :=
  match o with
  | .next t => some ((t.core 0).reg 0 k 0)
  | _ => none

/-- R60: the examples of `bfe.n32`, `bfe.i32` and `bfi`. -/
theorem test_bit_fields : regOf (exec (.bfeN32 ⟨9, 2, 0, 3, 0⟩) (r60 0x804 0)) 3 = some 0x23 ∧
    regOf (exec (.bfeI32 ⟨9, 2, 0, 3, 0⟩) (r60 0x80C 0)) 3 = some 0xFFFFFFD1 ∧
    regOf (exec (.bfi ⟨9, 4, 0, 2, 0⟩) (r60 0x804 0x5A)) 2 = some 0xABCD15A4 := by decide +kernel

/-- Source code 5, v5, holds a pattern. -/
def v5is (w : Word) : State := vs.modCore 0 fun y => { y with regs := [(160, w)] }

/-- R226, R253: the table of conversions, rounding .ne, .z, .up, .dn and .satne. -/
theorem test_conversions :
    (span 0 5).map (fun r => regOf (exec (.cvtI32F32 ⟨BitVec.ofNat 3 r, 5, 0, 3, 0⟩) (v5is 0x40200000)) 3) = [some 2, some 2, some 3, some 2, some 2] ∧
    (span 0 5).map (fun r => regOf (exec (.cvtI32F32 ⟨BitVec.ofNat 3 r, 5, 0, 3, 0⟩) (v5is 0xC0200000)) 3) =
      [some 0xFFFFFFFE, some 0xFFFFFFFE, some 0xFFFFFFFE, some 0xFFFFFFFD, some 0xFFFFFFFE] ∧
    (span 0 5).map (fun r => regOf (exec (.cvtBf16F32 ⟨BitVec.ofNat 3 r, 5, 0, 3, 0⟩) (v5is 0x3F808000)) 3) =
      [some 0x3F80, some 0x3F80, some 0x3F81, some 0x3F80, some 0x3F80] ∧
    (span 0 5).map (fun r => regOf (exec (.cvtBf16F32 ⟨BitVec.ofNat 3 r, 5, 0, 3, 0⟩) (v5is 0x3F818000)) 3) =
      [some 0x3F82, some 0x3F81, some 0x3F82, some 0x3F81, some 0x3F82] := by decide +kernel

/-- The other rows: 3.0e9, -0.7 and 70,000. -/
theorem test_conversions_saturate :
    (span 0 5).map (fun r => regOf (exec (.cvtI32F32 ⟨BitVec.ofNat 3 r, 5, 0, 3, 0⟩) (v5is 0x4F32D05E)) 3) = List.replicate 5 (some 0x7FFFFFFF) ∧
    (span 0 5).map (fun r => regOf (exec (.cvtN32F32 ⟨BitVec.ofNat 3 r, 5, 0, 3, 0⟩) (v5is 0xBF333333)) 3) = List.replicate 5 (some 0) ∧
    (span 0 5).map (fun r => regOf (exec (.cvtF16F32 ⟨BitVec.ofNat 3 r, 5, 0, 3, 0⟩) (v5is 0x4788B800)) 3) =
      [some 0x7C00, some 0x7BFF, some 0x7C00, some 0x7BFF, some 0x7BFF] := by decide +kernel

/-- R239: 1 + 2^24 - 2^24 - 1.875 is rounded once, to -0.875. -/
theorem test_one_rounding : Fmt.f32.sumNe [Fmt.f32.unpack 0x3F800000, FVal.mul (Fmt.bf16.unpack 0x4B80) (Fmt.f32.unpack 0x3F800000),
    FVal.mul (Fmt.bf16.unpack 0xCB80) (Fmt.f32.unpack 0x3F800000), FVal.mul (Fmt.bf16.unpack 0x4040) (Fmt.f32.unpack 0xBF200000)] = 0xBF600000 := by decide +kernel

/-- R30, R31: the worked address of v10 at home lane 3 of home-warp slot 7 of core 13 of die 5. -/
theorem test_window : windowSlot (0xF000015A8E50C - onchipBase) = (5 * 32 + 13, 0x80000 + ((7 * 64 + 10) * 32 + 3) * 4) := by decide +kernel

/-- R310: the worked hash of 0x0000_4000_2480 in context 1. -/
theorem test_hash : anchorHash 16 1 0x40002480 = 0x75FD := by decide +kernel

/-- R308: the worked entry: context 1, generation 5, a small page that is owned and valid, and may be read and written. -/
theorem test_entry : IEntry.ofWords 0x4000 0x00100050 0xFFFFFFC0 0x903 =
    { vpage := 0x4000, ctx := 1, gen := 5, next := noFrame, owned := true, retired := false, compute := false, valid := true, large := false, perm := 3 } := by
  decide +kernel

/-- R73: the worked physical address lies on stack 2, in slice 1. -/
theorem test_home : placeOf 0x1800012480 = .hbm 2 ∧ homeSlice 0x1800012480 = 1 := by decide +kernel

/-- R18, R22: of threads 3, 5, 35, 40 and 67 the first formed warp takes 3, 5 and 40. -/
theorem test_forming : (takeLanes (maskOf [3, 5, 35, 40, 67])).filterMap (·.2) = [3, 5, 40] ∧
    (takeLanes (maskOf [35, 67])).filterMap (·.2) = [35] ∧ (takeLanes (maskOf [67])).filterMap (·.2) = [67] := by decide +kernel

/-! ### Words written from the encodings of the spec (R37-R41, R49-R52): each field at a value of its own -/

/-- R37, R38: the 16-bit forms. -/
theorem test_words_half : ∀ p ∈ ([
    (0x5FA0, .mov16 ⟨11, 61⟩), (0x2B42, .addI3216 ⟨5, 26⟩), (0xA884, .subI3216 ⟨21, 4⟩), (0x1EA6, .mulI3216 ⟨3, 53⟩), (0x90E8, .and16 ⟨18, 7⟩),
    (0x64CA, .or16 ⟨12, 38⟩), (0x176C, .xor16 ⟨2, 59⟩), (0x89CE, .shl16 ⟨17, 14⟩), (0x10D0, .shrN3216 ⟨2, 6⟩), (0x7372, .shrI3216 ⟨14, 27⟩),
    (0x1A14, .addF3216 ⟨3, 16⟩), (0x1C96, .subF3216 ⟨3, 36⟩), (0x7098, .mulF3216 ⟨14, 4⟩), (0xDCBA, .minF3216 ⟨27, 37⟩),
    (0x27BC, .maxF3216 ⟨4, 61⟩), (0x453E, .addi16 8 41)] : List (Half × Instr)), decode16 p.1 = .ok p.2 := by decide +kernel

/-- R40: words of R56, R57, R59. -/
theorem test_words_1 : ∀ p ∈ ([
    (0xA32FE901, .addI32 ⟨81, 75, 1, 61, 1⟩), (0x952ED103, .subI32 ⟨74, 75, 1, 26, 1⟩), (0xFA761D05, .mulI32 ⟨125, 29, 1, 3, 5⟩),
    (0xDC4A9C07, .mulhiI32 ⟨110, 18, 1, 19, 4⟩), (0x271A4509, .mulhiN32 ⟨19, 70, 1, 8, 5⟩), (0x5123AE0B, .madI32 ⟨40, 72, 1, 53, 6⟩),
    (0x303B350D, .minI32 ⟨24, 14, 1, 38, 5⟩), (0xA466C10F, .maxI32 ⟨82, 25, 1, 24, 1⟩), (0x8F722D11, .minN32 ⟨71, 92, 1, 5, 5⟩),
    (0x11427413, .maxN32 ⟨8, 80, 1, 14, 4⟩), (0xB116E715, .and ⟨88, 69, 1, 28, 7⟩), (0x52F33417, .or ⟨41, 60, 1, 38, 4⟩),
    (0x5E9E8719, .xor ⟨47, 39, 1, 16, 7⟩), (0x316B921B, .andn ⟨24, 90, 1, 50, 2⟩), (0x172AA51D, .shl ⟨11, 74, 1, 20, 5⟩),
    (0x81C6B61F, .shrN32 ⟨64, 113, 1, 22, 6⟩), (0x74973921, .shrI32 ⟨58, 37, 1, 39, 1⟩), (0x210ADA23, .rotl ⟨16, 66, 1, 27, 2⟩),
    (0xC2B25425, .add64 ⟨97, 44, 1, 10, 4⟩), (0x6C1BF627, .sub64 ⟨54, 6, 1, 62, 6⟩), (0x158B2529, .mad64 ⟨10, 98, 1, 36, 5⟩),
    (0xCDC7AB2B, .sel ⟨102, 113, 1, 53, 3⟩)] : List (Word × Instr)), decode32 p.1 = .ok p.2 := by decide +kernel

/-- R40: words of R58, R60, R62, R63, R64. -/
theorem test_words_2 : ∀ p ∈ ([
    (0x5966EC2D, .cmpI32 ⟨44, 89, 1, 3, 5, 4⟩), (0x979F0F2F, .cmpN32 ⟨75, 103, 1, 4, 1, 7⟩), (0x0033EB31, .mov ⟨12, 1, 61, 3⟩),
    (0x10F76E31, .not ⟨61, 1, 45, 6⟩), (0x20262631, .neg ⟨9, 1, 4, 6⟩), (0x316AA631, .abs ⟨90, 1, 20, 6⟩), (0x412B6731, .popc ⟨74, 1, 44, 7⟩),
    (0x50EA9E31, .clz ⟨58, 1, 19, 6⟩), (0x60CBCE31, .ctz ⟨50, 1, 57, 6⟩), (0x70B61431, .brev ⟨45, 1, 2, 4⟩),
    (0x80BA5D31, .sextW8 ⟨46, 1, 11, 5⟩), (0x903F0131, .sextW16 ⟨15, 1, 32, 1⟩), (0xA0739331, .zextW8 ⟨28, 1, 50, 3⟩),
    (0xB0478231, .zextW16 ⟨17, 1, 48, 2⟩), (0xC112D431, .pget 1 26 4), (0xD1D80731, .pset 118 7), (0xE1130131, .rdtick 1 32 1),
    (0xE3125C31, .rdtickHi 1 11 4), (0xF9132331, .rdid 4 1 36 3), (0xE44BAC33, .bfeI32 ⟨114, 18, 1, 53, 4⟩),
    (0xDF1E9635, .bfeN32 ⟨111, 71, 1, 18, 6⟩), (0x6DFEBE37, .bfi ⟨54, 127, 1, 23, 6⟩)] : List (Word × Instr)), decode32 p.1 = .ok p.2 := by decide +kernel

/-- R40: words of R61, R65, R242, R243, R245, R249. -/
theorem test_words_3 : ∀ p ∈ ([
    (0x028A1139, .pand ⟨1, 4, 2, 1, 2, 1⟩), (0x124A1639, .por ⟨1, 2, 2, 1, 2, 6⟩), (0x22462739, .pxor ⟨1, 2, 1, 1, 4, 7⟩),
    (0x32AA1B39, .pandn ⟨1, 5, 2, 1, 3, 3⟩), (0x42061439, .pnot ⟨1, 1, 1, 2, 4⟩), (0x52161D39, .pmov ⟨1, 5, 1, 3, 5⟩),
    (0x910A7D3B, .addi 1160 41 61), (0x2056773D, .andi 258 89 55), (0x83F83D3F, .ldi 33784 61), (0x9E1BAA3F, .ldiHi 40475 42),
    (0xAF7E2441, .addF32 ⟨87, 95, 1, 4, 4⟩), (0xE9C39743, .subF32 ⟨116, 112, 1, 50, 7⟩), (0xB19F2445, .mulF32 ⟨88, 103, 1, 36, 4⟩),
    (0x66D2D147, .fmaF32 ⟨51, 52, 1, 26, 1⟩), (0x7D4AD149, .minF32 ⟨62, 82, 1, 26, 1⟩), (0x3226744B, .maxF32 ⟨25, 9, 1, 14, 4⟩),
    (0x2A3EB54D, .divF32 ⟨21, 15, 1, 22, 5⟩), (0x0E3A6A4F, .cmpF32 ⟨7, 14, 1, 1, 5, 2⟩), (0x01163B51, .negF32 ⟨69, 1, 7, 3⟩),
    (0x113E1151, .absF32 ⟨79, 1, 2, 1⟩), (0x21C27551, .rintNeF32 ⟨112, 1, 14, 5⟩), (0x30C65651, .rintZF32 ⟨49, 1, 10, 6⟩)] : List (Word × Instr)), decode32 p.1 = .ok p.2 := by decide +kernel

/-- R40: words of R249, R250, R251, R253. -/
theorem test_words_4 : ∀ p ∈ ([
    (0x4087F351, .rintUpF32 ⟨33, 1, 62, 3⟩), (0x513AC451, .rintDnF32 ⟨78, 1, 24, 4⟩), (0x60424751, .rcpF32 ⟨16, 1, 8, 7⟩),
    (0x70FFFC51, .rsqrtF32 ⟨63, 1, 63, 4⟩), (0x80FAFB51, .sqrtF32 ⟨62, 1, 31, 3⟩), (0x902E5151, .exp2F32 ⟨11, 1, 10, 1⟩),
    (0xA182B651, .log2F32 ⟨96, 1, 22, 6⟩), (0xB08AFF51, .sinF32 ⟨34, 1, 31, 7⟩), (0xC1665D51, .cosF32 ⟨89, 1, 11, 5⟩),
    (0xD00E7551, .sinpiF32 ⟨3, 1, 14, 5⟩), (0xE0BE5651, .cospiF32 ⟨47, 1, 10, 6⟩), (0xF11BD951, .fclassF32 ⟨70, 1, 59, 1⟩),
    (0x0F12A653, .cvtF16F32 ⟨7, 68, 1, 20, 6⟩), (0x1E336F53, .cvtBf16F32 ⟨7, 12, 1, 45, 7⟩), (0x270EC253, .cvtF32F16 ⟨3, 67, 1, 24, 2⟩),
    (0x378E7D53, .cvtF32Bf16 ⟨3, 99, 1, 15, 5⟩), (0x4B930B53, .cvtI32F32 ⟨5, 100, 1, 33, 3⟩), (0x5C774753, .cvtN32F32 ⟨6, 29, 1, 40, 7⟩),
    (0x6FFF8F53, .cvtF32I32 ⟨7, 127, 1, 49, 7⟩), (0x75A28753, .cvtF32N32 ⟨2, 104, 1, 16, 7⟩), (0x897FA253, .cvtI8F32 ⟨4, 95, 1, 52, 2⟩),
    (0x950F0353, .cvtF32I8 ⟨2, 67, 1, 32, 3⟩)] : List (Word × Instr)), decode32 p.1 = .ok p.2 := by decide +kernel

/-- R40: words of R68, R246, R247, R248, R252, R253, R254. -/
theorem test_words_5 : ∀ p ∈ ([
    (0xAC121753, .cvtI8I32 ⟨6, 4, 1, 2, 7⟩), (0xB6F68A53, .cvtBf16F16 ⟨3, 61, 1, 17, 2⟩), (0xCD3BF353, .cvtF16Bf16 ⟨6, 78, 1, 62, 3⟩),
    (0x75A3E655, .addH2 ⟨58, 104, 1, 60, 6⟩), (0xFEB7F357, .mulH2 ⟨127, 45, 1, 62, 3⟩), (0x16763A59, .fmaH2 ⟨11, 29, 1, 7, 2⟩),
    (0x7A6AB25B, .addBh2 ⟨61, 26, 1, 22, 2⟩), (0x7D43D55D, .mulBh2 ⟨62, 80, 1, 58, 5⟩), (0xD806FE5F, .fmaBh2 ⟨108, 1, 1, 31, 6⟩),
    (0x5B9F5161, .dot2Bh ⟨45, 103, 1, 42, 1⟩), (0xD7564463, .dot2H ⟨107, 85, 1, 8, 4⟩), (0xCB738A65, .scaleF32 ⟨101, 92, 1, 49, 2⟩),
    (0x88FBCA67, .sincosF32 ⟨62, 1, 57, 2⟩), (0x76AE3769, .dsdecDs8 ⟨7, 3, 43, 1, 6, 7⟩), (0xCCF2D669, .dsdecDs4 ⟨12, 2, 60, 1, 26, 6⟩),
    (0x21765A6B, .dsencDs8 ⟨2, 93, 1, 11, 2⟩), (0x3812556B, .dsencDs4 ⟨3, 4, 1, 10, 5⟩), (0xE8F3A681, .lget ⟨116, 60, 1, 52, 6⟩),
    (0x273FAD83, .lgetX ⟨19, 79, 1, 53, 5⟩), (0xFCF75B85, .lgetSub ⟨126, 61, 1, 43, 3⟩), (0x291F2287, .lgetAdd ⟨20, 71, 1, 36, 2⟩),
    (0x060BA689, .swp ⟨3, 2, 1, 52, 6⟩)] : List (Word × Instr)), decode32 p.1 = .ok p.2 := by decide +kernel

/-- R40: words of R68, R69, R91, R92, R97, R102. -/
theorem test_words_6 : ∀ p ∈ ([
    (0x001A0D8B, .pollAny 6 1 1 5), (0x101A148B, .pollAll 6 1 2 4), (0x201E6F8B, .pollMask 7 1 13 7), (0x30023A8B, .pollFirst 1 7 2),
    (0x40128A8B, .pollSame ⟨4, 1, 17, 2⟩), (0x500F0A8B, .pollCount 3 1 33 2), (0xC532AB8D, .bcast ⟨98, 76, 1, 21, 3⟩),
    (0xA0EE8491, .ldW8 ⟨5, 14, 7, 2, 4⟩), (0xC0C9A693, .ldW16 ⟨6, 12, 4, 6, 38⟩), (0xE1DB3595, .ldW32 ⟨7, 29, 5, 4, 53⟩),
    (0xA05AA297, .ldW64 ⟨5, 5, 5, 2, 34⟩), (0xA01F3299, .ldW128 ⟨5, 1, 7, 4, 50⟩), (0x4143F49B, .ldX8 ⟨2, 20, 1, 7, 52⟩),
    (0x4065289D, .ldX16 ⟨2, 6, 2, 4, 40⟩), (0xBA4A409F, .stW8 ⟨93, 4, 5, 1⟩), (0x556B40A1, .stW16 ⟨42, 22, 5, 5⟩),
    (0x910FC0A3, .stW32 ⟨72, 16, 7, 7⟩), (0x1DDA40A5, .stW64 ⟨14, 29, 5, 1⟩), (0x407640A7, .stW128 ⟨32, 7, 3, 1⟩), (0x018D21A9, .ldsp 99 1 33),
    (0x752100AB, .stsp 58 72 1), (0xC5DFC5AD, .atomW32 ⟨98, 29, 15, 1, 1, 5⟩)] : List (Word × Instr)), decode32 p.1 = .ok p.2 := by decide +kernel

/-- R40: words of R100, R102, R104, R105, R106, R107, R108, R112, R119, R120, R121, R122, R133. -/
theorem test_words_7 : ∀ p ∈ ([
    (0x72BAFFAF, .atomW64 ⟨57, 11, 10, 1, 1, 63⟩), (0x8349C1B1, .red ⟨65, 20, 9, 1, 1, 1⟩), (0x051006B3, .fence 2 6),
    (0x16E805B3, .acqSteal 3 58 5), (0x2115A4B3, .pgreq 69 52 4), (0x3BE402B3, .prefetch 5 121 2), (0x4D0DCBB3, .wbspan 6 67 57 3),
    (0x51DD22B3, .invspan 119 36 2), (0xD8E8EEC1, .cp ⟨108, 58, 3, 1, 14⟩), (0x20CE2BC3, .cpg ⟨16, 51, 8, 1, 11⟩), (0x155900C5, .cpm 10 86 4),
    (0x001E2AC7, .qpop 7 1 5 2), (0x102C03C7, .qrel 11 3), (0x203647C7, .qstat 13 1 8 7), (0x32B356C7, .cwait ⟨1, 2, 12, 1, 42, 6⟩),
    (0x40CE8AC7, .ctest ⟨3, 3, 1, 17, 2⟩), (0x502002C7, .cclr 8 2), (0x626001C7, .fset 1 24 1), (0x723404C7, .fwait 1 13 4),
    (0x81125EC7, .qrv 1 11 6), (0x91AC7AC7, .qsv 107 15 2), (0xB6E263C9, .bput ⟨91, 56, 9, 4, 3⟩)] : List (Word × Instr)), decode32 p.1 = .ok p.2 := by decide +kernel

/-- R40: words of R136, R137, R138, R141, R142, R174, R176, R179, R268, R270, R271. -/
theorem test_words_8 : ∀ p ∈ ([
    (0x001E6BCB, .bcount 7 1 13 3), (0x101A36CB, .bshare 6 1 6 6), (0x201A13CB, .biter 6 1 2 3), (0x311EF4CB, .bnext 71 1 30 4),
    (0x416E14CB, .bdrain 91 1 2 4), (0x501915CB, .bgrow 6 34 5), (0x4D0895D1, .mmx ⟨38, 66, 2, 1, 1, 1⟩), (0x0000A8D3, .mzero 2 2 2),
    (0x0C03D9D3, .mzeroBias ⟨6, 15, 1, 2⟩), (0xC200EED5, .mld ⟨97, 3, 2, 3, 2⟩), (0x6800FCD7, .mst ⟨52, 3, 3, 3⟩), (0x94020CD9, .mscan 74 8 3),
    (0x53B979E1, .bra 685871 1), (0x4770A9E3, .call 585237 1), (0x019C06E5, .jmpi 103 6), (0x106004E5, .calli 24 4), (0x211001E5, .ret 1),
    (0x311003E5, .exit 3), (0x411001E5, .yield 1), (0x511006E5, .nop 6), (0x603007E5, .trap 12 7), (0x711003E5, .brk 3)] : List (Word × Instr)), decode32 p.1 = .ok p.2 := by decide +kernel

/-- R40: words of R182, R185, R192, R193, R198, R199, R200, R203, R204, R210, R219, R275, R282, R283. -/
theorem test_words_9 : ∀ p ∈ ([
    (0x022BBAE7, .meetPost 1 10 1 55 2), (0x1215C1E7, .meetAwait 1 5 56 1), (0x280403E7, .meetJoin 4 1 3),
    (0x8EE751E9, .waitu ⟨71, 14, 3, 5, 2, 1⟩), (0x002406EB, .wqenter 9 6), (0x1089FAEB, .wqwait 2 2 63 2), (0x201401EB, .wqleave 5 1),
    (0x046BE3ED, .perform ⟨2, 26, 1, 60, 3⟩), (0x1346A5ED, .hpush ⟨1, 81, 1, 20, 5⟩), (0x211007ED, .hpop 7), (0x306C9CED, .resume 27 19 4),
    (0x410562ED, .resumeM 65 44 2), (0x511093ED, .abandon 18 3), (0xCE0D41F1, .ade 103 3 5 1), (0x000401F3, .dload 1 1),
    (0x103005F3, .drun 12 5), (0x8FF916F5, .coll ⟨71, 126, 4, 5, 2⟩), (0x008004F9, .qsend 32 4), (0x03103EF9, .qrecv 7 6),
    (0x046C06F9, .ctFset 27 6), (0x063806F9, .fclr 14 6), (0x08400DF9, .ctFwait 16 1 5)] : List (Word × Instr)), decode32 p.1 = .ok p.2 := by decide +kernel

/-- R40: words of R211, R213, R214, R215, R216, R217, R218, R294, R335, R336, R337, R338, R339, R340. -/
theorem test_words_10 : ∀ p ∈ ([
    (0x0BAC7CF9, .gset 107 15 4), (0x0D104BF9, .gclr 9 3), (0x0F1062F9, .grd 12 2), (0x11F87BF9, .launch 126 15 3), (0x1269B6F9, .tdset 26 54 6),
    (0x14314AF9, .qinit 12 41 2), (0x1719F9F9, .meetinit 4 6 63 1), (0x1911B2F9, .ctRdtick 54 2), (0x1A042EF9, .ctRdid 1 5 6),
    (0x1D7DCBF9, .bmake 95 57 3), (0x1EE059F9, .bseal 56 11 1), (0x202D5FF9, .bfree 11 43 7), (0x09C10EFB, .tret 4 112 33 6),
    (0x1111FBFB, .cxsave 63 3), (0x213486FB, .cxload 77 16 6), (0x311099FB, .genset 19 1), (0x40EC62FB, .xinv 59 12 2),
    (0x508CE9FB, .rdsr 35 29 1), (0x6288C3FB, .wrsr 1 34 24 3), (0x71F523FB, .tickstop 125 36 3), (0x8415F3FB, .dgrd 2 5 62 3),
    (0x911002FB, .halt 2)] : List (Word × Instr)), decode32 p.1 = .ok p.2 := by decide +kernel

/-! ### States with a launch, a bag, a save area and a second core -/

/-- Stage 0 of the launch: effect 32 stands first in its table, handler 0 goes to entry + 64, leaves at entry + 96, and keeps v1. -/
def stage0 : StageInfo :=
  { entry := 0x10000, prologue := 0x10100, first := 0, n := 1, link := 0, lidx := 0, effects := [32, 33], handlers := [(32, 48, 2)], prios := [] }

/-- The launch that the workgroup belongs to: its slot 0 binds the bag at 0x20000. -/
def launch0 : Launch :=
  { (default : Launch) with index := 0, state := .placed, nregs := 64, warps := 1, bank := none, count := 1, args := 0x10800, stages := [stage0],
                            place := [(0, 0, 0)], bags := [0x20000], placedN := 1, detMode := 0, path := 0, trace := false }

/-- A work bag of two shares of 8-byte records. -/
def bag0 : Bag :=
  { ctx := 1, header := 0x20000, headerPa := 0x3000000, area := 0x30000, logb := 1, thresh := 4, size := 0, work := true, cap := 4, limit := 8,
    sharePas := [0x3010000, 0x3020000], workers := [] }

/-- The mapped page of code with its anchor, the 26 frames of the save area of logical core 0, owned by context 1 and unmapped, and the pointer to
the save area. -/
def richMem : Memory :=
  [(4096, 1), (4102, 16), (4104, 192), (4105, 255), (4106, 255), (4107, 255), (4108, 7), (4109, 9)] ++
  [(8198, 16), (8205, 8), (8214, 16), (8221, 8), (8230, 16), (8237, 8), (8246, 16), (8253, 8), (8262, 16), (8269, 8), (8278, 16), (8285, 8)] ++
  [(8294, 16), (8301, 8), (8310, 16), (8317, 8), (8326, 16), (8333, 8), (8342, 16), (8349, 8), (8358, 16), (8365, 8), (8374, 16), (8381, 8)] ++
  [(8390, 16), (8397, 8), (8406, 16), (8413, 8), (8422, 16), (8429, 8), (8438, 16), (8445, 8), (8454, 16), (8461, 8), (8470, 16), (8477, 8)] ++
  [(8486, 16), (8493, 8), (8502, 16), (8509, 8), (8518, 16), (8525, 8), (8534, 16), (8541, 8), (8550, 16), (8557, 8), (8566, 16), (8573, 8)] ++
  [(8582, 16), (8589, 8), (8598, 16), (8605, 8)] ++
  [(0x1008003, 2), (360789845901, 1)]

/-- Context 1 with a grid of four logical cores, the launch, the bag and the save area; logical core 1 is current on core 1. -/
def rich (s : State) : State :=
  let s := { s with mem := richMem, bags := [bag0] }
  let s := s.modCtx 1 fun x => { x with grid := 4, launches := [launch0], accepted := 1, sys := [(0x18, 0x1008000)] }
  s.modCore 1 fun y => { y with owner := some 1, lcore := some 1 }

/-- The warp's thread with its stack pointer in the mapped page. -/
def rv : State := (rich vs).modThread 0 0 0 fun t => { t with sp := 0x18000 }

/-- The control thread in a prologue of the launch, in user mode. -/
def ru : State := (rich us).modCore 0 fun y => { y with ct := { y.ct with cur := { y.ct.cur with run := .prologue 0 0 } } }

/-- The control thread in supervisor mode. -/
def rs : State := rich cs

def rve : Env := (rv.env 0 0).getD default

def rue : CEnv := ru.cenv 0

def rse : CEnv := rs.cenv 0

/-- A state with a changed core 0. -/
def w0 (s : State) (f : Core → Core) : State := s.modCore 0 f

/-! ### Hypotheses that hold: lane instructions -/

theorem test_halfwords_ready : (∀ p ∈ halfTable ⟨27, 63⟩, readyVec vs ve p.1 (HForm.uses ⟨27, 63⟩) = true) ∧
    (∀ p ∈ halfTable ⟨27, 31⟩, readyCt cs ce p.1 (HForm.uses ⟨27, 31⟩) = true) ∧
    (∀ p ∈ floatHalfTable ⟨27, 63⟩, readyVec vs ve p.1 (HForm.uses ⟨27, 63⟩) = true) := by decide +kernel

theorem test_addi16_ready : readyVec vs ve (.addi16 31 63) { regs := [63] } = true ∧ readyCt cs ce (.addi16 16 31) { regs := [31] } = true := by decide +kernel

theorem test_integers_ready : (∀ p ∈ twoTable ⟨5, 127, 0, 63, 0⟩, readyVec vs ve p.1 (RForm.uses ⟨5, 127, 0, 63, 0⟩) = true) ∧
    (∀ p ∈ twoTable ⟨80, 31, 0, 31, 0⟩, readyCt cs ce p.1 (RForm.uses ⟨80, 31, 0, 31, 0⟩) = true) ∧
    (∀ p ∈ threeTable ⟨5, 5, 0, 63, 0⟩, readyVec vs ve p.1 (RForm.uses3 ⟨5, 5, 0, 63, 0⟩) = true) ∧
    (∀ p ∈ threeTable ⟨5, 5, 0, 31, 0⟩, readyCt cs ce p.1 (RForm.uses3 ⟨5, 5, 0, 31, 0⟩) = true) ∧
    (∀ p ∈ oneTable ⟨5, 0, 63, 7⟩, readyVec vs ve p.1 (UForm.uses ⟨5, 0, 63, 7⟩) = true) ∧
    (∀ p ∈ oneTable ⟨5, 0, 31, 0⟩, readyCt cs ce p.1 (UForm.uses ⟨5, 0, 31, 0⟩) = true) := by decide +kernel

theorem test_pairs_ready : (∀ p ∈ pairTable ⟨74, 62, 0, 62, 0⟩, readyVec vs ve p.1 (RForm.usesPair ⟨74, 62, 0, 62, 0⟩ p.2.1) = true) ∧
    (∀ p ∈ pairTable ⟨5, 31, 0, 31, 0⟩, readyCt cs ce p.1 (RForm.usesPair ⟨5, 31, 0, 31, 0⟩ p.2.1) = true) := by decide +kernel

theorem test_select_and_immediates_ready :
    readyVec vs ve (.sel ⟨5, 5, 0, 63, 7⟩) { RForm.uses ⟨5, 5, 0, 63, 7⟩ with g := 0, preds := true } = true ∧
    readyCt cs ce (.sel ⟨5, 5, 0, 31, 7⟩) { RForm.uses ⟨5, 5, 0, 31, 7⟩ with g := 0, preds := true } = true ∧
    readyVec vs ve (.addi 0x400 63 63) { regs := [63, 63] } = true ∧ readyCt cs ce (.addi 0x400 31 31) { regs := [31, 31] } = true ∧
    readyVec vs ve (.andi 0x400 63 63) { regs := [63, 63] } = true ∧ readyCt cs ce (.andi 0x400 31 31) { regs := [31, 31] } = true ∧
    readyVec vs ve (.ldi 0x8000 63) { regs := [63] } = true ∧ readyCt cs ce (.ldi 0x8000 31) { regs := [31] } = true ∧
    readyVec vs ve (.ldiHi 0xFFFF 63) { regs := [63] } = true ∧ readyCt cs ce (.ldiHi 0xFFFF 31) { regs := [31] } = true := by decide +kernel

theorem test_predicates_ready :
    readyVec vs ve (.cmpI32 ⟨5, 5, 0, 5, 7, 0⟩) (CmpForm.uses ⟨5, 5, 0, 5, 7, 0⟩) = true ∧
    readyCt cs ce (.cmpI32 ⟨5, 5, 0, 5, 7, 0⟩) (CmpForm.uses ⟨5, 5, 0, 5, 7, 0⟩) = true ∧
    readyVec vs ve (.cmpN32 ⟨5, 5, 1, 5, 7, 0⟩) (CmpForm.uses ⟨5, 5, 1, 5, 7, 0⟩) = true ∧
    readyCt cs ce (.cmpN32 ⟨5, 5, 0, 5, 7, 0⟩) (CmpForm.uses ⟨5, 5, 0, 5, 7, 0⟩) = true ∧
    (∀ p ∈ plogTable ⟨1, 7, 7, 0, 7, 0⟩, readyVec vs ve p.1 { g := 0, preds := true } = true ∧ readyCt cs ce p.1 { g := 0, preds := true } = true) ∧
    (∀ p ∈ plogTableU ⟨1, 7, 0, 7, 0⟩, readyVec vs ve p.1 { g := 0, preds := true } = true ∧ readyCt cs ce p.1 { g := 0, preds := true } = true) ∧
    readyVec vs ve (.pget 0 63 0) { g := 0, regs := destRegs 0 63, preds := true } = true ∧
    readyCt cs ce (.pget 0 31 0) { g := 0, regs := destRegs 0 31, preds := true } = true ∧
    readyVec vs ve (.pset 63 0) { g := 0, regs := [63], preds := true } = true ∧ readyCt cs ce (.pset 31 0) { g := 0, regs := [31], preds := true } = true := by
  decide +kernel

theorem test_floats_ready : (∀ p ∈ floatTable ⟨5, 5, 0, 63, 0⟩, readyVec vs ve p.1 (RForm.uses ⟨5, 5, 0, 63, 0⟩) = true) ∧
    (∀ p ∈ fusedTable ⟨5, 5, 0, 63, 0⟩, readyVec vs ve p.1 (RForm.uses3 ⟨5, 5, 0, 63, 0⟩) = true) ∧
    readyVec vs ve (.scaleF32 ⟨5, 5, 0, 63, 0⟩) (RForm.uses ⟨5, 5, 0, 63, 0⟩) = true ∧
    (∀ p ∈ floatOneTable ⟨5, 0, 63, 0⟩, readyVec vs ve p.1 (UForm.uses ⟨5, 0, 63, 0⟩) = true) ∧
    (∀ p ∈ cvtTable ⟨0, 5, 0, 63, 0⟩, readyVec vs ve p.1 (CvtForm.uses ⟨0, 5, 0, 63, 0⟩) = true) ∧
    readyVec vs ve (.cvtF16F32 ⟨4, 5, 0, 63, 0⟩) (CvtForm.uses ⟨4, 5, 0, 63, 0⟩) = true ∧
    readyVec vs ve (.sincosF32 ⟨5, 0, 62, 0⟩) { UForm.uses ⟨5, 0, 62, 0⟩ with regs := [5, 62, 63] } = true ∧
    readyVec vs ve (.cmpF32 ⟨5, 5, 0, 7, 7, 0⟩) (CmpForm.uses ⟨5, 5, 0, 7, 7, 0⟩) = true := by decide +kernel

theorem test_codes_ready : (∀ p ∈ dsdecTable ⟨15, 3, 5, 0, 63, 0⟩, readyVec vs ve p.1 { g := 0, regs := [5, 63], also := [63] } = true) ∧
    (∀ p ∈ dsencTable ⟨15, 5, 0, 63, 0⟩, readyVec vs ve p.1 { g := 0, regs := [5, 63], also := [63] } = true) := by decide +kernel

/-- R244: patterns of every case. -/
theorem test_float_cases : patternNaN .f32 0x7F800001 ∧ patternInf .f32 0x7F800000 ∧ patternInf .f32 0xFF800000 ∧ patternZero .f32 0x80000000 ∧
    patternNeg .f32 0xFF800000 = true ∧ patternNeg .f32 0x7F800000 = false ∧ ¬patternNaN .f32 1 ∧ ¬patternInf .f32 1 ∧ ¬patternZero .f32 1 := by
  unfold patternNaN patternInf patternZero; decide +kernel

/-- R226: 2^-149 is a subnormal, exact; 2^128 lies beyond the largest value. -/
theorem test_rounds : Fmt.f32.round .ne false 1 (-149) false = 1 ∧ Fmt.f32.round .ne false 1 128 false = 0x7F800000 := by decide +kernel

/-! ### Hypotheses that hold: lane exchanges -/

theorem test_exchanges_ready : (∀ i ∈ [Instr.lget ⟨5, 63, 0, 63, 0⟩, .lgetX ⟨5, 63, 0, 63, 0⟩, .lgetSub ⟨5, 63, 0, 63, 0⟩, .lgetAdd ⟨5, 63, 0, 63, 0⟩,
      .swp ⟨5, 63, 0, 63, 0⟩, .bcast ⟨5, 63, 0, 63, 0⟩], readyExchange vs ve i (RForm.uses ⟨5, 63, 0, 63, 0⟩) = true) ∧
    readyExchange vs ve (.pollAny 7 0 7 0) { g := 0, preds := true } = true ∧ readyExchange vs ve (.pollAll 7 0 7 0) { g := 0, preds := true } = true ∧
    readyExchange vs ve (.pollFirst 0 7 0) { g := 0, preds := true } = true ∧
    readyExchange vs ve (.pollMask 7 0 63 0) { g := 0, regs := [63], preds := true } = true ∧
    readyExchange vs ve (.pollCount 7 0 63 0) { g := 0, regs := [63], preds := true } = true ∧
    readyExchange vs ve (.pollSame ⟨63, 0, 63, 0⟩) (UForm.uses ⟨63, 0, 63, 0⟩) = true := by decide +kernel

/-- A second thread of the home warp stands elsewhere. -/
def vs2 : State := vs.modWg 0 0 fun g => { g with threads := [(0, { live := true, pc := placedPc }), (1, { live := true, pc := placedPc + 4 })] }

theorem test_exchange_waits : let e := (vs2.env 0 0).getD default
    isExchange (.lget ⟨5, 63, 0, 63, 0⟩) = true ∧ vs2.issuer = some (.vec e.c e.k) ∧ vs2.env e.c e.k = some e ∧ vs2.mayIssue e.c = true ∧
    e.g.state = .resident ∧ e.owing = [] ∧ vs2.exchangeReady e = false := by decide +kernel

/-! ### Hypotheses that hold: memory -/

theorem noErrors_vs : NoErrors vs := ⟨fun _ => rfl, fun _ _ => rfl⟩

theorem noErrors_cs : NoErrors cs := ⟨fun _ => rfl, fun _ _ => rfl⟩

/-- Every lane of the issue set is the one lane. -/
theorem only_l0 : ve.issueSet 0 = [l0] := by decide +kernel

theorem test_loads_ready : ∀ p ∈ loadTable ⟨0, 1, 2, 5, 60⟩, readyVec vs ve p.1 (loadUses ⟨0, 1, 2, 5, 60⟩ p.2.1) = true ∧ ve.cr.inFlight ve.k < 16 ∧
    ∀ l ∈ ve.issueSet 0, accessOk vs ve (ve.base l 1) p.2.1 permR false true false ∧ (ve.thread l).loadHold = 0 ∧
      ve.cr.homeUnread (Who.inWarp l.hw) = false ∧ (match vs.planLoad ve.c l.hw (ve.base l 1) p.2.1 with
        | .wait => false
        | _ => true) = true := by
  rw [only_l0]; simp only [List.mem_singleton, forall_eq, accessOk]; decide +kernel

theorem test_loads_ready_ct : (∀ p ∈ loadTable ⟨0, 1, 0, 0, 30⟩, readyCt cs ce p.1 (loadUses ⟨0, 1, 0, 0, 30⟩ p.2.1) = true ∧
      accessOkCt cs ce (ce.base 1) p.2.1 permR false true false) ∧
    ce.cr.queue ctQueue = [] ∧ ce.cr.ct.loadHold = 0 ∧ ce.cr.homeUnread Who.isCt = false := by
  simp only [accessOkCt]; decide +kernel

/-- R95: a physical access of the supervisor routine. -/
def ps : State := cs.modCore 0 fun y => { y with ct := { y.ct with cur := { y.ct.cur with s := [(2, 0x1000000), (5, 7)] } } }

theorem test_phys_ready : (∀ p ∈ loadTable ⟨0, 1, 0, 6, 30⟩, readyCt ps (ps.cenv 0) p.1 (loadUses ⟨0, 1, 0, 6, 30⟩ p.2.1) = true ∧
      ps.physTrap (ps.cenv 0) ((ps.cenv 0).base 1) p.2.1 = none) ∧
    (∀ p ∈ storeTable ⟨30, 1, 0, 6⟩, readyCt ps (ps.cenv 0) p.1 (storeUses ⟨30, 1, 0, 6⟩ p.2) = true ∧
      ps.physTrap (ps.cenv 0) ((ps.cenv 0).base 1) p.2 = none) ∧ ps.isHeader ((ps.cenv 0).base 1).toNat = false := by decide +kernel

theorem test_stores_ready : ∀ p ∈ storeTable ⟨60, 1, 3, 5⟩, readyVec vs ve p.1 (storeUses ⟨60, 1, 3, 5⟩ p.2) = true ∧
    ve.cr.roomFor (ve.issueSet 0) = true ∧ ∀ l ∈ ve.issueSet 0, accessOk vs ve (stAddr ⟨60, 1, 3, 5⟩ p.2 ve l) p.2 permW false false true ∧
      (vs.residentAt ve.c ve.x (stAddr ⟨60, 1, 3, 5⟩ p.2 ve l)).isSome = true := by
  rw [only_l0]; simp only [List.mem_singleton, forall_eq, accessOk]; decide +kernel

theorem test_stores_ready_ct : (∀ p ∈ storeTable ⟨30, 1, 0, 0⟩, readyCt cs ce p.1 (storeUses ⟨30, 1, 0, 0⟩ p.2) = true ∧
      accessOkCt cs ce (ce.base 1) p.2 permW false false true) ∧
    ce.cr.room ctQueue 1 = true ∧ (cs.residentAt ce.c ce.x (ce.base 1)).isSome = true := by
  simp only [accessOkCt]; decide +kernel

theorem test_no_capture : ve.captured l0 = none := by decide +kernel

/-- Base v4:v5 lies at 7 * 2^32, base v6:v7 at 0: the first is not canonical with v5 = 0x8000. -/
def ts : State := vs.modCore 0 fun y => { y with regs := [(64, 0x10001), (160, 0x8000)] }

theorem test_access_traps_ready : let e := (ts.env 0 0).getD default
    readyVec ts e (.ldW32 ⟨0, 1, 0, 0, 60⟩) (loadUses ⟨0, 1, 0, 0, 60⟩ 4) = true ∧
    (e.issueSet 0).filter (fun l => (ts.accessTrap e.c e.x (e.base l 1) 4 permR false).isSome) ≠ [] ∧
    readyVec ts e (.ldW32 ⟨0, 2, 0, 0, 60⟩) (loadUses ⟨0, 2, 0, 0, 60⟩ 4) = true ∧
    (e.issueSet 0).any (fun l => ts.accessTrap e.c e.x (e.base l 2) 4 permR false == some 0x0F) = true ∧
    ts.owesResults e.c e.ws e.lanes = false := by decide +kernel

/-- R91, R311: an access at each boundary: canonical or not, a multiple of its width or not, mapped with the permission, mapped without it, absent. -/
theorem test_access_checks : vs.accessTrap 0 1 0x800000000000 4 permR false = some 0x0F ∧ vs.accessTrap 0 1 0xFFFF7FFFFFFFFFFC 4 permR false = some 0x0F ∧
    vs.accessTrap 0 1 0x10002 4 permR false = some 0x06 ∧ vs.accessTrap 0 1 0xFFFF800000000000 4 permR false = none ∧
    (vs.xlate 0 1 0x1FFFC).isSome = true ∧ vs.accessTrap 0 1 0x1FFFC 4 permR false = none ∧ (vs.xlate 0 1 0x20000).isSome = false := by decide +kernel

/-- R25: one word queued at 0x1000000, and loads of it, of a byte of it, and across its end. -/
theorem test_forwarding : let y := plainEntry (.store 4 0x44332211 0 false false) (ve.who l0) 0 0 0x1000000 0
    forward [] 0x1000000 4 = .clear ∧ forward [y] 0x1000000 4 = .value 0x44332211 ∧ forward [y] 0x1000003 1 = .value 0x44 ∧
    forward [y] 0x1000000 8 = .wait ∧ forward [y] 0x1000004 4 = .clear ∧
    forward [{ y with kind := .atomic 0 false false false 0 0 none }] 0x1000000 4 = .wait := by decide +kernel


theorem test_atomics_ready : ve.cr.roomFor (ve.issueSet 0) = true ∧ ∀ p ∈ atomTable ⟨60, 1, 9, 0, 1, 62⟩ ⟨62, 1, 0, 0, 0, 1⟩, readyVec vs ve p.1 p.2.1 = true ∧
    ∀ l ∈ ve.issueSet 0, accessOk vs ve (BitVec.ofNat 64 (ve.sourceNat l (atomParts p.2.2.1 p.2.2.2.1 p.2.2.2.2.1 p.2.2.2.2.2.2.2.1 (p.2.2.2.2.2.2.2.2.getD 0)) 1))
        (if p.2.2.2.2.2.2.2.1 then 8 else 4) (if p.2.2.2.2.2.2.2.2.isSome then permRW else permW) true true true ∧
      (vs.residentAt ve.c ve.x (BitVec.ofNat 64 (ve.sourceNat l (atomParts p.2.2.1 p.2.2.2.1 p.2.2.2.2.1 p.2.2.2.2.2.2.2.1 (p.2.2.2.2.2.2.2.2.getD 0)) 1))).isSome = true := by
  rw [only_l0]; simp only [List.mem_singleton, forall_eq, accessOk]; decide +kernel

theorem test_atomics_ready_ct : ce.cr.room ctQueue 1 = true ∧ (cs.residentAt ce.c ce.x (ce.base 1)).isSome = true ∧
    ∀ p ∈ atomTable ⟨30, 1, 9, 0, 1, 30⟩ ⟨31, 1, 0, 0, 0, 1⟩, readyCt cs ce p.1 p.2.1 = true ∧
      accessOkCt cs ce (ce.base 1) (if p.2.2.2.2.2.2.2.1 then 8 else 4) (if p.2.2.2.2.2.2.2.2.isSome then permRW else permW) true true true := by
  simp only [accessOkCt]; decide +kernel

/-- R97: the last words of the scratchpad. -/
def ss : State := vs.modCore 0 fun y => { y with regs := [(160, 0x7FFF0)] }

def ssc : State := cs.modCore 0 fun y => { y with ct := { y.ct with cur := { y.ct.cur with s := [(5, 0x7FFF0)] } } }

theorem test_scratchpad_ready : let e := (ss.env 0 0).getD default
    ∀ w : BitVec 2, w ≠ 3 → readyVec ss e (.ldsp 5 w 60) { regs := codeRegs 5 ++ span 60 (2 ^ w.toNat), lat := codeLat 5, b3 := true } = true ∧
      readyVec ss e (.stsp 60 5 w) { regs := wideRegs 60 (2 ^ w.toNat) ++ codeRegs 5, lat := codeLat 60 ++ codeLat 5 } = true ∧
      ∀ l ∈ e.issueSet 0, (e.operand .int l 5).toNat < 0x80000 ∧ (e.operand .int l 5).toNat % (4 * 2 ^ w.toNat) = 0 := by decide +kernel

theorem test_scratchpad_ready_ct : let e := ssc.cenv 0
    ∀ w : BitVec 2, w ≠ 3 → readyCt ssc e (.ldsp 5 w 30) { regs := codeRegs 5 ++ span 30 (2 ^ w.toNat), lat := codeLat 5, b3 := true } = true ∧
      readyCt ssc e (.stsp 30 5 w) { regs := wideRegs 30 (2 ^ w.toNat) ++ codeRegs 5, lat := codeLat 30 ++ codeLat 5 } = true ∧
      (e.operand 5).lo.toNat < 0x80000 ∧ (e.operand 5).lo.toNat % (4 * 2 ^ w.toNat) = 0 := by decide +kernel


/-! ### Hypotheses that hold: fences, steals, page requests, spans, engine commands -/

theorem test_fences_ready : readyVec vs ve (.fence 5 0) { g := 0 } = true ∧ ve.cr.roomFor (ve.issueSet 0) = true ∧
    readyCt cs ce (.fence 1 0) { g := 0 } = true ∧ ce.cr.room ctQueue 1 = true := by decide +kernel

theorem test_steals_ready : (∀ a ∈ [(96 : BitVec 7), 97, 99], readyVec rv rve (.acqSteal 4 a 0) { g := 0, regs := codeRegs a, lat := codeLat a } = true ∧
      readyCt rs rse (.acqSteal 2 a 0) { g := 0, regs := codeRegs a, lat := codeLat a } = true) ∧
    (∀ a ∈ [(96 : BitVec 7), 97, 99], ∀ l ∈ rve.issueSet 0, (rve.operand .int l a).toNat < (rv.ctx rve.x).grid) ∧
    (∀ a ∈ [(96 : BitVec 7), 97, 99], (rse.operand a).toNat < (rs.ctx rse.x).grid) ∧
    (∀ l ∈ rve.issueSet 0, rve.cr.lcore = some (rve.operand .int l 96).toNat) ∧ rse.cr.lcore = some (rse.operand 96).toNat ∧
    (∀ l ∈ rve.issueSet 0, rve.cr.lcore ≠ some (rve.operand .int l 97).toNat ∧ rv.isResident rve.x (rve.operand .int l 97).toNat = true) ∧
    (∀ l ∈ rve.issueSet 0, rve.cr.lcore ≠ some (rve.operand .int l 99).toNat ∧ rv.isResident rve.x (rve.operand .int l 99).toNat = false) ∧
    rs.isResident rse.x (rse.operand 97).toNat = true ∧ rs.isResident rse.x (rse.operand 99).toNat = false := by decide +kernel

theorem test_pgreq_ready : readyVec vs ve (.pgreq 62 2 0) { g := 0, regs := span 62 2 ++ span 2 2 } = true ∧ ve.cr.roomFor (ve.issueSet 0) = true ∧
    ∀ l ∈ ve.issueSet 0, canonical (BitVec.ofNat 64 (ve.sourceNat l [.regs 62 2, .regs 2 2] 0)) = true ∧
      accessOk vs ve (BitVec.ofNat 64 (ve.sourceNat l [.regs 62 2, .regs 2 2] 1)) 4 permW false true false ∧
      (vs.residentAt ve.c ve.x (BitVec.ofNat 64 (ve.sourceNat l [.regs 62 2, .regs 2 2] 1))).isSome = true := by
  rw [only_l0]; simp only [List.mem_singleton, forall_eq, accessOk]; decide +kernel

theorem test_pgreq_ready_ct : readyCt cs ce (.pgreq 30 2 0) { g := 0, regs := span 30 2 ++ span 2 2 } = true ∧ ce.cr.room ctQueue 1 = true ∧
    canonical (ce.r.reg 30) = true ∧ accessOkCt cs ce (ce.r.reg 2) 4 permW false true false ∧ (cs.residentAt ce.c ce.x (ce.r.reg 2)).isSome = true := by
  simp only [accessOkCt]; decide +kernel

theorem test_prefetch_ready : readyVec vs ve (.prefetch 1 62 0) { g := 0, regs := span 62 2 } = true ∧
    readyCt cs ce (.prefetch 0 30 0) { g := 0, regs := span 30 2 } = true := by decide +kernel

/-- v2:v3 is the mapped page, v5 a length of 64 KiB. -/
def spanS : State := w0 vs fun y => { y with regs := [(64, 0x10000), (160, 0x10000)] }

def spanE : Env := (spanS.env 0 0).getD default

def spanC : State := w0 cs fun y => { y with ct := { y.ct with cur := { y.ct.cur with s := [(2, 0x10000), (5, 0x10000)] } } }

def spanCe : CEnv := spanC.cenv 0

theorem test_spans_ready : (∀ i ∈ [Instr.wbspan 1 2 5 0, .wbspan 0 2 5 0, .invspan 2 5 0], readyVec spanS spanE i { g := 0, regs := span 2 2 ++ [5] } = true) ∧
    (∀ l ∈ spanE.issueSet 0, spanTrap (spanE.regPair l 2) (spanE.reg l 5).toNat = none ∧
      spanE.cr.watchMask (spanE.regPair l 2) (spanE.reg l 5).toNat false true = 0) ∧ spanE.cr.roomFor (spanE.issueSet 0) = true := by decide

theorem test_spans_ready_ct : (∀ i ∈ [Instr.wbspan 1 2 5 0, .wbspan 0 2 5 0, .invspan 2 5 0], readyCt spanC spanCe i { g := 0, regs := span 2 2 ++ [5] } = true) ∧
    spanTrap (spanCe.r.reg 2) (spanCe.r.reg 5).toNat = none ∧ spanCe.cr.watchMask (spanCe.r.reg 2) (spanCe.r.reg 5).toNat false true = 0 ∧
    spanCe.cr.room ctQueue 1 = true := by decide

/-- A length of nothing passes the same checks. -/
theorem test_empty_span_ready : (∀ i ∈ [Instr.wbspan 1 2 4 0, .invspan 2 4 0], readyVec spanS spanE i { g := 0, regs := span 2 2 ++ [4] } = true ∧
      readyCt spanC spanCe i { g := 0, regs := span 2 2 ++ [4] } = true) ∧ spanTrap (spanE.regPair l0 2) (spanE.reg l0 4).toNat = none ∧
    spanTrap (spanCe.r.reg 2) (spanCe.r.reg 4).toNat = none := by decide

theorem test_commands_ready :
    (∀ p ∈ postTable ⟨127, 127, 15, 1, 1⟩ ⟨127, 127, 15, 3, 0, 1⟩ ⟨127, 15, 3, 0⟩ ⟨127, 15, 3, 0, 2⟩ ⟨127, 127, 15, 3, 0⟩ 127 127 15 1 0 0,
      readyVec vs ve p.1 { g := p.2.1, regs := argRegs vs.issuer } = true) ∧
    (ve.issueSet 0).all (fun l => ve.cr.room l.hw 1) = true := by decide +kernel

theorem test_commands_ready_ct :
    (∀ p ∈ postTable ⟨127, 127, 15, 1, 1⟩ ⟨127, 127, 15, 3, 0, 1⟩ ⟨127, 15, 3, 0⟩ ⟨127, 15, 3, 0, 2⟩ ⟨127, 127, 15, 3, 0⟩ 127 127 15 1 0 0,
      readyCt cs ce p.1 { g := p.2.1, regs := argRegs cs.issuer } = true) ∧ ce.cr.room ctQueue 1 = true := by decide +kernel

/-! ### Hypotheses that hold: queues of a core -/

/-- Circular buffer 15 of core 0 has one filled slot; barrier 15 has failed; flag 31 is set; one value stands in each queue; a cp command on barrier
14 is with the copy engine. -/
def busyCore (y : Core) : Core :=
  { y with cbufs := [(15, { base := 0x100, size := 64, count := 2, filled := 1, free := 1, pop := 1 })], cbars := [(15, { error := true, code := 2 })],
           flags := 0x80000001, toLane := [5], toCt := [6],
           copyQ := [{ (default : Command) with id := 9, op := .cp false, core := 0, ctx := 1, bar := 14, phase := .started, toQueue := false }] }

def qv : State := w0 vs busyCore

def qve : Env := (qv.env 0 0).getD default

def qc : State := w0 cs busyCore

def qce : CEnv := qc.cenv 0

theorem test_buffers_ready : readyVec qv qve (.qpop 15 0 63 0) { g := 0, regs := destRegs 0 63 } = true ∧ qve.issueSet 0 ≠ [] ∧
    (qve.cr.cbuf 15).filled ≠ 0 ∧ (qve.cr.cbuf 0).filled = 0 ∧ readyVec qv qve (.qpop 0 0 63 0) { g := 0, regs := destRegs 0 63 } = true ∧
    readyCt qc qce (.qpop 15 0 31 0) { g := 0, regs := destRegs 0 31 } = true ∧ (qce.cr.cbuf 15).filled ≠ 0 ∧ (qce.cr.cbuf 0).filled = 0 ∧
    readyCt qc qce (.qpop 0 0 31 0) { g := 0, regs := destRegs 0 31 } = true ∧
    readyVec qv qve (.qrel 15 0) { g := 0 } = true ∧ (∀ l ∈ qve.issueSet 0, qve.cr.queue l.hw = []) ∧
    readyCt qc qce (.qrel 15 0) { g := 0 } = true ∧ qce.cr.queue ctQueue = [] ∧
    readyVec qv qve (.qstat 15 0 63 0) { g := 0, regs := destRegs 0 63, b3 := true } = true ∧
    readyCt qc qce (.qstat 15 0 31 0) { g := 0, regs := destRegs 0 31, b3 := true } = true := by decide +kernel

theorem test_barriers_ready :
    readyVec qv qve (.cwait ⟨0, 7, 15, 0, 63, 0⟩) { g := 0, regs := destRegs 0 63, preds := true } = true ∧
    waitsFor qv qve.c 15 ((qve.issueSet 0).flatMap (fun m => qve.cr.queue m.hw)) = [] ∧
    readyVec qv qve (.cwait ⟨1, 7, 14, 0, 63, 0⟩) { g := 0, regs := destRegs 0 63, preds := true } = true ∧
    waitsFor qv qve.c 14 ((qve.issueSet 0).flatMap (fun m => qve.cr.queue m.hw)) ≠ [] ∧ (qve.issueSet 0).head? = some l0 ∧ qve.captured l0 = none ∧
    readyCt qc qce (.cwait ⟨0, 7, 15, 0, 31, 0⟩) { g := 0, regs := destRegs 0 31, preds := true } = true ∧
    waitsFor qc qce.c 15 (qce.cr.queue ctQueue) = [] ∧
    readyCt qc qce (.cwait ⟨0, 7, 14, 0, 31, 0⟩) { g := 0, regs := destRegs 0 31, preds := true } = true ∧
    waitsFor qc qce.c 14 (qce.cr.queue ctQueue) ≠ [] ∧ qce.r.waited = false ∧
    (∀ c ∈ [(15 : BitVec 4), 14], readyVec qv qve (.ctest ⟨7, c, 0, 63, 0⟩) { g := 0, regs := destRegs 0 63, preds := true, b3 := true } = true ∧
      readyCt qc qce (.ctest ⟨7, c, 0, 31, 0⟩) { g := 0, regs := destRegs 0 31, preds := true, b3 := true } = true) ∧
    qv.awaited qve.c 14 [] ≠ [] ∧ qv.awaited qve.c 15 [] = [] ∧
    readyVec qv qve (.cclr 15 0) { g := 0 } = true ∧ readyCt qc qce (.cclr 15 0) { g := 0 } = true := by decide +kernel

theorem test_flags_ready : (∀ z : BitVec 1, readyVec qv qve (.fset z 31 0) { g := 0 } = true ∧ readyVec qv qve (.fwait z 31 0) { g := 0 } = true ∧
      readyCt qc qce (.ctFwait 31 z 0) { g := 0 } = true) ∧
    (qve.issueSet 0).filter (fun l => (qve.captured l).isNone && qve.cr.flag 31 != true) = [] ∧
    (qve.issueSet 0).filter (fun l => (qve.captured l).isNone && qve.cr.flag 31 != false) ≠ [] ∧
    readyCt qc qce (.ctFset 31 0) { g := 0 } = true ∧ readyCt qc qce (.fclr 31 0) { g := 0 } = true ∧ qce.cr.flag 31 = true := by decide +kernel

theorem test_lane_queues_ready :
    readyVec qv qve (.qrv 0 62 0) { g := 0, regs := destPair 0 62 } = true ∧ qve.cr.toLane = [5] ∧
    readyVec vs ve (.qrv 0 62 0) { g := 0, regs := destPair 0 62 } = true ∧ ve.cr.toLane = [] ∧ ve.issueSet 0 ≠ [] ∧
    readyVec qv qve (.qsv 5 63 0) { g := 0, regs := codeRegs 5 ++ [63], lat := codeLat 5 } = true ∧ qve.cr.toCt.length < 16 ∧
    readyCt qc qce (.qsend 31 0) { g := 0, regs := codeRegs 31 } = true ∧ qce.cr.toLane.length < 16 ∧
    readyCt qc qce (.qrecv 31 0) { g := 0, regs := [31] } = true ∧ qce.cr.toCt = [6] ∧
    readyCt cs ce (.qrecv 31 0) { g := 0, regs := [31] } = true ∧ ce.cr.toCt = [] := by decide +kernel

/-- The queue to the lanes is full. -/
def fullC : State := w0 cs fun y => { y with toLane := List.replicate 16 1 }

theorem test_full_queue_ready : readyCt fullC (fullC.cenv 0) (.qsend 31 0) { g := 0, regs := codeRegs 31 } = true ∧
    16 ≤ (fullC.cenv 0).cr.toLane.length ∧ (fullC.cenv 0).cr.queue ctQueue = [] := by decide +kernel

theorem test_guards_ready : readyCt cs ce (.gset 31 15 0) { g := 0, regs := codeRegs 31 } = true ∧ readyCt cs ce (.gclr 15 0) { g := 0 } = true ∧
    readyCt cs ce (.grd 15 0) { g := 0 } = true := by decide +kernel

/-! ### Hypotheses that hold: identities and bags -/

theorem test_reads_ready : (∀ i ∈ [Instr.rdtick 0 63 0, .rdtickHi 0 63 0, .rdid 5 0 63 0], readyVec vs ve i { g := 0, regs := destRegs 0 63 } = true) ∧
    noRecord vs ve.x ve.g.launch ∧ readyCt cs ce (.ctRdtick 31 0) { g := 0, regs := [31] } = true ∧
    readyCt cs ce (.ctRdid 7 31 0) { g := 0, regs := [31] } = true ∧ ce.r.run.launch? = none := by
  refine ⟨by decide +kernel, ?_, by decide +kernel⟩
  intro l h; revert h; rw [show vs.launch ve.x ve.g.launch = none by decide +kernel]; intro h; cases h

/-- A launch in each mode, whose record buffer begins at 0x11000 in the mapped page. -/
def recMem : Memory := [(4096, 1), (4102, 16), (4104, 192), (4105, 255), (4106, 255), (4107, 255), (4108, 7), (4109, 9), (0x1001000, 1),
  (0x1001050, 0x2A), (0x1001058, 3), (0x100105C, 4), (360789845901, 1)]

def recS (mode : Nat) : State :=
  { vs with mem := recMem }.modCtx 1 fun x => { x with launches := [{ launch0 with detMode := mode, recBase := 0x11000, recSize := 4096, recN := 1 }] }

def rec0 : State := recS 0
def rec1 : State := recS 1
def rec2 : State := recS 2

theorem test_records_ready : (rec0.launch 1 0).map (·.detMode) = some 0 ∧ (rec1.launch 1 0).map (·.detMode) = some 1 ∧
    64 + 16 * 1 + 16 * (((rec1.devLoad 1 0x11000).getD 0).toNat + 1) ≤ 4096 ∧ (rec2.launch 1 0).map (·.detMode) = some 2 ∧
    rec2.devLoad 1 (0x11000 + BitVec.ofNat 64 (64 + 16 * 1 + 16 * 0) + 8) = some 3 ∧
    rec2.devLoad 1 (0x11000 + BitVec.ofNat 64 (64 + 16 * 1 + 16 * 0) + 12) = some 4 := by decide +kernel

/-- R288: the replayed read of the entry with key 4 and sequence 3 gives its value. -/
theorem test_replay : (rec2.recordedRead 1 0 4 3 99).1 = 0x2A := by decide +kernel

theorem test_bag_queries_ready : (∀ p ∈ bagTable 0 60 0 5 0, readyVec rv rve p.1 p.2.1 = true) ∧ (∀ p ∈ bagTable 0 29 0 5 0, readyCt ru rue p.1 p.2.1 = true) ∧
    (∀ l ∈ rve.issueSet 0, rv.slotHeader rve.x rve.g.launch (slotBy 0 none (fun j => rve.reg l j)) ≠ 0) ∧
    ru.slotHeaderCt rue (slotBy 0 none (fun j => (rue.r.reg j).lo)) ≠ 0 := by decide +kernel

theorem test_puts_ready : readyVec rv rve (.bput ⟨5, 60, 0, 7, 0⟩) { regs := codeRegs 5 ++ span 60 2, lat := codeLat 5 } = true ∧
    rv.slotHeader rve.x rve.g.launch 0 = 0x20000 ∧ (rv.bagAt rve.x 0x20000).map (·.size) = some 0 ∧ rve.cr.watchMask 0x20000 4 true true = 0 ∧
    rve.cr.roomFor (rve.issueSet 0) = true := by decide +kernel

theorem test_drains_ready : readyVec rv rve (.bdrain 62 0 63 0) { g := 0, regs := span 62 2 ++ destRegs 0 63, b3 := true } = true ∧
    rve.x = rv.coreCtx rve.c ∧ (∀ l ∈ rve.issueSet 0, rve.cr.watchMask (BitVec.ofNat 64 (rve.sourceNat l [.regs 62 2] 0))
      (rv.recordSize rve.x (BitVec.ofNat 64 (rve.sourceNat l [.regs 62 2] 0))) true true = 0) ∧
    readyCt ru rue (.bdrain 30 0 31 0) { g := 0, regs := span 30 2 ++ destRegs 0 31, b3 := true } = true ∧ rue.cr.room ctQueue 1 = true ∧
    rue.cr.watchMask (rue.r.reg 30) (ru.recordSize rue.x (rue.r.reg 30)) true true = 0 := by decide +kernel

theorem test_growth_ready : readyVec rv rve (.bgrow 0 63 0) { g := 0, regs := [63] } = true ∧ readyCt ru rue (.bgrow 0 31 0) { g := 0, regs := [31] } = true ∧
    ru.slotHeaderCt rue 0 ≠ 0 ∧ rue.r.waited = false := by decide +kernel

/-- The thread is registered with the work bag of slot 0. -/
def wv : State := rv.modThread 0 0 0 fun t => { t with regmask := 1 }

def wve : Env := (wv.env 0 0).getD default

theorem test_work_bags_ready : readyVec rv rve (.wqenter 0 0) { g := 0 } = true ∧ workBag 0 rve rv = true ∧
    readyVec wv wve (.wqleave 0 0) { g := 0 } = true ∧ workBag 0 wve wv = true ∧ wve.cr.lcore.isSome = true ∧
    readyVec wv wve (.wqwait 7 0 63 0) { g := 0, regs := [63], preds := true } = true ∧ (wv.bagAt wve.x 0x20000).map (·.logb) = some 1 ∧
    ∀ l ∈ wve.issueSet 0, (wve.thread l).regmask.getLsbD 0 = true ∧ (wve.reg l 63).toNat < 2 := by decide +kernel

/-! ### Hypotheses that hold: control flow and traps -/

theorem noTrace_vs : noTrace vs ve.x ve.g.launch := by
  intro l h; rw [show vs.launch ve.x ve.g.launch = none by decide +kernel] at h; cases h

/-- The launch of the rich state writes no trace. -/
theorem noTrace_rich (s : State) (h : (s.launch 1 0).map (·.trace) = some false) : noTrace s 1 0 := by
  intro l hl; rw [hl] at h; simpa using h

theorem test_branches_ready : readyVec vs ve (.bra 0x100000 0) { g := 0 } = true ∧ readyVec vs ve (.jmpi 2 0) { g := 0, regs := span 2 2 } = true ∧
    (∀ l ∈ ve.issueSet 0, goodTarget (ve.regPair l 2)) ∧ readyCt cs ce (.bra 0x0FFFFF 0) { g := 0 } = true ∧
    readyCt cs ce (.jmpi 2 0) { g := 0, regs := span 2 2 } = true ∧ goodTarget (ce.r.reg 2) ∧ readyCt cs ce (.call 0x100000 0) { g := 0 } = true ∧
    ce.r.rstack.length < 16 ∧ readyCt cs ce (.calli 2 0) { g := 0, regs := span 2 2 } = true ∧ readyVec vs ve (.nop 0) { g := 0 } = true ∧
    readyVec vs ve (.yield 0) { g := 0 } = true ∧ readyCt cs ce (.nop 0) { g := 0 } = true ∧ readyCt cs ce (.yield 0) { g := 0 } = true ∧
    ce.cr.switch = false := by
  rw [only_l0]; simp only [List.mem_singleton, forall_eq, goodTarget]; decide +kernel

/-- The control thread returns, while a switch of its core is requested. -/
def callC : State := w0 cs fun y => { y with switch := true, ct := { y.ct with cur := { y.ct.cur with rstack := [0x10040] } } }

theorem test_ct_return_ready : readyCt callC (callC.cenv 0) (.ret 0) { g := 0 } = true ∧ (callC.cenv 0).r.rstack = [0x10040] ∧
    readyCt callC (callC.cenv 0) (.yield 0) { g := 0 } = true ∧ (callC.cenv 0).cr.switch = true ∧ (callC.cenv 0).r.waited = false := by decide +kernel

theorem only_l0_rv : rve.issueSet 0 = [l0] := by decide +kernel

theorem test_calls_ready : readyVec rv rve (.call 0x0FFFFF 0) { g := 0 } = true ∧ readyVec rv rve (.calli 2 0) { g := 0, regs := span 2 2 } = true ∧
    (rv.launch 1 0).map (·.trace) = some false ∧ rve.cr.roomFor (rve.issueSet 0) = true ∧
    ∀ l ∈ rve.issueSet 0, goodTarget (rve.regPair l 2) ∧ (rve.thread l).depth ≠ 255 ∧
      accessOk rv rve ((rve.thread l).sp - 16) 16 permW false true true ∧ (rv.residentAt rve.c rve.x ((rve.thread l).sp - 16)).isSome = true := by
  rw [only_l0_rv]; simp only [List.mem_singleton, forall_eq, goodTarget, accessOk]; decide +kernel

/-- The thread stands one call deep: its frame at 0x18000 holds 0x2000000. -/
def dv : State := rv.modThread 0 0 0 fun t => { t with depth := 1 }

def dve : Env := (dv.env 0 0).getD default

theorem test_returns_ready : readyVec dv dve (.ret 0) { g := 0 } = true ∧ dve.issueSet 0 = [l0] ∧ (dve.thread l0).depth ≠ 0 ∧
    accessOk dv dve (dve.thread l0).sp 8 permR false true true ∧
    (match dv.readFrames dve [l0] with
      | some (_, ls) => ls.map (fun q => (q.1, q.2.isAbsent, q.2.poison, q.2.pc)) == [(l0, false, none, 0x2000000)]
      | none => false) = true ∧ canonical 0x2000000 = true := by
  simp only [accessOk]; decide +kernel

/-- The frame still stands in the thread's store queue. -/
def fv : State := w0 dv fun y => y.setQueue 0 [plainEntry (.store 16 0x10040 0 true false) (.lane 0 0 0 0 0) 0x10000 0x18000 0x1008000 0]

def fve : Env := (fv.env 0 0).getD default

theorem test_forwarded_return_ready : readyVec fv fve (.ret 0) { g := 0 } = true ∧ fve.issueSet 0 = [l0] ∧ fve.x = fv.coreCtx fve.c ∧
    (fve.thread l0).depth ≠ 0 ∧ accessOk fv fve (fve.thread l0).sp 8 permR false true true ∧
    fv.residentAt fve.c fve.x (fve.thread l0).sp = some 0x1008000 ∧ fve.cr.homeUnread (Who.inWarp 0) = false ∧ forward (fv.nowQueue fve.c 0) 0x1008000 8 = .value 0x10040 ∧
    canonical 0x10040 = true := by
  simp only [accessOk]; decide +kernel

theorem test_exits_ready : readyVec vs ve (.exit 0) { g := 0 } = true ∧ (∀ l ∈ ve.issueSet 0, (ve.thread l).regmask = 0) ∧
    vs.launch ve.x ve.g.launch = none ∧ SMap.wf {} ve.g.threads = true ∧ (∀ x ∈ ve.g.threads, x.2.live = true → ∃ l ∈ ve.issueSet 0, l.tid = x.1) ∧
    (∀ hw ∈ span ve.g.hw ve.g.warps, ve.cr.queue hw = []) ∧ readyCt cs ce (.exit 0) { g := 0 } = true ∧ ce.cr.ct.pending = [] := by decide +kernel

theorem test_trap_ready : rve.x = rv.coreCtx rve.c ∧ rv.owesResults rve.c rve.ws rve.lanes = false ∧
    rv.saveAreaOk rve.x (rv.saveArea rve.x (rve.cr.lcore.getD 0)) = true := by decide +kernel

theorem test_trap_ready_ct : rue.r.super = false ∧ ru.saveAreaOk rue.x (ru.saveArea rue.x (rue.cr.lcore.getD 0)) = true := by decide +kernel

theorem test_traps_issue : readyVec rv rve (.trap 5 0) { g := 0, regs := codeRegs 5, lat := codeLat 5 } = true ∧ rve.issueSet 0 ≠ [] ∧
    readyVec rv rve (.brk 0) { g := 0 } = true ∧ readyVec rv rve (.brk 7) { g := 7 } = true ∧ rve.issueSet 7 = [] ∧
    readyCt ru rue (.trap 5 0) { g := 0, regs := codeRegs 5, lat := codeLat 5 } = true ∧ readyCt ru rue (.brk 0) { g := 0 } = true ∧
    readyCt rs rse (.brk 0) { g := 0 } = true ∧ rse.r.super = true ∧ (rs.ctx rse.x).removal = 0 ∧
    readyCt rs rse (.trap 5 0) { g := 0, regs := codeRegs 5, lat := codeLat 5 } = true := by decide +kernel

theorem test_ill_formed_issue : rv.issuer = some (.vec rve.c rve.k) ∧ rv.env rve.c rve.k = some rve ∧ rv.mayIssue rve.c = true ∧
    rve.g.state = .resident ∧ rve.owing = [] ∧ ru.issuer = some (.ct rue.c) ∧ (ru.ctPc rue.c).isSome = true ∧ ru.mayIssue rue.c = true ∧
    rue.r.run ≠ .idle ∧ rue.r.park = .none ∧ rue.r.poison = none ∧ rue.r.effect = none ∧ Instr.wf .vec (.halt 0) = false ∧
    isSys (.halt 0) = true ∧ encode (.halt 0) ≠ none ∧ Instr.wf .ctl (.ret 0) = true ∧ Instr.wf .ctl (.hpop 0) = false ∧ isSys (.hpop 0) = false ∧
    encode (.hpop 0) ≠ none ∧ Instr.wf .vec (.ldi 5 63) = true ∧ Instr.wf .ctl (.ldi 5 32) = false ∧ rs.issuer = some (.ct rse.c) ∧
    rs.mayIssue rse.c = true ∧ rse.r.run ≠ .idle ∧ rse.r.super = true := by decide +kernel

/-! ### Hypotheses that hold: effects -/

/-- A frame for effect 32, pushed at sp 0x18000. -/
def frame0 : Frame :=
  { eff := 32, serial := 5, multi := false, armed := false, name := 0, cdepth := 0, pdepth := 0, ptop := 0, hide := 0, handling := false,
    sp0 := 0x18000, record := 0 }

/-- The thread has one frame. -/
def ev (f : Frame) : State := rv.modThread 0 0 0 fun t => { t with frames := [f], onChip := 1 }

def ev1 : State := ev frame0

def ev1e : Env := (ev1.env 0 0).getD default

/-- A frame whose handler may be resumed many times, its record reserved at 0x18100. -/
def ev2 : State := ev { frame0 with multi := true, record := 0x18100 }

def ev2e : Env := (ev2.env 0 0).getD default

def findsFrame (s : State) (e : Env) (id : Nat) : Option Nat :=
  (e.thread l0).frames.findIdx? (fun q => q.hide == 0 && (q.eff.toNat == id || q.eff.toNat == 255)) |>.bind fun n =>
    if s.issuer.isSome then some n else none

/-- Every page of a record is writable. -/
def ownOkB (s : State) (va : DWord) (ws : List Word) : Bool := (chunks ws).all fun ch =>
  match s.xlate 0 1 (va + BitVec.ofNat 64 ch.1) with
  | some t => t.grants permW
  | none => false

theorem test_performs_ready : (∀ p ∈ [(ev1, ev1e), (ev2, ev2e), (rv, rve)], readyVec p.1 p.2 (.perform ⟨0, 5, 0, 60, 0⟩) { g := 0, regs := [5, 60] } = true ∧
      p.2.x = p.1.coreCtx p.2.c ∧ p.2.issueSet 0 = [l0] ∧ p.2.g.nregs = 64 ∧ p.2.lanes = [l0] ∧
      (p.1.stageOf p.2.g).map (fun st => (st.effects[0]?.getD 0).toNat) = some 32 ∧ p.2.cr.room 0 1 = true ∧
      (p.1.launch 1 0).map (·.trace) = some false) ∧
    findsFrame ev1 ev1e 32 = some 0 ∧ findsFrame ev2 ev2e 32 = some 0 ∧ findsFrame rv rve 32 = none ∧
    ownOkB ev1 0x17FF0 [0, 0, 0, 0] = true ∧ ownOkB ev2 0x18100 [0, 0, 0, 0, 0, 0, 0] = true ∧ ev2.liveRegs ev2e.g 0 = [1] := by decide +kernel

theorem test_pushes_ready : (∀ m : BitVec 1, readyVec rv rve (.hpush ⟨m, 127, 1, 0, 0⟩) { g := 0 } = true) ∧
    (∀ l ∈ rve.issueSet 0, (rve.thread l).frames.length < 64 ∧ (rve.thread l).onChip < 4) ∧ (rv.handler rve.g 0).1 ≠ 0xFFFFFFFF ∧
    (∀ k ∈ rv.liveRegs rve.g 0, k < rve.g.nregs) ∧ rv.stackPages rve.c rve.x ((rve.thread l0).sp - 32) 32 = true ∧
    rv.stackPages rve.c rve.x (rve.thread l0).sp 0 = true ∧ readyVec ev1 ev1e (.hpop 0) { g := 0 } = true ∧ (ev1e.thread l0).frames = [frame0] ∧
    readyVec rv rve (.hpop 0) { g := 0 } = true ∧ (rve.thread l0).frames = [] := by decide +kernel

/-- The handler of a performed effect runs: its token is in v5, and the record still stands in its store queue. -/
def tokenS (multi : Bool) : State := w0 (rv.modThread 0 0 0 fun t =>
    { t with frames := [{ frame0 with multi := multi, armed := true, handling := true, hide := 1, record := 0x18000 }], onChip := 1 })
  fun y => { (y.setQueue 0 [plainEntry (.store 16 0x2000000 0 true false) (.lane 0 0 0 0 0) 0x10000 0x18000 0x1008000 0,
      plainEntry (.store 16 0 0 true false) (.lane 0 0 0 0 0) 0x10000 0x18010 0x1008010 0]) with
    regs := [(160, if multi then 0x580 else 0x500)] }

def tok1 : State := tokenS false
def tok1e : Env := (tok1.env 0 0).getD default
def tok2 : State := tokenS true
def tok2e : Env := (tok2.env 0 0).getD default

/-- The words of a record that a thread reads. -/
def recWords (s : State) (n : Nat) : List Word :=
  match s.readRec 0 0 0x18000 n with
  | .words ws _ => ws
  | _ => []

theorem test_tokens_ready : readyVec tok1 tok1e (.resume 127 5 0) { g := 0, regs := codeRegs 127 ++ [5], lat := codeLat 127 } = true ∧
    tok1e.issueSet 0 = [l0] ∧ tok1e.reg l0 5 = BitVec.ofNat 32 (0 * 2 ^ 24 + 5 * 256) ∧ (tok1e.thread l0).sp = 0x18000 ∧
    recWords tok1 4 = [0x2000000, 0, 0, 0] ∧
    readyVec tok2 tok2e (.resumeM 127 5 0) { g := 0, regs := codeRegs 127 ++ [5], lat := codeLat 127 } = true ∧ tok2e.issueSet 0 = [l0] ∧
    tok2e.reg l0 5 = BitVec.ofNat 32 (0 * 2 ^ 24 + 5 * 256 + 128) ∧ tok2.liveRegs tok2e.g 0 = [1] ∧ recWords tok2 7 = [0x2000000, 0, 0, 0, 0, 0, 0] ∧
    readyVec tok1 tok1e (.abandon 5 0) { g := 0, regs := [5] } = true ∧ readyVec tok2 tok2e (.abandon 5 0) { g := 0, regs := [5] } = true ∧
    (tok1.stageOf tok1e.g).isSome = true ∧ (∀ q ∈ (tok1e.thread l0).frames, q.remote = false ∧ q.armed = true ∧ q.want = none) ∧
    (tok1.launch 1 0).map (·.trace) = some false ∧ canonical 0x2000000 = true := by decide +kernel

theorem test_stale_tokens_ready : readyVec rv rve (.resume 127 5 0) { g := 0, regs := codeRegs 127 ++ [5], lat := codeLat 127 } = true ∧
    readyVec rv rve (.resumeM 127 5 0) { g := 0, regs := codeRegs 127 ++ [5], lat := codeLat 127 } = true ∧
    readyVec rv rve (.abandon 5 0) { g := 0, regs := [5] } = true ∧ (∀ fr ∈ (rve.thread l0).frames, fr.armed = false) := by decide +kernel

/-! ### Hypotheses that hold: barriers and waits -/

theorem test_meets_ready : (∀ p ∈ [(1, 15), (2, 7), (5, 3)], readyVec vs ve (.meetPost p.1 p.2 0 63 0) { g := 0, regs := destRegs 0 63, b3 := true } = true ∧
      readyCt cs ce (.meetPost p.1 p.2 0 31 0) { g := 0, regs := destRegs 0 31, b3 := true } = true ∧
      readyVec vs ve (.meetAwait p.1 p.2 5 0) { g := 0, regs := [5] } = true ∧ readyCt cs ce (.meetAwait p.1 p.2 5 0) { g := 0, regs := [5] } = true ∧
      readyVec vs ve (.meetJoin p.1 p.2 0) { g := 0 } = true ∧ readyCt cs ce (.meetJoin p.1 p.2 0) { g := 0 } = true) ∧
    ve.cr.roomFor (ve.issueSet 0) = true ∧ ce.cr.room ctQueue 1 = true ∧ ce.r.waited = false ∧
    (vs.barrier 0 0 1 1 15).phase = false ∧ (ve.reg l0 5).getLsbD 0 = true ∧ (ce.r.reg 5).getLsbD 0 = true ∧
    readyCt cs ce (.meetAwait 1 15 2 0) { g := 0, regs := [2] } = true ∧ (ce.r.reg 2).getLsbD 0 = false ∧
    readyVec vs ve (.meetAwait 1 15 63 0) { g := 0, regs := [63] } = true ∧ (ve.reg l0 63).getLsbD 0 = false := by decide +kernel

/-- The control thread's wait is over. -/
def overC : State := w0 cs fun y => { y with ct := { y.ct with cur := { y.ct.cur with waited := true } } }

def overCe : CEnv := overC.cenv 0

theorem test_over_ready : overCe.r.waited = true ∧ readyCt overC overCe (.meetAwait 1 15 5 0) { g := 0, regs := [5] } = true ∧
    readyCt overC overCe (.meetJoin 1 15 0) { g := 0 } = true ∧ readyCt overC overCe (.ctFwait 31 0 0) { g := 0 } = true ∧
    readyCt overC overCe (.waitu ⟨31, 1, 7, 5, 7, 7⟩) { regs := codeRegs 31 ++ baseRegs 1, preds := true } = true ∧
    readyCt overC overCe (.yield 0) { g := 0 } = true ∧ readyCt overC overCe (.cxsave 31 0) { g := 0, regs := [31] } = true := by decide +kernel

/-- R182: a barrier of three parties with two arrived. -/
def meetS : State := w0 vs fun y => { y with bars := [(15, { expected := 3, arrived := 2, phase := false })] }

theorem test_arrivals : (meetS.barrier 0 0 1 1 15).expected = 3 ∧
    ((meetS.arriveAt 0 0 1 1 15 2 0).barrier 0 0 1 1 15) = { expected := 3, arrived := 1, phase := true } ∧
    ((meetS.arriveAt 0 0 1 1 15 1 0).barrier 0 0 1 1 15) = { expected := 3, arrived := 0, phase := true } := by decide +kernel

theorem test_waits_ready : readyVec vs ve (.waitu ⟨5, 1, 7, 5, 7, 7⟩) { regs := codeRegs 5 ++ baseRegs 1, lat := codeLat 5, preds := true } = true ∧
    ve.cr.roomFor ve.lanes = true ∧ (∀ l ∈ ve.lanes, let a := BitVec.ofNat 64 (ve.sourceNat l (waituParts ⟨5, 1, 7, 5, 7, 7⟩) 1)
      vs.waitTrap ve.c ve.x a = none ∧ ve.cr.watchMask a 4 true true = 0 ∧ (vs.residentAt ve.c ve.x a).isSome = true) ∧
    readyCt cs ce (.waitu ⟨31, 1, 0, 1, 0, 0⟩) { regs := codeRegs 31 ++ baseRegs 1, lat := codeLat 31, preds := false } = true ∧
    cs.waitTrap ce.c ce.x (ce.base 1) = none ∧ ce.cr.watchMask (ce.base 1) 4 true true = 0 ∧
    cs.residentAt ce.c ce.x (ce.base 1) = some 0x1000000 := by decide +kernel

/-! ### Hypotheses that hold: the control thread -/

/-- s2 is the mapped page, s5 names 16 slots of 32,768 bytes at 0. -/
def setC : State := w0 cs fun y => { y with ct := { y.ct with cur := { y.ct.cur with s := [(2, 0x10000), (5, 0x0800001000000000), (6, 65535), (7, 0x20000)] } } }

def setCe : CEnv := setC.cenv 0

theorem test_settings_ready : readyCt setC setCe (.tdset 127 2 0) { g := 0, regs := [2] } = true ∧ setCe.cr.queue ctQueue = [] ∧
    canonical (setCe.r.reg 2) = true ∧ (setCe.r.reg 2).toNat % 64 = 0 ∧ (setC.xlate 0 1 (setCe.r.reg 2)).map (fun x => (x.pa, x.grants permR)) = some (0x1000000, true) ∧
    setC.ownsFrame 1 0x1000000 = true ∧ (∀ i < 16, isWindowPa (0x1000000 + 4 * i) = false) ∧
    readyCt setC setCe (.qinit 15 5 0) { g := 0, regs := [5] } = true ∧ setCe.cr.copyQ = [] ∧
    (let w := (setCe.r.reg 5).toNat
     w / 2 ^ 19 % 2 ^ 13 = 0 ∧ 1 ≤ w / 2 ^ 48 ∧ w / 2 ^ 48 ≤ 32768 ∧ 1 ≤ w / 2 ^ 32 % 2 ^ 16 ∧ w % 2 ^ 19 % 16 = 0 ∧
       w % 2 ^ 19 + 16 * (w / 2 ^ 48) * (w / 2 ^ 32 % 2 ^ 16) ≤ 0x80000) ∧
    (∀ p ∈ [(1, 15), (2, 7), (5, 3)], readyCt setC setCe (.meetinit p.1 p.2 6 0) { g := 0, regs := [6] } = true) ∧
    (setCe.r.reg 6).toNat ≤ 65535 ∧ (setCe.r.reg 8).toNat = 0 := by decide +kernel

theorem test_bag_management_ready : (∀ i ∈ [Instr.bmake 7 31 0, .bseal 7 31 0, .bfree 7 31 0], readyCt setC setCe i { g := 0, regs := [7, 31] } = true) ∧
    setCe.cr.room ctQueue 1 = true ∧ canonical (setCe.r.reg 7) = true ∧ (setCe.r.reg 7).toNat % 32 = 0 := by decide +kernel

theorem test_launch_ready : readyCt setC setCe (.launch 2 31 0) { g := 0, regs := [2, 31] } = true ∧ setCe.r.super = true ∧
    (setCe.r.reg 2).toNat % 128 = 0 ∧ (setC.releaseNow setCe.x (dieOf setCe.c)).2 = true ∧
    ((setC.releaseNow setCe.x (dieOf setCe.c)).1.tableWords setCe.x (setCe.r.reg 2) false 32).isSome = true ∧
    ((setC.releaseNow setCe.x (dieOf setCe.c)).1.tableWords setCe.x 0x20000 false 32).isSome = false ∧
    readyCt setC setCe (.launch 7 31 0) { g := 0, regs := [7, 31] } = true ∧
    readyCt ru rue (.launch 2 31 0) { g := 0, regs := [2, 31] } = true := by decide +kernel

/-- A trapped prologue stands behind the supervisor. -/
def tretC : State := w0 rs fun y => { y with ct := { y.ct with trapped := [{ run := .prologue 0 0, pc := 0x10100 }] } }

/-- The workgroup in slot 0 has trapped. -/
def tretW : State := w0 rs fun y => { y with wgs := y.wgs.map (fun kv => (kv.1, kv.2.map (fun g => { g with state := .trapped }))) }

theorem test_tret_ready : (∀ m : BitVec 3, m.toNat ≤ 2 → readyCt rs rse (.tret m 102 31 0) { g := 0, regs := codeRegs 102 ++ [31] } = true) ∧
    (rse.operand 102).toNat = 6 ∧ rse.cr.ct.trapped = [] ∧ (rse.operand 96).toNat = 0 ∧ (rse.cr.wg 0).map (·.state) = some .resident ∧
    readyCt tretC (tretC.cenv 0) (.tret 0 102 31 0) { g := 0, regs := codeRegs 102 ++ [31] } = true ∧ (tretC.cenv 0).cr.ct.trapped ≠ [] ∧
    (tretC.heldHead 0 ctQueue (tretC.cenv 0).who).isNone = true ∧
    (∀ m : BitVec 3, m.toNat ≤ 1 → readyCt tretW (tretW.cenv 0) (.tret m 96 31 0) { g := 0, regs := codeRegs 96 ++ [31] } = true) ∧
    ((tretW.cenv 0).cr.wg 0).map (·.state) = some .trapped ∧ (tretW.cenv 0).cr.warp 1 = none ∧
    (tretW.trapFrameAt (tretW.saveArea 1 0 + saveWg 0 + saveFrame)).reps = [] := by decide +kernel

/-- No logical core is current on core 0. -/
def noneC : State := w0 rs fun y => { y with lcore := none }

theorem test_switching_ready : readyCt rs rse (.cxsave 31 0) { g := 0, regs := [31] } = true ∧ rse.r.waited = false ∧ rse.cr.lcore ≠ none ∧
    readyCt noneC (noneC.cenv 0) (.cxsave 31 0) { g := 0, regs := [31] } = true ∧ (noneC.cenv 0).cr.lcore = none ∧
    readyCt rs rse (.cxload 96 31 0) { g := 0, regs := codeRegs 96 ++ [31] } = true ∧
    (∀ a ∈ [(96 : BitVec 7), 97, 100], readyCt noneC (noneC.cenv 0) (.cxload a 31 0) { g := 0, regs := codeRegs a ++ [31] } = true) ∧
    (noneC.ctx 1).grid ≤ ((noneC.cenv 0).operand 100).toNat ∧ noneC.placedAt 1 1 ≠ 0 ∧ noneC.placedAt 1 0 = 0 ∧
    noneC.saveAreaOk 1 (noneC.saveArea 1 0) = true ∧ noneC.unpoisoned (noneC.saveArea 1 0) saveBytes = true := by decide +kernel

/-- The context may be debugged; s5 is an address of a line of its frame, s6 a count of lines. -/
def sysC : State := w0 (cs.modCtx 1 fun x => { x with sys := [(0x1C, 3)], launches := [launch0] }) fun y =>
  { y with ct := { y.ct with cur := { y.ct.cur with s := [(5, 0x1000000), (6, 512), (7, 1)] } } }

def sysCe : CEnv := sysC.cenv 0

theorem test_system_ready : readyCt sysC sysCe (.genset 31 0) { g := 0, regs := [31] } = true ∧ sysCe.cr.queue ctQueue = [] ∧
    sysC.stragglers sysCe.x ((sysC.ctx sysCe.x).gen + 1) = false ∧ (sysC.releaseNow sysCe.x (dieOf sysCe.c)).2 = true ∧
    (∀ d ∈ [(6 : BitVec 6), 7], readyCt sysC sysCe (.xinv 5 d 0) { g := 0, regs := codeRegs 5 ++ [d.toNat] } = true) ∧
    (sysCe.r.reg 5).toNat % 65536 + 128 * (sysCe.r.reg 6).toNat ≤ 65536 ∧ (sysCe.r.reg 6).toNat = 512 ∧ (sysCe.r.reg 7).toNat = 1 ∧
    isWindowPa 0x1000000 = false ∧ sysC.ownsFrame sysCe.x 0x1000000 = true ∧ sysC.homeDown 0x1000000 = false ∧
    readyCt sysC sysCe (.rdsr 127 31 0) { g := 0, regs := [31] } = true ∧
    readyCt sysC sysCe (.wrsr 0 5 0x11 0) { g := 0, regs := codeRegs 5 } = true ∧
    readyCt sysC sysCe (.wrsr 0 5 0x1A 0) { g := 0, regs := codeRegs 5 } = true ∧ isWritable 0x1A = true ∧ isWritable 0 = false ∧
    readyCt sysC sysCe (.wrsr 0 5 0 0) { g := 0, regs := codeRegs 5 } = true ∧ (sysC.ctx sysCe.x).removal = 0 ∧
    readyCt sysC sysCe (.tickstop 5 31 0) { g := 0, regs := codeRegs 5 ++ [31] } = true ∧ ((sysC.ctx sysCe.x).reg 0x1C).getLsbD 0 = true ∧
    sysC.tick.toNat < (sysCe.r.reg 5).toNat ∧ readyCt sysC sysCe (.tickstop 8 31 0) { g := 0, regs := codeRegs 8 ++ [31] } = true ∧
    (sysCe.r.reg 8).toNat ≤ sysC.tick.toNat ∧ readyCt cs ce (.tickstop 5 31 0) { g := 0, regs := codeRegs 5 ++ [31] } = true ∧
    ((cs.ctx ce.x).reg 0x1C).getLsbD 0 = false ∧ readyCt sysC sysCe (.dgrd 0 96 31 0) { g := 0, regs := codeRegs 96 ++ [31] } = true ∧
    readyCt sysC sysCe (.dgrd 1 68 31 0) { g := 0, regs := codeRegs 68 ++ [31] } = true ∧ (sysCe.cr.wg 0).isSome = true ∧
    (sysC.launch sysCe.x 0).isSome = true ∧ readyCt sysC sysCe (.halt 0) { g := 0 } = true ∧ ((sysC.ctx sysCe.x).reg 0x1C).getLsbD 1 = true ∧
    readyCt cs ce (.halt 0) { g := 0 } = true ∧ ((cs.ctx ce.x).reg 0x1C).getLsbD 1 = false := by decide +kernel

/-! ### Hypotheses that hold: events of memory -/

/-- The lane thread and the control thread of core 0 as issuers. -/
def lane0 : Who := .lane 0 0 0 0 0

/-- A request of the lane thread for the word 0x1008000. -/
def msg (r : Req) : Msg := { who := lane0, ctx := 1, gen := 0, va := 0x18000, pa := 0x1008000, req := r, hw := 0 }

/-- The rich state with requests in flight. -/
def netS (ms : List Msg) : State := { rv with net := ms }

/-- Its store queue holds entries. -/
def queueS (q : List Entry) : State := w0 rv fun y => y.setQueue 0 q

def st16 : Entry := plainEntry (.store 16 5 3 false false) lane0 0x10000 0x18000 0x1008000 0

def leaveS : State := queueS [st16]

theorem test_leave_ready : (leaveS.core 0).queue 0 = [st16] ∧ st16.phase = .queued ∧ (leaveS.core 0).blocked 0 st16 = false ∧
    st16.gen = (leaveS.ctx (leaveS.coreCtx 0)).gen ∧ placeOf st16.pa = .hbm 0 ∧ leaveS.activeLine st16.pa = false ∧ leaveS.homeDown st16.pa = false ∧
    st16.pa % 16 = 0 := by decide +kernel

def storeS : State := netS [msg (.store 8 7)]

theorem test_store_home_ready : Asked storeS 0 (msg (.store 8 7)) ∧ isWindowPa 0x1008000 = false ∧ 0x1008000 % 8 = 0 := by
  simp only [Asked]; decide +kernel

/-- Die 0 holds the word dirty. -/
def dirtyS : State := rv.modDie 0 fun d => d.putWord 0x1008000 9 true false

theorem test_dirty_ready : (dirtyS.die 0).word (4 * 0x402000) = some 9 ∧ (dirtyS.die 0).dirtyAt (4 * 0x402000) = true ∧
    dirtyS.homeDown (4 * 0x402000) = false := by decide +kernel

def ackS : State := { queueS [{ st16 with phase := .sent }] with net := [{ msg (.store 16 5) with reply := some (.value 0) }] }

theorem test_ack_ready : (ackS.core 0).queue 0 = [{ st16 with phase := .sent }] ∧
    ackS.net.findIdx? (fun m => m.hw = 0 && m.who == lane0 && m.reply.isSome && m.req == .store 16 5) = some 0 ∧
    Replied ackS 0 { msg (.store 16 5) with reply := some (.value 0) } (.value 0) := by
  simp only [Replied]; decide +kernel

def heldS : State := queueS [{ st16 with phase := .held 0 }]

theorem test_held_ready : (heldS.core 0).queue 0 = [{ st16 with phase := .held 0 }] ∧ heldS.again 0 (heldS.coreCtx 0) 0x18000 0 ≠ .absent := by
  decide +kernel

def loadMsg : Msg := { msg (.load 0 7 4) with load := some 7 }

def readS : State := netS [loadMsg]

theorem noErrors_readS : NoErrors readS := ⟨fun _ => rfl, fun _ _ => rfl⟩

theorem test_read_ready : Asked readS 0 loadMsg ∧ isWindowPa loadMsg.pa = false ∧ readS.poisoned loadMsg.pa = false := by
  simp only [Asked]; decide +kernel

/-- A pending load of 16 bytes into v60-v63 and p7 that is due. -/
def dueLoad : Load :=
  { (default : Load) with id := 7, kind := .plain, who := lane0, va := 0x18000, pa := 0x1008000, size := 16, signed := false, dest := some 60, pred := 7,
                          scope := 0, data := some (some 5), poison := none }

def dueS : State := w0 rv fun y => { y with loads := [dueLoad] }

theorem test_due_ready : (dueS.core 0).loads[0]? = some dueLoad ∧ (dueS.core 0).lcore = some 0 ∧ ((dueS.core 0).wg 0).map (·.state) = some .resident ∧
    60 + dueLoad.size / 4 ≤ 64 ∧ (dueS.core 0).loads.take 0 = [] := by decide +kernel

def staleMsg : Msg := { msg (.store 4 5) with gen := 1 }

def staleS : State := netS [staleMsg]

theorem test_stale_ready : staleS.net[0]? = some staleMsg ∧ staleMsg.gen ≠ (staleS.ctx 1).gen ∧ staleS.again 0 1 0x18000 permW = .at_ 0x1008000 := by
  decide +kernel

/-- Die 0 is in reset. -/
def downS : State := (netS [loadMsg, msg (.store 16 5)]).modDie 0 fun d => { d with reset := 2 }

def downQ : State := w0 downS fun y => y.setQueue 0 [{ st16 with phase := .sent }]

theorem test_error_ready : downS.net[0]? = some loadMsg ∧ downS.homeDown 0x1008000 = true ∧ (downS.die 0).dirtyAt 0x1008000 = false ∧
    downQ.net[1]? = some (msg (.store 16 5)) ∧ downQ.homeDown 0x1008000 = true ∧ (downQ.core 0).queue 0 = [{ st16 with phase := .sent }] := by decide +kernel

def atomMsg : Msg := { msg (.atomic 13 false false 1 0) with load := some 7 }

def atomS : State := netS [atomMsg]

theorem test_atomic_ready : Asked atomS 0 atomMsg ∧ atomS.poisoned atomMsg.pa = false ∧ atomS.dirtyDies atomMsg.pa = [] ∧
    (1 : DWord) = (1 : Word).setWidth 64 ∧ (0 : DWord) = (0 : Word).setWidth 64 := by
  simp only [Asked]; decide +kernel

theorem noErrors_atomS : NoErrors atomS := ⟨fun _ => rfl, fun _ _ => rfl⟩

def atomEntry : Entry := plainEntry (.atomic 0 false false false 1 0 (some 5)) lane0 0x10000 0x18000 0x1008000 0

def atomReplyS : State := { w0 rv fun y => { (y.setQueue 0 [{ atomEntry with phase := .sent }]) with
    loads := [{ dueLoad with kind := .atomic, data := none }] } with net := [{ atomMsg with req := .atomic 0 false false 1 0, reply := some (.value 3) }] }

theorem test_atomic_reply_ready : Replied atomReplyS 0 { atomMsg with req := .atomic 0 false false 1 0, reply := some (.value 3) } (.value 3) ∧
    (atomReplyS.core 0).queue 0 = [{ atomEntry with phase := .sent }] ∧
    (atomReplyS.core 0).loads.find? (fun p => p.kind == .atomic && p.who == lane0 && p.data.isNone && p.va == 0x18000) =
      some { dueLoad with kind := .atomic, data := none } := by
  simp only [Replied]; decide +kernel

/-! ### Hypotheses that hold: events of waits -/

def wait9 : Wait :=
  { (default : Wait) with id := 9, who := lane0, ctx := 1, va := 0x18000, pa := 0x1008000, cmp := 1, x := 0x2000000, scope := 4, st := 7, pc := 0x10000,
                          deadline := some 0 }

def waitS (m : List Msg) : State := { netS m with waits := [wait9] }

theorem noErrors_waitS (m : List Msg) : NoErrors (waitS m) := ⟨fun _ => rfl, fun _ _ => rfl⟩

def arriveS : State := waitS [msg (.wait 9)]

/-- The word is 0x2000000: the wait for another value stays, a wait for another operand's is met. -/
def arriveMet : State := { arriveS with waits := [{ wait9 with x := 1 }] }

theorem test_wait_home_ready : Asked arriveS 0 (msg (.wait 9)) ∧ arriveS.waits.find? (·.id = 9) = some wait9 ∧ arriveS.poisoned 0x1008000 = false ∧
    arriveS.dirtyDies 0x1008000 = [] ∧ waitCond 1 (arriveS.homeWord 0x1008000) 0x2000000 false = false ∧
    Asked arriveMet 0 (msg (.wait 9)) ∧ waitCond 1 (arriveMet.homeWord 0x1008000) 1 false = true := by
  simp only [Asked]; decide +kernel

/-- A fallback entry of the word that a logged write satisfies. -/
def mon9 : MonEntry :=
  { word := 0x402000, cmp := 1, x := 1, ctx := 1, gen := 0, changed := false, waiters := [{ place := none, waits := [9], deadline := none }] }

def sweepS : State := { waitS [] with hbm := [(0, { fallback := [mon9], fbLines := [0x20100], wlog := [(0x402000, 0)] })] }

theorem test_sweep_ready : homeSlice (4 * 0x402000) = 0 ∧ (sweepS.stack 0).fallback.map (·.word) = [0x402000] ∧
    (sweepS.stack 0).wlog = [(0x402000, 0)] ∧ waitCond 1 0 1 true = true ∧ (sweepS.waits.find? (·.id = 9)).isSome = true := by decide +kernel

def deadS : State := waitS []

theorem test_deadline_ready : deadS.waits.find? (·.id = 9) = some wait9 ∧ wait9.deadline = some 0 ∧ wait9.canceled = false ∧ deadS.net = [] ∧
    (∀ kv ∈ deadS.cores, ∀ q ∈ kv.2.queues, ∀ e ∈ q.2, e.kind ≠ .wait 9) := by decide +kernel

def cancelS : State := { waitS [msg (.cancel 9)] with hbm := [(0, { spilled := [mon9] })] }

def cancelLate : State := waitS [msg (.cancel 9)]

theorem test_cancel_ready : cancelS.net[0]? = some (msg (.cancel 9)) ∧ cancelS.waits.find? (·.id = 9) = some wait9 ∧ cancelS.homeDown 0x1008000 = false ∧
    (∃ kv ∈ cancelS.hbm, kv.2.holdsWait 9 = true) ∧ cancelLate.net[0]? = some (msg (.cancel 9)) ∧ (∀ kv ∈ cancelLate.hbm, kv.2.holdsWait 9 = false) := by
  decide +kernel

def replyS (b : Bool) : State := waitS [{ msg (.wait 9) with reply := some (.waited b) }]

theorem test_wait_reply_ready : ∀ b : Bool, (replyS b).net[0]? = some { msg (.wait 9) with reply := some (.waited b) } ∧
    (replyS b).waits.find? (·.id = 9) = some wait9 ∧ ((replyS b).core 0).lcore = some 0 ∧ (((replyS b).core 0).wg 0).map (·.state) = some .resident := by
  decide +kernel

/-- The workgroup was evicted and is switched out. -/
def evictS : State := w0 (replyS true) fun y =>
  { y with lcore := none, saved := [(0, some { wgs := y.wgs.map (fun kv => (kv.1, kv.2.map (fun g => { g with state := .evictedWaiting }))) })], wgs := [] }

theorem test_wake_ready : evictS.net[0]? = some { msg (.wait 9) with reply := some (.waited true) } ∧ evictS.waits.find? (·.id = 9) = some wait9 ∧
    (evictS.findWg 0 0 0).map (·.state) = some .evictedWaiting := by decide +kernel

def stealS (l : Option (List (Nat × Nat))) (r : Option Reply) : State := netS [{ msg (.steal 1 3 l) with reply := r }]

theorem test_steal_ready : (stealS none none).net[0]? = some (msg (.steal 1 3 none)) ∧ (stealS (some []) none).net[0]? = some (msg (.steal 1 3 (some []))) ∧
    (stealS (some []) (some (.value 0))).net[0]? = some { msg (.steal 1 3 (some [])) with reply := some (.value 0) } ∧
    ((stealS none none).core 0).lcore = some 0 ∧ (msg (.steal 1 3 none)).ctx = (stealS none none).coreCtx 0 := by decide +kernel

def arrivalS : State := netS [msg (.arrive 1 15 1 0)]

theorem test_arrival_ready : arrivalS.net[0]? = some (msg (.arrive 1 15 1 0)) := by decide +kernel


/-! ### Hypotheses that hold: events of bags -/

/-- A request of the lane thread for the bag at 0x20000, in flight. -/
def bmsg (r : Req) : Msg := { who := lane0, ctx := 1, gen := 0, va := 0x20000, pa := 0x3000000, req := r, hw := 0 }

/-- The bag is b, and the request is in flight. -/
def bagS (b : Bag) (r : Req) : State := { rv with bags := [b], net := [bmsg r] }

theorem atHome_bagS (b : Bag) (r : Req) : atHome (bagS b r) 0 (bmsg r) := by
  refine ⟨rfl, rfl, rfl, ?_, ?_⟩
  · show State.homeDown rv 0x3000000 = false
    decide +kernel
  · intro o ho; cases ho

/-- A sealed bag, one whose shares are full, one with a record in slot 0 of share 1, and one with a worker. -/
def sealedBag : Bag := { bag0 with sealed := true, work := false }
def fullBag : Bag := { bag0 with counts := [(0, 4), (1, 4)], total := 8 }
def oneBag : Bag := { bag0 with counts := [(1, 1)], total := 1, shares := [(1, { slots := [(0, some 0)], serial := 1 })] }
def plainBag : Bag := { bag0 with work := false }
def fullPlain : Bag := { fullBag with work := false }
def workBag0 : Bag := { bag0 with workers := [{ who := lane0, member := true, claims := 0, parked := none }] }

/-- Putting is refused, finds no room, or finds room in the share of its key (a work bag) or of its hash (another bag). -/
theorem test_put_home_ready :
    (bagS sealedBag (.put 3 [1, 2])).bagAt 1 0x20000 = some sealedBag ∧ (sealedBag.sealed = true ∧ sealedBag.work = false) ∧
    (bagS fullBag (.put 3 [1, 2])).bagAt 1 0x20000 = some fullBag ∧ fullBag.cap ≤ fullBag.countOf ((3 : Word).toNat % 2 ^ fullBag.logb) ∧
    (bagS fullPlain (.put 3 [1, 2])).bagAt 1 0x20000 = some fullPlain ∧ (∀ i < 2 ^ fullPlain.logb, fullPlain.cap ≤ fullPlain.countOf i) ∧
    fullBag.sealed = false ∧ fullBag.quiescent = false ∧ fullPlain.sealed = false ∧ fullPlain.quiescent = false ∧ fullBag.logb ≤ 12 ∧
    (bagS oneBag (.put 3 [1, 2])).bagAt 1 0x20000 = some oneBag ∧ oneBag.headerPa % 4 = 0 ∧ 1 = (3 : Word).toNat % 2 ^ oneBag.logb ∧
    oneBag.countOf 1 < oneBag.cap ∧ ((1 : Nat) < oneBag.cap ∧ ¬slotTaken oneBag 1 1) ∧ oneBag.sealed = false ∧ oneBag.quiescent = false ∧
    (bagS plainBag (.put 3 [1, 2])).bagAt 1 0x20000 = some plainBag ∧
    (((3 : Word) * 0x9E3779B1) >>> (32 - plainBag.logb)).toNat = 1 ∧ plainBag.countOf 1 < plainBag.cap ∧
    (∀ i < 2 ^ plainBag.logb, plainBag.countOf 1 ≤ plainBag.countOf i + plainBag.thresh) := by
  simp only [slotTaken]; decide +kernel

/-- The hashed share of key 3 stands too far above share 0. -/
def farBag : Bag := { bag0 with work := false, cap := 8, counts := [(1, 5)], total := 5 }

theorem test_put_far_ready : (bagS farBag (.put 3 [1])).bagAt 1 0x20000 = some farBag ∧ ¬(∀ i < 2 ^ farBag.logb, farBag.countOf 1 ≤ farBag.countOf i + farBag.thresh) ∧
    (∀ i < 2 ^ farBag.logb, farBag.countOf i < farBag.cap → farBag.countOf 0 < farBag.countOf i ∨ (farBag.countOf 0 = farBag.countOf i ∧ 0 ≤ i)) ∧
    farBag.countOf 0 < farBag.cap := by decide +kernel

/-- The drained address is the first byte of the record in slot 0 of share 1, or of none. -/
def drainS (a : DWord) : State := { bagS oneBag .drain with net := [{ bmsg .drain with va := a }] }

theorem test_drain_ready : (drainS 0x40000).recordSlot 1 0x40000 = some (oneBag, 1, 0) ∧ (drainS 0x30000).recordSlot 1 0x30000 = none ∧
    (drainS 0x40000).net = [{ bmsg .drain with va := 0x40000 }] ∧ (drainS 0x40000).homeDown 0x3000000 = false := by decide +kernel

/-- Cursors of share 1 that are malformed, find the record, and find none. -/
theorem test_queries_home_ready : (bagS oneBag (.snapshot 0 1)).bagAt 1 0x20000 = some oneBag ∧ (1 : Word).toNat < 2 ^ oneBag.logb ∧
    (bagS oneBag (.next 0x1001 4 1)).bagAt 1 0x20000 = some oneBag ∧ ¬((0x1001 : Word).toNat / 4096 % 65536 = 0) ∧
    (let from_ := (4 : Word).toNat / 65536
     (1 : Word).toNat / 4096 % 65536 = 0 ∧ (1 : Word).toNat % 4096 < 2 ^ oneBag.logb ∧ from_ = 0 ∧ (4 : Word).toNat % 65536 = 4 ∧
     ((oneBag.share 1).serial - (1 : Word)).toNat < 2 ^ 30 ∧
     SMap.get none 0 (oneBag.share 1).slots = some (0 : Word) ∧ 1 ≤ ((1 : Word) - 0).toNat ∧ ((1 : Word) - 0).toNat < 2 ^ 31) ∧
    ((0x00010004 : Word).toNat / 65536 = 1 ∧ (0x00010004 : Word).toNat % 65536 = 4 ∧ ∀ j, 1 ≤ j → j < 4 → SMap.get none j (oneBag.share 1).slots = none) ∧
    (bagS oneBag (.count none)).bagAt 1 0x20000 = some oneBag ∧ (bagS oneBag (.count (some 1))).bagAt 1 0x20000 = some oneBag ∧
    (bagS oneBag (.grow 4)).bagAt 1 0x20000 = some oneBag ∧ (4 : Word).toNat ≤ oneBag.cap ∧ oneBag.cap < (8 : Word).toNat ∧ (8 : Word).toNat ≤ oneBag.limit ∧
    oneBag.limit < 65536 ∧ oneBag.limit < (9 : Word).toNat := by
  refine ⟨by decide +kernel, by decide +kernel, by decide +kernel, by decide +kernel, by decide +kernel, ⟨by decide +kernel, by decide +kernel, ?_⟩,
    by decide +kernel, by decide +kernel, by decide +kernel, by decide +kernel, by decide +kernel, by decide +kernel, by decide +kernel, by decide +kernel⟩
  intro j h h'
  have : j = 1 ∨ j = 2 ∨ j = 3 := by omega
  rcases this with rfl | rfl | rfl <;> decide +kernel

theorem test_seal_free_ready : (bagS oneBag .seal).bagAt 1 0x20000 = some oneBag ∧ (bagS { oneBag with freed := true } .seal).bagAt 1 0x20000 = none ∧
    (∃ l ∈ ((bagS oneBag .free).ctx 1).launches, l.state ≠ .done ∧ (bmsg .free).va ∈ l.bags ∧ (bmsg .free).va ≠ 0) := by decide +kernel

/-- No launch stands. -/
def freeS (b : Bag) : State := (bagS b .free).modCtx 1 fun x => { x with launches := [] }

theorem test_free_ready : (freeS oneBag).net = [bmsg .free] ∧ ((freeS oneBag).ctx 1).launches = [] ∧ (freeS oneBag).bagAt 1 0x20000 = some oneBag ∧
    (freeS { oneBag with freed := true }).bagAt 1 0x20000 = none ∧ (freeS oneBag).homeDown 0x3000000 = false := by decide +kernel

/-- A descriptor of a bag whose area is 0 fails with 2, one with a reserved bit with 1. -/
theorem test_make_bad_ready : ((bagS oneBag (.make [])).checkBag 1 [0x20000, 0, 0, 0, 0, 0x00010001, 0, 0]).1 = 2 ∧
    ((bagS oneBag (.make [])).checkBag 1 [0x20000, 0, 0x30000, 0, 1, 0x00010001, 0, 0]).1 = 1 := by decide +kernel

/-- A quiescing work bag: its last worker waits. -/
def lastBag : Bag := { workBag0 with sealed := true }

theorem test_workers_home_ready : (bagS workBag0 .enter).bagAt 1 0x20000 = some workBag0 ∧ (bagS workBag0 .leave).bagAt 1 0x20000 = some workBag0 ∧
    (bagS oneBag (.await 1)).bagAt 1 0x20000 = some oneBag ∧ oneBag.quiescent = false ∧ 0 < oneBag.total ∧ 0 < oneBag.countOf (1 : Word).toNat ∧
    (bagS workBag0 (.await 1)).bagAt 1 0x20000 = some workBag0 ∧ workBag0.sealed = false ∧ workBag0.countOf (1 : Word).toNat = 0 ∧
    (bagS lastBag (.await 1)).bagAt 1 0x20000 = some lastBag ∧ lastBag.work = true ∧ lastBag.sealed = true ∧ lastBag.total = 0 ∧
    lastBag.claimed ≤ claimsOf lastBag lane0 ∧ lastBag.isMember lane0 = true ∧
    (∀ w ∈ lastBag.workers, w.member = true → w.who = lane0 ∨ w.parked.isSome) := by
  simp only [claimsOf]; decide +kernel

/-- The thread waits for its reply. -/
def bagReplyS (r : Req) (v : Reply) (p : Park) : State :=
  { (rv.modThread 0 0 0 fun t => { t with park := p }) with net := [{ bmsg r with reply := some v, load := some 7 }] }

def bagLoad : Load := { (default : Load) with id := 7, kind := .bag, who := lane0, size := 4, dest := some 63, data := none }

def countReplyS : State := w0 (bagReplyS (.count none) (.value 5) .none) fun y => { y with loads := [bagLoad] }

theorem test_bag_reply_ready : laneHere (bagReplyS (.put 3 []) .placed (.staithe 7)) lane0 0 0 0 0 ∧
    ((bagReplyS (.put 3 []) .placed (.staithe 7)).thread 0 0 0).park = .staithe 7 ∧
    ((bagReplyS (.await 1) (.value 1) (.wqwait 0 7)).thread 0 0 0).park = .wqwait 0 7 ∧
    ((bagReplyS (.grow 4) (.value 0) (.staithe 0)).thread 0 0 0).park = .staithe 0 ∧
    ((countReplyS).core 0).loads.filter (fun p => p.kind == .bag && p.who == lane0 && some p.id == some 7) = [bagLoad] ∧
    bagLoad.size = 4 ∧ bagLoad.pred = 0 ∧ bagLoad.scope = 0 ∧ bagLoad.signed = false := by
  refine ⟨⟨0, rfl, by decide +kernel, (((bagReplyS (.put 3 []) .placed (.staithe 7)).core 0).wg 0).getD default, by decide +kernel, by decide +kernel⟩,
    by decide +kernel⟩

/-! ### Hypotheses that hold: forming warps -/

/-- The workgroup's thread stands in the frontier, and no warp has formed. -/
def form0 : State := w0 rv fun y =>
  { y with warps := [], wgs := y.wgs.map (fun kv => (kv.1, kv.2.map (fun g => { g with frontier := [fent] }))) }
where fent : FEntry := { prio := 0, pc := 0x10000, depth := 0, mask := 1, since := 0, aged := false, spilled := false }

theorem test_form_ready : form0.mayIssue 0 = true ∧ (form0.chooseForm 0).isSome = true ∧ (form0.core 0).warp 0 = none := by decide +kernel

def age0 : State := { form0 with tick := 4096 }

theorem test_age_ready : ((age0.core 0).wg 0).map (fun g => (decide (g.state = .resident), g.frontier[0]?.map (·.aged), (g.frontier.filter (fun e => !e.spilled)).length,
    g.frontier[0]?.map (fun f => decide (4096 ≤ (age0.ageClock g - f.since).toNat)))) = some (true, some false, 1, some true) := by decide +kernel

/-- A descriptor of a bag of one share whose pages are mapped passes every check. -/
theorem test_make_ready : ((bagS oneBag (.make [])).checkBag 1 [0x10000, 0, 0x10000, 0, 0, 0x00010001, 0, 0]).1 = 0 := by decide +kernel

/-! ### Hypotheses that hold: engines -/

/-- A descriptor of 4 binary32 elements at 0x100 in the scratchpad. -/
def spDesc : Descriptor := { words := [(0, 0x01000000), (2, 0x100), (6, 4), (7, 1), (8, 1), (9, 1)], invalid := false }

/-- A command of the control thread of core 0 on barrier 15. -/
def cmd (op : CmdOp) (p : CmdPhase) : Command :=
  { (default : Command) with id := 9, op := op, who := .ct 0 0, core := 0, ctx := 1, bar := 15, toQueue := false, phase := p,
                             descs := [spDesc, spDesc, spDesc, spDesc], dyn := [4, 1, 1, 1, 4, 1, 1, 1, 4, 1, 1, 1, 4, 1, 1, 1], slots := List.replicate 8 0 }

def cpM (p : CmdPhase) : Command := cmd (.cp false) p

/-- The copy engine of core 0 holds commands. -/
def copyS (q : List Command) : State := w0 rs fun y => { y with copyQ := q }

theorem test_copy_ready : ((copyS [cpM .posted]).core 0).copyQ = [cpM .posted] ∧
    ((copyS [cpM .posted]).core 0).copyQ.findIdx? (fun d => d.phase == .posted) = some 0 ∧ (((copyS [cpM .posted]).core 0).cbar 15).outstanding < 65535 ∧
    ((copyS [cpM .accepted]).core 0).copyQ.findIdx? (fun d => d.phase != .started) = some 0 ∧ (cpM .accepted).guard = none ∧
    (((copyS [cpM .accepted]).core 0).copyQ.filter (fun d => d.phase == .started)).length < 4 ∧
    ((copyS [{ cpM .started with fault := 3 }]).core 0).copyQ[0]? = some { cpM .started with fault := 3 } := by decide +kernel

theorem spDesc_loc (c : Coord) : spDesc.loc 0 c = .sp 0 (256 + c.c0 * 4) := by
  have h : spDesc.offset c = c.c0 * 4 := by
    show c.c0 * 4 + c.c1 * 0 + c.c2 * 0 + c.c3 * 0 = c.c0 * 4
    omega
  show Loc.sp 0 (256 + spDesc.offset c) = _
  rw [h]

theorem spDesc_read (s : State) (m : Command) (v : Bool) (c : Coord) (hm : m.core = 0) (hc : c.c0 < 4) : ∃ b, s.readElem m v spDesc c = .ok b := by
  simp only [State.readElem, hm, spDesc_loc, State.readLoc, show ¬(0x80000 ≤ 256 + c.c0 * 4) by omega, if_false]
  exact ⟨_, rfl⟩

theorem spDesc_write (s : State) (m : Command) (box : Nat × Nat) (c : Coord) (bits : Nat) (hm : m.core = 0) (hc : c.c0 < 4) :
    ∃ u, s.writeElem m spDesc box c bits = .ok u := by
  simp only [State.writeElem, State.writeAt, hm, spDesc_loc, State.writeLoc, show spDesc.four = false by decide +kernel,
    show ¬(0x80000 ≤ 256 + c.c0 * 4) by omega, if_false, Bool.false_eq_true]
  exact ⟨_, rfl⟩

/-- Every element of the command moves. -/
theorem copyOne_cpM (s : State) (n : Nat) : ∃ u, s.copyOne (cpM .started) n = .ok u := by
  have h0 : ((s.copySrc (cpM .started) n).c0) < 4 := by show 0 + (0 + n % 4) < 4; omega
  have h1 : ¬((cpM .started).ext 1 1 ≤ (s.copySrc (cpM .started) n).c1) := by show ¬(1 ≤ 0 + (0 + n / 4 % 1)); omega
  have h2 : ((cpM .started).copyDst n).c0 < 4 := by show 0 + (0 + n % 4) < 4; omega
  obtain ⟨b, hb⟩ := spDesc_read s (cpM .started) false (s.copySrc (cpM .started) n) rfl h0
  obtain ⟨u, hu⟩ := spDesc_write s (cpM .started) ((cpM .started).dstOrigin.c0, (cpM .started).dstDims.c0) ((cpM .started).copyDst n) b rfl h2
  refine ⟨u, ?_⟩
  unfold State.copyOne
  simp only [if_neg h1]
  rw [show s.readElem (cpM .started) ((cpM .started).op == .cpm) ((cpM .started).desc 1) (s.copySrc (cpM .started) n) = .ok b from hb]
  exact hu

theorem copyMany_cpM (k : Nat) : ∀ (s : State) (n : Nat), (s.copyMany (cpM .started) n k).2 = none := by
  induction k with
  | zero => intro s n; rfl
  | succ k ih =>
    intro s n
    obtain ⟨u, h⟩ := copyOne_cpM (s.touchCopied (cpM .started) n) n
    simp only [State.copyMany, h]
    exact ih u (n + 1)

/-- Every run of the command's elements moves whole. -/
theorem copyRun_cpM (s : State) (n k : Nat) : (s.copyRun (cpM .started) n k).2 = none := copyMany_cpM k s n

/-- A copy into a circular buffer with a free slot, and one with a guard that is set. -/
def qbufS : State := w0 rs fun y => { y with copyQ := [{ cpM .accepted with toQueue := true }], cbufs := [(15, { base := 0x100, size := 64, count := 2, free := 1 })] }

def guardS : State := w0 rs fun y => { y with copyQ := [{ cpM .accepted with guard := some 3 }], guards := [(3, some true)] }

theorem test_copy_more_ready : (qbufS.core 0).copyQ.findIdx? (fun d => d.phase != .started) = some 0 ∧ ((qbufS.core 0).cbuf 15).free ≠ 0 ∧
    (guardS.core 0).copyQ.findIdx? (fun d => d.phase != .started) = some 0 ∧ (guardS.core 0).guardNow 3 = some true ∧ (guardS.core 0).holdQ = [] ∧
    (guardS.quad (quadOf 0)).table = [] ∧ ((cpM .started).desc 0).bkind = 1 ∧ ((cpM .started).desc 0).fmt = 0 ∧
    ((cpM .started).desc 0).base.toNat + ((cpM .started).desc 0).offset { c0 := 0 } = 0x100 := by decide +kernel

/-- The reservation table of quad 0 holds commands. -/
def matS (q : List Command) : State := { rs with quads := [(0, { table := q })] }

def matQS : State := w0 rs fun y => { y with matQ := [cmd .mzero .posted] }

/-- A pass of one row, one column and four elements along K; a set of one row of four elements; a group of one member. -/
def passM : Command := { cmd (.mmx 0) .started with slots := [0, 0, 0, 1, 1, 4, 0, 0] }

def setM : Command := { cmd .mst .started with slots := [0, 0, 0, 0, 1, 4, 0, 0] }

def groupM : Command := { cmd (.mmx 2) .accepted with slots := [0, 0, 0, 1, 1, 4, 0, 0x100] }

theorem test_matrix_ready : (matQS.core 0).matQ = [cmd .mzero .posted] ∧ matQS.posterHere (cmd .mzero .posted) = true ∧ (matQS.quad 0).table = [] ∧
    ((matS [cmd .mzero .accepted]).quad 0).table = [cmd .mzero .accepted] ∧
    groupOf 0 [groupM] groupM = some [0] ∧ (cmd .mzero .accepted).mode < 2 ∧
    (matS [cmd .mzero .accepted]).grantable [cmd .mzero .accepted] 0 (cmd .mzero .accepted) = true ∧ retiresFirst [cmd .mzero .started] (cmd .mzero .started) = true ∧
    { (matS [cmd .mzero .accepted]) with tick := 1024 }.tick.toNat = (cmd .mzero .accepted).since.toNat + 1024 := by decide +kernel

theorem test_set_ready : retiresFirst [setM] setM = true ∧ setM.fault = 0 ∧ (setM.desc 0).bkind ≠ 2 ∧ setM.slotNat 0 + setM.tileBox.1 ≤ 128 ∧
    setM.slotNat 1 + setM.tileBox.2 ≤ 128 ∧ setM.tile < 4 ∧ setM.tileBox = (1, 4) ∧
    (∀ k < 4, ((matS [setM]).readElem setM false (setM.desc 0) { c0 := setM.slotNat 3 + k, c1 := setM.slotNat 2 + 0 }).toOption = some 0) := by decide +kernel

theorem test_pass_ready : retiresFirst [passM] passM = true ∧ (passM.desc 0).fmt ≠ 3 ∧ passM.mnk = (1, 1, 4) ∧
    passM.step < ceilDiv passM.mnk.2.2 (passDepth (passM.desc 0).fmt (passM.desc 1).fmt) ∧
    (∀ k < 4, ((matS [passM]).elemValue passM (passM.desc 0) ((passM.desc 0).kCoord (passM.slotNat 1 + 0 + k) (passM.slotNat 0 + 0))).toOption =
      some (Fmt.f32.unpack 0)) ∧
    (∀ k < 4, ((matS [passM]).elemValue passM (passM.desc 1) ((passM.desc 1).kCoord (passM.slotNat 1 + (0 + k)) (passM.slotNat 2 + 0))).toOption =
      some (Fmt.f32.unpack 0)) := by decide +kernel

/-! The attention engine of stack 0. -/

def adeS (q : List Command) : State := { rs with hbm := [(0, { ade := q })] }

/-- One head of four elements, with no token, into the scratchpad. -/
def headM : Command := { cmd (.ade false) .started with slots := [0, 0, 0, 0, 0, 0, 0, 0], dyn := [4, 1, 1, 1, 4, 0, 1, 1, 4, 0, 1, 1, 4, 1, 1, 1] }

theorem test_ade_ready : ((adeS [cmd (.ade false) .posted]).stack 0).ade.findIdx? (fun d => d.phase == .posted) = some 0 ∧
    127 < ({ cmd (.ade false) .posted with slots := [128] }).slotNat 0 ∧ ((adeS [cmd (.ade false) .accepted]).stack 0).ade = [cmd (.ade false) .accepted] ∧
    (adeS [headM]).dieDown 0 = false ∧ headM.fault = 0 := by decide +kernel

theorem test_ade_heads_ready : headM.tokens = 0 ∧ headM.step < headM.heads ∧ ((adeS [headM]).adeHead headM 0 0).toOption.isSome = true ∧
    (headM.desc 3).bkind = 1 ∧ (headM.desc 3).fmt = 0 ∧ (headM.desc 3).base.toNat % 4 = 0 ∧ (headM.desc 3).stride 1 % 4 = 0 ∧
    (∀ i < 4, (headM.desc 3).base.toNat + (headM.desc 3).offset { c0 := i, c1 := 0 } < 0x80000) ∧
    ({ headM with step := 1 }).heads ≤ 1 := by decide +kernel

/-- Its query lies outside the scratchpad. -/
def lostM : Command := { headM with descs := [{ words := [(0, 0x01000000), (2, 0x80000), (6, 4), (7, 1), (8, 1), (9, 1)], invalid := false }] }

theorem test_ade_fault_ready : (match (adeS [lostM]).adeHead lostM 0 0 with
    | .error f => some f
    | .ok _ => none) = some 5 := by decide +kernel

/-! A Delf sequencer of context 1. -/

def seqS (z : Sequencer) : State := { rs with seqs := [(0, z)] }

def seq0 : Sequencer := { ctx := some 1 }

/-- A `dload` of one word at 0x18004, which is 0, `stop`; one of the word at 0x18000, whose field dg is not 0. -/
def dloadM (a : Word) : Command := { cmd .dload .posted with slots := [0, 5, a, 0, 4, 0, 0, 0] }

def drunM (p : CmdPhase) : Command := { cmd .drun p with slots := [0, 5, 0, 0, 0, 0, 0, 0] }

theorem test_dload_ready : ((seqS { seq0 with queue := [dloadM 0x18004] }).seq 0).queue = [dloadM 0x18004] ∧ (seqS seq0).dieDown (0 / 32) = false ∧
    (((seqS seq0).core 0).cbar 15).outstanding < 65535 ∧
    (((seqS { seq0 with queue := [dloadM 0x18004] }).countAccepted (dloadM 0x18004)).progWords (dloadM 0x18004) 0x18004 1).toOption = some [0] ∧ progBad [0] = false ∧
    (((seqS { seq0 with queue := [dloadM 0x18000] }).countAccepted (dloadM 0x18000)).progWords (dloadM 0x18000) 0x18000 1).toOption = some [0x02000000] ∧
    progBad [0x02000000] = true := by decide +kernel

/-- A run of a program: `stop`, or a copy of plane 0 to plane 1 of group 0. -/
def runSeq (w : Word) : Sequencer := { seq0 with tag := 5, prog := [w], queue := [drunM .started], region := [(0, 0x1008000)] }

theorem test_drun_ready : ((seqS { runSeq 0 with queue := [drunM .posted] }).countAccepted (drunM .posted)).runRegion 0 (drunM .posted) |>.toOption.isSome := by
  decide +kernel

theorem test_delf_ready : (runSeq 0).current = some (drunM .started, Micro.ofWord 0) ∧ (Micro.ofWord 0).op = 0 ∧
    (runSeq 0x10100000).current = some (drunM .started, Micro.ofWord 0x10100000) ∧ (Micro.ofWord 0x10100000).op = 1 ∧
    (Micro.ofWord 0x10100000).moves = true ∧ (Micro.ofWord 0x10100000).dg ≤ 3 ∧ (seqS (runSeq 0x10100000)).dieDown (0 / 32) = false ∧
    ((seqS (runSeq 0x10100000)).modDie 0 fun d => { d with reset := 2 }).dieDown (0 / 32) = true ∧ seq0.ctx ≠ some 2 ∧ seq0.region = [] := by decide +kernel

theorem poisoned_of_none (s : State) (a : Nat) (h : s.llc = []) (h' : s.dramBad = []) (h'' : s.dramFlip = []) : s.poisoned a = false := by
  have e : s.llcLine a = {} := by unfold State.llcLine; rw [h]; rfl
  have f : s.codeBad a = false := by
    have g : ∀ l : List Nat, (l.map (fun a => popc (SMap.get (0 : Word) a s.dramFlip))).sum = 0 := by
      intro l
      induction l with
      | nil => rfl
      | cons b l ih => rw [List.map_cons, List.sum_cons, ih, h'']; show popc (0 : Word) + 0 = 0; decide +kernel
    unfold State.codeBad
    rw [g]
    rfl
  simp [State.poisoned, e, State.memBad, h', f]

theorem rs_sound : rs.llc = [] ∧ rs.dramBad = [] ∧ rs.dramFlip = [] := by decide +kernel

theorem poisoned_seqS (z : Sequencer) (a : Nat) : (seqS z).poisoned a = false :=
  poisoned_of_none _ a rs_sound.1 rs_sound.2.1 rs_sound.2.2

theorem test_delf_sound_ready : (seqS (runSeq 0x10100000)).microPoisoned (runSeq 0x10100000) (Micro.ofWord 0x10100000) = false := by
  simp [State.microPoisoned, State.planePoisoned, poisoned_seqS]

/-! A collective of one rank. -/

def collM (p : CmdPhase) : Command := cmd (.coll 0 0) p

def collS (p : CmdPhase) (f : Coll → Coll) : State :=
  { (rs.modCtx 1 fun x => { x with groups := [(0, [(0, 0)])], sys := (0x1D, 16) :: x.sys }) with
    tick := 64, colls := [f { ctx := 1, group := 0, parts := [(0, collM p)], data := [(0, [1])] }] }

/-- The context has been halted since tick 2. -/
def collHalted : State := (collS .started id).modCtx 1 fun x => { x with halted := true, haltedAt := 2 }

theorem test_coll_ready : (((collS .posted id).colls[0]?).map (·.parts)) = some [(0, collM .posted)] ∧ ((collS .posted id).ctx 1).halted = false ∧
    (((collS .posted id).core 0).cbar 15).outstanding < 65535 ∧ ((collS .started id).colls[0]?).map (fun k => (collS .started id).collReady k) = some true ∧
    (((collS .started id).ctx 1).reg 0x1D).toNat % 2 ^ 32 = 16 ∧
    (∃ h ∈ collHalted.collHalts { ctx := 1, group := 0, parts := [(0, collM .started)], data := [(0, [1])] },
      max h.2.toNat (collM .started).since.toNat + 16 ≤ collHalted.tick.toNat) := by
  decide +kernel

/-! ### Hypotheses that hold: launches, logical cores and events -/

/-- The launch is accepted, its one workgroup goes to slot 0 of logical core 1. -/
def placeS : State := rs.modCtx 1 fun x => { x with launches := [{ launch0 with state := .accepted, place := [(1, 0, 0)], placedN := 0 }] }

theorem test_place_ready : ((placeS.ctx 1).launches.find? (fun l => l.state == .accepted)).map (·.place) = some [(1, 0, 0)] ∧ (placeS.ctx 1).alive = true ∧
    (placeS.ctx 1).removal = 0 ∧ placeS.hasPlace 1 1 = true ∧ slotsFree (placeS.wgsOf 1 1) 1 0 0 = true ∧
    (placeS.cores.find? (fun kv => kv.2.owner = some 1 && kv.2.lcore = some 1)).map (·.1) = some 1 := by decide +kernel

def doneS : State := rs.modCtx 1 fun x => { x with launches := [{ launch0 with finished := 1 }] }

theorem test_done_ready : ((doneS.ctx 1).launches[0]?).map (fun l => (doneS.launchDone 1 l, l.detMode)) = some (true, 0) ∧ (doneS.ctx 1).removal = 0 ∧
    (doneS.releaseAll 1).2 = true := by decide +kernel

/-- The thread is parked, or runs past the quantum. -/
def blockedS : State := rv.modThread 0 0 0 fun t => { t with park := .yield }

def awayS : State := { rv with tick := 0xFFFFFFFFFFFFFFFF }

theorem test_runaway_ready : blockedS.mayIssue 0 = true ∧
    ((blockedS.core 0).wg 0).map (fun g => g.threads.all (fun p => !p.2.live || p.2.park != .none)) = some true ∧
    ((awayS.core 0).wg 0).map (fun g => (decide (g.state = .resident),
      g.threads.any (fun p => p.2.live && p.2.park == .none && !p.2.reached && !awayS.isHeld 0 g p.1),
      decide (((awayS.ctx g.ctx).reg 0x16).toNat ≤ (awayS.tick - g.runaway).toNat))) = some (true, true, true) := by decide +kernel

theorem test_remap_ready : 2 < (rs.ctx 1).grid ∧ (rs.ctx 1).alive = true ∧ (rs.ctx 1).remapQ = [] ∧ rs.remapHeld 1 = false ∧ rs.isCurrent 1 2 = false ∧
    rs.isCurrent 1 1 = true := by decide +kernel

/-- Logical core 2 waits on core 0 for its start event. -/
def waitCore : State := w0 rs fun y => { y with saved := [(2, some { ct := { pending := [.start] } })] }

def slicedS : State := { waitCore.modCtx 1 fun x => { x with remap := [(2, 0)] } with tick := 0xFFFFFFFFFFFFFFFF }

theorem test_switch_request_ready : slicedS.mayIssue 0 = true ∧ (slicedS.core 0).switch = false ∧ (slicedS.core 0).lcore.isSome = true ∧
    (slicedS.nextCore 0).isSome = true ∧
    max ((slicedS.ctx (slicedS.coreCtx 0)).reg 0x1A).toNat (2 * (slicedS.core 0).swtime.toNat) ≤ (slicedS.tick - (slicedS.core 0).since).toNat := by decide +kernel

def evictS0 : State := w0 blockedS fun y => { y with wgs := y.wgs.map (fun kv => (kv.1, kv.2.map (fun g => { g with evict := true }))) }

theorem test_evict_ready : ((evictS0.core 0).wg 0).map (fun g => (decide (g.state = .resident), g.evict, evictS0.atBlocking 0 g, (evictS0.core 0).queuesIdle g)) =
      some (true, true, true, true) ∧ evictS0.grantedTo 0 0 = false ∧
    evictS0.saveAreaOk (evictS0.coreCtx 0) (evictS0.saveArea (evictS0.coreCtx 0) (((evictS0.core 0).lcore).getD 0)) = true ∧
    (evictS0.releaseNow (evictS0.coreCtx 0) (dieOf 0)).2 = true := by decide +kernel

/-- No logical core is current on core 0, and logical core 0 waits. -/
def vacantS : State := w0 waitCore fun y => { y with lcore := none, ct := {}, saved := [(0, some { ct := { pending := [.start] } })] }

theorem test_switch_ready : vacantS.mayIssue 0 = true ∧ (vacantS.core 0).lcore = none ∧ (vacantS.core 0).ct.cur.run = .idle ∧
    (vacantS.settleRemap (vacantS.coreCtx 0)).nextCore 0 = some 0 ∧
    (vacantS.settleRemap (vacantS.coreCtx 0)).saveAreaOk (vacantS.coreCtx 0) ((vacantS.settleRemap (vacantS.coreCtx 0)).saveArea (vacantS.coreCtx 0) 0) = true ∧
    (vacantS.settleRemap (vacantS.coreCtx 0)).unpoisoned ((vacantS.settleRemap (vacantS.coreCtx 0)).saveArea (vacantS.coreCtx 0) 0) saveBytes = true := by
  decide +kernel

def eventS (e : CtEvent) (c : CtRegs) : State := w0 rs fun y => { y with ct := { cur := c, pending := [e] } }

theorem test_take_event_ready : (∀ e ∈ [CtEvent.trap 0x11 1, .start, .prologue 0 0], (eventS e {}).mayIssue 0 = true ∧ ((eventS e {}).core 0).lcore.isSome = true ∧
      ((eventS e {}).core 0).ct.pending = [e] ∧ ((eventS e {}).core 0).ct.cur.run = .idle) ∧ ((eventS .start {}).core 0).ct.saved = [] ∧
    ((eventS .start {}).core 0).ct.trapped = [] := by decide +kernel

theorem test_start_ready : (rs.cores.find? (fun kv => kv.2.owner = some 1 && kv.2.lcore = some 1)).map (fun p => (p.1, p.2.ct.hasResident)) = some (1, false) ∧
    rs.hasPlace 1 1 = true ∧ 1 < (rs.ctx 1).grid := by decide +kernel

/-! ### Hypotheses that hold: recovery, peers, the host and Fellos -/

def remS (k : Nat) : State := rs.modCtx 1 fun x => { x with removal := k }

theorem test_removal_ready : (rs.ctx 1).alive = true ∧ (rs.ctx 1).removal = 0 ∧ (∀ k ∈ [1, 5, 6, 7, 8, 9], ((remS k).ctx 1).removal = k) ∧
    (rs.core 0).owner = some 1 := by decide +kernel

/-- A step of a removal lasts too long; a way has had 64 corrected errors. -/
def stallS : State := { remS 2 with tick := 16777216 }

def wornS : State := { rs with corrected := [(wayKey 0 0 1, List.replicate 64 0)] }

theorem test_stall_ready : 16777216 ≤ (stallS.tick - (stallS.ctx 1).began).toNat ∧ (∀ d < 16, (stallS.die d).reset = 0 ∧ (stallS.die d).offline = false) := by
  decide +kernel

theorem test_worn_ready : 64 ≤ (wornS.recentErrors (wayKey 0 0 1)).length ∧ wornS.quarant = [] := by
  refine ⟨?_, rfl⟩
  show 64 ≤ ((List.replicate 64 (0 : DWord)).filter (fun t => decide ((wornS.tick - t).toNat < 2 ^ 30))).length
  rw [List.filter_replicate, if_pos (by decide +kernel)]
  simp

def resetS (k : Nat) : State := { rs.modDie 0 fun d => { d with reset := k } with tick := 4194304 }

/-- No logical core is current on die 0. -/
def emptied : State := { resetS 1 with cores := [(0, { owner := some 1, regs := [(64, 1)] })] }

theorem test_reset_ready : (rs.die 0).reset = 0 ∧ (rs.die 0).offline = false ∧ (∀ k ∈ [2, 3, 4, 5, 6], ((resetS k).die 0).reset = k) ∧
    (emptied.die 0).reset = 1 ∧ (∀ kv ∈ emptied.cores, dieOf kv.1 = 0 → kv.2.lcore = none) ∧
    (∃ kv ∈ (resetS 1).cores, dieOf kv.1 = 0 ∧ kv.2.owner = some 1 ∧ kv.2.lcore.isSome) ∧
    4194304 ≤ ((resetS 1).tick - ((resetS 1).die 0).began).toNat ∧ ((resetS 1).ctx 1).removal = 0 ∧ dieOf 0 = 0 := by decide +kernel

/-- A clock stop that is armed for a tick that has ended. -/
def armedS : State := { rs with armed := some 5, tick := 6 }

theorem test_armed_ready : armedS.armed = some 5 ∧ (5 : DWord).toNat < armedS.tick.toNat ∧ armedS.stopped = false := by decide +kernel

def peer (x : Nat) (va : DWord) (k : PeerKind) : PeerReq := { pkg := 1, ctx := x, gen := 0, va := va, kind := k, size := 4, data := 7 }

theorem test_peer_ready : (∀ k ∈ [PeerKind.load, .store], peerFormed (peer 1 0x18000 k) = true ∧ (rs.peerPlace (peer 1 0x18000 k)).toOption = some 0x1008000) ∧
    0x1008000 % (peer 1 0x18000 .load).size = 0 ∧ (rs.ctx 5).alive = false ∧ peerFormed (peer 5 0x18000 .load) = true ∧
    peerFormed (peer 1 0x900000 .load) = true ∧ (rs.ctx 1).alive = true ∧ (rs.ctx 1).removal = 0 ∧ rs.walk 1 0x900000 = none := by decide +kernel

theorem noErrors_rs : NoErrors rs := ⟨fun _ => rfl, fun _ _ => rfl⟩

theorem test_peer_sound : ∀ a, rs.poisoned a = false := fun a => poisoned_of_none rs a rs_sound.1 rs_sound.2.1 rs_sound.2.2

/-- The first window frame is a peer's. -/
def peerMsg : Msg := { msg (.load 0 7 4) with pa := windowBase }

def linkS : State := { rs with mem := [(281474976710683, 0x40)], net := [peerMsg], tick := 16777216 }

theorem test_link_ready : linkS.net[0]? = some peerMsg ∧ isWindowPa peerMsg.pa = true ∧ linkS.windowKind peerMsg.pa = 1 ∧
    2 ^ 24 ≤ (linkS.tick - peerMsg.since).toNat ∧ SMap.get 0 3 rs.links < 16 ∧ SMap.get 0 3 ({ rs with links := [(3, 16)] } : State).links = 16 := by decide +kernel

/-- Function 0 is bound to context 1, its slot 0 to the bag, its window to 0x18000. -/
def vfS : State := { rs with vfs := [(0, { ctx := some 1, slots := [(0, some 0x20000)], base := 0x18000 })] }

theorem test_host_ready : (rs.vf 0).ctx = none ∧ (vfS.vf 0).ctx = some 1 ∧ SMap.get none (0 / 65536) (vfS.vf 0).slots = some 0x20000 ∧
    vfS.putFits 1 0 (4 * [(1 : Word), 2].length) 0x20000 = true ∧ vfS.putFits 1 0 (4 * [(1 : Word)].length) 0x20000 = false := by decide +kernel

theorem test_window_ready : (∀ i < 4, vfS.hostPlace 1 permR ((vfS.vf 0).base + BitVec.ofNat 64 (0 + i)) = [0x1008000, 0x1008001, 0x1008002, 0x1008003][i]?) ∧
    0 + 4 ≤ 2 ^ (vfS.vf 0).winBits ∧ vfS.hostPlace 1 permR ((vfS.vf 0).base + BitVec.ofNat 64 (0x9000 + 0)) = none := by decide +kernel

theorem noErrors_vfS : NoErrors vfS := ⟨fun _ => rfl, fun _ _ => rfl⟩

def inj0 : Injection := { pa := 0x1008000, tick := 5, bits := 1 }

def firedS : State := { rs with inject := [inj0], tick := 6, out := [.pageStore 0 0 0 4 5] }

theorem test_inject_ready : 1 ≤ popc inj0.bits ∧ popc inj0.bits ≤ 2 ∧ rs.tick.toNat < inj0.tick.toNat ∧ firedS.inject[0]? = some inj0 ∧
    inj0.tick.toNat ≤ firedS.tick.toNat ∧ firedS.out[0]? = some (.pageStore 0 0 0 4 5) ∧ (firedS.llcLine inj0.pa).valid.getLsbD (widx inj0.pa) = false := by
  decide +kernel

def onS : State := { rs with booted := true }

def spec2 : ContextSpec := { ctx := 2, grid := 1, remap := [7], ways := 0, dbg := 0, launchBag := 0x20000, area := 0x10000, cap := 1, limit := 1, groups := [] }

def entry0 : TableEntry := { words := #v[1, 2, 3, 4], target := #v[0, 0, 0, 0], anchor := none }

theorem test_fellos_ready : rs.booted = false ∧ onS.booted = true ∧ (onS.ctx spec2.ctx).alive = false ∧ (onS.ctx spec2.ctx).removal = 0 ∧
    (∀ kv ∈ onS.cores, kv.2.owner ≠ some spec2.ctx) ∧ onS.vacant 5 = true ∧ (onS.ctx 1).alive = true ∧ frameBase 1 = some 0x10000 ∧ onS.retired = [] ∧
    entry0.anchor = none ∧ onS.entryAddr 1 % 4 = 0 ∧ (vfS.vf 0).ctx.isSome = true ∧ ((rs.modCtx 1 fun x => { x with halted := true }).ctx 1).halted = true := by
  decide +kernel

/-- It is time to sample the power and a core, and a line of the LLC has a one-bit error. -/
def sampleS : State := { (w0 rs fun y => { y with sys := [(0x20, 16)] }) with
  tick := 1048576, llc := [(0x20100, { valid := 1, dirty := 1, flips := [(0, 4)], data := [(0, 9)] })] }

theorem test_power_ready : 65536 ≤ (sampleS.tick - sampleS.sampled).toNat ∧ (sampleS.die 5).power ≤ 1 ∧ (sampleS.die 5).offline = false ∧
    2 ^ 20 ≤ (sampleS.tick - (sampleS.die 5).idle).toNat ∧ (∀ kv ∈ sampleS.cores, dieOf kv.1 = 5 → kv.2.active = false) ∧
    ((sampleS.core 0).sysReg 0x20).toNat ≠ 0 := by decide +kernel

theorem test_scrub_ready : homeStack (0x20100 * 128) = 0 ∧
    (∀ i < 32, popc (SMap.get 0 i (SMap.get ({} : LlcLine) 0x20100 sampleS.llc).flips) ≤ 1) ∧
    (SMap.get ({} : LlcLine) 0x20100 sampleS.llc).valid.getLsbD 0 = true := by decide +kernel

/-! ### Hypotheses that hold: steps and fetches -/

/-- The word of `addi v5, 5, 512`, placed where the next step fetches. -/
def placed : State := State.reset.withFetchWord 32 0x4001453B

def begunS : State := { placed with turn := none, issuer := some (.vec 0 0) }

def isCode (f : Fetched) (bs : List Byte) : Bool :=
  match f with
  | .code b _ => b == bs
  | _ => false

/-- R34: the word's bytes come from the mapped page, lowest first. -/
theorem test_step_ready : placed.stopped = false ∧ placed.armed = none ∧ placed.turn = some (.vec 0 0) ∧ begunS.vecPc 0 0 = some (1, 0x10000) ∧
    isCode (begunS.fetch 0 1 0x10000) [0x3B, 0x45, 0x01, 0x40] = true ∧ decode [0x3B, 0x45, 0x01, 0x40] = .ok (.addi 512 5 5, []) := by decide +kernel

/-- A word of an unassigned major. -/
def placedBad : State := State.reset.withFetchWord 32 0x0000006D

theorem test_step_bad_ready : isCode ({ placedBad with turn := none, issuer := some (.vec 0 0) }.fetch 0 1 0x10000) [0x6D, 0, 0, 0] = true ∧
    decode [0x6D, 0, 0, 0] = .error .unassignedMajor ∧ placedBad.turn = some (.vec 0 0) := by decide +kernel

theorem test_event_ready : ({ placed with turn := some (.event .tickstopFire) } : State).turn = some (.event .tickstopFire) ∧
    (({ placed with stopped := true } : State).stopped = true) ∧ armedS.stopped = false := by decide +kernel

theorem test_fetch_ready : canonical 0x10000 = true ∧ (match begunS.xlate 0 1 0x10000 with
      | some t => t.grants permX && begunS.ownsFrame 1 t.pa && !isWindowPa t.pa && !begunS.homeDown t.pa && !begunS.poisoned t.pa
      | none => false) = true ∧ begunS.oldHalves 1 (begunS.ctx 1).gen ((0x10000 : DWord).toNat / 2) = [] ∧
    begunS.xlate 0 1 0x20000 = none := by decide +kernel

/-! ### Hypotheses that hold: what waits, and the second branches -/

theorem test_leaves_more_ready : leaveS.ownsFrame (leaveS.coreCtx 0) st16.pa = true ∧ storeS.writeWaits 0x1008000 = false ∧
    dirtyS.writeWaits (4 * 0x402000) = false ∧ (heldS.core 0).queueSaved 0 = false ∧ atomS.writeWaits 0x1008000 = false := by decide +kernel

/-- A load of the word at its home, plain or `.fresh`. -/
def askedS (k : PendKind) : State := w0 readS fun y => { y with loads := [{ dueLoad with kind := k, size := 4, data := none }] }

theorem test_home_load_ready : ∀ k ∈ [PendKind.plain, .home], Asked (askedS k) 0 loadMsg ∧ ((askedS k).core 0).readsBefore 7 loadMsg = false ∧
    ((askedS k).core 0).loads.find? (fun p => p.id = 7 && p.who == lane0 && p.data.isNone) = some { dueLoad with kind := k, size := 4, data := none } ∧
    (askedS k).memBad 0x1008000 = false := by simp only [Asked]; decide +kernel

/-- Its thread waits for a load at pod scope. -/
def remoteS : State := (w0 rv fun y => { y with loads := [{ dueLoad with remote := true }] }).modThread 0 0 0 fun t => { t with park := .remote }

theorem test_remote_ready : (remoteS.core 0).loads[0]? = some { dueLoad with remote := true } ∧ (remoteS.thread 0 0 0).park = .remote ∧
    ((remoteS.core 0).wg 0).map (·.state) = some .resident := by decide +kernel

/-- The generation has moved on since the store was sent. -/
def olderS : State := (netS [msg (.store 4 5)]).modCtx 1 fun x => { x with gen := 1 }

theorem test_older_ready : genOlder (olderS.ctx 1).gen (msg (.store 4 5)).gen = true ∧ staleS.isPhys staleMsg = false ∧ olderS.isPhys (msg (.store 4 5)) = false ∧
    olderS.again 0 1 0x18000 permW = .at_ 0x1008000 := by decide +kernel

/-- Die 0 is in reset while a `.fresh` load and a store of it are on their way. -/
def lostS : State := w0 downQ fun y => { y with loads := [{ dueLoad with kind := .home, size := 4, data := none }] }

theorem test_lost_ready : (lostS.core 0).loads.find? (fun p => p.id = 7 && p.who == lane0 && p.data.isNone) = some { dueLoad with kind := .home, size := 4, data := none } ∧
    (lostS.die (dieOf 0)).dirtyAt (wordAddr 0x1008000) = false ∧ (lostS.thread 0 0 0).live = true ∧ (lostS.thread 0 0 0).park = .none ∧
    (lostS.thread 0 0 0).effect = none ∧ ((lostS.core 0).wg 0).map (·.state) = some .resident := by decide +kernel

theorem test_waits_more_ready : arriveS.registerWaits { wait9 with pa := 0x1008000, gen := 0 } = false ∧
    evictS.saveAreaOk 1 (evictS.saveArea 1 0) = true := by decide +kernel

/-- The condition under which a registration waits, over its parts: no entry to join, a full table, and no room to spill. -/
theorem test_full_region (s : State) (w : Wait) (h : (s.stack (homeStack w.pa)).fallbackFull = true)
    (h1 : ∀ p, (joinFirst w p (SMap.get [] (homeSlice w.pa) (s.stack (homeStack w.pa)).monitor)).isNone = true)
    (h2 : monitorEntries ≤ (SMap.get [] (homeSlice w.pa) (s.stack (homeStack w.pa)).monitor).length)
    (h3 : ∀ p, (joinFirst w p (s.stack (homeStack w.pa)).spilled).isNone = true) (h4 : s.overflowReady w.ctx = false) : s.registerWaits w = true := by
  simp [State.registerWaits, h, h1, h2, h3, h4]

/-- No bag has the header. -/
theorem test_no_bag_ready : (bagS oneBag (.put 3 [1])).bagAt 1 0x50000 = none ∧ 2 ^ oneBag.logb ≤ (2 : Word).toNat ∧ oneBag.cap < 65536 := by decide +kernel

theorem atHome_noBag (r : Req) : atHome ({ rv with bags := [], net := [bmsg r] } : State) 0 (bmsg r) ∧ ({ rv with bags := [], net := [bmsg r] } : State).bagAt 1 0x20000 = none := by
  refine ⟨⟨rfl, rfl, rfl, ?_, ?_⟩, rfl⟩
  · show State.homeDown rv 0x3000000 = false
    decide +kernel
  · intro o ho; cases ho

/-- A bag whose header page shows nothing but its shape: the words that differ from what memory reads as are listed. -/
theorem test_header_ready : oneBag.headerPa % 4 = 0 ∧ ∀ i < 2, oneBag.slotPa 1 1 + 4 * i + 4 ≤ oneBag.headerPa ∨ oneBag.headerPa + 65536 ≤ oneBag.slotPa 1 1 + 4 * i := by
  decide +kernel

/-- Replies to a thread of the control stream, FULL and RESERVE, and results of queries. -/
theorem test_bag_replies_more_ready :
    (bagReplyS (.put 3 []) (.full 4) (.staithe 7)).net[0]? = some { bmsg (.put 3 []) with reply := some (.full 4), load := some 7 } ∧
    (bagReplyS (.grow 9) (.reserve 8) (.staithe 0)).net[0]? = some { bmsg (.grow 9) with reply := some (.reserve 8), load := some 7 } ∧
    resultsOf (.next 1 4 1) (.cursor 0x40000 1 0x10004 1) = some [0x40000, 1 + 2 ^ 32 * 0x10004 + 2 ^ 64] ∧ resultsOf .seal (.value 1) = some [1] ∧
    resultsOf (.snapshot 0 1) (.cursor 0 1 4 1) = some [1 + 2 ^ 32 * 4 + 2 ^ 64] ∧ resultsOf (.count none) (.value 5) = some [5] := by decide +kernel

/-- The frontier entry chosen is the one there is. -/
theorem test_form_more_ready : ((form0.ripen 0).chooseForm 0).isSome = true ∧ ((form0.core 0).warp 0).isSome = false ∧
    age0.atExchange 0 1 0x10000 = false := by decide +kernel

/-- The entry stands at the lane exchange `lget v5, v63, 64 + 0`. -/
def exch : State := ((State.reset.withFetchWord 32 (match encode (.lget ⟨5, 63, 0, 5, 0⟩) with
    | some (.word w) => w.toNat
    | _ => 0)).modWg 0 0 fun g => { g with frontier := [form0.fent] })

theorem test_exchange_entry_ready : exch.atExchange 0 1 0x10000 = true ∧ ({ exch with tick := 4096 } : State).atExchange 0 1 0x10000 = true ∧
    (((exch.core 0).wg 0).map (·.frontier)) = some [form0.fent] := by decide +kernel

theorem test_boundaries : 0x1008000 % 4 = 0 ∧ ((matQS.quad (quadOf 0)).table.length < 32) ∧ (cpM .started).copyCount = 4 ∧ (cpM .started).slotNat 0 + 0 < (cpM .started).ext 1 1 := by
  decide +kernel

/-- The command at stack 5 belongs to the engine of the own die's stack. -/
def awayM : State := { rs with hbm := [(5, { ade := [cmd (.ade false) .posted] })] }

theorem test_reroute_ready : awayM.adeStack (cmd (.ade false) .posted) = 0 ∧ (awayM.stack 5).ade = [cmd (.ade false) .posted] ∧ (awayM.stack 0).ade = [] ∧
    (adeS [cmd (.ade false) .posted]).adeStack (cmd (.ade false) .posted) = 0 ∧ ((seqS seq0).die (0 / 32)).reset = 0 := by decide +kernel

theorem test_digest_event_ready : (eventS (.digest 0x18000 0x18080) {}).mayIssue 0 = true ∧ ((eventS (.digest 0x18000 0x18080) {}).core 0).ct.trapped = [] ∧
    ((eventS (.digest 0x18000 0x18080) {}).core 0).ct.pending = [.digest 0x18000 0x18080] ∧
    (eventS (.digest 0x18000 0x18080) {}).saveAreaOk 1 ((eventS (.digest 0x18000 0x18080) {}).saveArea 1 0) = true := by decide +kernel

/-- A logical core of the context is switched out, saved on the stack of die 0. -/
def savedS : State := w0 (resetS 1) fun y => { y with saved := [(2, some {})] }

theorem test_saved_on_ready : emptied.savedOn 0 = [] ∧ 1 ∈ savedS.savedOn 0 ∧ (savedS.die 0).reset = 1 ∧ (savedS.ctx 1).removal = 0 ∧
    homeStack ((resetS 1).saveArea 1 0) = 0 := by decide +kernel

theorem test_peer_atomic_ready : peerFormed (peer 1 0x18000 (.atomic 13 false)) = true ∧ (rs.peerPlace (peer 1 0x18000 (.atomic 13 false))).toOption = some 0x1008000 ∧
    (peer 1 0x18000 (.atomic 13 false)).size = 4 ∧ rs.dirtyDies 0x1008000 = [] := by decide +kernel

/-- A package with the mapped page of context 1, which does not live. -/
def freshS : State := ({ rs with cores := [], bags := [], booted := true } : State).modCtx 1 fun x => { x with alive := false, launches := [] }

def spec1 : ContextSpec := { spec2 with ctx := 1, launchBag := 0x10000 }

theorem test_create_ready : (freshS.ctx 1).alive = false ∧ (freshS.ctx 1).removal = 0 ∧ (∀ kv ∈ freshS.cores, kv.2.owner ≠ some 1) ∧
    ((created freshS spec1).checkBag 1 (bagWords spec1)).1 = 0 ∧ ((created onS spec2).checkBag 2 (bagWords spec2)).1 ≠ 0 := by decide +kernel

theorem test_table_frames_ready : frameBase 1000 = some 0x3E80000 ∧ onS.isTableFrame 0x3E80000 = false ∧ onS.entryAddr 1000 % 4 = 0 ∧
    frameBase 1 = some 0x10000 ∧ onS.isTableFrame 0x10000 = true ∧ (IEntry.ofWords 0 0x00100000 0 0x800).owned = true := by decide +kernel

/-- A step whose part is not due yet, and one with every clock gated. -/
theorem test_boot_turn_ready : ({ placed with stopped := true, turn := some (.event .boot) } : State).stopped = true ∧ placed.booted = false := by decide +kernel


/-! ### Hypotheses that hold: clauses on workgroups that are away, watchpoints, pushes, returns and skips -/

/-- Workgroups and threads in canonical form, none of them away. -/
def noneAwayB (s : State) : Bool :=
  SMap.wf none (s.core 0).wgs && (s.core 0).wgs.all (fun kv => match kv.2 with
    | some g => SMap.wf {} g.threads && g.state == .resident
    | none => true)

/-- What holds of every workgroup listed holds of each one. -/
theorem wgs_all (s : State) (f : Option Workgroup → Bool) (h : SMap.wf none (s.core 0).wgs = true) (ha : (s.core 0).wgs.all (fun kv => f kv.2) = true)
    (ws : Nat) (g : Workgroup) (hg : (s.core 0).wg ws = some g) : f (some g) = true :=
  List.all_eq_true.mp ha (ws, some g) ((SMap.mem_wf h ws (some g)).mpr ⟨hg, by simp⟩)

theorem noneAway_of (s : State) (p : Park → Bool) (h : noneAwayB s = true) : noneAway s 0 p := by
  simp only [noneAwayB, Bool.and_eq_true] at h
  refine ⟨h.1, fun ws g hg => ?_⟩
  have hb := wgs_all s (fun o => match o with
    | some g => SMap.wf {} g.threads && g.state == .resident
    | none => true) h.1 h.2 ws g hg
  simp only [Bool.and_eq_true, beq_iff_eq] at hb
  exact ⟨hb.1, fun hn => absurd hb.2 hn⟩

theorem test_away_ready : ∀ s ∈ [vs, rv, qv, cs, ru], ∀ p, noneAway s 0 p := by
  intro s hs p
  have : ∀ s ∈ [vs, rv, qv, cs, ru], noneAwayB s = true := by decide +kernel
  exact noneAway_of s p (this s hs)

/-- Comparator 0 watches the loads of the whole space. -/
def watchS : State := w0 rv fun y => { y with sys := [(0x22, 1), (0x24, 0), (0x28, 0xFFFFFFFFFFFF)] }

theorem test_watch_ready : let e := (watchS.env 0 0).getD default
    readyVec watchS e (.ldW32 ⟨0, 1, 0, 0, 60⟩) (loadUses ⟨0, 1, 0, 0, 60⟩ 4) = true ∧
    (e.issueSet 0).filter (fun l => (watchS.accessTrap e.c e.x (e.base l 1) 4 permR false).isSome) = [] ∧
    (e.issueSet 0).filter (fun l => !(e.thread l).watched && e.cr.watchMask (e.base l 1) 4 true false != 0) = [l0] ∧
    e.x = watchS.coreCtx e.c ∧ watchS.owesResults e.c e.ws e.lanes = false ∧
    watchS.saveAreaOk e.x (watchS.saveArea e.x (e.cr.lcore.getD 0)) = true := by decide +kernel

/-- Four frames on chip. -/
def ev4 : State := rv.modThread 0 0 0 fun t => { t with frames := List.replicate 4 frame0, onChip := 4, sp := 0x18100 }

def ev4e : Env := (ev4.env 0 0).getD default

theorem test_spill_ready : readyVec ev4 ev4e (.hpush ⟨0, 127, 1, 0, 0⟩) { g := 0 } = true ∧ ev4e.x = ev4.coreCtx ev4e.c ∧ ev4e.issueSet 0 = [l0] ∧
    (ev4e.thread l0).frames.length < 64 ∧ (ev4e.thread l0).onChip = 4 ∧ (ev4.handler ev4e.g 0).1 ≠ 0xFFFFFFFF ∧
    ev4.stackPages ev4e.c ev4e.x ((ev4e.thread l0).sp - 32) 32 = true ∧ ownOkB ev4 ((ev4e.thread l0).sp - 32) frame0.image = true ∧
    ev4e.cr.watchMask ((ev4e.thread l0).sp - 32) 32 true true = 0 ∧ ev4e.cr.roomFor (ev4e.issueSet 0) = true := by decide +kernel

/-- A flag that is false guards a no-operation of the control thread. -/
theorem test_skip_ready : skipsCt cs ce (.nop 7) 7 ∧ (Instr.nop 7, (7 : BitVec 3)) ∈ guardedCt default default default default default default default 0 0 0 0 0 0 0 0 7 := by
  refine ⟨?_, by decide +kernel⟩
  simp only [skipsCt]; decide +kernel

/-- Barrier 15 has failed, in a workgroup with a save area; its thread has no frame, or one for every effect. -/
def faultS (fr : List Frame) : State := w0 (rv.modThread 0 0 0 fun t => { t with frames := fr, onChip := fr.length }) fun y =>
  { y with cbars := [(15, { error := true, code := 2 })] }

def anyFrame : Frame := { frame0 with eff := 255 }

theorem test_engine_error_ready : ∀ fr ∈ [[], [anyFrame]], let e := ((faultS fr).env 0 0).getD default
    readyVec (faultS fr) e (.cwait ⟨1, 7, 15, 0, 63, 0⟩) { g := 0, regs := destRegs 0 63, preds := true } = true ∧ (e.cr.cbar 15).error = true ∧ 64 ≤ e.g.nregs ∧ e.issueSet 0 = [l0] ∧
    (e.thread l0).frames = fr ∧ e.x = (faultS fr).coreCtx e.c ∧ (faultS fr).owesResults e.c e.ws e.lanes = false ∧
    (faultS fr).saveAreaOk e.x ((faultS fr).saveArea e.x (e.cr.lcore.getD 0)) = true ∧ e.cr.room 0 1 = true ∧ e.cr.owes (e.who l0) [61, 62, 63] = false ∧
    ownOkB (faultS fr) ((e.thread l0).sp - 16) [0] = true ∧ ((faultS fr).launch 1 0).map (·.trace) = some false ∧
    ((faultS fr).stageOf e.g).isSome = true := by decide +kernel

/-- The head of the control thread's queue is held after an error reply, and the prologue has trapped with REMOTE_ERR. -/
def tretR : State := w0 rs fun y => { (y.setQueue ctQueue [{ (plainEntry (.store 4 5 0 false false) (.ct 0 0) 0x10100 0x18000 0x1008000 0) with phase := .held 5 }]) with
  ct := { y.ct with trapped := [{ run := .prologue 0 0, pc := 0x10100, remote := true }] } }

theorem test_held_return_ready : readyCt tretR (tretR.cenv 0) (.tret 0 102 31 0) { g := 0, regs := codeRegs 102 ++ [31] } = true ∧
    ((tretR.cenv 0).operand 102).toNat = 6 ∧ (tretR.cenv 0).cr.ct.trapped.map (·.remote) = [true] ∧ (tretR.cenv 0).cr.lcore ≠ none ∧
    (tretR.heldHead 0 ctQueue (tretR.cenv 0).who).map (·.more) = some false ∧ tretR.saveAreaOk 1 (tretR.saveArea 1 0) = true := by decide +kernel

/-- The saved record of thread 0 of the trapped workgroup says that it lives. -/
def tretL : State := { tretW with mem := tretW.mem.setWord (tretW.saveArea 1 0 + saveThread 0 0 + 0x14) 1 }

theorem test_live_return_ready : ((tretL.cenv 0).cr.wg 0).map (fun w => (decide (w.state = .trapped), w.hw, decide (0 < w.warps))) = some (true, 0, true) ∧
    (tretL.homeWord (tretL.saveArea 1 0 + saveThread 0 0 + 0x14)).getLsbD 0 = true ∧ tretL.waits = [] ∧
    (tretL.trapFrameAt (tretL.saveArea 1 0 + saveWg 0 + saveFrame)).reps = [] := by decide +kernel

/-! ### Hypotheses that hold: what leaves a store queue, and what comes back -/

/-- A head that may leave, as a test: every workgroup of the core has its first thread alive. -/
def leavesB (s : State) (q : Entry) : Bool :=
  (s.core 0).queue 0 == [q] && SMap.wf none (s.core 0).wgs && (s.core 0).wgs.all (fun kv => match kv.2 with
    | some g => (g.thread 0).live
    | none => true) && decide (q.phase = .queued) && !(s.core 0).blocked 0 q && q.gen == (s.ctx (s.coreCtx 0)).gen && (s.releaseWords 0 q).isEmpty &&
  !s.peerWritesOut (s.coreCtx 0)

theorem leaves_of (s : State) (q : Entry) (h : leavesB s q = true) : Leaves s 0 0 q [] := by
  simp only [leavesB, Bool.and_eq_true, beq_iff_eq, decide_eq_true_eq, Bool.not_eq_true', List.isEmpty_iff] at h
  obtain ⟨⟨⟨⟨⟨⟨⟨hq, hw⟩, ha⟩, hp⟩, hb⟩, hg⟩, hr⟩, ho⟩ := h
  refine ⟨hq, .inr fun ws g hg => ⟨0, ?_⟩, .inl ⟨hp, hb, hg, hr, fun _ => ho⟩⟩
  exact wgs_all s (fun o => match o with
    | some g => (g.thread 0).live
    | none => true) hw ha ws g hg

/-- An entry of a kind at the head of the queue. -/
def kindE (k : EntryKind) : Entry := plainEntry k lane0 0x10000 0x18000 0x1008000 0

def kinds : List EntryKind :=
  [.store 4 5 0 false false, .store 2 5 0 false false, .store 4 5 4 false false, .store 4 5 0 false true, .atomic 0 false false false 1 0 (some 5),
   .drain 7, .put 7 0x20000 3 [1], .wait 9, .bagOp 0 7, .bagOp 1 7, .bagOp 2 7, .fence 2, .span 64 true true, .arrive 3 1, .pgreq 0x18008,
   .command (cmd (.cp false) .posted), .command (cmd .mzero .posted), .command { cmd (.ade false) .posted with who := lane0 }]

theorem test_kinds_leave : ∀ k ∈ kinds, Leaves (queueS [kindE k]) 0 0 (kindE k) [] ∧ noSteals (queueS [kindE k]) := by
  intro k hk
  have h : ∀ k ∈ kinds, leavesB (queueS [kindE k]) (kindE k) = true ∧ (queueS [kindE k]).net = [] := by decide +kernel
  refine ⟨leaves_of _ _ (h k hk).1, fun m hm => ?_⟩
  rw [(h k hk).2] at hm
  cases hm

/-- Die 0 holds the word of a halfword store, or a word that a release must write back. -/
def mergeS : State := (queueS [kindE (.store 2 5 0 false false)]).modDie 0 fun d => d.putWord 0x1008000 9 true false

def releaseS : State := (queueS [kindE (.store 4 5 4 false false)]).modDie 0 fun d => d.putWord 0x1008100 9 true false

theorem test_more_leaves_ready : leavesB mergeS (kindE (.store 2 5 0 false false)) = true ∧ (mergeS.die 0).word 0x1008000 = some 9 ∧
    (releaseS.core 0).queue 0 = [kindE (.store 4 5 4 false false)] ∧ releaseS.releaseWords 0 (kindE (.store 4 5 4 false false)) ≠ [] ∧
    (∀ w ∈ releaseS.releaseWords 0 (kindE (.store 4 5 4 false false)), releaseS.homeDown (4 * w) = false) ∧ ((drainS 0x40000).recordSlot 1 0x40000).isSome = true ∧
    (let q := { kindE (.drain 7) with va := 0x40000 }; leavesB { queueS [q] with bags := (drainS 0x40000).bags } q = true) ∧
    (rv.tableWords 1 0x18000 false 8).isSome = true ∧ (rv.tableWords 1 0x50000 false 8).isNone = true ∧ (rv.walk 1 0x18000).map (·.pa) = some 0x1008000 ∧
    (rv.walk 1 0x18008).map (fun t => (t.grants permW, rv.isHeader t.pa, isWindowPa t.pa)) = some (true, false, false) ∧
    rv.homeDown 0x1008000 = false ∧ rv.tableLoad (quadOf 0) < 32 ∧ ((rv.core 0).copyQ.filter (fun d => d.phase != .started)).length < 16 ∧
    (rv.stack (rv.adeStack (cmd (.ade false) .posted))).ade.length < 64 := by decide +kernel

/-- Results that are due: a refused one, a byte with its sign, a poisoned one, an acquire, one that its thread is parked for, and one of a control thread. -/
def dueOf (p : Load) : State := w0 rv fun y => { y with loads := [p] }

theorem test_results_ready : (∀ p ∈ [{ dueLoad with data := some none }, { dueLoad with size := 1, signed := true, data := some (some 0x80), pred := 0 },
      { dueLoad with data := some none, poison := some 1 }, { dueLoad with scope := 4 }],
      ((dueOf p).core 0).loads[0]? = some p ∧ p.data ≠ none ∧ p.record = none ∧ p.remote = false ∧ ((dueOf p).core 0).lcore = some 0 ∧
      (((dueOf p).core 0).wg 0).map (·.state) = some .resident ∧ ((dueOf p).thread 0 0 0).live = true ∧ ((dueOf p).thread 0 0 0).park = .none) ∧
    (let s := w0 cs fun y => { y with loads := [{ dueLoad with who := .ct 0 0, size := 2, signed := true, dest := some 5, pred := 0, warp := some y.ct.cur.tag }] }
     (s.core 0).lcore = some 0 ∧ ((s.core 0).loads[0]?).map (·.warp) = some (some (s.core 0).ct.cur.tag)) := by decide +kernel

/-- Requests of an older generation: a load, and a wait. -/
def oldS (m : Msg) : State := { (waitS [m]).modCtx 1 fun x => { x with gen := 1 } with cores := (rv.modCore 0 fun y => { y with tlb := [], loads := [{ dueLoad with data := none }] }).cores }

theorem test_old_requests_ready : genOlder ((oldS loadMsg).ctx 1).gen loadMsg.gen = true ∧ (oldS loadMsg).net[0]? = some loadMsg ∧
    (oldS { loadMsg with va := 0x50000 }).again 0 1 0x50000 permR = .absent ∧ genOlder ((oldS (msg (.wait 9))).ctx 1).gen (msg (.wait 9)).gen = true ∧
    (oldS (msg (.wait 9))).waits.find? (·.id = 9) = some wait9 := by decide +kernel

/-- A load is refused at a die that is down, and a reply comes for a context that is being removed. -/
theorem test_down_ready : let s := w0 downS fun y => { y with loads := [{ dueLoad with kind := .home, data := none, size := 4 }] }
    (s.ctx 1).removal = 0 ∧ (s.core 0).loads.find? (fun p => p.id = 7 && p.who == lane0 && p.data.isNone) =
      some { dueLoad with kind := .home, data := none, size := 4 } ∧
    (let t := downQ.modCtx 1 fun x => { x with removal := 1 }
     (t.ctx 1).removal ≠ 0 ∧ t.net[1]? = some (msg (.store 16 5)) ∧ t.homeDown 0x1008000 = true) := by decide +kernel

/-- A wait that waits at its slice for room, as its cancel comes, and one whose entry was retired. -/
theorem test_cancel_more_ready : let s := waitS [msg (.cancel 9), msg (.wait 9)]
    s.net[0]? = some (msg (.cancel 9)) ∧ s.net.findIdx? (fun o => o.req == .wait 9 && o.reply.isNone) = some 1 ∧ s.applicable (msg (.wait 9)) = true ∧
    waitCond wait9.cmp (s.homeWord 0x1008000) wait9.x false = false ∧ s.homeDown 0x1008000 = false ∧ s.poisoned 0x1008000 = false ∧ s.dirtyDies 0x1008000 = [] ∧
    (let t := { waitS [msg (.cancel 9)] with waits := [{ wait9 with evicted := true }] }
     (∀ o ∈ t.net, o.req = .wait 9 → o.reply ≠ none) ∧ t.waits.find? (·.id = 9) = some { wait9 with evicted := true }) := by decide +kernel

/-- The last thread of a workgroup has exited as the result of its atomic comes. -/
theorem test_last_reply_ready : let s := (atomReplyS.modThread 0 0 0 fun t => { t with live := false })
    ((s.core 0).wgs.map (fun kv => (kv.1, kv.2.map (fun g => (g.started, g.hw, g.warps, g.threads.all (fun t => !t.2.live)))))) = [(0, some (true, 0, 1, true))] ∧
    (s.core 0).loads = [{ dueLoad with kind := .atomic, data := none }] ∧ (s.core 0).queue 0 = [{ atomEntry with phase := .sent }] ∧
    (∀ h ∈ (s.core 0).queues.map (·.1), h ≠ 0 → (s.core 0).queue h = []) := by decide +kernel

/-! ### Hypotheses that hold: clauses on what engines compute, on collectives of several ranks, and on what ends them -/

/-- A copy of 4 elements or of 5, its boxes at the origins. -/
def boxM (e0 : Word) : Command := { cpM .posted with tidA := 0, tidB := 0, slots := [0, 0, 0, 0, 1, e0, 0, 0] }

def boxS (e0 : Word) : State := (copyS [boxM e0]).modCtx 1 fun x => { x with descs := [(0, spDesc)] }

theorem test_copy_boxes_ready : (∀ e, ((boxS e).core 0).copyQ = [boxM e] ∧ (boxS e).desc 1 0 = spDesc ∧ (boxM e).fault = 0 ∧
    (boxM e).slotNat 5 = e.toNat ∧ (boxM e).slotNat 4 = 1) ∧ spDesc.extField 0 = 4 ∧ spDesc.extField 1 = 1 :=
  ⟨fun _ => ⟨rfl, rfl, rfl, rfl, rfl⟩, by decide +kernel, by decide +kernel⟩

theorem test_copy_desc_ready : spDesc.invalid = false ∧ spDesc.four = false ∧ spDesc.bkind = 1 ∧ (∀ k < 4, spDesc.isDyn k = false) ∧
    ∀ i < 4, spDesc.base.toNat + spDesc.offset { c0 := i } + spDesc.bytes ≤ 0x80000 := by decide +kernel

/-- Commands of a tile: into the scratchpad, a bias, a scan to three areas of it, and a pass on integers. -/
def mldM : Command := { cmd (.mld 0) .started with slots := [0, 0, 0, 0, 1, 4, 0, 0] }

def biasM : Command := { cmd .mzeroBias .started with slots := [0, 0, 0, 0, 0, 0, 0, 0] }

def scanM : Command := { cmd .mscan .started with slots := [0, 4, 0x200, 0x300, 0x400, 0, 0, 0] }

def intDesc : Descriptor := { words := [(0, 0x31000000), (2, 0x100), (6, 4), (7, 1), (8, 1), (9, 1)], invalid := false }

def intM : Command := { passM with descs := [intDesc, intDesc, intDesc, intDesc] }

theorem test_tile_ready : (∀ m ∈ [mldM, biasM, scanM, intM], retiresFirst [m] m = true ∧ m.fault = 0 ∧ m.toQueue = false) ∧
    (mldM.desc 0).bkind = 1 ∧ (mldM.desc 0).fmt = 0 ∧ (mldM.desc 0).base.toNat % (mldM.desc 0).bytes = 0 ∧
    (mldM.desc 0).stride 1 % (mldM.desc 0).bytes = 0 ∧ mldM.tileBox = (1, 4) ∧
    (∀ k < 4, (mldM.desc 0).base.toNat + (mldM.desc 0).offset { c0 := k } = 0x100 + 4 * k) ∧ scanBad scanM = false ∧ scanM.scanExt = 4 := by decide +kernel

theorem test_bias_ready : ∀ j < 128, ((matS [biasM]).readElem biasM false (biasM.desc 0) { c0 := biasM.slotNat 0 + j, c1 := biasM.slotNat 1 }).toOption = some 0 := by
  decide +kernel

theorem test_integer_pass_ready : (intM.desc 0).fmt = 3 ∧ intM.mnk = (1, 1, 4) ∧ intM.step < ceilDiv intM.mnk.2.2 (passDepth 3 3) ∧
    ∀ k < 4, ((matS [intM]).elemInt intM (intM.desc 0) ((intM.desc 0).kCoord k 0)).toOption = some 0 := by decide +kernel

/-- A formed group of one member that has been granted. -/
def formedM : Command := { groupM with phase := .started, formed := true, slot := some 9 }

theorem test_group_pass_ready : membersOf [formedM] formedM = [formedM] ∧ 2 ≤ formedM.mode ∧ formedM.fault = 0 ∧ retiresFirst [formedM] formedM = true ∧
    formedM.step < formedM.passes (groupDepth [formedM]) ∧ formedM.mnk = (1, 1, 4) ∧ (formedM.desc 0).fmt ≠ 3 ∧ (formedM.desc 0).bkind ≠ 2 ∧
    bSource [formedM] formedM 0 0 = (formedM, (formedM.desc 1).kCoord 0 0) ∧
    ∀ k < 4, ((matS [formedM]).elemValue formedM (formedM.desc 0) ((formedM.desc 0).kCoord k 0)).toOption = some (Fmt.f32.unpack 0) := by decide +kernel

/-! A run on the special planes names no group: its region is empty. `loop 2`, a copy of plane C to T, `endl`, `stop`. -/

def loopSeq (pc : Nat) : Sequencer :=
  { runSeq 0 with prog := [0x90200000, 0x18480000, 0xA0000000, 0], pc := pc, region := [] }

theorem test_loop_ready : (seqS (loopSeq 0)).runRegion 0 (drunM .started) = .ok [] := by
  have h : progGroups (loopSeq 0).prog = [] := by decide +kernel
  have hs : (seqS (loopSeq 0)).seq 0 = loopSeq 0 := rfl
  have ht : (drunM .started).slots.getD 1 0 = (loopSeq 0).tag := rfl
  have hu : (List.range 4).filter (fun g => (drunM .started).slotNat (2 + g) ≠ 0) = [] := by decide +kernel
  have hp : (loopSeq 0).prog.isEmpty = false := rfl
  unfold State.runRegion
  simp only [hs, ht, h, hu, hp]
  rfl

theorem test_loop_ops_ready : (Micro.ofWord 0x90200000).op = 9 ∧ (Micro.ofWord 0x90200000).dp = 2 ∧ (Micro.ofWord 0x18480000).op ≠ 9 ∧
    (Micro.ofWord 0x18480000).moves = true ∧ (Micro.ofWord 0x18480000).dg = 4 ∧ (Micro.ofWord 0x18480000).dp = 4 ∧ (Micro.ofWord 0xA0000000).op = 10 := by
  decide +kernel

theorem test_loop_current_ready : (loopSeq 0).current = some (drunM .started, Micro.ofWord 0x90200000) ∧
    (loopSeq 1).current = some (drunM .started, Micro.ofWord 0x18480000) ∧ (loopSeq 2).current = some (drunM .started, Micro.ofWord 0xA0000000) :=
  ⟨rfl, rfl, rfl⟩

theorem test_loop_sound_ready : (seqS (loopSeq 1)).microPoisoned (loopSeq 1) (Micro.ofWord 0x18480000) = false := by
  simp [State.microPoisoned, State.planePoisoned, poisoned_seqS]

/-! A collective of two ranks of this package, on cores 0 and 1. -/

def rankM (c : Nat) : Command := { collM .started with core := c, who := .ct c c }

def pairColl : Coll := { ctx := 1, group := 0, parts := [(0, rankM 0), (1, rankM 1)], data := [(0, [1, 2, 3, 4]), (1, [5, 6, 7, 8])] }

def pairS : State := { (rs.modCtx 1 fun x => { x with groups := [(0, [(0, 0), (0, 1)])] }) with colls := [pairColl] }

theorem test_pair_ready : pairS.colls[0]? = some pairColl ∧ pairS.collReady pairColl = true ∧ (pairS.ctx 1).halted = false ∧ (pairS.ctx 1).peersHalted = [] ∧
    (pairColl.parts.map (·.2.core)).Nodup ∧ pairS.collCode pairColl = 0 ∧ (∀ r < pairS.ranks pairColl, pairS.isLocalRank pairColl r = true) ∧
    (∀ p ∈ pairColl.parts, (p.2.desc 0).bkind = 1 ∧ (p.2.desc 0).fmt = 0 ∧ p.2.count 0 = 4 ∧
      ∀ i < 4, (p.2.desc 0).base.toNat + (p.2.desc 0).offset (nthOf { c0 := 0 } (p.2.whole 0) i) = 0x100 + 4 * i) := by decide +kernel

theorem test_bad_coll_ready : pairS.collCode { pairColl with parts := [(0, { rankM 0 with fault := 5 }), (1, rankM 1)] } ≠ 0 := by decide +kernel

/-- Package 3 has halted the context. -/
theorem test_peer_halt_ready : (∃ h ∈ ((rs.modCtx 1 fun x => { x with peersHalted := [(3, 7)] }).ctx 1).peersHalted, h.1 = 3) ∧
    ¬∃ h ∈ (rs.ctx 1).peersHalted, h.1 = 3 := by decide +kernel

/-! What removals, fatal errors and the counters ask. -/

theorem test_last_step_ready : ((remS 9).ctx 1).removal = 9 ∧ ∀ l ∈ ((remS 9).ctx 1).launches, (remS 9).vaDown 1 l.done = false := by decide +kernel

def fatalS : State := { rs with fatal := some 2, tick := 2 ^ 32 }

theorem test_fatal_ready : fatalS.fatal = some 2 ∧ 2 ^ 32 ≤ (fatalS.tick - fatalS.flashed).toNat ∧ fatalS.dumpBase % 128 = 0 := by decide +kernel

theorem test_fatal_sound : NoErrors fatalS := ⟨fun _ => rfl, fun _ _ => rfl⟩

end Sys2Proof.Tests
end

section
/-! PROOFS. The common lane instructions: the clauses of `Obligations.IntegerResults` and `Obligations.SelectAndImmediates` that hold of every
state; of the pair instructions and of `sel` the condition under which theirs hold, and a state where they fail. -/

namespace Sys2Proof.LaneCommon

open Sys2Proof Sys2Proof.Machine Sys2Proof.Claims

/-! ### The operations behind the tables -/

theorem mad_int {w : Nat} (d a b : BitVec w) : d + a * b = BitVec.ofInt w (d.toInt + a.toInt * b.toInt) := by
  rw [BitVec.ofInt_add, BitVec.ofInt_mul, BitVec.ofInt_toInt, BitVec.ofInt_toInt, BitVec.ofInt_toInt]

theorem add_signExtend_int {w n : Nat} (a : BitVec w) (i : BitVec n) : a + i.signExtend w = BitVec.ofInt w (a.toInt + i.toInt) := by
  rw [BitVec.ofInt_add, BitVec.ofInt_toInt, BitVec.signExtend]

/-- Bits [31:16] of d replaced: what lies above them, the immediate, and the low half of d. -/
theorem setHigh_nat {w : Nat} (d : BitVec w) (i : BitVec 16) :
    setHigh d i = BitVec.ofNat w (d.toNat / 2 ^ 32 * 2 ^ 32 + i.toNat * 65536 + d.toNat % 65536) := by
  have low : d.toNat % 2 ^ 16 < 2 ^ 16 := Nat.mod_lt _ (by decide)
  have half : 2 ^ 16 * i.toNat + d.toNat % 2 ^ 16 < 2 ^ 32 := by have := i.isLt; omega
  have parts : d.toNat / 2 ^ 32 * 2 ^ 32 + i.toNat * 65536 + d.toNat % 65536 =
      2 ^ 32 * (d.toNat / 2 ^ 32) ||| (2 ^ 16 * i.toNat ||| d.toNat % 2 ^ 16) := by
    rw [← Nat.two_pow_add_eq_or_of_lt low, ← Nat.two_pow_add_eq_or_of_lt half]; omega
  have mask : 0xFFFF0000 = 2 ^ 16 * (2 ^ 16 - 1) := rfl
  apply BitVec.eq_of_getLsbD_eq
  intro j hj
  have high : 16 ≤ j - 16 → i.getLsbD (j - 16) = false := BitVec.getLsbD_of_ge _ _
  rw [parts, setHigh, mask, mul_comm i.toNat, show 65536 = 2 ^ 16 from rfl]
  simp only [BitVec.getLsbD_or, BitVec.getLsbD_and, BitVec.getLsbD_not, BitVec.getLsbD_ofNat, Nat.testBit_or, Nat.testBit_two_pow_mul,
    Nat.testBit_div_two_pow, Nat.testBit_mod_two_pow, Nat.testBit_two_pow_sub_one, BitVec.testBit_toNat, hj]
  rcases (by omega : j < 16 ∨ (16 ≤ j ∧ j < 32) ∨ 32 ≤ j) with h | ⟨h, h'⟩ | h
  · simp [h, show ¬ 16 ≤ j by omega, show ¬ 32 ≤ j by omega]
  · simp [h, show j - 16 < 16 by omega, show ¬ j < 16 by omega, show ¬ 32 ≤ j by omega]
  · simp [h, high (by omega), show 16 ≤ j by omega, show ¬ j - 16 < 16 by omega, show ¬ j < 16 by omega, show j - 32 + 32 = j by omega]

section tables
variable (s : State)

theorem halfTable_ops (f : HForm) : ∀ p ∈ halfTable f, ∃ op : {w : Nat} → BitVec w → BitVec w → BitVec w,
    exec p.1 s = aluH p.1 f op s ∧ ∀ {w : Nat} (a b : BitVec w), p.2 w a b = op a b := by
  simp only [halfTable, List.forall_mem_cons]
  exact ⟨⟨fun _ b => b, rfl, fun _ _ => rfl⟩, ⟨fun a b => a + b, rfl, fun a b => (add_int a b).symm⟩,
    ⟨fun a b => a - b, rfl, fun a b => (sub_int a b).symm⟩, ⟨fun a b => a * b, rfl, fun a b => (mul_int a b).symm⟩,
    ⟨fun a b => a &&& b, rfl, fun _ _ => rfl⟩, ⟨fun a b => a ||| b, rfl, fun _ _ => rfl⟩, ⟨fun a b => a ^^^ b, rfl, fun _ _ => rfl⟩,
    ⟨shlOp, rfl, fun a b => (shlOp_nat a b).symm⟩, ⟨shrOp, rfl, fun a b => (shrOp_nat a b).symm⟩,
    ⟨sarOp, rfl, fun a b => (sarOp_int a b).symm⟩, List.forall_mem_nil _⟩

theorem twoTable_ops (f : RForm) : ∀ p ∈ twoTable f, ∃ op : {w : Nat} → BitVec w → BitVec w → BitVec w,
    exec p.1 s = aluR p.1 f op s ∧ ∀ {w : Nat}, 0 < w → ∀ a b : BitVec w, p.2 w a b = op a b := by
  simp only [twoTable, List.forall_mem_cons]
  exact ⟨⟨fun a b => a + b, rfl, fun _ a b => (add_int a b).symm⟩, ⟨fun a b => a - b, rfl, fun _ a b => (sub_int a b).symm⟩,
    ⟨fun a b => a * b, rfl, fun _ a b => (mul_int a b).symm⟩, ⟨mulhiS, rfl, fun _ a b => (mulhiS_int a b).symm⟩,
    ⟨mulhiU, rfl, fun _ a b => (mulhiU_nat a b).symm⟩, ⟨minS, rfl, fun _ a b => (minS_int a b).symm⟩,
    ⟨maxS, rfl, fun _ a b => (maxS_int a b).symm⟩, ⟨minU, rfl, fun _ a b => (minU_nat a b).symm⟩,
    ⟨maxU, rfl, fun _ a b => (maxU_nat a b).symm⟩, ⟨fun a b => a &&& b, rfl, fun _ _ _ => rfl⟩, ⟨fun a b => a ||| b, rfl, fun _ _ _ => rfl⟩,
    ⟨fun a b => a ^^^ b, rfl, fun _ _ _ => rfl⟩, ⟨fun a b => a &&& ~~~b, rfl, fun _ _ _ => rfl⟩,
    ⟨shlOp, rfl, fun _ a b => (shlOp_nat a b).symm⟩, ⟨shrOp, rfl, fun _ a b => (shrOp_nat a b).symm⟩,
    ⟨sarOp, rfl, fun _ a b => (sarOp_int a b).symm⟩, ⟨rotlOp, rfl, fun h a b => (rotlOp_nat h a b).symm⟩,
    ⟨bfeU, rfl, fun _ a b => (bfeU_nat a b).symm⟩, ⟨bfeS, rfl, fun _ a b => (bfeS_int a b).symm⟩, List.forall_mem_nil _⟩

theorem threeTable_ops (f : RForm) : ∀ p ∈ threeTable f, ∃ op : {w : Nat} → BitVec w → BitVec w → BitVec w → BitVec w,
    exec p.1 s = aluR3 p.1 f op s ∧ ∀ {w : Nat} (d a b : BitVec w), p.2 w d a b = op d a b := by
  simp only [threeTable, List.forall_mem_cons]
  exact ⟨⟨fun d a b => d + a * b, rfl, fun d a b => (mad_int d a b).symm⟩, ⟨bfiOp, rfl, fun d a b => (bfiOp_nat d a b).symm⟩,
    List.forall_mem_nil _⟩

theorem oneTable_ops (f : UForm) : ∀ p ∈ oneTable f, ∃ op : {w : Nat} → BitVec w → BitVec w,
    exec p.1 s = aluU p.1 f op s ∧ ∀ {w : Nat} (a : BitVec w), p.2 w a = op a := by
  simp only [oneTable, List.forall_mem_cons]
  exact ⟨⟨fun a => a, rfl, fun _ => rfl⟩, ⟨fun a => ~~~a, rfl, fun a => (not_int a).symm⟩, ⟨fun a => -a, rfl, fun a => (neg_int a).symm⟩,
    ⟨absOp, rfl, fun a => (absOp_int a).symm⟩, ⟨fun {w} a => BitVec.ofNat w (popc a), rfl, fun a => congrArg _ (popc_count a).symm⟩,
    ⟨fun {w} a => BitVec.ofNat w (clz a), rfl, fun a => congrArg _ (clz_msb a).symm⟩,
    ⟨fun {w} a => BitVec.ofNat w (ctz a), rfl, fun a => congrArg _ (ctz_lsb a).symm⟩,
    ⟨brev, rfl, fun _ => rfl⟩, ⟨fun a => sextLow a 8, rfl, fun a => (sextLow_int a 8).symm⟩,
    ⟨fun a => sextLow a 16, rfl, fun a => (sextLow_int a 16).symm⟩, ⟨fun a => zextLow a 8, rfl, fun a => (zextLow_nat a 8).symm⟩,
    ⟨fun a => zextLow a 16, rfl, fun a => (zextLow_nat a 16).symm⟩, List.forall_mem_nil _⟩

theorem pairTable_ops (f : RForm) : ∀ p ∈ pairTable f, ∃ op : DWord → DWord → DWord → DWord,
    exec p.1 s = aluPair p.1 f p.2.1 op s ∧ ∀ d a b, p.2.2 d a b = op d a b := by
  simp only [pairTable, List.forall_mem_cons]
  exact ⟨⟨fun _ a b => a + b, rfl, fun _ _ _ => BitVec.eq_of_toNat_eq (by simp)⟩, ⟨fun _ a b => a - b, rfl, fun _ a b => (sub_int a b).symm⟩,
    ⟨fun d a b => d + a * b, rfl, fun _ _ _ => BitVec.eq_of_toNat_eq (by simp)⟩, List.forall_mem_nil _⟩

/-! ### The clauses on one register -/

theorem halfTable_results (f : HForm) : ∀ p ∈ halfTable f,
    OneRegister s p.1 f.uses 0 2 0 f.d (fun e l => p.2 32 (e.reg l f.d.toNat) (e.operand .int l f.src))
      (fun e => p.2 64 (e.r.reg f.d.toNat) (e.operand f.src)) := fun p hp =>
  have ⟨_, hx, hv⟩ := halfTable_ops s f p hp
  oneRegister (fun _ _ => hv _ _) (fun _ => hv _ _) hx

theorem addi16_result (imm : BitVec 5) (d : BitVec 6) : OneRegister s (.addi16 imm d) { regs := [d.toNat] } 0 2 0 d
    (fun e l => BitVec.ofInt 32 ((e.reg l d.toNat).toInt + imm.toInt)) (fun e => BitVec.ofInt 64 ((e.r.reg d.toNat).toInt + imm.toInt)) :=
  oneRegister (fun _ _ => (add_signExtend_int _ _).symm) (fun _ => (add_signExtend_int _ _).symm) rfl

theorem twoTable_results (f : RForm) : ∀ p ∈ twoTable f,
    OneRegister s p.1 f.uses 0 4 f.n f.d (fun e l => p.2 32 (e.operand .int l f.a) (e.operand .int l f.b))
      (fun e => p.2 64 (e.operand f.a) (e.operand f.b)) := fun p hp =>
  have ⟨_, hx, hv⟩ := twoTable_ops s f p hp
  oneRegister (fun _ _ => hv (by decide) _ _) (fun _ => hv (by decide) _ _) hx

theorem threeTable_results (f : RForm) : ∀ p ∈ threeTable f,
    OneRegister s p.1 f.uses3 0 4 f.n f.d (fun e l => p.2 32 (e.reg l f.d.toNat) (e.operand .int l f.a) (e.operand .int l f.b))
      (fun e => p.2 64 (e.r.reg f.d.toNat) (e.operand f.a) (e.operand f.b)) := fun p hp =>
  have ⟨_, hx, hv⟩ := threeTable_ops s f p hp
  oneRegister (fun _ _ => hv _ _ _) (fun _ => hv _ _ _) hx

theorem oneTable_results (f : UForm) : ∀ p ∈ oneTable f,
    OneRegister s p.1 f.uses 0 4 f.n f.d (fun e l => p.2 32 (e.operand .int l f.a)) (fun e => p.2 64 (e.operand f.a)) := fun p hp =>
  have ⟨_, hx, hv⟩ := oneTable_ops s f p hp
  oneRegister (fun _ _ => hv _) (fun _ => hv _) hx

theorem addi_result (imm : BitVec 11) (a : BitVec 7) (d : BitVec 6) :
    OneRegister s (.addi imm a d) { regs := codeRegs a ++ [d.toNat], lat := codeLat a } 0 4 0 d
      (fun e l => BitVec.ofInt 32 ((e.operand .int l a).toInt + imm.toInt)) (fun e => BitVec.ofInt 64 ((e.operand a).toInt + imm.toInt)) :=
  oneRegister (fun _ _ => (add_signExtend_int _ _).symm) (fun _ => (add_signExtend_int _ _).symm) rfl

theorem andi_result (imm : BitVec 11) (a : BitVec 7) (d : BitVec 6) :
    OneRegister s (.andi imm a d) { regs := codeRegs a ++ [d.toNat], lat := codeLat a } 0 4 0 d
      (fun e l => e.operand .int l a &&& BitVec.ofInt 32 imm.toInt) (fun e => e.operand a &&& BitVec.ofInt 64 imm.toInt) :=
  oneRegister (fun _ _ => rfl) (fun _ => rfl) rfl

theorem ldi_result (imm : BitVec 16) (d : BitVec 6) : OneRegister s (.ldi imm d) { regs := [d.toNat] } 0 4 0 d
    (fun _ _ => BitVec.ofInt 32 imm.toInt) (fun _ => BitVec.ofInt 64 imm.toInt) :=
  oneRegister (fun _ _ => rfl) (fun _ => rfl) rfl

theorem ldiHi_result (imm : BitVec 16) (d : BitVec 6) : OneRegister s (.ldiHi imm d) { regs := [d.toNat] } 0 4 0 d
    (fun e l => BitVec.ofNat 32 (imm.toNat * 65536 + (e.reg l d.toNat).toNat % 65536))
    (fun e => BitVec.ofNat 64 ((e.r.reg d.toNat).toNat / 2 ^ 32 * 2 ^ 32 + imm.toNat * 65536 + (e.r.reg d.toNat).toNat % 65536)) :=
  oneRegister (v' := fun e l => setHigh (e.reg l d.toNat) imm)
    (fun e l => by rw [setHigh_nat, Nat.div_eq_of_lt (e.reg l d.toNat).isLt, Nat.zero_mul, Nat.zero_add])
    (fun _ => (setHigh_nat _ _).symm) rfl

end tables

/-! ### What completes, completes one way -/

theorem completes_both {i : Instr} {s : State} {P Q : State → Prop} (hP : Completes i s P) (hQ : Completes i s Q) : ∃ t, P t ∧ Q t := by
  obtain ⟨t, ht, pt⟩ := hP
  obtain ⟨t', ht', qt⟩ := hQ
  cases ht.symm.trans ht'
  exact ⟨t, pt, qt⟩

/-! ### The 64-bit pairs (R57) -/

/-- What a pair instruction writes for a lane: d and the register after it, whose number, of 6 bits, is 0 after v63. -/
def pairWrites (f : RForm) (v : DWord) : List (Nat × Word) := oneReg f.n f.d v.lo ++ oneReg f.n (f.d + 1) v.hi

theorem writes_pairWrites (f : RForm) (v : DWord) : Writes (pairWrites f v) := by
  unfold pairWrites oneReg
  split
  · have next : ¬ f.d.toNat = (f.d + 1).toNat := by bv_omega
    have inside := f.d.isLt
    have inside' := (f.d + 1).isLt
    constructor <;> simp <;> omega
  · exact writes_nil

/-- A pair whose first register is not v63, or that is not written. -/
theorem pairWrites_of_inside {f : RForm} (v : DWord) (h : f.n = 0 → f.d ≠ 63) :
    pairWrites f v = if f.n = 0 then [(f.d.toNat, v.lo), (f.d.toNat + 1, v.hi)] else [] := by
  unfold pairWrites oneReg
  split
  · next hn =>
    have next : (f.d + 1).toNat = f.d.toNat + 1 := by have := h hn; bv_omega
    rw [next, List.singleton_append]
  · rfl

/-- A pair instruction that issues writes the pair from d on and latch b0. -/
theorem aluPair_completes {s : State} {e : Env} {i : Instr} {f : RForm} {three : Bool} {op : DWord → DWord → DWord → DWord}
    (hx : exec i s = aluPair i f three op s) (h : readyVec s e i (f.usesPair three) = true) :
    Completes i s (fun t => LaneDone s t e (e.issueSet f.g) 0 4 (fun l =>
      let v := op (e.regPair l f.d.toNat) (e.pair l f.a) (e.pair l f.b)
      (pairWrites f v, v.lo))) :=
  result_of_ready h 0 4 (fun e _ l => let v := op (e.regPair l f.d.toNat) (e.pair l f.a) (e.pair l f.b); (pairWrites f v, v.lo)) _ hx
    fun _ _ => writes_pairWrites f _

/-- An allocation of at most the 64 registers that there are (R16) holds no pair from v63 on. -/
theorem pair_inside {s : State} {e : Env} {i : Instr} {f : RForm} {three : Bool} (h : readyVec s e i (f.usesPair three) = true)
    (hr : e.g.nregs ≤ 64) (hn : f.n = 0) : f.d ≠ 63 := by
  simp only [readyVec, Bool.and_eq_true, List.all_eq_true, decide_eq_true_eq] at h
  obtain ⟨⟨⟨-, regs⟩, -⟩, -⟩ := h
  have next : f.d.toNat + 1 < e.g.nregs := regs _ (by simp [RForm.usesPair, destPair, hn])
  intro hd
  rw [hd] at next
  exact absurd (lt_of_lt_of_le next hr) (by decide)

/-- The pair clause of the vector stream, for an allocation of at most 64 registers. -/
theorem pairTable_results (s : State) (f : RForm) : ∀ p ∈ pairTable f, ∀ e, readyVec s e p.1 (f.usesPair p.2.1) = true → e.g.nregs ≤ 64 →
    Completes p.1 s (fun t => LaneDone s t e (e.issueSet f.g) 0 4 (fun l =>
      let v := p.2.2 (e.regPair l f.d.toNat) (e.pair l f.a) (e.pair l f.b)
      (if f.n = 0 then [(f.d.toNat, v.lo), (f.d.toNat + 1, v.hi)] else [], v.lo))) := fun p hp e h hr => by
  obtain ⟨op, hx, hv⟩ := pairTable_ops s f p hp
  simp only [hv, ← pairWrites_of_inside _ (pair_inside h hr)]
  exact aluPair_completes hx h

/-- The pair clause of the control stream, where a pair is one register. -/
theorem pairTable_results_ct (s : State) (f : RForm) : ∀ p ∈ pairTable f, ∀ e, readyCt s e p.1 (f.usesPair p.2.1) = true →
    Completes p.1 s (fun t => CtDone s t e 4 f.d.toNat (p.2.2 (e.r.reg f.d.toNat) (e.operand f.a) (e.operand f.b))) := fun p hp e h => by
  obtain ⟨op, hx, hv⟩ := pairTable_ops s f p hp
  rw [hv]
  exact resultCt_of_ready h 4 _ (fun e => op (e.r.reg f.d.toNat) (e.operand f.a) (e.operand f.b)) _ hx

/-! R16 gives a launch at most 64 registers, but the statement speaks of every state and asks no bound of the allocation. The state of the
refutation: `add64` of -1 and 0 into v63. -/

/-- The formed warp of one thread of core 0 moves, in a workgroup of 72 registers. -/
def wideS : State := ({ State.reset.withIssuer with issuer := some (.vec 0 0) } : State).modWg 0 0 fun g => { g with nregs := 72 }

def wideE : Env := (wideS.env 0 0).getD default

def lastPair : RForm := { a := 95, b := 96, n := 0, d := 63, g := 0 }

theorem wide_ready : readyVec wideS wideE (.add64 lastPair) (lastPair.usesPair false) = true := by decide +kernel

/-- What `add64` of -1 and 0 into v63 leaves in v0, of home lane 0 in home-warp slot 0. -/
theorem add64_lastPair_v0 {s : State} {e : Env} (h : readyVec s e (.add64 lastPair) (lastPair.usesPair false) = true) :
    Completes (.add64 lastPair) s (fun t => (t.core e.c).reg 0 0 0 = regAfter s e.c (e.issueSet 0)
      (fun l => pairWrites lastPair (e.pair l 95 + e.pair l 96)) 0 0 0) := by
  obtain ⟨t, ht, left⟩ := aluPair_completes (op := fun _ a b => a + b) rfl h
  exact ⟨t, ht, left.regs 0 0 0 (by decide) (by decide)⟩

theorem wide_v0 : regAfter wideS wideE.c (wideE.issueSet 0) (fun l => pairWrites lastPair (wideE.pair l 95 + wideE.pair l 96)) 0 0 0 = 0xFFFFFFFF := by
  decide +kernel

/-- Refutes O1: the pair clause of the vector stream fails for a pair from v63 on, in a workgroup whose allocation goes past v63. The second
register of the pair is v64 in the statement, and v0 in the model. -/
theorem not_integerResults : ¬ Obligations.IntegerResults := by
  unfold Obligations.IntegerResults
  rintro ⟨-, -, -, pairs, -⟩
  have stated := (pairs wideS lastPair _ List.mem_cons_self).1 wideE wide_ready
  obtain ⟨t, stated, model⟩ := completes_both stated (add64_lastPair_v0 wide_ready)
  rw [wide_v0, stated.regs 0 0 0 (by decide) (by decide)] at model
  exact absurd model (by decide +kernel)

/-! ### Select (R59) -/

/-- What the statement says `sel` names. -/
def selUses (f : RForm) : Uses := { f.uses with g := 0, preds := true }

/-- The source code that `sel` reads for a lane. -/
def selCode (f : RForm) (e : Env) (l : Lane) : BitVec 7 := if e.guard f.g l then f.a else f.b

/-- The threads of a warp that read a void latch at a `sel`. -/
def selVoid (f : RForm) (e : Env) : List Lane := (e.issueSet 0).filter (fun l => e.void l (selCode f e l))

theorem waits_readLate (e : Env) (u : Uses) : e.waits u.readLate = e.waits u := by
  simp [Env.waits, Load.blocks, Uses.readLate]

/-- Where an instruction issues that reads its latches at once, it issues where its own part reads them. -/
theorem readyVec_readLate {s : State} {e : Env} {i : Instr} {u : Uses} (h : readyVec s e i u = true) : readyVec s e i u.readLate = true := by
  simp only [readyVec, Bool.and_eq_true] at h ⊢
  obtain ⟨h, -⟩ := h
  exact ⟨by rwa [waits_readLate], by simp [Uses.readLate]⟩

/-- A `sel` that issues: the threads that read a void latch trap (R53 step 9), and where there are none each thread takes its operand. -/
theorem exec_sel {s : State} {e : Env} {f : RForm} (h : readyVec s e (.sel f) (selUses f) = true) :
    exec (.sel f) s = .next (((s.settleFlights e.c e.k (selUses f).readLate).unlessVoid e (.sel f) (selVoid f e) fun s =>
      s.result e (e.issueSet 0) 0 4 fun l => (oneReg f.n f.d (e.operand .int l (selCode f e l)), e.operand .int l (selCode f e l))).noteFlight e
        (.sel f) (e.issueSet 0)) := by
  have late := readyVec_readLate h
  exact congrArg Host.Outcome.next (issue_of_readyVec late _ _)

/-- Where no thread has captured operands, none reads a void latch: the instruction issues only if the latches it names are not void. -/
theorem selVoid_of_uncaptured {s : State} {e : Env} {f : RForm} (h : readyVec s e (.sel f) (selUses f) = true)
    (hc : ∀ l ∈ e.lanes, e.captured l = none) : selVoid f e = [] := by
  simp only [readyVec, Bool.and_eq_true, List.all_eq_true] at h
  obtain ⟨-, latches⟩ := h
  refine List.filter_eq_nil_iff.2 fun l hl void => ?_
  obtain ⟨b, hb, none⟩ := List.any_eq_true.1 void
  have named : b ∈ (selUses f).lat := by
    unfold selCode at hb
    split at hb
    · exact List.mem_append_left _ hb
    · exact List.mem_append_right _ hb
  have held := latches l hl
  rw [hc l (List.mem_of_mem_filter hl), Option.isSome_none, Bool.false_or, List.all_eq_true] at held
  have some := held b named
  rw [Option.isNone_iff_eq_none.1 none] at some
  cases some

/-- The clause of `sel` in the vector stream, where no thread has captured operands. -/
theorem sel_result {s : State} {e : Env} {f : RForm} (h : readyVec s e (.sel f) (selUses f) = true)
    (hc : ∀ l ∈ e.lanes, e.captured l = none) :
    Completes (.sel f) s (fun t => LaneDone s t e (e.issueSet 0) 0 4 (fun l =>
      let v := if (e.thread l).pred f.g.toNat then e.operand .int l f.a else e.operand .int l f.b
      (oneReg f.n f.d v, v))) := by
  have read : ∀ l, (if (e.thread l).pred f.g.toNat then e.operand .int l f.a else e.operand .int l f.b) = e.operand .int l (selCode f e l) :=
    fun l => (apply_ite (e.operand .int l) _ _ _).symm
  have x := settleFlights_only s e.c e.k (selUses f).readLate
  have env := envOf_ready h
  simp only [read]
  refine ⟨_, exec_sel h, ?_⟩
  rw [selVoid_of_uncaptured h hc]
  exact x.laneDone (result_spec (env.settle x) (env.distinct_set 0) 0 4 _ fun _ _ => writes_oneReg _ _ _) (noteFlight_only _ e _ _)

/-- The clause of `sel` in the control stream, where no latch is read. -/
theorem sel_result_ct {s : State} {e : CEnv} {f : RForm} (h : readyCt s e (.sel f) (selUses f) = true) :
    Completes (.sel f) s (fun t => CtDone s t e 4 f.d.toNat (if e.cr.flag f.g.toNat then e.operand f.a else e.operand f.b)) := by
  have late : readyCt s e (.sel f) (selUses f).readLate = true := h
  exact resultCt_of_ready late 4 _ (fun e => if e.guard f.g then e.operand f.a else e.operand f.b) _ rfl

/-! `readyVec` lets a latch be void for a thread that has captured operands (R47), but `sel` reads the latch of such a thread too. -/

/-- The formed warp of one thread of core 0 moves; the thread has captured operands for the instruction at its PC, and its latches are void. -/
def againS : State := ({ State.reset.withIssuer with issuer := some (.vec 0 0) } : State).modThread 0 0 0 fun t =>
  { t with capture := some { pc := placedPc, words := [] } }

def againE : Env := (againS.env 0 0).getD default

def latchSel : RForm := { a := 64, b := 64, n := 0, d := 1, g := 0 }

theorem again_ready : readyVec againS againE (.sel latchSel) (selUses latchSel) = true := by decide +kernel

/-- The thread traps, and stands where it stood. -/
theorem again_stands : Completes (.sel latchSel) againS (fun t => (t.thread 0 0 0).pc = placedPc) :=
  ⟨_, exec_sel again_ready, by decide +kernel⟩

theorem again_env : againE.c = 0 ∧ againE.ws = 0 ∧ againE.pc = placedPc ∧ againE.lanes = [{ lane := 0, tid := 0, hw := 0 }] := by decide +kernel

/-- Refutes O2: `sel` of latch b0, void for the thread that executes it, traps LATCH_VOID also where the thread has captured operands. -/
theorem not_selectAndImmediates : ¬ Obligations.SelectAndImmediates := by
  unfold Obligations.SelectAndImmediates
  intro h
  obtain ⟨⟨sel, -⟩, -⟩ := h againS latchSel 0 0
  obtain ⟨t, stated, model⟩ := completes_both (sel againE again_ready) again_stands
  obtain ⟨hc, hws, hpc, hl⟩ := again_env
  have gone := congrArg Thread.pc (stated.threads.1 { lane := 0, tid := 0, hw := 0 } (by simp [hl]))
  rw [hc, hws, hpc, model] at gone
  exact absurd gone (by decide +kernel)

end Sys2Proof.LaneCommon
end

section
/-! PROOFS. FP32 compares and special operands: what a pattern unpacks to in the spec's terms (R225), which operands make each operation a NaN
(R244), the compare as an order of patterns (R245), and from them `Obligations.FloatComparesAndSpecialOperands`. -/

namespace Sys2Proof.LaneFloat

open Sys2Proof Sys2Proof.Machine Sys2Proof.Claims

/-! ### What a pattern unpacks to (R225) -/

section unpack
variable {f : Fmt} {p : Nat}

theorem unpack_eq : f.unpack p =
    if p / 2 ^ f.mb % 2 ^ f.eb = 2 ^ f.eb - 1 then (if p % 2 ^ f.mb = 0 then .inf (patternNeg f p) else .nan)
    else if p / 2 ^ f.mb % 2 ^ f.eb = 0 then .fin (patternNeg f p) (p % 2 ^ f.mb) f.low
    else .fin (patternNeg f p) (2 ^ f.mb + p % 2 ^ f.mb) (f.low + (p / 2 ^ f.mb % 2 ^ f.eb : Nat) - 1) := by
  rw [← Nat.shiftRight_eq_div_pow]; rfl

theorem patternNaN_iff : patternNaN f p ↔ f.unpack p = .nan := by
  rw [unpack_eq, patternNaN]
  split_ifs with special mantissa subnormal
  · simp [mantissa]
  · simp [special, mantissa]
  · simp [special]
  · simp [special]

theorem unpack_inf_iff {s : Bool} : f.unpack p = .inf s ↔ patternInf f p ∧ patternNeg f p = s := by
  rw [unpack_eq, patternInf]
  split_ifs with special mantissa subnormal
  · simp [special, mantissa]
  · simp [mantissa]
  · simp [special]
  · simp [special]

theorem patternInf_iff : patternInf f p ↔ f.unpack p = .inf (patternNeg f p) := by
  rw [unpack_inf_iff, and_iff_left rfl]

/-- The exponent and mantissa of a zero are both 0. -/
theorem patternZero_fields : patternZero f p ↔ p / 2 ^ f.mb % 2 ^ f.eb = 0 ∧ p % 2 ^ f.mb = 0 := by
  have parts : p % 2 ^ (f.eb + f.mb) = p % 2 ^ f.mb + 2 ^ f.mb * (p / 2 ^ f.mb % 2 ^ f.eb) := by
    rw [Nat.add_comm, pow_add, Nat.mod_mul]
  rw [patternZero, parts, Nat.add_eq_zero_iff, Nat.mul_eq_zero, and_comm]
  simp

/-- In a format with an exponent no infinity or NaN is a zero. -/
theorem patternZero_iff (h : 0 < f.eb) : patternZero f p ↔ ∃ e, f.unpack p = .fin (patternNeg f p) 0 e := by
  have top : 2 ^ f.eb - 1 ≠ 0 := by have := Nat.one_lt_two_pow h.ne'; omega
  rw [patternZero_fields, unpack_eq]
  split_ifs with special mantissa subnormal
  · simp [special, top]
  · simp [mantissa]
  · simp [subnormal]
  · simp [subnormal]

/-- A pattern is a NaN, an infinity or a finite value, of the sign of its sign bit. -/
theorem unpack_cases (f : Fmt) (p : Nat) :
    f.unpack p = .nan ∨ f.unpack p = .inf (patternNeg f p) ∨ ∃ m e, f.unpack p = .fin (patternNeg f p) m e := by
  rw [unpack_eq]
  split_ifs <;> simp

end unpack

/-! ### Results that are no NaN -/

/-- A magnitude up to that of the infinity is no NaN, whatever its sign. -/
theorem not_patternNaN_signed {f : Fmt} {neg : Bool} {bits : Nat} (h : bits ≤ f.infBits) : ¬ patternNaN f (f.signed neg bits) := by
  have unsigned : patternNaN f (f.signed neg bits) ↔ patternNaN f bits := by
    cases neg with
    | false => rfl
    | true =>
      have sign : f.signed true bits = bits + 2 ^ f.mb * 2 ^ f.eb := by
        rw [Fmt.signed, if_pos rfl, Fmt.signBit, Nat.one_shiftLeft, pow_add, Nat.add_comm, Nat.mul_comm]
      rw [sign, patternNaN, patternNaN, Nat.add_mul_div_left _ _ (by positivity), Nat.add_mod_right, Nat.add_mul_mod_self_left]
  rw [unsigned]
  rintro ⟨exponent, mantissa⟩
  have high : 2 ^ f.eb - 1 ≤ bits / 2 ^ f.mb := exponent ▸ Nat.mod_le _ _
  have below := Nat.mul_le_mul_left (2 ^ f.mb) high
  rw [Fmt.infBits, Nat.shiftLeft_eq, Nat.mul_comm] at h
  have split := Nat.div_add_mod bits (2 ^ f.mb)
  omega

/-- The infinity, or the largest finite magnitude. -/
theorem ite_infBits_le {f : Fmt} (q : Prop) [Decidable q] : (if q then f.infBits else f.infBits - 1) ≤ f.infBits := by
  split
  · exact le_rfl
  · exact Nat.sub_le _ _

/-- How a rounding ends: overflow, or the magnitude as it is. -/
theorem not_patternNaN_bounded {f : Fmt} {neg : Bool} {bits : Nat} (q : Prop) [Decidable q] :
    ¬ patternNaN f (if f.infBits ≤ bits then f.signed neg (if q then f.infBits else f.infBits - 1) else f.signed neg bits) := by
  split
  · exact not_patternNaN_signed (ite_infBits_le q)
  · next h => exact not_patternNaN_signed (Nat.le_of_not_le h)

/-- Rounding gives no NaN (R226). -/
theorem not_patternNaN_round (f : Fmt) (r : Rnd) (neg : Bool) (m : Nat) (e : Int) (sticky : Bool) :
    ¬ patternNaN f (f.round r neg m e sticky) := by
  unfold Fmt.round
  split
  · exact not_patternNaN_signed (Nat.zero_le _)
  · exact not_patternNaN_bounded _

theorem not_patternNaN_pack_ne {f : Fmt} {v : FVal} (h : v ≠ .nan) : ¬ patternNaN f (f.pack .ne v) := by
  cases v with
  | nan => exact absurd rfl h
  | inf neg => exact not_patternNaN_signed le_rfl
  | fin neg m e => exact not_patternNaN_round f .ne neg m e false

/-! ### Which values have a NaN as their sum or product -/

theorem sum_pair_nan_iff (x y : FVal) : FVal.sum [x, y] = .nan ↔ x = .nan ∨ y = .nan ∨ ∃ s, x = .inf s ∧ y = .inf (!s) := by
  cases x with
  | nan => simp [FVal.sum, FVal.isNaN]
  | inf s =>
    cases y with
    | nan => simp [FVal.sum, FVal.isNaN]
    | inf t => cases s <;> cases t <;> simp [FVal.sum, FVal.isNaN, FVal.isInf]
    | fin t n k => cases s <;> simp [FVal.sum, FVal.isNaN, FVal.isInf]
  | fin s m e =>
    cases y with
    | nan => simp [FVal.sum, FVal.isNaN]
    | inf t => cases t <;> simp [FVal.sum, FVal.isNaN, FVal.isInf]
    | fin t n k => simp [FVal.sum, FVal.isNaN, FVal.isInf]; split_ifs <;> simp

theorem neg_nan_iff (x : FVal) : x.neg = .nan ↔ x = .nan := by
  cases x <;> simp [FVal.neg]

theorem neg_inf_iff (x : FVal) (s : Bool) : x.neg = .inf s ↔ x = .inf (!s) := by
  cases x <;> simp [FVal.neg]

/-! ### The operands that give a NaN (R244) -/

/-- An operation gives the canonical NaN where a condition on its operands holds, and no NaN where it does not. -/
def NaNExactly (r : Nat) (special : Prop) : Prop :=
  (special → r = Fmt.f32.canonNaN) ∧ (¬ special → ¬ patternNaN .f32 r)

theorem nanExactly_canonNaN {special : Prop} (h : special) : NaNExactly Fmt.f32.canonNaN special := ⟨fun _ => rfl, absurd h⟩

theorem nanExactly_number {r : Nat} {special : Prop} (h : ¬ special) (hr : ¬ patternNaN .f32 r) : NaNExactly r special :=
  ⟨fun x => absurd x h, fun _ => hr⟩

theorem nanExactly_pack {v : FVal} {special : Prop} (h : v = .nan ↔ special) : NaNExactly (Fmt.f32.pack .ne v) special :=
  ⟨fun x => by rw [h.2 x]; rfl, fun x => not_patternNaN_pack_ne fun v => x (h.1 v)⟩

/-- A product has no value where one operand is a zero and the other an infinity. -/
def NoProduct (a b : Nat) : Prop := patternInf .f32 a ∧ patternZero .f32 b ∨ patternZero .f32 a ∧ patternInf .f32 b

section operands
variable (a b c : Nat)

theorem patternZero_f32 (p : Nat) : patternZero .f32 p ↔ ∃ e, Fmt.f32.unpack p = .fin (patternNeg .f32 p) 0 e := patternZero_iff (by decide)

theorem mul_nan_iff :
    (Fmt.f32.unpack a).mul (Fmt.f32.unpack b) = .nan ↔ (patternNaN .f32 a ∨ patternNaN .f32 b) ∨ NoProduct a b := by
  simp only [NoProduct, patternNaN_iff, patternInf_iff, patternZero_f32]
  rcases unpack_cases .f32 a with ha | ha | ⟨m, e, ha⟩ <;> rcases unpack_cases .f32 b with hb | hb | ⟨n, k, hb⟩ <;>
    simp [ha, hb, FVal.mul]

/-- A product that is no NaN is an infinity where an operand is one. -/
theorem mul_inf_iff (s : Bool) (h : (Fmt.f32.unpack a).mul (Fmt.f32.unpack b) ≠ .nan) : (Fmt.f32.unpack a).mul (Fmt.f32.unpack b) = .inf s ↔
    (patternInf .f32 a ∨ patternInf .f32 b) ∧ (patternNeg .f32 a != patternNeg .f32 b) = s := by
  revert h
  simp only [patternInf_iff]
  rcases unpack_cases .f32 a with ha | ha | ⟨m, e, ha⟩ <;> rcases unpack_cases .f32 b with hb | hb | ⟨n, k, hb⟩ <;>
    simp +contextual [ha, hb, FVal.mul]

theorem nanExactly_add : NaNExactly (Fmt.f32.add a b)
    ((patternNaN .f32 a ∨ patternNaN .f32 b) ∨ patternInf .f32 a ∧ patternInf .f32 b ∧ patternNeg .f32 a ≠ patternNeg .f32 b) := by
  refine nanExactly_pack ?_
  rw [sum_pair_nan_iff, patternNaN_iff, patternNaN_iff, or_assoc]
  simp only [unpack_inf_iff]
  grind

theorem nanExactly_sub : NaNExactly (Fmt.f32.sub a b)
    ((patternNaN .f32 a ∨ patternNaN .f32 b) ∨ patternInf .f32 a ∧ patternInf .f32 b ∧ patternNeg .f32 a = patternNeg .f32 b) := by
  refine nanExactly_pack ?_
  rw [sum_pair_nan_iff, patternNaN_iff, patternNaN_iff, or_assoc, neg_nan_iff]
  simp only [neg_inf_iff, unpack_inf_iff]
  grind

theorem nanExactly_mul : NaNExactly (Fmt.f32.mul a b) ((patternNaN .f32 a ∨ patternNaN .f32 b) ∨ NoProduct a b) :=
  nanExactly_pack (mul_nan_iff a b)

theorem nanExactly_fma : NaNExactly (Fmt.f32.fma a b c) (((patternNaN .f32 a ∨ patternNaN .f32 b) ∨ NoProduct a b) ∨ patternNaN .f32 c ∨
    (patternInf .f32 a ∨ patternInf .f32 b) ∧ patternInf .f32 c ∧ (patternNeg .f32 c ↔ patternNeg .f32 a = patternNeg .f32 b)) := by
  refine nanExactly_pack ?_
  rw [sum_pair_nan_iff, ← mul_nan_iff, patternNaN_iff]
  by_cases h : (Fmt.f32.unpack a).mul (Fmt.f32.unpack b) = .nan
  · simp [h]
  · simp only [mul_inf_iff a b _ h, unpack_inf_iff]
    grind

theorem isNaN_iff {f : Fmt} {p : Nat} : (f.unpack p).isNaN = true ↔ patternNaN f p := by
  rw [patternNaN_iff]
  cases f.unpack p <;> simp [FVal.isNaN]

theorem isNaN_or_iff : ((Fmt.f32.unpack a).isNaN || (Fmt.f32.unpack b).isNaN) = true ↔ patternNaN .f32 a ∨ patternNaN .f32 b := by
  rw [Bool.or_eq_true, isNaN_iff, isNaN_iff]

/-- `min` and `max` choose an operand, unless one is a NaN. -/
theorem nanExactly_choice {r : Nat} (h : r = a ∨ r = b) :
    NaNExactly (if (Fmt.f32.unpack a).isNaN || (Fmt.f32.unpack b).isNaN then Fmt.f32.canonNaN else r) (patternNaN .f32 a ∨ patternNaN .f32 b) := by
  split
  · next nan => exact nanExactly_canonNaN ((isNaN_or_iff a b).1 nan)
  · next number =>
    have numbers := mt (isNaN_or_iff a b).2 number
    refine nanExactly_number numbers ?_
    rcases h with rfl | rfl
    · exact fun nan => numbers (.inl nan)
    · exact fun nan => numbers (.inr nan)

theorem nanExactly_min : NaNExactly (Fmt.f32.min a b) (patternNaN .f32 a ∨ patternNaN .f32 b) :=
  nanExactly_choice a b (ite_eq_or_eq _ a b)

theorem nanExactly_max : NaNExactly (Fmt.f32.max a b) (patternNaN .f32 a ∨ patternNaN .f32 b) :=
  nanExactly_choice a b (ite_eq_or_eq _ b a).symm

theorem nanExactly_div : NaNExactly (Fmt.f32.div a b) ((patternNaN .f32 a ∨ patternNaN .f32 b) ∨
    patternInf .f32 a ∧ patternInf .f32 b ∨ patternZero .f32 a ∧ patternZero .f32 b) := by
  simp only [patternNaN_iff, patternInf_iff, patternZero_f32, Fmt.div]
  rcases unpack_cases .f32 a with ha | ha | ⟨m, e, ha⟩
  · rw [ha]; exact nanExactly_canonNaN (.inl (.inl rfl))
  · rcases unpack_cases .f32 b with hb | hb | ⟨n, k, hb⟩ <;> rw [ha, hb]
    · exact nanExactly_canonNaN (.inl (.inr rfl))
    · exact nanExactly_canonNaN (.inr (.inl ⟨rfl, rfl⟩))
    · exact nanExactly_number (by simp) (not_patternNaN_signed le_rfl)
  · rcases unpack_cases .f32 b with hb | hb | ⟨n, k, hb⟩ <;> simp only [ha, hb]
    · exact nanExactly_canonNaN (by simp)
    · exact nanExactly_number (by simp) (not_patternNaN_signed (Nat.zero_le _))
    · split_ifs with divisor dividend dividend
      · exact nanExactly_canonNaN (by simp [dividend, divisor])
      · exact nanExactly_number (by simp [dividend]) (not_patternNaN_signed le_rfl)
      · exact nanExactly_number (by simp [divisor]) (not_patternNaN_signed (Nat.zero_le _))
      · exact nanExactly_number (by simp [divisor]) (not_patternNaN_round _ _ _ _ _ _)

/-! ### Quotients of a finite value (R244) -/

/-- A pattern that is no NaN and no infinity is a finite value. -/
theorem unpack_finite (h : ¬ patternNaN .f32 a) (hi : ¬ patternInf .f32 a) : ∃ m e, Fmt.f32.unpack a = .fin (patternNeg .f32 a) m e :=
  ((unpack_cases .f32 a).resolve_left (mt patternNaN_iff.2 h)).resolve_left (mt patternInf_iff.2 hi)

theorem signed_f32 (neg : Bool) (bits : Nat) : Fmt.f32.signed neg bits = (if neg then 2 ^ 31 else 0) + bits := by
  cases neg
  · exact (Nat.zero_add bits).symm
  · rfl

theorem div_zero_eq (h : ¬ patternNaN .f32 a) (hi : ¬ patternInf .f32 a) (ha : ¬ patternZero .f32 a) (hb : patternZero .f32 b) :
    Fmt.f32.div a b = (if patternNeg .f32 a ≠ patternNeg .f32 b then 2 ^ 31 else 0) + 0x7F800000 := by
  obtain ⟨m, e, ua⟩ := unpack_finite a h hi
  obtain ⟨k, ub⟩ := (patternZero_f32 b).1 hb
  have nonzero : m ≠ 0 := fun hm => ha ((patternZero_f32 a).2 ⟨e, hm ▸ ua⟩)
  simp only [Fmt.div, ua, ub, if_pos, if_neg nonzero, signed_f32, bne_iff_ne]
  rfl

theorem div_inf_eq (h : ¬ patternNaN .f32 a) (hi : ¬ patternInf .f32 a) (hb : patternInf .f32 b) :
    Fmt.f32.div a b = if patternNeg .f32 a ≠ patternNeg .f32 b then 2 ^ 31 else 0 := by
  obtain ⟨m, e, ua⟩ := unpack_finite a h hi
  simp only [Fmt.div, ua, patternInf_iff.1 hb, signed_f32, bne_iff_ne, Nat.add_zero]

end operands

/-! ### Compares (R245) -/

/-- One pattern is below another, where -0 and +0 are equal. -/
def below (x y : Nat) : Bool := decide (Fmt.f32.rank x < Fmt.f32.rank y) && !(decide (x % 2 ^ 31 = 0) && decide (y % 2 ^ 31 = 0))

/-- The eight conditions, from whether an operand is a NaN and which is below the other. -/
def condition (c : Nat) (nan less greater : Bool) : Bool :=
  match c with
  | 0 => !nan && !less && !greater
  | 1 => nan || less || greater
  | 2 => !nan && less
  | 3 => !nan && !greater
  | 4 => !nan && greater
  | 5 => !nan && !less
  | 6 => nan
  | _ => !nan

theorem rank_f32 (p : Nat) : Fmt.f32.rank p = if p / 2 ^ 31 % 2 = 1 then -((p % 2 ^ 31 : Nat) : Int) - 1 else ((p % 2 ^ 31 : Nat) : Int) := by
  simp only [Fmt.rank, Fmt.signBit, Fmt.f32, Nat.testBit_eq_decide_div_mod_eq, Nat.one_shiftLeft, decide_eq_true_eq]

/-- No two patterns have the same place in the order of values. -/
theorem rank_inj {a b : Nat} (ha : a < 2 ^ 32) (hb : b < 2 ^ 32) (h : Fmt.f32.rank a = Fmt.f32.rank b) : a = b := by
  rw [rank_f32, rank_f32] at h
  split_ifs at h <;> omega

/-- Two patterns neither of which is below the other are equal, or zeros of either sign. -/
theorem equal_iff_not_below {a b : Nat} (ha : a < 2 ^ 32) (hb : b < 2 ^ 32) :
    ((a % 2 ^ 31 == 0 && b % 2 ^ 31 == 0) || a == b) = (!below a b && !below b a) := by
  have place : a = b ↔ Fmt.f32.rank a = Fmt.f32.rank b := ⟨congrArg _, rank_inj ha hb⟩
  rw [Bool.eq_iff_iff]
  simp only [below, Bool.or_eq_true, Bool.and_eq_true, beq_iff_eq, Bool.not_eq_true', Bool.and_eq_false_iff, Bool.not_eq_false',
    decide_eq_true_eq, decide_eq_false_iff_not, place]
  omega

theorem not_below_of_below (a b : Nat) (h : below a b = true) : below b a = false := by
  simp only [below, Bool.and_eq_true, decide_eq_true_eq] at h
  rw [below, decide_eq_false (not_lt_of_gt h.1), Bool.false_and]

theorem floatCond_eq (c : Nat) {a b : Nat} (ha : a < 2 ^ 32) (hb : b < 2 ^ 32) :
    floatCond c a b = condition c ((Fmt.f32.unpack a).isNaN || (Fmt.f32.unpack b).isNaN) (below a b) (below b a) := by
  have less : (!(a % 2 ^ 31 == 0 && b % 2 ^ 31 == 0) && decide (Fmt.f32.rank a < Fmt.f32.rank b)) = below a b := Bool.and_comm _ _
  have lessOrEqual : (below a b || (!below a b && !below b a)) = !below b a := by
    cases h : below a b with
    | false => simp
    | true => simp [not_below_of_below a b h]
  simp only [floatCond, condition, less, equal_iff_not_below ha hb, lessOrEqual]
  split <;> simp [Bool.and_assoc, Bool.or_assoc]

theorem cmpF32_completes {s : State} {f : CmpForm} {e : Env} (h : readyVec s e (.cmpF32 f) f.uses = true) :
    Completes (.cmpF32 f) s (fun t => PredDone s t e (e.issueSet f.g) (if f.n = 0 then f.p.toNat else 0) (fun l =>
      let a := (e.operand .f32 l f.a).toNat
      let b := (e.operand .f32 l f.b).toNat
      condition f.c.toNat ((Fmt.f32.unpack a).isNaN || (Fmt.f32.unpack b).isNaN) (below a b) (below b a))) := by
  simp only [← floatCond_eq _ (BitVec.isLt _) (BitVec.isLt _)]
  exact predResult_of_ready h _ (fun e _ l => floatCond f.c.toNat (e.operand .f32 l f.a).toNat (e.operand .f32 l f.b).toNat) _ rfl

theorem canonNaN_f32 : Fmt.f32.canonNaN = 0x7FC00000 ∧ patternNaN .f32 Fmt.f32.canonNaN := by
  unfold patternNaN; decide

/-- Settles O5: the compare by the order of patterns; the special operands by the exact condition under which each operation gives a NaN. -/
theorem floatComparesAndSpecialOperands : Obligations.FloatComparesAndSpecialOperands := by
  unfold Obligations.FloatComparesAndSpecialOperands
  refine ⟨fun s f e h => cmpF32_completes h, fun a b c _ _ _ => ?_⟩
  obtain ⟨canon, canonIsNaN⟩ := canonNaN_f32
  obtain ⟨addNaN, addNum⟩ := nanExactly_add a b
  obtain ⟨subNaN, subNum⟩ := nanExactly_sub a b
  obtain ⟨mulNaN, mulNum⟩ := nanExactly_mul a b
  obtain ⟨divNaN, divNum⟩ := nanExactly_div a b
  obtain ⟨fmaNaN, fmaNum⟩ := nanExactly_fma a b c
  obtain ⟨minNaN, minNum⟩ := nanExactly_min a b
  obtain ⟨maxNaN, maxNum⟩ := nanExactly_max a b
  refine ⟨canon, canonIsNaN, fun nan => ⟨addNaN (.inl nan), subNaN (.inl nan), mulNaN (.inl nan), divNaN (.inl nan), fmaNaN (.inl (.inl nan)),
      minNaN nan, maxNaN nan⟩, fun nan => fmaNaN (.inr (.inl nan)), fun infs => addNaN (.inr infs), fun infs => subNaN (.inr infs),
    fun none => ⟨mulNaN (.inr none), fmaNaN (.inl (.inr none))⟩, fun _ _ inf infC signs => fmaNaN (.inr (.inr ⟨inf, infC, signs⟩)),
    fun pair => divNaN (.inr pair), fun ⟨num, fin, nonzero, zero⟩ => div_zero_eq a b num fin nonzero zero,
    fun ⟨num, fin, inf⟩ => div_inf_eq a b num fin inf, fun num => ⟨minNum num, maxNum num, fun infs => addNum (not_or.2 ⟨num, infs⟩),
      fun infs => subNum (not_or.2 ⟨num, infs⟩), fun product => mulNum (not_or.2 ⟨num, product⟩), fun pair => divNum (not_or.2 ⟨num, pair⟩),
      fun product numC infs => fmaNum (not_or.2 ⟨not_or.2 ⟨num, product⟩, not_or.2 ⟨numC, infs⟩⟩)⟩⟩

end Sys2Proof.LaneFloat
end
